-- ==== Sys2Proof/Word.lean ====
section
/-! DEFINITION. The words and the small closed types of the Limsol Frapra: register numbers, engines,
trap causes (R75), rounding modes (R156), and the records that packets, itinerary entries and events carry. -/
namespace Sys2Proof

/-- A byte of storage. -/
abbrev Byte := BitVec 8
/-- A stream, packet or entry word (R9, R24). -/
abbrev Word := BitVec 32
/-- A scalar register's value (R64). -/
abbrev DWord := BitVec 64
/-- The 128 bits of a capability (R220). -/
abbrev CapBits := BitVec 128
/-- An allocation generation; 0 is void (R240). -/
abbrev Gen := BitVec 16
/-- A 64-byte granule (R219, R273); byte 0 is bits 7..0. -/
abbrev Granule := BitVec 512
/-- A vector register or an accumulator row, 512 bytes (R64, R186). -/
abbrev VBits := BitVec 4096
/-- A tile, 1 KiB (R64). -/
abbrev TBits := BitVec 8192
/-- A predicate (R64). -/
abbrev PBits := BitVec 1024

/-- The four engines, counted as R43 counts them. -/
inductive Engine where
  | S | V | M | C
deriving DecidableEq, Repr

/-- R43: S = 0, V = 1, M = 2, C = 3. -/
def Engine.num : Engine → Nat
  | .S => 0 | .V => 1 | .M => 2 | .C => 3

/-- The TK field (R24). -/
abbrev Tk := BitVec 4
/-- Register fields (R31). -/
abbrev XReg := BitVec 5
abbrev CReg := BitVec 4
abbrev PReg := BitVec 5
abbrev VReg := BitVec 6
abbrev TReg := BitVec 3
/-- A region number (R170). -/
abbrev Rg := BitVec 4

/-- Trap causes (Table 3.10). -/
inductive Cause where
  | fetchBound | fetchMisaligned | illegalWord | illegalPrefix | reservedField | orphanPrefix
  | illegalOpcode | supervisorOnly | unitAbsent | tokenPattern
  | bypassEmpty | tileUnconfigured | staleRead | formatMismatch | capRights | capBound
  | dataMisaligned | scratchBound | crewWindow
  | capStale | pageUncommitted | poison | integrity
  | tokenDeadlock | slotExhausted | crewExitUnsynced | uiState
  | brk | trapu
deriving DecidableEq, Repr

/-- The codes that Table 3.10 gives the causes of the memory port, of waits and of software. -/
def Cause.lateCode : Cause → Nat
  | .capStale => 0x20 | .pageUncommitted => 0x21 | .poison => 0x22 | .integrity => 0x23
  | .tokenDeadlock => 0x30 | .slotExhausted => 0x31 | .crewExitUnsynced => 0x32 | .uiState => 0x33
  | .brk => 0xF0 | _ => 0xF1

/-- The codes that Table 3.10 gives the causes of execution checks, from 0x10 on. -/
def Cause.execCode : Cause → Nat
  | .bypassEmpty => 0x10 | .tileUnconfigured => 0x11 | .staleRead => 0x12 | .formatMismatch => 0x13
  | .capRights => 0x14 | .capBound => 0x15 | .dataMisaligned => 0x16 | .scratchBound => 0x17
  | .crewWindow => 0x18 | c => c.lateCode

/-- The cause codes of Table 3.10: those of fetch and decode from 0x01 on. -/
def Cause.code : Cause → Nat
  | .fetchBound => 0x01 | .fetchMisaligned => 0x02 | .illegalWord => 0x03 | .illegalPrefix => 0x04
  | .reservedField => 0x05 | .orphanPrefix => 0x06 | .illegalOpcode => 0x07 | .supervisorOnly => 0x08
  | .unitAbsent => 0x09 | .tokenPattern => 0x0A | c => c.execCode

/-- The causes the memory port returns (Table 3.10, step 4 of R75). -/
def Cause.isPort : Cause → Bool
  | .capStale | .pageUncommitted | .poison | .integrity => true
  | _ => false

/-- Rounding modes (R156). -/
inductive RMode where
  | rne | rtz | rup | rdn | rna
deriving DecidableEq, Repr

/-- Queue stop causes (Table 14.2). -/
inductive QCause where
  | illegal | format | privilege | absent | access | kernelFormat | launchRights | launchGroups
deriving DecidableEq, Repr

/-- The codes of Table 14.2. -/
def QCause.code : QCause → Nat
  | .illegal => 1 | .format => 2 | .privilege => 3 | .absent => 4 | .access => 5
  | .kernelFormat => 6 | .launchRights => 7 | .launchGroups => 8

/-- Entry status codes (R330). -/
inductive Status where
  | done | absent | isolated | dropped | illegal | reserved | refused
deriving DecidableEq, Repr

/-- The codes of R330. -/
def Status.code : Status → Nat
  | .done => 1 | .absent => 2 | .isolated => 3 | .dropped => 4 | .illegal => 5 | .reserved => 6
  | .refused => 7

/-- A kernel handle: space, kernel object, object generation (R51). -/
structure Handle where
  space : Nat
  obj : Nat
  gen : Nat
deriving DecidableEq, Repr

/-- The fields of LAUNCH (Table 10.2, R293); extents are the fields' values, minus one. -/
structure LaunchArgs where
  chain : Bool
  pri : BitVec 3
  copyonly : Bool
  order : BitVec 2
  swz : BitVec 4
  size : BitVec 4
  kobj : BitVec 24
  kgen : BitVec 16
  gtrap : Bool
  gx : BitVec 16
  gy : BitVec 16
  gz : BitVec 16
  lxobj : BitVec 24
  gt : Bool
  lxgen : BitVec 16
  rel : BitVec 16
  budget : BitVec 16
  arg0 : CapBits
  arg1 : CapBits
deriving DecidableEq, Repr

/-- The fields of MOVE (Table 15.1, R340). With DTIER = LAND the landing fields hold, else DOFF. -/
structure MoveArgs where
  wclass : BitVec 4
  stier : BitVec 2
  dtier : BitVec 2
  mc : Bool
  sobj : BitVec 24
  sgen : BitVec 16
  soff : BitVec 40
  dobj : BitVec 24
  dgen : BitVec 16
  len : BitVec 16
  doff : BitVec 40
  z : BitVec 4
  core : BitVec 9
  die : BitVec 2
  zoff : BitVec 12
  due : BitVec 32
deriving DecidableEq, Repr

/-- A held object of a suspended context (R82, R204): a tile of a core, a plane or a row of a quad. -/
inductive HeldObj where
  | tile (core t : Nat)
  | plane (quad : Nat) (b : Bool)
  | row (quad r : Nat)
deriving DecidableEq, Repr

/-- What the world supplies as a boot phase ends (Table 19.1): nothing more, a failure with ERR and DETAIL, the number of
LPDDR-6 devices that trained and the ones that failed (phase 4), the ports left down and the hint mailboxes found (phase 5). -/
inductive BootOutcome where
  | pass
  | fail (err detail : Nat)
  | bulk (devices : Nat) (failed : List Nat)
  | ports (cxlDown ovlDown : List Nat) (mailboxes : List (Nat × Nat))
deriving DecidableEq, Repr

/-- What a debug access names (R243): a granule, a tagged register (`sx` the shadow of x24 to x31), a tile, an accumulator
row, a row of a plane or its scales. -/
inductive DebugObj where
  | granule (core g : Nat)
  | x (core n : Nat)
  | sx (core n : Nat)
  | c (core n : Nat)
  | p (core n : Nat)
  | v (core n : Nat)
  | tile (core n : Nat)
  | row (core r : Nat)
  | plane (core : Nat) (b : Bool) (k : Nat)
  | scales (core : Nat) (b : Bool)
deriving DecidableEq, Repr

/-- A link that replays or retrains (R374, R375, R371). -/
inductive Link where
  | ovlan (p : Nat)
  | boundary (b : Nat)
  | cxl (p : Nat)
deriving DecidableEq, Repr

/-- A CXL.mem completion (R370): data, data poison, or an error status other than poison. -/
inductive CxlResult where
  | ok
  | poison
  | error
deriving DecidableEq, Repr

end Sys2Proof
end

