-- ==== Sys2Proof/Config.lean ====
section
/-! DEFINITION. What the spec leaves to the implementation or leaves open: constants with no body, so that nothing
can be proved of their values, and the fused capabilities as plain data. -/
namespace Sys2Proof.Config
open Sys2Proof

/-- A free value, numbered by a counter of the state (log entry 7). -/
opaque freeBits : Nat → Nat

/-- A free value that the operands decide: an element function's result where R120 leaves more than one encoding or
the model's interval arithmetic does not decide the rounding (log entry 15). -/
opaque freeSeed : Nat → Nat → Nat

/-- The two check symbols of the Reed-Solomon code over the 512 data bits and the 64 guard bits of a granule (R358; log
entry 75). -/
opaque rsCheck : BitVec 512 → BitVec 64 → BitVec 32

/-- What a granule whose check symbols do not fit is corrected to, where one symbol in error explains it; none where no
single symbol does (R358; log entry 75). -/
opaque rsFix : BitVec 512 → BitVec 64 → BitVec 32 → Option (BitVec 512 × BitVec 64)

/-- The key that a reset draws for a key domain, by the number of the reset (R359; log entry 75). -/
opaque key : Nat → BitVec 6 → BitVec 256

/-- The first 48 bits of KMAC256 under a key over physical address, data, KD and P (R358; log entry 11). -/
opaque kmac : BitVec 256 → Nat → BitVec 512 → BitVec 6 → Bool → BitVec 48

/-- The channel of a controller that holds a granule (R361; log entry 13). -/
opaque channel : Nat → Nat → Nat

/-- The LPDDR-6 device that holds an address of an IOD (log entry 13). -/
opaque bulkDevice : Nat → Nat

/-- The controller that owns a physical address reached by no object (log entry 13). -/
opaque physCtrl : Nat → Nat

/-- Whether the way from a die to a place of a tier crosses a die boundary (log entry 13). -/
opaque crosses : Nat → Nat → Nat → Nat → Bool

/-- Whether a frame lies in a die's own HBM4E stack (log entry 14). -/
opaque inStack : Nat → Nat → Bool

/-- The package's number on Ovlan Link, 0 to 15 (R374; log entry 17). -/
opaque package : BitVec 4

/-- The Ovlan port on which flits to a multicast group, or to 256 + a package, leave (R374; log entry 66). -/
opaque ovlPort : Nat → Nat

/-- Whether a physical address is POOL's, whose bytes a reset of the package leaves (R380; log entry 13). -/
opaque isPool : Nat → Bool

/-- SHA3-512 (log entry 11). -/
opaque sha3 : List Byte → BitVec 512

/-- ML-DSA-87 verification: public key, message, signature (log entry 11). -/
opaque mldsaVerify : List Byte → List Byte → List Byte → Bool

/-- ML-DSA-87 signing with the key that a seed generates: seed, message (log entry 11). -/
opaque mldsaSign : List Byte → List Byte → List Byte

/-- The unique device secret in fuses (R385; log entry 9). -/
opaque uds : BitVec 512

/-- DeviceID's certificate, written at manufacture (R385; log entry 11). -/
opaque deviceCert : List Byte

/-- The certificate of an Alias key under a DeviceID key, by their seeds (R385; log entry 11). -/
opaque aliasCert : List Byte → List Byte → List Byte

/-- The boot flash: the image of a KIND (log entry 9). -/
opaque flash : Nat → List Byte

/-- The key digests fused in the slots, none for a revoked slot (log entry 9). -/
opaque keySlot : Nat → Option (BitVec 512)

/-- The size of a flash partition (log entry 9). -/
opaque partitionSize : Nat → Nat

/-- The four variants (Table 0.1). -/
inductive Variant where
  | m96 | m48 | m96n | p
deriving DecidableEq, Repr

/-- The power of a variant, in watts (Table 0.1). -/
def Variant.watts : Variant → Nat
  | .m96 => 2400
  | .m48 => 1250
  | .m96n => 2200
  | .p => 2310

/-- The fused fields of CAPS (Table 0.2), with the variant, which software meets only through them and the power limit, and the
LPDDR-6 devices that the package mounts (R2). -/
structure Caps where
  variant : Variant := .m96
  mounted : BitVec 5 := 16
  step : BitVec 8 := 1
  clusters : BitVec 8 := 96
  rqg : Bool := true
  hcmp : Bool := true
  ovl : Bool := true
  ovlPorts : BitVec 4 := 8
  cxlPorts : BitVec 4 := 8
  nStacks : BitVec 4 := 4
  dies : BitVec 4 := 4
deriving DecidableEq, Repr

/-- CAPS as software reads it (Table 0.2), with the trained BULK_SIZE. -/
def capsWord (c : Caps) (bulk : Nat) : DWord :=
  0#16 ++ c.step ++ c.clusters ++ 0#6 ++ BitVec.ofNat 6 bulk ++ 0#1 ++ BitVec.ofBool c.rqg ++ BitVec.ofBool c.hcmp ++
    BitVec.ofBool c.ovl ++ c.ovlPorts ++ c.cxlPorts ++ c.nStacks ++ c.dies

end Sys2Proof.Config
end

