-- ==== Sys2Proof/Machine/Map.lean ====
section
/-! DEFINITION. Finite maps as plain data: lists of (key, value) with keys strictly rising and no value equal to
what an unlisted key reads as. Register files, tables and memory are held so. -/
namespace Sys2Proof.Machine

/-- A finite map from numbers. -/
abbrev FMap (α : Type) := List (Nat × α)

/-- The value listed at a key. -/
def mapFind {α : Type} (m : FMap α) (k : Nat) : Option α := (m.find? fun p => p.1 == k).map Prod.snd

/-- The value at a key, `d` where none is listed. -/
def mapGet {α : Type} (d : α) (m : FMap α) (k : Nat) : α := (mapFind m k).getD d

/-- The map without a key. -/
def mapErase {α : Type} (m : FMap α) (k : Nat) : FMap α := m.filter fun p => p.1 != k

/-- The map with `v` at `k`, between the lower and the higher keys. -/
def mapPut {α : Type} (m : FMap α) (k : Nat) (v : α) : FMap α :=
  (m.filter fun p => decide (p.1 < k)) ++ (k, v) :: m.filter fun p => decide (k < p.1)

/-- The map with `v` at `k`, where an unlisted key reads `d`: a value equal to `d` is not listed. -/
def mapSet {α : Type} [DecidableEq α] (d : α) (m : FMap α) (k : Nat) (v : α) : FMap α :=
  if v = d then mapErase m k else mapPut m k v

/-- The map with the value at `k` changed by `f`, where an unlisted key reads `d`. -/
def mapMod {α : Type} [DecidableEq α] (d : α) (m : FMap α) (k : Nat) (f : α → α) : FMap α :=
  mapSet d m k (f (mapGet d m k))

/-- Keys strictly rising. -/
def mapSorted {α : Type} : FMap α → Bool
  | [] => true
  | [_] => true
  | (k, _) :: (k', v') :: r => decide (k < k') && mapSorted ((k', v') :: r)

/-- The canonical form: keys strictly rising, no value equal to the default. -/
def mapWf {α : Type} [DecidableEq α] (d : α) (m : FMap α) : Bool :=
  mapSorted m && m.all (fun p => decide (p.2 ≠ d))

/-- `f` folded over 0, 1, …, n - 1. -/
def iter {σ : Type} (n : Nat) (s : σ) (f : Nat → σ → σ) : σ :=
  match n with
  | 0 => s
  | k + 1 => f k (iter k s f)

/-- The least `k < n` from `i` on with `p k`. -/
def firstFrom (i : Nat) (n : Nat) (p : Nat → Bool) : Option Nat :=
  match n with
  | 0 => none
  | m + 1 => if p i then some i else firstFrom (i + 1) m p

/-- The least `k < n` with `p k`. -/
def firstBelow (n : Nat) (p : Nat → Bool) : Option Nat := firstFrom 0 n p

end Sys2Proof.Machine
end

