-- ==== Sys2Proof/Machine/Bits.lean ====
section
/-! DEFINITION. Bit fields, sign extension and the little-endian byte order (R9) of the part. -/
namespace Sys2Proof.Machine

/-- Bits `lo + w - 1` down to `lo`. -/
def bits {n : Nat} (x : BitVec n) (lo w : Nat) : BitVec w := x.extractLsb' lo w

/-- Bits `lo + w - 1` down to `lo`, as a number. -/
def fieldOf {n : Nat} (x : BitVec n) (lo w : Nat) : Nat := (x.extractLsb' lo w).toNat

/-- Whether bits `lo + w - 1` down to `lo` are zero. -/
def zeroBits {n : Nat} (x : BitVec n) (lo w : Nat) : Bool := x.extractLsb' lo w == 0#w

/-- `x` with bits `lo + w - 1` down to `lo` replaced. -/
def setBits {n : Nat} (x : BitVec n) (lo w : Nat) (v : BitVec w) : BitVec n :=
  let m := (BitVec.allOnes w).setWidth n <<< lo
  (x &&& ~~~m) ||| (v.setWidth n <<< lo)

/-- Element `i` of `k` bits. -/
def elem {n : Nat} (k : Nat) (x : BitVec n) (i : Nat) : BitVec k := x.extractLsb' (i * k) k

/-- `x` with element `i` of `k` bits replaced. -/
def setElem {n : Nat} (k : Nat) (x : BitVec n) (i : Nat) (v : BitVec k) : BitVec n := setBits x (i * k) k v

/-- The number whose base 2^k digits are listed, the least first. -/
def packNat (k : Nat) : List Nat → Nat
  | [] => 0
  | d :: r => d + (packNat k r) <<< k

/-- The vector whose elements of `k` bits are listed, the least first. -/
def packElems (n k : Nat) (l : List (BitVec k)) : BitVec n := BitVec.ofNat n (packNat k (l.map BitVec.toNat))

/-- The `cnt` lowest elements of `k` bits, the least first. -/
def elems {n : Nat} (k cnt : Nat) (x : BitVec n) : List (BitVec k) :=
  (List.range cnt).map fun i => elem k x i

/-- The bytes of a value, the least significant first (R9). -/
def toBytes {n : Nat} (cnt : Nat) (x : BitVec n) : List Byte := elems 8 cnt x

/-- The value whose bytes are listed, the least significant first (R9). -/
def ofBytes (n : Nat) (l : List Byte) : BitVec n := packElems n 8 l

/-- A number as 64 bits. -/
def d64 (n : Nat) : DWord := BitVec.ofNat 64 n

/-- An integer as 64 bits, modulo 2^64. -/
def i64 (n : Int) : DWord := BitVec.ofInt 64 n

/-- A truth value as 64 bits. -/
def b64 (b : Bool) : DWord := if b then 1#64 else 0#64

/-- A truth value as one bit. -/
def bit1 (b : Bool) : BitVec 1 := if b then 1#1 else 0#1

/-- The list of `i < n` whose bit of a mask is set, rising. -/
def bitList {w : Nat} (n : Nat) (m : BitVec w) : List Nat := (List.range n).filter fun i => m.getLsbD i

/-- 2^k divides n. -/
def aligned (n k : Nat) : Bool := n % 2 ^ k == 0

/-- Rounded up to a multiple of `m`. -/
def roundUp (n m : Nat) : Nat := (n + (m - 1)) / m * m

/-- Least m with 2^m ≥ n. -/
def log2Up (n : Nat) : Nat := if n ≤ 1 then 0 else (n - 1).log2 + 1

end Sys2Proof.Machine
end

