-- ==== Sys2Proof/Syntax.lean ====
section
/-! DEFINITION. The instructions and steps of the part: one constructor for each row of spec/opcode_table.json,
in the order of the table. Engine instructions carry the fields of their words (R32 to R39), packets and entries
the fields of R40, R41 and the rules that lay them out, events what tells one event from another. -/
namespace Sys2Proof

/-- One constructor for each row of the operation table. -/
inductive Instr where
  /-- ARITH (R13). Arithmetic prefix that overrides rounding, saturation, flush, transience, predication and format for the following instruction. -/
  | arith (rm : BitVec 3) (sat : Bool) (ftz : BitVec 2) (t : Bool) (pred : PReg) (pneg pen : Bool) (fmt : BitVec 4)
  /-- LABEL (R28). Prefix that gives the following mstream a product label. -/
  | label (lbl : BitVec 10)
  /-- IMMX (R29). Prefix that supplies 26 upper immediate bits to the follower's immediate. -/
  | immx (upper : BitVec 26)
  /-- SNOP (R112). Scalar no-operation that only moves its tokens. -/
  | snop (tk : Tk)
  /-- ADD (R86). xd := xa + xb modulo 2^64. -/
  | add (tk : Tk) (xd xa xb : XReg)
  /-- SUB (R86). xd := xa - xb modulo 2^64. -/
  | sub (tk : Tk) (xd xa xb : XReg)
  /-- AND (R86). Bitwise AND of xa and xb. -/
  | andR (tk : Tk) (xd xa xb : XReg)
  /-- OR (R86). Bitwise OR of xa and xb. -/
  | orR (tk : Tk) (xd xa xb : XReg)
  /-- XOR (R86). Bitwise XOR of xa and xb. -/
  | xorR (tk : Tk) (xd xa xb : XReg)
  /-- SLL (R86). Shifts xa left by xb[5:0] with zero fill. -/
  | sll (tk : Tk) (xd xa xb : XReg)
  /-- SRL (R86). Shifts xa right by xb[5:0] with zero fill. -/
  | srl (tk : Tk) (xd xa xb : XReg)
  /-- SRA (R86). Shifts xa right by xb[5:0] with sign fill. -/
  | sra (tk : Tk) (xd xa xb : XReg)
  /-- SLT (R86). Sets xd to 1 if xa < xb as signed, else 0. -/
  | slt (tk : Tk) (xd xa xb : XReg)
  /-- SLTU (R86). Sets xd to 1 if xa < xb as unsigned, else 0. -/
  | sltu (tk : Tk) (xd xa xb : XReg)
  /-- MIN (R86). Signed minimum of xa and xb. -/
  | minR (tk : Tk) (xd xa xb : XReg)
  /-- MAX (R86). Signed maximum of xa and xb. -/
  | maxR (tk : Tk) (xd xa xb : XReg)
  /-- MINU (R86). Unsigned minimum of xa and xb. -/
  | minu (tk : Tk) (xd xa xb : XReg)
  /-- MAXU (R86). Unsigned maximum of xa and xb. -/
  | maxu (tk : Tk) (xd xa xb : XReg)
  /-- MUL (R87). Low 64 bits of xa times xb. -/
  | mul (tk : Tk) (xd xa xb : XReg)
  /-- MULH (R87). High 64 bits of the signed product. -/
  | mulh (tk : Tk) (xd xa xb : XReg)
  /-- MULHU (R87). High 64 bits of the unsigned product. -/
  | mulhu (tk : Tk) (xd xa xb : XReg)
  /-- MULHSU (R87). High 64 bits of signed xa times unsigned xb. -/
  | mulhsu (tk : Tk) (xd xa xb : XReg)
  /-- DIV (R87). Signed quotient rounded toward zero, with fixed edge results. -/
  | div (tk : Tk) (xd xa xb : XReg)
  /-- DIVU (R87). Unsigned quotient with fixed edge results. -/
  | divu (tk : Tk) (xd xa xb : XReg)
  /-- REM (R87). Signed remainder with the sign of xa. -/
  | rem (tk : Tk) (xd xa xb : XReg)
  /-- REMU (R87). Unsigned remainder. -/
  | remu (tk : Tk) (xd xa xb : XReg)
  /-- ADDI (R88). Adds a sign-extended immediate to xa. -/
  | addi (tk : Tk) (xd xa : XReg) (imm : BitVec 10)
  /-- ANDI (R88). ANDs xa with a sign-extended immediate. -/
  | andi (tk : Tk) (xd xa : XReg) (imm : BitVec 10)
  /-- ORI (R88). ORs xa with a sign-extended immediate. -/
  | ori (tk : Tk) (xd xa : XReg) (imm : BitVec 10)
  /-- XORI (R88). XORs xa with a sign-extended immediate. -/
  | xori (tk : Tk) (xd xa : XReg) (imm : BitVec 10)
  /-- SLLI (R88). Shifts xa left by an immediate count. -/
  | slli (tk : Tk) (xd xa : XReg) (n : BitVec 6)
  /-- SRLI (R88). Shifts xa right logically by an immediate count. -/
  | srli (tk : Tk) (xd xa : XReg) (n : BitVec 6)
  /-- SRAI (R88). Shifts xa right arithmetically by an immediate count. -/
  | srai (tk : Tk) (xd xa : XReg) (n : BitVec 6)
  /-- SLTI (R88). Signed compare of xa with an immediate. -/
  | slti (tk : Tk) (xd xa : XReg) (imm : BitVec 10)
  /-- SLTIU (R88). Unsigned compare of xa with a sign-extended immediate. -/
  | sltiu (tk : Tk) (xd xa : XReg) (imm : BitVec 10)
  /-- LUI (R88). xd := sign-extended immediate times 2^24. -/
  | lui (tk : Tk) (xd : XReg) (imm : BitVec 15)
  /-- CINSP_BASE (R89). Reads the BASE field of a capability into xd. -/
  | cinspBase (tk : Tk) (xd : XReg) (ca : CReg)
  /-- CINSP_LEN (R89). Reads the LEN field of a capability into xd. -/
  | cinspLen (tk : Tk) (xd : XReg) (ca : CReg)
  /-- CINSP_RIGHTS (R89). Reads the RIGHTS field of a capability into xd. -/
  | cinspRights (tk : Tk) (xd : XReg) (ca : CReg)
  /-- CINSP_OBJ (R89). Reads the OBJ field of a capability into xd. -/
  | cinspObj (tk : Tk) (xd : XReg) (ca : CReg)
  /-- CINSP_GEN (R89). Reads the object generation of a capability into xd. -/
  | cinspGen (tk : Tk) (xd : XReg) (ca : CReg)
  /-- PGCOMMIT (R231). Commits a page of a sparse object by taking a frame from the die's pool. -/
  | pgcommit (tk : Tk) (xd : XReg) (cn : CReg) (xo : XReg)
  /-- PGFREE (R234). Frees a committed sparse page after a package-scope release. -/
  | pgfree (tk : Tk) (xd : XReg) (cn : CReg) (xo : XReg)
  /-- PGQUERY (R109). Reads a page's committed state and written-map count. -/
  | pgquery (tk : Tk) (xd : XReg) (cn : CReg) (xo : XReg)
  /-- CWIN (R90). Derives a capability with a narrower window. -/
  | cwin (tk : Tk) (cd ca : CReg) (xa xb : XReg)
  /-- CRT (R90). Derives a capability with reduced rights. -/
  | crt (tk : Tk) (cd ca : CReg) (xa : XReg)
  /-- CMOV (R90). Copies a capability register. -/
  | cmov (tk : Tk) (cd ca : CReg)
  /-- LDB (R92). Loads a sign-extended byte through a capability. -/
  | ldb (tk : Tk) (xd : XReg) (cn : CReg) (xo : XReg) (imm : BitVec 6)
  /-- LDBU (R92). Loads a zero-extended byte through a capability. -/
  | ldbu (tk : Tk) (xd : XReg) (cn : CReg) (xo : XReg) (imm : BitVec 6)
  /-- LDH (R92). Loads a sign-extended half through a capability. -/
  | ldh (tk : Tk) (xd : XReg) (cn : CReg) (xo : XReg) (imm : BitVec 6)
  /-- LDHU (R92). Loads a zero-extended half through a capability. -/
  | ldhu (tk : Tk) (xd : XReg) (cn : CReg) (xo : XReg) (imm : BitVec 6)
  /-- LDW (R92). Loads a sign-extended word through a capability. -/
  | ldw (tk : Tk) (xd : XReg) (cn : CReg) (xo : XReg) (imm : BitVec 6)
  /-- LDWU (R92). Loads a zero-extended word through a capability. -/
  | ldwu (tk : Tk) (xd : XReg) (cn : CReg) (xo : XReg) (imm : BitVec 6)
  /-- LDD (R92). Loads a doubleword through a capability. -/
  | ldd (tk : Tk) (xd : XReg) (cn : CReg) (xo : XReg) (imm : BitVec 6)
  /-- STB (R92). Stores a byte through a capability. -/
  | stb (tk : Tk) (xs : XReg) (cn : CReg) (xo : XReg) (imm : BitVec 6)
  /-- STH (R92). Stores a half through a capability. -/
  | sth (tk : Tk) (xs : XReg) (cn : CReg) (xo : XReg) (imm : BitVec 6)
  /-- STW (R92). Stores a word through a capability. -/
  | stw (tk : Tk) (xs : XReg) (cn : CReg) (xo : XReg) (imm : BitVec 6)
  /-- STD (R92). Stores a doubleword through a capability. -/
  | std (tk : Tk) (xs : XReg) (cn : CReg) (xo : XReg) (imm : BitVec 6)
  /-- SPLD (R83). Loads from the strand's scratchpad through tag_read. -/
  | spld (tk : Tk) (xd xa : XReg) (sz : BitVec 2) (sgn : Bool) (imm : BitVec 7)
  /-- SPST (R83). Stores to the strand's scratchpad through tag_write. -/
  | spst (tk : Tk) (xs xa : XReg) (sz : BitVec 2) (imm : BitVec 7)
  /-- RSPLD (R94). Loads from a crew member's scratchpad through the crew window. -/
  | rspld (tk : Tk) (xd xa : XReg) (sz : BitVec 2) (sgn : Bool) (imm : BitVec 7)
  /-- RSPST (R94). Stores to a crew member's scratchpad through the crew window. -/
  | rspst (tk : Tk) (xs xa : XReg) (sz : BitVec 2) (imm : BitVec 7)
  /-- AMOADD (R96). Atomic add on global memory at the owning controller. -/
  | amoadd (tk : Tk) (xd : XReg) (cn : CReg) (xa xb : XReg) (w : Bool)
  /-- AMOMIN (R96). Atomic signed minimum on global memory. -/
  | amomin (tk : Tk) (xd : XReg) (cn : CReg) (xa xb : XReg) (w : Bool)
  /-- AMOMAX (R96). Atomic signed maximum on global memory. -/
  | amomax (tk : Tk) (xd : XReg) (cn : CReg) (xa xb : XReg) (w : Bool)
  /-- AMOAND (R96). Atomic AND on global memory. -/
  | amoand (tk : Tk) (xd : XReg) (cn : CReg) (xa xb : XReg) (w : Bool)
  /-- AMOOR (R96). Atomic OR on global memory. -/
  | amoor (tk : Tk) (xd : XReg) (cn : CReg) (xa xb : XReg) (w : Bool)
  /-- AMOXOR (R96). Atomic XOR on global memory. -/
  | amoxor (tk : Tk) (xd : XReg) (cn : CReg) (xa xb : XReg) (w : Bool)
  /-- AMOSWAP (R96). Atomic swap on global memory. -/
  | amoswap (tk : Tk) (xd : XReg) (cn : CReg) (xa xb : XReg) (w : Bool)
  /-- AMOCAS (R96). Atomic compare-and-swap on global memory. -/
  | amocas (tk : Tk) (xd : XReg) (cn : CReg) (xa xb : XReg) (w : Bool)
  /-- SPAMO_ADD (R95). Atomic add on a scratchpad location. -/
  | spamoAdd (tk : Tk) (xd xa xb : XReg) (w cw : Bool)
  /-- SPAMO_MIN (R95). Atomic signed minimum on a scratchpad location. -/
  | spamoMin (tk : Tk) (xd xa xb : XReg) (w cw : Bool)
  /-- SPAMO_MAX (R95). Atomic signed maximum on a scratchpad location. -/
  | spamoMax (tk : Tk) (xd xa xb : XReg) (w cw : Bool)
  /-- SPAMO_AND (R95). Atomic AND on a scratchpad location. -/
  | spamoAnd (tk : Tk) (xd xa xb : XReg) (w cw : Bool)
  /-- SPAMO_OR (R95). Atomic OR on a scratchpad location. -/
  | spamoOr (tk : Tk) (xd xa xb : XReg) (w cw : Bool)
  /-- SPAMO_XOR (R95). Atomic XOR on a scratchpad location. -/
  | spamoXor (tk : Tk) (xd xa xb : XReg) (w cw : Bool)
  /-- SPAMO_SWAP (R95). Atomic swap on a scratchpad location. -/
  | spamoSwap (tk : Tk) (xd xa xb : XReg) (w cw : Bool)
  /-- SPAMO_CAS (R95). Atomic compare-and-swap on a scratchpad location. -/
  | spamoCas (tk : Tk) (xd xa xb : XReg) (w cw : Bool)
  /-- BEQ (R97). Branches if xa = xb. -/
  | beq (tk : Tk) (xa xb : XReg) (off : BitVec 10)
  /-- BNE (R97). Branches if xa differs from xb. -/
  | bne (tk : Tk) (xa xb : XReg) (off : BitVec 10)
  /-- BLT (R97). Branches if xa < xb signed. -/
  | blt (tk : Tk) (xa xb : XReg) (off : BitVec 10)
  /-- BGE (R97). Branches if xa >= xb signed. -/
  | bge (tk : Tk) (xa xb : XReg) (off : BitVec 10)
  /-- BLTU (R97). Branches if xa < xb unsigned. -/
  | bltu (tk : Tk) (xa xb : XReg) (off : BitVec 10)
  /-- BGEU (R97). Branches if xa >= xb unsigned. -/
  | bgeu (tk : Tk) (xa xb : XReg) (off : BitVec 10)
  /-- JMP (R98). Jumps by a 20-bit word offset. -/
  | jmp (tk : Tk) (off : BitVec 20)
  /-- CALL (R98). Jumps by a 20-bit offset and writes the return address to x31. -/
  | call (tk : Tk) (off : BitVec 20)
  /-- JR (R98). Jumps to the byte offset in xa. -/
  | jr (tk : Tk) (xa : XReg)
  /-- CALLR (R98). Jumps to xa and writes the return address to x31. -/
  | callr (tk : Tk) (xa : XReg)
  /-- TKPOP (R99). Pops one token from each queue of a set consumed by the scalar stream. -/
  | tkpop (qmask : BitVec 16)
  /-- TKPUSH (R99). Pushes one token into each queue of a set produced by the scalar stream. -/
  | tkpush (qmask : BitVec 16)
  /-- TKWAIT (R99). Waits until a queue holds at least N tokens, moving none. -/
  | tkwait (q n : BitVec 4)
  /-- SEMSIG (R101). Releases at die scope, then adds xb to a hardware semaphore. -/
  | semsig (tk : Tk) (xd xa xb : XReg)
  /-- SEMWAIT_GE (R101). Waits until a semaphore is at least xb, then acquires. -/
  | semwaitGe (tk : Tk) (xd xa xb : XReg)
  /-- SEMWAIT_EQ (R101). Waits until a semaphore equals xb, then acquires. -/
  | semwaitEq (tk : Tk) (xd xa xb : XReg)
  /-- SEMWAIT_NE (R101). Waits until a semaphore differs from xb, then acquires. -/
  | semwaitNe (tk : Tk) (xd xa xb : XReg)
  /-- SEMRD (R101). Reads a semaphore without synchronising. -/
  | semrd (tk : Tk) (xd xa : XReg)
  /-- RBIND (R102). Binds a region to a synchronisation object. -/
  | rbind (tk : Tk) (cn : CReg) (xa xb xs : XReg)
  /-- RUNBIND (R102). Removes the binding of exactly the named region. -/
  | runbind (tk : Tk) (cn : CReg) (xa xb xs : XReg)
  /-- ACQ (R104). Acquire on a synchronisation object at a scope. -/
  | acq (tk : Tk) (xa : XReg) (scope : BitVec 3)
  /-- REL (R104). Release of covered accesses bound to an object, writing fence status. -/
  | rel (tk : Tk) (xd xa : XReg) (scope : BitVec 3)
  /-- FENCE (R104). Waits until covered accesses are performed at a scope and writes fence status. -/
  | fence (tk : Tk) (xd : XReg) (scope : BitVec 3)
  /-- BARRIVE (R107). Releases covered accesses and arrives in a barrier group's phase. -/
  | barrive (tk : Tk) (group : BitVec 8)
  /-- BWAIT (R107). Waits for the phase of the last arrival to complete, then acquires. -/
  | bwait (tk : Tk) (group : BitVec 8)
  /-- CBAR (R107). Arrives in and waits for the crew barrier, setting XSYNC. -/
  | cbar (tk : Tk)
  /-- SRR (R110). Reads a system register into xd. -/
  | srr (tk : Tk) (xd : XReg) (srn : BitVec 12)
  /-- SRW (R110). Writes a system register from xs. -/
  | srw (tk : Tk) (xs : XReg) (srn : BitVec 12)
  /-- SAFEPT (R111). Safe point at which a pending pre-emption stops and saves the strand. -/
  | safept (tk : Tk) (lm : BitVec 12)
  /-- END (R112). Ends the scalar stream, subject to the crew barrier rule. -/
  | sEnd (tk : Tk)
  /-- BRK (R112). Breakpoint delivered as a user-level interrupt or supervisor trap. -/
  | brk (tk : Tk) (code : BitVec 16)
  /-- TRAPU (R112). Service request delivered as a user-level interrupt or supervisor trap. -/
  | trapu (tk : Tk) (code : BitVec 16)
  /-- UIRET (R78). Returns from a user-level interrupt handler. -/
  | uiret (tk : Tk)
  /-- VNOP (R19). Vector no-operation that only moves its tokens. -/
  | vnop (tk : Tk)
  /-- VADD (R117). Element-wise add with rounding and optional bypass sources. -/
  | vadd (tk : Tk) (vd va vb : VReg) (bsel : BitVec 2)
  /-- VSUB (R117). Element-wise subtract. -/
  | vsub (tk : Tk) (vd va vb : VReg) (bsel : BitVec 2)
  /-- VMUL (R117). Element-wise multiply. -/
  | vmul (tk : Tk) (vd va vb : VReg) (bsel : BitVec 2)
  /-- VFMA (R17). Element-wise fused multiply-add with one rounding. -/
  | vfma (tk : Tk) (vd va vb : VReg) (bsel : BitVec 2) (vc : VReg)
  /-- VMIN (R118). Element-wise minimum. -/
  | vmin (tk : Tk) (vd va vb : VReg) (bsel : BitVec 2)
  /-- VMAX (R118). Element-wise maximum. -/
  | vmax (tk : Tk) (vd va vb : VReg) (bsel : BitVec 2)
  /-- VABS (R118). Element-wise absolute value. -/
  | vabs (tk : Tk) (vd va : VReg) (byp : Bool)
  /-- VNEG (R118). Element-wise negation. -/
  | vneg (tk : Tk) (vd va : VReg) (byp : Bool)
  /-- VAND (R121). Bitwise AND over the whole register. -/
  | vand (tk : Tk) (vd va vb : VReg) (bsel : BitVec 2)
  /-- VOR (R121). Bitwise OR over the whole register. -/
  | vor (tk : Tk) (vd va vb : VReg) (bsel : BitVec 2)
  /-- VXOR (R121). Bitwise XOR over the whole register. -/
  | vxor (tk : Tk) (vd va vb : VReg) (bsel : BitVec 2)
  /-- VSHIFT_L (R122). Element-wise left shift with zero fill. -/
  | vshiftL (tk : Tk) (vd va vb : VReg)
  /-- VSHIFT_R (R122). Element-wise logical right shift. -/
  | vshiftR (tk : Tk) (vd va vb : VReg)
  /-- VSHIFT_A (R122). Element-wise arithmetic right shift. -/
  | vshiftA (tk : Tk) (vd va vb : VReg)
  /-- VSEL (R123). Selects elements of va or vb under a predicate. -/
  | vsel (tk : Tk) (vd va vb : VReg) (p : PReg)
  /-- VWMUL (R119). Widening multiply into a register pair or quad. -/
  | vwmul (tk : Tk) (vd va vb : VReg)
  /-- VWADD (R119). Widening add into a register pair or quad. -/
  | vwadd (tk : Tk) (vd va vb : VReg)
  /-- VMOV (R123). Copies a register's bytes and tag. -/
  | vmov (tk : Tk) (vd va : VReg) (byp : Bool)
  /-- VCMP_EQ (R124). Element-wise equality compare into a predicate. -/
  | vcmpEq (tk : Tk) (pd : PReg) (va vb : VReg)
  /-- VCMP_LT (R124). Element-wise less-than compare into a predicate. -/
  | vcmpLt (tk : Tk) (pd : PReg) (va vb : VReg)
  /-- VCMP_LE (R124). Element-wise less-or-equal compare into a predicate. -/
  | vcmpLe (tk : Tk) (pd : PReg) (va vb : VReg)
  /-- VCMP_NE (R124). Element-wise not-equal compare into a predicate. -/
  | vcmpNe (tk : Tk) (pd : PReg) (va vb : VReg)
  /-- PAND (R125). Predicate AND. -/
  | pand (tk : Tk) (pd pa pb : PReg)
  /-- POR (R125). Predicate OR. -/
  | por (tk : Tk) (pd pa pb : PReg)
  /-- PXOR (R125). Predicate XOR. -/
  | pxor (tk : Tk) (pd pa pb : PReg)
  /-- PANDN (R125). Predicate pa AND NOT pb. -/
  | pandn (tk : Tk) (pd pa pb : PReg)
  /-- PNOT (R125). Predicate NOT. -/
  | pnot (tk : Tk) (pd pa : PReg)
  /-- PMOV (R125). Predicate move. -/
  | pmov (tk : Tk) (pd pa : PReg)
  /-- PWHILE (R126). Sets predicate groups of elements below xa. -/
  | pwhile (tk : Tk) (pd : PReg) (xa : XReg) (lsz : BitVec 2)
  /-- PCNT (R126). Counts active elements of a predicate into xd. -/
  | pcnt (tk : Tk) (pa : PReg) (xd : XReg) (lsz : BitVec 2)
  /-- VEXP2 (R120). Seed of 2^a per element. -/
  | vexp2 (tk : Tk) (vd va : VReg) (byp : Bool)
  /-- VLOG2 (R120). Seed of log2 a per element. -/
  | vlog2 (tk : Tk) (vd va : VReg) (byp : Bool)
  /-- VRECIP (R120). Seed of 1/a per element. -/
  | vrecip (tk : Tk) (vd va : VReg) (byp : Bool)
  /-- VRSQRT (R120). Seed of 1/sqrt(a) per element. -/
  | vrsqrt (tk : Tk) (vd va : VReg) (byp : Bool)
  /-- VCVT (R128). Converts elements between formats. -/
  | vcvt (tk : Tk) (vd va : VReg) (tgt : BitVec 4)
  /-- VCVT_AMAX (R129). Converts and merges the largest magnitude into AMAXn. -/
  | vcvtAmax (tk : Tk) (vd va : VReg) (tgt : BitVec 4) (n : BitVec 2)
  /-- VCAST (R130). Copies bytes and retags the result. -/
  | vcast (tk : Tk) (vd va : VReg) (tgt : BitVec 4)
  /-- VSPLAT (R131). Broadcasts xa into every element. -/
  | vsplat (tk : Tk) (vd : VReg) (xa : XReg) (tag : BitVec 4)
  /-- VEXT (R131). Extracts element xb of va into xd. -/
  | vext (tk : Tk) (va : VReg) (xd xb : XReg)
  /-- VINS (R131). Inserts xa into element xb of vd as a partial write. -/
  | vins (tk : Tk) (vd : VReg) (xa xb : XReg) (tag : BitVec 4)
  /-- VIOTA (R131). Writes an arithmetic sequence xa + j*xb. -/
  | viota (tk : Tk) (vd : VReg) (xa xb : XReg) (tag : BitVec 4)
  /-- VRED_SUM (R132). Tree sum reduction into element 0. -/
  | vredSum (tk : Tk) (vd va : VReg) (byp : Bool)
  /-- VRED_MAX (R132). Tree maximum reduction. -/
  | vredMax (tk : Tk) (vd va : VReg) (byp : Bool)
  /-- VRED_MIN (R132). Tree minimum reduction. -/
  | vredMin (tk : Tk) (vd va : VReg) (byp : Bool)
  /-- VRED_AMAX (R132). Tree maximum-magnitude reduction. -/
  | vredAmax (tk : Tk) (vd va : VReg) (byp : Bool)
  /-- VSCAN_SUM (R133). Inclusive prefix sum in element order. -/
  | vscanSum (tk : Tk) (vd va : VReg) (byp : Bool)
  /-- VSCAN_MAX (R133). Inclusive prefix maximum in element order. -/
  | vscanMax (tk : Tk) (vd va : VReg) (byp : Bool)
  /-- VPERM (R134). Permutes va's elements by indices in vb. -/
  | vperm (tk : Tk) (vd va vb : VReg)
  /-- VSLIDE_UP (R135). Slides elements up one position, filling from vb. -/
  | vslideUp (tk : Tk) (vd va vb : VReg)
  /-- VSLIDE_DN (R135). Slides elements down one position, filling from vb. -/
  | vslideDn (tk : Tk) (vd va vb : VReg)
  /-- VZIP (R135). Interleaves va and vb. -/
  | vzip (tk : Tk) (vd va vb : VReg)
  /-- VUNZIP (R135). De-interleaves va and vb. -/
  | vunzip (tk : Tk) (vd va vb : VReg)
  /-- VREV (R135). Reverses element order. -/
  | vrev (tk : Tk) (vd va : VReg) (byp : Bool)
  /-- VCHAIN (R141). Runs up to eight element-wise operations over scratchpad arrays by a descriptor. -/
  | vchain (tk : Tk) (xa xb : XReg)
  /-- VLD (R136). Contiguous vector load through a capability. -/
  | vld (tk : Tk) (vd : VReg) (cn : CReg) (xo : XReg) (esz : BitVec 2) (imm : BitVec 16) (tag : BitVec 4)
  /-- VLD_S (R136). Strided vector load. -/
  | vldS (tk : Tk) (vd : VReg) (cn : CReg) (xo : XReg) (esz : BitVec 2) (imm : BitVec 16) (tag : BitVec 4) (xs : XReg)
  /-- VLD_X (R136). Indexed vector load. -/
  | vldX (tk : Tk) (vd : VReg) (cn : CReg) (xo : XReg) (esz : BitVec 2) (imm : BitVec 16) (tag : BitVec 4) (vi : VReg)
  /-- VST (R137). Contiguous vector store through a capability. -/
  | vst (tk : Tk) (vs : VReg) (cn : CReg) (xo : XReg) (esz : BitVec 2) (imm : BitVec 16)
  /-- VST_S (R137). Strided vector store. -/
  | vstS (tk : Tk) (vs : VReg) (cn : CReg) (xo : XReg) (esz : BitVec 2) (imm : BitVec 16) (xs : XReg)
  /-- VST_X (R137). Indexed vector store. -/
  | vstX (tk : Tk) (vs : VReg) (cn : CReg) (xo : XReg) (esz : BitVec 2) (imm : BitVec 16) (vi : VReg)
  /-- VSPLD (R138). Loads a whole register from scratchpad. -/
  | vspld (tk : Tk) (vd : VReg) (xa : XReg) (tag : BitVec 4) (imm : BitVec 5)
  /-- VSPST (R138). Stores a whole register to scratchpad. -/
  | vspst (tk : Tk) (vs : VReg) (xa : XReg) (imm : BitVec 5)
  /-- TLD (R142). Loads the configured rows of a tile. -/
  | tld (tk : Tk) (t : TReg) (cn : CReg) (xo xs : XReg) (sp : Bool) (imm : BitVec 16)
  /-- TST (R142). Stores the configured rows of a tile. -/
  | tst (tk : Tk) (t : TReg) (cn : CReg) (xo xs : XReg) (sp : Bool) (imm : BitVec 16)
  /-- TCFG (R80). Configures a tile's shape and format, writing out foreign held tiles first. -/
  | tcfg (tk : Tk) (t : TReg) (rows cols : BitVec 6) (tag : BitVec 4)
  /-- TZERO (R143). Releases a tile. -/
  | tzero (tk : Tk) (t : TReg)
  /-- TROW_W (R81). Writes a vector into a tile row. -/
  | trowW (tk : Tk) (v : VReg) (t : TReg) (idx : BitVec 6)
  /-- TROW_R (R81). Reads a tile row into a vector. -/
  | trowR (tk : Tk) (v : VReg) (t : TReg) (idx : BitVec 6)
  /-- TCOL_W (R81). Writes a vector into a tile column. -/
  | tcolW (tk : Tk) (v : VReg) (t : TReg) (idx : BitVec 6)
  /-- TCOL_R (R81). Reads a tile column into a vector. -/
  | tcolR (tk : Tk) (v : VReg) (t : TReg) (idx : BitVec 6)
  /-- VBR_ANY (R127). Branches if any predicate bit is set. -/
  | vbrAny (tk : Tk) (p : PReg) (off : BitVec 13)
  /-- VBR_ALL (R127). Branches if all predicate bits are set. -/
  | vbrAll (tk : Tk) (p : PReg) (off : BitVec 13)
  /-- VBR_NONE (R127). Branches if no predicate bit is set. -/
  | vbrNone (tk : Tk) (p : PReg) (off : BitVec 13)
  /-- VJMP (R20). Vector jump by a 20-bit offset. -/
  | vjmp (tk : Tk) (off : BitVec 20)
  /-- VLOOP (R20). Closes a rotating loop, counting VLC and VEC and staging p16. -/
  | vloop (tk : Tk) (off : BitVec 20)
  /-- VEND (R144). Ends the vector stream. -/
  | vend (tk : Tk)
  /-- MNOP (R206). Matrix no-operation that only moves its tokens. -/
  | mnop (tk : Tk)
  /-- MLEASE (R180). Requests the quad's array for a run of array instructions. -/
  | mlease (tk : Tk) (n : BitVec 9)
  /-- MUNLEASE (R180). Ends the strand's lease. -/
  | munlease (tk : Tk)
  /-- MWLOAD (R184). Loads a weight plane from memory. -/
  | mwload (tk : Tk) (cn : CReg) (xa : XReg) (pl : Bool)
  /-- MWLOADM (R184). Loads a weight plane from scratchpad. -/
  | mwloadm (tk : Tk) (fmt : BitVec 4) (xa : XReg) (pl : Bool)
  /-- MPSWAP (R185). Exchanges planes A and B whole. -/
  | mpswap (tk : Tk)
  /-- MREGION (R188). Configures or unconfigures an accumulator region. -/
  | mregion (tk : Tk) (rg : Rg) (xa xb : XReg) (trapPol : Bool) (slog : BitVec 3) (spill : BitVec 12)
  /-- MSTREAM (R190). Streams tile rows past a plane into a labelled slot. -/
  | mstream (tk : Tk) (rg : Rg) (xa : XReg) (map : Bool) (atag : BitVec 4) (rows : BitVec 7) (pl : Bool) (wtag : BitVec 4)
  /-- MBIND (R174). Mixes a slotted region into a destination region by coefficients. -/
  | mbind (tk : Tk) (rg : Rg) (xa xb : XReg)
  /-- MRELEASE (R193). Frees every slot entry of a region. -/
  | mrelease (tk : Tk) (rg : Rg)
  /-- MRELEASE_ONE (R193). Frees the slot entry with a given label. -/
  | mreleaseOne (tk : Tk) (rg : Rg) (xa : XReg)
  /-- MDRAIN (R194). Writes a slot's rows and a status granule to scratchpad. -/
  | mdrain (tk : Tk) (rg : Rg) (xa xb : XReg)
  /-- MDRAIN_FREE (R194). Drains a slot and then frees it. -/
  | mdrainFree (tk : Tk) (rg : Rg) (xa xb : XReg)
  /-- MSWAP (R195). Exchanges a region's resident state with a scratchpad image. -/
  | mswap (tk : Tk) (rg : Rg) (xa : XReg)
  /-- MEVRD (R196). Reads a directory entry or region status word. -/
  | mevrd (tk : Tk) (xd : XReg) (rg : Rg) (kind : BitVec 3) (entry : BitVec 5)
  /-- MEVCLR (R196). Clears slot or status events. -/
  | mevclr (tk : Tk) (rg : Rg) (kind : BitVec 3) (entry : BitVec 5)
  /-- MRANK (R172). Routes tokens to their top-k experts and writes routing structures. -/
  | mrank (tk : Tk) (xa xb xc : XReg) (tag : BitVec 4) (t e : BitVec 7) (k : BitVec 4) (ovx : BitVec 7)
  /-- MTOPK_LO (R201). Writes the k smallest elements of each row with indices. -/
  | mtopkLo (tk : Tk) (rg : Rg) (xa xb xc : XReg)
  /-- MTOPK_HI (R201). Writes the k largest elements of each row with indices. -/
  | mtopkHi (tk : Tk) (rg : Rg) (xa xb xc : XReg)
  /-- MDIST (R200). Computes squared distances of query rows to plane columns. -/
  | mdist (tk : Tk) (rg : Rg) (xa xb : XReg) (pl : Bool)
  /-- MCNT_RD (R199). Reads a routing counter. -/
  | mcntRd (tk : Tk) (xd : XReg) (sel : BitVec 9)
  /-- MCNT_CLR (R199). Clears routing counters. -/
  | mcntClr (tk : Tk) (sel : BitVec 9)
  /-- MCPLX (R202). Supervisor complex-valued test stream through the array. -/
  | mcplx (tk : Tk) (rg : Rg) (xa : XReg) (rows : BitVec 7) (pl : Bool)
  /-- MSAVE (R203). Saves the matrix context image to memory. -/
  | msave (tk : Tk) (cn : CReg) (xa : XReg)
  /-- MRESTORE (R203). Restores a matrix context image from memory. -/
  | mrestore (tk : Tk) (cn : CReg) (xa : XReg)
  /-- MLOOP (R206). Counts MLC down and branches. -/
  | mloop (off : BitVec 20)
  /-- MEND (R206). Ends the lease and the matrix stream. -/
  | mend (tk : Tk)
  /-- CNOP (R265). Copy no-operation that only moves its tokens. -/
  | cnop (tk : Tk)
  /-- CPY (R252). Copies bytes between two capability windows. -/
  | cpy (tk : Tk) (cd cs : CReg) (xa xb : XReg) (ui : Bool) (xc : XReg)
  /-- CPY_2D (R253). Copies strided rows. -/
  | cpy2d (tk : Tk) (cd cs : CReg) (xa xb : XReg) (ui : Bool) (xc xs : XReg) (rows : BitVec 10) (spd sps : Bool)
  /-- CPY_CVT (R254). Copies elements with format conversion. -/
  | cpyCvt (tk : Tk) (cd cs : CReg) (xa xb : XReg) (ui : Bool) (xc : XReg) (dtag stag : BitVec 4) (spd sps : Bool)
  /-- CPYIN (R175). Copies from memory into scratchpad. -/
  | cpyin (tk : Tk) (cs : CReg) (xa xb : XReg) (ui : Bool) (xc : XReg)
  /-- CPYOUT (R252). Copies from scratchpad to memory. -/
  | cpyout (tk : Tk) (cd : CReg) (xa xb : XReg) (ui : Bool) (xc : XReg)
  /-- CPYACC_RD (R256). Copies accumulator rows to scratchpad. -/
  | cpyaccRd (tk : Tk) (xa xb xc : XReg) (ui : Bool)
  /-- CPYACC_WR (R256). Copies scratchpad into accumulator rows. -/
  | cpyaccWr (tk : Tk) (xa xb xc : XReg) (ui : Bool)
  /-- CFILL (R255). Fills scratchpad bytes with a 64-bit value. -/
  | cfill (tk : Tk) (xa xb xc : XReg) (ui : Bool)
  /-- CFILL_CW (R255). Fills crew-window bytes with a 64-bit value. -/
  | cfillCw (tk : Tk) (xa xb xc : XReg) (ui : Bool)
  /-- CGATH (R175). Gathers an expert's token rows into a tile and row map. -/
  | cgath (tk : Tk) (cs : CReg) (xa xb : XReg) (ui : Bool) (xc xs : XReg) (dtag : BitVec 4) (e : BitVec 7)
  /-- CSCAT (R257). Scatters tile rows to token positions. -/
  | cscat (tk : Tk) (cd : CReg) (xa xb : XReg) (ui : Bool) (xc xs : XReg) (dtag : BitVec 4) (e : BitVec 7)
  /-- CNULL_ZERO (R258). Writes zero rows for a null expert's tokens. -/
  | cnullZero (tk : Tk) (xa xb : XReg) (ui : Bool)
  /-- CNULL_ID (R258). Writes identity rows for a null expert's tokens. -/
  | cnullId (tk : Tk) (xa xb xc : XReg) (ui : Bool)
  /-- CNULL_CONST (R258). Writes a constant row for a null expert's tokens. -/
  | cnullConst (tk : Tk) (xa xb xc : XReg) (ui : Bool)
  /-- CRCP (R259). Copies into a crew member's scratchpad and increments its barrier object. -/
  | crcp (tk : Tk) (xa xb xc : XReg) (nq : BitVec 4) (ui : Bool)
  /-- CARM (R261). Arms a landing zone for the tier engine. -/
  | carm (tk : Tk) (xa xb xc : XReg) (cn : CReg)
  /-- CDISARM (R262). Disarms a landing zone after in-progress landings finish. -/
  | cdisarm (tk : Tk) (xa : XReg)
  /-- CFENCE (R263). Waits for earlier copies at a scope and joins loader and storer. -/
  | cfence (tk : Tk) (scope : BitVec 4)
  /-- CWAIT_ALL (R264). Waits until no copy is outstanding. -/
  | cwaitAll (tk : Tk)
  /-- CWAIT_LE (R264). Waits until at most xa copies are outstanding. -/
  | cwaitLe (tk : Tk) (xa : XReg)
  /-- CLOOP (R265). Counts CLC down and branches. -/
  | cloop (off : BitVec 20)
  /-- CEND (R265). Ends the copy stream after earlier pushes. -/
  | cend (tk : Tk)
  /-- NOP (R292). Queue packet with no effect. -/
  | nop (len : BitVec 8)
  /-- LAUNCH (R306). Checks and launches a kernel grid as crews. -/
  | launch (a : LaunchArgs)
  /-- LAUNCHM (R296). Launches a copy of the grid on each named cluster. -/
  | launchm (a : LaunchArgs) (mask : BitVec 128)
  /-- COPY (R212). Command-processor copy between capability windows. -/
  | copyP (src dst : CapBits) (len : BitVec 32)
  /-- SEMSIG_PACKET (R213). Queue release followed by a semaphore add. -/
  | semsigP (sem : BitVec 12) (add : BitVec 64)
  /-- SEMWAIT_PACKET (R213). Holds the queue until a semaphore condition holds, then acquires. -/
  | semwaitP (cond : BitVec 2) (sem : BitVec 12) (value : BitVec 64)
  /-- QFENCE (R214). Joins queues of one command processor. -/
  | qfence (qmask : BitVec 16) (id : BitVec 8)
  /-- JUMP (R297). Transfers to another buffer program. -/
  | jumpP (obj : BitVec 24) (gen start : BitVec 16)
  /-- CALL_PACKET (R297). Runs a buffer program and returns. -/
  | callP (obj : BitVec 24) (gen start : BitVec 16)
  /-- RETURN (R297). Ends the current buffer program. -/
  | returnP
  /-- IRQ (R215). Writes the cookie and issues an MSI-X message. -/
  | irq (vec : BitVec 11) (cookie : BitVec 32)
  /-- FRAME_BEGIN (R299). Opens a frame with its frame clock. -/
  | frameBegin (t0 : BitVec 64) (sse : Bool) (ssem : BitVec 12)
  /-- FRAME_END (R299). Closes a frame once its launches complete. -/
  | frameEnd
  /-- RELEASE_AT (R298). Holds the queue until a tick. -/
  | releaseAt (t : BitVec 64)
  /-- ITIN (R300). Releases and hands an itinerary to a tier-engine context. -/
  | itin (ctx : BitVec 8) (obj : BitVec 24) (gen : BitVec 16) (first : BitVec 32)
  /-- GATHER (R301). Configures or starts a request-gatherer context. -/
  | gather (rctx : BitVec 4) (obj : BitVec 24) (gen : BitVec 16) (batchN : BitVec 13) (deadline : BitVec 32) (sem : BitVec 12)
  /-- PREEMPT (R302). Requests safe-point pre-emption of a queue's crews. -/
  | preempt (q : BitVec 4) (all hold : Bool) (plim : BitVec 32)
  /-- SETPRI (R303). Sets a queue's priority ceiling. -/
  | setpri (q : BitVec 4) (ceil : BitVec 3)
  /-- OTINV (R304). Invalidates cached translations of an object or space. -/
  | otinv (space : BitVec 9) (all : Bool) (obj : BitVec 24)
  /-- MOVE (R341). Itinerary entry that copies granules between tiers or lands them. -/
  | move (a : MoveArgs)
  /-- MCAST (R332). Opens a multicast stream. -/
  | mcast (pmask : BitVec 16) (src : BitVec 4) (grp : BitVec 8) (epoch : BitVec 32) (ackto : BitVec 16)
  /-- HINT (R343). Sends hint records for a future POOL read. -/
  | hint (tier : BitVec 2) (obj : BitVec 24) (gen len : BitVec 16) (off : BitVec 40) (at_ : BitVec 24)
  /-- WAITW (R344). Waits until a window class has at most N open moves. -/
  | waitw (wclass : BitVec 4) (n : BitVec 7)
  /-- MARK (R345). Releases completed entries and adds to semaphores. -/
  | mark (sem : BitVec 12) (fen : Bool) (fsem : BitVec 12) (add : BitVec 32)
  /-- REPEAT (R346). Closes an itinerary loop with offset advances. -/
  | repeatE (target : BitVec 11) (lvl : BitVec 2) (sadv dadv : Bool) (count step stride : BitVec 16)
  /-- GUST (R347). Releases a group of entries at a tick. -/
  | gust (n : BitVec 7) (tick : BitVec 32)
  /-- BATCH (R348). Consumes one closed gatherer batch. -/
  | batch (rctx : BitVec 4) (rebase : Bool) (sem : BitVec 12) (sen : Bool) (tref : BitVec 32)
  /-- ITIN_END (R349). Ends the itinerary once earlier entries complete. -/
  | itinEnd
  /-- DOORBELL (R209). Host write of a queue tail pointer. -/
  | doorbell (die q : Nat) (tail : BitVec 32)
  /-- QCTL_SKIP (R289). Passes a stopped packet as completed. -/
  | qctlSkip (die q : Nat)
  /-- QCTL_RETRY (R289). Starts a stopped packet again. -/
  | qctlRetry (die q : Nat)
  /-- QCTL_RUN (R289). Ends the hold of a queue. -/
  | qctlRun (die q : Nat)
  /-- QCTL_RESET (R289). Resets HEAD, TAIL and DEPTH of an idle or stopped queue. -/
  | qctlReset (die q : Nat)
  /-- CP_EVICT (R324). Full save of a frozen crew. -/
  | cpEvict (die slot : Nat)
  /-- CP_RESUME (R324). Resumes a frozen or evicted crew. -/
  | cpResume (die slot : Nat)
  /-- TEC_STOP (R349). Stops a tier-engine context from starting further entries. -/
  | tecStop (ctx : Nat)
  /-- CLRLULL (R337). Clears a context's LATE and L. -/
  | clrLull (ctx : Nat)
  /-- RQC_STOP (R354). Stops a gatherer context at the next FRAME advance. -/
  | rqcStop (rctx : Nat)
  /-- RESTORE (R371). Returns an isolated, retrained CXL port to service. -/
  | restore (port : Nat)
  /-- RST_CTL_RESET (R380). Register-requested reset of the whole package. -/
  | rstCtlReset
  /-- PWR_REQ_ON (R393). Returns the package from STANDBY to ON. -/
  | pwrReqOn
  /-- PWR_REQ_STANDBY (R393). Requests entry to STANDBY. -/
  | pwrReqStandby
  /-- PWR_REQ_OFF (R392). Requests power-off after committing counters. -/
  | pwrReqOff
  /-- FP_PUSH (R390). Returns a frame to a die's frame pool. -/
  | fpPush (die : Nat) (value : BitVec 64)
  /-- REGISTER_WRITE (R287). Write to a host-visible register with no behaviour of its own. -/
  | registerWrite (off : Nat) (value : BitVec 64)
  /-- POWER_ON (R380). Power-on reset of the package. -/
  | powerOn
  /-- PERST (R380). Reset by PERST# on the host port. -/
  | perst
  /-- BOOT_PHASE (R381). Completion of a boot phase, advancing toward READY. -/
  | bootPhase (o : BootOutcome)
  /-- FRAME_TICK (R5). FRAME advances by one tick. -/
  | frameTick
  /-- DEADLINE_CLOSE (R334). An open batch closes on its deadline. -/
  | deadlineClose (rctx : Nat)
  /-- OVERRUN (R299). A launch reaches its deadline uncompleted. -/
  | overrun (die launch : Nat)
  /-- FRAME_RELEASE (R299). A frame launch's release tick is reached. -/
  | frameRelease (die launch : Nat)
  /-- RELEASE_TICK (R298). A RELEASE_AT tick is reached and the packet completes. -/
  | releaseTick (die q : Nat)
  /-- GUST_RELEASE (R347). A GUST's release tick is reached. -/
  | gustRelease (ctx : Nat)
  /-- POWER_WINDOW (R394). End of a power averaging window adjusts PLVL. -/
  | powerWindow (watts : Nat)
  /-- IDLE_ENTER (R392). Package enters IDLE after IDLE_TICKS of inactivity. -/
  | idleEnter
  /-- COUNTER_COMMIT (R378). Hourly commit of lifetime counters. -/
  | counterCommit
  /-- TOKEN_DEADLOCK (R63). Strand traps after 64 cycles of token deadlock. -/
  | tokenDeadlock (core : Nat)
  /-- ARRAY_GRANT (R181). The quad's array is granted to a requesting core. -/
  | arrayGrant (quad : Nat)
  /-- WATCHDOG_RUN (R317). A crew reaches the run limit. -/
  | watchdogRun (die slot : Nat)
  /-- WATCHDOG_STALL (R317). A crew makes no progress for STALL ticks. -/
  | watchdogStall (die slot : Nat)
  /-- WATCHDOG_QUEUE (R317). A SEMWAIT or QFENCE waits STALL ticks. -/
  | watchdogQueue (die q : Nat)
  /-- PREEMPT_OVERDUE (R320). A crew misses its safe point within PLIM cycles. -/
  | preemptOverdue (die slot cycles : Nat)
  /-- CREW_DISPATCH (R308). The command processor places and starts a waiting crew. -/
  | crewDispatch (die : Nat)
  /-- SWEEP_DONE (R242). A generation sweep finishes, releasing waiting allocations. -/
  | sweepDone (core : Nat)
  /-- SAFE_POINT_SAVE (R321). A crew reaches its safe point and is saved. -/
  | safePointSave (die slot : Nat)
  /-- CREW_RESTORE (R326). A saved crew is restored onto cores. -/
  | crewRestore (die slot : Nat)
  /-- WRITE_OUT (R82). A held tile, plane or row is written to its save area. -/
  | writeOut (o : HeldObj)
  /-- LINE_FILL (R51). A die fetch agent fill arrives at cores. -/
  | lineFill (die : Nat) (h : Handle) (line : Nat)
  /-- COPY_COMPLETE (R250). A copy completes and its push may be performed. -/
  | copyComplete (core slot : Nat)
  /-- LANDING_DONE (R333). A landing completes, updating lateness and pushing its token. -/
  | landingDone (ctx : Nat)
  /-- UI_DELIVERY (R78). A user-level interrupt is delivered at a scalar boundary. -/
  | uiDelivery (core : Nat)
  /-- FAULT_ENTRY (R235). A fault queue entry is written once the freeze has settled and room exists. -/
  | faultEntry (die slot : Nat)
  /-- FRAME_RETURN (R234). A freed frame returns to its pool after old accesses drain. -/
  | frameReturn (die : Nat)
  /-- LAUNCH_COMPLETE (R309). A launch completes after its stores are performed. -/
  | launchComplete (die launch : Nat)
  /-- SHARD_FLIT (R332). A multicast shard arrives at a member. -/
  | shardFlit (epoch : BitVec 32) (k : Nat) (granules : List (BitVec 512))
  /-- ACK_FLIT (R332). A member's acknowledgement arrives at the source. -/
  | ackFlit (epoch : BitVec 32) (k pkg : Nat)
  /-- FAILURE_FLIT (R332). A failure flit for a shard arrives at a member. -/
  | failureFlit (epoch : BitVec 32) (k : Nat) (status : Nat)
  /-- REMOVAL_FLIT (R332). A removal flit arrives at a removed member. -/
  | removalFlit (epoch : BitVec 32) (pkg : Nat)
  /-- END_OF_STREAM (R352). An end-of-stream flit arrives at a member. -/
  | endOfStream (epoch : BitVec 32)
  /-- ACKTO_SOURCE (R332). The source removes a member that did not acknowledge within ACKTO. -/
  | acktoSource (ctx k pkg : Nat)
  /-- ACKTO_MEMBER (R332). A member completes its waiting MC moves ISOLATED after ACKTO. -/
  | acktoMember (ctx : Nat)
  /-- COMPLETION_TIMEOUT (R356). A CXL request times out and the port is isolated. -/
  | completionTimeout (port : Nat)
  /-- CXL_COMPLETION (R370). A CXL.mem read completion arrives, possibly poisoned. -/
  | cxlCompletion (port n : Nat) (r : CxlResult)
  /-- HOST_READ_TIMEOUT (R373). A read to the host times out. -/
  | hostReadTimeout (die q : Nat)
  /-- FLIT_REPLAY (R374). A flit fails its CRC and is replayed. -/
  | flitReplay (l : Link)
  /-- OVLAN_LINK_DOWN (R374). An Ovlan link fails to train within 1,024 ticks. -/
  | ovlanLinkDown (port : Nat)
  /-- BOUNDARY_DOWN (R375). A die boundary fails after 1,024 ticks of retraining. -/
  | boundaryDown (b : Nat)
  /-- THERMAL_FREEZE (R367). A memory device reaches TCRIT and the package's crews freeze. -/
  | thermalFreeze (dev : Nat) (temp : BitVec 8)
  /-- THERMAL_RESUME (R368). All devices cool to TRES and frozen crews resume. -/
  | thermalResume (temps : List (Nat × BitVec 8))
  /-- MC_WRITE (R361). A write enters or merges into a controller write queue. -/
  | mcWrite (ctrl : Nat)
  /-- MC_READ (R362). A read arrives at a controller. -/
  | mcRead (ctrl gran : Nat) (dom : BitVec 6)
  /-- ENTRY_DRAIN (R363). A write-queue entry is written to the device, by read-modify-write if partial. -/
  | entryDrain (ctrl : Nat)
  /-- DRAIN_AGE (R361). The oldest write entry reaches 2,048 cycles and drain mode begins. -/
  | drainAge (ctrl : Nat)
  /-- PROMOTE_C2 (R364). A C3 request waiting 1,024 cycles is promoted to C2. -/
  | promoteC2 (ctrl : Nat)
  /-- SCRUB_READ (R365). The patrol scrubber reads and checks a granule. -/
  | scrubRead (ctrl gran : Nat)
  /-- READ_COUNTER (R379). MCTP request for a lifetime counter. -/
  | readCounter (counter inst bin : Nat)
  /-- GET_CERT (R387). MCTP request for a certificate. -/
  | getCert (cert off : Nat)
  /-- ATTEST (R386). MCTP request for a signed log attestation. -/
  | attest (nonce : BitVec 256)
  /-- GET_LOG (R387). MCTP request for attestation log records. -/
  | getLog (first n : Nat)
  /-- DEBUG_READ (R243). Debug read of a tagged object under a generation. -/
  | debugRead (o : DebugObj) (g : BitVec 16)
  /-- RAW_READ (R243). Raw debug read, logged and consent-checked. -/
  | rawRead (o : DebugObj)
  /-- DEBUG_WRITE (R243). Debug write under the allocated strand's CGEN. -/
  | debugWrite (o : DebugObj) (off : Nat) (bytes : List Byte)
  /-- FW_STAGE (R387). Verifies an image and writes it to flash for the next reset. -/
  | fwStage (kind pa : Nat)
  /-- FW_COMMIT (R383). Raises a KIND's SVN floor to the running image. -/
  | fwCommit (kind : Nat)
  /-- SET_ENDPOINT_ID (R387). Bus owner assigns the MSC's MCTP endpoint ID. -/
  | setEndpointId (i3c : Bool) (id : BitVec 8)
  /-- UNKNOWN_COMMAND (R387). An unknown MSC command is answered with status 1. -/
  | unknownCommand (cmd : BitVec 8)
  /-- LINK_RETRAINED (R374). A retraining Ovlan link, die boundary or CXL port finishes training and carries traffic again. -/
  | linkRetrained (l : Link)
  /-- POWER_LOSS (R378). Module power is lost without a power-down request, losing uncommitted counts and all state. -/
  | powerLoss
  /-- HOST_WINDOW_ACCESS (R239). An external agent reads or writes STAGE or BULK through the host BAR2 window, with refusal of opaque packed pages. -/
  | hostWindowAccess (wr : Bool) (pa : Nat) (dom : BitVec 6) (bytes : List Byte) (n : Nat)
  /-- ACCESS_PERFORMED (R271). A memory access's data or write acknowledgement returns, so its instruction finishes, pushes, or lets a fence or COPY packet complete. -/
  | accessPerformed (core : Nat)
  /-- MATRIX_FINISH (R177). A matrix instruction's last write is performed, 160 cycles after its last row step, and its push is performed in order. -/
  | matrixFinish (core : Nat)
  /-- MOVE_COMPLETE (R341). A MOVE to STAGE, BULK or POOL has its last write performed, writes its status and returns its credit. -/
  | moveComplete (ctx idx : Nat)
  /-- SCRUB_WRITEBACK (R365). The scrubber's corrected write-back enters the write queue, unless a demand write has cancelled it. -/
  | scrubWriteback (ctrl : Nat)
deriving DecidableEq, Repr

/-- How an instruction is written down (R24, R40, R41); `bare` is a step that no word names. -/
inductive Form where
  | engine (e : Engine) | pfx | packet | entry | bare
deriving DecidableEq, Repr

/-- A queue packet as its decoder reads it (Table 2.12). -/
inductive Packet where
  | nop (len : BitVec 8)
  | launch (a : LaunchArgs)
  | launchm (a : LaunchArgs) (mask : BitVec 128)
  | copyP (src dst : CapBits) (len : BitVec 32)
  | semsigP (sem : BitVec 12) (add : BitVec 64)
  | semwaitP (cond : BitVec 2) (sem : BitVec 12) (value : BitVec 64)
  | qfence (qmask : BitVec 16) (id : BitVec 8)
  | jumpP (obj : BitVec 24) (gen start : BitVec 16)
  | callP (obj : BitVec 24) (gen start : BitVec 16)
  | returnP
  | irq (vec : BitVec 11) (cookie : BitVec 32)
  | frameBegin (t0 : BitVec 64) (sse : Bool) (ssem : BitVec 12)
  | frameEnd
  | releaseAt (t : BitVec 64)
  | itin (ctx : BitVec 8) (obj : BitVec 24) (gen : BitVec 16) (first : BitVec 32)
  | gather (rctx : BitVec 4) (obj : BitVec 24) (gen : BitVec 16) (batchN : BitVec 13) (deadline : BitVec 32) (sem : BitVec 12)
  | preempt (q : BitVec 4) (all hold : Bool) (plim : BitVec 32)
  | setpri (q : BitVec 4) (ceil : BitVec 3)
  | otinv (space : BitVec 9) (all : Bool) (obj : BitVec 24)
deriving DecidableEq, Repr

/-- The instruction that a decoded packet is. The compiler builds no value of a constructor past the
244th, so this one definition is not compiled; the kernel evaluates it. -/
noncomputable def Packet.instr : Packet → Instr
  | .nop len => .nop len
  | .launch a => .launch a
  | .launchm a mask => .launchm a mask
  | .copyP src dst len => .copyP src dst len
  | .semsigP sem add => .semsigP sem add
  | .semwaitP cond sem value => .semwaitP cond sem value
  | .qfence qmask id => .qfence qmask id
  | .jumpP obj gen start => .jumpP obj gen start
  | .callP obj gen start => .callP obj gen start
  | .returnP => .returnP
  | .irq vec cookie => .irq vec cookie
  | .frameBegin t0 sse ssem => .frameBegin t0 sse ssem
  | .frameEnd => .frameEnd
  | .releaseAt t => .releaseAt t
  | .itin ctx obj gen first => .itin ctx obj gen first
  | .gather rctx obj gen batchN deadline sem => .gather rctx obj gen batchN deadline sem
  | .preempt q all hold plim => .preempt q all hold plim
  | .setpri q ceil => .setpri q ceil
  | .otinv space all obj => .otinv space all obj

/-- An itinerary entry as its decoder reads it (Table 2.13). -/
inductive Entry where
  | move (a : MoveArgs)
  | mcast (pmask : BitVec 16) (src : BitVec 4) (grp : BitVec 8) (epoch : BitVec 32) (ackto : BitVec 16)
  | hint (tier : BitVec 2) (obj : BitVec 24) (gen len : BitVec 16) (off : BitVec 40) (at_ : BitVec 24)
  | waitw (wclass : BitVec 4) (n : BitVec 7)
  | mark (sem : BitVec 12) (fen : Bool) (fsem : BitVec 12) (add : BitVec 32)
  | repeatE (target : BitVec 11) (lvl : BitVec 2) (sadv dadv : Bool) (count step stride : BitVec 16)
  | gust (n : BitVec 7) (tick : BitVec 32)
  | batch (rctx : BitVec 4) (rebase : Bool) (sem : BitVec 12) (sen : Bool) (tref : BitVec 32)
  | itinEnd
deriving DecidableEq, Repr

/-- The instruction that a decoded entry is. The compiler builds no value of a constructor past the
244th, so this one definition is not compiled; the kernel evaluates it. -/
noncomputable def Entry.instr : Entry → Instr
  | .move a => .move a
  | .mcast pmask src grp epoch ackto => .mcast pmask src grp epoch ackto
  | .hint tier obj gen len off at_ => .hint tier obj gen len off at_
  | .waitw wclass n => .waitw wclass n
  | .mark sem fen fsem add => .mark sem fen fsem add
  | .repeatE target lvl sadv dadv count step stride => .repeatE target lvl sadv dadv count step stride
  | .gust n tick => .gust n tick
  | .batch rctx rebase sem sen tref => .batch rctx rebase sem sen tref
  | .itinEnd => .itinEnd

end Sys2Proof
end

