-- ==== Sys2Proof/Decode.lean ====
section
/-! DEFINITION. Decoding: engine words (R24 to R39), prefixes (R13, R28, R29), queue packets (R40, Table 2.12,
R211 to R215, R292 to R304) and itinerary entries (R41, Table 2.13, R340 to R348), and the encoder of engine words.
The decoder is total: what is no instruction is refused by name, as Table 2.14 says. -/
namespace Sys2Proof
open Sys2Proof.Machine

/-- What an engine word decodes to: an instruction; no assigned operation or selector (row 6 of Table 2.2); or a
reserved field that is not zero or a value that is not assigned (row 10). -/
inductive Dec where
  | ok (i : Instr)
  | opcode
  | reserved
deriving DecidableEq, Repr

/-- `i` when the condition on its fields holds. -/
def decIf (c : Bool) (i : Instr) : Dec := if c then .ok i else .reserved

/-- LS, bits [31:30] (R24). -/
def wLS (w : Word) : BitVec 2 := bits w 30 2
/-- TK, bits [29:26] (R24). -/
def wTK (w : Word) : Tk := bits w 26 4
/-- OP, bits [25:20] (R24). -/
def wOP (w : Word) : Nat := fieldOf w 20 6

/-- R14: a field that names a bypass entry holds 0, 1 or 2. -/
def bselOk (bsel : BitVec 2) (va vb : VReg) : Bool :=
  (!bsel.getLsbD 0 || decide (va.toNat < 3)) && (!bsel.getLsbD 1 || decide (vb.toNat < 3))

/-- R35: BYP makes va name w0, w1 or w2. -/
def bypOk (byp : Bool) (va : VReg) : Bool := !byp || decide (va.toNat < 3)

/-- The system registers that some chapter assigns (R73: Table 3.6, Tables 5.9, 7.6, 7.10, 9.12, 12.2, 19.7). -/
def srnAssigned (n : Nat) : Bool :=
  n ≤ 0x007 || (0x010 ≤ n && n ≤ 0x015) || (0x018 ≤ n && n ≤ 0x01F) || (0x020 ≤ n && n ≤ 0x024) ||
  (0x030 ≤ n && n ≤ 0x033) || (0x040 ≤ n && n ≤ 0x04F) || (0x050 ≤ n && n ≤ 0x053) ||
  n == 0x058 || n == 0x059 || (0x060 ≤ n && n ≤ 0x066) || n == 0x070 || n == 0x071 ||
  (0x800 ≤ n && n ≤ 0x803)

/-- Format tags of the conversions (Table 7.1): every code but raw, bits and void. -/
def fmtData (t : Nat) : Bool := 1 ≤ t && t ≤ 13

/-- The bits of an element of a format tag (Table 7.1). -/
def fmtBits (t : Nat) : Nat :=
  match t with
  | 1 | 2 => 4
  | 5 | 8 | 9 => 16
  | 6 | 7 => 32
  | _ => 8

/-- Whether a conversion between two formats has a rule in Table 6.5: lns6 and sc8 convert only to and from f32
and to themselves. -/
def cvtPair (src tgt : Nat) : Bool :=
  src == tgt || ((!(src == 12 || src == 13) || tgt == 7) && (!(tgt == 12 || tgt == 13) || src == 7))

/-- Operand and weight formats of mstream (Table 9.5). -/
def streamPair (tag wf : Nat) : Bool :=
  match tag with
  | 10 | 11 => wf == 10 || wf == 11
  | 3 | 4 => wf == 3 || wf == 4
  | 8 => wf == 8
  | 12 => wf == 12
  | _ => false

/-- Selectors of mcnt (Table 9.7). -/
def mcntSel (n : Nat) : Bool := n ≤ 0x7F || n == 0x100 || n == 0x101 || n == 0x1FF

/-- A scalar word (Tables 2.4 to 2.6). DESIGN CHOICE (log entry 87): a non-zero FN of jr and callr is RESERVED_FIELD. -/
def decodeS (w : Word) : Dec :=
  let tk := wTK w
  let xd : XReg := bits w 15 5
  let xa : XReg := bits w 10 5
  let xb : XReg := bits w 5 5
  let fn := fieldOf w 0 5
  let imm : BitVec 10 := bits w 0 10
  let cn : CReg := bits w 11 4
  let xo : XReg := bits w 6 5
  let i6 : BitVec 6 := bits w 0 6
  let sz : BitVec 2 := bits w 8 2
  let sgn := w.getLsbD 7
  let i7 : BitVec 7 := bits w 0 7
  let aa : XReg := bits w 6 5
  let ab : XReg := bits w 1 5
  let aw := w.getLsbD 0
  let off : BitVec 10 := bits w 0 10
  let ba : XReg := bits w 15 5
  let bb : XReg := bits w 10 5
  let o20 : BitVec 20 := bits w 0 20
  match wOP w with
  | 0x00 => decIf (zeroBits w 0 20) (.snop tk)
  | 0x01 => match fn with
    | 0 => .ok (.add tk xd xa xb)
    | 1 => .ok (.sub tk xd xa xb)
    | 2 => .ok (.andR tk xd xa xb)
    | 3 => .ok (.orR tk xd xa xb)
    | 4 => .ok (.xorR tk xd xa xb)
    | 5 => .ok (.sll tk xd xa xb)
    | 6 => .ok (.srl tk xd xa xb)
    | 7 => .ok (.sra tk xd xa xb)
    | 8 => .ok (.slt tk xd xa xb)
    | 9 => .ok (.sltu tk xd xa xb)
    | 10 => .ok (.minR tk xd xa xb)
    | 11 => .ok (.maxR tk xd xa xb)
    | 12 => .ok (.minu tk xd xa xb)
    | 13 => .ok (.maxu tk xd xa xb)
    | _ => .opcode
  | 0x02 => match fn with
    | 0 => .ok (.mul tk xd xa xb)
    | 1 => .ok (.mulh tk xd xa xb)
    | 2 => .ok (.mulhu tk xd xa xb)
    | 3 => .ok (.mulhsu tk xd xa xb)
    | 4 => .ok (.div tk xd xa xb)
    | 5 => .ok (.divu tk xd xa xb)
    | 6 => .ok (.rem tk xd xa xb)
    | 7 => .ok (.remu tk xd xa xb)
    | _ => .opcode
  | 0x03 => .ok (.addi tk xd xa imm)
  | 0x04 => .ok (.andi tk xd xa imm)
  | 0x05 => .ok (.ori tk xd xa imm)
  | 0x06 => .ok (.xori tk xd xa imm)
  | 0x07 => match fieldOf w 6 4 with
    | 0 => .ok (.slli tk xd xa i6)
    | 1 => .ok (.srli tk xd xa i6)
    | 2 => .ok (.srai tk xd xa i6)
    | _ => .opcode
  | 0x08 => .ok (.slti tk xd xa imm)
  | 0x09 => .ok (.sltiu tk xd xa imm)
  | 0x0A => .ok (.lui tk xd (bits w 0 15))
  | 0x0B => match fieldOf w 8 3 with
    | 0 => decIf (zeroBits w 0 8) (.cinspBase tk xd cn)
    | 1 => decIf (zeroBits w 0 8) (.cinspLen tk xd cn)
    | 2 => decIf (zeroBits w 0 8) (.cinspRights tk xd cn)
    | 3 => decIf (zeroBits w 0 8) (.cinspObj tk xd cn)
    | 4 => decIf (zeroBits w 0 8) (.cinspGen tk xd cn)
    | _ => .opcode
  | 0x0C => decIf (zeroBits w 0 6) (.pgcommit tk xd cn xo)
  | 0x0D => decIf (zeroBits w 0 6) (.pgfree tk xd cn xo)
  | 0x0E => decIf (zeroBits w 0 6) (.pgquery tk xd cn xo)
  | 0x0F => match fieldOf w 0 2 with
    | 0 => .ok (.cwin tk (bits w 16 4) (bits w 12 4) (bits w 7 5) (bits w 2 5))
    | 1 => decIf (zeroBits w 2 5) (.crt tk (bits w 16 4) (bits w 12 4) (bits w 7 5))
    | 2 => decIf (zeroBits w 2 10) (.cmov tk (bits w 16 4) (bits w 12 4))
    | _ => .opcode
  | 0x10 => .ok (.ldb tk xd cn xo i6)
  | 0x11 => .ok (.ldbu tk xd cn xo i6)
  | 0x12 => .ok (.ldh tk xd cn xo i6)
  | 0x13 => .ok (.ldhu tk xd cn xo i6)
  | 0x14 => .ok (.ldw tk xd cn xo i6)
  | 0x15 => .ok (.ldwu tk xd cn xo i6)
  | 0x16 => .ok (.ldd tk xd cn xo i6)
  | 0x18 => .ok (.stb tk xd cn xo i6)
  | 0x19 => .ok (.sth tk xd cn xo i6)
  | 0x1A => .ok (.stw tk xd cn xo i6)
  | 0x1B => .ok (.std tk xd cn xo i6)
  | 0x1C => decIf (!(sgn && sz == 3#2)) (.spld tk xd xa sz sgn i7)
  | 0x1D => decIf (!sgn) (.spst tk xd xa sz i7)
  | 0x1E => decIf (!(sgn && sz == 3#2)) (.rspld tk xd xa sz sgn i7)
  | 0x1F => decIf (!sgn) (.rspst tk xd xa sz i7)
  | 0x20 => .ok (.amoadd tk xd cn aa ab aw)
  | 0x21 => .ok (.amomin tk xd cn aa ab aw)
  | 0x22 => .ok (.amomax tk xd cn aa ab aw)
  | 0x23 => .ok (.amoand tk xd cn aa ab aw)
  | 0x24 => .ok (.amoor tk xd cn aa ab aw)
  | 0x25 => .ok (.amoxor tk xd cn aa ab aw)
  | 0x26 => .ok (.amoswap tk xd cn aa ab aw)
  | 0x27 => .ok (.amocas tk xd cn aa ab aw)
  | 0x28 => match fieldOf w 2 3 with
    | 0 => .ok (.spamoAdd tk xd xa xb (w.getLsbD 1) aw)
    | 1 => .ok (.spamoMin tk xd xa xb (w.getLsbD 1) aw)
    | 2 => .ok (.spamoMax tk xd xa xb (w.getLsbD 1) aw)
    | 3 => .ok (.spamoAnd tk xd xa xb (w.getLsbD 1) aw)
    | 4 => .ok (.spamoOr tk xd xa xb (w.getLsbD 1) aw)
    | 5 => .ok (.spamoXor tk xd xa xb (w.getLsbD 1) aw)
    | 6 => .ok (.spamoSwap tk xd xa xb (w.getLsbD 1) aw)
    | _ => .ok (.spamoCas tk xd xa xb (w.getLsbD 1) aw)
  | 0x2A => .ok (.beq tk ba bb off)
  | 0x2B => .ok (.bne tk ba bb off)
  | 0x2C => .ok (.blt tk ba bb off)
  | 0x2D => .ok (.bge tk ba bb off)
  | 0x2E => .ok (.bltu tk ba bb off)
  | 0x2F => .ok (.bgeu tk ba bb off)
  | 0x30 => .ok (.jmp tk o20)
  | 0x31 => .ok (.call tk o20)
  | 0x32 => decIf (zeroBits w 15 5 && zeroBits w 0 10) (.jr tk xa)
  | 0x33 => decIf (zeroBits w 15 5 && zeroBits w 0 10) (.callr tk xa)
  | 0x34 => decIf (tk == 0#4 && zeroBits w 16 4 && !zeroBits w 0 16 && bits w 0 16 &&& 0xEEEE#16 == 0#16)
      (.tkpop (bits w 0 16))
  | 0x35 => decIf (tk == 0#4 && zeroBits w 16 4 && !zeroBits w 0 16 && bits w 0 16 &&& 0xFFF1#16 == 0#16)
      (.tkpush (bits w 0 16))
  | 0x36 => decIf (tk == 0#4 && zeroBits w 0 12 && zeroBits w 16 2) (.tkwait (bits w 16 4) (bits w 12 4))
  | 0x38 => match fn with
    | 0 => .ok (.semsig tk xd xa xb)
    | 1 => .ok (.semwaitGe tk xd xa xb)
    | 2 => .ok (.semwaitEq tk xd xa xb)
    | 3 => .ok (.semwaitNe tk xd xa xb)
    | 4 => decIf (zeroBits w 5 5) (.semrd tk xd xa)
    | _ => .opcode
  | 0x39 =>
    if w.getLsbD 0 then .ok (.runbind tk (bits w 16 4) (bits w 11 5) (bits w 6 5) (bits w 1 5))
    else .ok (.rbind tk (bits w 16 4) (bits w 11 5) (bits w 6 5) (bits w 1 5))
  | 0x3A => match fieldOf w 5 2 with
    | 0 => decIf (zeroBits w 0 5 && zeroBits w 15 5 && decide (fieldOf w 7 3 < 6)) (.acq tk xa (bits w 7 3))
    | 1 => decIf (zeroBits w 0 5 && decide (fieldOf w 7 3 < 6)) (.rel tk xd xa (bits w 7 3))
    | 2 => decIf (zeroBits w 0 5 && zeroBits w 10 5 && decide (fieldOf w 7 3 < 6)) (.fence tk xd (bits w 7 3))
    | _ => .opcode
  | 0x3B => match fieldOf w 10 2 with
    | 0 => decIf (zeroBits w 0 10) (.barrive tk (bits w 12 8))
    | 1 => decIf (zeroBits w 0 10) (.bwait tk (bits w 12 8))
    | 2 => decIf (zeroBits w 0 10 && zeroBits w 12 8) (.cbar tk)
    | _ => .opcode
  | 0x3C => decIf (zeroBits w 12 3 && srnAssigned (fieldOf w 0 12)) (.srr tk xd (bits w 0 12))
  | 0x3D => decIf (zeroBits w 12 3 && srnAssigned (fieldOf w 0 12)) (.srw tk xd (bits w 0 12))
  | 0x3E => decIf (zeroBits w 0 8) (.safept tk (bits w 8 12))
  | 0x3F => match fieldOf w 16 4 with
    | 0 => decIf (zeroBits w 0 16) (.sEnd tk)
    | 1 => .ok (.brk tk (bits w 0 16))
    | 2 => .ok (.trapu tk (bits w 0 16))
    | 3 => decIf (zeroBits w 0 16) (.uiret tk)
    | _ => .opcode
  | _ => .opcode

/-- A vector word and its second word (Tables 2.7 to 2.9). A TGT field is checked whether or not an FMT of a prefix replaces it
(DESIGN CHOICE, log entry 81). -/
def decodeV (w w2 : Word) : Dec :=
  let tk := wTK w
  let vd : VReg := bits w 14 6
  let va : VReg := bits w 8 6
  let vb : VReg := bits w 2 6
  let mn := fieldOf w 0 2
  let bs : BitVec 2 := bits w 0 2
  let byp := w.getLsbD 2
  let one := zeroBits w 3 5 && bypOk byp va
  let m0 := zeroBits w 0 2
  let pd : PReg := bits w 15 5
  let pa : PReg := bits w 10 5
  let pb : PReg := bits w 5 5
  let tgt : BitVec 4 := bits w 4 4
  let tgtOk := fmtData (fieldOf w 4 4)
  let vx : VReg := bits w 14 6
  let xx : XReg := bits w 9 5
  let xxb : XReg := bits w 4 5
  let tag : BitVec 4 := bits w 0 4
  let mcn : CReg := bits w 10 4
  let mxo : XReg := bits w 5 5
  let esz : BitVec 2 := bits w 0 2
  let i16 : BitVec 16 := bits w2 16 16
  let mtag : BitVec 4 := bits w2 12 4
  let vi : VReg := bits w2 6 6
  let xs : XReg := bits w2 1 5
  let mOk := zeroBits w2 0 1 && !(esz == 3#2)
  let t : TReg := bits w 17 3
  let tt : TReg := bits w 11 3
  let idx : BitVec 6 := bits w 5 6
  let o13 : BitVec 13 := bits w 0 13
  let o20 : BitVec 20 := bits w 0 20
  match wOP w with
  | 0x00 => decIf (zeroBits w 0 20) (.vnop tk)
  | 0x01 => decIf (bselOk bs va vb) (.vadd tk vd va vb bs)
  | 0x02 => decIf (bselOk bs va vb) (.vsub tk vd va vb bs)
  | 0x03 => decIf (bselOk bs va vb) (.vmul tk vd va vb bs)
  | 0x04 => decIf (bselOk bs va vb && zeroBits w2 0 26) (.vfma tk vd va vb bs (bits w2 26 6))
  | 0x05 => decIf (bselOk bs va vb) (.vmin tk vd va vb bs)
  | 0x06 => decIf (bselOk bs va vb) (.vmax tk vd va vb bs)
  | 0x07 => match mn with
    | 0 => decIf one (.vabs tk vd va byp)
    | 1 => decIf one (.vneg tk vd va byp)
    | _ => .opcode
  | 0x08 => decIf (bselOk bs va vb) (.vand tk vd va vb bs)
  | 0x09 => decIf (bselOk bs va vb) (.vor tk vd va vb bs)
  | 0x0A => decIf (bselOk bs va vb) (.vxor tk vd va vb bs)
  | 0x0B => match mn with
    | 0 => .ok (.vshiftL tk vd va vb)
    | 1 => .ok (.vshiftR tk vd va vb)
    | 2 => .ok (.vshiftA tk vd va vb)
    | _ => .opcode
  | 0x0C => decIf (m0 && zeroBits w2 0 27) (.vsel tk vd va vb (bits w2 27 5))
  | 0x0D => decIf m0 (.vwmul tk vd va vb)
  | 0x0E => decIf m0 (.vwadd tk vd va vb)
  | 0x0F => decIf (m0 && one) (.vmov tk vd va byp)
  | 0x10 => match mn with
    | 0 => decIf (zeroBits w 19 1) (.vcmpEq tk (bits w 14 5) va vb)
    | 1 => decIf (zeroBits w 19 1) (.vcmpLt tk (bits w 14 5) va vb)
    | 2 => decIf (zeroBits w 19 1) (.vcmpLe tk (bits w 14 5) va vb)
    | _ => decIf (zeroBits w 19 1) (.vcmpNe tk (bits w 14 5) va vb)
  | 0x11 => match fieldOf w 2 3 with
    | 0 => decIf m0 (.pand tk pd pa pb)
    | 1 => decIf m0 (.por tk pd pa pb)
    | 2 => decIf m0 (.pxor tk pd pa pb)
    | 3 => decIf m0 (.pandn tk pd pa pb)
    | 4 => decIf (m0 && zeroBits w 5 5) (.pnot tk pd pa)
    | 5 => decIf (m0 && zeroBits w 5 5) (.pmov tk pd pa)
    | _ => .opcode
  | 0x12 => decIf (zeroBits w 2 8) (.pwhile tk pd pa bs)
  | 0x13 => decIf (zeroBits w 2 8) (.pcnt tk pd pa bs)
  | 0x14 => decIf (m0 && one) (.vexp2 tk vd va byp)
  | 0x15 => decIf (m0 && one) (.vlog2 tk vd va byp)
  | 0x16 => decIf (m0 && one) (.vrecip tk vd va byp)
  | 0x17 => decIf (m0 && one) (.vrsqrt tk vd va byp)
  | 0x18 => decIf (zeroBits w 0 4 && tgtOk) (.vcvt tk vd va tgt)
  | 0x19 => decIf (zeroBits w 2 2 && tgtOk) (.vcvtAmax tk vd va tgt bs)
  | 0x1A => decIf (zeroBits w 0 4 && !(tgt == 15#4)) (.vcast tk vd va tgt)
  | 0x1B => decIf (zeroBits w 4 5 && !(tag == 15#4)) (.vsplat tk vx xx tag)
  | 0x1C => decIf (tag == 0#4) (.vext tk vx xx xxb)
  | 0x1D => decIf (!(tag == 15#4)) (.vins tk vx xx xxb tag)
  | 0x1E => decIf (decide (1 ≤ fieldOf w 0 4 ∧ fieldOf w 0 4 ≤ 6)) (.viota tk vx xx xxb tag)
  | 0x20 => match mn with
    | 0 => decIf one (.vredSum tk vd va byp)
    | 1 => decIf one (.vredMax tk vd va byp)
    | 2 => decIf one (.vredMin tk vd va byp)
    | _ => decIf one (.vredAmax tk vd va byp)
  | 0x21 => match mn with
    | 0 => decIf one (.vscanSum tk vd va byp)
    | 1 => decIf one (.vscanMax tk vd va byp)
    | _ => .opcode
  | 0x28 => decIf m0 (.vperm tk vd va vb)
  | 0x29 => match mn with
    | 0 => .ok (.vslideUp tk vd va vb)
    | 1 => .ok (.vslideDn tk vd va vb)
    | _ => .opcode
  | 0x2A => match mn with
    | 0 => .ok (.vzip tk vd va vb)
    | 1 => .ok (.vunzip tk vd va vb)
    | _ => .opcode
  | 0x2B => decIf (m0 && one) (.vrev tk vd va byp)
  | 0x2C => decIf (zeroBits w 0 10) (.vchain tk pd pa)
  | 0x30 => match fieldOf w 2 3 with
    | 0 => decIf (mOk && !(mtag == 15#4) && zeroBits w2 1 5 && zeroBits w2 6 6) (.vld tk vd mcn mxo esz i16 mtag)
    | 1 => decIf (mOk && !(mtag == 15#4) && zeroBits w2 6 6) (.vldS tk vd mcn mxo esz i16 mtag xs)
    | 2 => decIf (mOk && !(mtag == 15#4) && zeroBits w2 1 5) (.vldX tk vd mcn mxo esz i16 mtag vi)
    | _ => .opcode
  | 0x31 => match fieldOf w 2 3 with
    | 0 => decIf (mOk && mtag == 0#4 && zeroBits w2 1 5 && zeroBits w2 6 6) (.vst tk vd mcn mxo esz i16)
    | 1 => decIf (mOk && mtag == 0#4 && zeroBits w2 6 6) (.vstS tk vd mcn mxo esz i16 xs)
    | 2 => decIf (mOk && mtag == 0#4 && zeroBits w2 1 5) (.vstX tk vd mcn mxo esz i16 vi)
    | _ => .opcode
  | 0x32 => decIf (!(bits w 5 4 == 15#4)) (.vspld tk vd xx (bits w 5 4) (bits w 0 5))
  | 0x33 => decIf (zeroBits w 5 4) (.vspst tk vd xx (bits w 0 5))
  | 0x34 => decIf (m0 && zeroBits w2 0 16 && (!w.getLsbD 2 || zeroBits w 13 4)) (.tld tk t (bits w 13 4) (bits w 8 5) (bits w 3 5) (w.getLsbD 2) i16)
  | 0x35 => decIf (m0 && zeroBits w2 0 16 && (!w.getLsbD 2 || zeroBits w 13 4)) (.tst tk t (bits w 13 4) (bits w 8 5) (bits w 3 5) (w.getLsbD 2) i16)
  | 0x38 => decIf (zeroBits w 0 1 && fmtData (fieldOf w 1 4) &&
        decide ((fieldOf w 11 6 + 1) * (fieldOf w 5 6 + 1) * fmtBits (fieldOf w 1 4) ≤ 8192))
      (.tcfg tk t (bits w 11 6) (bits w 5 6) (bits w 1 4))
  | 0x39 => decIf (zeroBits w 0 17) (.tzero tk t)
  | 0x3A => match mn with
    | 0 => decIf (zeroBits w 2 3) (.trowW tk vd tt idx)
    | 1 => decIf (zeroBits w 2 3) (.trowR tk vd tt idx)
    | _ => .opcode
  | 0x3B => match mn with
    | 0 => decIf (zeroBits w 2 3) (.tcolW tk vd tt idx)
    | 1 => decIf (zeroBits w 2 3) (.tcolR tk vd tt idx)
    | _ => .opcode
  | 0x3C => match fieldOf w 13 2 with
    | 0 => .ok (.vbrAny tk pd o13)
    | 1 => .ok (.vbrAll tk pd o13)
    | 2 => .ok (.vbrNone tk pd o13)
    | _ => .opcode
  | 0x3D => .ok (.vjmp tk o20)
  | 0x3E => .ok (.vloop tk o20)
  | 0x3F => decIf (zeroBits w 0 20) (.vend tk)
  | _ => .opcode

/-- A matrix word and its second word (R38, Tables 2.10, 8.1). -/
def decodeM (w w2 : Word) : Dec :=
  let tk := wTK w
  let rg : Rg := bits w 16 4
  let xa : XReg := bits w 11 5
  let xb : XReg := bits w 6 5
  let xc : XReg := bits w 1 5
  let f := w.getLsbD 0
  let zb := zeroBits w 6 5
  let zc := zeroBits w 1 5
  let zf := zeroBits w 0 1
  let tag : BitVec 4 := bits w2 28 4
  let tagN := fieldOf w2 28 4
  let sel : BitVec 9 := bits w 0 9
  let selN := fieldOf w 0 9
  let exd : XReg := bits w 15 5
  let erg : Rg := bits w 11 4
  match wOP w with
  | 0x00 => decIf (zeroBits w 0 20) (.mnop tk)
  | 0x01 => decIf (zeroBits w 0 11 && decide (fieldOf w 11 9 ≤ 256)) (.mlease tk (bits w 11 9))
  | 0x02 => decIf (zeroBits w 0 20) (.munlease tk)
  | 0x04 => decIf (zb && zc) (.mwload tk rg xa f)
  | 0x05 => decIf (zb && zc && (fieldOf w 16 4 == 3 || fieldOf w 16 4 == 4 || fieldOf w 16 4 == 8 ||
        (decide (10 ≤ fieldOf w 16 4) && decide (fieldOf w 16 4 ≤ 12)))) (.mwloadm tk (bits w 16 4) xa f)
  | 0x06 => decIf (zeroBits w 0 20) (.mpswap tk)
  | 0x08 => decIf (zc && tag == 7#4 && decide (fieldOf w2 0 3 ≤ 4) && zeroBits w2 15 13 &&
        (!f || zeroBits w2 3 12)) (.mregion tk rg xa xb f (bits w2 0 3) (bits w2 3 12))
  | 0x09 => decIf (zb && zc && zeroBits w2 12 16 && streamPair tagN (fieldOf w2 8 4))
      (.mstream tk rg xa f tag (bits w2 0 7) (w2.getLsbD 7) (bits w2 8 4))
  | 0x0A => decIf (zc && zf) (.mbind tk rg xa xb)
  | 0x0B => if f then decIf (zb && zc) (.mreleaseOne tk rg xa)
            else decIf (zb && zc && zeroBits w 11 5) (.mrelease tk rg)
  | 0x0C => if f then decIf zc (.mdrainFree tk rg xa xb) else decIf zc (.mdrain tk rg xa xb)
  | 0x0D => decIf (zb && zc && zf) (.mswap tk rg xa)
  | 0x0E => if zeroBits w 9 2 && decide (fieldOf w 6 3 ≤ 1) then
              decIf (zeroBits w 5 1) (.mevrd tk exd erg (bits w 6 3) (bits w 0 5)) else .opcode
  | 0x0F => if zeroBits w 9 2 && decide (fieldOf w 6 3 ≤ 2) then
              decIf (zeroBits w 5 1 && zeroBits w 15 5) (.mevclr tk erg (bits w 6 3) (bits w 0 5)) else .opcode
  | 0x10 => decIf (zeroBits w 16 4 && zf && (tagN == 7 || tagN == 8 || tagN == 9) && zeroBits w2 25 3 &&
        decide (fieldOf w2 14 4 ≤ fieldOf w2 7 7) && decide (fieldOf w2 18 7 ≤ fieldOf w2 7 7))
      (.mrank tk xa xb xc tag (bits w2 0 7) (bits w2 7 7) (bits w2 14 4) (bits w2 18 7))
  | 0x11 => if f then .ok (.mtopkHi tk rg xa xb xc) else .ok (.mtopkLo tk rg xa xb xc)
  | 0x12 => decIf zc (.mdist tk rg xa xb f)
  | 0x13 => match fieldOf w 9 2 with
    | 0 => decIf (zeroBits w 11 4 && mcntSel selN && !(selN == 0x1FF)) (.mcntRd tk exd sel)
    | 1 => decIf (zeroBits w 11 4 && zeroBits w 15 5 && mcntSel selN) (.mcntClr tk sel)
    | _ => .opcode
  | 0x18 => decIf (zb && zc && zf && tag == 8#4 && zeroBits w2 8 20) (.mcplx tk rg xa (bits w2 0 7) (w2.getLsbD 7))
  | 0x38 => decIf (zb && zc && zf) (.msave tk rg xa)
  | 0x39 => decIf (zb && zc && zf) (.mrestore tk rg xa)
  | 0x3E => decIf (tk == 0#4) (.mloop (bits w 0 20))
  | 0x3F => decIf (zeroBits w 0 20) (.mend tk)
  | _ => .opcode

/-- Copy format codes of a conversion (Table 12.4) that Table 6.5 pairs: n16 (0) and n32 (14) count as natural
integers there; raw and bits have no code, and 15 is reserved. -/
def copyPair (src tgt : Nat) : Bool := src != 15 && tgt != 15 && cvtPair src tgt

/-- A copy word and its second word (R39, Table 2.11, R252 to R265). cgath and cscat take every DTAG code that Table 12.4 gives a
format (log entry 38). -/
def decodeC (w w2 : Word) : Dec :=
  let tk := wTK w
  let cd : CReg := bits w 16 4
  let cs : CReg := bits w 12 4
  let xa : XReg := bits w 7 5
  let xb : XReg := bits w 2 5
  let ui := w.getLsbD 1
  let z0 := zeroBits w 0 1
  let xc : XReg := bits w2 27 5
  let xs : XReg := bits w2 22 5
  let dtag : BitVec 4 := bits w2 18 4
  let lin := zeroBits w2 0 27
  let spd := w2.getLsbD 16
  let sps := w2.getLsbD 17
  let spOk := (!spd || zeroBits w 16 4) && (!sps || zeroBits w 12 4)
  let ba : XReg := bits w 15 5
  let bb : XReg := bits w 10 5
  let bc : XReg := bits w 5 5
  let fn := fieldOf w 1 4
  let bui := w.getLsbD 0
  match wOP w with
  | 0x00 => decIf (zeroBits w 0 20) (.cnop tk)
  | 0x01 => decIf (z0 && lin) (.cpy tk cd cs xa xb ui xc)
  | 0x02 => decIf (z0 && dtag == 0#4 && zeroBits w2 10 6 && spOk)
      (.cpy2d tk cd cs xa xb ui xc xs (bits w2 0 10) spd sps)
  | 0x03 => decIf (z0 && zeroBits w2 22 5 && zeroBits w2 4 12 && spOk && copyPair (fieldOf w2 0 4) (fieldOf w2 18 4))
      (.cpyCvt tk cd cs xa xb ui xc dtag (bits w2 0 4) spd sps)
  | 0x04 => decIf (z0 && lin && zeroBits w 16 4) (.cpyin tk cs xa xb ui xc)
  | 0x05 => decIf (z0 && lin && zeroBits w 12 4) (.cpyout tk cd xa xb ui xc)
  | 0x06 => match fn with
    | 0 => .ok (.cpyaccRd tk ba bb bc bui)
    | 1 => .ok (.cpyaccWr tk ba bb bc bui)
    | _ => .reserved
  | 0x07 => match fn with
    | 0 => .ok (.cfill tk ba bb bc bui)
    | 1 => .ok (.cfillCw tk ba bb bc bui)
    | _ => .opcode
  | 0x08 => decIf (z0 && zeroBits w 16 4 && zeroBits w2 7 11 && !(dtag == 15#4)) (.cgath tk cs xa xb ui xc xs dtag (bits w2 0 7))
  | 0x09 => decIf (z0 && zeroBits w 12 4 && zeroBits w2 7 11 && !(dtag == 15#4)) (.cscat tk cd xa xb ui xc xs dtag (bits w2 0 7))
  | 0x0A => match fn with
    | 0 => decIf (zeroBits w 5 5) (.cnullZero tk ba bb bui)
    | 1 => .ok (.cnullId tk ba bb bc bui)
    | 2 => .ok (.cnullConst tk ba bb bc bui)
    | _ => .opcode
  | 0x0C => decIf (decide (fn < 5)) (.crcp tk ba bb bc (bits w 1 4) bui)
  | 0x10 => decIf z0 (.carm tk ba bb bc (bits w 1 4))
  | 0x11 => decIf (zeroBits w 0 15) (.cdisarm tk ba)
  | 0x14 => decIf (z0 && zeroBits w 5 15 && decide (fn < 6)) (.cfence tk (bits w 1 4))
  | 0x15 => match fn with
    | 0 => decIf (z0 && zeroBits w 5 15) (.cwaitAll tk)
    | 1 => decIf (z0 && zeroBits w 5 10) (.cwaitLe tk ba)
    | _ => .opcode
  | 0x3E => decIf (tk == 0#4) (.cloop (bits w 0 20))
  | 0x3F => decIf (zeroBits w 0 20) (.cend tk)
  | _ => .opcode

/-- The instruction of an engine word and the word after it (read only by a double-word). -/
def decodeEngine (e : Engine) (w w2 : Word) : Dec :=
  match e with
  | .S => decodeS w
  | .V => decodeV w w2
  | .M => decodeM w w2
  | .C => decodeC w w2

/-- R25: whether an OP is a double-word. -/
def opDouble (e : Engine) (op : Nat) : Bool :=
  match e with
  | .S => false
  | .V => op == 0x04 || op == 0x0C || op == 0x30 || op == 0x31 || op == 0x34 || op == 0x35
  | .M => op == 0x08 || op == 0x09 || op == 0x10 || op == 0x18
  | .C => (1 ≤ op && op ≤ 5) || op == 8 || op == 9

/-- R27: whether a word is a control transfer. -/
def opControl (e : Engine) (w : Word) : Bool :=
  let op := wOP w
  match e with
  | .S => (0x2A ≤ op && op ≤ 0x33) || (op == 0x3F && fieldOf w 16 4 == 3)
  | .V => op == 0x3C || op == 0x3D || op == 0x3E
  | .M => op == 0x3E
  | .C => op == 0x3E

/-- The fields of an ARITH prefix (R13). -/
structure ArithPfx where
  rm : BitVec 3
  sat : Bool
  ftz : BitVec 2
  t : Bool
  pred : PReg
  pneg : Bool
  pen : Bool
  fmt : BitVec 4
deriving DecidableEq, Repr

/-- What a prefix word decodes to: an instruction, an unassigned kind (row 3), or a reserved value (row 4). -/
def decodePrefix (w : Word) : Dec :=
  match fieldOf w 26 4 with
  | 0 =>
    let pen := w.getLsbD 12
    decIf (zeroBits w 0 8 && decide (fieldOf w 23 3 < 6) && decide (fieldOf w 20 2 < 3) &&
        (pen || (zeroBits w 14 5 && zeroBits w 13 1)))
      (.arith (bits w 23 3) (w.getLsbD 22) (bits w 20 2) (w.getLsbD 19) (bits w 14 5) (w.getLsbD 13) pen (bits w 8 4))
  | 1 => decIf (zeroBits w 0 16) (.label (bits w 16 10))
  | 2 => .ok (.immx (bits w 0 26))
  | _ => .opcode

/-- The classes of prefix acceptance of Table 2.3. -/
inductive Accept where
  | none | all | cvt | tpred | vcmp | pred | rsf | label | immx
deriving DecidableEq, Repr

/-- Table 2.3 by engine and OP. -/
def accept (e : Engine) (op : Nat) : Accept :=
  match e with
  | .S => if (3 ≤ op && op ≤ 6) || (8 ≤ op && op ≤ 10) || (0x10 ≤ op && op ≤ 0x16) || (0x18 ≤ op && op ≤ 0x1F)
      then .immx else .none
  | .V =>
    if (1 ≤ op && op ≤ 7) || op == 0x0D || op == 0x0E || (0x14 ≤ op && op ≤ 0x17) || op == 0x20 || op == 0x21
    then .all
    else if op == 0x18 || op == 0x19 then .cvt
    else if (8 ≤ op && op ≤ 0x0C) || op == 0x0F || op == 0x1A || op == 0x1B || op == 0x1D || op == 0x1E ||
      (0x28 ≤ op && op ≤ 0x2B) then .tpred
    else if op == 0x10 then .vcmp
    else if 0x30 ≤ op && op ≤ 0x33 then .pred
    else .none
  | .M => if op == 0x09 then .label else .none
  | .C => if op == 0x03 then .rsf else .none

/-- Row 9 of Table 2.2: whether the class accepts the prefix, its unused fields at their defaults (R30). -/
def acceptsPrefix (a : Accept) (p : Instr) : Bool :=
  match p with
  | .label _ => a == .label
  | .immx _ => a == .immx
  | .arith rm sat ftz t _ _ pen fmt =>
    let rs := rm == 0#3 && !sat
    match a with
    | .all => !(fmt == 14#4 || fmt == 15#4)
    | .cvt => !(fmt == 14#4 || fmt == 15#4)
    | .tpred => rs && ftz == 0#2 && fmt == 0#4
    | .vcmp => rs && !t && fmt == 0#4
    | .pred => rs && ftz == 0#2 && !t && fmt == 0#4
    | .rsf => !t && !pen && fmt == 0#4
    | _ => false
  | _ => false

/-! ## Queue packets -/

/-- Table 2.12: the length of a packet in words; NOP accepts any from 1 to 255. -/
def packetLen (op : Nat) : Option Nat :=
  match op with
  | 0x00 => some 0
  | 0x01 => some 16
  | 0x02 => some 20
  | 0x03 => some 10
  | 0x04 | 0x05 | 0x0B | 0x0E | 0x12 => some 4
  | 0x06 | 0x0A | 0x10 | 0x11 => some 2
  | 0x07 | 0x08 | 0x0D => some 3
  | 0x09 | 0x0C => some 1
  | 0x0F => some 6
  | _ => none

/-- Word `i` of a list, 0 beyond its end. -/
def wordAt (ws : List Word) (i : Nat) : Word := ws.getD i 0#32

/-- The 64 bits of words i and i + 1, low word first. -/
def pairAt (ws : List Word) (i : Nat) : BitVec 64 := wordAt ws (i + 1) ++ wordAt ws i

/-- The 128 bits of words i to i + 3, low word first. -/
def quadAt (ws : List Word) (i : Nat) : BitVec 128 := pairAt ws (i + 2) ++ pairAt ws i

/-- Table 10.2 and R293: the fields of LAUNCH. -/
def launchArgs (ws : List Word) : LaunchArgs :=
  let h := wordAt ws 0
  { chain := h.getLsbD 15, pri := bits h 12 3, copyonly := h.getLsbD 11, order := bits h 8 2, swz := bits h 4 4
    size := bits h 0 4, kobj := bits (wordAt ws 1) 0 24, kgen := bits (wordAt ws 2) 0 16
    gtrap := (wordAt ws 2).getLsbD 16, gx := bits (wordAt ws 3) 0 16, gy := bits (wordAt ws 3) 16 16
    gz := bits (wordAt ws 4) 0 16, lxobj := bits (wordAt ws 5) 0 24, gt := (wordAt ws 5).getLsbD 24
    lxgen := bits (wordAt ws 6) 0 16, rel := bits (wordAt ws 7) 0 16, budget := bits (wordAt ws 7) 16 16
    arg0 := quadAt ws 8, arg1 := quadAt ws 12 }

/-- The reserved bits of LAUNCH and its ORDER field are as Table 10.2 and R293 allow. -/
def launchOk (ws : List Word) : Bool :=
  zeroBits (wordAt ws 0) 10 1 && zeroBits (wordAt ws 1) 24 8 && zeroBits (wordAt ws 2) 17 15 &&
  zeroBits (wordAt ws 4) 16 16 && zeroBits (wordAt ws 5) 25 7 && zeroBits (wordAt ws 6) 16 16

/-- `i` when the condition on its fields holds, else QUEUE_FORMAT. -/
def fmtIf (c : Bool) (i : Packet) : Except QCause Packet := if c then .ok i else .error .format

/-- A packet, checked in the order of R42: opcode, privilege, length, reserved bits. -/
def decodePacket (priv : Bool) (ws : List Word) : Except QCause Packet :=
  let h := wordAt ws 0
  let op := fieldOf h 24 8
  let len := fieldOf h 16 8
  match packetLen op with
  | none => .error .illegal
  | some n =>
    if (op == 0x10 || op == 0x11 || op == 0x12) && !priv then .error .privilege
    else if len == 0 || (op != 0 && len != n) then .error .format
    else
      let w1 := wordAt ws 1
      let w2 := wordAt ws 2
      let h0 := zeroBits h 0 16
      match op with
      | 0x00 => fmtIf h0 (.nop (bits h 16 8))
      | 0x01 => fmtIf (launchOk ws) (.launch (launchArgs ws))
      | 0x02 => fmtIf (launchOk ws && zeroBits (quadAt ws 16) 96 32) (.launchm (launchArgs ws) (quadAt ws 16))
      | 0x03 => fmtIf h0 (.copyP (quadAt ws 1) (quadAt ws 5) (wordAt ws 9))
      | 0x04 => fmtIf (zeroBits h 12 4 && wordAt ws 3 == 0#32) (.semsigP (bits h 0 12) (pairAt ws 1))
      | 0x05 => fmtIf (zeroBits h 14 2 && wordAt ws 3 == 0#32) (.semwaitP (bits h 12 2) (bits h 0 12) (pairAt ws 1))
      | 0x06 => fmtIf (zeroBits w1 8 24) (.qfence (bits h 0 16) (bits w1 0 8))
      | 0x07 => fmtIf (h0 && zeroBits w1 24 8) (.jumpP (bits w1 0 24) (bits w2 16 16) (bits w2 0 16))
      | 0x08 => fmtIf (h0 && zeroBits w1 24 8) (.callP (bits w1 0 24) (bits w2 16 16) (bits w2 0 16))
      | 0x09 => fmtIf h0 .returnP
      | 0x0A => fmtIf (zeroBits h 11 5) (.irq (bits h 0 11) w1)
      | 0x0B => fmtIf (h0 && zeroBits (wordAt ws 3) 13 19)
          (.frameBegin (pairAt ws 1) ((wordAt ws 3).getLsbD 12) (bits (wordAt ws 3) 0 12))
      | 0x0C => fmtIf h0 .frameEnd
      | 0x0D => fmtIf h0 (.releaseAt (pairAt ws 1))
      | 0x0E => fmtIf (zeroBits h 6 10 && zeroBits w1 24 8 && zeroBits w2 0 16)
          (.itin (bits h 0 8) (bits w1 0 24) (bits w2 16 16) (wordAt ws 3))
      | 0x0F => fmtIf (zeroBits h 4 12 && zeroBits w1 24 8 && zeroBits w2 0 16 && zeroBits (wordAt ws 3) 13 19 &&
            zeroBits (wordAt ws 5) 12 20)
          (.gather (bits h 0 4) (bits w1 0 24) (bits w2 16 16) (bits (wordAt ws 3) 0 13) (wordAt ws 4)
            (bits (wordAt ws 5) 0 12))
      | 0x10 => fmtIf (zeroBits h 6 10 && (!h.getLsbD 4 || zeroBits h 0 4))
          (.preempt (bits h 0 4) (h.getLsbD 4) (h.getLsbD 5) w1)
      | 0x11 => fmtIf (zeroBits h 4 12 && zeroBits w1 3 29) (.setpri (bits h 0 4) (bits w1 0 3))
      | _ => fmtIf (zeroBits h 10 6 && zeroBits w1 24 8 && w2 == 0#32 && wordAt ws 3 == 0#32 &&
            (h.getLsbD 9 == zeroBits w1 0 24)) (.otinv (bits h 0 9) (h.getLsbD 9) (bits w1 0 24))

/-! ## Itinerary entries -/

/-- `i` when the condition on its fields holds, else status RESERVED. -/
def resIf (c : Bool) (i : Entry) : Except Status Entry := if c then .ok i else .error .reserved

/-- Words `i` to 7 of an entry are zero. -/
def restZero (ws : List Word) (i : Nat) : Bool := (ws.drop i).all (· == 0#32)

/-- The fields of MOVE (Table 15.1, R340). -/
def moveArgs (ws : List Word) : MoveArgs :=
  let w0 := wordAt ws 0
  let w4 := wordAt ws 4
  let w5 := wordAt ws 5
  let w6 := wordAt ws 6
  let land := bits w0 2 2 == 3#2
  { wclass := bits w0 20 4, stier := bits w0 0 2, dtier := bits w0 2 2, mc := w0.getLsbD 4
    sobj := bits (wordAt ws 1) 0 24, sgen := bits (wordAt ws 2) 0 16
    soff := (bits w4 0 8 : BitVec 8) ++ wordAt ws 3
    dobj := bits w4 8 24, dgen := bits w5 0 16, len := bits w5 16 16
    doff := if land then 0#40 else (bits w0 8 8 : BitVec 8) ++ w6
    z := if land then bits w6 0 4 else 0#4, core := if land then bits w6 4 9 else 0#9
    die := if land then bits w6 13 2 else 0#2, zoff := if land then bits w6 15 12 else 0#12
    due := wordAt ws 7 }

/-- R339, R340: the reserved bits and values of a MOVE; offsets are multiples of 64, LEN is not 0. -/
def moveOk (ws : List Word) : Bool :=
  let w0 := wordAt ws 0
  let land := bits w0 2 2 == 3#2
  zeroBits w0 16 4 && zeroBits w0 5 3 && !(bits w0 0 2 == 3#2) && zeroBits (wordAt ws 1) 24 8 &&
  zeroBits (wordAt ws 2) 16 16 && zeroBits (wordAt ws 3) 0 6 && !(zeroBits (wordAt ws 5) 16 16) &&
  (if land then zeroBits w0 8 8 && zeroBits (wordAt ws 6) 27 5 else zeroBits (wordAt ws 6) 0 6)

/-- An itinerary entry of eight words at index `idx` of its object. -/
def decodeEntry (idx : Nat) (ws : List Word) : Except Status Entry :=
  let w0 := wordAt ws 0
  let w1 := wordAt ws 1
  let w2 := wordAt ws 2
  let f0 := zeroBits w0 0 16
  let nw := zeroBits w0 16 8
  match fieldOf w0 24 8 with
  | 0x01 => resIf (moveOk ws) (.move (moveArgs ws))
  | 0x02 => resIf (f0 && nw && zeroBits w1 16 16 && zeroBits w2 4 4 && zeroBits w2 16 16 &&
        zeroBits (wordAt ws 4) 16 16 && restZero ws 5)
      (.mcast (bits w1 0 16) (bits w2 0 4) (bits w2 8 8) (wordAt ws 3) (bits (wordAt ws 4) 0 16))
  | 0x03 => resIf (zeroBits w0 2 14 && nw && !(bits w0 0 2 == 3#2) && zeroBits w1 24 8 && !(zeroBits w2 16 16) &&
        restZero ws 5)
      (.hint (bits w0 0 2) (bits w1 0 24) (bits w2 0 16) (bits w2 16 16)
        ((bits (wordAt ws 4) 0 8 : BitVec 8) ++ wordAt ws 3) (bits (wordAt ws 4) 8 24))
  | 0x04 => resIf (f0 && zeroBits w0 16 4 && zeroBits w1 7 25 && decide (fieldOf w1 0 7 ≤ 64) && restZero ws 2)
      (.waitw (bits w0 20 4) (bits w1 0 7))
  | 0x05 => resIf (f0 && nw && zeroBits w1 13 3 && zeroBits w1 28 4 && restZero ws 3)
      (.mark (bits w1 0 12) (w1.getLsbD 12) (bits w1 16 12) w2)
  | 0x06 => resIf (f0 && nw && zeroBits w1 11 1 && decide (fieldOf w1 0 11 ≤ idx) && restZero ws 3)
      (.repeatE (bits w1 0 11) (bits w1 12 2) (w1.getLsbD 14) (w1.getLsbD 15) (bits w1 16 16) (bits w2 0 16)
        (bits w2 16 16))
  | 0x07 => resIf (f0 && nw && zeroBits w1 7 25 && !(zeroBits w1 0 7) && decide (fieldOf w1 0 7 ≤ 64) &&
        restZero ws 3) (.gust (bits w1 0 7) w2)
  | 0x08 => resIf (f0 && nw && zeroBits w1 5 27 && zeroBits w2 13 19 && restZero ws 4)
      (.batch (bits w1 0 4) (w1.getLsbD 4) (bits w2 0 12) (w2.getLsbD 12) (wordAt ws 3))
  | 0x0F => resIf (f0 && nw && restZero ws 1) .itinEnd
  | _ => .error .illegal

/-! ## The opcode table's words -/

/-- The engine whose stream a table word is read in. A word is ambiguous between the four streams (the maps reuse the
OP numbers): the first of S, V, M and C that assigns it an instruction of its length. -/
def tableEngine (w w2 : Word) : Option (Engine × Instr) :=
  let try1 := fun (e : Engine) =>
    if (wLS w == 1#2) == opDouble e (wOP w) then
      match decodeEngine e w w2 with
      | .ok i => some (e, i)
      | _ => none
    else none
  match wLS w with
  | 2#2 => match decodePrefix w with
    | .ok i => some (.V, i)
    | _ => none
  | 3#2 => none
  | _ => (try1 .S).or ((try1 .V).or ((try1 .M).or (try1 .C)))

/-- The instruction that the decoder reads from the bits of a row of the opcode table. -/
def decodeTableWord (_nbits w : Nat) : Option Instr :=
  (tableEngine (BitVec.ofNat 32 w) (BitVec.ofNat 32 (w >>> 32))).map Prod.snd

/-! ## The encoder -/

/-- A field placed at a bit of a word. -/
def fld {n : Nat} (lo : Nat) (x : BitVec n) : Word := x.setWidth 32 <<< lo

/-- The first word of an engine instruction: LS, TK, OP and the 20 bits of its operands (Table 2.1). -/
def engWord (double : Bool) (tk : Tk) (op : BitVec 6) (body : Word) : Word :=
  fld 30 (bit1 double) ||| fld 26 tk ||| fld 20 op ||| body

/-- Layout SR. -/
def encSR (tk : Tk) (op : BitVec 6) (xd xa xb : XReg) (fn : BitVec 5) : List Word :=
  [engWord false tk op (fld 15 xd ||| fld 10 xa ||| fld 5 xb ||| fld 0 fn)]
/-- Layout SI. -/
def encSI (tk : Tk) (op : BitVec 6) (xd xa : XReg) (imm : BitVec 10) : List Word :=
  [engWord false tk op (fld 15 xd ||| fld 10 xa ||| fld 0 imm)]
/-- Layout SC. -/
def encSC (tk : Tk) (xd : XReg) (ca : CReg) (f : BitVec 3) : List Word :=
  [engWord false tk 0x0B#6 (fld 15 xd ||| fld 11 ca ||| fld 8 f)]
/-- Layout SK. -/
def encSK (tk : Tk) (cd ca : CReg) (xa xb : XReg) (fn : BitVec 2) : List Word :=
  [engWord false tk 0x0F#6 (fld 16 cd ||| fld 12 ca ||| fld 7 xa ||| fld 2 xb ||| fld 0 fn)]
/-- Layout SM. -/
def encSM (tk : Tk) (op : BitVec 6) (xd : XReg) (cn : CReg) (xo : XReg) (imm : BitVec 6) : List Word :=
  [engWord false tk op (fld 15 xd ||| fld 11 cn ||| fld 6 xo ||| fld 0 imm)]
/-- Layout SP. -/
def encSP (tk : Tk) (op : BitVec 6) (xd xa : XReg) (sz : BitVec 2) (sgn : Bool) (imm : BitVec 7) : List Word :=
  [engWord false tk op (fld 15 xd ||| fld 10 xa ||| fld 8 sz ||| fld 7 (bit1 sgn) ||| fld 0 imm)]
/-- Layout SA. -/
def encSA (tk : Tk) (op : BitVec 6) (xd : XReg) (cn : CReg) (xa xb : XReg) (w : Bool) : List Word :=
  [engWord false tk op (fld 15 xd ||| fld 11 cn ||| fld 6 xa ||| fld 1 xb ||| fld 0 (bit1 w))]
/-- Layout SQ. -/
def encSQ (tk : Tk) (xd xa xb : XReg) (kind : BitVec 3) (w cw : Bool) : List Word :=
  [engWord false tk 0x28#6 (fld 15 xd ||| fld 10 xa ||| fld 5 xb ||| fld 2 kind ||| fld 1 (bit1 w) |||
      fld 0 (bit1 cw))]
/-- Layout SB. -/
def encSB (tk : Tk) (op : BitVec 6) (xa xb : XReg) (off : BitVec 10) : List Word :=
  [engWord false tk op (fld 15 xa ||| fld 10 xb ||| fld 0 off)]
/-- Layout SG. -/
def encSG (tk : Tk) (cn : CReg) (xa xb xs : XReg) (u : BitVec 1) : List Word :=
  [engWord false tk 0x39#6 (fld 16 cn ||| fld 11 xa ||| fld 6 xb ||| fld 1 xs ||| fld 0 u)]
/-- Layout SF. -/
def encSF (tk : Tk) (xd xa : XReg) (scope : BitVec 3) (kind : BitVec 2) : List Word :=
  [engWord false tk 0x3A#6 (fld 15 xd ||| fld 10 xa ||| fld 7 scope ||| fld 5 kind)]
/-- Layout VR. -/
def encVR (tk : Tk) (op : BitVec 6) (vd va vb : VReg) (m : BitVec 2) : List Word :=
  [engWord false tk op (fld 14 vd ||| fld 8 va ||| fld 2 vb ||| fld 0 m)]
/-- Layout VR of a one-source instruction (R35). -/
def encV1 (tk : Tk) (op : BitVec 6) (vd va : VReg) (byp : Bool) (m : BitVec 2) : List Word :=
  [engWord false tk op (fld 14 vd ||| fld 8 va ||| fld 2 (bit1 byp) ||| fld 0 m)]
/-- Layout VQ. -/
def encVQ (tk : Tk) (pd pa pb : PReg) (fn : BitVec 3) : List Word :=
  [engWord false tk 0x11#6 (fld 15 pd ||| fld 10 pa ||| fld 5 pb ||| fld 2 fn)]
/-- Layout VX. -/
def encVX (tk : Tk) (op : BitVec 6) (v : VReg) (x xb : XReg) (tag : BitVec 4) : List Word :=
  [engWord false tk op (fld 14 v ||| fld 9 x ||| fld 4 xb ||| fld 0 tag)]
/-- Layout VM. -/
def encVM (tk : Tk) (op : BitVec 6) (v : VReg) (cn : CReg) (xo : XReg) (mode : BitVec 3) (esz : BitVec 2)
    (imm : BitVec 16) (tag : BitVec 4) (vi : VReg) (xs : XReg) : List Word :=
  [engWord true tk op (fld 14 v ||| fld 10 cn ||| fld 5 xo ||| fld 2 mode ||| fld 0 esz), fld 16 imm |||
      fld 12 tag ||| fld 6 vi ||| fld 1 xs]
/-- Layout VL. -/
def encVL (tk : Tk) (op : BitVec 6) (t : TReg) (cn : CReg) (xo xs : XReg) (sp : Bool) (imm : BitVec 16) : List Word :=
  [engWord true tk op (fld 17 t ||| fld 13 cn ||| fld 8 xo ||| fld 3 xs ||| fld 2 (bit1 sp)), fld 16 imm]
/-- Layout VT. -/
def encVT (tk : Tk) (op : BitVec 6) (v : VReg) (t : TReg) (idx : BitVec 6) (m : BitVec 2) : List Word :=
  [engWord false tk op (fld 14 v ||| fld 11 t ||| fld 5 idx ||| fld 0 m)]
/-- Layout MA. -/
def encMA (tk : Tk) (op : BitVec 6) (rg : BitVec 4) (xa xb xc : XReg) (f : Bool) : List Word :=
  [engWord false tk op (fld 16 rg ||| fld 11 xa ||| fld 6 xb ||| fld 1 xc ||| fld 0 (bit1 f))]
/-- Layout MB. -/
def encMB (tk : Tk) (op : BitVec 6) (rg : BitVec 4) (xa xb xc : XReg) (f : Bool) (w2 : Word) : List Word :=
  [engWord true tk op (fld 16 rg ||| fld 11 xa ||| fld 6 xb ||| fld 1 xc ||| fld 0 (bit1 f)), w2]
/-- Layout ME. -/
def encME (tk : Tk) (op : BitVec 6) (xd : XReg) (rg : BitVec 4) (fn : BitVec 2) (sel : Word) : List Word :=
  [engWord false tk op (fld 15 xd ||| fld 11 rg ||| fld 9 fn ||| sel)]
/-- Layout CA. -/
def encCA (tk : Tk) (op : BitVec 6) (cd cs : CReg) (xa xb : XReg) (ui : Bool) (xc xs : XReg) (dtag : BitVec 4)
    (ext : Word) : List Word :=
  [engWord true tk op (fld 16 cd ||| fld 12 cs ||| fld 7 xa ||| fld 2 xb ||| fld 1 (bit1 ui)), fld 27 xc |||
      fld 22 xs ||| fld 18 dtag ||| ext]
/-- Layout CB. -/
def encCB (tk : Tk) (op : BitVec 6) (xa xb xc : XReg) (fn : BitVec 4) (ui : Bool) : List Word :=
  [engWord false tk op (fld 15 xa ||| fld 10 xb ||| fld 5 xc ||| fld 1 fn ||| fld 0 (bit1 ui))]
/-- The header word of a packet (R40). -/
def pktHead (op len : BitVec 8) (h : Word) : Word := fld 24 op ||| fld 16 len ||| h
/-- The two words of a 64-bit field, low word first. -/
def words2 (x : BitVec 64) : List Word := [bits x 0 32, bits x 32 32]
/-- The four words of a 128-bit field, low word first. -/
def words4 (x : BitVec 128) : List Word := [bits x 0 32, bits x 32 32, bits x 64 32, bits x 96 32]
/-- Words 0 to 15 of LAUNCH and LAUNCHM (Table 10.2, R293). -/
def encLaunch (op len : BitVec 8) (a : LaunchArgs) : List Word :=
  [pktHead op len (fld 15 (bit1 a.chain) ||| fld 12 a.pri ||| fld 11 (bit1 a.copyonly) ||| fld 8 a.order |||
      fld 4 a.swz ||| fld 0 a.size), fld 0 a.kobj, fld 16 (bit1 a.gtrap) ||| fld 0 a.kgen, fld 16 a.gy |||
      fld 0 a.gx, fld 0 a.gz, fld 24 (bit1 a.gt) ||| fld 0 a.lxobj, fld 0 a.lxgen, fld 16 a.budget |||
      fld 0 a.rel] ++ words4 a.arg0 ++ words4 a.arg1
/-- Words 0 to 7 of MOVE (Table 15.1, R340). -/
def encMove (a : MoveArgs) : List Word :=
  let land := a.dtier == 3#2
  [fld 24 0x01#8 ||| fld 20 a.wclass ||| fld 8 (if land then 0#8 else bits a.doff 32 8) |||
      fld 4 (bit1 a.mc) ||| fld 2 a.dtier ||| fld 0 a.stier, fld 0 a.sobj, fld 0 a.sgen, bits a.soff 0 32,
      fld 8 a.dobj ||| fld 0 (bits a.soff 32 8), fld 16 a.len ||| fld 0 a.dgen, if land then fld 15 a.zoff |||
      fld 13 a.die ||| fld 4 a.core ||| fld 0 a.z else bits a.doff 0 32, a.due]

/-- How an instruction is written down: the four streams and the prefixes (R24), packets (R40), entries (R41), and
the steps that no word names. -/
def Instr.form : Instr → Form
  | .arith .. | .label .. | .immx .. => .pfx
  | .snop .. | .add .. | .sub .. | .andR .. | .orR .. | .xorR .. | .sll .. | .srl .. | .sra .. | .slt .. => .engine .S
  | .sltu .. | .minR .. | .maxR .. | .minu .. | .maxu .. | .mul .. | .mulh .. | .mulhu .. | .mulhsu .. => .engine .S
  | .div .. | .divu .. | .rem .. | .remu .. | .addi .. | .andi .. | .ori .. | .xori .. | .slli .. | .srli .. => .engine .S
  | .srai .. | .slti .. | .sltiu .. | .lui .. | .cinspBase .. | .cinspLen .. | .cinspRights .. => .engine .S
  | .cinspObj .. | .cinspGen .. | .pgcommit .. | .pgfree .. | .pgquery .. | .cwin .. | .crt .. | .cmov .. => .engine .S
  | .ldb .. | .ldbu .. | .ldh .. | .ldhu .. | .ldw .. | .ldwu .. | .ldd .. | .stb .. | .sth .. | .stw .. => .engine .S
  | .std .. | .spld .. | .spst .. | .rspld .. | .rspst .. | .amoadd .. | .amomin .. | .amomax .. => .engine .S
  | .amoand .. | .amoor .. | .amoxor .. | .amoswap .. | .amocas .. | .spamoAdd .. | .spamoMin .. => .engine .S
  | .spamoMax .. | .spamoAnd .. | .spamoOr .. | .spamoXor .. | .spamoSwap .. | .spamoCas .. | .beq .. => .engine .S
  | .bne .. | .blt .. | .bge .. | .bltu .. | .bgeu .. | .jmp .. | .call .. | .jr .. | .callr .. | .tkpop .. => .engine .S
  | .tkpush .. | .tkwait .. | .semsig .. | .semwaitGe .. | .semwaitEq .. | .semwaitNe .. | .semrd .. => .engine .S
  | .rbind .. | .runbind .. | .acq .. | .rel .. | .fence .. | .barrive .. | .bwait .. | .cbar .. | .srr .. => .engine .S
  | .srw .. | .safept .. | .sEnd .. | .brk .. | .trapu .. | .uiret .. => .engine .S
  | .vnop .. | .vadd .. | .vsub .. | .vmul .. | .vfma .. | .vmin .. | .vmax .. | .vabs .. | .vneg .. => .engine .V
  | .vand .. | .vor .. | .vxor .. | .vshiftL .. | .vshiftR .. | .vshiftA .. | .vsel .. | .vwmul .. => .engine .V
  | .vwadd .. | .vmov .. | .vcmpEq .. | .vcmpLt .. | .vcmpLe .. | .vcmpNe .. | .pand .. | .por .. | .pxor .. => .engine .V
  | .pandn .. | .pnot .. | .pmov .. | .pwhile .. | .pcnt .. | .vexp2 .. | .vlog2 .. | .vrecip .. => .engine .V
  | .vrsqrt .. | .vcvt .. | .vcvtAmax .. | .vcast .. | .vsplat .. | .vext .. | .vins .. | .viota .. => .engine .V
  | .vredSum .. | .vredMax .. | .vredMin .. | .vredAmax .. | .vscanSum .. | .vscanMax .. | .vperm .. => .engine .V
  | .vslideUp .. | .vslideDn .. | .vzip .. | .vunzip .. | .vrev .. | .vchain .. | .vld .. | .vldS .. => .engine .V
  | .vldX .. | .vst .. | .vstS .. | .vstX .. | .vspld .. | .vspst .. | .tld .. | .tst .. | .tcfg .. => .engine .V
  | .tzero .. | .trowW .. | .trowR .. | .tcolW .. | .tcolR .. | .vbrAny .. | .vbrAll .. | .vbrNone .. => .engine .V
  | .vjmp .. | .vloop .. | .vend .. => .engine .V
  | .mnop .. | .mlease .. | .munlease .. | .mwload .. | .mwloadm .. | .mpswap .. | .mregion .. | .mstream .. => .engine .M
  | .mbind .. | .mrelease .. | .mreleaseOne .. | .mdrain .. | .mdrainFree .. | .mswap .. | .mevrd .. => .engine .M
  | .mevclr .. | .mrank .. | .mtopkLo .. | .mtopkHi .. | .mdist .. | .mcntRd .. | .mcntClr .. | .mcplx .. => .engine .M
  | .msave .. | .mrestore .. | .mloop .. | .mend .. => .engine .M
  | .cnop .. | .cpy .. | .cpy2d .. | .cpyCvt .. | .cpyin .. | .cpyout .. | .cpyaccRd .. | .cpyaccWr .. => .engine .C
  | .cfill .. | .cfillCw .. | .cgath .. | .cscat .. | .cnullZero .. | .cnullId .. | .cnullConst .. => .engine .C
  | .crcp .. | .carm .. | .cdisarm .. | .cfence .. | .cwaitAll .. | .cwaitLe .. | .cloop .. | .cend .. => .engine .C
  | .nop .. | .launch .. | .launchm .. | .copyP .. | .semsigP .. | .semwaitP .. | .qfence .. | .jumpP .. => .packet
  | .callP .. | .returnP | .irq .. | .frameBegin .. | .frameEnd | .releaseAt .. | .itin .. | .gather .. => .packet
  | .preempt .. | .setpri .. | .otinv .. => .packet
  | .move .. | .mcast .. | .hint .. | .waitw .. | .mark .. | .repeatE .. | .gust .. | .batch .. | .itinEnd => .entry
  | .doorbell .. | .qctlSkip .. | .qctlRetry .. | .qctlRun .. | .qctlReset .. | .cpEvict .. | .cpResume .. => .bare
  | .tecStop .. | .clrLull .. | .rqcStop .. | .restore .. | .rstCtlReset | .pwrReqOn | .pwrReqStandby => .bare
  | .pwrReqOff | .fpPush .. | .registerWrite .. | .powerOn | .perst | .bootPhase .. | .frameTick => .bare
  | .deadlineClose .. | .overrun .. | .frameRelease .. | .releaseTick .. | .gustRelease .. | .powerWindow .. => .bare
  | .idleEnter | .counterCommit | .tokenDeadlock .. | .arrayGrant .. | .watchdogRun .. | .watchdogStall .. => .bare
  | .watchdogQueue .. | .preemptOverdue .. | .crewDispatch .. | .sweepDone .. | .safePointSave .. => .bare
  | .crewRestore .. | .writeOut .. | .lineFill .. | .copyComplete .. | .landingDone .. | .uiDelivery .. => .bare
  | .faultEntry .. | .frameReturn .. | .launchComplete .. | .shardFlit .. | .ackFlit .. | .failureFlit .. => .bare
  | .removalFlit .. | .endOfStream .. | .acktoSource .. | .acktoMember .. | .completionTimeout .. => .bare
  | .cxlCompletion .. | .hostReadTimeout .. | .flitReplay .. | .ovlanLinkDown .. | .boundaryDown .. => .bare
  | .thermalFreeze .. | .thermalResume .. | .mcWrite .. | .mcRead .. | .entryDrain .. | .drainAge .. => .bare
  | .promoteC2 .. | .scrubRead .. | .readCounter .. | .getCert .. | .attest .. | .getLog .. | .debugRead .. => .bare
  | .rawRead .. | .debugWrite .. | .fwStage .. | .fwCommit .. | .setEndpointId .. | .unknownCommand .. => .bare
  | .linkRetrained .. | .powerLoss | .hostWindowAccess .. | .accessPerformed .. | .matrixFinish .. => .bare
  | .moveComplete .. | .scrubWriteback .. => .bare

/-- The words of an instruction: an engine instruction or prefix, a packet, or an entry. Steps that no word names
(host writes and events) have none. -/
def encode : Instr → List Word
  | .arith rm sat ftz t pred pneg pen fmt => [fld 26 0x20#6 ||| fld 23 rm ||| fld 22 (bit1 sat) |||
      fld 20 ftz ||| fld 19 (bit1 t) ||| fld 14 pred ||| fld 13 (bit1 pneg) ||| fld 12 (bit1 pen) ||| fld 8 fmt]
  | .label l => [fld 26 0x21#6 ||| fld 16 l]
  | .immx u => [fld 26 0x22#6 ||| fld 0 u]
  | .snop tk => [engWord false tk 0#6 0#32]
  | .add tk xd xa xb => encSR tk 0x01#6 xd xa xb 0#5
  | .sub tk xd xa xb => encSR tk 0x01#6 xd xa xb 1#5
  | .andR tk xd xa xb => encSR tk 0x01#6 xd xa xb 2#5
  | .orR tk xd xa xb => encSR tk 0x01#6 xd xa xb 3#5
  | .xorR tk xd xa xb => encSR tk 0x01#6 xd xa xb 4#5
  | .sll tk xd xa xb => encSR tk 0x01#6 xd xa xb 5#5
  | .srl tk xd xa xb => encSR tk 0x01#6 xd xa xb 6#5
  | .sra tk xd xa xb => encSR tk 0x01#6 xd xa xb 7#5
  | .slt tk xd xa xb => encSR tk 0x01#6 xd xa xb 8#5
  | .sltu tk xd xa xb => encSR tk 0x01#6 xd xa xb 9#5
  | .minR tk xd xa xb => encSR tk 0x01#6 xd xa xb 10#5
  | .maxR tk xd xa xb => encSR tk 0x01#6 xd xa xb 11#5
  | .minu tk xd xa xb => encSR tk 0x01#6 xd xa xb 12#5
  | .maxu tk xd xa xb => encSR tk 0x01#6 xd xa xb 13#5
  | .mul tk xd xa xb => encSR tk 0x02#6 xd xa xb 0#5
  | .mulh tk xd xa xb => encSR tk 0x02#6 xd xa xb 1#5
  | .mulhu tk xd xa xb => encSR tk 0x02#6 xd xa xb 2#5
  | .mulhsu tk xd xa xb => encSR tk 0x02#6 xd xa xb 3#5
  | .div tk xd xa xb => encSR tk 0x02#6 xd xa xb 4#5
  | .divu tk xd xa xb => encSR tk 0x02#6 xd xa xb 5#5
  | .rem tk xd xa xb => encSR tk 0x02#6 xd xa xb 6#5
  | .remu tk xd xa xb => encSR tk 0x02#6 xd xa xb 7#5
  | .addi tk xd xa imm => encSI tk 0x03#6 xd xa imm
  | .andi tk xd xa imm => encSI tk 0x04#6 xd xa imm
  | .ori tk xd xa imm => encSI tk 0x05#6 xd xa imm
  | .xori tk xd xa imm => encSI tk 0x06#6 xd xa imm
  | .slli tk xd xa n => [engWord false tk 0x07#6 (fld 15 xd ||| fld 10 xa ||| fld 0 n)]
  | .srli tk xd xa n => [engWord false tk 0x07#6 (fld 15 xd ||| fld 10 xa ||| fld 6 1#4 ||| fld 0 n)]
  | .srai tk xd xa n => [engWord false tk 0x07#6 (fld 15 xd ||| fld 10 xa ||| fld 6 2#4 ||| fld 0 n)]
  | .slti tk xd xa imm => encSI tk 0x08#6 xd xa imm
  | .sltiu tk xd xa imm => encSI tk 0x09#6 xd xa imm
  | .lui tk xd imm => [engWord false tk 0x0A#6 (fld 15 xd ||| fld 0 imm)]
  | .cinspBase tk xd ca => encSC tk xd ca 0#3
  | .cinspLen tk xd ca => encSC tk xd ca 1#3
  | .cinspRights tk xd ca => encSC tk xd ca 2#3
  | .cinspObj tk xd ca => encSC tk xd ca 3#3
  | .cinspGen tk xd ca => encSC tk xd ca 4#3
  | .pgcommit tk xd cn xo => encSM tk 0x0C#6 xd cn xo 0#6
  | .pgfree tk xd cn xo => encSM tk 0x0D#6 xd cn xo 0#6
  | .pgquery tk xd cn xo => encSM tk 0x0E#6 xd cn xo 0#6
  | .cwin tk cd ca xa xb => encSK tk cd ca xa xb 0#2
  | .crt tk cd ca xa => encSK tk cd ca xa 0#5 1#2
  | .cmov tk cd ca => encSK tk cd ca 0#5 0#5 2#2
  | .ldb tk xd cn xo imm => encSM tk 0x10#6 xd cn xo imm
  | .ldbu tk xd cn xo imm => encSM tk 0x11#6 xd cn xo imm
  | .ldh tk xd cn xo imm => encSM tk 0x12#6 xd cn xo imm
  | .ldhu tk xd cn xo imm => encSM tk 0x13#6 xd cn xo imm
  | .ldw tk xd cn xo imm => encSM tk 0x14#6 xd cn xo imm
  | .ldwu tk xd cn xo imm => encSM tk 0x15#6 xd cn xo imm
  | .ldd tk xd cn xo imm => encSM tk 0x16#6 xd cn xo imm
  | .stb tk xs cn xo imm => encSM tk 0x18#6 xs cn xo imm
  | .sth tk xs cn xo imm => encSM tk 0x19#6 xs cn xo imm
  | .stw tk xs cn xo imm => encSM tk 0x1A#6 xs cn xo imm
  | .std tk xs cn xo imm => encSM tk 0x1B#6 xs cn xo imm
  | .spld tk xd xa sz sgn imm => encSP tk 0x1C#6 xd xa sz sgn imm
  | .spst tk xs xa sz imm => encSP tk 0x1D#6 xs xa sz false imm
  | .rspld tk xd xa sz sgn imm => encSP tk 0x1E#6 xd xa sz sgn imm
  | .rspst tk xs xa sz imm => encSP tk 0x1F#6 xs xa sz false imm
  | .amoadd tk xd cn xa xb w => encSA tk 0x20#6 xd cn xa xb w
  | .amomin tk xd cn xa xb w => encSA tk 0x21#6 xd cn xa xb w
  | .amomax tk xd cn xa xb w => encSA tk 0x22#6 xd cn xa xb w
  | .amoand tk xd cn xa xb w => encSA tk 0x23#6 xd cn xa xb w
  | .amoor tk xd cn xa xb w => encSA tk 0x24#6 xd cn xa xb w
  | .amoxor tk xd cn xa xb w => encSA tk 0x25#6 xd cn xa xb w
  | .amoswap tk xd cn xa xb w => encSA tk 0x26#6 xd cn xa xb w
  | .amocas tk xd cn xa xb w => encSA tk 0x27#6 xd cn xa xb w
  | .spamoAdd tk xd xa xb w cw => encSQ tk xd xa xb 0#3 w cw
  | .spamoMin tk xd xa xb w cw => encSQ tk xd xa xb 1#3 w cw
  | .spamoMax tk xd xa xb w cw => encSQ tk xd xa xb 2#3 w cw
  | .spamoAnd tk xd xa xb w cw => encSQ tk xd xa xb 3#3 w cw
  | .spamoOr tk xd xa xb w cw => encSQ tk xd xa xb 4#3 w cw
  | .spamoXor tk xd xa xb w cw => encSQ tk xd xa xb 5#3 w cw
  | .spamoSwap tk xd xa xb w cw => encSQ tk xd xa xb 6#3 w cw
  | .spamoCas tk xd xa xb w cw => encSQ tk xd xa xb 7#3 w cw
  | .beq tk xa xb off => encSB tk 0x2A#6 xa xb off
  | .bne tk xa xb off => encSB tk 0x2B#6 xa xb off
  | .blt tk xa xb off => encSB tk 0x2C#6 xa xb off
  | .bge tk xa xb off => encSB tk 0x2D#6 xa xb off
  | .bltu tk xa xb off => encSB tk 0x2E#6 xa xb off
  | .bgeu tk xa xb off => encSB tk 0x2F#6 xa xb off
  | .jmp tk off => [engWord false tk 0x30#6 (fld 0 off)]
  | .call tk off => [engWord false tk 0x31#6 (fld 0 off)]
  | .jr tk xa => encSR tk 0x32#6 0#5 xa 0#5 0#5
  | .callr tk xa => encSR tk 0x33#6 0#5 xa 0#5 0#5
  | .tkpop m => [engWord false 0#4 0x34#6 (fld 0 m)]
  | .tkpush m => [engWord false 0#4 0x35#6 (fld 0 m)]
  | .tkwait q n => [engWord false 0#4 0x36#6 (fld 16 q ||| fld 12 n)]
  | .semsig tk xd xa xb => encSR tk 0x38#6 xd xa xb 0#5
  | .semwaitGe tk xd xa xb => encSR tk 0x38#6 xd xa xb 1#5
  | .semwaitEq tk xd xa xb => encSR tk 0x38#6 xd xa xb 2#5
  | .semwaitNe tk xd xa xb => encSR tk 0x38#6 xd xa xb 3#5
  | .semrd tk xd xa => encSR tk 0x38#6 xd xa 0#5 4#5
  | .rbind tk cn xa xb xs => encSG tk cn xa xb xs 0#1
  | .runbind tk cn xa xb xs => encSG tk cn xa xb xs 1#1
  | .acq tk xa s => encSF tk 0#5 xa s 0#2
  | .rel tk xd xa s => encSF tk xd xa s 1#2
  | .fence tk xd s => encSF tk xd 0#5 s 2#2
  | .barrive tk g => [engWord false tk 0x3B#6 (fld 12 g)]
  | .bwait tk g => [engWord false tk 0x3B#6 (fld 12 g ||| fld 10 1#2)]
  | .cbar tk => [engWord false tk 0x3B#6 (fld 10 2#2)]
  | .srr tk xd n => [engWord false tk 0x3C#6 (fld 15 xd ||| fld 0 n)]
  | .srw tk xs n => [engWord false tk 0x3D#6 (fld 15 xs ||| fld 0 n)]
  | .safept tk lm => [engWord false tk 0x3E#6 (fld 8 lm)]
  | .sEnd tk => [engWord false tk 0x3F#6 0#32]
  | .brk tk c => [engWord false tk 0x3F#6 (fld 16 1#4 ||| fld 0 c)]
  | .trapu tk c => [engWord false tk 0x3F#6 (fld 16 2#4 ||| fld 0 c)]
  | .uiret tk => [engWord false tk 0x3F#6 (fld 16 3#4)]
  | .vnop tk => [engWord false tk 0#6 0#32]
  | .vadd tk vd va vb b => encVR tk 0x01#6 vd va vb b
  | .vsub tk vd va vb b => encVR tk 0x02#6 vd va vb b
  | .vmul tk vd va vb b => encVR tk 0x03#6 vd va vb b
  | .vfma tk vd va vb b vc => [engWord true tk 0x04#6 (fld 14 vd ||| fld 8 va ||| fld 2 vb ||| fld 0 b), fld 26 vc]
  | .vmin tk vd va vb b => encVR tk 0x05#6 vd va vb b
  | .vmax tk vd va vb b => encVR tk 0x06#6 vd va vb b
  | .vabs tk vd va y => encV1 tk 0x07#6 vd va y 0#2
  | .vneg tk vd va y => encV1 tk 0x07#6 vd va y 1#2
  | .vand tk vd va vb b => encVR tk 0x08#6 vd va vb b
  | .vor tk vd va vb b => encVR tk 0x09#6 vd va vb b
  | .vxor tk vd va vb b => encVR tk 0x0A#6 vd va vb b
  | .vshiftL tk vd va vb => encVR tk 0x0B#6 vd va vb 0#2
  | .vshiftR tk vd va vb => encVR tk 0x0B#6 vd va vb 1#2
  | .vshiftA tk vd va vb => encVR tk 0x0B#6 vd va vb 2#2
  | .vsel tk vd va vb p => [engWord true tk 0x0C#6 (fld 14 vd ||| fld 8 va ||| fld 2 vb), fld 27 p]
  | .vwmul tk vd va vb => encVR tk 0x0D#6 vd va vb 0#2
  | .vwadd tk vd va vb => encVR tk 0x0E#6 vd va vb 0#2
  | .vmov tk vd va y => encV1 tk 0x0F#6 vd va y 0#2
  | .vcmpEq tk pd va vb => [engWord false tk 0x10#6 (fld 14 pd ||| fld 8 va ||| fld 2 vb)]
  | .vcmpLt tk pd va vb => [engWord false tk 0x10#6 (fld 14 pd ||| fld 8 va ||| fld 2 vb ||| fld 0 1#2)]
  | .vcmpLe tk pd va vb => [engWord false tk 0x10#6 (fld 14 pd ||| fld 8 va ||| fld 2 vb ||| fld 0 2#2)]
  | .vcmpNe tk pd va vb => [engWord false tk 0x10#6 (fld 14 pd ||| fld 8 va ||| fld 2 vb ||| fld 0 3#2)]
  | .pand tk pd pa pb => encVQ tk pd pa pb 0#3
  | .por tk pd pa pb => encVQ tk pd pa pb 1#3
  | .pxor tk pd pa pb => encVQ tk pd pa pb 2#3
  | .pandn tk pd pa pb => encVQ tk pd pa pb 3#3
  | .pnot tk pd pa => encVQ tk pd pa 0#5 4#3
  | .pmov tk pd pa => encVQ tk pd pa 0#5 5#3
  | .pwhile tk pd xa l => [engWord false tk 0x12#6 (fld 15 pd ||| fld 10 xa ||| fld 0 l)]
  | .pcnt tk pa xd l => [engWord false tk 0x13#6 (fld 15 pa ||| fld 10 xd ||| fld 0 l)]
  | .vexp2 tk vd va y => encV1 tk 0x14#6 vd va y 0#2
  | .vlog2 tk vd va y => encV1 tk 0x15#6 vd va y 0#2
  | .vrecip tk vd va y => encV1 tk 0x16#6 vd va y 0#2
  | .vrsqrt tk vd va y => encV1 tk 0x17#6 vd va y 0#2
  | .vcvt tk vd va g => [engWord false tk 0x18#6 (fld 14 vd ||| fld 8 va ||| fld 4 g)]
  | .vcvtAmax tk vd va g n => [engWord false tk 0x19#6 (fld 14 vd ||| fld 8 va ||| fld 4 g ||| fld 0 n)]
  | .vcast tk vd va g => [engWord false tk 0x1A#6 (fld 14 vd ||| fld 8 va ||| fld 4 g)]
  | .vsplat tk vd xa g => encVX tk 0x1B#6 vd xa 0#5 g
  | .vext tk va xd xb => encVX tk 0x1C#6 va xd xb 0#4
  | .vins tk vd xa xb g => encVX tk 0x1D#6 vd xa xb g
  | .viota tk vd xa xb g => encVX tk 0x1E#6 vd xa xb g
  | .vredSum tk vd va y => encV1 tk 0x20#6 vd va y 0#2
  | .vredMax tk vd va y => encV1 tk 0x20#6 vd va y 1#2
  | .vredMin tk vd va y => encV1 tk 0x20#6 vd va y 2#2
  | .vredAmax tk vd va y => encV1 tk 0x20#6 vd va y 3#2
  | .vscanSum tk vd va y => encV1 tk 0x21#6 vd va y 0#2
  | .vscanMax tk vd va y => encV1 tk 0x21#6 vd va y 1#2
  | .vperm tk vd va vb => encVR tk 0x28#6 vd va vb 0#2
  | .vslideUp tk vd va vb => encVR tk 0x29#6 vd va vb 0#2
  | .vslideDn tk vd va vb => encVR tk 0x29#6 vd va vb 1#2
  | .vzip tk vd va vb => encVR tk 0x2A#6 vd va vb 0#2
  | .vunzip tk vd va vb => encVR tk 0x2A#6 vd va vb 1#2
  | .vrev tk vd va y => encV1 tk 0x2B#6 vd va y 0#2
  | .vchain tk xa xb => [engWord false tk 0x2C#6 (fld 15 xa ||| fld 10 xb)]
  | .vld tk vd cn xo e i g => encVM tk 0x30#6 vd cn xo 0#3 e i g 0#6 0#5
  | .vldS tk vd cn xo e i g xs => encVM tk 0x30#6 vd cn xo 1#3 e i g 0#6 xs
  | .vldX tk vd cn xo e i g vi => encVM tk 0x30#6 vd cn xo 2#3 e i g vi 0#5
  | .vst tk vs cn xo e i => encVM tk 0x31#6 vs cn xo 0#3 e i 0#4 0#6 0#5
  | .vstS tk vs cn xo e i xs => encVM tk 0x31#6 vs cn xo 1#3 e i 0#4 0#6 xs
  | .vstX tk vs cn xo e i vi => encVM tk 0x31#6 vs cn xo 2#3 e i 0#4 vi 0#5
  | .vspld tk vd xa g i => [engWord false tk 0x32#6 (fld 14 vd ||| fld 9 xa ||| fld 5 g ||| fld 0 i)]
  | .vspst tk vs xa i => [engWord false tk 0x33#6 (fld 14 vs ||| fld 9 xa ||| fld 0 i)]
  | .tld tk t cn xo xs sp i => encVL tk 0x34#6 t cn xo xs sp i
  | .tst tk t cn xo xs sp i => encVL tk 0x35#6 t cn xo xs sp i
  | .tcfg tk t r c g => [engWord false tk 0x38#6 (fld 17 t ||| fld 11 r ||| fld 5 c ||| fld 1 g)]
  | .tzero tk t => [engWord false tk 0x39#6 (fld 17 t)]
  | .trowW tk v t i => encVT tk 0x3A#6 v t i 0#2
  | .trowR tk v t i => encVT tk 0x3A#6 v t i 1#2
  | .tcolW tk v t i => encVT tk 0x3B#6 v t i 0#2
  | .tcolR tk v t i => encVT tk 0x3B#6 v t i 1#2
  | .vbrAny tk p o => [engWord false tk 0x3C#6 (fld 15 p ||| fld 0 o)]
  | .vbrAll tk p o => [engWord false tk 0x3C#6 (fld 15 p ||| fld 13 1#2 ||| fld 0 o)]
  | .vbrNone tk p o => [engWord false tk 0x3C#6 (fld 15 p ||| fld 13 2#2 ||| fld 0 o)]
  | .vjmp tk o => [engWord false tk 0x3D#6 (fld 0 o)]
  | .vloop tk o => [engWord false tk 0x3E#6 (fld 0 o)]
  | .vend tk => [engWord false tk 0x3F#6 0#32]
  | .mnop tk => [engWord false tk 0#6 0#32]
  | .mlease tk n => [engWord false tk 0x01#6 (fld 11 n)]
  | .munlease tk => [engWord false tk 0x02#6 0#32]
  | .mwload tk cn xa p => encMA tk 0x04#6 cn xa 0#5 0#5 p
  | .mwloadm tk f xa p => encMA tk 0x05#6 f xa 0#5 0#5 p
  | .mpswap tk => [engWord false tk 0x06#6 0#32]
  | .mregion tk rg xa xb tp sl sp => encMB tk 0x08#6 rg xa xb 0#5 tp (fld 28 7#4 ||| fld 3 sp ||| fld 0 sl)
  | .mstream tk rg xa m a r p w => encMB tk 0x09#6 rg xa 0#5 0#5 m (fld 28 a ||| fld 8 w ||| fld 7 (bit1 p) |||
      fld 0 r)
  | .mbind tk rg xa xb => encMA tk 0x0A#6 rg xa xb 0#5 false
  | .mrelease tk rg => encMA tk 0x0B#6 rg 0#5 0#5 0#5 false
  | .mreleaseOne tk rg xa => encMA tk 0x0B#6 rg xa 0#5 0#5 true
  | .mdrain tk rg xa xb => encMA tk 0x0C#6 rg xa xb 0#5 false
  | .mdrainFree tk rg xa xb => encMA tk 0x0C#6 rg xa xb 0#5 true
  | .mswap tk rg xa => encMA tk 0x0D#6 rg xa 0#5 0#5 false
  | .mevrd tk xd rg k e => encME tk 0x0E#6 xd rg 0#2 (fld 6 k ||| fld 0 e)
  | .mevclr tk rg k e => encME tk 0x0F#6 0#5 rg 0#2 (fld 6 k ||| fld 0 e)
  | .mrank tk xa xb xc g t e k o => encMB tk 0x10#6 0#4 xa xb xc false (fld 28 g ||| fld 18 o ||| fld 14 k |||
      fld 7 e ||| fld 0 t)
  | .mtopkLo tk rg xa xb xc => encMA tk 0x11#6 rg xa xb xc false
  | .mtopkHi tk rg xa xb xc => encMA tk 0x11#6 rg xa xb xc true
  | .mdist tk rg xa xb p => encMA tk 0x12#6 rg xa xb 0#5 p
  | .mcntRd tk xd s => encME tk 0x13#6 xd 0#4 0#2 (fld 0 s)
  | .mcntClr tk s => encME tk 0x13#6 0#5 0#4 1#2 (fld 0 s)
  | .mcplx tk rg xa r p => encMB tk 0x18#6 rg xa 0#5 0#5 false (fld 28 8#4 ||| fld 7 (bit1 p) ||| fld 0 r)
  | .msave tk cn xa => encMA tk 0x38#6 cn xa 0#5 0#5 false
  | .mrestore tk cn xa => encMA tk 0x39#6 cn xa 0#5 0#5 false
  | .mloop o => [engWord false 0#4 0x3E#6 (fld 0 o)]
  | .mend tk => [engWord false tk 0x3F#6 0#32]
  | .cnop tk => [engWord false tk 0#6 0#32]
  | .cpy tk cd cs xa xb ui xc => encCA tk 0x01#6 cd cs xa xb ui xc 0#5 0#4 0#32
  | .cpy2d tk cd cs xa xb ui xc xs r d s => encCA tk 0x02#6 cd cs xa xb ui xc xs 0#4 (fld 17 (bit1 s) |||
      fld 16 (bit1 d) ||| fld 0 r)
  | .cpyCvt tk cd cs xa xb ui xc dt st d s => encCA tk 0x03#6 cd cs xa xb ui xc 0#5 dt (fld 17 (bit1 s) |||
      fld 16 (bit1 d) ||| fld 0 st)
  | .cpyin tk cs xa xb ui xc => encCA tk 0x04#6 0#4 cs xa xb ui xc 0#5 0#4 0#32
  | .cpyout tk cd xa xb ui xc => encCA tk 0x05#6 cd 0#4 xa xb ui xc 0#5 0#4 0#32
  | .cpyaccRd tk xa xb xc ui => encCB tk 0x06#6 xa xb xc 0#4 ui
  | .cpyaccWr tk xa xb xc ui => encCB tk 0x06#6 xa xb xc 1#4 ui
  | .cfill tk xa xb xc ui => encCB tk 0x07#6 xa xb xc 0#4 ui
  | .cfillCw tk xa xb xc ui => encCB tk 0x07#6 xa xb xc 1#4 ui
  | .cgath tk cs xa xb ui xc xs dt e => encCA tk 0x08#6 0#4 cs xa xb ui xc xs dt (fld 0 e)
  | .cscat tk cd xa xb ui xc xs dt e => encCA tk 0x09#6 cd 0#4 xa xb ui xc xs dt (fld 0 e)
  | .cnullZero tk xa xb ui => encCB tk 0x0A#6 xa xb 0#5 0#4 ui
  | .cnullId tk xa xb xc ui => encCB tk 0x0A#6 xa xb xc 1#4 ui
  | .cnullConst tk xa xb xc ui => encCB tk 0x0A#6 xa xb xc 2#4 ui
  | .crcp tk xa xb xc nq ui => encCB tk 0x0C#6 xa xb xc nq ui
  | .carm tk xa xb xc cn => encCB tk 0x10#6 xa xb xc cn false
  | .cdisarm tk xa => encCB tk 0x11#6 xa 0#5 0#5 0#4 false
  | .cfence tk s => encCB tk 0x14#6 0#5 0#5 0#5 s false
  | .cwaitAll tk => encCB tk 0x15#6 0#5 0#5 0#5 0#4 false
  | .cwaitLe tk xa => encCB tk 0x15#6 xa 0#5 0#5 1#4 false
  | .cloop o => [engWord false 0#4 0x3E#6 (fld 0 o)]
  | .cend tk => [engWord false tk 0x3F#6 0#32]
  | .nop len => pktHead 0x00#8 len 0#32 :: List.replicate (len.toNat - 1) 0#32
  | .launch a => encLaunch 0x01#8 16#8 a
  | .launchm a m => encLaunch 0x02#8 20#8 a ++ words4 m
  | .copyP s d l => [pktHead 0x03#8 10#8 0#32] ++ words4 s ++ words4 d ++ [l]
  | .semsigP s a => [pktHead 0x04#8 4#8 (fld 0 s)] ++ words2 a ++ [0#32]
  | .semwaitP c s v => [pktHead 0x05#8 4#8 (fld 12 c ||| fld 0 s)] ++ words2 v ++ [0#32]
  | .qfence m i => [pktHead 0x06#8 2#8 (fld 0 m), fld 0 i]
  | .jumpP o g s => [pktHead 0x07#8 3#8 0#32, fld 0 o, fld 16 g ||| fld 0 s]
  | .callP o g s => [pktHead 0x08#8 3#8 0#32, fld 0 o, fld 16 g ||| fld 0 s]
  | .returnP => [pktHead 0x09#8 1#8 0#32]
  | .irq v c => [pktHead 0x0A#8 2#8 (fld 0 v), c]
  | .frameBegin t e s => [pktHead 0x0B#8 4#8 0#32] ++ words2 t ++ [fld 12 (bit1 e) ||| fld 0 s]
  | .frameEnd => [pktHead 0x0C#8 1#8 0#32]
  | .releaseAt t => [pktHead 0x0D#8 3#8 0#32] ++ words2 t
  | .itin c o g f => [pktHead 0x0E#8 4#8 (fld 0 c), fld 0 o, fld 16 g, f]
  | .gather r o g b d s => [pktHead 0x0F#8 6#8 (fld 0 r), fld 0 o, fld 16 g, fld 0 b, d, fld 0 s]
  | .preempt q a h p => [pktHead 0x10#8 2#8 (fld 5 (bit1 h) ||| fld 4 (bit1 a) ||| fld 0 q), p]
  | .setpri q c => [pktHead 0x11#8 2#8 (fld 0 q), fld 0 c]
  | .otinv s a o => [pktHead 0x12#8 4#8 (fld 9 (bit1 a) ||| fld 0 s), fld 0 o, 0#32, 0#32]
  | .move a => encMove a
  | .mcast m s g e k => [0x02000000#32, fld 0 m, fld 8 g ||| fld 0 s, e, fld 0 k, 0#32, 0#32, 0#32]
  | .hint t o g l f a => [fld 24 0x03#8 ||| fld 0 t, fld 0 o, fld 16 l ||| fld 0 g, bits f 0 32, fld 8 a |||
      fld 0 (bits f 32 8), 0#32, 0#32, 0#32]
  | .waitw w n => [fld 24 0x04#8 ||| fld 20 w, fld 0 n, 0#32, 0#32, 0#32, 0#32, 0#32, 0#32]
  | .mark s fe fs a => [0x05000000#32, fld 16 fs ||| fld 12 (bit1 fe) ||| fld 0 s, a, 0#32, 0#32, 0#32, 0#32, 0#32]
  | .repeatE t l s d c p r => [0x06000000#32, fld 16 c ||| fld 15 (bit1 d) ||| fld 14 (bit1 s) ||| fld 12 l |||
      fld 0 t, fld 16 r ||| fld 0 p, 0#32, 0#32, 0#32, 0#32, 0#32]
  | .gust n t => [0x07000000#32, fld 0 n, t, 0#32, 0#32, 0#32, 0#32, 0#32]
  | .batch r b s e t => [0x08000000#32, fld 4 (bit1 b) ||| fld 0 r, fld 12 (bit1 e) ||| fld 0 s, t, 0#32, 0#32,
      0#32, 0#32]
  | .itinEnd => [0x0F000000#32, 0#32, 0#32, 0#32, 0#32, 0#32, 0#32, 0#32]
  | .doorbell .. | .qctlSkip .. | .qctlRetry .. | .qctlRun .. | .qctlReset .. | .cpEvict .. | .cpResume .. => []
  | .tecStop .. | .clrLull .. | .rqcStop .. | .restore .. | .rstCtlReset | .pwrReqOn | .pwrReqStandby | .pwrReqOff => []
  | .fpPush .. | .registerWrite .. | .powerOn | .perst | .bootPhase .. | .frameTick | .deadlineClose .. => []
  | .overrun .. | .frameRelease .. | .releaseTick .. | .gustRelease .. | .powerWindow .. | .idleEnter => []
  | .counterCommit | .tokenDeadlock .. | .arrayGrant .. | .watchdogRun .. | .watchdogStall .. | .watchdogQueue .. => []
  | .preemptOverdue .. | .crewDispatch .. | .sweepDone .. | .safePointSave .. | .crewRestore .. | .writeOut .. => []
  | .lineFill .. | .copyComplete .. | .landingDone .. | .uiDelivery .. | .faultEntry .. | .frameReturn .. => []
  | .launchComplete .. | .shardFlit .. | .ackFlit .. | .failureFlit .. | .removalFlit .. | .endOfStream .. => []
  | .acktoSource .. | .acktoMember .. | .completionTimeout .. | .cxlCompletion .. | .hostReadTimeout .. => []
  | .flitReplay .. | .ovlanLinkDown .. | .boundaryDown .. | .thermalFreeze .. | .thermalResume .. | .mcWrite .. => []
  | .mcRead .. | .entryDrain .. | .drainAge .. | .promoteC2 .. | .scrubRead .. | .readCounter .. | .getCert .. => []
  | .attest .. | .getLog .. | .debugRead .. | .rawRead .. | .debugWrite .. | .fwStage .. | .fwCommit .. => []
  | .setEndpointId .. | .unknownCommand .. | .linkRetrained .. | .powerLoss | .hostWindowAccess .. => []
  | .accessPerformed .. | .matrixFinish .. | .moveComplete .. | .scrubWriteback .. => []

end Sys2Proof
end

