-- ==== Sys2Proof/Machine/Formats.lean ====
section
/-! DEFINITION. Number formats and rounding (R145 to R167, R46): exact values, the one rounding procedure, saturation,
flushing, conversions, and the seeds of R120. -/
namespace Sys2Proof.Machine
open Sys2Proof

/-! ## Exact values -/

/-- An exact value (R46): a NaN, an infinity, or (-1)^neg × a × 2^e; a zero keeps its sign. -/
inductive Ex where
  | nan
  | inf (neg : Bool)
  | fin (neg : Bool) (a : Nat) (e : Int)
deriving DecidableEq, Repr

/-- The number of bits of a natural number. -/
def bitLen (a : Nat) : Nat := if a = 0 then 0 else a.log2 + 1

/-- Two magnitudes over their common exponent. -/
def common (a : Nat) (e : Int) (b : Nat) (f : Int) : Nat × Nat × Int :=
  let g := min e f
  (a <<< (e - g).toNat, b <<< (f - g).toNat, g)

/-- Whether a × 2^e is less than b × 2^f. -/
def magLt (a : Nat) (e : Int) (b : Nat) (f : Int) : Bool :=
  let c := common a e b f
  decide (c.1 < c.2.1)

/-- The value of an integer. -/
def exInt (n : Int) : Ex := .fin (decide (n < 0)) n.natAbs 0

/-- The signed mantissa of a finite value. -/
def sgn (neg : Bool) (a : Nat) : Int := if neg then -(a : Int) else a

/-- Negation. -/
def exNeg : Ex → Ex
  | .nan => .nan
  | .inf n => .inf !n
  | .fin n a e => .fin (!n) a e

/-- Magnitude. -/
def exAbs : Ex → Ex
  | .nan => .nan
  | .inf _ => .inf false
  | .fin _ a e => .fin false a e

/-- Whether a value is a NaN. -/
def exIsNan : Ex → Bool
  | .nan => true
  | _ => false

/-- The exact sum; the flag marks ∞ - ∞. The sign of a zero sum is that of R159. -/
def exAdd (rm : RMode) (x y : Ex) : Ex × Bool :=
  match x, y with
  | .nan, _ => (.nan, false)
  | _, .nan => (.nan, false)
  | .inf a, .inf b => if a = b then (.inf a, false) else (.nan, true)
  | .inf a, _ => (.inf a, false)
  | _, .inf b => (.inf b, false)
  | .fin n a e, .fin m b f =>
    let c := common a e b f
    let v := sgn n c.1 + sgn m c.2.1
    if v = 0 then
      (.fin (if a = 0 ∧ b = 0 ∧ n = m then n else decide (rm = .rdn)) 0 0, false)
    else (.fin (decide (v < 0)) v.natAbs c.2.2, false)

/-- The exact product; the flag marks 0 × ∞ (R118, R159). -/
def exMul (x y : Ex) : Ex × Bool :=
  match x, y with
  | .nan, _ => (.nan, false)
  | _, .nan => (.nan, false)
  | .inf a, .inf b => (.inf (a != b), false)
  | .inf a, .fin m b _ => if b = 0 then (.nan, true) else (.inf (a != m), false)
  | .fin n a _, .inf b => if a = 0 then (.nan, true) else (.inf (n != b), false)
  | .fin n a e, .fin m b f => (.fin (n != m) (a * b) (e + f), false)

/-- Order of two values that are not NaN: less, with -0 = +0 (R124). -/
def exLt (x y : Ex) : Bool :=
  match x, y with
  | .inf a, .inf b => a && !b
  | .inf a, _ => a
  | _, .inf b => !b
  | .fin n a e, .fin m b f =>
    let c := common a e b f
    decide (sgn n c.1 < sgn m c.2.1)
  | _, _ => false

/-- Equality of two values that are not NaN. -/
def exEq (x y : Ex) : Bool := !exLt x y && !exLt y x

/-- Order for vmin and vmax: -0 is smaller than +0 (R118). -/
def exLtZ (x y : Ex) : Bool :=
  exLt x y ||
  match x, y with
  | .fin true 0 _, .fin false 0 _ => true
  | _, _ => false

/-! ## Rounding -/

/-- Whether a magnitude cut of `k` low bits is rounded away from zero: `q` kept, `r` cut (R156). -/
def roundsUp (rm : RMode) (neg : Bool) (q r k : Nat) : Bool :=
  match rm with
  | .rne => decide (2 ^ k < 2 * r) || (2 * r == 2 ^ k && q % 2 == 1)
  | .rna => decide (2 ^ k ≤ 2 * r)
  | .rtz => false
  | .rup => !neg && r != 0
  | .rdn => neg && r != 0

/-- A magnitude with its `k` low bits rounded away. -/
def cutBits (rm : RMode) (neg : Bool) (a k : Nat) : Nat :=
  let q := a >>> k
  q + if roundsUp rm neg q (a % 2 ^ k) k then 1 else 0

/-- Rounded to `p` significant bits, the exponent unbounded (R156). -/
def roundSig (rm : RMode) (neg : Bool) (a : Nat) (e : Int) (p : Nat) : Nat × Int :=
  let k := bitLen a - p
  (cutBits rm neg a k, e + k)

/-- Rounded to a multiple of 2^g, as that multiple. -/
def roundTo (rm : RMode) (neg : Bool) (a : Nat) (e g : Int) : Nat :=
  if g ≤ e then a <<< (e - g).toNat else cutBits rm neg a (g - e).toNat

/-- The events of a rounding (R161), in the bits of VEVT: OV, INV, SAT, UNF. -/
abbrev Events := BitVec 4

/-- OV. -/
def evOv : Events := 1#4
/-- INV. -/
def evInv : Events := 2#4
/-- SAT. -/
def evSat : Events := 4#4
/-- UNF. -/
def evUnf : Events := 8#4

/-- A rounded result: its encoding, whether it is marked overflowed, the sign of the exact value, its events. -/
structure Rnd where
  enc : Nat
  ovf : Bool := false
  neg : Bool := false
  ev : Events := 0#4
deriving DecidableEq, Repr

/-- A floating-point format (Table 7.2): its width, p, exponent bias, largest finite value as a significand and an
exponent, and the encodings of +∞'s role, the NaN and the largest finite value (Tables 7.3, 7.7). -/
structure FFmt where
  w : Nat
  p : Nat
  bias : Nat
  maxA : Nat
  maxE : Int
  infEnc : Nat
  nanEnc : Nat
  maxEnc : Nat
deriving DecidableEq, Repr

/-- f32. -/
def fF32 : FFmt := ⟨32, 24, 127, 0xFFFFFF, 104, 0x7F800000, 0x7FC00000, 0x7F7FFFFF⟩
/-- bf16. -/
def fBf16 : FFmt := ⟨16, 8, 127, 0xFF, 120, 0x7F80, 0x7FC0, 0x7F7F⟩
/-- f16. -/
def fF16 : FFmt := ⟨16, 11, 15, 0x7FF, 5, 0x7C00, 0x7E00, 0x7BFF⟩
/-- e4m3. -/
def fE4m3 : FFmt := ⟨8, 4, 7, 14, 5, 0x7F, 0x7F, 0x7E⟩
/-- e5m2. -/
def fE5m2 : FFmt := ⟨8, 3, 15, 7, 13, 0x7C, 0x7E, 0x7B⟩

/-- The exponent of the smallest normal value. -/
def FFmt.emin (f : FFmt) : Int := 1 - (f.bias : Int)

/-- The exponent of the smallest subnormal value. -/
def FFmt.esub (f : FFmt) : Int := f.emin - ((f.p : Int) - 1)

/-- An encoding with a sign. -/
def FFmt.signed (f : FFmt) (neg : Bool) (enc : Nat) : Nat := if neg then enc + 2 ^ (f.w - 1) else enc

/-- The value of an encoding (R147, R148). -/
def FFmt.decode (f : FFmt) (x : Nat) : Ex :=
  let neg := x / 2 ^ (f.w - 1) % 2 == 1
  let y := x % 2 ^ (f.w - 1)
  if y = f.infEnc ∧ f.infEnc ≠ f.nanEnc then .inf neg
  else if f.maxEnc < y then .nan
  else
    let ef := y / 2 ^ (f.p - 1)
    let t := y % 2 ^ (f.p - 1)
    if ef = 0 then .fin neg t f.esub else .fin neg (t + 2 ^ (f.p - 1)) (f.esub + (ef - 1 : Nat))

/-- The encoding of a finite magnitude that the format holds exactly. -/
def FFmt.encode (f : FFmt) (a : Nat) (e : Int) : Nat :=
  let n := bitLen a
  let x : Int := e + n - 1
  if a = 0 then 0
  else if x < f.emin then (a <<< (e - f.esub).toNat) >>> (f.esub - e).toNat
  else
    let mant := (a <<< (f.p - n)) >>> (n - f.p)
    (x - f.emin + 1).toNat * 2 ^ (f.p - 1) + (mant - 2 ^ (f.p - 1))

/-- The overflow encoding for a mode and a sign (R158). -/
def FFmt.overflow (f : FFmt) (rm : RMode) (neg : Bool) : Nat :=
  let away := match rm with
    | .rne | .rna => true
    | .rtz => false
    | .rup => !neg
    | .rdn => neg
  f.signed neg (if away then f.infEnc else f.maxEnc)

/-- round(fmt, x, rm) of a floating-point format (R156); `flush` where R160 flushes the result. -/
def FFmt.round (f : FFmt) (rm : RMode) (flush : Bool) (x : Ex) : Rnd :=
  match x with
  | .nan => { enc := f.nanEnc }
  | .inf neg => { enc := f.signed neg f.infEnc, ovf := true, neg := neg, ev := evOv }
  | .fin neg a e =>
    if a = 0 then { enc := f.signed neg 0, neg := neg }
    else
      let u := roundSig rm neg a e f.p
      if magLt f.maxA f.maxE u.1 u.2 then { enc := f.overflow rm neg, ovf := true, neg := neg, ev := evOv }
      else if magLt u.1 u.2 1 f.emin then
        let m := roundTo rm neg a e f.esub
        let exact := !magLt a e m f.esub && !magLt m f.esub a e
        if flush then { enc := f.signed neg 0, neg := neg, ev := evUnf }
        else { enc := f.signed neg m, neg := neg, ev := if exact then 0#4 else evUnf }
      else { enc := f.signed neg (f.encode u.1 u.2), neg := neg }

/-- The format of a floating-point tag (Table 7.1). -/
def fltOf (tag : Nat) : Option FFmt :=
  match tag with
  | 7 => some fF32
  | 8 => some fBf16
  | 9 => some fF16
  | 10 => some fE4m3
  | 11 => some fE5m2
  | _ => none

/-- Whether an integer tag is signed, for integer tags (Table 7.1). -/
def intOf (tag : Nat) : Option Bool :=
  match tag with
  | 1 | 3 | 5 | 6 => some true
  | 2 | 4 => some false
  | _ => none

/-- Whether subnormals of a tag are flushed under FTZ (Table 7.8). -/
def flushes (tag : Nat) : Bool := tag == 7 || tag == 8 || tag == 9

/-! ## Integers -/

/-- The value of a `w`-bit encoding. -/
def intVal (signed : Bool) (w x : Nat) : Int := if signed && decide (2 ^ (w - 1) ≤ x) then (x : Int) - 2 ^ w else x

/-- The least and greatest values of an integer format. -/
def intMin (signed : Bool) (w : Nat) : Int := if signed then -(2 ^ (w - 1) : Int) else 0
/-- The greatest value. -/
def intMax (signed : Bool) (w : Nat) : Int := if signed then 2 ^ (w - 1) - 1 else 2 ^ w - 1

/-- An integer modulo 2^w. -/
def wrapInt (w : Nat) (v : Int) : Nat := (v % 2 ^ w).toNat

/-- round() of an exact integer into an integer format: wraps, marked overflowed outside the range (R156). -/
def roundInt (signed : Bool) (w : Nat) (v : Int) : Rnd :=
  let out := decide (v < intMin signed w) || decide (intMax signed w < v)
  { enc := wrapInt w v, ovf := out, neg := decide (v < 0), ev := if out then evOv else 0#4 }

/-- A finite value rounded to an integer under a mode. -/
def toInt (rm : RMode) (neg : Bool) (a : Nat) (e : Int) : Int := sgn neg (roundTo rm neg a e 0)

/-! ## LNS6 and SC8 -/

/-- Table 7.4: L[f] as a significand of 24 bits over 2^23. -/
def lnsL (f : Nat) : Nat :=
  match f with
  | 0 => 0x800000
  | 1 => 0x9837F0
  | 2 => 0xB504F3
  | _ => 0xD744FD

/-- M(k): significand and exponent (R149). -/
def lnsM (k : Int) : Nat × Int := (lnsL (k % 4).toNat, (k - k % 4) / 4 - 23)

/-- The value of an LNS6 container (R149). -/
def lnsVal (x : Nat) : Ex :=
  if 64 ≤ x then .nan
  else if x % 32 = 16 then (if x = 48 then .nan else .fin false 0 0)
  else
    let k := intVal true 5 (x % 32)
    .fin (decide (32 ≤ x)) (lnsM k).1 (lnsM k).2

/-- The greatest k with M(k) at most a magnitude a × 2^e, a not zero. -/
def lnsFloor (a : Nat) (e : Int) : Int :=
  let t : Int := e + bitLen a - 1
  let ge := fun (f : Nat) => !magLt a e (lnsL f) (t - 23)
  4 * t + (if ge 3 then 3 else if ge 2 then 2 else if ge 1 then 1 else 0)

/-- round(lns6, x, rm) (R163). -/
def lnsRound (rm : RMode) (x : Ex) : Rnd :=
  let enc := fun (neg : Bool) (k : Int) => wrapInt 5 k + if neg then 32 else 0
  let large := fun (neg : Bool) (inf : Bool) =>
    let away := inf || match rm with
      | .rne | .rna => true
      | .rtz => false
      | .rup => !neg
      | .rdn => neg
    ({ enc := if away then 0x30 else enc neg 15, ovf := true, neg := neg, ev := evOv } : Rnd)
  match x with
  | .nan => { enc := 0x30 }
  | .inf neg => large neg true
  | .fin neg a e =>
    if a = 0 then { enc := 0x10 }
    else
      let k0 := lnsFloor a e
      let k := max k0 (-16)
      let lo : Nat × Int := if k = -16 then (0, 0) else lnsM k
      let hi := lnsM (k + 1)
      let exact := !magLt lo.1 lo.2 a e
      let c := common lo.1 lo.2 hi.1 hi.2
      let mid := (c.1 + c.2.1, c.2.2 - 1)
      let above := magLt mid.1 mid.2 a e
      let tie := !above && !magLt a e mid.1 mid.2
      let up := !exact && match rm with
        | .rne => above || (tie && k % 2 == 1)
        | .rna => above || tie
        | .rtz => false
        | .rup => !neg
        | .rdn => neg
      let r := if up then k + 1 else k
      if 16 ≤ r then large neg false
      else
        let tiny := magLt a e (lnsM (-15)).1 (lnsM (-15)).2
        if r = -16 then { enc := 0x10, neg := neg, ev := evUnf }
        else { enc := enc neg r, neg := neg, ev := if tiny then evUnf else 0#4 }

/-- The value of an SC8 code (R153). -/
def scVal (x : Nat) : Ex := if x = 255 then .nan else .fin false 1 ((x : Int) - 127)

/-- round(sc8, x, rm) (R164). Between 2^127 and 2^128 a result that rounds down to 2^127 raises no OV (DESIGN CHOICE, log entry
84). -/
def scRound (rm : RMode) (x : Ex) : Rnd :=
  match x with
  | .nan => { enc := 0xFF }
  | .inf true => { enc := 0xFF, ev := evInv }
  | .inf false => { enc := 0xFF, ovf := true, ev := evOv }
  | .fin neg a e =>
    if a = 0 then { enc := 0x00, ev := evUnf }
    else if neg then { enc := 0xFF, ev := evInv }
    else
      let t : Int := e + bitLen a - 1
      if t < -127 then { enc := 0x00, ev := evUnf }
      else
        let exact := !magLt 1 t a e
        let above := magLt 3 (t - 1) a e
        let tie := !above && !magLt a e 3 (t - 1)
        let up := !exact && match rm with
          | .rne => above || (tie && (t + 127) % 2 == 1)
          | .rna => above || tie
          | .rup => true
          | _ => false
        let r := if up then t + 1 else t
        if 127 < r then { enc := if rm = .rtz ∨ rm = .rdn then 0xFE else 0xFF, ovf := true, ev := evOv }
        else { enc := (r + 127).toNat }

/-! ## Any format -/

/-- The value of an element by its tag. -/
def valOf (tag x : Nat) : Ex :=
  match fltOf tag with
  | some f => f.decode x
  | none =>
    match intOf tag with
    | some s => exInt (intVal s (fmtBits tag) x)
    | none => if tag = 12 then lnsVal x else if tag = 13 then scVal x else .fin false x 0

/-- A source after the flush of R160: a subnormal becomes a zero of its sign. -/
def flushEx (tag : Nat) (ftz : Bool) (x : Ex) : Ex :=
  match fltOf tag, x with
  | some f, .fin neg a e => if ftz && flushes tag && magLt a e 1 f.emin then .fin neg 0 0 else x
  | _, _ => x

/-- round(fmt, x, rm) by tag, of arithmetic (R156, R163, R164). -/
def roundTag (tag : Nat) (rm : RMode) (ftz : Bool) (x : Ex) : Rnd :=
  match fltOf tag with
  | some f => f.round rm (ftz && flushes tag) x
  | none =>
    match intOf tag with
    | some s =>
      match x with
      | .fin neg a e => roundInt s (fmtBits tag) (toInt rm neg a e)
      | .inf neg => { enc := wrapInt (fmtBits tag) (if neg then intMin s (fmtBits tag) else intMax s (fmtBits tag)),
                      ovf := true, neg := neg, ev := evOv }
      | .nan => { enc := 0, ev := evInv }
    | none => if tag = 12 then lnsRound rm x else scRound rm x

/-- The largest finite value of a format with a sign, or the integer bound of that side (R157). -/
def largest (tag : Nat) (neg : Bool) : Nat :=
  match fltOf tag with
  | some f => f.signed neg f.maxEnc
  | none =>
    match intOf tag with
    | some s => wrapInt (fmtBits tag) (if neg then intMin s (fmtBits tag) else intMax s (fmtBits tag))
    | none => if tag = 12 then (if neg then 0x2F else 0x0F) else 0xFE

/-- sat() under SAT (R46, R157). -/
def satTag (tag : Nat) (sat : Bool) (r : Rnd) : Rnd :=
  if sat && r.ovf then { r with enc := largest tag r.neg, ovf := false, ev := r.ev ||| evSat } else r

/-- The canonical NaN of a floating-point tag. -/
def nanOf (tag : Nat) : Nat :=
  match fltOf tag with
  | some f => f.nanEnc
  | none => 0

/-- The settings of a rounding (R169). -/
structure RSet where
  rm : RMode
  sat : Bool
  ftz : Bool
deriving DecidableEq, Repr

/-- round() and sat() of an arithmetic result (R117); an invalid operation gives the canonical NaN and INV. -/
def finishTag (tag : Nat) (z : RSet) (x : Ex × Bool) : Rnd :=
  let r := satTag tag z.sat (roundTag tag z.rm z.ftz x.1)
  if x.2 then { r with ev := r.ev ||| evInv } else r

/-- A value converted to a format that is not its own (R128, R162 to R164, Table 6.5); `flt` says that it came from a
floating-point element. -/
def convertV (flt : Bool) (tgt : Nat) (z : RSet) (v : Ex) : Rnd :=
  match intOf tgt, v with
  | some _, .nan => { enc := 0, ev := evInv }
  | some s, .inf neg =>
    satTag tgt z.sat { enc := wrapInt (fmtBits tgt) (intMin s (fmtBits tgt)), ovf := true, neg := neg, ev := evOv }
  | some s, .fin neg a e =>
    let i := roundInt s (fmtBits tgt) (toInt z.rm neg a e)
    if i.ovf && flt then satTag tgt z.sat { i with enc := wrapInt (fmtBits tgt) (intMin s (fmtBits tgt)) }
    else satTag tgt z.sat i
  | none, _ => satTag tgt z.sat (roundTag tgt z.rm z.ftz v)

/-- A conversion of one element (R128, Table 6.5). -/
def convert (src tgt : Nat) (z : RSet) (x : Nat) : Rnd :=
  let v := flushEx src z.ftz (valOf src x)
  if src = tgt then
    match v, valOf src x with
    | .fin neg 0 _, .fin _ a _ => if a = 0 then { enc := x } else
        { enc := match fltOf src with
            | some f => f.signed neg 0
            | none => x }
    | _, _ => { enc := x }
  else convertV (fltOf src).isSome tgt z v

/-! ## Minimum and maximum (R118) -/

/-- The exact result of vmin or vmax: the other element of a NaN; -0 below +0. -/
def exPick (isMax : Bool) (a b : Ex) : Ex :=
  match a, b with
  | .nan, b => b
  | a, .nan => a
  | a, b => if exLtZ b a != isMax then b else a

/-! ## Seeds (R120) -/

/-- floor(2^(2^-i) × 2^96) for i = 1 to 72. -/
def expTab : List Nat :=
  [0x16a09e667f3bcc908b2fb1366, 0x1306fe0a31b7152de8d5a4630, 0x1172b83c7d517adcdf7c8c50e, 0x10b5586cf9890f6298b92b718, 0x1059b0d31585743ae7c548eb6, 0x102c9a3e778060ee6f7caca4f] ++
  [0x10163da9fb33356d84a66ae33, 0x100b1afa5abcbed6129ab13ec, 0x10058c86da1c09ea1ff19d294, 0x1002c605e2e8cec506d21bfc8, 0x100162f3904051fa128bca9c5, 0x1000b175effdc76ba38e31671] ++
  [0x100058ba01fb9f96d6cacd4b1, 0x10002c5cc37da9491d0985c34, 0x1000162e525ee054754457d59, 0x10000b17255775c040618bf4a, 0x1000058b91b5bc9ae2eed81e9, 0x100002c5c89d5ec6ca4d7c8ac] ++
  [0x10000162e43f4f831060e02d8, 0x100000b1721bcfc99d9f890ea, 0x10000058b90cf1e6d97f9ca14, 0x1000002c5c863b73f016468f6, 0x100000162e430e5a18f6119e3, 0x1000000b1721835514b86e6d9] ++
  [0x100000058b90c0b48c6be5df8, 0x10000002c5c8601cc6b9e9421, 0x1000000162e42fff037df38aa, 0x10000000b17217fba9c739aa5, 0x1000000058b90bfcdee5acd3c, 0x100000002c5c85fe31f35a6a3] ++
  [0x10000000162e42ff0999ce354, 0x100000000b17217f80f4ef5aa, 0x10000000058b90bfbf8479bd5, 0x1000000002c5c85fdf84bd62a, 0x100000000162e42fefb2fed25, 0x1000000000b17217f7d5a7716] ++
  [0x100000000058b90bfbe9ddbac, 0x10000000002c5c85fdf4b15de, 0x1000000000162e42fefa494f1, 0x10000000000b17217f7d20cf9, 0x1000000000058b90bfbe8f71c, 0x100000000002c5c85fdf477b6] ++
  [0x10000000000162e42fefa3ae5, 0x100000000000b17217f7d1d35, 0x10000000000058b90bfbe8e8b, 0x1000000000002c5c85fdf4741, 0x100000000000162e42fefa39f, 0x1000000000000b17217f7d1cf] ++
  [0x100000000000058b90bfbe8e7, 0x10000000000002c5c85fdf473, 0x1000000000000162e42fefa39, 0x10000000000000b17217f7d1c, 0x1000000000000058b90bfbe8e, 0x100000000000002c5c85fdf47] ++
  [0x10000000000000162e42fefa3, 0x100000000000000b17217f7d1, 0x10000000000000058b90bfbe8, 0x1000000000000002c5c85fdf4, 0x100000000000000162e42fefa, 0x1000000000000000b17217f7d] ++
  [0x100000000000000058b90bfbe, 0x10000000000000002c5c85fdf, 0x1000000000000000162e42fef, 0x10000000000000000b17217f7, 0x1000000000000000058b90bfb, 0x100000000000000002c5c85fd] ++
  [0x10000000000000000162e42fe, 0x100000000000000000b17217f, 0x10000000000000000058b90bf, 0x1000000000000000002c5c85f, 0x100000000000000000162e42f, 0x1000000000000000000b17217]

/-- 2^96 × 2^f, rounded down, for a fraction f of 72 bits; the bits are taken from the highest. -/
def expFrac (f : Nat) (i : Nat) (l : List Nat) (acc : Nat) : Nat :=
  match l with
  | [] => acc
  | c :: r => expFrac f (i + 1) r (if f.testBit (71 - i) then (acc * c) >>> 96 else acc)

/-- An interval of magnitudes lo to hi, over 2^e, rounded to 12 significant bits under RNE; none where the two ends
round apart. -/
def round12 (lo hi : Nat) (e : Int) : Option (Nat × Int) :=
  let a := roundSig .rne false lo e 12
  let b := roundSig .rne false hi e 12
  if !magLt a.1 a.2 b.1 b.2 && !magLt b.1 b.2 a.1 a.2 then some a else none

/-- The seed of 2^a for a finite a: exact powers, else by the interval of `expFrac` (its error is below 2^-84). -/
def seedExp (neg : Bool) (a : Nat) (e : Int) : Option Ex :=
  let n : Int := if magLt a e 1 10 then
      (if 0 ≤ e then sgn neg a * 2 ^ e.toNat else sgn neg a / 2 ^ (-e).toNat)
    else if neg then -1024 else 1023
  let frac : Nat := if 0 ≤ e ∨ !magLt a e 1 10 then 0
    else ((sgn neg a - n * 2 ^ (-e).toNat).toNat <<< 72) >>> (-e).toNat
  let exact := decide (0 ≤ e) || decide (a % 2 ^ (-e).toNat = 0)
  if exact then some (.fin false 1 n)
  else
    let lo := expFrac frac 0 expTab (2 ^ 96)
    (round12 lo (lo + 2 ^ 26) (n - 96)).map fun r => .fin false r.1 r.2

/-- `k` fraction bits of log2 of a significand m over 2^159, 1 ≤ m < 2, rounded down. -/
def logBits (k : Nat) (m : Nat) (acc : Nat) : Nat :=
  match k with
  | 0 => acc
  | j + 1 =>
    let q := (m * m) >>> 159
    if 2 ^ 160 ≤ q then logBits j (q >>> 1) (2 * acc + 1) else logBits j q (2 * acc)

/-- The seed of log2 a for a finite positive a: exact for a power of two, else by the interval of `logBits`. -/
def seedLog (a : Nat) (e : Int) : Option Ex :=
  let t : Int := e + bitLen a - 1
  if a = 2 ^ (bitLen a - 1) then some (exInt t)
  else
    let r := logBits 90 (a <<< (160 - bitLen a)) 0
    let v : Int := t * 2 ^ 90 + r
    if 0 ≤ v then (round12 v.natAbs (v.natAbs + 2) (-90)).map fun r => .fin false r.1 r.2
    else (round12 (v.natAbs - 2) v.natAbs (-90)).map fun r => .fin true r.1 r.2

/-- An integer quotient with a last bit that is set where a remainder is left: rounding it to fewer bits is exact. -/
def sticky (q : Nat) (exact : Bool) : Nat := 2 * q + if exact then 0 else 1

/-- The seed of 1/a for a finite a that is not zero. -/
def seedRecip (neg : Bool) (a : Nat) (e : Int) : Ex :=
  let n := bitLen a + 40
  let r := roundSig .rne false (sticky (2 ^ n / a) (2 ^ n % a == 0)) (-e - n - 1) 12
  .fin neg r.1 r.2

/-- The integer square root, from bit `k` down. -/
def isqrt (k : Nat) (x : Nat) (acc : Nat) : Nat :=
  match k with
  | 0 => acc
  | j + 1 =>
    let c := acc + 2 ^ j
    isqrt j x (if c * c ≤ x then c else acc)

/-- The seed of 1/√a for a finite positive a. -/
def seedRsqrt (a : Nat) (e : Int) : Ex :=
  let b := if e % 2 = 0 then a else 2 * a
  let f := if e % 2 = 0 then e else e - 1
  let n := 2 * (bitLen b + 24)
  let q := isqrt (bitLen b + 26) (2 ^ n / b) 0
  let r := roundSig .rne false (sticky q (q * q * b == 2 ^ n)) (-(f / 2) - n / 2 - 1) 12
  .fin false r.1 r.2

/-- The four seeds. -/
inductive Seed where
  | exp2 | log2 | recip | rsqrt
deriving DecidableEq, Repr

/-- The seed's number, for the free value. -/
def Seed.num : Seed → Nat
  | .exp2 => 0 | .log2 => 1 | .recip => 2 | .rsqrt => 3

/-- A seed of an element: its value of Table 6.4 or its 12-bit seed, then round() and sat(); a rounding that the
interval leaves undecided is a free value (log entry 15). -/
def seedOf (g : Seed) (tag : Nat) (z : RSet) (x : Nat) : Rnd :=
  let fin := fun (v : Ex) => satTag tag z.sat (roundTag tag z.rm z.ftz v)
  let nan := fun (ev : Events) => ({ enc := nanOf tag, ev := ev } : Rnd)
  let may := fun (v : Option Ex) => match v with
    | some y => fin y
    | none => { enc := Config.freeSeed g.num x % 2 ^ fmtBits tag }
  let zero := fun (neg : Bool) => ({ enc := match fltOf tag with
    | some f => f.signed neg 0
    | none => 0 } : Rnd)
  match g, flushEx tag z.ftz (valOf tag x) with
  | _, .nan => nan 0#4
  | .exp2, .inf true => zero false
  | .exp2, .inf false => fin (.inf false)
  | .exp2, .fin neg a e => may (seedExp neg a e)
  | .log2, .inf true => nan evInv
  | .log2, .inf false => fin (.inf false)
  | .log2, .fin neg a e => if a = 0 then fin (.inf true) else if neg then nan evInv else may (seedLog a e)
  | .recip, .inf neg => zero neg
  | .recip, .fin neg a e => if a = 0 then fin (.inf neg) else fin (seedRecip neg a e)
  | .rsqrt, .inf true => nan evInv
  | .rsqrt, .inf false => zero false
  | .rsqrt, .fin neg a e => if a = 0 then fin (.inf neg) else if neg then nan evInv else fin (seedRsqrt a e)

end Sys2Proof.Machine
end

