-- ==== Sys2Proof/Machine/StrandState.lean ====
section
/-! DEFINITION. The state of one strand (R60 to R79, R396), of the crew it belongs to and of the launch that made it,
as plain data. Register files and tables are maps that list what differs from the value at strand start. -/
namespace Sys2Proof.Machine
open Sys2Proof

/-- A scalar register with its generation tag (R64); void by default. -/
structure XVal where
  gen : Gen := 0
  val : DWord := 0
deriving DecidableEq, Repr

/-- A capability register with its generation tag (R64, R220). -/
structure CVal where
  gen : Gen := 0
  val : CapBits := 0
deriving DecidableEq, Repr

/-- A predicate with its generation tag (R64). -/
structure PVal where
  gen : Gen := 0
  val : PBits := 0
deriving DecidableEq, Repr

/-- A vector register with its generation tag and format tag (R64, R68). -/
structure VVal where
  gen : Gen := 0
  fmt : BitVec 4 := 15
  val : VBits := 0
deriving DecidableEq, Repr

/-- A tile with its generation tag, format tag and dirty mark (R64, R82). -/
structure TVal where
  gen : Gen := 0
  fmt : BitVec 4 := 15
  val : TBits := 0
  dirty : Bool := false
deriving DecidableEq, Repr

/-- A bypass entry: a result with its format tag (R15, R72). -/
structure BypE where
  fmt : BitVec 4
  val : VBits
deriving DecidableEq, Repr

/-- The registers of a strand (Table 3.2); `sx` is the shadow bank x24 to x31, `byp` the bypass, newest first. -/
structure Regs where
  x : FMap XVal := []
  c : FMap CVal := []
  p : FMap PVal := []
  v : FMap VVal := []
  t : FMap TVal := []
  sx : FMap XVal := []
  byp : List BypE := []
deriving DecidableEq, Repr

/-- How many memory accesses of each stream an event is ordered after, by program order and tokens (R104, R274). -/
structure Know where
  s : Nat := 0
  v : Nat := 0
  m : Nat := 0
  c : Nat := 0
deriving DecidableEq, Repr

/-- The system registers that software reads and writes (Tables 3.7 to 3.9, 7.6, 7.10, 5.9, 9.12, 12.2), and the
hardware's MUPC and MROW (Table 9.9). -/
structure SysRegs where
  rmode : BitVec 5 := 1
  vevt : BitVec 4 := 0
  rotsz : BitVec 2 := 0
  vrb : BitVec 5 := 0
  vlc : BitVec 32 := 0
  vec : BitVec 32 := 0
  tshape : FMap (BitVec 17) := []
  amax : FMap (BitVec 32) := []
  amaxst : BitVec 4 := 0
  bsgA : BitVec 4 := 0
  bsgW : BitVec 4 := 0
  uivec : BitVec 32 := 0
  uiepc : BitVec 32 := 0
  uistat : BitVec 32 := 0
  tkp : FMap (BitVec 32) := []
  mupc : BitVec 64 := 0
  mrow : BitVec 64 := 0
  leaseRun : BitVec 9 := 64
  mlc : BitVec 32 := 0
  clc : BitVec 32 := 0
  seq : BitVec 32 := 0
  fenceObj : BitVec 64 := 0
  fenceOff : BitVec 64 := 0
deriving DecidableEq, Repr

/-- The state of a stream but for Frozen, which its crew holds (Table 3.1). -/
inductive SState where
  | issuing | tokenWait | syncWait | ended
deriving DecidableEq, Repr

/-- What an instruction still does once it has pushed: nothing, or end its stream (R112), or be the strand's safe
point under a live-mask record (R111). -/
inductive AfterPush where
  | go
  | stop
  | safe (lm : Nat)
deriving DecidableEq, Repr

/-- A push set that waits for its turn or for room in its queues, with the words of its group for a trap record (R46,
R396). -/
structure PushWait where
  mask : BitVec 16
  know : Know
  addr : BitVec 32
  gaddr : BitVec 32
  words : List Word
  after : AfterPush := .go
deriving DecidableEq, Repr

/-- What the memory port names of the access that met a cause (R235). -/
structure MemFault where
  obj : Nat
  ogen : Nat
  off : Nat
  page : Nat
deriving DecidableEq, Repr

/-- A trap record (Table 3.11). -/
structure TrapRec where
  cause : Cause
  detail : BitVec 16 := 0
  popped : Bool := false
  mid : Bool := false
  pushp : Bool := false
  addr : BitVec 32 := 0
  gaddr : BitVec 32 := 0
  words : List Word := []
  fault : Option MemFault := none
deriving DecidableEq, Repr

/-- What a matrix instruction has captured at its issue (R178): its memory image as capability and offset in the object
or the count an mlease asks for, whether scales follow, the unit it goes on at by phase and number (Table 9.9), and the
tables an mrestore has read. -/
structure MLatch where
  cap : CapBits := 0
  base : Nat
  en : Bool := false
  phase : Nat := 0
  row : Nat := 0
  tabs : List Byte := []
deriving DecidableEq, Repr

/-- One stream: its program counter, its state, whether the instruction at the counter has completed its tk_pop
(R75, R396) and the pattern it read then (R45), a push that waits, its trap record, the answer of a CXL request its
instruction waits for (R370), what a matrix instruction has captured (R178), the queues a waiting tk_pop or tkwait names
and the words of its group (R63), the word whose line a fetch waits for, and the order its accesses follow. -/
structure Stream where
  pc : BitVec 32 := 0
  st : SState := .issuing
  popped : Bool := false
  pat : BitVec 32 := 0
  push : Option PushWait := none
  opnd : Option MLatch := none
  tr : Option TrapRec := none
  ans : Option CxlResult := none
  asked : Bool := false
  arrived : Bool := false
  waitSet : BitVec 16 := 0
  waitN : BitVec 4 := 1
  waitWords : List Word := []
  want : Option Nat := none
  know : Know := {}
deriving DecidableEq, Repr

/-- The prefixes of the group that issues (R27): the latch between a prefix and its follower. -/
structure Prefixes where
  arith : Option ArithPfx := none
  label : Option (BitVec 10) := none
  immx : Option (BitVec 26) := none
deriving DecidableEq, Repr

/-- The group that issues: its first word's address, the instruction's address, the address after it, its words. -/
structure Group where
  gaddr : BitVec 32 := 0
  addr : BitVec 32 := 0
  next : BitVec 32 := 4
  words : List Word := []
deriving DecidableEq, Repr

/-- One write of a store that the memory port has accepted (R398): the granule-aligned piece it covers. It is bound to
`bound`, its further parts to those of `more` (R102, R137); `told` marks a write of a store whose failure has been reported (R106). -/
structure StoreW where
  sid : Nat
  seq : Nat
  stream : Engine
  idx : Nat
  pa : Nat
  bytes : List Byte
  en : Option (BitVec 64) := none
  dom : BitVec 6
  tier : BitVec 2
  loc : Nat
  die : Nat := 0
  side : Option Nat := none
  obj : Nat
  ogen : Nat
  off : Nat
  bound : Option DWord := none
  more : List (Option DWord) := []
  told : Bool := false
deriving DecidableEq, Repr

/-- A store that failed and that no fence has reported (R106), with the objects its bytes were bound to (R102) and its number
among the package's failures. -/
structure FailedW where
  n : Nat := 0
  sid : Nat := 0
  stream : Engine
  idx : Nat
  reason : Nat
  obj : Nat
  ogen : Nat
  off : Nat
  bound : Option DWord := none
  more : List (Option DWord) := []
deriving DecidableEq, Repr

/-- A binding of a region to a synchronisation object (R102), `idx` its place among the scalar stream's accesses; newest
first in the strand's list. -/
structure Binding where
  idx : Nat := 0
  obj : Nat
  base : Nat
  len : Nat
  name : DWord
deriving DecidableEq, Repr

/-- A region of the accumulator store (R187): base row, rows, S as its logarithm, policy, spill area. -/
structure Region where
  base : Nat
  rows : Nat
  slog : Nat
  trapPol : Bool
  spill : Nat
  dir : FMap (BitVec 32) := []
  status : BitVec 32 := 0
deriving DecidableEq, Repr

/-- A place that a copy reads or writes: the strand's scratchpad, the crew window, or an object (R247 to R259). -/
inductive CEnd where
  | sp (off : Nat)
  | cw (off : Nat)
  | mem (cap : CapBits) (off : Nat)
deriving DecidableEq, Repr

/-- A copy as it was issued, its operands captured (R247). -/
inductive CopyOp where
  | lin (src dst : CEnd) (len : Nat)
  | rows (src dst : CEnd) (rowLen : Nat) (sstr dstr : Int) (n : Nat)
  | cvt (src dst : CEnd) (n sfmt dfmt : Nat) (rm : RMode) (sat ftz : Bool)
  | fill (dst : CEnd) (len : Nat) (val : DWord)
  | accRd (off row n : Nat)
  | accWr (off row n : Nat)
  | gath (cap : CapBits) (rows : List Nat) (tile fmt : Nat) (toks : List Nat)
  | scat (cap : CapBits) (rows : List Nat) (tile fmt : Nat)
  | null (kind src dst : Nat) (toks : List Nat)
  | rcp (src dst len ctr : Nat) (nq : BitVec 4)
deriving DecidableEq, Repr

/-- An outstanding copy: its slot, its place in the stream's order, what it does, the units done, whether a fault
holds it (R267), whether its bytes have moved, the units the loader has read ahead of the storer (R249), whether it
interrupts, what it is ordered after, its group and the answer of a CXL request it waits for. -/
structure CopyRec where
  slot : Nat
  idx : Nat
  op : CopyOp
  ui : Bool
  done : Nat := 0
  held : Bool := false
  moved : Bool := false
  ahead : List (List Byte) := []
  evs : BitVec 4 := 0
  know : Know := {}
  addr : BitVec 32
  gaddr : BitVec 32
  words : List Word
  ans : Option CxlResult := none
  asked : Bool := false
deriving DecidableEq, Repr

/-- A scratchpad granule with its tag (R219). -/
structure SGran where
  gen : Gen := 0
  val : Granule := 0
deriving DecidableEq, Repr

/-- A push that waits for its turn in the program order of a matrix or copy stream (R177, R250): the copy slot or
matrix instruction it belongs to, whether that has finished, its push set, the number of the last store that a
matrix instruction must see performed, whether it is a serial instruction (R176), and its group for a trap record (R63).
Of a matrix instruction it also keeps what a later mwloadm may go ahead of (R176): whether it is a load-pipe instruction,
the planes it uses, whether it popped tokens, and the scratchpad granules it overwrote, as they were. -/
structure OrdPush where
  idx : Nat
  fin : Bool
  mask : BitVec 16
  know : Know
  need : Nat := 0
  serial : Bool := false
  loads : Bool := false
  planes : BitVec 2 := 0
  pops : Bool := false
  undo : List (Nat × SGran) := []
  addr : BitVec 32 := 0
  gaddr : BitVec 32 := 0
  words : List Word := []
deriving DecidableEq, Repr

/-- An external push that a full queue holds (R62, R259). -/
structure ExtPush where
  q : Nat
  know : Know
deriving DecidableEq, Repr

/-- A landing zone (R261). -/
structure Zone where
  obj : Nat
  ogen : Nat
  off : Nat
  len : Nat
  ec : Bool
deriving DecidableEq, Repr

/-- From when on the later reads of a strand follow what an operation ordered them after (R276): the operation's scope, the
object whose accesses it orders, none for all of them, and the number of the last write it follows. -/
structure View where
  scope : Nat
  obj : Option DWord
  since : Nat
deriving DecidableEq, Repr

/-- The save area an object of a suspended context belongs to (R82, R204): home die, crew slot, rank. -/
structure Owner where
  die : Nat
  slot : Nat
  rank : Nat
deriving DecidableEq, Repr

/-- A weight plane (R182, R183): owner tag, rows of 128 16-bit containers, 512 scales of one byte. -/
structure Plane where
  gen : Gen := 0
  core : BitVec 2 := 0
  rows : FMap (BitVec 2048) := []
  scales : BitVec 4096 := 0
  dirty : Bool := false
  held : Option Owner := none
deriving DecidableEq, Repr

/-- A strand (R60): its identity, registers, streams, tokens and everything it has under way. `planeOut` marks the planes
that stand in its save area and are loaded at its next grant (R204), `planes` holds those of them that a restore has read (R327);
`views` is what its reads follow (R276). -/
structure Strand where
  crew : Nat
  sid : Nat := 0
  rank : Nat := 0
  x1 : Nat := 0
  cgen : Gen := 1
  gtrap : Bool := false
  super : Bool := false
  migrations : BitVec 32 := 0
  r : Regs := {}
  sys : SysRegs := {}
  ss : FMap Stream := []
  toks : FMap (List Know) := []
  ext : List ExtPush := []
  uipend : List Nat := []
  binds : List Binding := []
  groups : FMap Nat := []
  uiArrived : Bool := false
  uiPat : BitVec 32 := 0
  xsync : Bool := false
  regions : FMap Region := []
  cnt : FMap (BitVec 16) := []
  hsum : BitVec 32 := 0
  cntSat : Bool := false
  hsumSat : Bool := false
  zones : FMap Zone := []
  copies : List CopyRec := []
  copyPush : List OrdPush := []
  mats : List OrdPush := []
  planeOut : BitVec 2 := 0
  planes : FMap Plane := []
  views : List View := []
  stores : List StoreW := []
  storeSeq : Nat := 0
  failed : List FailedW := []
  safe : Option Nat := none
  gone : Bool := false
  retired : Bool := false
deriving DecidableEq, Repr

end Sys2Proof.Machine
end

