-- ==== Sys2Proof/Machine/State.lean ====
section
/-! DEFINITION. The state of the package as plain data: memory, cores, quads, command processors, tier engine, memory
controllers, links and the management and security core; the state after reset; the reasons a step can stop. Tables
are maps that list what differs from the reset value, so that equal machines are equal data. -/
namespace Sys2Proof.Machine
open Sys2Proof

/-! ## Memory -/

/-- Storage by physical address (R7, R224): a list of cells, addresses strictly rising, none equal to what an
unlisted address reads as. -/
abbrev Memory := List Host.Cell

/-- What a byte that nothing has written reads as (DESIGN CHOICE, log entry 1: the spec gives no contents). -/
def Memory.blank : Byte := 0#8

/-- The canonical form of memory. -/
abbrev Memory.wf (m : Memory) : Bool := mapWf Memory.blank m

/-- The guard of a STAGE or BULK granule as the device stores it (Table 18.1): KD, P, CHECK and TAG; KD is none where nothing
has written the granule (log entry 4). -/
structure Guard where
  kd : Option (BitVec 6) := none
  p : Bool := false
  check : BitVec 32 := 0
  tag : BitVec 48 := 0
deriving DecidableEq, Repr

/-- An entry of a write queue (R361): its controller, byte mask and bytes, P, domain, whether it is the scrubber's,
whether it has been issued to the device, the stores merged into it. -/
structure WqEntry where
  ctrl : Nat
  mask : BitVec 64
  val : Granule
  p : Bool := false
  dom : BitVec 6
  scrub : Bool := false
  writers : List (Nat × Nat) := []
deriving DecidableEq, Repr

/-- A memory controller: HBM4E stack 0 to 3, or LPDDR-6 device k as number 4 + k (R361 to R368, Tables 18.4, 18.6,
18.7). `order` lists the granules of its pending entries, oldest first, `drain` the channels in drain mode; `pend` the scrub
write-backs not yet entered, `seen` the granules the pass has visited; `waiting` the reads that a drain or a thermal event holds,
with their domains and classes, oldest first. -/
structure MemCtl where
  order : List Nat := []
  drain : List Nat := []
  seen : List Nat := []
  ce : BitVec 32 := 0
  ue : BitVec 32 := 0
  yield : BitVec 32 := 0
  int : BitVec 32 := 0
  passh : BitVec 16 := 24
  scrubEn : Bool := true
  passes : BitVec 32 := 0
  pos : BitVec 32 := 0
  pend : List Nat := []
  hot : Bool := false
  tcrit : BitVec 8 := 105
  tres : BitVec 8 := 95
  temp : BitVec 8 := 25
  waiting : List (Nat × BitVec 6 × Nat) := []
deriving DecidableEq, Repr

/-! ## Parties that ask and are answered -/

/-- Where an access lands: the physical address of its first byte, its tier and LOC, its controller, the domain of its
space, the sidecar line of a sparse page, the page's form where it is compressed. -/
structure Place where
  pa : Nat
  tier : Nat
  loc : Nat
  ctrl : Nat
  dom : BitVec 6
  side : Option Nat := none
  zmask : Option (Granule × Nat × Nat) := none
deriving DecidableEq, Repr

/-- Who a CXL request serves (R370, R371): an instruction's stream, a copy, a store, a MOVE, a packet, a line, the entry that a
context considers, the status word of an entry, a gatherer's ring. -/
inductive Asker where
  | stream (core : Nat) (e : Engine)
  | copy (core slot : Nat)
  | store (sid seq : Nat)
  | move (ctx order : Nat)
  | queue (die q : Nat)
  | line (die : Nat) (h : Handle) (line : Nat)
  | entry (ctx : Nat)
  | status (ctx order : Nat) (p : Place) (w : Word)
  | ring (r : Nat)
deriving DecidableEq, Repr

/-- A line that a die fetch agent has been asked for (R51): whether it has asked a CXL port for it, and the answer (R53). -/
structure LineReq where
  h : Handle
  line : Nat
  asked : Bool := false
  ans : Option CxlResult := none
deriving DecidableEq, Repr

/-- A CXL port (Table 18.9): its time-out, its state, whether an isolated port's link has trained again, whether RESTORE
brought it back, its replays in a row, and its requests with their issue ticks, oldest first. -/
structure CxlPort where
  tmo : BitVec 16 := 4096
  isoFrame : BitVec 32 := 0
  retrains : BitVec 16 := 0
  state : BitVec 3 := 0
  trained : Bool := false
  restored : Bool := false
  replays : Nat := 0
  out : List (Asker × Nat) := []
  hintV : Bool := false
  hintAddr : Nat := 0
deriving DecidableEq, Repr

/-- What leaves the package: an MSI-X message (R215), a hint record (R343), a flit (R332, R352), a record written to host
memory (R290), a CXL write with data poison (R370), an answer of the MSC (R387), a completion of a host window (Table 18.2). -/
inductive OutMsg where
  | msi (vec : Nat)
  | hint (port addr : Nat) (words : List Word)
  | shard (grp : BitVec 8) (epoch : BitVec 32) (k : Nat) (data : List Granule)
  | ack (pkg : BitVec 4) (epoch : BitVec 32) (k : Nat)
  | fail (grp : BitVec 8) (epoch : BitVec 32) (k status : Nat)
  | removal (pkg : Nat) (epoch : BitVec 32)
  | eos (grp : BitVec 8) (epoch : BitVec 32)
  | host (addr : Nat) (words : List Word)
  | poisoned (port addr : Nat)
  | ext (bytes : List Byte) (status : Nat)
  | cpl (status : Nat) (bytes : List Byte)
deriving DecidableEq, Repr

/-- The state of a link that trains (R374, R375): an Ovlan port or a die boundary; `down` once it is left out; `wait` holds
what a training Ovlan port has still to send, in order. -/
structure LinkSt where
  down : Bool := false
  training : Bool := false
  since : Nat := 0
  replays : Nat := 0
  retrains : Nat := 0
  wait : List OutMsg := []
deriving DecidableEq, Repr

/-! ## Cores and quads -/

/-- A line of a core's instruction store (R51). -/
structure ILine where
  h : Handle
  line : Nat
  val : Granule
deriving DecidableEq, Repr

/-- A core (R51, R240, R242, R243): its generation counter, the quarters whose sweeps are under way, its instruction store,
the space of the last strand allocated on it, and its register files as the strands before the present one left them. -/
structure CoreSt where
  owner : Option Nat := none
  left : Regs := {}
  gctr : Gen := 0
  sweep : List Nat := []
  istore : List ILine := []
deriving DecidableEq, Repr

/-- A held tile of a suspended context (R82). -/
structure HeldTile where
  gen : Gen
  fmt : BitVec 4
  val : TBits
  own : Owner
  dirty : Bool
deriving DecidableEq, Repr

/-- An accumulator row (R186): generation, core within the quad, 128 words of 32 bits; whether it is held for a
suspended context (R204) and by which. -/
structure AccRow where
  gen : Gen := 0
  core : BitVec 2 := 0
  val : VBits := 0
  dirty : Bool := false
  held : Option Owner := none
deriving DecidableEq, Repr

/-- The lease of an array (R180, R181): holder, instructions left, grant tick, whether it has ended. -/
structure Lease where
  core : Nat
  run : Nat
  tick : Nat
deriving DecidableEq, Repr

/-- A quad (R176 to R186, R208). `waits` holds the cores that request the array, with the RUN they ask for. -/
structure Quad where
  rows : FMap AccRow := []
  pa : Plane := {}
  pb : Plane := {}
  lease : Option Lease := none
  last : Nat := 3
  turns : Nat := 0
  waits : FMap Nat := []
deriving DecidableEq, Repr

/-! ## Crews and launches -/

/-- Crew states (Table 14.8). -/
inductive CrewState where
  | running | stopping | saving | suspended | frozen | evicting | waiting | restoring | ended
deriving DecidableEq, Repr

/-- A crew (R307 to R327): its launch, copy and coordinates, where its ranks run (home-die key and global cores), its
state and the state a freeze remembers; `run` numbers its stay on its cores; `traps` lists (rank, stream) of the
traps of a freeze, in order; `resume` keeps a CP_RESUME that came before the freeze's fault entry was written. -/
structure Crew where
  launch : Nat
  copy : Nat := 0
  place : Nat := 0
  space : Nat
  handle : Handle
  size : Nat
  copyonly : Bool := false
  coord : Nat × Nat × Nat := (0, 0, 0)
  cores : List Nat := []
  st : CrewState := .running
  remembered : CrewState := .running
  full : Bool := false
  preq : Option Nat := none
  plim : Nat := 0
  run : Nat := 0
  thermal : Bool := false
  since : Nat := 0
  progress : Nat := 0
  runRep : Bool := false
  stallRep : Bool := false
  dueRep : Bool := false
  entryDue : Bool := false
  resume : Bool := false
  barPhase : Nat := 0
  barArr : List Nat := []
  incomplete : Bool := false
  saved : FMap Strand := []
  savedCores : List Nat := []
  lost : List HeldObj := []
  traps : List (Nat × Nat) := []
deriving DecidableEq, Repr

/-- Launch states (Table 14.7). -/
inductive LaunchState where
  | held | dispatching | running | draining | complete
deriving DecidableEq, Repr

/-- The kernel image fields a launch reads at its start (Table 2.16). -/
structure Kernel where
  off : FMap Nat := []
  len : FMap Nat := []
  entry : FMap Nat := []
  tkp : FMap (BitVec 32) := []
  init : BitVec 2 := 0
  dataOff : Nat := 0
  dataLen : Nat := 0
  live : List (BitVec 256) := []
  caps : List (BitVec 32) := []
deriving DecidableEq, Repr

/-- A launch (R211, R293 to R299, R309). -/
structure Launch where
  die : Nat
  q : Nat
  off : Nat
  chain : Bool := false
  args : LaunchArgs
  mask : Option (BitVec 128) := none
  k : Kernel := {}
  slots : FMap CapBits := []
  groups : FMap (BitVec 128) := []
  st : LaunchState := .held
  start : Nat := 0
  lastPlace : Nat := 0
  frame : Bool := false
  super : Bool := false
  space : Nat := 0
  next : FMap Nat := []
  episode : Option Nat := none
  stores : List StoreW := []
  failed : List FailedW := []
  phases : FMap (Nat × List Nat) := []
  left : FMap (List Nat) := []
  victims : List (Nat × Nat) := []
deriving DecidableEq, Repr

/-! ## Command processors -/

/-- A frame open on a queue (R299). -/
structure FrameSt where
  t0 : Nat
  slip : Nat := 0
  sse : Bool
  ssem : Nat
deriving DecidableEq, Repr

/-- What a queue has started beyond its head, in order (R209, R314): a launch that has not completed, or words that the head
passes once the launches before them have completed. -/
inductive Ahead where
  | launch (n : Nat)
  | words (k : Nat)
deriving DecidableEq, Repr

/-- A place in a queue's program: the call stack and the ring count. -/
abbrev QPlace := List (Nat × Nat × Nat) × Nat

/-- A queue (Table 14.1): registers, call stack (buffer object, generation, byte offset), what stands ahead of the head, the
packet that has started and what it waits for, granules of a COPY done and the one read and not yet written, words that a
SKIP has still to pass, the frame. `hdr` is the header of the packet at the head once it has been read (R289); `late` holds the
slips of the frame's launches that overrun and have not started, by place (R299). -/
structure Queue where
  base : Nat := 0
  ceil : Nat := 7
  en : Bool := false
  priv : Bool := false
  space : Nat := 0
  size : Nat := 12
  tail : BitVec 32 := 0
  head : BitVec 32 := 0
  stop : Option QCause := none
  noPacket : Bool := false
  cookie : BitVec 32 := 0
  stack : List (Nat × Nat × Nat) := []
  started : Bool := false
  startTick : Nat := 0
  skip : Nat := 0
  hold : Bool := false
  frame : Option FrameSt := none
  ahead : List Ahead := []
  prevLaunch : Option Bool := none
  targets : List (Nat × Nat) := []
  joinId : Option (BitVec 8) := none
  waitRep : Bool := false
  ans : Option CxlResult := none
  asked : Bool := false
  done : Nat := 0
  data : Option (List Byte) := none
  hdr : Option Word := none
  late : List (QPlace × Nat) := []
  semSat : Bool := false
  wait : Option (BitVec 2 × Nat × BitVec 64) := none
deriving DecidableEq, Repr

/-- A QFENCE join under way (R214). -/
structure Join where
  id : BitVec 8
  mask : BitVec 16
  arrived : List Nat
deriving DecidableEq, Repr

/-- The translation that a port holds (R228): object entry and page entry, with the sidecar line of a compressed
page. -/
structure Trans where
  space : Nat
  obj : Nat
  page : Nat
  e : BitVec 256
  pe : BitVec 64
  side : Option Granule := none
deriving DecidableEq, Repr

/-- An access queue (R228): its current-page and next-page registers. -/
structure AccQueue where
  cur : Option Trans := none
  nxt : Option Trans := none
deriving DecidableEq, Repr

/-- A die: its command processor's registers (Table 14.5), queues and semaphores, its die registers (Table 19.8),
frame pool, translation cache, line requests and frames a pgfree holds back. -/
structure Die where
  queues : FMap Queue := []
  plim : BitVec 32 := 20000
  preen : Bool := true
  age : BitVec 32 := 1024
  stall : BitVec 32 := 2048
  runlim : BitVec 32 := 65536
  saveBase : Nat := 0
  nslot : Nat := 0
  rptEn : Bool := false
  rptVec : Nat := 0
  rptBase : Nat := 0
  rptSize : Nat := 0
  rptHead : BitVec 32 := 0
  rptTail : BitVec 32 := 0
  rptLost : BitVec 16 := 0
  sems : FMap (BitVec 64) := []
  joins : List Join := []
  nxd : Nat := 4096
  fqBase : Nat := 0
  fqSize : Nat := 16
  fqHead : BitVec 32 := 0
  fqTail : BitVec 32 := 0
  pool : List Nat := []
  freeing : List Nat := []
  tc : List Trans := []
  lineReq : List LineReq := []
deriving DecidableEq, Repr

/-! ## Tier engine and request gatherer -/

/-- A unit of a MOVE (R341): a granule, with the places its translation found; no source at a member of a multicast stream, no
destination in a landing zone. A page kept packed (R342) is the granules that it stores, then a unit that writes the destination's
sidecar line: that line's address, the line, and the sectors of the page; `quiet` granules are those that a stream does not carry
as they are stored. -/
structure MUnit where
  src : Option Place := none
  dst : Option Place := none
  line : Option (Nat × Granule × Nat) := none
  quiet : Bool := false
deriving DecidableEq, Repr

/-- A multicast stream of a context (R332, R352): the shards numbered so far; `pmask` loses the members that the source has
removed. -/
structure Stream2 where
  epoch : BitVec 32
  pmask : BitVec 16
  src : BitVec 4
  grp : BitVec 8
  ackto : Nat
  next : Nat := 0
deriving DecidableEq, Repr

/-- A MOVE that has started (R341, R350): its entry index and place in the execution, its class, its effective due tick, its
start; the units it has still to write and how many it has written, the granule read and not yet written with its poison; the
strand and zone it lands in, and whether its token has still to be pushed; its status once complete; its multicast stream and
shard, when the shard was sent and who has not acknowledged it; its CXL request and the answer. It stands in its context's list
until its credit returns. -/
structure MoveSt where
  idx : Nat
  order : Nat
  a : MoveArgs
  due : Int
  started : Nat := 0
  units : List MUnit := []
  written : Nat := 0
  val : Option (Granule × Bool) := none
  sid : Nat := 0
  token : Bool := false
  status : Option Status := none
  str : Option Stream2 := none
  member : Bool := false
  shard : Nat := 0
  sent : Option Nat := none
  acks : List Nat := []
  ans : Option CxlResult := none
  asked : Bool := false
deriving DecidableEq, Repr

/-- A MARK that has started and whose adds wait for earlier entries (R345). -/
structure MarkSt where
  idx : Nat
  order : Nat
  sem : Nat
  fen : Bool
  fsem : Nat
  add : BitVec 32
deriving DecidableEq, Repr

/-- A MOVE of a GUST's group that its window has held back (R347): its entry index and place in the execution, its words, the core
and zone it lands in, the shard of its multicast stream. -/
structure Pend where
  idx : Nat
  order : Nat
  ws : List Word
  zone : Option (Nat × Nat) := none
  shard : Option Nat := none
deriving DecidableEq, Repr

/-- A tier-engine context (Table 16.2, R336 to R352). Beside the registers: the itinerary's space, object, generation,
accepting tick and die, and its first place in the execution; the entry under consideration, its place in the execution and
whether it is one a GUST's group has passed over; the words of an entry that is considered and holds the later ones; the members of
the group still to be considered and those passed over; open and started moves, marks, the execution places of failed entries that
no MARK has counted; the multicast stream and those left; the quads served; its CXL request and the answer. `idx` is 2048 past the
last entry. -/
structure TeCtx where
  lateHi : BitVec 16 := 0x40
  lateLo : BitVec 16 := 0x10
  win : FMap Nat := []
  late : Nat := 0
  l : Nat := 0
  arm : BitVec 4 := 0
  rem : FMap (BitVec 16) := []
  idx : Nat := 0
  cause : Nat := 0
  active : Bool := false
  stopping : Bool := false
  tbase : BitVec 32 := 0
  dofs : BitVec 32 := 0
  sacc : BitVec 64 := 0
  dacc : BitVec 64 := 0
  bseen : BitVec 32 := 0
  space : Nat := 0
  obj : Nat := 0
  gen : Nat := 0
  t0 : Nat := 0
  die : Nat := 0
  cidx : Nat := 0
  cord : Nat := 0
  again : Bool := false
  order : Nat := 0
  first : Nat := 0
  held : Option (List Word) := none
  gust : Nat := 0
  pend : List Pend := []
  moves : List MoveSt := []
  marks : List MarkSt := []
  fails : List Nat := []
  mc : Option Stream2 := none
  left : List (BitVec 32 × BitVec 4) := []
  served : List Nat := []
  ans : Option CxlResult := none
  asked : Bool := false
deriving DecidableEq, Repr

/-- What has arrived of a shard and waits at a member (R332): its stream and number, its granules in order, or its failure
status. -/
structure Shard where
  epoch : BitVec 32
  k : Nat
  data : List Granule
  fail : Option Status := none
deriving DecidableEq, Repr

/-- A gatherer context (Table 16.7, R334, R354): its registers, its ring, the limits of the open batch and those of the
next, the ring's size as its logarithm and the first request in no closed batch; the stores accepted and not performed when TAIL
was last read, and the releases under way: die and SEM, what is added to it, the stores it waits for; the ring writes that a close
has still to make; its CXL request and the answer. -/
structure RqCtx where
  active : Bool := false
  stopAsk : Bool := false
  cause : Nat := 0
  openV : Bool := false
  openAt : Nat := 0
  openN : Nat := 0
  nb : BitVec 32 := 0
  obj : Nat := 0
  gen : Nat := 0
  space : Nat := 0
  die : Nat := 0
  batchN : Nat := 1
  deadline : Nat := 1
  sem : Nat := 0
  pendBatchN : Nat := 1
  pendDeadline : Nat := 1
  pendSem : Nat := 0
  log2n : Nat := 4
  head : BitVec 32 := 0
  cover : List (Nat × Nat) := []
  rels : List (Nat × Nat × Nat × List (Nat × Nat)) := []
  closing : List (Nat × List Word) := []
  ans : Option CxlResult := none
  asked : Bool := false
deriving DecidableEq, Repr

/-! ## The management and security core -/

/-- A key of a lifetime counter (Table 18.11): counter, instance, bin. -/
abbrev CounterKey := Nat × Nat × Nat

/-- The MSC (R378, R379, R383 to R387): counters committed and in RAM, the attestation log and LOGHASH, event log,
fused SVN floors, running SVNs and measurements by KIND, policy payload, the images that FW_STAGE has written to flash
by KIND, endpoint IDs, the ticks for which the MSC has run. -/
structure Msc where
  committed : List (CounterKey × Nat) := []
  ram : List (CounterKey × Nat) := []
  log : List (BitVec 512) := []
  loghash : BitVec 512 := 0
  events : List (Nat × Nat) := []
  floors : FMap Nat := []
  svn : FMap Nat := []
  meas : FMap (BitVec 512) := []
  policy : BitVec 64 := 0
  flash : FMap (List Byte) := []
  epPcie : BitVec 8 := 0
  epI3c : BitVec 8 := 0
  up : Nat := 0
deriving DecidableEq, Repr

/-! ## Who acts -/

/-- Whose action a step is (log entry 5). -/
inductive Turn where
  | stream (core : Nat) (e : Engine)
  | queue (die q : Nat)
  | ctx (n : Nat)
  | event (i : Instr)
deriving DecidableEq, Repr

/-- The party whose action is under way. -/
inductive Party where
  | none
  | stream (core : Nat) (e : Engine)
  | queue (die q : Nat)
  | ctx (n : Nat)
deriving DecidableEq, Repr

/-- A value that a write to a granule took away: the granule, the write's number, what reads of the domain found
before it, the strand that wrote it where one did (R272, R281). -/
structure OldVal where
  gran : Nat
  num : Nat
  val : Granule
  dom : BitVec 6
  writer : Option Nat
deriving DecidableEq, Repr

/-- An entry of the space table (R389). -/
structure Space where
  v : Bool := false
  consent : Bool := false
  kdom : BitVec 6 := 0
  obt : Nat := 0
deriving DecidableEq, Repr

/-- The whole machine. `stall` tells that the action under way needs a device in self-refresh, so that it waits (R367). `aq`
holds access queue q of core c under 8 c + q: the loader's 0 to 3, the storer's 4 and 5, the matrix load pipe's 6 and 7 (R228).
`inForce` holds the space entries that accesses go by (R389). `resets` numbers the resets, each of which draws new keys (R359). `acked` holds the acknowledgements that came before the source
started their shard (stream, shard, package). `nfail` counts the stores that failed, in time. `writes` numbers the writes that
strands and engines make to granules, `old` the values they took away, and `seen` holds the number of the write that a strand
has last read past, by strand and granule (R273, R277, R281). -/
structure State where
  frame : BitVec 64 := 0
  phase : BitVec 4 := 0
  berr : BitVec 4 := 0
  bdetail : BitVec 8 := 0
  caps : Config.Caps := {}
  bulkSize : Nat := 0
  idleTicks : BitVec 16 := 1024
  pwrInput : BitVec 32 := 0
  plvl : BitVec 2 := 0
  pwrResult : BitVec 2 := 0
  pwrState : BitVec 2 := 0
  pwrCap : BitVec 16 := 2400
  off : Bool := false
  idleSeen : Nat := 0
  overWins : Nat := 0
  winTicks : Nat := 0
  tails : List (Nat × Nat × BitVec 32) := []
  resets : Nat := 0
  msix : FMap (BitVec 64) := []
  pba : FMap (BitVec 64) := []
  spaces : FMap Space := []
  inForce : FMap Space := []
  msixSize : Nat := 2048
  out : List OutMsg := []
  mem : Memory := []
  guards : FMap Guard := []
  wq : FMap WqEntry := []
  thermal : List Nat := []
  stall : Bool := false
  ctls : FMap MemCtl := []
  ports : FMap CxlPort := []
  ovl : FMap LinkSt := []
  bnds : FMap LinkSt := []
  spad : FMap SGran := []
  cores : FMap CoreSt := []
  heldTiles : FMap HeldTile := []
  aq : FMap AccQueue := []
  quads : FMap Quad := []
  nextStrand : Nat := 0
  nextLaunch : Nat := 0
  strands : FMap Strand := []
  crews : FMap Crew := []
  launches : FMap Launch := []
  dies : FMap Die := []
  te : FMap TeCtx := []
  rq : FMap RqCtx := []
  shards : List Shard := []
  ends : List (BitVec 32) := []
  cuts : List (BitVec 32) := []
  acked : List (BitVec 32 × Nat × Nat) := []
  msc : Msc := {}
  schedule : List Turn := []
  clock : Nat := 0
  cur : Party := .none
  pfx : Prefixes := {}
  grp : Group := {}
  fresh : Nat := 0
  nfail : Nat := 0
  writes : Nat := 0
  old : List OldVal := []
  seen : FMap Nat := []
deriving DecidableEq, Repr

/-- The machine right after a reset: boot phase 0, nothing trained, nothing running; the values of Tables 14.1, 14.5,
16.2, 16.7, 18.4 to 18.9, 19.2, 19.8 and 19.11. A non-volatile counter or floor reads as on a new part (log entry 9). -/
def State.reset : State := {}

/-- Why the machine can stop. -/
inductive Fault where
  /-- An engine instruction is executed where no strand's stream acts. No step raises it: a step executes an engine
  instruction only for a strand that issues it. Safe: the machine stops where the hardware has no such case. -/
  | noStrand
  /-- A queue packet is executed where no queue acts. No step raises it: a step executes a packet only for the queue
  that holds it. Safe. -/
  | noQueue
  /-- An itinerary entry is executed where no tier-engine context acts. No step raises it. Safe. -/
  | noContext
deriving DecidableEq, Repr

/-- Why the model can refuse an instruction. -/
inductive Refusal where
  /-- The instruction has no meaning in the model yet; raised by the arms of exec that name it. Safe. -/
  | notModelled (mnemonic : String)
deriving DecidableEq, Repr

/-- The outcome of a step of this machine. -/
abbrev Out := Host.Outcome State Fault Refusal

end Sys2Proof.Machine
end

