-- ==== Sys2Proof/Machine/Ops.lean ====
section
/-! DEFINITION. The named operations over strands, streams, registers and tokens, and taking a trap (R46, R62, R64 to
R77, R396). Every read and write of a tagged register goes through tag_read and tag_write here. -/
namespace Sys2Proof.Machine
open Sys2Proof

/-! ## The parts of the package -/

/-- Cores on a die (Table 0.3). -/
def coresPerDie : Nat := 384
/-- The die of a global core number. -/
def dieOf (core : Nat) : Nat := core / coresPerDie
/-- The die-local number of a core (R73). -/
def localCore (core : Nat) : Nat := core % coresPerDie
/-- The global number of a core's quad. -/
def quadOf (core : Nat) : Nat := core / 4
/-- The core's number within its quad. -/
def coreInQuad (core : Nat) : Nat := core % 4
/-- The package number of a core's cluster (R296). -/
def clusterOf (core : Nat) : Nat := core / 16
/-- The key of the crew in a slot of a die (R307). -/
def crewKey (die slot : Nat) : Nat := die * 4096 + slot
/-- The home die of a crew key. -/
def crewDie (k : Nat) : Nat := k / 4096
/-- The slot of a crew key. -/
def crewSlot (k : Nat) : Nat := k % 4096

/-- A strand's queue of a kind and its readable stream state, as a default. -/
def streamOf (st : Strand) (e : Engine) : Stream := mapGet {} st.ss e.num

/-- Whether a stream's instruction waits for the answer of a CXL request, or has it and has not gone on. -/
def awaits (x : Stream) : Bool := x.asked || x.ans.isSome

/-- The strand with one stream replaced. -/
def setStream (st : Strand) (e : Engine) (x : Stream) : Strand := { st with ss := mapPut st.ss e.num x }

/-- The strand allocated on a core. -/
def strandAt (s : State) (core : Nat) : Option Strand := mapFind s.strands core


/-- The machine with the strand of a core replaced. -/
def setStrand (s : State) (core : Nat) (st : Strand) : State := { s with strands := mapPut s.strands core st }

/-- The strand of a core changed by `f`; nothing where no strand is allocated. -/
def modStrand (s : State) (core : Nat) (f : Strand → Strand) : State :=
  match strandAt s core with
  | some st => setStrand s core (f st)
  | none => s

/-- A stream of the strand on a core changed by `f`. -/
def modStream (s : State) (core : Nat) (e : Engine) (f : Stream → Stream) : State :=
  modStrand s core fun st => setStream st e (f (streamOf st e))

/-- The crew of a key. -/
def crewAt (s : State) (k : Nat) : Option Crew := mapFind s.crews k

/-- The machine with a crew replaced. -/
def setCrew (s : State) (k : Nat) (c : Crew) : State := { s with crews := mapPut s.crews k c }

/-- A crew changed by `f`. -/
def modCrew (s : State) (k : Nat) (f : Crew → Crew) : State :=
  match crewAt s k with
  | some c => setCrew s k (f c)
  | none => s

/-- A launch changed by `f`. -/
def modLaunch (s : State) (n : Nat) (f : Launch → Launch) : State :=
  match mapFind s.launches n with
  | some l => { s with launches := mapPut s.launches n (f l) }
  | none => s

/-- A die's state. -/
def dieAt (s : State) (d : Nat) : Die := mapGet {} s.dies d

/-- A die changed by `f`. -/
def modDie (s : State) (d : Nat) (f : Die → Die) : State := { s with dies := mapMod {} s.dies d f }

/-- A line is requested, once (R51). -/
def addLine (l : List LineReq) (h : Handle) (line : Nat) : List LineReq :=
  if l.any fun r => r.h == h && r.line == line then l else l ++ [{ h := h, line := line }]

/-- A quad's state. -/
def quadAt (s : State) (q : Nat) : Quad := mapGet {} s.quads q

/-- A quad changed by `f`. -/
def modQuad (s : State) (q : Nat) (f : Quad → Quad) : State := { s with quads := mapMod {} s.quads q f }

/-- The lull level of a quad (R208, R333, R394): the larger of the package power level and the largest level of the
contexts that serve it. -/
def lullOf (s : State) (q : Nat) : Nat :=
  s.te.foldl (fun m c => if c.2.served.contains q then max m c.2.l else m) s.plvl.toNat

/-- Whether the package runs (R381, R392): it is READY, and neither off nor in STANDBY. -/
def ready (s : State) : Bool := s.phase == 7#4 && !s.off && s.pwrState != 2#2

/-- A message leaves the package. -/
def emit (s : State) (m : OutMsg) : State := { s with out := s.out ++ [m] }

/-- What a doubleword of the MSI-X table reads as before a write: every vector masked, its address and data zero (log entry 79). -/
def msixReset (k : Nat) : BitVec 64 := if k % 2 = 1 then 1#64 <<< 32 else 0#64

/-- A doubleword of the MSI-X table. -/
def msixWord (s : State) (k : Nat) : BitVec 64 := mapGet (msixReset k) s.msix k

/-- Whether a vector is masked: bit 32 of its entry's second doubleword. -/
def msixMasked (s : State) (vec : Nat) : Bool := (msixWord s (2 * vec + 1)).getLsbD 32

/-- Whether a vector's message is pending. -/
def msixPending (s : State) (vec : Nat) : Bool := (mapGet 0#64 s.pba (vec / 64)).getLsbD (vec % 64)

/-- A vector's bit of the pending-bit array. -/
def setPending (s : State) (vec : Nat) (b : Bool) : State :=
  let w := mapGet 0#64 s.pba (vec / 64)
  let m := 1#64 <<< (vec % 64)
  { s with pba := mapSet 0#64 s.pba (vec / 64) (if b then w ||| m else w &&& ~~~m) }

/-- An MSI-X message (R290, R298, R373): it leaves, or waits as a pending bit while its vector is masked (log entry 79). -/
def sendMsi (s : State) (vec : Nat) : State :=
  if msixMasked s vec then setPending s vec true else emit s (.msi vec)

/-- A write of a doubleword of the MSI-X table; a message that is pending leaves once its vector is not masked. -/
def writeMsix (s : State) (k : Nat) (v : BitVec 64) : State :=
  let s1 := { s with msix := mapSet (msixReset k) s.msix k v }
  if msixPending s1 (k / 2) && !msixMasked s1 (k / 2) then emit (setPending s1 (k / 2) false) (.msi (k / 2)) else s1

/-- A flit leaves on the Ovlan port of its destination, a multicast group or 256 + a package: discarded at a port that is down,
waiting at one that trains (R374; log entry 66). -/
def sendFlit (s : State) (dest : Nat) (m : OutMsg) : State :=
  let p := Config.ovlPort dest
  let x := mapGet {} s.ovl p
  if x.down then s
  else if x.training then { s with ovl := mapSet {} s.ovl p { x with wait := x.wait ++ [m] } }
  else emit s m

/-- The MSC logs an event in its event log: a code of the model's own and a detail. -/
def logEvent (s : State) (code detail : Nat) : State :=
  { s with msc := { s.msc with events := s.msc.events ++ [(code, detail)] } }

/-- A count with a key raised by one, saturating at 2^32 - 1 (R378). -/
def countUp (l : List (CounterKey × Nat)) (k : CounterKey) (n top : Nat) : List (CounterKey × Nat) :=
  match l with
  | [] => [(k, min n top)]
  | (k', v) :: r => if k' = k then (k, min (v + n) top) :: r else (k', v) :: countUp r k n top

/-- The largest value of a lifetime counter (Table 18.11): ISOLATE has 16 bits, the ticks of THERM_FREEZE 48. -/
def counterTop (k : CounterKey) : Nat :=
  if k.1 = 8 then 2 ^ 16 - 1 else if k.1 = 6 ∧ k.2.2 = 1 then 2 ^ 48 - 1 else 2 ^ 32 - 1

/-- A lifetime counter of the MSC counts in RAM (R378). -/
def mscCount (s : State) (k : CounterKey) (n : Nat) : State :=
  { s with msc := { s.msc with ram := countUp s.msc.ram k n (counterTop k) } }

/-! ## Registers -/

/-- A failed check of an instruction: its cause, DETAIL, and the access that met it. -/
structure Trapped where
  cause : Cause
  detail : BitVec 16 := 0
  fault : Option MemFault := none
deriving DecidableEq, Repr

/-- A check or a read: a value, or the trap it raises. -/
abbrev Chk (α : Type) := Except Trapped α

/-- The trap of a cause with no detail. -/
def trapOf {α : Type} (c : Cause) : Chk α := .error { cause := c }

/-- The trap of a cause with a detail. -/
def trapWith {α : Type} (c : Cause) (d : Nat) : Chk α := .error { cause := c, detail := BitVec.ofNat 16 d }

/-- A map with the entries of another laid over it. -/
def layMap {α : Type} (old new : FMap α) : FMap α := new.foldl (fun m p => mapPut m p.1 p.2) old

/-- Register files with the registers that a strand has written laid over what stood there. -/
def layRegs (old new : Regs) : Regs :=
  { x := layMap old.x new.x, c := layMap old.c new.c, p := layMap old.p new.p, v := layMap old.v new.v
    t := layMap old.t new.t, sx := layMap old.sx new.sx }

/-- A strand leaves its core: its registers stay there until others overwrite them (R240, R243). -/
def leaveCore (s : State) (core : Nat) (st : Strand) : State :=
  { s with cores := mapMod {} s.cores core fun c => { c with left := layRegs c.left st.r } }

/-- Whether the scalar stream's names x24 to x31 mean the shadow bank (R78): ACT = 1, seen from the scalar stream. -/
def shadowOn (st : Strand) (e : Engine) (n : Nat) : Bool := e == .S && st.sys.uistat.getLsbD 1 && decide (24 ≤ n)

/-- tag_read of a tagged value under a generation and mode (R46): zero or STALE_READ where it is not current. -/
def tagRead {α : Type} (gtrap : Bool) (cgen gen : Gen) (val zero : α) : Chk α :=
  if gen = cgen then .ok val else if gtrap then trapOf .staleRead else .ok zero

/-- A read of an x register (R64, R67, R84). -/
def readX (st : Strand) (e : Engine) (r : XReg) : Chk DWord :=
  if r = 0#5 then .ok 0#64
  else
    let v := if shadowOn st e r.toNat then mapGet {} st.r.sx r.toNat else mapGet {} st.r.x r.toNat
    tagRead st.gtrap st.cgen v.gen v.val 0#64

/-- A write of an x register, discarded for x0 (R64). -/
def writeX (st : Strand) (e : Engine) (r : XReg) (d : DWord) : Strand :=
  if r = 0#5 then st
  else if shadowOn st e r.toNat then
    { st with r := { st.r with sx := mapSet {} st.r.sx r.toNat { gen := st.cgen, val := d } } }
  else { st with r := { st.r with x := mapSet {} st.r.x r.toNat { gen := st.cgen, val := d } } }

/-- A read of a capability register (R46, R90). -/
def readC (st : Strand) (r : CReg) : Chk CapBits :=
  let v := mapGet {} st.r.c r.toNat
  tagRead st.gtrap st.cgen v.gen v.val 0#128

/-- A write of a capability register. -/
def writeC (st : Strand) (r : CReg) (d : CapBits) : Strand :=
  { st with r := { st.r with c := mapSet {} st.r.c r.toNat { gen := st.cgen, val := d } } }

/-- ROTSZ's size in registers (Table 3.7). -/
def rotSize (code : BitVec 2) : Nat :=
  match code.toNat with
  | 0 => 0
  | 1 => 8
  | 2 => 16
  | _ => 32

/-- The register that a vector name means (R20): names 32 to 31 + ROTSZ rotate by VRB. -/
def rotV (st : Strand) (n : Nat) : Nat :=
  let z := rotSize st.sys.rotsz
  if 32 ≤ n ∧ n < 32 + z then 32 + (n - 32 + st.sys.vrb.toNat) % z else n

/-- The register that a predicate name means (R20): names 16 to 15 + min(ROTSZ, 16) rotate by VRB. -/
def rotP (st : Strand) (n : Nat) : Nat :=
  let z := min (rotSize st.sys.rotsz) 16
  if 16 ≤ n ∧ n < 16 + z then 16 + (n - 16 + st.sys.vrb.toNat) % z else n

/-- A read of a predicate; p0 reads all ones (R64). -/
def readP (st : Strand) (r : PReg) : Chk PBits :=
  if r = 0#5 then .ok (BitVec.allOnes 1024)
  else
    let v := mapGet {} st.r.p (rotP st r.toNat)
    tagRead st.gtrap st.cgen v.gen v.val 0#1024

/-- A write of a predicate, discarded for p0. -/
def writeP (st : Strand) (r : PReg) (d : PBits) : Strand :=
  if r = 0#5 then st
  else { st with r := { st.r with p := mapSet {} st.r.p (rotP st r.toNat) { gen := st.cgen, val := d } } }

/-- A vector source: its format tag (void where it is read as zero, R67) and its bytes. -/
structure VSrc where
  fmt : BitVec 4
  val : VBits
deriving DecidableEq, Repr

/-- The vector register that a name means. -/
def vecReg (st : Strand) (r : VReg) : VVal := mapGet {} st.r.v (rotV st r.toNat)

/-- A read of a vector register (R67, R69). -/
def readV (st : Strand) (r : VReg) : Chk VSrc :=
  let v := vecReg st r
  tagRead st.gtrap st.cgen v.gen { fmt := v.fmt, val := v.val } { fmt := 15#4, val := 0#4096 }

/-- A read of a vector source that may name a bypass entry (R14, R35). -/
def readVB (st : Strand) (r : VReg) (byp : Bool) : Chk VSrc :=
  if byp then
    match st.r.byp[r.toNat]? with
    | some b => .ok { fmt := b.fmt, val := b.val }
    | none => trapOf .bypassEmpty
  else readV st r

/-- BYPASS_EMPTY of a source comes before every other check (Table 3.10, execution 1). -/
def bypCheck (st : Strand) (l : List (VReg × Bool)) : Chk Unit :=
  if l.any fun p => p.2 && st.r.byp[p.1.toNat]?.isNone then trapOf .bypassEmpty else .ok ()

/-- A whole write of a vector register. -/
def writeVReg (st : Strand) (n : Nat) (fmt : BitVec 4) (d : VBits) : Strand :=
  { st with r := { st.r with v := mapSet {} st.r.v n { gen := st.cgen, fmt := fmt, val := d } } }

/-- A result enters the bypass at w0 (R15). -/
def pushByp (st : Strand) (fmt : BitVec 4) (d : VBits) : Strand :=
  { st with r := { st.r with byp := ({ fmt := fmt, val := d } :: st.r.byp).take 3 } }

/-! ## Tokens -/

/-- The count of a token queue (R62). -/
def tkCount (st : Strand) (q : Nat) : Nat := (mapGet [] st.toks q).length

/-- The union of two orders. -/
def Know.join (a b : Know) : Know := { s := max a.s b.s, v := max a.v b.v, m := max a.m b.m, c := max a.c b.c }

/-- The number of a stream's accesses an order covers. -/
def Know.of (k : Know) (e : Engine) : Nat :=
  match e with
  | .S => k.s
  | .V => k.v
  | .M => k.m
  | .C => k.c

/-- The order that covers `n` accesses of a stream as well. -/
def Know.bump (k : Know) (e : Engine) (n : Nat) : Know :=
  match e with
  | .S => { k with s := n }
  | .V => { k with v := n }
  | .M => { k with m := n }
  | .C => { k with c := n }

/-- Whether every queue of a set holds a token. -/
def canPop (st : Strand) (m : BitVec 16) : Bool := (bitList 16 m).all fun q => decide (1 ≤ tkCount st q)

/-- Whether every queue of a set has room (R46: at most 14). -/
def canPush (st : Strand) (m : BitVec 16) : Bool := (bitList 16 m).all fun q => decide (tkCount st q ≤ 14)

/-- One token of a queue is taken, the oldest (R274). -/
def pop1 (st : Strand) (q : Nat) : Strand × Know :=
  match mapGet [] st.toks q with
  | [] => (st, {})
  | k :: r => ({ st with toks := mapSet [] st.toks q r }, k)

/-- tk_pop of a set whose queues hold tokens: one of each, the stream ordered after their pushes. -/
def popSet (st : Strand) (e : Engine) (m : BitVec 16) : Strand :=
  (bitList 16 m).foldl (fun st q =>
    let r := pop1 st q
    let x := streamOf r.1 e
    setStream r.1 e { x with know := x.know.join r.2 }) st

/-- tk_push of a set whose queues have room. -/
def pushSet (st : Strand) (m : BitVec 16) (k : Know) : Strand :=
  (bitList 16 m).foldl (fun st q => { st with toks := mapMod [] st.toks q (· ++ [k]) }) st

/-- The pop set of a pattern (R44). -/
def popOf (pat : BitVec 32) : BitVec 16 := pat.extractLsb' 0 16
/-- The push set of a pattern (R44). -/
def pushOf (pat : BitVec 32) : BitVec 16 := pat.extractLsb' 16 16

/-- The pattern that a TK field names; 0 for none. -/
def patternOf (st : Strand) (tk : Tk) : BitVec 32 := if tk = 0#4 then 0#32 else mapGet 0#32 st.sys.tkp tk.toNat

/-- The pattern of the instruction at a stream's counter (R45): the one it read when it issued, or the one it would read
now. -/
def patOf (st : Strand) (e : Engine) (tk : Tk) : BitVec 32 :=
  if (streamOf st e).popped then (streamOf st e).pat else patternOf st tk

/-- R44: every popped queue has consumer E; every pushed queue has producer E and is not external. -/
def patternOk (e : Engine) (pat : BitVec 32) : Bool :=
  ((bitList 16 (popOf pat)).all fun q => q % 4 == e.num) &&
  ((bitList 16 (pushOf pat)).all fun q => q / 4 == e.num && q % 4 != e.num)

/-! ## Pushes that wait -/

/-- The lowest number of the strand's stores that are not performed. -/
def oldestStore (st : Strand) : Nat := st.stores.foldl (fun m w => min m w.seq) st.storeSeq

/-- The pushes of a stream's earlier instructions that are still to come, in program order (R177, R250). -/
def ordOf (st : Strand) (e : Engine) : List OrdPush :=
  match e with
  | .M => st.mats
  | .C => st.copyPush
  | _ => []

/-- A stream's waiting push is performed where it may be (R46, R62): every earlier push of the stream is, and its queues
have room. An empty set has nothing to wait for. The stream goes on, ends, or stands at its safe point. -/
def tryPush (st : Strand) (e : Engine) : Strand :=
  let x := streamOf st e
  match x.push with
  | none => st
  | some p =>
    if x.tr.isSome ∨ (p.mask ≠ 0#16 ∧ (ordOf st e).isEmpty = false) then st
    else if canPush st p.mask then
      let st1 := pushSet st p.mask p.know
      let st2 := setStream st1 e { x with push := none, st := if p.after = .stop then .ended else .issuing }
      match p.after with
      | .safe lm => { st2 with safe := some lm }
      | _ => st2
    else setStream st e { x with st := .tokenWait, waitSet := p.mask, waitN := 1 }

/-- The pushes at the head of a stream's order whose instructions have finished (R177, R250). -/
def flushOrd (st : Strand) (l : List OrdPush) : Strand × List OrdPush :=
  match l with
  | [] => (st, [])
  | o :: r => if o.fin && canPush st o.mask then flushOrd (pushSet st o.mask o.know) r else (st, o :: r)

/-- The external pushes that full queues hold (R62). -/
def flushExt (st : Strand) (l : List ExtPush) : Strand × List ExtPush :=
  match l with
  | [] => (st, [])
  | o :: r =>
    if tkCount st o.q ≤ 14 then flushExt { st with toks := mapMod [] st.toks o.q (· ++ [o.know]) } r
    else
      let z := flushExt st r
      (z.1, o :: z.2)

/-- Every push of the strand that may be performed, is: after a pop makes room or an instruction finishes. -/
def settlePushes (st : Strand) : Strand :=
  let c := flushOrd { st with copyPush := [] } st.copyPush
  let st1 := { c.1 with copyPush := c.2 }
  let m := flushOrd { st1 with mats := [] } st1.mats
  let st2 := { m.1 with mats := m.2 }
  let x := flushExt { st2 with ext := [] } st2.ext
  let st3 := { x.1 with ext := x.2 }
  tryPush (tryPush (tryPush (tryPush st3 .S) .V) .M) .C

/-- The finished instruction of a stream that waits in its tk_push for room: its push set and its group. A matrix or
copy stream's is the first of its order (R46, R63). -/
def pushWaiter (st : Strand) (e : Engine) : Option PushWait :=
  match (streamOf st e).push, ordOf st e with
  | _, o :: _ =>
    if o.fin && !canPush st o.mask then
      some { mask := o.mask, know := o.know, addr := o.addr, gaddr := o.gaddr, words := o.words } else none
  | some p, [] => if canPush st p.mask then none else some p
  | none, [] => none

/-- Whether a waiting tk_push holds a stream whose next instruction has not issued (R46). -/
def heldByPush (st : Strand) (e : Engine) : Bool := (pushWaiter st e).isSome && !(streamOf st e).popped

/-- The state of a stream (Table 3.1): an instruction that waits in its tk_push holds it in Token wait. -/
def stateOf (st : Strand) (e : Engine) : SState :=
  let x := streamOf st e
  if x.st ≠ .ended ∧ heldByPush st e = true then .tokenWait else x.st

/-- The program counter of a stream as software and a save see it: an instruction that waits to push is still the
stream's (R46, R396). -/
def pcOf (st : Strand) (e : Engine) : BitVec 32 :=
  let x := streamOf st e
  if heldByPush st e then ((pushWaiter st e).map (·.gaddr)).getD x.pc else (x.push.map (·.gaddr)).getD x.pc

/-! ## Taking a trap -/

/-- The save area that a strand owns (R307). -/
def ownerOf (st : Strand) : Owner := { die := crewDie st.crew, slot := crewSlot st.crew, rank := st.rank }

/-- The lease of a quad ends if the core holds it (R180). -/
def endLease (s : State) (core : Nat) : State :=
  let q := quadAt s (quadOf core)
  match q.lease with
  | some l => if l.core = core then modQuad s (quadOf core) fun q => { q with lease := none } else s
  | none => s

/-- A plane current for a strand (R182). -/
def planeCur (p : Plane) (core : Nat) (st : Strand) : Bool :=
  p.gen == st.cgen && p.core.toNat == coreInQuad core

/-- The strand's planes are held for it (R204). -/
def holdPlanes (s : State) (core : Nat) (st : Strand) : State :=
  let f := fun (p : Plane) => if planeCur p core st then { p with held := some (ownerOf st) } else p
  modQuad s (quadOf core) fun q => { q with
    pa := f q.pa
    pb := f q.pb }

/-- S, the slots of a region (R170). -/
def Region.slots (g : Region) : Nat := 2 ^ g.slog

/-- A row current for the strand (R186). -/
def rowCur (s : State) (core : Nat) (st : Strand) (row : Nat) : Bool :=
  let w := mapGet {} (quadAt s (quadOf core)).rows row
  w.gen == st.cgen && w.core.toNat == coreInQuad core

/-- Whether a configured region of the strand covers a row. -/
def rowIn (st : Strand) (r : Nat) : Bool :=
  st.regions.any fun p => decide (p.2.base ≤ r) && decide (r < p.2.base + p.2.rows * p.2.slots)

/-- Whether a row is live in a context image: configured and current (R204). -/
def rowLive (s : State) (core : Nat) (st : Strand) (r : Nat) : Bool :=
  rowIn st r && rowCur s core st r

/-- The strand's configured rows are held for it (R204). -/
def holdRows (s : State) (core : Nat) (st : Strand) : State :=
  modQuad s (quadOf core) fun q => { q with
    rows := q.rows.map fun p =>
      if rowLive s core st p.1 then (p.1, { p.2 with held := some (ownerOf st) }) else p }

/-- The strand takes back its rows that are held in place. -/
def takeRows (s : State) (core : Nat) (st : Strand) : State :=
  modQuad s (quadOf core) fun q => { q with
    rows := q.rows.map fun p => if p.2.held = some (ownerOf st) then (p.1, { p.2 with held := none }) else p }

/-- What a freeze or a save does to a core's use of its array: the lease ends, a request for it is withdrawn, the planes and
configured rows are held (R180, R204). -/
def leaveArray (s : State) (core : Nat) : State :=
  let s1 := modQuad (endLease s core) (quadOf core) fun q => { q with waits := mapErase q.waits (coreInQuad core) }
  match strandAt s1 core with
  | none => s1
  | some st =>
    let x := streamOf st .M
    holdRows (holdPlanes (setStrand s1 core (setStream st .M { x with arrived := false })) core st) core st

/-- A crew freezes where it stands (R77, Table 14.8): it remembers the state it left, and its leases end. -/
def freezeCrew (s : State) (k : Nat) : State :=
  match crewAt s k with
  | none => s
  | some c =>
    if c.st = .running ∨ c.st = .stopping then
      let s1 := setCrew s k { c with
        st := .frozen
        remembered := c.st }
      c.cores.foldl leaveArray s1
    else s

/-- How a stream stands under its record (R77, R396): at its group's first word with its tk_pop done or not, or at its
push. The record of a copy that has issued leaves the stream's own next instruction as it stands (R267). -/
def recordStream (x : Stream) (e : Engine) (r : TrapRec) : Stream :=
  let y := { x with
    tr := some r
    st := if x.st = .ended then SState.ended else .issuing }
  if e = .C ∧ r.mid = true then y
  else
    { y with
      pc := if r.pushp then x.pc else r.gaddr
      popped := if r.pushp then x.popped else r.popped
      opnd := if r.mid then x.opnd else none
      asked := false
      ans := none }

/-- A trap handled by the supervisor (R75 to R77): the record of the stream is written, the crew freezes, and one
fault queue entry is due. -/
def takeTrap (s : State) (core : Nat) (e : Engine) (r : TrapRec) : State :=
  match strandAt s core with
  | none => s
  | some st =>
    let x1 := recordStream (streamOf st e) e r
    let st1 := setStream st e x1
    let s1 := setStrand s core st1
    let s2 := freezeCrew s1 st.crew
    modCrew s2 st.crew fun c => { c with
      entryDue := true
      traps := c.traps ++ [(st.rank, e.num)] }

/-- The trap of the instruction that issues: its record from the group under way (R76). -/
def trapNow (s : State) (core : Nat) (e : Engine) (t : Trapped) (popped mid : Bool) : State :=
  takeTrap s core e
    { cause := t.cause, detail := t.detail, popped := popped, mid := mid, addr := s.grp.addr, gaddr := s.grp.gaddr
      words := s.grp.words.take 5, fault := t.fault }

/-- Progress of a crew for its watchdog (R317). -/
def noteProgress (s : State) (k : Nat) : State :=
  modCrew s k fun c => { c with progress := s.frame.toNat, stallRep := false }

/-- The next value of the counter that a free value is drawn with (log entry 7). -/
def drawFresh (s : State) : Nat × State := (s.fresh, { s with fresh := s.fresh + 1 })

/-- One of several things that may happen next, as a free value chooses (log entry 7). -/
def chooseOf {α : Type} (s : State) (l : List α) : Option α × State :=
  match l with
  | [] => (none, s)
  | [x] => (some x, s)
  | x :: r =>
    let d := drawFresh s
    (some ((x :: r).getD (Config.freeBits d.1 % (x :: r).length) x), d.2)

/-- The entry of a space in the space table. -/
def spaceReg (s : State) (n : Nat) : Space := mapGet {} s.spaces n

/-- The entry of a space that accesses go by: the table's as the last OTINV of the whole space found it (R389). -/
def spaceAt (s : State) (n : Nat) : Space := mapGet {} s.inForce n

end Sys2Proof.Machine
end

