-- ==== Sys2Proof/Machine/Mem.lean ====
section
/-! DEFINITION. Physical memory behind its controllers (R227, R232, R237 to R239, R272, R358 to R366): granules and
their guards, write queues, translation through object tables, and the accesses a memory port performs. -/
namespace Sys2Proof.Machine
open Sys2Proof

/-! ## Bytes and granules -/

/-- The byte at a physical address. -/
def memByte (m : Memory) (a : Nat) : Byte := mapGet Memory.blank m a

/-- `n` bytes from an address. -/
def memBytes (m : Memory) (a n : Nat) : List Byte :=
  let w := m.filter fun p => decide (a ≤ p.1) && decide (p.1 < a + n)
  (List.range n).map fun i => memByte w (a + i)

/-- The entries that bytes from an address have: those that differ from what an unlisted address reads as. -/
def memCells (a : Nat) : List Byte → Memory
  | [] => []
  | b :: r => if b = Memory.blank then memCells (a + 1) r else (a, b) :: memCells (a + 1) r

/-- Bytes written from an address. -/
def memPut (m : Memory) (a : Nat) (l : List Byte) : Memory :=
  m.filter (fun p => decide (p.1 < a)) ++ memCells a l ++ m.filter (fun p => decide (a + l.length ≤ p.1))

/-- The 64 bytes of granule `g`. -/
def memGran (m : Memory) (g : Nat) : Granule := ofBytes 512 (memBytes m (64 * g) 64)

/-- Bytes `off` to `off + n - 1` of a granule. -/
def granBytes (v : Granule) (off n : Nat) : List Byte := (List.range n).map fun i => v.extractLsb' (8 * (off + i)) 8

/-- A granule with bytes replaced from `off` on. -/
def granPut (v : Granule) (off : Nat) : List Byte → Granule
  | [] => v
  | b :: r => granPut (setElem 8 v off b) (off + 1) r

/-- The byte mask of `n` bytes from `off`. -/
def maskOf (off n : Nat) : BitVec 64 := BitVec.ofNat 64 ((2 ^ n - 1) <<< off)

/-- `a` with the bytes of a mask taken from `b`. -/
def mergeGran (a b : Granule) (mask : BitVec 64) : Granule :=
  ofBytes 512 ((List.range 64).map fun i => if mask.getLsbD i then b.extractLsb' (8 * i) 8 else a.extractLsb' (8 * i) 8)

/-- The bytes of its granule that a store writes. -/
def StoreW.mask (w : StoreW) : BitVec 64 := w.en.getD (maskOf (w.pa % 64) w.bytes.length)

/-- A store's bytes at their places in its granule. -/
def StoreW.gran (w : StoreW) : Granule := granPut 0#512 (w.pa % 64) w.bytes

/-- Two stores to one granule as one (R137). -/
def StoreW.join (v w : StoreW) : StoreW :=
  { v with
    pa := v.pa / 64 * 64
    bytes := granBytes (mergeGran v.gran w.gran w.mask) 0 64
    en := some (v.mask ||| w.mask)
    more := v.more ++ w.bound :: w.more }

/-- Whether two stores are parts of one instruction's write of a granule (R137), whatever their parts are bound to. -/
def StoreW.mates (v w : StoreW) : Bool :=
  v.sid == w.sid && v.stream == w.stream && v.idx == w.idx && v.tier == w.tier && v.loc == w.loc && v.obj == w.obj &&
  v.pa / 64 == w.pa / 64

/-! ## Controllers and guards -/

/-- A controller changed by `f`. -/
def modCtl (s : State) (c : Nat) (f : MemCtl → MemCtl) : State := { s with ctls := mapMod {} s.ctls c f }

/-- An access that needs a controller's device: in self-refresh it holds the action that makes it (R367). -/
def touchDev (s : State) (c : Nat) : State := { s with stall := s.stall || (mapGet {} s.ctls c).hot }

/-- A saturating count of 32 bits. -/
def satInc32 (x : BitVec 32) : BitVec 32 := if x = BitVec.allOnes 32 then x else x + 1

/-- What a read of a granule yields (R360). -/
inductive MemRes where
  | ok (v : Granule)
  | poison
  | integrity
deriving DecidableEq, Repr

/-- The month bin of the lifetime histogram CE_MONTH (Table 18.11), from the hours of POWERON. -/
def monthBin (s : State) : Nat :=
  let h := ((s.msc.ram ++ s.msc.committed).filter fun p => p.1.1 = 0).foldl (fun n p => n + p.2) 0
  min 119 (h / 730)

/-- Guard bits [63:0] (Table 18.1). -/
def guardWord (tag : BitVec 48) (kd : BitVec 6) (p : Bool) : BitVec 64 := tag ++ 0#6 ++ kd ++ 0#3 ++ BitVec.ofBool p

/-- The TAG of a granule under the present key of a domain (R358). -/
def tagOf (s : State) (g : Nat) (v : Granule) (kd : BitVec 6) (p : Bool) : BitVec 48 :=
  Config.kmac (Config.key s.resets kd) (64 * g) v kd p

/-- The guard of a granule written whole under a domain (R358, R359). -/
def newGuard (s : State) (g : Nat) (v : Granule) (kd : BitVec 6) (p : Bool) : Guard :=
  let t := tagOf s g v kd p
  { check := Config.rsCheck v (guardWord t kd p), tag := t, kd := some kd, p := p }

/-- Step 1 of R360: the data and guard bits of a granule whose syndrome is zero, or as one corrected symbol makes them; none
where no single symbol can be corrected. The flag tells a correction. -/
def syndrome (v : Granule) (w : BitVec 64) (check : BitVec 32) : Option (Granule × BitVec 64 × Bool) :=
  if check = Config.rsCheck v w then some (v, w, false)
  else (Config.rsFix v w check).map fun x => (x.1, x.2, true)

/-- Whether KD and TAG of a decoded granule fit an access under a domain; the scrubber has none of its own (R360, step 3). -/
def tagFits (s : State) (g : Nat) (v : Granule) (w : BitVec 64) (dom : Option (BitVec 6)) : Bool :=
  let kd := bits w 4 6
  dom.all (· == kd) && w.extractLsb' 16 48 == tagOf s g v kd (w.getLsbD 0)

/-- A read that decodes to POISON is counted and logged (R360). -/
def countUe (s : State) (ctrl g : Nat) : State :=
  logEvent (mscCount (modCtl s ctrl fun c => { c with ue := satInc32 c.ue }) (2, ctrl, 0) 1) 1 (64 * g)

/-- A read that decodes to INTEGRITY is counted and logged (R360). -/
def countInt (s : State) (ctrl g : Nat) : State :=
  logEvent (mscCount (modCtl s ctrl fun c => { c with int := satInc32 c.int }) (3, ctrl, 0) 1) 2 (64 * g)

/-- A corrected read is counted (R360). -/
def countCe (s : State) (ctrl : Nat) : State :=
  mscCount (modCtl s ctrl fun c => { c with ce := satInc32 c.ce }) (1, ctrl, monthBin s) 1

/-- Whether a granule's stored form takes a correction. -/
def correctable (s : State) (g : Nat) : Bool :=
  let gd := mapGet {} s.guards g
  match gd.kd with
  | none => false
  | some kd => (syndrome (memGran s.mem g) (guardWord gd.tag kd gd.p) gd.check).any fun x => x.2.2

/-- R360: a granule as its device and guard hold it, decoded under an access domain (none for the scrubber); the
counters of the controller and the MSC. A granule that nothing has written has no guard to check (log entry 4). -/
def devRead (s : State) (ctrl g : Nat) (dom : Option (BitVec 6)) : MemRes × State :=
  let gd := mapGet {} s.guards g
  let v := memGran s.mem g
  match gd.kd with
  | none => (.ok v, s)
  | some kd =>
    match syndrome v (guardWord gd.tag kd gd.p) gd.check with
    | none => (.poison, countUe s ctrl g)
    | some (v1, w, corrected) =>
      if w.getLsbD 0 then (.poison, countUe s ctrl g)
      else if tagFits s g v1 w dom then (.ok v1, if corrected then countCe s ctrl else s)
      else (.integrity, countInt s ctrl g)

/-- A whole granule written to the device under a domain: its guard is new (R358, R359). -/
def devWrite (s : State) (g : Nat) (v : Granule) (dom : BitVec 6) (p : Bool) : State :=
  { s with
    mem := memPut s.mem (64 * g) (granBytes v 0 64)
    guards := mapSet {} s.guards g (newGuard s g v dom p) }

/-! ## Stores that wait -/

/-- A store of a strand is performed, or fails for a reason (R106, R286): it leaves the strand's or its launch's list. A write
of a store that has been reported leaves no other failure to report. -/
def storeDone (s : State) (sid seq : Nat) (fail : Option Nat) : State :=
  let upd := fun (l : List StoreW) => l.filter fun w => !(w.sid == sid && w.seq == seq)
  let fl := fun (l : List StoreW) => match fail with
    | none => []
    | some r => (l.filter fun w => w.sid == sid && w.seq == seq && !w.told).map fun w =>
        ({ n := s.nfail, sid := w.sid, stream := w.stream, idx := w.idx, reason := r, obj := w.obj, ogen := w.ogen
           off := w.off, bound := w.bound, more := w.more } : FailedW)
  { s with
    nfail := if fail.isSome then s.nfail + 1 else s.nfail
    strands := s.strands.map fun p =>
      if p.2.sid = sid then
        (p.1, settlePushes { p.2 with stores := upd p.2.stores, failed := p.2.failed ++ fl p.2.stores })
      else p
    launches := s.launches.map fun p =>
      if p.2.stores.any (fun w => w.sid == sid) then
        (p.1, { p.2 with stores := upd p.2.stores, failed := p.2.failed ++ fl p.2.stores })
      else p }

/-- Every writer merged into an entry is acknowledged. -/
def ackAll (s : State) (l : List (Nat × Nat)) (fail : Option Nat) : State :=
  match l with
  | [] => s
  | w :: r => ackAll (storeDone s w.1 w.2 fail) r fail

/-- Entries of a channel's write queue (R361). -/
def wqDepth : Nat := 64

/-- Whether two granules of a controller lie in one channel. -/
def sameChannel (ctrl a b : Nat) : Bool := a == b || Config.channel ctrl a == Config.channel ctrl b

/-- The granules of a controller's state whose entries stand in a granule's channel, oldest first. -/
def chanOrder (c : MemCtl) (ctrl g : Nat) : List Nat := c.order.filter (sameChannel ctrl g)

/-- A channel enters drain mode (R361). -/
def enterDrain (c : MemCtl) (ch : Nat) : MemCtl := if c.drain.contains ch then c else { c with drain := ch :: c.drain }

/-- R361: a controller's entry leaves its queue; its channel's drain mode ends at 16. -/
def dropEntry (s : State) (g : Nat) (e : WqEntry) : State :=
  let s1 := { s with wq := mapErase s.wq g }
  modCtl s1 e.ctrl fun c =>
    let c1 := { c with order := c.order.filter (· != g) }
    { c1 with drain := c1.drain.filter fun ch => decide (16 < (chanOrder c1 e.ctrl g).length) || ch != Config.channel e.ctrl g }

/-- R363: a pending entry is written to the device, by a read-modify-write where its mask is partial; a decode that
fails fails its writers with REASON 3. -/
def drainEntry (s : State) (g : Nat) : State :=
  match mapFind s.wq g with
  | none => s
  | some e =>
    let s1 := touchDev (dropEntry s g e) e.ctrl
    if e.mask = BitVec.allOnes 64 then ackAll (devWrite s1 g e.val e.dom e.p) e.writers none
    else
      match devRead s1 e.ctrl g (some e.dom) with
      | (.ok v, s2) => ackAll (devWrite s2 g (mergeGran v e.val e.mask) e.dom false) e.writers none
      | (_, s2) => ackAll (logEvent s2 3 (64 * g)) e.writers (some 3)

/-- The entries of a granule's channel that are older than its own are written (R364). -/
def drainOlder (s : State) (g : Nat) (e : WqEntry) : State :=
  (((mapGet {} s.ctls e.ctrl).order.takeWhile (· != g)).filter (sameChannel e.ctrl g)).foldl drainEntry s

/-- A granule's entry is written after the older ones of its channel (R364). -/
def drainTo (s : State) (g : Nat) : State :=
  match mapFind s.wq g with
  | none => s
  | some e => drainEntry (drainOlder s g e) g

/-- A channel in drain mode serves its writes, oldest first, before any read (R361, R364); with fuel. -/
def serveC1 (fuel : Nat) (s : State) (ctrl g : Nat) : State :=
  match fuel with
  | 0 => s
  | f + 1 =>
    let c := mapGet {} s.ctls ctrl
    if c.drain.any (· == Config.channel ctrl g) then
      match chanOrder c ctrl g with
      | [] => s
      | h :: _ => serveC1 f (drainEntry s h) ctrl g
    else s

/-- A scrub write-back gives way to a demand write (R366). -/
def yieldScrub (s : State) (ctrl : Nat) : State :=
  mscCount (modCtl s ctrl fun c => { c with yield := satInc32 c.yield }) (4, ctrl, 0) 1

/-- A demand write cancels its granule's scrub write-back that has not entered the queue (R366). -/
def cancelPend (s : State) (ctrl g : Nat) : State :=
  if (mapGet {} s.ctls ctrl).pend.contains g then
    yieldScrub (modCtl s ctrl fun c => { c with pend := c.pend.filter (· != g) }) ctrl
  else s

/-- R361, R366: a write enters its channel's queue, merging with a pending entry of its granule; it cancels the
granule's scrub write-back. -/
def enqueueWrite (s : State) (ctrl g : Nat) (mask : BitVec 64) (v : Granule) (p : Bool) (dom : BitVec 6)
    (writers : List (Nat × Nat)) : State :=
  let s0 := cancelPend s ctrl g
  match mapFind s0.wq g with
  | some e =>
    let s1 := if e.scrub then yieldScrub s0 ctrl else s0
    let base := if e.scrub then { e with mask := 0, val := 0, p := false } else e
    let e1 : WqEntry :=
      { ctrl := e.ctrl, mask := base.mask ||| mask, val := mergeGran base.val v mask
        p := if mask = BitVec.allOnes 64 then p else base.p, dom := dom, writers := base.writers ++ writers }
    { s1 with wq := mapPut s1.wq g e1 }
  | none =>
    let s1 := { s0 with wq := mapPut s0.wq g { ctrl := ctrl, mask := mask, val := v, p := p, dom := dom,
                                               writers := writers } }
    modCtl s1 ctrl fun c =>
      let c1 := { c with order := c.order ++ [g] }
      if 48 ≤ (chanOrder c1 ctrl g).length then enterDrain c1 (Config.channel ctrl g) else c1

/-- Whether a write to a granule finds its channel's queue full (R361): every entry taken, and none of its own granule. -/
def wqFull (s : State) (ctrl g : Nat) : Bool :=
  (mapFind s.wq g).isNone && decide (wqDepth ≤ (chanOrder (mapGet {} s.ctls ctrl) ctrl g).length)

/-- A write that finds its queue full waits until the oldest entry has been served (R361); at a device in self-refresh the
action that makes it waits (R367). -/
def makeRoom (s : State) (ctrl g : Nat) : State :=
  if wqFull s ctrl g then
    if (mapGet {} s.ctls ctrl).hot then { s with stall := true }
    else ((chanOrder (mapGet {} s.ctls ctrl) ctrl g).take 1).foldl drainEntry s
  else s

/-- R362: a read of a granule under a domain, after the writes that drain mode puts before it, and after its pending entry
where that is partial. -/
def granRead (s : State) (ctrl g : Nat) (dom : BitVec 6) : MemRes × State :=
  let s0 := serveC1 wqDepth (touchDev s ctrl) ctrl g
  match mapFind s0.wq g with
  | some e =>
    if e.mask = BitVec.allOnes 64 then (if e.p then .poison else .ok e.val, s0)
    else devRead (drainTo s0 g) ctrl g (some dom)
  | none => devRead s0 ctrl g (some dom)

/-- A write that its writer sees performed or failed at once. It enters its channel's queue (R361); one that leaves its entry
partial is a read-modify-write at once, and a decode that fails is the writer's failure (R363). Gives the failure's REASON. -/
def granWrite (s : State) (ctrl g : Nat) (mask : BitVec 64) (v : Granule) (p : Bool) (dom : BitVec 6) :
    Option Nat × State :=
  let s1 := enqueueWrite (makeRoom (touchDev s ctrl) ctrl g) ctrl g mask v p dom []
  match mapFind s1.wq g with
  | none => (none, s1)
  | some e =>
    if e.mask = BitVec.allOnes 64 then (none, s1)
    else
      let s2 := drainOlder s1 g e
      match (devRead s2 ctrl g (some e.dom)).1 with
      | .ok _ => (none, drainEntry s2 g)
      | _ => (some 3, drainEntry s2 g)

/-! ## Physical accesses, under domain 0 (R359) -/

/-- R375: a boundary that is down stands between a die and a place. -/
def boundaryCut (s : State) (die tier loc : Nat) : Bool :=
  (s.bnds.filter fun b => b.2.down).any fun b =>
    Config.crosses die tier loc b.1

/-- The die that the host windows and the MSC reach memory from: an IOD (log entry 78). -/
def iodDie : Nat := 4

/-- Whether a boundary that is down stands between a die and the host port, which is CXL port 0 (R373, R375). -/
def hostCut (s : State) (die : Nat) : Bool := boundaryCut s die 2 0

/-- Whether a boundary that is down stands between a die and a physical address (R375). -/
def physCut (s : State) (die a : Nat) : Bool :=
  let c := Config.physCtrl a
  boundaryCut s die (if c < 4 then 0 else 1) (if c < 4 then c else (c - 4) / 8)

/-- Bytes that a die reads by physical address, within one granule; none where the read is refused. -/
def physRead (s : State) (die a n : Nat) : Option (List Byte) × State :=
  if physCut s die a then (none, s)
  else
    match granRead s (Config.physCtrl a) (a / 64) 0#6 with
    | (.ok v, s1) => (some (granBytes v (a % 64) n), s1)
    | (_, s1) => (none, s1)

/-- Bytes that a die writes by physical address, within one granule; false where the write fails. -/
def physWrite (s : State) (die a : Nat) (l : List Byte) : Bool × State :=
  if physCut s die a then (false, s)
  else
    let v := granPut 0#512 (a % 64) l
    match granWrite s (Config.physCtrl a) (a / 64) (maskOf (a % 64) l.length) v false 0#6 with
    | (none, s1) => (true, s1)
    | (some _, s1) => (false, s1)

/-- Bytes written by physical address across granules, in order; false where some write fails. -/
def physWriteAll (s : State) (die a : Nat) (l : List (List Byte)) : Bool × State :=
  match l with
  | [] => (true, s)
  | x :: r =>
    let w := physWrite s die a x
    let z := physWriteAll w.2 die (a + x.length) r
    (w.1 && z.1, z.2)

/-- A list cut into pieces of `n`, with fuel. -/
def chunks {α : Type} (n : Nat) (fuel : Nat) (l : List α) : List (List α) :=
  match fuel with
  | 0 => []
  | f + 1 => if l.isEmpty then [] else l.take n :: chunks n f (l.drop n)

/-- Granules that a die reads by physical address; none where some read is refused. -/
def physReadAll (s : State) (die a : Nat) (n : Nat) : Option (List Granule) × State :=
  match n with
  | 0 => (some [], s)
  | k + 1 =>
    match physRead s die a 64 with
    | (some v, s1) =>
      match physReadAll s1 die (a + 64) k with
      | (some l, s2) => (some (ofBytes 512 v :: l), s2)
      | (none, s2) => (none, s2)
    | (none, s1) => (none, s1)

/-! ## Translation (R224 to R229) -/

/-- Object table entry fields (Table 11.4). -/
def oeV (e : BitVec 256) : Bool := e.getLsbD 0
/-- KIND: 0 contiguous, 1 paged, 2 sparse. -/
def oeKind (e : BitVec 256) : Nat := fieldOf e 1 2
/-- PGSZ. -/
def oePgsz (e : BitVec 256) : Nat := fieldOf e 3 2
/-- TIER: 0 STAGE, 1 BULK, 2 POOL. -/
def oeTier (e : BitVec 256) : Nat := fieldOf e 5 2
/-- LOC. -/
def oeLoc (e : BitVec 256) : Nat := fieldOf e 7 4
/-- EXEC. -/
def oeExec (e : BitVec 256) : Bool := e.getLsbD 11
/-- GEN. -/
def oeGen (e : BitVec 256) : Nat := fieldOf e 48 16
/-- LEN. -/
def oeLen (e : BitVec 256) : Nat := fieldOf e 64 40
/-- BASE. -/
def oeBase (e : BitVec 256) : Nat := fieldOf e 128 64
/-- SIDE. -/
def oeSide (e : BitVec 256) : Nat := fieldOf e 192 64

/-- The page size of an entry. -/
def pageSize (e : BitVec 256) : Nat :=
  match oePgsz e with
  | 0 => 8192
  | 1 => 65536
  | 2 => 2097152
  | _ => 67108864

/-- The page index of an offset; 0 in a contiguous extent (R235). -/
def pageIdx (e : BitVec 256) (off : Nat) : Nat := if oeKind e = 0 then 0 else off / pageSize e

/-- Whether an entry holds a reserved value, or names what CAPS marks absent (R227). -/
def oeBad (s : State) (e : BitVec 256) : Bool :=
  !zeroBits e 12 36 || !zeroBits e 104 24 || oeKind e == 3 || oeTier e == 3 || (oeKind e == 0 && oePgsz e != 0) ||
  (oeTier e == 0 && decide (s.caps.nStacks.toNat ≤ oeLoc e)) ||
  (oeTier e == 1 && (decide (2 ≤ oeLoc e) || s.bulkSize == 0 || (decide (s.caps.dies.toNat ≤ 2) && oeLoc e != 0))) ||
  (oeTier e == 2 && decide (s.caps.cxlPorts.toNat ≤ oeLoc e)) ||
  (oeKind e == 2 && (oePgsz e != 0 || oeTier e != 0))

/-- Page entry fields (Table 11.5). -/
def peC (p : BitVec 64) : Bool := p.getLsbD 0
/-- CMP. -/
def peCmp (p : BitVec 64) : Nat := fieldOf p 2 2
/-- FRAME, as a frame number of 8 KiB. -/
def peFrame (p : BitVec 64) : Nat := fieldOf p 13 39

/-- Whether a page entry holds a reserved value (R225, R237). -/
def peBad (e : BitVec 256) (p : BitVec 64) : Bool :=
  !zeroBits p 52 12 || !zeroBits p 4 9 || !zeroBits p 1 1 || decide (2 ≤ peCmp p) ||
  (peCmp p != 0 && (oeKind e == 2 || decide (2 ≤ oePgsz e)))

/-- A CXL port's state. -/
def portAt (s : State) (p : Nat) : CxlPort := mapGet {} s.ports p

/-- R286: a port out of service: isolated, or left down. -/
def portOut (s : State) (p : Nat) : Bool := (portAt s p).state == 0#3 || (portAt s p).state == 2#3

/-- What a translation finds (R227). -/
inductive XRes where
  | ok (p : Place)
  | stale
  | uncommitted
  | refused
  | isolated
  | cut
deriving DecidableEq, Repr

/-- The controller of a place. -/
def ctrlOf (tier loc pa : Nat) : Nat :=
  match tier with
  | 0 => loc
  | 1 => 4 + loc * 8 + Config.bulkDevice pa % 8
  | _ => 20

/-- Four doublewords of a granule at a byte offset, as 256 bits. -/
def bytesToBits (n : Nat) (l : List Byte) : BitVec n := ofBytes n l

/-- The object table entry of a space's object, from the table in memory; none where the read is refused. -/
def readObt (s : State) (die space obj : Nat) : Option (BitVec 256) × State :=
  let sp := spaceAt s space
  if !sp.v then (none, s)
  else
    match physRead s die (sp.obt + 32 * obj) 32 with
    | (some l, s1) => (some (bytesToBits 256 l), s1)
    | (none, s1) => (none, s1)

/-- A cached object entry of a die's translation cache that covers an offset (R228). -/
def tcFind (d : Die) (space obj off : Nat) : Option Trans :=
  d.tc.find? fun t => t.space == space && t.obj == obj && t.page == pageIdx t.e off

/-- The object table entry of an access, through the translation cache, with the page entry where the cache holds it; from
memory on a miss; none where that read is refused. -/
def lookup (s : State) (die space obj off : Nat) : Option (BitVec 256 × Option (BitVec 64)) × State :=
  match tcFind (dieAt s die) space obj off with
  | some t => (some (t.e, some t.pe), s)
  | none =>
    match readObt s die space obj with
    | (some e, s1) => (some (e, none), s1)
    | (none, s1) => (none, s1)

/-- The page entry of an access: the cached one, or as memory holds it; none where the read is refused. -/
def pageEntry (s : State) (die : Nat) (e : BitVec 256) (off : Nat) (pe : Option (BitVec 64)) :
    Option (BitVec 64) × State :=
  match pe with
  | some p => (some p, s)
  | none =>
    match physRead s die (oeBase e + 8 * pageIdx e off) 8 with
    | (some l, s1) => (some (bytesToBits 64 l), s1)
    | (none, s1) => (none, s1)

/-- A translation that passed its checks is held in the die's cache of 4096 entries (R228). -/
def tcInsert (s : State) (die space obj off : Nat) (e : BitVec 256) (pe : BitVec 64) (side : Option Granule) : State :=
  match tcFind (dieAt s die) space obj off with
  | some _ => s
  | none =>
    let t : Trans := { space := space, obj := obj, page := pageIdx e off, e := e, pe := pe, side := side }
    modDie s die fun d => { d with tc := (t :: d.tc).take 4096 }

/-- The sidecar line of a page, held with its translation (R238), or read from memory. -/
def sideLine (s : State) (die space obj off : Nat) (e : BitVec 256) : Option Granule × State :=
  match (tcFind (dieAt s die) space obj off).bind Trans.side with
  | some g => (some g, s)
  | none =>
    match physRead s die (oeSide e + 64 * pageIdx e off) 64 with
    | (some v, s1) => (some (ofBytes 512 v), s1)
    | (none, s1) => (none, s1)

/-- R227 from the page entry on: the place of an offset of a paged or sparse object. -/
def translatePage (s : State) (die space obj off : Nat) (e : BitVec 256) (pe : BitVec 64) : XRes × State :=
  if peBad e pe then (.refused, s)
  else if !peC pe then (if oeKind e = 2 then .uncommitted else .refused, s)
  else
    let pg := pageSize e
    let pa := peFrame pe * 8192 + off % pg
    let pl : Place :=
      { pa := pa, tier := oeTier e, loc := oeLoc e, ctrl := ctrlOf (oeTier e) (oeLoc e) pa, dom := (spaceAt s space).kdom
        side := if oeKind e = 2 then some (oeSide e + 64 * pageIdx e off) else none }
    if peCmp pe = 0 then (.ok pl, tcInsert s die space obj off e pe none)
    else if oeTier e ≠ 0 ∨ s.caps.hcmp = false then (.refused, s)
    else
      match sideLine s die space obj off e with
      | (none, s2) => (.refused, s2)
      | (some g, s2) => (.ok { pl with zmask := some (g, peFrame pe * 8192, off % pg) },
          tcInsert s2 die space obj off e pe (some g))

/-- R227: the memory port's translation of an access of `size` bytes at offset `off` of an object, for a die; `off` is
within the object (cap.BASE included). `done` tells that the access's CXL request has completed, so that the state of its port
no longer bars it (R356, R370). -/
def translateIn (s : State) (done : Bool) (die space obj ogen off size : Nat) : XRes × State :=
  if !(spaceAt s space).v then (.refused, s)
  else
  match lookup s die space obj off with
  | (none, s1) => (.refused, s1)
  | (some (e, pe), s1) =>
    if !oeV e || oeGen e != ogen || ogen == 0 then (.stale, s1)
    else if oeBad s1 e || decide (oeLen e < off + size) then (.refused, s1)
    else if oeTier e == 2 && !done && portOut s1 (oeLoc e) then (.isolated, s1)
    else if boundaryCut s1 die (oeTier e) (oeLoc e) then (.cut, s1)
    else if oeKind e = 0 then
      let pa := oeBase e + off
      (.ok { pa := pa, tier := oeTier e, loc := oeLoc e, ctrl := ctrlOf (oeTier e) (oeLoc e) pa,
             dom := (spaceAt s1 space).kdom }, tcInsert s1 die space obj off e (pe.getD 0#64) none)
    else
      match pageEntry s1 die e off pe with
      | (none, s2) => (.refused, s2)
      | (some p, s2) => translatePage s2 die space obj off e p

/-- The translation of an access that has sent no CXL request or needs none. -/
def translateAt (s : State) (die space obj ogen off size : Nat) : XRes × State := translateIn s false die space obj ogen off size

/-! ## Access queues (R228) -/

/-- An access queue of a core. -/
def accQueue (s : State) (core q : Nat) : AccQueue := mapGet {} s.aq (8 * core + q)

/-- A die's translation cache replaced. -/
def setTc (s : State) (die : Nat) (l : List Trans) : State := modDie s die fun d => { d with tc := l }

/-- Whether a translation covers an offset of an object. -/
def Trans.covers (t : Trans) (space obj off : Nat) : Bool := t.space == space && t.obj == obj && t.page == pageIdx t.e off

/-- The first offset past a translation's page. -/
def Trans.pageEnd (t : Trans) : Nat := (t.page + 1) * pageSize t.e

/-- The following page, translated for NXT: what would trap or be refused is not raised here. -/
def nextTrans (s : State) (die space obj ogen off : Nat) : Option Trans × State :=
  let r := translateAt s die space obj ogen off 1
  match r.1 with
  | .ok _ => (tcFind (dieAt r.2 die) space obj off, r.2)
  | _ => (none, r.2)

/-- A queue whose access up to `off` uses a translation: it is CUR, and NXT holds the following page once the access comes
within NXD bytes of its end. -/
def advanceQueue (s : State) (core q : Nat) (t : Trans) (space obj ogen off : Nat) : State :=
  let x := accQueue s core q
  let put := fun (s : State) (n : Option Trans) => { s with aq := mapSet {} s.aq (8 * core + q) { cur := some t, nxt := n } }
  let die := dieOf core
  if x.cur = some t ∧ x.nxt.isSome = true then s
  else if oeKind t.e = 0 ∨ off + (dieAt s die).nxd < t.pageEnd then put s none
  else
    let r := nextTrans s die space obj ogen t.pageEnd
    put r.2 r.1

/-- A translation through an access queue: by CUR or NXT where one covers the access, else by the cache. -/
def queuePlace (s : State) (done : Bool) (core q space obj ogen off size : Nat) : XRes × State :=
  let die := dieOf core
  let x := accQueue s core q
  match (x.cur.toList ++ x.nxt.toList).find? fun t => t.covers space obj off with
  | some t =>
    let tc := (dieAt s die).tc
    let r := translateIn (setTc s die [t]) done die space obj ogen off size
    (r.1, advanceQueue (setTc r.2 die tc) core q t space obj ogen (off + size))
  | none =>
    let r := translateIn s done die space obj ogen off size
    match r.1, tcFind (dieAt r.2 die) space obj off with
    | .ok _, some t => (r.1, advanceQueue r.2 core q t space obj ogen (off + size))
    | _, _ => r

/-- The translation of an access of a core: by the cache, or through the access queue that serves its stream. -/
def portPlace (s : State) (done : Bool) (core : Nat) (via : Option Nat) (space obj ogen off size : Nat) : XRes × State :=
  match via with
  | none => translateIn s done (dieOf core) space obj ogen off size
  | some q => queuePlace s done core q space obj ogen off size

/-- Every translation cache and access queue drops some translations. -/
def dropTrans (s : State) (p : Trans → Bool) : State :=
  { s with
    dies := s.dies.map fun d => (d.1, { d.2 with tc := d.2.tc.filter fun t => !p t })
    aq := s.aq.filterMap fun x =>
      let y : AccQueue := { cur := x.2.cur.filter fun t => !p t, nxt := x.2.nxt.filter fun t => !p t }
      if y = {} then none else some (x.1, y) }

/-- A refusal is logged by the MSC (R227). -/
def refuseLog (s : State) (obj off : Nat) : State := logEvent s 4 (obj * 2 ^ 40 + off)

/-- The page of an access for a fault entry (R235). -/
def faultOf (s : State) (die space obj ogen off : Nat) : MemFault :=
  match readObt s die space obj with
  | (some e, _) => { obj := obj, ogen := ogen, off := off, page := pageIdx e off }
  | (none, _) => { obj := obj, ogen := ogen, off := off, page := 0 }

/-! ## Reading and writing a place -/

/-- R237: the 512 bytes of a ZMASK sector, from its stored form; none where the byte count disagrees with the map or
the code is reserved. -/
def zexpand (k : Nat) (l : List Byte) : Option (List Byte) :=
  match k with
  | 0 => some (List.replicate 512 0#8)
  | 8 => some (l.take 512)
  | _ =>
    if 8 < k then none
    else
      let map : BitVec 512 := ofBytes 512 (l.take 64)
      let data := (l.drop 64).take (64 * k - 64)
      let cnt := (bitList 512 map).length
      if 64 * k < 64 + cnt ∨ !((data.drop cnt).all (· == 0#8)) then none
      else
        some ((List.range 512).foldl (fun (acc : List Byte × List Byte) i =>
          if map.getLsbD i then (acc.1 ++ [acc.2.headD 0#8], acc.2.drop 1) else (acc.1 ++ [0#8], acc.2)) ([], data)).1

/-- Granules from `g` on, read under a domain; the first failure stands for all. -/
def granReads (s : State) (ctrl g n : Nat) (dom : BitVec 6) : Except MemRes (List Byte) × State :=
  match n with
  | 0 => (.ok [], s)
  | k + 1 =>
    match granRead s ctrl g dom with
    | (.ok v, s1) =>
      match granReads s1 ctrl (g + 1) k dom with
      | (.ok l, s2) => (.ok (granBytes v 0 64 ++ l), s2)
      | (.error r, s2) => (.error r, s2)
    | (r, s1) => (.error r, s1)

/-- What a read of a place's granule yields to its reader. -/
inductive PlRes where
  | ok (v : Granule)
  | poison
  | integrity
  | refused
deriving DecidableEq, Repr

/-- The whole granule that holds a place: a sparse granule not written reads as zero (R232); a compressed page is
expanded (R238); POOL is read as it stands there (R370). -/
def placeRead (s : State) (p : Place) : PlRes × State :=
  let lift := fun (r : MemRes × State) => match r with
    | (.ok v, s1) => (PlRes.ok v, s1)
    | (.poison, s1) => (PlRes.poison, s1)
    | (.integrity, s1) => (PlRes.integrity, s1)
  match p.zmask with
  | some (side, base, po) =>
    let sec := po / 512
    let k := fieldOf side (4 * sec) 4
    if 8 < k then (.refused, s)
    else
      match granReads s p.ctrl ((base + 512 * sec) / 64) k p.dom with
      | (.error .integrity, s1) => (.integrity, s1)
      | (.error _, s1) => (.poison, s1)
      | (.ok l, s1) =>
        match zexpand k l with
        | none => (.refused, s1)
        | some d => (.ok (ofBytes 512 ((d.drop (po % 512 / 64 * 64)).take 64)), s1)
  | none =>
    if p.tier = 2 then (.ok (memGran s.mem (p.pa / 64)), s)
    else
      match p.side with
      | none => lift (granRead s p.ctrl (p.pa / 64) p.dom)
      | some a =>
        match granRead s (Config.physCtrl a) (a / 64) 0#6 with
        | (.ok m, s1) =>
          if m.getLsbD (p.pa % 8192 / 64) then lift (granRead s1 p.ctrl (p.pa / 64) p.dom) else (.ok 0#512, s1)
        | (_, s1) => (.refused, s1)

/-- R232: the mask and bytes of a write to a sparse granule: the first write of a granule supplies all 64 bytes; none where
the sidecar cannot be read (R360). A write to a frame that a pgfree is returning is lost with the frame, and never fails
(R234). -/
def sparseFill (s : State) (side : Option Nat) (pa : Nat) (mask : BitVec 64) (v : Granule) :
    Option (BitVec 64 × Granule) × State :=
  match side with
  | none => (some (mask, v), s)
  | some a =>
    if s.dies.any (fun d => d.2.freeing.contains (pa / 8192)) then (some (BitVec.allOnes 64, mergeGran 0#512 v mask), s)
    else
      let bit := pa % 8192 / 64
      match granRead s (Config.physCtrl a) (a / 64) 0#6 with
      | (.ok m, s1) =>
        if m.getLsbD bit then (some (mask, v), s1)
        else
          (some (BitVec.allOnes 64, mergeGran 0#512 v mask),
            (granWrite s1 (Config.physCtrl a) (a / 64) (BitVec.allOnes 64) (m ||| (1#512 <<< bit)) false 0#6).2)
      | (_, s1) => (none, s1)

/-- The key of a strand's reads of a granule. -/
def seenKey (sid g : Nat) : Nat := 2 ^ 64 * sid + g

/-- A write to a place's granule takes its number, and what it takes away is kept for the strands that may still read it; its
own strand reads it or a later one (R272, R277, R281). -/
def noteWrite (s : State) (p : Place) (writer : Option Nat) : State :=
  if s.strands.any fun x => writer != some x.2.sid then
    let n := s.writes + 1
    let g := p.pa / 64
    let o := match (placeRead s p).1 with
      | .ok v => [({ gran := g, num := n, val := v, dom := p.dom, writer := writer } : OldVal)]
      | _ => []
    { s with
      writes := n
      old := s.old ++ o
      seen := match writer with
        | some sid => mapSet 0 s.seen (seenKey sid g) (n + 1)
        | none => s.seen }
  else s

/-- The older values of a place's granule that a read of a strand may return: those of its domain that the strand has not read
past, and that were taken away after every operation that orders the read; `orders` tells whether such an operation orders it
after a write of a strand (R277, R281). -/
def oldVals (s : State) (st : Strand) (p : Place) (orders : View → Option Nat → Bool) : List OldVal :=
  let lo := mapGet 0 s.seen (seenKey st.sid (p.pa / 64))
  s.old.filter fun o => o.gran == p.pa / 64 && o.dom == p.dom && decide (lo ≤ o.num) &&
    st.views.all fun v => !orders v o.writer || decide (v.since < o.num)

/-- What a read of a strand returns where the granule's present value is `v`: that value, or an older one that it may still
return, as a free value chooses (DESIGN CHOICE, log entry 86); the strand has then read past what came before. The read of an
atomic, `rmw`, finds the present value (R278). -/
def pickValue (s : State) (st : Strand) (p : Place) (rmw : Bool) (orders : View → Option Nat → Bool) (v : Granule) :
    Granule × State :=
  if s.old.any fun o => o.gran == p.pa / 64 then
    let put := fun (n : Nat) (s : State) => { s with seen := mapSet 0 s.seen (seenKey st.sid (p.pa / 64)) n }
    match if rmw then [] else oldVals s st p orders with
    | [] => (v, put (s.writes + 1) s)
    | l =>
      let d := drawFresh s
      match l[Config.freeBits d.1 % (l.length + 1)]? with
      | some o => (o.val, put o.num d.2)
      | none => (v, put (s.writes + 1) d.2)
  else (v, s)

/-- A write to the granule of a place that its writer sees performed or failed at once; gives the failure's REASON. A
compressed page refuses it (R238); a poisoned granule goes to POOL as poisoned (R370). -/
def putPlace (s : State) (p : Place) (mask : BitVec 64) (v : Granule) (poison : Bool) : Option Nat × State :=
  if p.zmask.isSome then (some 2, s)
  else if p.tier = 2 then
    let s1 := { s with mem := memPut s.mem (p.pa / 64 * 64) (granBytes (mergeGran (memGran s.mem (p.pa / 64)) v mask) 0 64) }
    (none, if poison then emit s1 (.poisoned p.loc (p.pa / 64 * 64)) else s1)
  else
    match sparseFill s p.side p.pa mask v with
    | (none, s1) => (some 2, s1)
    | (some f, s1) => granWrite s1 p.ctrl (p.pa / 64) f.1 f.2 poison p.dom

/-- A write of a party that is no strand to the granule of a place. -/
def placeWrite (s : State) (p : Place) (mask : BitVec 64) (v : Granule) (poison : Bool) : Option Nat × State :=
  putPlace (noteWrite s p none) p mask v poison

/-- A granule as a read of it that decodes finds it. -/
def granPeek (s : State) (g : Nat) : Granule :=
  let gd := mapGet {} s.guards g
  let dev : Granule := match gd.kd.bind fun kd => syndrome (memGran s.mem g) (guardWord gd.tag kd gd.p) gd.check with
    | some x => x.1
    | none => memGran s.mem g
  match mapFind s.wq g with
  | some e => mergeGran dev e.val e.mask
  | none => dev

/-- Bytes of a doubleword or an entry as reads that decode find them, within one granule. -/
def peekBits (n : Nat) (s : State) (a : Nat) : BitVec n := ofBytes n (granBytes (granPeek s (a / 64)) (a % 64) (n / 8))

/-- The write of an atomic of a strand whose read has decoded (R363): it enters a write of the whole granule; false where it is
refused. -/
def atomicWrite (s : State) (sid : Nat) (p : Place) (mask : BitVec 64) (v : Granule) : Bool × State :=
  let s0 := noteWrite s p (some sid)
  if p.zmask.isSome || p.tier == 2 then
    let w := putPlace s0 p mask v false
    (w.1.isNone, w.2)
  else
    match sparseFill s0 p.side p.pa mask v with
    | (none, s1) => (false, s1)
    | (some f, s1) =>
      let g := p.pa / 64
      (true, enqueueWrite (makeRoom s1 p.ctrl g) p.ctrl g (BitVec.allOnes 64) (mergeGran (granPeek s1 g) f.2 f.1) false p.dom [])

/-! ## A strand's accepted stores -/

/-- The place of a store. -/
def StoreW.place (w : StoreW) : Place :=
  { pa := w.pa, tier := w.tier.toNat, loc := w.loc, ctrl := ctrlOf w.tier.toNat w.loc w.pa, dom := w.dom, side := w.side }

/-- An accepted store reaches its home (MC_WRITE, or POOL's completion): it enters its channel's queue, once that has room,
or is performed at the expander. -/
def enterStore (s : State) (w : StoreW) : State :=
  let v := w.gran
  let mask := w.mask
  let s0 := noteWrite s w.place (some w.sid)
  if w.tier = 2#2 then
    let g := w.pa / 64
    storeDone { s0 with mem := memPut s0.mem (64 * g) (granBytes (mergeGran (memGran s0.mem g) v mask) 0 64) } w.sid w.seq none
  else
    let c := ctrlOf w.tier.toNat w.loc w.pa
    match sparseFill s0 w.side w.pa mask v with
    | (none, s1) => storeDone (refuseLog s1 w.obj w.off) w.sid w.seq (some 2)
    | (some f, s1) => enqueueWrite (makeRoom s1 c (w.pa / 64)) c (w.pa / 64) f.1 f.2 false w.dom [(w.sid, w.seq)]

/-- Every accepted store that no home has performed. -/
def allStores (s : State) : List StoreW := s.strands.flatMap (fun p => p.2.stores) ++ s.launches.flatMap fun l => l.2.stores

/-- A store of the strand that no queue holds yet. -/
def unqueued (s : State) (w : StoreW) : Bool :=
  match mapFind s.wq (w.pa / 64) with
  | some e => !e.writers.contains (w.sid, w.seq)
  | none => true

/-- The stores of a list that may reach their homes next: a strand's stores to one granule keep their order (po-loc, R274,
R277), all others may pass each other. -/
def mayEnter (l : List StoreW) : List StoreW :=
  (l.foldl (fun (a : List (Nat × Nat) × List StoreW) w =>
    let k := (w.sid, w.pa / 64)
    if a.1.contains k then a else (k :: a.1, a.2 ++ [w])) ([], [])).2

/-- Every accepted store of a strand to a granule is performed: a later access of the strand to it follows it
(po-loc, R274). POOL stores wait for their completions instead. -/
def flushGran (s : State) (st : Strand) (g : Nat) : State :=
  let l := st.stores.filter fun w => w.pa / 64 == g && w.tier != 2#2
  if l.isEmpty then s
  else drainTo ((l.filter (unqueued s)).foldl enterStore s) g

end Sys2Proof.Machine
end

