-- ==== Sys2Proof/Machine/Groups.lean ====
section
/-! DEFINITION. Barrier groups and the crew barrier: membership, phases, arrivals and leaving (R107, R294, R318). -/
namespace Sys2Proof.Machine
open Sys2Proof

/-- The strands of a crew, with their cores. -/
def strandsOf (s : State) (k : Nat) : List (Nat × Strand) := s.strands.filter fun p => p.2.crew == k

/-- The fields of a group table entry: V, RANKS and the bounds (R294). -/
def groupV (g : BitVec 128) : Bool := g.getLsbD 127
/-- RANKS. -/
def groupRanks (g : BitVec 128) : BitVec 16 := bits g 96 16
/-- The inclusive bounds of a dimension: 0 X, 1 Y, 2 Z. -/
def groupLo (g : BitVec 128) (d : Nat) : Nat := fieldOf g (32 * d) 16
/-- The upper bound of a dimension. -/
def groupHi (g : BitVec 128) (d : Nat) : Nat := fieldOf g (32 * d + 16) 16

/-- Whether a strand of the given coordinates and rank is a member (R294). -/
def groupHas (g : BitVec 128) (c : Nat × Nat × Nat) (rank : Nat) : Bool :=
  groupV g && decide (groupLo g 0 ≤ c.1 ∧ c.1 ≤ groupHi g 0 ∧ groupLo g 1 ≤ c.2.1 ∧ c.2.1 ≤ groupHi g 1 ∧
    groupLo g 2 ≤ c.2.2 ∧ c.2.2 ≤ groupHi g 2) && (groupRanks g).getLsbD rank

/-- How many of `ext` coordinates lie within the bounds of a dimension. -/
def groupSpan (g : BitVec 128) (d ext : Nat) : Nat :=
  if groupLo g d < ext then min (groupHi g d) (ext - 1) + 1 - groupLo g d else 0

/-- The number of members of a group in one copy of a launch (R294). -/
def groupSize (a : LaunchArgs) (g : BitVec 128) : Nat :=
  groupSpan g 0 (a.gx.toNat + 1) * groupSpan g 1 (a.gy.toNat + 1) * groupSpan g 2 (a.gz.toNat + 1) *
    (bitList (a.size.toNat + 1) (groupRanks g)).length

/-- The number of a member within its launch copy. -/
def memberId (a : LaunchArgs) (c : Nat × Nat × Nat) (rank : Nat) : Nat :=
  (c.1 + (a.gx.toNat + 1) * (c.2.1 + (a.gy.toNat + 1) * c.2.2)) * 16 + rank

/-- The crew and launch of a strand. -/
def crewLaunch (s : State) (st : Strand) : Option (Crew × Launch) :=
  match crewAt s st.crew with
  | none => none
  | some c => (mapFind s.launches c.launch).map fun l => (c, l)

/-- The strands on cores that are members of a group in a strand's copy of the launch. -/
def groupOn (s : State) (c : Crew) (g : BitVec 128) : List (Nat × Strand) :=
  s.strands.filter fun p => ((crewAt s p.2.crew).map fun d =>
    d.launch == c.launch && d.copy == c.copy && groupHas g d.coord p.2.rank).getD false

/-- The group scope: the smallest that holds every member (R107); a member that stands on no core may come to any die. -/
def groupScope (s : State) (st : Strand) (g : Nat) : Nat :=
  match crewLaunch s st with
  | none => 4
  | some (c, l) =>
    let gr := mapGet 0#128 l.groups g
    let on := groupOn s c gr
    let same := fun (f : Nat × Strand → Nat) => on.all fun p => on.all fun q => f p == f q
    if groupSize l.args gr = 1 then 0
    else if on.length < groupSize l.args gr then 4
    else if same fun p => p.2.crew then 1
    else if same fun p => clusterOf p.1 then 2
    else if same fun p => dieOf p.1 then 3
    else 4

/-- The key of a group's phase in a launch copy. -/
def phaseKey (copy g : Nat) : Nat := copy * 256 + g

/-- A group's phase completes when every member has arrived or is leaving (R107, R318). -/
def settlePhase (s : State) (n copy g : Nat) : State :=
  modLaunch s n fun l =>
    let p := mapGet (0, []) l.phases (phaseKey copy g)
    let lv := mapGet [] l.left (phaseKey copy g)
    let total := groupSize l.args (mapGet 0#128 l.groups g)
    if total ≤ (p.2 ++ lv.filter fun m => !p.2.contains m).length ∧ p.2 ≠ [] then
      { l with phases := mapSet (0, []) l.phases (phaseKey copy g) (p.1 + 1, []) }
    else l

/-- The groups of a strand. -/
def groupsOf (l : Launch) (c : Crew) (st : Strand) : List Nat :=
  (l.groups.filter fun p => groupHas p.2 c.coord st.rank).map Prod.fst

/-- The members of a crew on its cores whose scalar stream has not ended and that have not arrived. -/
def barrierMissing (s : State) (k : Nat) (arr : List Nat) : Bool :=
  (strandsOf s k).any fun p => (streamOf p.2 .S).st != .ended && !arr.contains p.2.rank

/-- The crew barrier's phase completes when every member has arrived or has ended its scalar stream (R107, R318). -/
def settleCrewBarrier (s : State) (k : Nat) : State :=
  modCrew s k fun c =>
    if c.barArr ≠ [] ∧ barrierMissing s k c.barArr = false then { c with barPhase := c.barPhase + 1, barArr := [] }
    else c

/-- What the end of a strand's scalar stream does to its barriers: it counts as an arrival in every phase (R318). -/
def leaveBarriers (s : State) (core : Nat) : State :=
  match strandAt s core with
  | none => s
  | some st =>
    let s1 := settleCrewBarrier s st.crew
    match crewLaunch s1 st with
    | none => s1
    | some (c, l) =>
      (groupsOf l c st).foldl (fun s g =>
        settlePhase (modLaunch s c.launch fun l =>
          let k := phaseKey c.copy g
          { l with left := mapSet [] l.left k (mapGet [] l.left k ++ [memberId l.args c.coord st.rank]) })
          c.launch c.copy g) s1

end Sys2Proof.Machine
end

