-- ==== Sys2Proof/Machine/Exec.lean ====
section
/-! DEFINITION. How an engine instruction issues, takes its effect, waits, traps and finishes (R46, R61, R75, R271,
R312, R396, R398): the one frame around every meaning of the four streams. -/
namespace Sys2Proof.Machine
open Sys2Proof

/-! ## Strands, crews and launches that come to their end -/

/-- The number of crews in one copy of a launch's grid (R295). -/
def gridSize (a : LaunchArgs) : Nat := (a.gx.toNat + 1) * (a.gy.toNat + 1) * (a.gz.toNat + 1)

/-- The places of a launch's copies: its home die, or the clusters of its mask (R296). -/
def launchPlaces (l : Launch) : List Nat :=
  match l.mask with
  | none => [l.die]
  | some m => bitList 96 m

/-- Whether every crew of a launch has been dispatched. -/
def allDispatched (l : Launch) : Bool :=
  (List.range (launchPlaces l).length).all fun c => decide (gridSize l.args ≤ mapGet 0 l.next c)

/-- The crews of a launch. -/
def crewsOf (s : State) (n : Nat) : List (Nat × Crew) := s.crews.filter fun c => c.2.launch == n

/-- Whether a crew stands off its cores: it waits to be restored (Table 14.8). -/
def crewAway (c : Crew) : Bool := c.st == .suspended || c.st == .waiting || c.st == .restoring

/-- The state of a dispatching, running or draining launch follows its crews (Table 14.7). -/
def settleLaunch (s : State) (n : Nat) : State :=
  match mapFind s.launches n with
  | none => s
  | some l =>
    if l.st = .held ∨ l.st = .complete then s
    else
      let cs := crewsOf s n
      let st : LaunchState :=
        if !allDispatched l || cs.any (fun c => crewAway c.2) then .dispatching
        else if cs.isEmpty then .draining
        else .running
      modLaunch s n fun l => { l with st := st }

/-- A crew whose every strand has retired ends (R312): its cores and its slot are released; the stores its strands
still have under way, and the failures no fence reported, pass to the launch (R210, R328). -/
def endCrew (s : State) (k : Nat) : State :=
  match crewAt s k with
  | none => s
  | some c =>
    let ms := strandsOf s k
    if (c.st = .running ∨ c.st = .stopping) ∧ ms.all (fun p => p.2.retired) = true ∧ ms ≠ [] then
      let s0 := ms.foldl (fun s p => leaveCore s p.1 p.2) s
      let s1 := { s0 with
        strands := s.strands.filter fun p => p.2.crew != k
        crews := mapErase s.crews k }
      let s2 := modLaunch s1 c.launch fun l =>
        { l with
          stores := l.stores ++ ms.flatMap fun p => p.2.stores
          failed := l.failed ++ ms.flatMap fun p => p.2.failed }
      settleLaunch s2 c.launch
    else s

/-- Whether R61 retires a strand: four streams Ended, no copy outstanding. -/
def mayRetire (st : Strand) : Bool :=
  ([Engine.S, .V, .M, .C].all fun e => (streamOf st e).st == .ended) && st.copies.isEmpty

/-- A strand whose scalar stream has ended leaves its barriers, once (R107, R318). -/
def settleEnd (s : State) (core : Nat) : State :=
  match strandAt s core with
  | none => s
  | some st =>
    if (streamOf st .S).st == .ended && !st.gone then
      leaveBarriers (setStrand s core { st with gone := true }) core
    else s

/-- A strand that may retire does, its regions are unconfigured and its zones disarmed (R206, R262), and its crew may end (R61,
R312). -/
def settleRetire (s : State) (core : Nat) : State :=
  match strandAt s core with
  | none => s
  | some st =>
    if mayRetire st && !st.retired then
      endCrew (setStrand s core { st with
        retired := true
        regions := []
        zones := [] }) st.crew
    else s

/-- At a safe point the lease ends once the matrix stream's issued instructions have finished, and a request for one is
withdrawn (R319). -/
def settleSafe (s : State) (core : Nat) : State :=
  match strandAt s core with
  | none => s
  | some st =>
    if st.safe.isSome && st.mats.all (·.fin) && !awaits (streamOf st .M) then leaveArray s core else s

/-- After a change to a strand: pushes that may be performed are, and what follows from an ended stream takes place. -/
def settle (s : State) (core : Nat) : State :=
  settleRetire (settleEnd (modStrand s core settlePushes) core) core

/-! ## The frame of an instruction -/

/-- What a meaning's body answers: it finishes and falls through; a taken transfer to a checked target, where
the instruction there may have popped already, under a pattern read then (R45, R396); stores that the memory port has
accepted, which performs them at strand scope (R271, R272); an end or a safe point after its push; a trap; a wait after the
tk_pop in Sync wait; a wait for a memory answer. -/
inductive Eff where
  | fin (s : State)
  | jump (s : State) (target : BitVec 32)
  | resume (s : State) (target : BitVec 32) (popped arrived : Bool) (pat : BitVec 32)
  | stored (s : State)
  | after (s : State) (a : AfterPush)
  | trap (s : State) (t : Trapped)
  | trapMid (s : State) (t : Trapped)
  | wait (s : State)
  | hold (s : State)
deriving Repr

/-- The stream that acts, if the machine's current party is a stream of that engine with a strand. -/
def actor (s : State) (e : Engine) : Option (Nat × Strand) :=
  match s.cur with
  | .stream core e' => if e' = e then (strandAt s core).map fun st => (core, st) else none
  | _ => none

/-- An instruction of S or V has finished: the stream goes on to `pc`, once its push set is pushed. -/
def finishSV (s : State) (core : Nat) (e : Engine) (pat : BitVec 32) (pc : BitVec 32) (a : AfterPush) : State :=
  modStrand (modStrand s core fun st =>
    let x := streamOf st e
    let p : PushWait :=
      { mask := pushOf pat, know := x.know, addr := s.grp.addr, gaddr := s.grp.gaddr, words := s.grp.words, after := a }
    setStream st e
      { x with
        pc := pc
        st := .issuing
        popped := false
        arrived := false
        asked := false
        ans := none
        opnd := none
        push := some p }) core fun st => tryPush st e

/-- An instruction of M or C that does not hold its stream has issued: the stream goes on to `pc`. Its push, if any,
stands in the stream's order. -/
def passMC (s : State) (core : Nat) (e : Engine) (pc : BitVec 32) : State :=
  modStream s core e fun x =>
    { x with
      pc := pc
      st := .issuing
      popped := false
      arrived := false
      asked := false
      ans := none
      opnd := none }

/-- The end of an instruction's turn: the effect becomes the next state. -/
def closeEff (core : Nat) (e : Engine) (pat : BitVec 32) (r : Eff) : State :=
  let done := fun (s : State) =>
    match strandAt s core with
    | some st => settle (noteProgress s st.crew) core
    | none => s
  match r with
  | .fin s => done (finishSV s core e pat s.grp.next .go)
  | .jump s t => done (finishSV s core e pat t .go)
  | .resume s t p a r =>
    done (modStream (finishSV s core e pat t .go) core e fun x => { x with popped := p, arrived := a, pat := r })
  | .stored s => done (finishSV s core e pat s.grp.next .go)
  | .after s a => done (finishSV s core e pat s.grp.next a)
  | .trap s t => settle (trapNow s core e t true false) core
  | .trapMid s t => settle (trapNow s core e t true true) core
  | .wait s => settle (modStream s core e fun x => { x with st := .syncWait }) core
  | .hold s => s

/-- A stream waits in a tk_pop or a tkwait for `n` tokens of each queue of a set (R63). -/
def tokenWait (st : Strand) (e : Engine) (m : BitVec 16) (n : BitVec 4) (ws : List Word) : Strand :=
  setStream st e { streamOf st e with
    st := .tokenWait
    waitSet := m
    waitN := n
    waitWords := ws }

/-- The tk_pop of an instruction of a pattern (R45, R46): done already, done now, or waiting. -/
def popStep (s : State) (core : Nat) (e : Engine) (st : Strand) (pat : BitVec 32) : Except State (State × Strand) :=
  let x := streamOf st e
  if x.popped then .ok (s, st)
  else if canPop st (popOf pat) then
    let st1 := popSet st e (popOf pat)
    let x1 := streamOf st1 e
    let st2 := settlePushes (setStream st1 e { x1 with popped := true, pat := pat, st := .issuing })
    .ok (setStrand s core st2, st2)
  else .error (setStrand s core (tokenWait st e (popOf pat) 1 s.grp.words))

/-- The frame of every engine instruction: the decode checks that need the machine's state (`pre`), the pattern (row
13 of Table 2.2), the tk_pop, then the body, then the push (R46, R75). -/
def issuePre (e : Engine) (tk : Tk) (pre : State → Nat → Strand → Option Trapped)
    (body : State → Nat → Strand → Eff) (s : State) : Out :=
  match actor s e with
  | none => .fault .noStrand
  | some (core, st) =>
    match pre s core st with
    | some t => .next (settle (trapNow s core e t false false) core)
    | none =>
      let pat := patOf st e tk
      if !patternOk e pat then .next (settle (trapNow s core e { cause := .tokenPattern } false false) core)
      else
        match popStep s core e st pat with
        | .error s1 => .next s1
        | .ok (s1, st1) => .next (closeEff core e pat (body s1 core st1))

/-- The frame with no further decode check. -/
def issue (e : Engine) (tk : Tk) (body : State → Nat → Strand → Eff) (s : State) : Out :=
  issuePre e tk (fun _ _ _ => none) body s

/-- The checks of a body: a trap ends it with the state as it was. -/
def orTrap {α : Type} (s : State) (c : Chk α) (k : α → Eff) : Eff :=
  match c with
  | .ok a => k a
  | .error t => .trap s t

/-- A body that reads scalar sources, computes, and writes one scalar destination. -/
def finX (s : State) (core : Nat) (e : Engine) (st : Strand) (xd : XReg) (v : DWord) : Eff :=
  .fin (setStrand s core (writeX st e xd v))

/-- Two scalar sources. -/
def readX2 (st : Strand) (e : Engine) (a b : XReg) : Chk (DWord × DWord) := do
  let x ← readX st e a
  let y ← readX st e b
  .ok (x, y)

/-- A checked transfer target (R50): within the stream's image, a multiple of 4. DESIGN CHOICE (log entry 87): of one that fails
both, FETCH_BOUND is reported. -/
def checkTarget (s : State) (st : Strand) (e : Engine) (t : Nat) : Chk (BitVec 32) :=
  let len := match (crewAt s st.crew).bind fun c => mapFind s.launches c.launch with
    | some l => mapGet 0 l.k.len e.num
    | none => 0
  if len ≤ t then trapOf .fetchBound
  else if t % 4 ≠ 0 then trapOf .fetchMisaligned
  else .ok (BitVec.ofNat 32 t)

/-- R50 on a relative target. -/
def checkRel {w : Nat} (s : State) (st : Strand) (e : Engine) (off : BitVec w) : Chk (BitVec 32) :=
  let t : Int := (s.grp.addr.toNat : Int) + 4 * off.toInt
  if t < 0 then trapOf .fetchBound else checkTarget s st e t.toNat

end Sys2Proof.Machine
end

