-- ==== Sys2Proof/Machine/Access.lean ====
section
/-! DEFINITION. The accesses of a strand: capabilities (R46, R220), global reads and writes through the memory port
(R92, R93, R227, R286, R398), the scratchpad and the crew window (R83, R94, R219), and bindings (R102). -/
namespace Sys2Proof.Machine
open Sys2Proof

/-! ## Capabilities (Table 11.2) -/

/-- OBJ. -/
def capObj (c : CapBits) : Nat := fieldOf c 104 24
/-- OGEN. -/
def capOgen (c : CapBits) : Nat := fieldOf c 88 16
/-- RIGHTS. -/
def capRights (c : CapBits) : BitVec 8 := bits c 80 8
/-- LEN. -/
def capLen (c : CapBits) : Nat := fieldOf c 40 40
/-- BASE. -/
def capBase (c : CapBits) : Nat := fieldOf c 0 40

/-- The rights of Table 11.3, by their bit in the rights byte. -/
inductive Right where
  | r | w | x | a | d | l | m
deriving DecidableEq, Repr

/-- The bit of a right. -/
def Right.bit : Right → Nat
  | .r => 7 | .w => 6 | .x => 5 | .a => 4 | .d => 3 | .l => 2 | .m => 1

/-- Whether a capability carries a right. -/
def hasRight (c : CapBits) (rt : Right) : Bool := (capRights c).getLsbD rt.bit

/-- The checks of cap_check on a capability already read, `n` its register number (R46): the offset within the
object. -/
def capWindow (c : CapBits) (n : Nat) (off : Int) (size : Nat) (rt : Right) : Chk Nat :=
  if !hasRight c rt then trapWith .capRights n
  else if off < 0 ∨ (capLen c : Int) < off + size then trapWith .capBound n
  else .ok (capBase c + off.toNat)

/-- cap_check (R46). -/
def capCheck (st : Strand) (cn : CReg) (off : DWord) (size : Nat) (rt : Right) : Chk (CapBits × Nat) := do
  let c ← readC st cn
  let a ← capWindow c cn.toNat off.toInt size rt
  .ok (c, a)

/-- An access aligned to its size (Table 3.10). -/
def checkAligned (a size : Nat) : Chk Unit := if a % size = 0 then .ok () else trapOf .dataMisaligned

/-! ## Object names and bindings -/

/-- The identity that a name gives a synchronisation object: the bits that are examined (Table 5.6). -/
def objName (n : DWord) : DWord :=
  match fieldOf n 62 2 with
  | 0 => n &&& 0xFFF#64
  | 1 => n &&& 0x7FFFFFDFFFFFFFFF#64
  | 2 => n &&& 0xC0000000000000FF#64
  | _ => 0xC000000000000000#64 ||| d64 (min (fieldOf n 0 3) 5)

/-- The object that governs an access to a byte range of an object (R102): that of the binding made most recently which
covers a byte of it, among those the access follows. DESIGN CHOICE (log entry 71): an access that a binding covers in part
is governed by it whole. -/
def boundTo (st : Strand) (k : Know) (obj off size : Nat) : Option DWord :=
  (st.binds.find? fun b => decide (b.idx ≤ k.s) && b.obj == obj && decide (0 < b.len) && decide (off < b.base + b.len) &&
    decide (b.base < off + size)).map (·.name)

/-- Whether a region's binding is the object O; unbound memory is bound to every scope default (R104, R274). -/
def boundIs (o : DWord) (b : Option DWord) : Bool :=
  match b with
  | some n => n == o
  | none => fieldOf o 62 2 == 3

/-- What an access of a store of a stream is ordered after: a copy's is fixed at its issue (R249). -/
def knowOf (st : Strand) (e : Engine) (idx : Nat) : Know :=
  match e, st.copies.find? fun c => c.idx == idx with
  | .C, some c => c.know
  | _, _ => (streamOf st e).know

/-! ## What reads are ordered after (R276, R281) -/

/-- Whether the strand that made a write lies within a scope of a strand; every other party lies within each (DESIGN CHOICE,
log entry 86). -/
def inScope (s : State) (core : Nat) (st : Strand) (scope : Nat) (writer : Option Nat) : Bool :=
  match writer.bind fun sid => s.strands.find? fun p => p.2.sid == sid with
  | none => true
  | some (c, w) =>
    match scope with
    | 0 => w.sid == st.sid
    | 1 => w.crew == st.crew
    | 2 => clusterOf c == clusterOf core
    | 3 => dieOf c == dieOf core
    | _ => true

/-- Whether an operation orders a read of bytes bound to `bd` after a strand's write (R276, R281). -/
def viewOrders (s : State) (core : Nat) (st : Strand) (bd : Option DWord) (v : View) (writer : Option Nat) : Bool :=
  v.obj.all (fun o => boundIs o bd) && inScope s core st v.scope writer

/-- The strand's later reads bound to an object, or all of them, follow every write of a scope made so far (R276). -/
def follow (s : State) (st : Strand) (scope : Nat) (obj : Option DWord) : Strand :=
  if scope = 0 then st
  else { st with
    views := { scope := scope, obj := obj, since := s.writes } :: st.views.filter fun v => !(v.scope == scope && v.obj == obj) }

/-! ## Reads through the memory port -/

/-- What a read access of a strand answers: its bytes, a trap, or that it waits: for a CXL completion of a port, or, where no
port is named, for an older store of the strand (po-loc, R274). -/
inductive Acc where
  | ok (l : List Byte) (s : State)
  | trap (t : Trapped) (s : State)
  | ask (port : Option Nat) (s : State)

/-- Whether a strand has a store to a granule of POOL that has not completed. -/
def poolStore (st : Strand) (g : Nat) : Bool := st.stores.any fun w => w.tier == 2#2 && w.pa / 64 == g

/-- The space a strand runs in. -/
def spaceOf (s : State) (st : Strand) : Nat := ((crewAt s st.crew).map (·.space)).getD 0

/-- A trap of the memory port, with what the fault entry names (R235). -/
def portTrap (s : State) (die space obj ogen off : Nat) (c : Cause) : Trapped :=
  { cause := c, fault := some (faultOf s die space obj ogen off) }

/-- Who reads: what its accesses follow, whether it is an atomic, the access queue that serves it (R228), the answer of the CXL
request it has waited for (R370). -/
structure Reader where
  know : Know := {}
  rmw : Bool := false
  via : Option Nat := none
  ans : Option CxlResult := none
deriving DecidableEq, Repr

/-- A read of `size` bytes within one granule at offset `off` of an object, for a party of core `core` of strand `st` (R93,
R227, R228, R286, R360, R370). The read of an atomic finds the present value (R278); another may find an older one (R281). -/
def portRead (s : State) (core : Nat) (st : Strand) (x : Reader) (obj ogen off size : Nat) : Acc :=
  let sp := spaceOf s st
  let tr := portPlace s (x.ans == some .ok) core x.via sp obj ogen off size
  let fail := fun (c : Cause) (s1 : State) => Acc.trap (portTrap s1 (dieOf core) sp obj ogen off c) s1
  match tr.1 with
  | .stale => fail .capStale tr.2
  | .uncommitted => fail .pageUncommitted tr.2
  | .refused => fail .poison (refuseLog tr.2 obj off)
  | .isolated => fail .poison tr.2
  | .cut => fail .poison (refuseLog tr.2 obj off)
  | .ok p =>
    if p.tier = 2 ∧ x.ans = none then .ask (if poolStore st (p.pa / 64) then none else some p.loc) tr.2
    else if p.tier = 2 ∧ x.ans ≠ some .ok then
      fail .poison (if x.ans = some .error then refuseLog tr.2 obj off else tr.2)
    else
      let s1 := flushGran tr.2 st (p.pa / 64)
      match placeRead s1 p with
      | (.ok g, s2) =>
        let r := pickValue s2 st p x.rmw (viewOrders s2 core st (boundTo st x.know obj off size)) g
        .ok (granBytes r.1 (p.pa % 64) size) r.2
      | (.poison, s2) => fail .poison s2
      | (.integrity, s2) => fail .integrity s2
      | (.refused, s2) => fail .poison (refuseLog s2 obj off)

/-- A request leaves on a CXL port (R371). -/
def sendCxl (s : State) (port : Nat) (a : Asker) : State :=
  { s with ports := mapMod {} s.ports port fun p => { p with out := p.out ++ [(a, s.frame.toNat)] } }

/-- The stream's instruction waits for the completion of a CXL request, which it sends once, or for its strand's older store. -/
def awaitCxl (s : State) (core : Nat) (e : Engine) (port : Option Nat) : Eff :=
  match strandAt s core, port with
  | some st, some p =>
    if (streamOf st e).asked then .hold s
    else .hold (sendCxl (modStream s core e fun x => { x with asked := true }) p (.stream core e))
  | _, _ => .hold s

/-- The answer that the stream's instruction holds. -/
def ansOf (st : Strand) (e : Engine) : Option CxlResult := (streamOf st e).ans

/-- A stream's instruction as a reader. -/
def readerOf (st : Strand) (e : Engine) : Reader := { know := (streamOf st e).know, ans := ansOf st e }

/-- A read of an instruction, then `k` on its bytes; a trap or a wait ends the turn. -/
def withRead (s : State) (core : Nat) (e : Engine) (st : Strand) (rmw : Bool) (obj ogen off size : Nat)
    (k : List Byte → State → Eff) : Eff :=
  match portRead s core st { readerOf st e with rmw := rmw } obj ogen off size with
  | .ok l s1 => k l s1
  | .trap t s1 => .trap s1 t
  | .ask p s1 => awaitCxl s1 core e p

/-! ## Stores -/

/-- A strand that has begun a store: the number its failures are reported under in the stream's order. -/
def beginStore (st : Strand) (e : Engine) : Nat × Strand :=
  let x := streamOf st e
  let n := x.know.of e + 1
  (n, setStream st e { x with know := x.know.bump e n })

/-- A store that the memory port has accepted fails at once (R93, R286). -/
def failStore (s : State) (core : Nat) (f : FailedW) : State :=
  modStrand { s with nfail := s.nfail + 1 } core fun st => { st with failed := st.failed ++ [{ f with n := s.nfail, sid := st.sid }] }

/-- The store that an accepted write joins: the strand's last one, where it is part of the same instruction's write of that
granule (R137). -/
def storeMate (st : Strand) (w : StoreW) : Option StoreW := st.stores.getLast?.filter fun v => v.mates w

/-- An accepted store stands in its strand's list, joined with its mate; one to POOL is sent (R370, R398). -/
def acceptStore (s : State) (core : Nat) (join : Bool) (w : StoreW) : State :=
  match strandAt s core with
  | none => s
  | some st =>
    match if join then storeMate st w else none with
    | some v => setStrand s core { st with stores := st.stores.dropLast ++ [v.join w] }
    | none =>
      let s1 := setStrand s core { st with
        stores := st.stores ++ [w]
        storeSeq := st.storeSeq + 1 }
      if w.tier = 2#2 then sendCxl s1 w.loc (.store w.sid w.seq) else s1

/-- A write of a store within one granule: its checks at the port, then its acceptance (R93, R398). -/
def portWrite (s : State) (core : Nat) (e : Engine) (via : Option Nat) (join : Bool) (idx obj ogen off : Nat) (l : List Byte) :
    Except Trapped Unit × State :=
  match strandAt s core with
  | none => (.ok (), s)
  | some st =>
    let sp := spaceOf s st
    let tr := portPlace s false core via sp obj ogen off l.length
    let bd := boundTo st (knowOf st e idx) obj off l.length
    let f := fun (r : Nat) (s1 : State) => failStore s1 core
      { stream := e, idx := idx, reason := r, obj := obj, ogen := ogen, off := off, bound := bd }
    match tr.1 with
    | .stale => (.error (portTrap tr.2 (dieOf core) sp obj ogen off .capStale), tr.2)
    | .uncommitted => (.error (portTrap tr.2 (dieOf core) sp obj ogen off .pageUncommitted), tr.2)
    | .refused => (.ok (), f 2 (refuseLog tr.2 obj off))
    | .isolated => (.ok (), f 1 tr.2)
    | .cut => (.ok (), f 1 (refuseLog tr.2 obj off))
    | .ok p =>
      if p.zmask.isSome then (.ok (), f 2 (refuseLog tr.2 obj off))
      else
        let w : StoreW :=
          { sid := st.sid, seq := st.storeSeq, stream := e, idx := idx, pa := p.pa, bytes := l, dom := p.dom,
            tier := BitVec.ofNat 2 p.tier, loc := p.loc, die := dieOf core, side := p.side, obj := obj, ogen := ogen, off := off,
            bound := bd }
        (.ok (), acceptStore tr.2 core join w)

/-! ## Scratchpad and crew window -/

/-- Granules in a core's scratchpad (R219). -/
def spadGrans : Nat := 4096

/-- The scratchpad granule `g` of a core. -/
def spGran (s : State) (core g : Nat) : SGran := mapGet {} s.spad (core * spadGrans + g)

/-- tag_read of bytes of a scratchpad granule under an access generation and mode. -/
def spRead (s : State) (core : Nat) (cgen : Gen) (gtrap : Bool) (off size : Nat) : Chk (List Byte) := do
  let g := spGran s core (off / 64)
  let v ← tagRead gtrap cgen g.gen g.val 0#512
  .ok (granBytes v (off % 64) size)

/-- tag_write of bytes within a scratchpad granule under an access generation (R46): a stale granule is zero-filled. -/
def spWrite (s : State) (core : Nat) (cgen : Gen) (off : Nat) (l : List Byte) : State :=
  let k := core * spadGrans + off / 64
  let g := mapGet {} s.spad k
  let old := if g.gen = cgen then g.val else 0#512
  { s with spad := mapSet {} s.spad k { gen := cgen, val := granPut old (off % 64) l } }

/-- Bytes of a scratchpad over several granules. -/
def spReadN (s : State) (core : Nat) (cgen : Gen) (gtrap : Bool) (off n : Nat) : Chk (List Byte) :=
  match n with
  | 0 => .ok []
  | k + 1 => do
    let l ← spReadN s core cgen gtrap off k
    let b ← spRead s core cgen gtrap (off + k) 1
    .ok (l ++ b)

/-- Whole granules of a scratchpad, `n` from `off` on, as bytes. -/
def spGrans (s : State) (core : Nat) (cgen : Gen) (gtrap : Bool) (off n : Nat) : Chk (List Byte) :=
  match n with
  | 0 => .ok []
  | k + 1 => do
    let a ← spRead s core cgen gtrap off 64
    let l ← spGrans s core cgen gtrap (off + 64) k
    .ok (a ++ l)

/-- Bytes written to a scratchpad over several granules, granule by granule, with fuel. -/
def spWriteN (fuel : Nat) (s : State) (core : Nat) (cgen : Gen) (off : Nat) (l : List Byte) : State :=
  match fuel with
  | 0 => s
  | f + 1 =>
    if l.isEmpty then s
    else
      let n := 64 - off % 64
      spWriteN f (spWrite s core cgen off (l.take n)) core cgen (off + n) (l.drop n)

/-- The address checks of a local scratchpad access (R83, Table 3.10). -/
def spCheck (a : Int) (size : Nat) : Chk Nat :=
  if a % (size : Int) ≠ 0 then trapOf .dataMisaligned
  else if a < 0 ∨ 262144 ≤ a then trapOf .scratchBound
  else .ok a.toNat

/-- The core, generation and mode of the crew member of a rank (R94). -/
def member (s : State) (k rank : Nat) : Option (Nat × Strand) :=
  (strandsOf s k).find? fun p => p.2.rank == rank

/-- The address checks of a crew-window access (R94): the owning core, its generation and mode, the offset there. -/
def cwCheck (s : State) (st : Strand) (a : DWord) (size : Nat) : Chk (Nat × Gen × Bool × Nat) :=
  if a.toNat % size ≠ 0 then trapOf .dataMisaligned
  else
    match crewAt s st.crew with
    | none => trapOf .crewWindow
    | some c =>
      if c.copyonly ∨ (c.size + 1) * 262144 ≤ a.toNat then trapOf .crewWindow
      else
        match member s st.crew (fieldOf a 18 4) with
        | none => trapOf .crewWindow
        | some (o, m) => .ok (o, m.cgen, m.gtrap, fieldOf a 0 18)

end Sys2Proof.Machine
end

