-- ==== Sys2Proof/Machine/Operands.lean ====
section
/-! DEFINITION. The operand forms of the scalar stream: immediates with IMMX (R29), addresses of layouts SM, SP, SA and
SQ (R83, R92, R94 to R96), and the memory accesses of each form. -/
namespace Sys2Proof.Machine
open Sys2Proof

/-- The immediate of a follower: UPPER:IMMw as two's complement under an IMMX prefix, else the field sign-extended
(R29). -/
def immOf {w : Nat} (s : State) (imm : BitVec w) : Int :=
  match s.pfx.immx with
  | some u => (u ++ imm).toInt
  | none => imm.toInt

/-- The immediate as 64 bits. -/
def imm64 {w : Nat} (s : State) (imm : BitVec w) : DWord := i64 (immOf s imm)

/-- The bytes of an access size field SZ or of W. -/
def sizeOf (sz : BitVec 2) : Nat := 2 ^ sz.toNat

/-- A little-endian value of up to 8 bytes, zero- or sign-extended to 64 bits. -/
def extend (sgn : Bool) (size : Nat) (l : List Byte) : DWord :=
  let v : DWord := ofBytes 64 l
  if sgn then i64 ((v.toNat : Int) - if v.getLsbD (8 * size - 1) then 2 ^ (8 * size) else 0) else v

/-- The scalar address of layout SM: xo + imm × size, through cap_check, aligned (R92). -/
def smAddr (s : State) (st : Strand) (cn : CReg) (xo : DWord) (imm : BitVec 6) (size : Nat) (rt : Right) :
    Chk (CapBits × Nat) := do
  let p ← capCheck st cn (xo + i64 (immOf s imm * size)) size rt
  checkAligned p.2 size
  .ok p

/-- A load of layout SM (R92): `size` bytes, extended, into xd. -/
def loadSM (tk : Tk) (xd : XReg) (cn : CReg) (xo : XReg) (imm : BitVec 6) (size : Nat) (sgn : Bool) (s : State) : Out :=
  issue .S tk (fun s core st =>
    orTrap s (do
      let o ← readX st .S xo
      smAddr s st cn o imm size .r) fun p =>
    withRead s core .S st false (capObj p.1) (capOgen p.1) p.2 size fun l s1 =>
      .fin (modStrand s1 core fun st => writeX st .S xd (extend sgn size l))) s

/-- A store of layout SM (R92, R398): the low `size` bytes of xs. -/
def storeSM (tk : Tk) (xs : XReg) (cn : CReg) (xo : XReg) (imm : BitVec 6) (size : Nat) (s : State) : Out :=
  issue .S tk (fun s core st =>
    orTrap s (do
      let v ← readX st .S xs
      let o ← readX st .S xo
      let p ← smAddr s st cn o imm size .w
      .ok (v, p)) fun (v, p) =>
    let b := beginStore st .S
    match portWrite (setStrand s core b.2) core .S none false b.1 (capObj p.1) (capOgen p.1) p.2 (toBytes size v) with
    | (.ok _, s1) => .stored s1
    | (.error t, _) => .trap s t) s

/-- The scratchpad address of layout SP: xa + imm × size (R83). -/
def spAddr (s : State) (xa : DWord) (imm : BitVec 7) (size : Nat) : DWord := xa + i64 (immOf s imm * size)

/-- A scratchpad load (R83). -/
def loadSP (tk : Tk) (xd xa : XReg) (sz : BitVec 2) (sgn : Bool) (imm : BitVec 7) (s : State) : Out :=
  issue .S tk (fun s core st =>
    orTrap s (do
      let a ← readX st .S xa
      let o ← spCheck (spAddr s a imm (sizeOf sz)).toNat (sizeOf sz)
      spRead s core st.cgen st.gtrap o (sizeOf sz)) fun l =>
    finX s core .S st xd (extend sgn (sizeOf sz) l)) s

/-- A scratchpad store (R83). -/
def storeSP (tk : Tk) (xs xa : XReg) (sz : BitVec 2) (imm : BitVec 7) (s : State) : Out :=
  issue .S tk (fun s core st =>
    orTrap s (do
      let v ← readX st .S xs
      let a ← readX st .S xa
      let o ← spCheck (spAddr s a imm (sizeOf sz)).toNat (sizeOf sz)
      .ok (v, o)) fun (v, o) =>
    .fin (spWrite s core st.cgen o (toBytes (sizeOf sz) v))) s

/-- XSYNC is cleared by each crew-window access the strand issues (R94, R108). -/
def clearXsync (s : State) (core : Nat) : State := modStrand s core fun st => { st with xsync := false }

/-- A crew-window load (R94). -/
def loadCW (tk : Tk) (xd xa : XReg) (sz : BitVec 2) (sgn : Bool) (imm : BitVec 7) (s : State) : Out :=
  issue .S tk (fun s core st =>
    orTrap s (do
      let a ← readX st .S xa
      cwCheck s st (spAddr s a imm (sizeOf sz)) (sizeOf sz)) fun w =>
    orTrap (clearXsync s core) (spRead s w.1 w.2.1 w.2.2.1 w.2.2.2 (sizeOf sz)) fun l =>
    finX s core .S { st with xsync := false } xd (extend sgn (sizeOf sz) l)) s

/-- A crew-window store (R94). -/
def storeCW (tk : Tk) (xs xa : XReg) (sz : BitVec 2) (imm : BitVec 7) (s : State) : Out :=
  issue .S tk (fun s core st =>
    orTrap s (do
      let v ← readX st .S xs
      let a ← readX st .S xa
      let w ← cwCheck s st (spAddr s a imm (sizeOf sz)) (sizeOf sz)
      .ok (v, w)) fun (v, w) =>
    .fin (spWrite (clearXsync s core) w.1 w.2.1 w.2.2.2 (toBytes (sizeOf sz) v))) s

/-- The kinds of an atomic (R95). -/
inductive AmoKind where
  | add | min | max | band | bor | xor | swap | cas
deriving DecidableEq, Repr

/-- What an atomic writes, given the old value, xb and the comparand xd, each of `w` bits; none where cas fails (R95). -/
def amoNew {w : Nat} (k : AmoKind) (old xb cmp : BitVec w) : Option (BitVec w) :=
  match k with
  | .add => some (old + xb)
  | .min => some (if old.toInt ≤ xb.toInt then old else xb)
  | .max => some (if old.toInt ≤ xb.toInt then xb else old)
  | .band => some (old &&& xb)
  | .bor => some (old ||| xb)
  | .xor => some (old ^^^ xb)
  | .swap => some xb
  | .cas => if old = cmp then some xb else none

/-- The new bytes of an atomic of `size` bytes on old bytes, none where cas fails. -/
def amoBytes (k : AmoKind) (size : Nat) (old : List Byte) (xb cmp : DWord) : Option (List Byte) :=
  (amoNew k (ofBytes (8 * size) old) (xb.setWidth (8 * size)) (cmp.setWidth (8 * size))).map (toBytes size)

/-- The bytes of W: 4 or 8. -/
def wSize (w : Bool) : Nat := if w then 8 else 4

/-- An atomic on scratchpad (R95). -/
def amoSP (k : AmoKind) (tk : Tk) (xd xa xb : XReg) (w cw : Bool) (s : State) : Out :=
  issue .S tk (fun s core st =>
    orTrap s (do
      let a ← readX st .S xa
      let b ← readX st .S xb
      let c ← (if k = .cas then readX st .S xd else .ok 0#64)
      let z ← (if cw then cwCheck s st a (wSize w)
        else do
          let o ← spCheck a.toNat (wSize w)
          .ok (core, st.cgen, st.gtrap, o))
      .ok (b, c, z)) fun (b, c, (o, g, m, off)) =>
    let s0 := if cw then clearXsync s core else s
    orTrap s0 (spRead s0 o g m off (wSize w)) fun old =>
    let s1 := match amoBytes k (wSize w) old b c with
      | some l => spWrite s0 o g off l
      | none => s0
    .fin (modStrand s1 core fun st => writeX st .S xd (extend true (wSize w) old))) s

/-- An atomic on global memory (R96): performed at the home of the granule. -/
def amoMem (k : AmoKind) (tk : Tk) (xd : XReg) (cn : CReg) (xa xb : XReg) (w : Bool) (s : State) : Out :=
  issue .S tk (fun s core st =>
    orTrap s (do
      let a ← readX st .S xa
      let b ← readX st .S xb
      let c ← (if k = .cas then readX st .S xd else .ok 0#64)
      let p ← capCheck st cn a (wSize w) .a
      checkAligned p.2 (wSize w)
      .ok (b, c, p)) fun (b, c, (cap, a)) =>
    withRead s core .S st true (capObj cap) (capOgen cap) a (wSize w) fun old s1 =>
      let fin := fun (s2 : State) => Eff.fin (modStrand s2 core fun st => writeX st .S xd (extend true (wSize w) old))
      let tr := translateIn s1 true (dieOf core) (spaceOf s1 st) (capObj cap) (capOgen cap) a (wSize w)
      match tr.1 with
      | .ok p =>
        if p.zmask.isSome then .trap (refuseLog tr.2 (capObj cap) a)
            (portTrap tr.2 (dieOf core) (spaceOf tr.2 st) (capObj cap) (capOgen cap) a .poison)
        else
          match amoBytes k (wSize w) old b c with
          | none => fin tr.2
          | some l =>
            match atomicWrite tr.2 st.sid p (maskOf (p.pa % 64) l.length) (granPut 0#512 (p.pa % 64) l) with
            | (true, s2) => fin s2
            | (false, s2) => .trap s2 (portTrap s2 (dieOf core) (spaceOf s2 st) (capObj cap) (capOgen cap) a .poison)
      | _ => .trap s1 (portTrap s1 (dieOf core) (spaceOf s1 st) (capObj cap) (capOgen cap) a .poison)) s

end Sys2Proof.Machine
end

