-- ==== Sys2Proof/Machine/Flags.lean ====
section
/-! DEFINITION. The settings a vector instruction runs under, its predicate, its event flags, and the writing of its
result (R13 to R16, R66, R67, R70, R113, R115, R169). -/
namespace Sys2Proof.Machine
open Sys2Proof

/-! ## Settings -/

/-- A rounding mode by its code; 000 inherits (Table 3.7). -/
def rmOf (c : Nat) : RMode :=
  match c with
  | 2 => .rtz
  | 3 => .rup
  | 4 => .rdn
  | 5 => .rna
  | _ => .rne

/-- The settings from ARITH-coded fields over the strand's RMODE: RM 000 and FTZ 00 inherit (R169). -/
def settingsOf (rmode : BitVec 5) (rm : BitVec 3) (sat : Bool) (ftz : BitVec 2) : RSet :=
  { rm := if rm = 0#3 then rmOf (fieldOf rmode 0 3) else rmOf rm.toNat
    sat := sat
    ftz := if ftz = 0#2 then rmode.getLsbD 4 else ftz == 1#2 }

/-- The settings of the instruction that issues: its ARITH prefix, else RMODE (Table 7.12). A prefix's SAT stands for
the instruction. -/
def settings (s : State) (st : Strand) : RSet :=
  match s.pfx.arith with
  | some a => settingsOf st.sys.rmode a.rm a.sat a.ftz
  | none => settingsOf st.sys.rmode 0#3 (st.sys.rmode.getLsbD 3) 0#2

/-- FMT of the ARITH prefix; 0 for none. -/
def fmtOver (s : State) : Nat :=
  match s.pfx.arith with
  | some a => a.fmt.toNat
  | none => 0

/-- Whether the result is transient (R16). -/
def transient (s : State) : Bool :=
  match s.pfx.arith with
  | some a => a.t
  | none => false

/-! ## Predication -/

/-- The effective predicate of the instruction: none without PEN; PRED, inverted under PNEG (R115). -/
def predOf (s : State) (st : Strand) : Chk (Option PBits) :=
  match s.pfx.arith with
  | some a =>
    if a.pen then do
      let p ← readP st a.pred
      .ok (some (if a.pneg then ~~~p else p))
    else .ok none
  | none => .ok none

/-- Whether element `j` of width `w` is active (R66, R115). -/
def isActive (p : Option PBits) (w j : Nat) : Bool :=
  match p with
  | none => true
  | some b => b.getLsbD (j * (w / 4))

/-! ## Events -/

/-- The events of a retiring instruction are ORed into VEVT (R113). -/
def raise (st : Strand) (ev : Events) : Strand := { st with sys := { st.sys with vevt := st.sys.vevt ||| ev } }

/-! ## Elements -/

/-- The element width of a tag: 8 for raw, bits and void (R114). -/
def tagW (tag : Nat) : Nat := fmtBits tag

/-- The elements of width `w` of a register, as numbers. -/
def vElems (w : Nat) (x : VBits) : List Nat := (List.range (4096 / w)).map fun i => x.toNat >>> (i * w) % 2 ^ w

/-- A register from its elements of width `w`, zero above them. -/
def vPack (w : Nat) (l : List Nat) : VBits := BitVec.ofNat 4096 (packNat w l)

/-- The bits that a write with results of width `wr` covers: all but the inactive of the first `n` elements, each of
source width `w` (R115). -/
def writeMask (p : Option PBits) (w wr n : Nat) : VBits :=
  match p with
  | none => BitVec.allOnes 4096
  | some _ => vPack wr ((List.range (4096 / wr)).map fun j => if j < n ∧ isActive p w j = false then 0 else 2 ^ wr - 1)

/-- A result written to vd under a mask of positions: whole or partial (R67), entering the bypass (R15); a transient
one enters the bypass only, as if over a register that is not current (R16). `byp` says that it enters it. -/
def writeV (s : State) (st : Strand) (n : Nat) (tag : Nat) (res mask : VBits) (byp : Bool) : Strand :=
  let old := mapGet {} st.r.v n
  let base := if transient s ∨ old.gen ≠ st.cgen then 0#4096 else old.val
  let v := (base &&& ~~~mask) ||| (res &&& mask)
  let t := BitVec.ofNat 4 tag
  let st1 := if byp then pushByp st t v else st
  if transient s then st1 else writeVReg st1 n t v

/-- A result of `n` source elements of width `w`, with result elements of width `wr` under a tag, into vd. -/
def putV (s : State) (st : Strand) (vd : VReg) (tag w wr n : Nat) (p : Option PBits) (l : List Nat) : Strand :=
  writeV s st (rotV st vd.toNat) tag (vPack wr l) (writeMask p w wr n) true

/-- Every `k`-th element of a list from the `i`-th on, with fuel. -/
def strided {α : Type} (fuel k i : Nat) (l : List α) : List α :=
  match fuel with
  | 0 => []
  | f + 1 =>
    match l.drop i with
    | [] => []
    | a :: _ => a :: strided f k i (l.drop k)

/-- A result that fills `k` registers from vd on (R70), each a write of its own; only vd enters the bypass. -/
def putWide (s : State) (st : Strand) (vd : VReg) (k tag w wr : Nat) (p : Option PBits) (l : List Nat) : Strand :=
  (List.range k).foldl (fun st1 i =>
    let part := strided 4096 k i l
    let mask : VBits := match p with
      | none => BitVec.allOnes 4096
      | some _ => vPack wr ((List.range (4096 / wr)).map fun j =>
          if isActive p w (j * k + i) then 2 ^ wr - 1 else 0)
    if i ≠ 0 ∧ transient s = true then st1
    else writeV s st1 (rotV st (vd.toNat + i)) tag (vPack wr part) mask (i == 0)) st

/-- vd must be a multiple of k (R70). -/
def checkWide (vd : VReg) (k : Nat) : Chk Unit := if vd.toNat % k = 0 then .ok () else trapWith .reservedField k

/-! ## Sources of arithmetic -/

/-- The sources of an instruction: bypass names are checked first (R75), then each is read (R113). -/
def readVs (st : Strand) (l : List (VReg × Bool)) : Chk (List VSrc) := do
  bypCheck st l
  l.mapM fun p => readVB st p.1 p.2

/-- The agreed format of tags (R69): none where they disagree, or all are void. -/
def agree (l : List Nat) : Option Nat :=
  match l.filter (· != 15) with
  | [] => none
  | t :: r => if r.all (· == t) then some t else none

/-- The format an arithmetic instruction runs in: FMT, else the agreed tag; one its family does not accept traps
(R30, R69, R116). -/
def arithFmt (s : State) (l : List VSrc) (ok : Nat → Bool) : Chk Nat :=
  let f := if fmtOver s ≠ 0 then some (fmtOver s)
    else (agree (l.map fun v => v.fmt.toNat)).filter fun t => t != 0 && t != 14
  match f with
  | some t => if ok t then .ok t else trapOf .formatMismatch
  | none => trapOf .formatMismatch

/-- Results of an operation on the elements of up to three sources, `j` the first position: inactive elements are not
computed and raise nothing. -/
def mapElems (p : Option PBits) (w : Nat) (f : Nat → Nat → Nat → Rnd) (j : Nat) :
    List Nat → List Nat → List Nat → List Nat × Events
  | a :: as, b :: bs, c :: cs =>
    let r := mapElems p w f (j + 1) as bs cs
    if isActive p w j then
      let x := f a b c
      (x.enc :: r.1, x.ev ||| r.2)
    else (0 :: r.1, r.2)
  | _, _, _ => ([], 0#4)

end Sys2Proof.Machine
end

