-- ==== Sys2Proof/Machine/Report.lean ====
section
/-! DEFINITION. What a command processor tells the host (R290), the places of a save area (R307, R322), and the write-out
of held tiles (R82). -/
namespace Sys2Proof.Machine
open Sys2Proof

/-! ## Reports -/

/-- A report as its eight words (Table 14.3). -/
def reportWords (s : State) (kind slot q detail obj off : Nat) : List Word :=
  [BitVec.ofNat 32 (slot % 4096 * 65536 + q % 16 * 256 + kind % 256), BitVec.ofNat 32 detail,
    s.frame.setWidth 32, bits s.frame 32 32, BitVec.ofNat 32 (obj % 2 ^ 24), BitVec.ofNat 32 off,
    BitVec.ofNat 32 (off / 2 ^ 32 % 256), 0#32]

/-- Records the report ring holds at once. -/
def rptCap (d : Die) : Nat := 128 * 2 ^ d.rptSize

/-- R290: a report of a die's command processor is written to the ring in host memory; one that finds the ring full, or that a
boundary keeps from the host port (R373, R375), is counted as lost. -/
def report (s : State) (die kind slot q detail obj off : Nat) : State :=
  let d := dieAt s die
  if rptCap d ≤ (d.rptTail - d.rptHead).toNat ∨ hostCut s die = true then
    modDie s die fun d => { d with rptLost := if d.rptLost = 0xFFFF#16 then d.rptLost else d.rptLost + 1 }
  else
    let a := d.rptBase + 32 * (d.rptTail.toNat % rptCap d)
    let s1 := emit s (.host a (reportWords s kind slot q detail obj off))
    let s2 := modDie s1 die fun d => { d with rptTail := d.rptTail + 1 }
    if d.rptEn then sendMsi s2 d.rptVec else s2

/-! ## Save areas -/

/-- The save area of a rank of a crew slot (R307). -/
def saveAddr (s : State) (o : Owner) : Nat := (dieAt s o.die).saveBase + 2 ^ 24 * o.slot + 2 ^ 20 * o.rank

/-- The states of a tile slot (Table 14.11). -/
inductive SlotState where
  | none | held | saved | lost
deriving DecidableEq, Repr

/-- Their codes. -/
def SlotState.code : SlotState → Nat
  | .none => 0 | .held => 1 | .saved => 2 | .lost => 3

/-- A doubleword written by physical address. -/
def physWord (s : State) (die a : Nat) (v : DWord) : Bool × State := physWrite s die a (toBytes 8 v)

/-- The state word of a tile slot: the second doubleword of its 16 bytes. -/
def putTileState (s : State) (die : Nat) (o : Owner) (t : Nat) (x : SlotState) : State :=
  (physWord s die (saveAddr s o + 0x180 + 16 * t + 8) (d64 x.code)).2

/-- A bit of a byte of a save area is cleared, where the area can be read and written. -/
def clearBit (s : State) (die a k : Nat) : State :=
  match physRead s die a 1 with
  | (some [b], s1) => (physWrite s1 die a [b &&& ~~~(1#8 <<< k)]).2
  | (_, s1) => s1

/-- The offset of a strand's matrix context image in its save area (Table 14.11). -/
def imageOff : Nat := 0x50000

/-- A lost object is marked in its save area, where that write is accepted: a tile's slot LOST (R82); a plane's or a row's
live bit cleared (R204; DESIGN CHOICE, log entry 76). -/
def markLost (s : State) (die : Nat) (o : Owner) (x : HeldObj) : State :=
  let a := saveAddr s o
  match x with
  | .tile _ t => putTileState s die o t .lost
  | .plane _ b => clearBit s die (a + imageOff + 8) (if b then 1 else 0)
  | .row _ r => clearBit s die (a + imageOff + 0xC00 + r / 8) (r % 8)

/-- An object of a save is lost: recorded by the command processor and reported as SAVE_REFUSED (R82, R204). -/
def loseObj (s : State) (o : Owner) (x : HeldObj) (detail : Nat) : State :=
  let k := crewKey o.die o.slot
  let q := match (crewAt s k).bind fun c => mapFind s.launches c.launch with
    | some l => l.q
    | none => 0
  report (modCrew s k fun c => { c with lost := c.lost ++ [x] }) o.die 5 o.slot q detail 0 0

/-! ## Held tiles (R82) -/

/-- The key of a tile of a core. -/
def tileKey (core t : Nat) : Nat := core * 8 + t

/-- R82: a held tile is written to its context's save area, or dropped where it is clean; a refused write loses it. -/
def writeOutTile (s : State) (core t : Nat) : State :=
  match mapFind s.heldTiles (tileKey core t) with
  | none => s
  | some h =>
    let s1 := { s with heldTiles := mapErase s.heldTiles (tileKey core t) }
    if !h.dirty then s1
    else
      let w := physWriteAll s1 (dieOf core) (saveAddr s1 h.own + 0xB000 + 1024 * t) (chunks 64 16 (toBytes 1024 h.val))
      if w.1 then putTileState w.2 (dieOf core) h.own t .saved
      else loseObj (markLost w.2 (dieOf core) h.own (.tile core t)) h.own (.tile core t) 1

/-- Every held tile of a core is written out. -/
def flushTiles (s : State) (core : Nat) : State := iter 8 s fun t s => writeOutTile s core t

end Sys2Proof.Machine
end

