-- ==== Sys2Proof/Machine/Array.lean ====
section
/-! DEFINITION. The array of a quad: held planes and rows (R204), leases and grants (R180 to R182), accumulator rows and
regions (R186 to R188), and the frames of the matrix stream's instructions (R176 to R179). -/
namespace Sys2Proof.Machine
open Sys2Proof

/-! ## Held planes and rows -/

/-- A strand in place that owns a save area, changed by `f`. -/
def modOwner (s : State) (o : Owner) (f : Strand → Strand) : State :=
  let k := crewKey o.die o.slot
  { s with strands := s.strands.map fun p => if p.2.crew = k ∧ p.2.rank = o.rank then (p.1, f p.2) else p }

/-- The plane of a quad. -/
def planeOf (q : Quad) (b : Bool) : Plane := if b then q.pb else q.pa

/-- The quad with a plane replaced. -/
def setPlane (q : Quad) (b : Bool) (p : Plane) : Quad := if b then { q with pb := p } else { q with pa := p }

/-- The 128 rows of a plane, as the bytes of an mwload image. -/
def planeBytes (p : Plane) : List Byte := (List.range 128).flatMap fun k => toBytes 256 (mapGet 0#2048 p.rows k)

/-- Bytes written granule by granule by physical address. -/
def physBlock (s : State) (die a : Nat) (l : List Byte) : Bool × State :=
  physWriteAll s die a (chunks 64 (l.length / 64 + 1) l)

/-- The number of a plane. -/
def planeNum (b : Bool) : Nat := if b then 1 else 0

/-- A held plane is written to its context's save area, or dropped where it is clean; its owner reloads it at its next
grant (R204). A refused write loses it: it is void. -/
def writeOutPlane (s : State) (q : Nat) (b : Bool) : State :=
  let p := planeOf (quadAt s q) b
  match p.held with
  | none => s
  | some o =>
    let s1 := modQuad s q fun x => setPlane x b { p with held := none, dirty := false }
    let n := planeNum b
    let keep := fun (s : State) => modOwner s o fun st => { st with
      planeOut := st.planeOut ||| (1#2 <<< n)
      planes := if p.dirty then mapErase st.planes n else st.planes }
    if !p.dirty then keep s1
    else
      let a := saveAddr s o + imageOff
      let w1 := physBlock s1 (dieOf (4 * q)) (a + 0x2000 + 0x8000 * n) (planeBytes p)
      let w2 := physBlock w1.2 (dieOf (4 * q)) (a + 0x1000 + 0x200 * n) (toBytes 512 p.scales)
      if w1.1 && w2.1 then keep w2.2
      else
        let s2 := modQuad w2.2 q fun x => setPlane x b {}
        loseObj (markLost s2 (dieOf (4 * q)) o (.plane q b)) o (.plane q b) 2

/-- A held row is written to its context's save area, or dropped where it is clean (R204). A refused write loses it: it is
void. -/
def writeOutRow (s : State) (q r : Nat) : State :=
  let w := mapGet {} (quadAt s q).rows r
  match w.held with
  | none => s
  | some o =>
    let s1 := modQuad s q fun x => { x with rows := mapSet {} x.rows r { w with held := none, dirty := false } }
    if !w.dirty then s1
    else
      let z := physBlock s1 (dieOf (4 * q)) (saveAddr s o + imageOff + 0x20000 + 512 * r) (toBytes 512 w.val)
      if z.1 then z.2
      else
        let s2 := modQuad z.2 q fun x => { x with rows := mapErase x.rows r }
        loseObj (markLost s2 (dieOf (4 * q)) o (.row q r)) o (.row q r) 3

/-- Held rows of a range are written out. -/
def writeOutRows (s : State) (q b n : Nat) : State := iter n s fun i s => writeOutRow s q (b + i)

/-- The bytes of a plane image as a plane of no owner. -/
def planeFrom (img scales : List Byte) : Plane :=
  { rows := (List.range 128).foldl (fun m k => mapSet 0#2048 m k (ofBytes 2048 ((img.drop (256 * k)).take 256))) []
    scales := ofBytes 4096 scales }

/-- A plane image of a save area (Table 14.11); none where some read is refused. -/
def readPlane (s : State) (die : Nat) (o : Owner) (n : Nat) : Option Plane × State :=
  let a := saveAddr s o + imageOff
  let r1 := physReadAll s die (a + 0x2000 + 0x8000 * n) 512
  let r2 := physReadAll r1.2 die (a + 0x1000 + 0x200 * n) 8
  match r1.1, r2.1 with
  | some l, some sc => (some (planeFrom (l.flatMap (granBytes · 0 64)) (sc.flatMap (granBytes · 0 64))), r2.2)
  | _, _ => (none, r2.2)

/-- A plane of the strand that has been written out is no longer so. -/
def clearPlaneOut (st : Strand) (n : Nat) : Strand :=
  { st with
    planeOut := st.planeOut &&& ~~~(1#2 <<< n)
    planes := mapErase st.planes n }

/-- A plane that stands in the strand's save area is loaded (R204): as its restore has read it (R327), or from the area; void
where the read is refused. -/
def reloadPlane (s : State) (core : Nat) (st : Strand) (b : Bool) : State :=
  let n := planeNum b
  if st.planeOut.getLsbD n then
    let r := match mapFind st.planes n with
      | some p => (some p, s)
      | none => readPlane s (dieOf core) (ownerOf st) n
    let s1 := modStrand r.2 core fun st => clearPlaneOut st n
    match r.1 with
    | some p =>
      modQuad s1 (quadOf core) fun q => setPlane q b { p with gen := st.cgen, core := BitVec.ofNat 2 (coreInQuad core) }
    | none => s1
  else s

/-! ## Grants -/

/-- The base priority of a launch: min(PRI, CEIL) of its queue (R303). -/
def launchPri (s : State) (l : Launch) : Nat := min l.args.pri.toNat (mapGet {} (dieAt s l.die).queues l.q).ceil

/-- The priority of the launch that runs on a core. -/
def corePri (s : State) (core : Nat) : Nat :=
  match (strandAt s core).bind (crewLaunch s) with
  | some (_, l) => launchPri s l
  | none => 0

/-- R182 and R204 at a grant, for one plane: current planes are taken back; another's is written out and made void. -/
def grantPlane (s : State) (core : Nat) (st : Strand) (b : Bool) : State :=
  let p := planeOf (quadAt s (quadOf core)) b
  if planeCur p core st then
    modStrand (modQuad s (quadOf core) fun q => setPlane q b { p with held := none }) core fun st => clearPlaneOut st (planeNum b)
  else
    let s1 := writeOutPlane s (quadOf core) b
    reloadPlane (modQuad s1 (quadOf core) fun q => setPlane q b {}) core st b

/-- The array is granted to a core for `run` instructions (R180 to R182). -/
def grantTo (s : State) (core run : Nat) : State :=
  match strandAt s core with
  | none => s
  | some st =>
    let c := coreInQuad core
    let s1 := modQuad s (quadOf core) fun q =>
      { q with
        lease := some { core := core, run := run, tick := s.frame.toNat }
        turns := if q.last = c then q.turns + 1 else 1
        last := c
        waits := mapErase q.waits c }
    grantPlane (grantPlane s1 core st false) core st true

/-- Whether a strand's matrix stream is inside an instruction that waits for the answer of a CXL request. -/
def matInFlight (st : Strand) : Bool := (streamOf st .M).popped && awaits (streamOf st .M)

/-- Whether an array instruction issued under the last lease is still unfinished (R180). -/
def arrayBusy (s : State) (q : Nat) : Bool :=
  match strandAt s (4 * q + (quadAt s q).last) with
  | some st => matInFlight st || st.mats.any fun o => !o.fin
  | none => false

/-- The requester that R181 grants next: the last holder up to p + 1 times, else the next in core order after it. -/
def nextGrant (s : State) (q : Nat) : Option Nat :=
  let x := quadAt s q
  let asks := fun (c : Nat) => (mapFind x.waits c).isSome && (strandAt s (4 * q + c)).isSome
  if asks x.last && decide (x.turns < corePri s (4 * q + x.last) + 1) then some x.last
  else ([1, 2, 3, 4].map fun d => (x.last + d) % 4).find? asks

/-- R181: the free array is granted to a requesting core. -/
def arrayGrant (s : State) (q : Nat) : State :=
  let x := quadAt s q
  if x.lease.isSome || arrayBusy s q then s
  else
    match nextGrant s q with
    | none => s
    | some c => grantTo s (4 * q + c) (mapGet 0 x.waits c)

/-- A request for the array; granted at once where no other core requests it and it is free (R181). -/
def requestArray (s : State) (core run : Nat) : State :=
  let q := quadOf core
  let x := quadAt s q
  if (mapFind x.waits (coreInQuad core)).isSome then s
  else if x.waits.isEmpty && x.lease.isNone && !arrayBusy s q then grantTo s core run
  else modQuad s q fun x => { x with waits := mapPut x.waits (coreInQuad core) run }

/-- LEASE_TIME in ticks of FRAME (R180; log entry 16). -/
def leaseTicks : Nat := 4

/-- Whether a core holds its quad's lease. -/
def holdsLease (s : State) (core : Nat) : Bool :=
  match (quadAt s (quadOf core)).lease with
  | some l => l.core == core
  | none => false

/-- A lease older than LEASE_TIME ends before an array instruction issues under it (R180). -/
def expireLease (s : State) (core : Nat) : State :=
  match (quadAt s (quadOf core)).lease with
  | some l => if l.core = core ∧ leaseTicks < s.frame.toNat - l.tick then endLease s core else s
  | none => s

/-- Each array instruction that issues lowers RUN; at 0 the lease ends (R180). -/
def spendLease (s : State) (core : Nat) : State :=
  match (quadAt s (quadOf core)).lease with
  | some l =>
    if l.core = core then
      modQuad s (quadOf core) fun q => { q with lease := if l.run ≤ 1 then none else some { l with run := l.run - 1 } }
    else s
  | none => s

/-! ## The frames of the matrix stream -/

/-- Whether every matrix instruction of the strand has finished. -/
def matsDone (st : Strand) : Bool := st.mats.all fun o => o.fin

/-- The class of a matrix instruction (R176): mnop and mloop execute at issue; control instructions wait for the earlier
ones; the load-pipe, array-pipe and serial instructions need the lease. An array-pipe instruction's class names the
planes it uses. -/
inductive MClass where
  | free
  | ctl
  | load
  | pipe (planes : BitVec 2)
  | serial
deriving DecidableEq, Repr

/-- Whether a class needs the lease (R176). -/
def MClass.onArray : MClass → Bool
  | .free | .ctl => false
  | .load | .pipe _ | .serial => true

/-- The planes an array-pipe instruction uses. -/
def MClass.planes : MClass → BitVec 2
  | .pipe p => p
  | _ => 0

/-- Whether a serial instruction of the strand is unfinished: no later instruction starts before it finishes (R176). -/
def serialBusy (st : Strand) : Bool := st.mats.any fun o => o.serial && !o.fin

/-- The scratchpad granules of a core that differ between two machines, as the first holds them. -/
def spadOver (s0 s : State) (core : Nat) : List (Nat × SGran) :=
  (s.spad.filter fun p => p.1 / spadGrans == core && mapGet {} s0.spad p.1 != p.2).map fun p =>
    (p.1, mapGet {} s0.spad p.1)

/-- A matrix instruction has issued: its push stands in the stream's order, with its group (R177, R63), and with what it
has overwritten in scratchpad since `s0` (R176). -/
def passM (s0 s : State) (core : Nat) (pat : BitVec 32) (pc : BitVec 32) (c : MClass) (need : Nat) : State :=
  modStrand (passMC s core .M pc) core fun st =>
    { st with
      mats := st.mats ++
        [{ idx := 0, fin := !c.onArray, mask := pushOf pat, know := (streamOf st .M).know, need := need
           serial := c == .serial, loads := c == .load, planes := c.planes, pops := popOf pat != 0#16
           undo := if c.onArray then spadOver s0 s core else [], addr := s.grp.addr, gaddr := s.grp.gaddr, words := s.grp.words }] }

/-- Whether a strand's crew is Frozen. -/
def crewFrozen (s : State) (st : Strand) : Bool := (crewAt s st.crew).any fun c => c.st == .frozen

/-- How a matrix instruction's turn ends: an array instruction finishes later (MATRIX_FINISH). Where the crew froze while it
was in flight (`frozen`), its planes and rows are held for the strand (R77, R204). `s0` is the machine after its tk_pop. -/
def closeM (s0 : State) (core : Nat) (pat : BitVec 32) (c : MClass) (frozen : Bool) (r : Eff) : State :=
  let done := fun (s : State) =>
    match strandAt s core with
    | some st => settle (noteProgress (if c.onArray && frozen then holdRows (holdPlanes s core st) core st else s) st.crew) core
    | none => s
  let spend := fun (s : State) => if c.onArray then spendLease s core else s
  match r with
  | .fin s => done (spend (passM s0 s core pat s.grp.next c 0))
  | .stored s =>
    let need := match strandAt s core with
      | some st => st.storeSeq
      | none => 0
    done (spend (passM s0 s core pat s.grp.next c need))
  | .jump s t => done (passM s0 s core pat t c 0)
  | r => closeEff core .M pat r

/-- A matrix stream waits in Sync wait before its tk_pop (R176, R180). -/
def waitM (s : State) (core : Nat) : State := settle (modStream s core .M fun x => { x with st := .syncWait }) core

/-- The frame of a matrix instruction after its decode checks: tk_pop, body, close (R46, R177). Before its tk_pop it
waits for an unfinished serial instruction, and where its class waits, for every earlier one (R176). -/
def runM (core : Nat) (tk : Tk) (c : MClass) (body : State → Nat → Strand → Eff) (s : State) (st : Strand) : Out :=
  let pat := patOf st .M tk
  if !(streamOf st .M).popped && (serialBusy st || (decide (c = .ctl ∨ c = .serial) && !matsDone st)) then
    .next (waitM s core)
  else
    match popStep s core .M st pat with
    | .error s1 => .next s1
    | .ok (s1, st1) => .next (closeM s1 core pat c (crewFrozen s st) (body s1 core st1))

/-- The decode checks of a matrix instruction, then `k`. -/
def decodeM (tk : Tk) (pre : Strand → Option Trapped) (k : State → Nat → Strand → Out) (s : State) : Out :=
  match actor s .M with
  | none => .fault .noStrand
  | some (core, st) =>
    match pre st with
    | some t => .next (settle (trapNow s core .M t false false) core)
    | none =>
      if patternOk .M (patOf st .M tk) then k s core st
      else .next (settle (trapNow s core .M { cause := .tokenPattern } false false) core)

/-- mnop and mloop: they execute at issue (R176). -/
def issueFree (tk : Tk) (body : State → Nat → Strand → Eff) (s : State) : Out :=
  decodeM tk (fun _ => none) (fun s core st => runM core tk .free body s st) s

/-- A control instruction: it waits until every earlier instruction has finished (R176). -/
def issueCtl (tk : Tk) (body : State → Nat → Strand → Eff) (s : State) : Out :=
  decodeM tk (fun _ => none) (fun s core st => runM core tk .ctl body s st) s

/-- An array instruction: it needs the lease, which it requests where the strand holds none (R180). A lease does not end
inside one, and one in flight at a freeze finishes (R77). -/
def issueOn (c : MClass) (pre : Strand → Option Trapped) (tk : Tk) (body : State → Nat → Strand → Eff) (s : State) :
    Out :=
  decodeM tk pre (fun s core st =>
    let s1 := if (streamOf st .M).popped then s else expireLease s core
    let s2 := if holdsLease s1 core then s1 else requestArray s1 core st.sys.leaseRun.toNat
    if matInFlight st then runM core tk c body s st
    else if holdsLease s2 core then
      match strandAt s2 core with
      | some st2 => runM core tk c body s2 st2
      | none => .next s2
    else .next (waitM s2 core)) s

/-- A load-pipe instruction (R176). -/
def issueLoad (tk : Tk) (body : State → Nat → Strand → Eff) (s : State) : Out := issueOn .load (fun _ => none) tk body s

/-- An array-pipe instruction that uses `planes`, with a decode check of its own (R176). -/
def issuePipePre (planes : BitVec 2) (pre : Strand → Option Trapped) (tk : Tk) (body : State → Nat → Strand → Eff)
    (s : State) : Out := issueOn (.pipe planes) pre tk body s

/-- An array-pipe instruction that uses `planes` (R176). -/
def issuePipe (planes : BitVec 2) (tk : Tk) (body : State → Nat → Strand → Eff) (s : State) : Out :=
  issuePipePre planes (fun _ => none) tk body s

/-- A serial instruction: it starts once every earlier instruction has finished (R176). -/
def issueSerial (tk : Tk) (body : State → Nat → Strand → Eff) (s : State) : Out := issueOn .serial (fun _ => none) tk body s

/-- The plane `b` among the two (R176). -/
def planeBit (b : Bool) : BitVec 2 := if b then 2#2 else 1#2

/-- The unfinished instructions that a load of plane `b` may go ahead of, newest first, of a strand's instructions newest
first (R176). It goes ahead of none that uses the plane or comes before one that does. It goes ahead of none before an
earlier load or before one that popped tokens, since the strand may have seen those performed (log entry 10). -/
def passable (b : Bool) : List OrdPush → List OrdPush
  | [] => []
  | o :: r =>
    if o.loads || o.serial || o.planes &&& planeBit b != 0#2 then []
    else if o.pops then [o]
    else o :: passable b r

/-- The machine with a scratchpad as it was before instructions overwrote it, newest first. -/
def unspad (s : State) (l : List OrdPush) : State :=
  l.foldl (fun s o => { s with spad := o.undo.foldl (fun m g => mapSet {} m g.1 g.2) s.spad }) s

/-- What a load of plane `b` from scratchpad sees: the scratchpad before some of the array-pipe instructions it may go
ahead of, as a free value chooses; then the machine that goes on (R176, R285, log entry 10). -/
def loadView (s : State) (st : Strand) (b : Bool) : State × State :=
  let l := if popOf (streamOf st .M).pat = 0#16 then passable b st.mats.reverse else []
  let z := chooseOf s (List.range (l.length + 1))
  (unspad z.2 (l.take (z.1.getD 0)), z.2)

/-- The matrix instruction's latch replaced. -/
def setLatch (s : State) (core : Nat) (m : MLatch) : State := modStream s core .M fun x => { x with opnd := some m }

/-- What the instruction has captured, or what it captures now, once its checks pass (R178). -/
def captured (st : Strand) (c : Chk MLatch) : Chk MLatch :=
  match (streamOf st .M).opnd with
  | some m => .ok m
  | none => c

/-! ## Regions and rows -/

/-- Directory entries of a region: S, or 2S under SPILL (R187). -/
def Region.entries (g : Region) : Nat := if g.trapPol then g.slots else 2 * g.slots
/-- A directory entry. -/
def Region.entry (g : Region) (e : Nat) : BitVec 32 := mapGet 0#32 g.dir e
/-- A region with a directory entry replaced. -/
def Region.setEntry (g : Region) (e : Nat) (w : BitVec 32) : Region := { g with dir := mapSet 0#32 g.dir e w }
/-- Whether an entry holds a label (Table 9.3). -/
def entryV (w : BitVec 32) : Bool := w.getLsbD 15
/-- LABEL. -/
def entryLabel (w : BitVec 32) : Nat := fieldOf w 0 10
/-- Events ORed into an entry: [13:10] in the order UNF, SAT, INV, OV. -/
def entryEv (w : BitVec 32) (ev : Events) : BitVec 32 := w ||| (ev.setWidth 32 <<< 10)

/-- A configured region, or 0xFFF0 (Table 9.1). -/
def needRegion (st : Strand) (rg : Rg) : Chk Region :=
  match mapFind st.regions rg.toNat with
  | some g => .ok g
  | none => trapWith .reservedField 0xFFF0

/-- A region of the strand replaced. -/
def putRegion (st : Strand) (rg : Rg) (g : Region) : Strand := { st with regions := mapPut st.regions rg.toNat g }

/-- Where a row of an entry lies: an accumulator row, or an offset of its spill record in scratchpad (R187, R191). -/
inductive RowAt where
  | acc (row : Nat)
  | sp (off : Nat)
deriving DecidableEq, Repr

/-- Row `r` of entry `e` (R173, R191). -/
def rowAt (g : Region) (e r : Nat) : RowAt :=
  if e < g.slots then .acc (g.base + e * g.rows + r)
  else .sp (g.spill + (e - g.slots) * (64 + 512 * g.rows) + 64 + 512 * r)

/-- Whether a row may be read under GMODE = TRAP (step 4 of R179). -/
def rowReadable (s : State) (core : Nat) (st : Strand) (x : RowAt) : Bool :=
  match x with
  | .acc r => !st.gtrap || rowCur s core st r
  | .sp o => spReadableN s core st o
where
  spReadableN (s : State) (core : Nat) (st : Strand) (o : Nat) : Bool :=
    !st.gtrap || (List.range 9).all fun i =>
      decide ((o + 511) / 64 < o / 64 + i) || (spGran s core (o / 64 + i)).gen == st.cgen

/-- An accumulator row through tag_read, zero where it is not current. -/
def accRow (s : State) (core : Nat) (st : Strand) (row : Nat) : VBits :=
  if rowCur s core st row then (mapGet {} (quadAt s (quadOf core)).rows row).val else 0#4096

/-- An accumulator row written whole (R186). -/
def putAcc (s : State) (core : Nat) (st : Strand) (row : Nat) (v : VBits) : State :=
  modQuad s (quadOf core) fun q =>
    { q with
      rows := mapSet {} q.rows row
        { gen := st.cgen, core := BitVec.ofNat 2 (coreInQuad core), val := v, dirty := true } }

/-- 512 bytes of scratchpad, zero where stale. -/
def spRow (s : State) (core : Nat) (st : Strand) (o : Nat) : VBits :=
  ofBytes 4096 ((List.range 9).flatMap (fun i =>
    let g := spGran s core (o / 64 + i)
    granBytes (if g.gen = st.cgen then g.val else 0#512) 0 64) |>.drop (o % 64) |>.take 512)

/-- A row's bits. -/
def getRow (s : State) (core : Nat) (st : Strand) (x : RowAt) : VBits :=
  match x with
  | .acc r => accRow s core st r
  | .sp o => spRow s core st o

/-- A row written whole. -/
def putRow (s : State) (core : Nat) (st : Strand) (x : RowAt) (v : VBits) : State :=
  match x with
  | .acc r => putAcc s core st r v
  | .sp o => spWriteN 10 s core st.cgen o (toBytes 512 v)

/-! ## Slots (R173, R191) -/

/-- The entry of a label. -/
def findLabel (g : Region) (label : Nat) : Option Nat :=
  firstBelow g.entries fun e => entryV (g.entry e) && entryLabel (g.entry e) == label

/-- The slot of a label: a hit, the lowest free entry, or SLOT_EXHAUSTED; the flag says that it is new. -/
def pickSlot (g : Region) (label : Nat) : Chk (Nat × Bool) :=
  match findLabel g label with
  | some e => .ok (e, false)
  | none =>
    match firstBelow g.entries fun e => !entryV (g.entry e) with
    | some e => .ok (e, true)
    | none => trapWith .slotExhausted label

/-- A new entry takes its label and keeps its sticky event bits, which only mevclr and mregion clear (R196); its rows are zeroed,
or its record is written (R173, R191). -/
def allocSlot (s : State) (core : Nat) (st : Strand) (rg : Rg) (g : Region) (e label : Nat) : State :=
  let old := g.entry e &&& 0x3C00#32
  if e < g.slots then
    let s1 := modStrand s core fun st => putRegion st rg (g.setEntry e (BitVec.ofNat 32 (0x8000 + label) ||| old))
    iter g.rows s1 fun r s => putRow s core st (rowAt g e r) 0#4096
  else
    let w : BitVec 32 := BitVec.ofNat 32 (0xC000 + label) ||| old
    let g1 := { g.setEntry e w with status := g.status ||| 0x20#32 }
    let s1 := modStrand s core fun st => putRegion st rg g1
    let o := g.spill + (e - g.slots) * (64 + 512 * g.rows)
    let s2 := spWriteN 3 s1 core st.cgen o (toBytes 64 (w.setWidth 512))
    iter g.rows s2 fun r s => putRow s core st (rowAt g e r) 0#4096

/-- Events ORed into an entry of a region. -/
def raiseSlot (s : State) (core : Nat) (rg : Rg) (e : Nat) (ev : Events) : State :=
  modStrand s core fun st =>
    match mapFind st.regions rg.toNat with
    | some g => putRegion st rg (g.setEntry e (entryEv (g.entry e) ev))
    | none => st

end Sys2Proof.Machine
end

