-- ==== Sys2Proof/Machine/Vector.lean ====
section
/-! DEFINITION. Vector arithmetic, logic, comparisons, predicates, conversions, reductions, scans, permutes and vector
control (R17 to R20, R113 to R135, R144, R397). -/
namespace Sys2Proof.Machine
open Sys2Proof

/-! ## Families of formats (Table 6.2) -/

/-- Integer and floating-point tags. -/
def famArith (t : Nat) : Bool := decide (1 ≤ t) && decide (t ≤ 11)
/-- The sources of vwmul and vwadd. -/
def famWide (t : Nat) : Bool := famArith t && t != 6 && t != 7
/-- The sources of the seeds. -/
def famSeed (t : Nat) : Bool := t == 7 || t == 8 || t == 9
/-- The sources of vscan.sum. -/
def famScan (t : Nat) : Bool := decide (5 ≤ t) && decide (t ≤ 9)

/-! ## Element-wise arithmetic -/

/-- An element-wise operation on exact values: sources flushed, the exact result rounded once and saturated (R117). -/
def arith3 (tag : Nat) (z : RSet) (f : Ex → Ex → Ex → Ex × Bool) (a b c : Nat) : Rnd :=
  let v := fun (x : Nat) => flushEx tag z.ftz (valOf tag x)
  finishTag tag z (f (v a) (v b) (v c))

/-- The frame of R117: sources, agreed format, results in that format. `op` gives the result of an element. -/
def vecOp (tk : Tk) (vd : VReg) (srcs : List (VReg × Bool)) (ok : Nat → Bool)
    (op : Nat → RSet → Nat → Nat → Nat → Rnd) (s : State) : Out :=
  issue .V tk (fun s core st =>
    orTrap s (do
      let l ← readVs st srcs
      let p ← predOf s st
      let f ← arithFmt s l ok
      .ok (l, p, f)) fun (l, p, f) =>
    let w := tagW f
    let e := l.map fun v => vElems w v.val
    let a := e.getD 0 []
    let r := mapElems p w (op f (settings s st)) 0 a (e.getD 1 a) (e.getD 2 a)
    .fin (setStrand s core (raise (putV s st vd f w w (4096 / w) p r.1) r.2))) s

/-- A two-source instruction with BSEL (R14). -/
def vec2 (f : RMode → Ex → Ex → Ex × Bool) (tk : Tk) (vd va vb : VReg) (bsel : BitVec 2) (s : State) : Out :=
  vecOp tk vd [(va, bsel.getLsbD 0), (vb, bsel.getLsbD 1)] famArith
    (fun t z => arith3 t z fun a b _ => f z.rm a b) s

/-- R117. -/
def execVadd (tk : Tk) (vd va vb : VReg) (bsel : BitVec 2) (s : State) : Out := vec2 exAdd tk vd va vb bsel s
/-- R117. -/
def execVsub (tk : Tk) (vd va vb : VReg) (bsel : BitVec 2) (s : State) : Out :=
  vec2 (fun rm a b => exAdd rm a (exNeg b)) tk vd va vb bsel s
/-- R117. -/
def execVmul (tk : Tk) (vd va vb : VReg) (bsel : BitVec 2) (s : State) : Out :=
  vec2 (fun _ a b => exMul a b) tk vd va vb bsel s
/-- R118. -/
def execVmin (tk : Tk) (vd va vb : VReg) (bsel : BitVec 2) (s : State) : Out :=
  vec2 (fun _ a b => (exPick false a b, false)) tk vd va vb bsel s
/-- R118. -/
def execVmax (tk : Tk) (vd va vb : VReg) (bsel : BitVec 2) (s : State) : Out :=
  vec2 (fun _ a b => (exPick true a b, false)) tk vd va vb bsel s

/-- va × vb + vc with one rounding; INV from either invalid operation (R17, R118). -/
def exFma (rm : RMode) (a b c : Ex) : Ex × Bool :=
  let m := exMul a b
  let r := exAdd rm m.1 c
  (r.1, m.2 || r.2)

/-- R17. -/
def execVfma (tk : Tk) (vd va vb : VReg) (bsel : BitVec 2) (vc : VReg) (s : State) : Out :=
  vecOp tk vd [(va, bsel.getLsbD 0), (vb, bsel.getLsbD 1), (vc, false)] famArith
    (fun t z => arith3 t z (exFma z.rm)) s

/-- vabs and vneg: the sign bit of a floating-point element, the exact integer otherwise (R118). -/
def signOp (isNeg : Bool) (tag : Nat) (z : RSet) (a : Nat) : Rnd :=
  match fltOf tag with
  | some f =>
    let t := 2 ^ (f.w - 1)
    { enc := if isNeg then (if a < t then a + t else a - t) else a % t }
  | none => finishTag tag z (if isNeg then exNeg (valOf tag a) else exAbs (valOf tag a), false)

/-- R118. -/
def execVabs (tk : Tk) (vd va : VReg) (byp : Bool) (s : State) : Out :=
  vecOp tk vd [(va, byp)] famArith (fun t z a _ _ => signOp false t z a) s
/-- R118. -/
def execVneg (tk : Tk) (vd va : VReg) (byp : Bool) (s : State) : Out :=
  vecOp tk vd [(va, byp)] famArith (fun t z a _ _ => signOp true t z a) s

/-- A seed of each element (R120). -/
def vecSeed (g : Seed) (tk : Tk) (vd va : VReg) (byp : Bool) (s : State) : Out :=
  vecOp tk vd [(va, byp)] famSeed (fun t z a _ _ => seedOf g t z a) s

/-- R120. -/
def execVexp2 (tk : Tk) (vd va : VReg) (byp : Bool) (s : State) : Out := vecSeed .exp2 tk vd va byp s
/-- R120. -/
def execVlog2 (tk : Tk) (vd va : VReg) (byp : Bool) (s : State) : Out := vecSeed .log2 tk vd va byp s
/-- R120. -/
def execVrecip (tk : Tk) (vd va : VReg) (byp : Bool) (s : State) : Out := vecSeed .recip tk vd va byp s
/-- R120. -/
def execVrsqrt (tk : Tk) (vd va : VReg) (byp : Bool) (s : State) : Out := vecSeed .rsqrt tk vd va byp s

/-- The result tag of a widening instruction (Table 6.3). -/
def wideTag (f : Nat) : Nat :=
  match f with
  | 1 | 2 => 5
  | 3 | 4 | 5 => 6
  | _ => 7

/-- vwmul and vwadd: one rounding into the wider format, placed in k registers (R119). -/
def vecWide (f : RMode → Ex → Ex → Ex × Bool) (tk : Tk) (vd va vb : VReg) (s : State) : Out :=
  issue .V tk (fun s core st =>
    orTrap s (do
      let l ← readVs st [(va, false), (vb, false)]
      let p ← predOf s st
      let t ← arithFmt s l famWide
      let k := tagW (wideTag t) / tagW t
      checkWide vd k
      .ok (l, p, t, k)) fun (l, p, t, k) =>
    let z := settings s st
    let w := tagW t
    let v := fun (x : Nat) => flushEx t z.ftz (valOf t x)
    let e := l.map fun v => vElems w v.val
    let a := e.getD 0 []
    let r := mapElems p w (fun a b _ => finishTag (wideTag t) z (f z.rm (v a) (v b))) 0 a (e.getD 1 a) a
    .fin (setStrand s core (raise (putWide s st vd k (wideTag t) w (tagW (wideTag t)) p r.1) r.2))) s

/-- R119. -/
def execVwmul (tk : Tk) (vd va vb : VReg) (s : State) : Out := vecWide (fun _ a b => exMul a b) tk vd va vb s
/-- R119. -/
def execVwadd (tk : Tk) (vd va vb : VReg) (s : State) : Out := vecWide exAdd tk vd va vb s

/-! ## Width and tag of tag-agnostic instructions (R397) -/

/-- The tag of a current destination register, void otherwise. -/
def destTag (st : Strand) (vd : VReg) : Nat :=
  let v := vecReg st vd
  if v.gen = st.cgen then v.fmt.toNat else 15

/-- The tag that gives width and result tag where the first source's is `t` and the other data source's `u`. -/
def tagOr (s : State) (st : Strand) (vd : VReg) (p : Option PBits) (t u : Nat) : Nat :=
  if t ≠ 15 then t
  else if u ≠ 15 then u
  else if p.isSome ∧ transient s = false then destTag st vd
  else 15

/-- A whole result written under a tag, elements of width `w` predicated. -/
def putWhole (s : State) (st : Strand) (vd : VReg) (tag w : Nat) (p : Option PBits) (res : VBits) : Strand :=
  writeV s st (rotV st vd.toNat) tag res (writeMask p w w (4096 / w)) true

/-! ## Logic, shifts, selection and moves -/

/-- vand, vor, vxor (R121, R397). -/
def vecLogic (f : VBits → VBits → VBits) (tk : Tk) (vd va vb : VReg) (bsel : BitVec 2) (s : State) : Out :=
  issue .V tk (fun s core st =>
    orTrap s (do
      let l ← readVs st [(va, bsel.getLsbD 0), (vb, bsel.getLsbD 1)]
      let p ← predOf s st
      .ok (l, p)) fun (l, p) =>
    match l with
    | [a, b] =>
      let ta := a.fmt.toNat
      let tb := b.fmt.toNat
      let t := tagOr s st vd p ta tb
      let tag := if ta = 15 ∧ tb = 15 then t else (agree [ta, tb]).getD 14
      .fin (setStrand s core (putWhole s st vd tag (tagW t) p (f a.val b.val)))
    | _ => .fin s) s

/-- R121. -/
def execVand (tk : Tk) (vd va vb : VReg) (bsel : BitVec 2) (s : State) : Out :=
  vecLogic (fun a b => a &&& b) tk vd va vb bsel s
/-- R121. -/
def execVor (tk : Tk) (vd va vb : VReg) (bsel : BitVec 2) (s : State) : Out :=
  vecLogic (fun a b => a ||| b) tk vd va vb bsel s
/-- R121. -/
def execVxor (tk : Tk) (vd va vb : VReg) (bsel : BitVec 2) (s : State) : Out :=
  vecLogic (fun a b => a ^^^ b) tk vd va vb bsel s

/-- A shift of each element by vb's element mod w; a void va traps (R122), and so do sources of unequal element sizes (R116). -/
def vecShift (f : Nat → Nat → Nat → Nat) (tk : Tk) (vd va vb : VReg) (s : State) : Out :=
  issue .V tk (fun s core st =>
    orTrap s (do
      let a ← readV st va
      let b ← readV st vb
      let p ← predOf s st
      if a.fmt = 15#4 ∨ (b.fmt ≠ 15#4 ∧ tagW b.fmt.toNat ≠ tagW a.fmt.toNat) then trapOf .formatMismatch
      else .ok (a, b, p)) fun (a, b, p) =>
    let w := tagW a.fmt.toNat
    let l := (vElems w a.val).zipWith (fun x y => f w x (y % w)) (vElems w b.val)
    .fin (setStrand s core (putWhole s st vd a.fmt.toNat w p (vPack w l)))) s

/-- R122. -/
def execVshiftL (tk : Tk) (vd va vb : VReg) (s : State) : Out :=
  vecShift (fun w x n => x <<< n % 2 ^ w) tk vd va vb s
/-- R122. -/
def execVshiftR (tk : Tk) (vd va vb : VReg) (s : State) : Out := vecShift (fun _ x n => x >>> n) tk vd va vb s
/-- R122. -/
def execVshiftA (tk : Tk) (vd va vb : VReg) (s : State) : Out :=
  vecShift (fun w x n => wrapInt w (intVal true w x / 2 ^ n)) tk vd va vb s

/-- R123: va's element where pN's bit is 1, else vb's. DESIGN CHOICE (log entry 87): a void source gives 0x00 bytes, beside one of
lns6 too (R148). -/
def execVsel (tk : Tk) (vd va vb : VReg) (p : PReg) (s : State) : Out :=
  issue .V tk (fun s core st =>
    orTrap s (do
      let a ← readV st va
      let b ← readV st vb
      let q ← readP st p
      let pr ← predOf s st
      match agree [a.fmt.toNat, b.fmt.toNat] with
      | some t => .ok (a, b, q, pr, t)
      | none => trapOf .formatMismatch) fun (a, b, q, pr, t) =>
    let w := tagW t
    let m := vPack w ((List.range (4096 / w)).map fun j => if isActive (some q) w j then 2 ^ w - 1 else 0)
    .fin (setStrand s core (putWhole s st vd t w pr ((a.val &&& m) ||| (b.val &&& ~~~m))))) s

/-- A one-source, tag-agnostic instruction on va's elements (R123, R135, R397). -/
def vecMove (f : Nat → List Nat → List Nat) (tk : Tk) (vd va : VReg) (byp : Bool) (s : State) : Out :=
  issue .V tk (fun s core st =>
    orTrap s (do
      let l ← readVs st [(va, byp)]
      let p ← predOf s st
      .ok (l, p)) fun (l, p) =>
    match l with
    | [a] =>
      let t := tagOr s st vd p a.fmt.toNat 15
      let w := tagW t
      .fin (setStrand s core (putWhole s st vd t w p (vPack w (f (4096 / w) (vElems w a.val)))))
    | _ => .fin s) s

/-- R123. -/
def execVmov (tk : Tk) (vd va : VReg) (byp : Bool) (s : State) : Out := vecMove (fun _ l => l) tk vd va byp s

/-! ## Comparisons, predicates and branches -/

/-- The bits of a predicate whose groups of w / 4 bits carry the listed results (R66). -/
def pPack (w : Nat) (l : List Bool) : PBits :=
  BitVec.ofNat 1024 (packNat (w / 4) (l.map fun b => if b then 2 ^ (w / 4) - 1 else 0))

/-- The comparison of two elements, and whether it is invalid (R124). -/
inductive Cmp where
  | eq | lt | le | ne
deriving DecidableEq, Repr

/-- The result of a comparison and its events. -/
def cmpEx (c : Cmp) (a b : Ex) : Bool × Events :=
  if exIsNan a ∨ exIsNan b then (c == .ne, if c = .lt ∨ c = .le then evInv else 0#4)
  else
    match c with
    | .eq => (exEq a b, 0#4)
    | .lt => (exLt a b, 0#4)
    | .le => (!exLt b a, 0#4)
    | .ne => (!exEq a b, 0#4)

/-- vcmp: a whole predicate, 0 for inactive elements (R124). -/
def vecCmp (c : Cmp) (tk : Tk) (pd : PReg) (va vb : VReg) (s : State) : Out :=
  issue .V tk (fun s core st =>
    orTrap s (do
      let l ← readVs st [(va, false), (vb, false)]
      let p ← predOf s st
      let t ← arithFmt s l famArith
      .ok (l, p, t)) fun (l, p, t) =>
    let z := settings s st
    let w := tagW t
    let v := fun (x : Nat) => flushEx t z.ftz (valOf t x)
    let e := l.map fun v => vElems w v.val
    let a := e.getD 0 []
    let r := mapElems p w (fun a b _ =>
      let q := cmpEx c (v a) (v b)
      { enc := if q.1 then 1 else 0, ev := q.2 }) 0 a (e.getD 1 a) a
    .fin (setStrand s core (raise (writeP st pd (pPack w (r.1.map (· == 1)))) r.2))) s

/-- R124. -/
def execVcmpEq (tk : Tk) (pd : PReg) (va vb : VReg) (s : State) : Out := vecCmp .eq tk pd va vb s
/-- R124. -/
def execVcmpLt (tk : Tk) (pd : PReg) (va vb : VReg) (s : State) : Out := vecCmp .lt tk pd va vb s
/-- R124. -/
def execVcmpLe (tk : Tk) (pd : PReg) (va vb : VReg) (s : State) : Out := vecCmp .le tk pd va vb s
/-- R124. -/
def execVcmpNe (tk : Tk) (pd : PReg) (va vb : VReg) (s : State) : Out := vecCmp .ne tk pd va vb s

/-- Predicate logic of two sources (R125). -/
def pLogic (f : PBits → PBits → PBits) (tk : Tk) (pd pa pb : PReg) (s : State) : Out :=
  issue .V tk (fun s core st =>
    orTrap s (do
      let a ← readP st pa
      let b ← readP st pb
      .ok (f a b)) fun r => .fin (setStrand s core (writeP st pd r))) s

/-- Predicate logic of one source (R125). -/
def pLogic1 (f : PBits → PBits) (tk : Tk) (pd pa : PReg) (s : State) : Out :=
  issue .V tk (fun s core st => orTrap s (readP st pa) fun a => .fin (setStrand s core (writeP st pd (f a)))) s

/-- R125. -/
def execPand (tk : Tk) (pd pa pb : PReg) (s : State) : Out := pLogic (fun a b => a &&& b) tk pd pa pb s
/-- R125. -/
def execPor (tk : Tk) (pd pa pb : PReg) (s : State) : Out := pLogic (fun a b => a ||| b) tk pd pa pb s
/-- R125. -/
def execPxor (tk : Tk) (pd pa pb : PReg) (s : State) : Out := pLogic (fun a b => a ^^^ b) tk pd pa pb s
/-- R125. -/
def execPandn (tk : Tk) (pd pa pb : PReg) (s : State) : Out := pLogic (fun a b => a &&& ~~~b) tk pd pa pb s
/-- R125. -/
def execPnot (tk : Tk) (pd pa : PReg) (s : State) : Out := pLogic1 (fun a => ~~~a) tk pd pa s
/-- R125. -/
def execPmov (tk : Tk) (pd pa : PReg) (s : State) : Out := pLogic1 (fun a => a) tk pd pa s

/-- The element width of LSZ: 4, 8, 16 or 32 bits (R126). -/
def lszW (lsz : BitVec 2) : Nat := 4 * 2 ^ lsz.toNat

/-- R126. -/
def execPwhile (tk : Tk) (pd : PReg) (xa : XReg) (lsz : BitVec 2) (s : State) : Out :=
  issue .V tk (fun s core st =>
    orTrap s (readX st .V xa) fun a =>
    let w := lszW lsz
    .fin (setStrand s core (writeP st pd (pPack w ((List.range (4096 / w)).map fun j => decide (j < a.toNat)))))) s

/-- R126. -/
def execPcnt (tk : Tk) (pa : PReg) (xd : XReg) (lsz : BitVec 2) (s : State) : Out :=
  issue .V tk (fun s core st =>
    orTrap s (readP st pa) fun p =>
    let w := lszW lsz
    finX s core .V st xd (d64 ((List.range (4096 / w)).filter fun j => isActive (some p) w j).length)) s

/-- vbr: a branch on all 1024 bits of a predicate (R127). -/
def vecBranch (c : PBits → Bool) (tk : Tk) (p : PReg) (off : BitVec 13) (s : State) : Out :=
  issue .V tk (fun s _ st =>
    orTrap s (readP st p) fun b =>
    if c b then orTrap s (checkRel s st .V off) fun t => .jump s t else .fin s) s

/-- R127. -/
def execVbrAny (tk : Tk) (p : PReg) (off : BitVec 13) (s : State) : Out := vecBranch (fun b => b != 0#1024) tk p off s
/-- R127. -/
def execVbrAll (tk : Tk) (p : PReg) (off : BitVec 13) (s : State) : Out :=
  vecBranch (fun b => b == BitVec.allOnes 1024) tk p off s
/-- R127. -/
def execVbrNone (tk : Tk) (p : PReg) (off : BitVec 13) (s : State) : Out := vecBranch (fun b => b == 0#1024) tk p off s

/-- R19. -/
def execVnop (tk : Tk) (s : State) : Out := issue .V tk (fun s _ _ => .fin s) s

/-- R20. -/
def execVjmp (tk : Tk) (off : BitVec 20) (s : State) : Out :=
  issue .V tk (fun s _ st => orTrap s (checkRel s st .V off) fun t => .jump s t) s

/-- rotate() and stage(b) of R20. -/
def rotStage (st : Strand) (b : Bool) : Strand :=
  let z := rotSize st.sys.rotsz
  if z = 0 then st
  else
    let st1 := { st with sys := { st.sys with vrb := BitVec.ofNat 5 ((st.sys.vrb.toNat + z - 1) % z) } }
    writeP st1 16#5 (if b then BitVec.allOnes 1024 else 0#1024)

/-- R20: the target is checked before VLC, VEC, VRB or a predicate changes. -/
def execVloop (tk : Tk) (off : BitVec 20) (s : State) : Out :=
  issue .V tk (fun s core st =>
    if st.sys.vlc ≠ 0#32 then
      orTrap s (checkRel s st .V off) fun t =>
      .jump (setStrand s core (rotStage { st with sys := { st.sys with vlc := st.sys.vlc - 1 } } true)) t
    else if st.sys.vec ≠ 0#32 then
      orTrap s (checkRel s st .V off) fun t =>
      .jump (setStrand s core (rotStage { st with sys := { st.sys with vec := st.sys.vec - 1 } } false)) t
    else .fin s) s

/-- R144. -/
def execVend (tk : Tk) (s : State) : Out := issue .V tk (fun s _ _ => .after s .stop) s

/-! ## Conversions -/

/-- Whether Table 6.5 has a conversion from one tag to another: 8-fold widening, LNS6 and SC8 but with f32, raw, bits
and void have none (R128). -/
def cvtOk (src tgt : Nat) : Bool :=
  fmtData src && (src == tgt ||
    (if src == 12 || src == 13 then tgt == 7
     else if tgt == 12 || tgt == 13 then src == 7
     else decide (tagW tgt < 8 * tagW src)))

/-- The source tag of a conversion: its own; a void source has no format (R69). -/
def cvtSrc (a : VSrc) (tgt : Nat) : Chk Nat :=
  if cvtOk a.fmt.toNat tgt then .ok a.fmt.toNat else trapOf .formatMismatch

/-- The largest of the magnitudes of the active elements: FP32, and whether a NaN was among them (R129, R167). -/
def amaxOf (tag : Nat) (p : Option PBits) (l : List Nat) : BitVec 32 × Bool :=
  let r := (l.foldl (fun (acc : Nat × (Ex × Bool)) x =>
    if isActive p (tagW tag) acc.1 then
      let v := exAbs (valOf tag x)
      (acc.1 + 1, if exIsNan v then (acc.2.1, true) else (if exLt acc.2.1 v then v else acc.2.1, acc.2.2))
    else (acc.1 + 1, acc.2)) (0, (Ex.fin false 0 0, false))).2
  (BitVec.ofNat 32 (fF32.round .rup false r.1).enc, r.2)

/-- The merge into AMAXn and AMAXST (R167). -/
def mergeAmax (st : Strand) (n : Nat) (m : BitVec 32 × Bool) : Strand :=
  let old := mapGet 0#32 st.sys.amax n
  { st with
    sys := { st.sys with
      amax := mapSet 0#32 st.sys.amax n (if old.toNat < m.1.toNat then m.1 else old)
      amaxst := if m.2 then st.sys.amaxst ||| (1#4 <<< n) else st.sys.amaxst } }

/-- vcvt and vcvt.amax (R128, R129): FMT replaces TGT. -/
def vecCvt (amax : Option (BitVec 2)) (tk : Tk) (vd va : VReg) (tgt : BitVec 4) (s : State) : Out :=
  issue .V tk (fun s core st =>
    let t := if fmtOver s ≠ 0 then fmtOver s else tgt.toNat
    orTrap s (do
      let a ← readV st va
      let p ← predOf s st
      let f ← cvtSrc a t
      let k := tagW t / tagW f
      if 1 < k then checkWide vd k
      .ok (a, p, f, k)) fun (a, p, f, k) =>
    let l := vElems (tagW f) a.val
    let z := settings s st
    let r := mapElems p (tagW f) (fun x _ _ => convert f t z x) 0 l l l
    let st1 := if 1 < k then putWide s st vd k t (tagW f) (tagW t) p r.1
      else putV s st vd t (tagW f) (tagW t) l.length p r.1
    let st2 := match amax with
      | some n => mergeAmax st1 n.toNat (amaxOf f p l)
      | none => st1
    .fin (setStrand s core (raise st2 r.2))) s

/-- R18, R128. -/
def execVcvt (tk : Tk) (vd va : VReg) (tgt : BitVec 4) (s : State) : Out := vecCvt none tk vd va tgt s
/-- R129. -/
def execVcvtAmax (tk : Tk) (vd va : VReg) (tgt : BitVec 4) (n : BitVec 2) (s : State) : Out :=
  vecCvt (some n) tk vd va tgt s

/-- R130: va's bytes under another tag. -/
def execVcast (tk : Tk) (vd va : VReg) (tgt : BitVec 4) (s : State) : Out :=
  issue .V tk (fun s core st =>
    orTrap s (do
      let a ← readV st va
      let p ← predOf s st
      .ok (a, p)) fun (a, p) =>
    .fin (setStrand s core (putWhole s st vd tgt.toNat (tagW tgt.toNat) p a.val))) s

/-! ## Scalars and vectors (R131) -/

/-- R131: every element := xa[w-1:0]. -/
def execVsplat (tk : Tk) (vd : VReg) (xa : XReg) (tag : BitVec 4) (s : State) : Out :=
  issue .V tk (fun s core st =>
    orTrap s (do
      let a ← readX st .V xa
      let p ← predOf s st
      .ok (a, p)) fun (a, p) =>
    let w := tagW tag.toNat
    let r := vPack w (List.replicate (4096 / w) (a.toNat % 2 ^ w))
    .fin (setStrand s core (putWhole s st vd tag.toNat w p r))) s

/-- R131, R397: element xb of va; a void va gives 0. -/
def execVext (tk : Tk) (va : VReg) (xd xb : XReg) (s : State) : Out :=
  issue .V tk (fun s core st =>
    orTrap s (do
      let a ← readV st va
      let b ← readX st .V xb
      .ok (a, b)) fun (a, b) =>
    let t := a.fmt.toNat
    let w := tagW t
    let x := (vElems w a.val).getD b.toNat 0
    finX s core .V st xd (if intOf t = some true then i64 (intVal true w x) else d64 x)) s

/-- R131: one element, a partial write; a current vd of another tag traps unless the result is transient (R16). With an index
out of range nothing is written and no bypass entry is made (log entry 44). -/
def execVins (tk : Tk) (vd : VReg) (xa xb : XReg) (tag : BitVec 4) (s : State) : Out :=
  issue .V tk (fun s core st =>
    orTrap s (do
      let (a, b) ← readX2 st .V xa xb
      let p ← predOf s st
      if transient s = false ∧ (vecReg st vd).gen = st.cgen ∧ (vecReg st vd).fmt ≠ tag then trapOf .formatMismatch
      else .ok (a, b, p)) fun (a, b, p) =>
    let w := tagW tag.toNat
    let j := b.toNat
    if 4096 / w ≤ j then .fin s
    else
    let hit := isActive p w j
    let mask : VBits := if hit then BitVec.ofNat 4096 ((2 ^ w - 1) <<< (j * w)) else 0#4096
    let res : VBits := if hit then BitVec.ofNat 4096 ((a.toNat % 2 ^ w) <<< (j * w)) else 0#4096
    .fin (setStrand s core (writeV s st (rotV st vd.toNat) tag.toNat res mask true))) s

/-- R131: element j := (xa + j × xb) mod 2^w. -/
def execViota (tk : Tk) (vd : VReg) (xa xb : XReg) (tag : BitVec 4) (s : State) : Out :=
  issue .V tk (fun s core st =>
    orTrap s (do
      let (a, b) ← readX2 st .V xa xb
      let p ← predOf s st
      .ok (a, b, p)) fun (a, b, p) =>
    let w := tagW tag.toNat
    let r := vPack w ((List.range (4096 / w)).map fun j => (a.toNat + j * b.toNat) % 2 ^ w)
    .fin (setStrand s core (putWhole s st vd tag.toNat w p r))) s

/-! ## Reductions and scans -/

/-- One level of the tree of R132: pairs combined, an absent child passed over. -/
def redLevel {α : Type} (f : α → α → α × Events) : List (Option α) → List (Option α) × Events
  | a :: b :: r =>
    let z := redLevel f r
    match a, b with
    | some x, some y =>
      let c := f x y
      (some c.1 :: z.1, c.2 ||| z.2)
    | some x, none => (some x :: z.1, z.2)
    | none, y => (y :: z.1, z.2)
  | l => (l, 0#4)

/-- The root of the tree over `k` levels. -/
def redTree {α : Type} (f : α → α → α × Events) (k : Nat) (l : List (Option α)) : Option α × Events :=
  match k with
  | 0 => ((l.getD 0 none), 0#4)
  | n + 1 =>
    let a := redLevel f l
    let b := redTree f n a.1
    (b.1, a.2 ||| b.2)

/-- The leaves of a reduction: inactive elements are absent. -/
def leaves {α : Type} (p : Option PBits) (w : Nat) (f : Nat → α) (j : Nat) : List Nat → List (Option α)
  | [] => []
  | x :: r => (if isActive p w j then some (f x) else none) :: leaves p w f (j + 1) r

/-- A node of a floating-point sum, on f32 encodings (Table 6.7). -/
def sumF32 (z : RSet) (x y : Nat) : Nat × Events :=
  let v := fun (x : Nat) => flushEx 7 z.ftz (valOf 7 x)
  let r := finishTag 7 z (exAdd z.rm (v x) (v y))
  (r.enc, r.ev)

/-- A node of vmin or vmax on encodings of a format (R118). -/
def pickTag (tag : Nat) (isMax : Bool) (z : RSet) (x y : Nat) : Nat × Events :=
  let v := fun (x : Nat) => flushEx tag z.ftz (valOf tag x)
  let r := finishTag tag z (exPick isMax (v x) (v y), false)
  (r.enc, r.ev)

/-- A source element in its own format as a reduction or scan takes it: flushed under FTZ, a NaN canonical (R148, R160). -/
def srcElem (tag : Nat) (z : RSet) (x : Nat) : Nat := (finishTag tag { z with sat := false } (flushEx tag z.ftz (valOf tag x), false)).enc

/-- A source element as f32, exactly; a subnormal is flushed under FTZ where its format flushes (R132, R160). -/
def toF32 (tag : Nat) (z : RSet) (x : Nat) : Nat := (fF32.round .rne false (flushEx tag z.ftz (valOf tag x))).enc

/-- The reductions of Table 6.7 on elements: the result's tag, encoding and events. -/
inductive Red where
  | sum | max | min | amax
deriving DecidableEq, Repr

/-- Table 6.7. -/
def reduce (k : Red) (tag : Nat) (z : RSet) (p : Option PBits) (l : List Nat) : Nat × Rnd :=
  let w := tagW tag
  match k with
  | .sum =>
    if (fltOf tag).isSome then
      let r := redTree (sumF32 z) 10 (leaves p w (toF32 tag z) 0 l)
      (7, { enc := r.1.getD 0, ev := r.2 })
    else
      let v : Int := (leaves p w (fun x => intVal (intOf tag == some true) w x) 0 l).foldl
        (fun (a : Int) x => a + x.getD 0) 0
      (6, satTag 6 z.sat (roundInt true 32 v))
  | .max | .min =>
    let r := redTree (pickTag tag (k == .max) z) 10 (leaves p w (srcElem tag z) 0 l)
    (tag, { enc := r.1.getD 0, ev := r.2 })
  | .amax =>
    let pick := fun (a b : Ex) => (exPick true a b, (0#4 : Events))
    let r := redTree pick 10 (leaves p w (fun x => exAbs (flushEx tag z.ftz (valOf tag x))) 0 l)
    match r.1 with
    | some v => (tag, finishTag tag z (v, false))
    | none => (tag, { enc := 0 })

/-- vred: one result in element 0, written whole (R132). -/
def vecRed (k : Red) (tk : Tk) (vd va : VReg) (byp : Bool) (s : State) : Out :=
  issue .V tk (fun s core st =>
    orTrap s (do
      let l ← readVs st [(va, byp)]
      let p ← predOf s st
      let t ← arithFmt s l famArith
      .ok (l, p, t)) fun (l, p, t) =>
    match l with
    | [a] =>
      let r := reduce k t (settings s st) p (vElems (tagW t) a.val)
      .fin (setStrand s core
        (raise (putV s st vd r.1 (tagW t) (tagW r.1) 0 none [r.2.enc]) r.2.ev))
    | _ => .fin s) s

/-- R132. -/
def execVredSum (tk : Tk) (vd va : VReg) (byp : Bool) (s : State) : Out := vecRed .sum tk vd va byp s
/-- R132. -/
def execVredMax (tk : Tk) (vd va : VReg) (byp : Bool) (s : State) : Out := vecRed .max tk vd va byp s
/-- R132. -/
def execVredMin (tk : Tk) (vd va : VReg) (byp : Bool) (s : State) : Out := vecRed .min tk vd va byp s
/-- R132. -/
def execVredAmax (tk : Tk) (vd va : VReg) (byp : Bool) (s : State) : Out := vecRed .amax tk vd va byp s

/-- The inclusive prefixes of active elements in element order (R133). -/
def scan (f : Nat → Nat → Nat × Events) (p : Option PBits) (w : Nat) (j : Nat) (acc : Option Nat) :
    List Nat → List Nat × Events
  | [] => ([], 0#4)
  | x :: r =>
    if isActive p w j then
      let c := match acc with
        | none => (x, (0#4 : Events))
        | some y => f y x
      let z := scan f p w (j + 1) (some c.1) r
      (c.1 :: z.1, c.2 ||| z.2)
    else
      let z := scan f p w (j + 1) acc r
      (0 :: z.1, z.2)

/-- A node of an i32 sum. -/
def sumI32 (z : RSet) (x y : Nat) : Nat × Events :=
  let r := satTag 6 z.sat (roundInt true 32 (intVal true 32 x + intVal true 32 y))
  (r.enc, r.ev)

/-- R133: .sum in f32 or i32; 16-bit sources fill a register pair. -/
def execVscanSum (tk : Tk) (vd va : VReg) (byp : Bool) (s : State) : Out :=
  issue .V tk (fun s core st =>
    orTrap s (do
      let l ← readVs st [(va, byp)]
      let p ← predOf s st
      let t ← arithFmt s l famScan
      let k := 32 / tagW t
      if 1 < k then checkWide vd k
      .ok (l, p, t, k)) fun (l, p, t, k) =>
    match l with
    | [a] =>
      let z := settings s st
      let w := tagW t
      let e := vElems w a.val
      let flt := (fltOf t).isSome
      let leaf := e.map fun x => if flt then toF32 t z x else wrapInt 32 (intVal true w x)
      let r := scan (if flt then sumF32 z else sumI32 z) p w 0 none leaf
      let tag := if flt then 7 else 6
      let st1 := if 1 < k then putWide s st vd k tag w 32 p r.1 else putV s st vd tag w 32 e.length p r.1
      .fin (setStrand s core (raise st1 r.2))
    | _ => .fin s) s

/-- R133: .max in the source format. -/
def execVscanMax (tk : Tk) (vd va : VReg) (byp : Bool) (s : State) : Out :=
  issue .V tk (fun s core st =>
    orTrap s (do
      let l ← readVs st [(va, byp)]
      let p ← predOf s st
      let t ← arithFmt s l famArith
      .ok (l, p, t)) fun (l, p, t) =>
    match l with
    | [a] =>
      let w := tagW t
      let z := settings s st
      let e := (vElems w a.val).map (srcElem t z)
      let r := scan (pickTag t true z) p w 0 none e
      .fin (setStrand s core (raise (putV s st vd t w w e.length p r.1) r.2))
    | _ => .fin s) s

/-! ## Permutes -/

/-- R134: va's element at each index of vb. -/
def execVperm (tk : Tk) (vd va vb : VReg) (s : State) : Out :=
  issue .V tk (fun s core st =>
    orTrap s (do
      let a ← readV st va
      let b ← readV st vb
      let p ← predOf s st
      .ok (a, b, p)) fun (a, b, p) =>
    let t := tagOr s st vd p a.fmt.toNat 15
    let w := tagW t
    let l := (vElems w b.val).map fun i => if i < 4096 / w then a.val.toNat >>> (i * w) % 2 ^ w else 0
    .fin (setStrand s core (putWhole s st vd t w p (vPack w l)))) s

/-- A permute of two data sources, which must have equal element sizes (R135, R397). -/
def vecPerm2 (f : Nat → List Nat → List Nat → List Nat) (tk : Tk) (vd va vb : VReg) (s : State) : Out :=
  issue .V tk (fun s core st =>
    orTrap s (do
      let a ← readV st va
      let b ← readV st vb
      let p ← predOf s st
      if a.fmt ≠ 15#4 ∧ b.fmt ≠ 15#4 ∧ tagW a.fmt.toNat ≠ tagW b.fmt.toNat then trapOf .formatMismatch
      else .ok (a, b, p)) fun (a, b, p) =>
    let t := tagOr s st vd p a.fmt.toNat b.fmt.toNat
    let w := tagW t
    let l := f (4096 / w) (vElems w a.val) (vElems w b.val)
    .fin (setStrand s core (putWhole s st vd t w p (vPack w l)))) s

/-- Elements of two lists by turns. -/
def interleave : List Nat → List Nat → List Nat
  | a :: as, b :: bs => a :: b :: interleave as bs
  | _, _ => []

/-- Every second element. -/
def evens : List Nat → List Nat
  | a :: _ :: r => a :: evens r
  | l => l

/-- R135. -/
def execVslideUp (tk : Tk) (vd va vb : VReg) (s : State) : Out :=
  vecPerm2 (fun n a b => b.getD (n - 1) 0 :: a.take (n - 1)) tk vd va vb s
/-- R135. -/
def execVslideDn (tk : Tk) (vd va vb : VReg) (s : State) : Out :=
  vecPerm2 (fun _ a b => a.drop 1 ++ [b.headD 0]) tk vd va vb s
/-- R135. -/
def execVzip (tk : Tk) (vd va vb : VReg) (s : State) : Out :=
  vecPerm2 (fun n a b => interleave (a.take (n / 2)) (b.take (n / 2))) tk vd va vb s
/-- R135. -/
def execVunzip (tk : Tk) (vd va vb : VReg) (s : State) : Out :=
  vecPerm2 (fun _ a b => evens a ++ evens b) tk vd va vb s
/-- R135. -/
def execVrev (tk : Tk) (vd va : VReg) (byp : Bool) (s : State) : Out := vecMove (fun _ l => l.reverse) tk vd va byp s

end Sys2Proof.Machine
end

