-- ==== Sys2Proof/Machine/VMem.lean ====
section
/-! DEFINITION. Vector and tile loads and stores, chains, and the tile instructions (R80 to R82, R136 to R143). -/
namespace Sys2Proof.Machine
open Sys2Proof

/-! ## Accesses of many pieces -/

/-- A piece of an access: the element or row it belongs to, its offset in the object, its bytes. -/
structure Piece where
  tag : Nat
  off : Nat
  size : Nat
deriving DecidableEq, Repr

/-- A byte range cut at granule boundaries, with fuel. -/
def pieces (fuel tag off n : Nat) : List Piece :=
  match fuel with
  | 0 => []
  | f + 1 =>
    if n = 0 then []
    else
      let k := min n (64 - off % 64)
      { tag := tag, off := off, size := k } :: pieces f tag (off + k) (n - k)

/-- What reads of several pieces answer: the bytes of each, in order; a trap; a wait. -/
inductive Reads where
  | ok (l : List (List Byte)) (s : State)
  | trap (t : Trapped) (s : State)
  | ask (port : Option Nat) (s : State)

/-- Reads performed in order; the first that returns a memory-port cause traps with its element or row (R137). -/
def readPieces (s : State) (core : Nat) (st : Strand) (x : Reader) (obj ogen : Nat) : List Piece → Reads
  | [] => .ok [] s
  | p :: r =>
    match portRead s core st x obj ogen p.off p.size with
    | .trap t s1 => .trap { t with detail := BitVec.ofNat 16 p.tag } s1
    | .ask q s1 => .ask q s1
    | .ok l s1 =>
      match readPieces s1 core st x obj ogen r with
      | .ok ls s2 => .ok (l :: ls) s2
      | .trap t s2 => .trap t s2
      | .ask q s2 => .ask q s2

/-- Writes performed in order; the first that traps ends them, those before it stand (R137). -/
def writePieces (s : State) (core : Nat) (e : Engine) (via : Option Nat) (join : Bool) (idx obj ogen : Nat) :
    List (Piece × List Byte) → Except Trapped Unit × State
  | [] => (.ok (), s)
  | p :: r =>
    match portWrite s core e via join idx obj ogen p.1.off p.2 with
    | (.error t, s1) => (.error { t with detail := BitVec.ofNat 16 p.1.tag }, s1)
    | (.ok _, s1) => writePieces s1 core e via join idx obj ogen r

/-- Reads of an instruction, then `k` on the bytes. -/
def withPieces (s : State) (core : Nat) (e : Engine) (st : Strand) (cap : CapBits) (l : List Piece)
    (k : List (List Byte) → State → Eff) : Eff :=
  match readPieces s core st (readerOf st e) (capObj cap) (capOgen cap) l with
  | .ok b s1 => k b s1
  | .trap t s1 => .trap s1 t
  | .ask p s1 => awaitCxl s1 core e p

/-- Writes of an instruction as one store of the stream; under `join` those to one granule are one write. -/
def storePieces (s : State) (core : Nat) (e : Engine) (join : Bool) (st : Strand) (cap : CapBits) (l : List (Piece × List Byte)) :
    Eff :=
  let b := beginStore st e
  match writePieces (setStrand s core b.2) core e none join b.1 (capObj cap) (capOgen cap) l with
  | (.ok _, s1) => .stored s1
  | (.error t, s1) => .trap s1 t

/-! ## vld and vst (R136, R137) -/

/-- The offsets of the active elements of an access, with their numbers (Table 6.9). -/
def elemOffs (p : Option PBits) (e : Nat) (base : DWord) (step : Nat → DWord) : List (Nat × DWord) :=
  ((List.range (512 / e)).filter fun j => isActive p (8 * e) j).map fun j => (j, base + step j)

/-- The execution checks of R137 over all active elements, before any access: the places within the object. With no active
element no right is checked either (DESIGN CHOICE, log entry 83). -/
def vmCheck (c : CapBits) (n e : Nat) (rt : Right) (l : List (Nat × DWord)) : Chk (List Piece) := do
  let a ← l.mapM fun p => do
    let w ← capWindow c n p.2.toInt e rt
    .ok ({ tag := p.1, off := w, size := e } : Piece)
  match a.find? fun p => p.off % e ≠ 0 with
  | some p => trapWith .dataMisaligned p.tag
  | none => .ok a

/-- The address operand of layout VM: xo + imm × e, and the step of each element by mode. -/
inductive VMode where
  | contig
  | strided (xs : XReg)
  | indexed (vi : VReg)
deriving DecidableEq, Repr

/-- The offset of element j beyond the base (Table 6.9). -/
def vmStep (st : Strand) (m : VMode) (e : Nat) : Chk (Nat → DWord) :=
  match m with
  | .contig => .ok fun j => d64 (j * e)
  | .strided xs => do
    let v ← readX st .V xs
    .ok fun j => d64 j * v
  | .indexed vi => do
    let v ← readV st vi
    .ok fun j => d64 (e * (v.val.toNat >>> (j * 8 * e) % 2 ^ (8 * e)))

/-- The pieces of a vector access, checked. -/
def vmPieces (s : State) (st : Strand) (cn : CReg) (xo : XReg) (esz : BitVec 2) (imm : BitVec 16) (m : VMode)
    (rt : Right) : Chk (CapBits × Option PBits × List Piece) := do
  let e := sizeOf esz
  let c ← readC st cn
  let o ← readX st .V xo
  let step ← vmStep st m e
  let p ← predOf s st
  let l ← vmCheck c cn.toNat e rt (elemOffs p e (o + i64 (imm.toInt * e)) step)
  .ok (c, p, l)

/-- The elements of a load at their places: the bytes of element j, zero where it was not loaded. -/
def placeElems (n : Nat) (l : List (Piece × List Byte)) : List Nat :=
  (List.range n).map fun j =>
    match l.find? fun p => p.1.tag == j with
    | some p => (ofBytes 32 p.2).toNat
    | none => 0

/-- A vector load (R136, R137): written whole under the tag, or partially under PEN. -/
def vecLoad (tk : Tk) (vd : VReg) (cn : CReg) (xo : XReg) (esz : BitVec 2) (imm : BitVec 16) (tag : BitVec 4)
    (m : VMode) (s : State) : Out :=
  issue .V tk (fun s core st =>
    orTrap s (vmPieces s st cn xo esz imm m .r) fun (c, p, l) =>
    withPieces s core .V st c l fun b s1 =>
      let e := sizeOf esz
      .fin (modStrand s1 core fun st =>
        putV s1 st vd tag.toNat (8 * e) (8 * e) (512 / e) p (placeElems (512 / e) (l.zip b)))) s

/-- Whether the granules of a vector access are single-copy atomic: MODE 0 with a base that is a multiple of 64 (R137). -/
def granAtomic (m : VMode) (e : Nat) (l : List Piece) : Bool :=
  m == .contig && l.all fun p => p.off % 64 == p.tag * e % 64

/-- A vector store (R136, R137). -/
def vecStore (tk : Tk) (vs : VReg) (cn : CReg) (xo : XReg) (esz : BitVec 2) (imm : BitVec 16) (m : VMode)
    (s : State) : Out :=
  issue .V tk (fun s core st =>
    orTrap s (do
      let v ← readV st vs
      let x ← vmPieces s st cn xo esz imm m .w
      .ok (v, x)) fun (v, c, _, l) =>
    let e := sizeOf esz
    storePieces s core .V (granAtomic m e l) st c (l.map fun p => (p, toBytes e (v.val >>> (8 * e * p.tag))))) s

/-- R136. -/
def execVld (tk : Tk) (vd : VReg) (cn : CReg) (xo : XReg) (esz : BitVec 2) (imm : BitVec 16) (tag : BitVec 4)
    (s : State) : Out := vecLoad tk vd cn xo esz imm tag .contig s
/-- R136. -/
def execVldS (tk : Tk) (vd : VReg) (cn : CReg) (xo : XReg) (esz : BitVec 2) (imm : BitVec 16) (tag : BitVec 4)
    (xs : XReg) (s : State) : Out := vecLoad tk vd cn xo esz imm tag (.strided xs) s
/-- R136. -/
def execVldX (tk : Tk) (vd : VReg) (cn : CReg) (xo : XReg) (esz : BitVec 2) (imm : BitVec 16) (tag : BitVec 4)
    (vi : VReg) (s : State) : Out := vecLoad tk vd cn xo esz imm tag (.indexed vi) s
/-- R136, R137. -/
def execVst (tk : Tk) (vs : VReg) (cn : CReg) (xo : XReg) (esz : BitVec 2) (imm : BitVec 16) (s : State) : Out :=
  vecStore tk vs cn xo esz imm .contig s
/-- R136, R137. -/
def execVstS (tk : Tk) (vs : VReg) (cn : CReg) (xo : XReg) (esz : BitVec 2) (imm : BitVec 16) (xs : XReg)
    (s : State) : Out := vecStore tk vs cn xo esz imm (.strided xs) s
/-- R136, R137. -/
def execVstX (tk : Tk) (vs : VReg) (cn : CReg) (xo : XReg) (esz : BitVec 2) (imm : BitVec 16) (vi : VReg)
    (s : State) : Out := vecStore tk vs cn xo esz imm (.indexed vi) s

/-! ## vspld and vspst (R138) -/

/-- Bytes of scratchpad, `fill` in place of each byte of a stale granule. -/
def spFill (s : State) (core : Nat) (cgen : Gen) (fill : Byte) (off n : Nat) : List Byte :=
  let l := (List.range (n / 64 + 2)).flatMap fun i =>
    let g := spGran s core (off / 64 + i)
    if g.gen = cgen then granBytes g.val 0 64 else List.replicate 64 fill
  (l.drop (off % 64)).take n

/-- Bytes of scratchpad, zero in place of each byte of a stale granule. -/
def spBytes (s : State) (core : Nat) (cgen : Gen) (off n : Nat) : List Byte := spFill s core cgen 0#8 off n

/-- Whether a range of scratchpad may be read under a generation and mode. -/
def spReadable (s : State) (core : Nat) (cgen : Gen) (gtrap : Bool) (off n : Nat) : Bool :=
  !gtrap || n == 0 ||
    (List.range (n / 64 + 2)).all fun i =>
      let g := off / 64 + i
      decide ((off + n - 1) / 64 < g) || (spGran s core g).gen == cgen

/-- What a reader under a format tag finds in each byte of a stale granule: the LNS6 zero for lns6 (R152). -/
def staleByte (tag : Nat) : Byte := if tag = 12 then 0x10#8 else 0#8

/-- The address of a whole register in scratchpad (R138). -/
def vspAddr (xa : DWord) (imm : BitVec 5) : Chk Nat :=
  let a := (xa + i64 (imm.toInt * 512)).toNat
  if a % 64 ≠ 0 then trapOf .dataMisaligned
  else if 262144 < a + 512 then trapOf .scratchBound
  else .ok a

/-- R138. -/
def execVspld (tk : Tk) (vd : VReg) (xa : XReg) (tag : BitVec 4) (imm : BitVec 5) (s : State) : Out :=
  issue .V tk (fun s core st =>
    orTrap s (do
      let x ← readX st .V xa
      let p ← predOf s st
      let a ← vspAddr x imm
      if spReadable s core st.cgen st.gtrap a 512 then .ok (p, a) else trapOf .staleRead) fun (p, a) =>
    let w := tagW tag.toNat
    let b := spFill s core st.cgen (staleByte tag.toNat) a 512
    .fin (setStrand s core (putWhole s st vd tag.toNat w p (ofBytes 4096 b)))) s

/-- tag_write of the bits of a mask into a scratchpad granule; a stale granule is zero elsewhere (R46, R67). -/
def spWriteBits (s : State) (core : Nat) (cgen : Gen) (off : Nat) (mask v : Granule) : State :=
  let k := core * spadGrans + off / 64
  let g := mapGet {} s.spad k
  let old := if g.gen = cgen then g.val else 0#512
  { s with spad := mapSet {} s.spad k { gen := cgen, val := (old &&& ~~~mask) ||| (v &&& mask) } }

/-- R138: only granules with an active element are written. -/
def execVspst (tk : Tk) (vs : VReg) (xa : XReg) (imm : BitVec 5) (s : State) : Out :=
  issue .V tk (fun s core st =>
    orTrap s (do
      let v ← readV st vs
      let x ← readX st .V xa
      let p ← predOf s st
      let a ← vspAddr x imm
      .ok (v, p, a)) fun (v, p, a) =>
    let w := tagW v.fmt.toNat
    let mask := writeMask p w w (4096 / w)
    .fin (iter 8 s fun i s =>
      let m : Granule := bits mask (512 * i) 512
      if m = 0#512 then s else spWriteBits s core st.cgen (a + 64 * i) m (bits v.val (512 * i) 512))) s

/-! ## Chains (R140, R141) -/

/-- A slot of a chain: operation and selectors (Table 6.10). -/
structure ChainOp where
  opc : Nat
  a : Nat
  b : Nat
  c : Nat
deriving DecidableEq, Repr

/-- A chain descriptor's fields. -/
structure Chain where
  src0 : Nat
  src1 : Nat
  dst : Nat
  fin : Nat
  fout : Nat
  ops : List ChainOp
  k : List Nat
  rm : BitVec 3
  sat : Bool
  ftz : BitVec 2
deriving DecidableEq, Repr

/-- Which of A, B and C an operation uses; none for a reserved code (Table 6.11). -/
def chainUses (opc : Nat) : Option (Bool × Bool × Bool) :=
  match opc with
  | 1 | 2 | 3 | 5 | 6 => some (true, true, false)
  | 4 | 13 => some (true, true, true)
  | 7 | 8 | 9 | 10 | 11 | 12 => some (true, false, false)
  | _ => none

/-- A selector of slot `s`: sources, earlier slots, constants; 0 where the operation does not use it. -/
def selOk (used : Bool) (s sel : Nat) : Bool :=
  if used then decide (sel < 2 + s) || (decide (10 ≤ sel) && decide (sel ≤ 13)) else sel == 0

/-- Whether a slot word is valid for internal format `int` (Tables 6.10, 6.11; R141). -/
def chainSlotOk (isInt : Bool) (s : Nat) (w : Word) : Bool :=
  match chainUses (fieldOf w 0 8) with
  | none => false
  | some (a, b, c) =>
    zeroBits w 20 12 && selOk a s (fieldOf w 8 4) && selOk b s (fieldOf w 12 4) && selOk c s (fieldOf w 16 4) &&
    !(isInt && decide (9 ≤ fieldOf w 0 8) && decide (fieldOf w 0 8 ≤ 12))

/-- Whether a tag names a floating-point format. -/
def isFltTag (t : Nat) : Bool := decide (7 ≤ t) && decide (t ≤ 11)

/-- The descriptor of a chain, or the byte offset of its reserved value (R140). An NOPS out of range is reported before any other
field, since R140 gives a stale descriptor's NOPS of 0 as what traps; of several other fields DESIGN CHOICE (log entry 87): the
one at the lowest offset. -/
def chainDesc (g : Granule) : Except Nat Chain :=
  let w := fun i => elem 32 g i
  let fin := fieldOf (w 3) 0 4
  let nops := fieldOf (w 3) 8 4
  let tagOk := fun t => decide (1 ≤ t) && decide (t ≤ 11)
  if nops = 0 ∨ 8 < nops then .error 0x0D
  else
  match (List.range 3).find? fun i => !zeroBits (w i) 18 14 with
  | some i => .error (4 * i)
  | none =>
    if !tagOk fin || !tagOk (fieldOf (w 3) 4 4) then .error 0x0C
    else if zeroBits (w 3) 12 4 = false then .error 0x0D
    else if 6 ≤ fieldOf (w 3) 16 3 ∨ fieldOf (w 3) 20 2 = 3 ∨ zeroBits (w 3) 22 2 = false then .error 0x0E
    else if zeroBits (w 3) 24 8 = false then .error 0x0F
    else
      match (List.range nops).find? fun i => !chainSlotOk (!isFltTag fin) i (w (4 + i)) with
      | some i => .error (0x10 + 4 * i)
      | none =>
        .ok {
          src0 := fieldOf (w 0) 0 18, src1 := fieldOf (w 1) 0 18, dst := fieldOf (w 2) 0 18, fin := fin
          fout := fieldOf (w 3) 4 4
          ops := (List.range nops).map fun i =>
            { opc := fieldOf (w (4 + i)) 0 8, a := fieldOf (w (4 + i)) 8 4, b := fieldOf (w (4 + i)) 12 4,
              c := fieldOf (w (4 + i)) 16 4 }
          k := (List.range 4).map fun i => (w (12 + i)).toNat
          rm := bits (w 3) 16 3, sat := (w 3).getLsbD 19, ftz := bits (w 3) 20 2 }

/-- Whether some slot selects SRC1. -/
def Chain.usesSrc1 (d : Chain) : Bool :=
  d.ops.any fun o =>
    match chainUses o.opc with
    | some (a, b, c) => (a && o.a == 1) || (b && o.b == 1) || (c && o.c == 1)
    | none => false

/-- The value of a selector: the sources, the results so far (the first slot's first), the constants. -/
def selVal (d : Chain) (a b : Nat) (res : List Nat) (sel : Nat) : Nat :=
  if sel = 0 then a
  else if sel = 1 then b
  else if sel < 10 then res.getD (sel - 2) 0
  else d.k.getD (sel - 10) 0

/-- An operation of a chain in its internal format (Table 6.11). -/
def chainOp (t : Nat) (z : RSet) (opc a b c : Nat) : Rnd :=
  match opc with
  | 1 => arith3 t z (fun x y _ => exAdd z.rm x y) a b c
  | 2 => arith3 t z (fun x y _ => exAdd z.rm x (exNeg y)) a b c
  | 3 => arith3 t z (fun x y _ => exMul x y) a b c
  | 4 => arith3 t z (exFma z.rm) a b c
  | 5 => arith3 t z (fun x y _ => (exPick false x y, false)) a b c
  | 6 => arith3 t z (fun x y _ => (exPick true x y, false)) a b c
  | 7 => arith3 t z (fun x _ _ => (exAbs x, false)) a b c
  | 8 => arith3 t z (fun x _ _ => (exNeg x, false)) a b c
  | 9 => seedOf .exp2 t z a
  | 10 => seedOf .log2 t z a
  | 11 => seedOf .recip t z a
  | 12 => seedOf .rsqrt t z a
  | _ => arith3 t z (fun x y w => (if exLt (exInt 0) w then x else y, false)) a b c

/-- The slots of a chain on one element pair, then the conversion to FOUT. -/
def chainElem (d : Chain) (z : RSet) (t : Nat) (a b : Nat) : Nat × Events :=
  let r := d.ops.foldl (fun (acc : List Nat × Events) o =>
    let v := selVal d a b acc.1
    let x := chainOp t z o.opc (v o.a) (v o.b) (v o.c)
    (acc.1 ++ [x.enc], acc.2 ||| x.ev)) ([], 0#4)
  let o := convert t d.fout z (r.1.getLastD 0)
  (o.enc, r.2 ||| o.ev)

/-- A source element in the internal format, converted exactly (R141). -/
def chainIn (fin t x : Nat) : Nat :=
  if fin = t then x
  else if t = 6 then wrapInt 32 (intVal ((intOf fin).getD false) (tagW fin) x)
  else (roundTag 7 .rne false (valOf fin x)).enc

/-- The bytes of `n` elements of `w` bits. -/
def elemBytes (n w : Nat) : Nat := n * w / 8

/-- Elements of `w` bits of a byte list. -/
def unpack (w n : Nat) (l : List Byte) : List Nat :=
  let v := packNat 8 (l.map BitVec.toNat)
  (List.range n).map fun i => v >>> (i * w) % 2 ^ w

/-- The bytes of elements of `w` bits. -/
def packBytes (w : Nat) (l : List Nat) : List Byte :=
  let v := packNat w l
  (List.range (elemBytes l.length w)).map fun i => BitVec.ofNat 8 (v >>> (8 * i))

/-- The blocks of a chain from block `b` on, with fuel: reads, then writes, block by block (R141). -/
def chainBlocks (fuel : Nat) (d : Chain) (z : RSet) (core : Nat) (cgen : Gen) (n b : Nat) (s : State) (ev : Events) :
    State × Events :=
  match fuel with
  | 0 => (s, ev)
  | f + 1 =>
    let m := min 128 (n - 128 * b)
    let wi := tagW d.fin
    let wo := tagW d.fout
    let t := if isFltTag d.fin then 7 else 6
    let src := fun (o : Nat) =>
      (unpack wi m (spFill s core cgen 0#8 (o + elemBytes (128 * b) wi) (elemBytes m wi))).map (chainIn d.fin t)
    let r := (src d.src0).zipWith (chainElem d z t) (if d.usesSrc1 then src d.src1 else src d.src0)
    let out := packBytes wo (r.map Prod.fst)
    let s1 := spWriteN 66 s core cgen (d.dst + elemBytes (128 * b) wo) out
    chainBlocks f d z core cgen n (b + 1) s1 (r.foldl (fun e x => e ||| x.2) ev)

/-- The checks of a chain's ranges (R141). -/
def chainCheck (d : Chain) (n : Nat) : Chk Unit :=
  let bad := fun (o t : Nat) => o % max 1 (tagW t / 8) != 0 || (tagW t == 4 && n % 2 != 0)
  let past := fun (o t : Nat) => decide (262144 < o + elemBytes n (tagW t))
  let u := d.usesSrc1
  if bad d.src0 d.fin || (u && bad d.src1 d.fin) || bad d.dst d.fout then trapOf .dataMisaligned
  else if past d.src0 d.fin || (u && past d.src1 d.fin) || past d.dst d.fout then trapOf .scratchBound
  else .ok ()

/-- R140, R141. -/
def execVchain (tk : Tk) (xa xb : XReg) (s : State) : Out :=
  issue .V tk (fun s core st =>
    orTrap s (do
      let (a, n) ← readX2 st .V xa xb
      let o ← spCheck (a.toNat : Int) 64
      let g ← spGrans s core st.cgen st.gtrap o 1
      match chainDesc (ofBytes 512 g) with
      | .error e => trapWith .reservedField e
      | .ok d =>
        if n = 0#64 then .ok (d, 0)
        else do
          chainCheck d n.toNat
          let len := elemBytes n.toNat (tagW d.fin)
          if !spReadable s core st.cgen st.gtrap d.src0 len ||
              (d.usesSrc1 && !spReadable s core st.cgen st.gtrap d.src1 len) then trapOf .staleRead
          else .ok (d, n.toNat)) fun (d, n) =>
    let z := settingsOf st.sys.rmode d.rm d.sat d.ftz
    let r := chainBlocks ((n + 127) / 128) d z core st.cgen n 0 s 0#4
    .fin (modStrand r.1 core fun st => raise st r.2)) s

end Sys2Proof.Machine
end

