-- ==== Sys2Proof/Machine/Matrix.lean ====
section
/-! DEFINITION. Leases, weight planes, regions, streaming and the matrix context (R180 to R191, R195, R200 to R206). -/
namespace Sys2Proof.Machine
open Sys2Proof

/-! ## Checks -/

/-- A scratchpad range below 256 KiB. -/
def spIn (o n : Nat) : Chk Unit := if 262144 < o + n then trapOf .scratchBound else .ok ()

/-- A scratchpad structure or range starting at a multiple of `k`. -/
def spAligned (o k : Nat) : Chk Unit := if o % k ≠ 0 then trapOf .dataMisaligned else .ok ()

/-- STALE_READ of a scratchpad range under TRAP (R179, steps 2 and 4). -/
def spFresh (s : State) (core : Nat) (st : Strand) (o n : Nat) : Chk Unit :=
  if spReadable s core st.cgen st.gtrap o n then .ok () else trapOf .staleRead

/-- STALE_READ of rows under TRAP (step 4 of R179). -/
def rowsFresh (s : State) (core : Nat) (st : Strand) (l : List RowAt) : Chk Unit :=
  if l.all (rowReadable s core st) then .ok () else trapOf .staleRead

/-- A condition, or RESERVED_FIELD with a DETAIL of Table 9.1. -/
def needM (b : Bool) (d : Nat) : Chk Unit := if b then .ok () else trapWith .reservedField d

/-- A scalar register as a number. -/
def numX (st : Strand) (r : XReg) : Chk Nat := do
  let v ← readX st .M r
  .ok v.toNat

/-! ## Control forms -/

/-- R206. -/
def execMnop (tk : Tk) (s : State) : Out := issueFree tk (fun s _ _ => .fin s) s

/-- R206: MLC counts down and the stream branches, or falls through. -/
def execMloop (off : BitVec 20) (s : State) : Out :=
  issueFree 0#4 (fun s core st =>
    if st.sys.mlc = 0#32 then .fin s
    else
      orTrap s (checkRel s st .M off) fun t =>
      .jump (modStrand s core fun st => { st with sys := { st.sys with mlc := st.sys.mlc - 1 } }) t) s

/-- R180: ends the strand's lease, requests the array, and waits in Sync wait until it is granted. Its count is captured at
its issue (R178). -/
def execMlease (tk : Tk) (n : BitVec 9) (s : State) : Out :=
  issueCtl tk (fun s core st =>
    let run := match (streamOf st .M).opnd with
      | some m => m.base
      | none => if n = 0#9 then st.sys.leaseRun.toNat else n.toNat
    let s1 := if (streamOf st .M).arrived then s
      else requestArray (modStream (setLatch (endLease s core) core { base := run }) core .M fun x =>
        { x with arrived := true }) core run
    if holdsLease s1 core then .fin s1 else .wait s1) s

/-- R180. -/
def execMunlease (tk : Tk) (s : State) : Out := issueCtl tk (fun s core _ => .fin (endLease s core)) s

/-- R206: ends the lease and the stream. -/
def execMend (tk : Tk) (s : State) : Out := issueCtl tk (fun s core _ => .after (endLease s core) .stop) s

/-! ## Regions (R188) -/

/-- Whether two row ranges meet. -/
def rangesMeet (b n c m : Nat) : Bool := decide (b < c + m) && decide (c < b + n)

/-- Whether rows b to b + n - 1 meet a configured region of a strand, but for region `rg`. -/
def meetsRegion (st : Strand) (rg : Option Nat) (b n : Nat) : Bool :=
  st.regions.any fun p => some p.1 != rg && rangesMeet b n p.2.base (p.2.rows * p.2.slots)

/-- Whether rows meet a region of another strand on the quad. -/
def meetsOther (s : State) (core b n : Nat) : Bool :=
  (List.range 4).any fun c =>
    let o := 4 * quadOf core + c
    o != core && match strandAt s o with
      | some st => meetsRegion st none b n
      | none => false

/-- The checks of R188 on a region that is to be configured, in order; none where they pass. -/
def regionBad (s : State) (core : Nat) (st : Strand) (rg b n slog spill : Nat) (trapPol : Bool) : Option Nat :=
  let rows := n * 2 ^ slog
  if n % 16 ≠ 0 ∨ 128 < n then some 0xFFF1
  else if 1024 < b + rows then some 0xFFF2
  else if meetsRegion st (some rg) b rows then some 0xFFF3
  else if meetsOther s core b rows then some 0xFFF4
  else if trapPol = false ∧ 262144 < spill + 2 ^ slog * (64 + 512 * n) then some 0xFFF5
  else none

/-- R188. -/
def execMregion (tk : Tk) (rg : Rg) (xa xb : XReg) (trapPol : Bool) (slog : BitVec 3) (spill : BitVec 12)
    (s : State) : Out :=
  issueCtl tk (fun s core st =>
    orTrap s (do
      let (b, n) ← readX2 st .M xa xb
      match (if n = 0#64 then none
        else regionBad s core st rg.toNat b.toNat n.toNat slog.toNat (spill.toNat * 64) trapPol) with
      | some d => trapWith .reservedField d
      | none => .ok (b.toNat, n.toNat)) fun (b, n) =>
    if n = 0 then .fin (modStrand s core fun st => { st with regions := mapErase st.regions rg.toNat })
    else
      let g : Region :=
        { base := b, rows := n, slog := slog.toNat, trapPol := trapPol, spill := spill.toNat * 64 }
      .fin (modStrand (writeOutRows s (quadOf core) b (n * g.slots)) core fun st => putRegion st rg g)) s

/-! ## Weight planes (R183 to R185) -/

/-- The strand's plane changed by `f`: zero-filled and owned by it first where it is not current (R182, R184). -/
def writePlane (s : State) (core : Nat) (st : Strand) (b : Bool) (f : Plane → Plane) : State :=
  modQuad s (quadOf core) fun q =>
    let p := planeOf q b
    let base : Plane := if planeCur p core st then p
      else { gen := st.cgen, core := BitVec.ofNat 2 (coreInQuad core) }
    setPlane q b { f base with
      dirty := true
      held := none }

/-- A row of a plane is written. -/
def planeRow (s : State) (core : Nat) (st : Strand) (b : Bool) (k : Nat) (v : BitVec 2048) : State :=
  writePlane s core st b fun p => { p with rows := mapSet 0#2048 p.rows k v }

/-- MUPC and MROW (Table 9.9). -/
def setProgress (s : State) (core phase row : Nat) : State :=
  modStrand s core fun st => { st with
    sys := { st.sys with
      mupc := d64 phase
      mrow := d64 row } }

/-- 512 bytes of 0x7F: the scales of an image without any (R184). -/
def unitScales : BitVec 4096 := ofBytes 4096 (List.replicate 512 0x7F#8)

/-- The answer of a CXL request has served its unit: the next unit asks again (R370). -/
def spendAns (s : State) (core : Nat) (e : Engine) : State :=
  modStream s core e fun x => { x with
    asked := false
    ans := none }

/-- A read of an instruction that proceeds by units, through an access queue of the matrix load pipe (R228): a cause stops it
with its progress (Table 9.9), a wait keeps its place, and the bytes go to `k` (R178, R205). -/
def readUnit (s : State) (core : Nat) (st : Strand) (ans : Option CxlResult) (m : MLatch) (l : List Piece)
    (k : List Byte → State → Eff) : Eff :=
  match readPieces s core st { know := (streamOf st .M).know, via := some (6 + m.phase % 2), ans := ans } (capObj m.cap)
      (capOgen m.cap) l with
  | .ok b s1 => k b.flatten (if ans.isSome then spendAns s1 core .M else s1)
  | .trap t s1 => .trapMid (setProgress (setLatch s1 core m) core m.phase m.row) t
  | .ask p s1 => awaitCxl (setLatch s1 core m) core .M p

/-- A load of plane rows from memory, from the latch's row on, with fuel (R184, R205). -/
def loadRows (fuel : Nat) (s : State) (core : Nat) (st : Strand) (b : Bool) (ans : Option CxlResult) (m : MLatch) : Eff :=
  match fuel with
  | 0 =>
    if m.en then
      readUnit s core st ans m (pieces 8 0 (m.base + 32768) 512) fun l s1 =>
        .fin (setProgress (writePlane s1 core st b fun p => { p with scales := ofBytes 4096 l }) core 0 0)
    else .fin (setProgress (writePlane s core st b fun p => { p with scales := unitScales }) core 0 0)
  | f + 1 =>
    readUnit s core st ans m (pieces 4 0 (m.base + 256 * m.row) 256) fun l s1 =>
      loadRows f (planeRow s1 core st b m.row (ofBytes 2048 l)) core st b none { m with row := m.row + 1 }

/-- R184: from memory. -/
def execMwload (tk : Tk) (cn : CReg) (xa : XReg) (pl : Bool) (s : State) : Out :=
  issueLoad tk (fun s core st =>
    orTrap s (captured st (do
      let en := st.sys.bsgW.getLsbD 3
      let o ← readX st .M xa
      let p ← capCheck st cn o (32768 + if en then 512 else 0) .m
      spAligned p.2 64
      .ok { cap := p.1, base := p.2, en := en, row := st.sys.mrow.toNat })) fun m =>
    loadRows (128 - m.row) s core st pl (ansOf st .M) m) s

/-- Bytes of an image in scratchpad by tag (Table 9.2). -/
def imageBytes (tag : Nat) : Nat := if tag = 8 then 32768 else if tag = 12 then 12288 else 16384

/-- Whether a bit range of a scratchpad image lies in current granules only. -/
def bitsCur (s : State) (core : Nat) (cgen : Gen) (off bit : Nat) : Bool :=
  (spGran s core ((off + bit / 8) / 64)).gen == cgen && (spGran s core ((off + (bit + 5) / 8) / 64)).gen == cgen

/-- Row `k` of a packed LNS6 image (R151, R152). -/
def lnsRow (s : State) (core : Nat) (st : Strand) (off k : Nat) : List Nat :=
  let v := packNat 8 ((spFill s core st.cgen 0#8 (off + 96 * k) 96).map BitVec.toNat)
  (List.range 128).map fun n =>
    let bit := 768 * k + 6 * n
    if bitsCur s core st.cgen off bit then v >>> (6 * n) % 64 else 0x10

/-- Row `k` of an image in scratchpad, as 16-bit containers. -/
def spImageRow (s : State) (core : Nat) (st : Strand) (tag off k : Nat) : BitVec 2048 :=
  let l := if tag = 8 then unpack 16 128 (spFill s core st.cgen 0#8 (off + 256 * k) 256)
    else if tag = 12 then lnsRow s core st off k
    else (spFill s core st.cgen 0#8 (off + 128 * k) 128).map BitVec.toNat
  BitVec.ofNat 2048 (packNat 16 l)

/-- R184: from scratchpad, which the load pipe may read ahead of array-pipe instructions (R176). -/
def execMwloadm (tk : Tk) (fmt : BitVec 4) (xa : XReg) (pl : Bool) (s : State) : Out :=
  issueLoad tk (fun s core st =>
    let en := st.sys.bsgW.getLsbD 3
    let size := imageBytes fmt.toNat
    let v := loadView s st pl
    orTrap v.2 (do
      let o ← numX st xa
      let z := size + if en then 512 else 0
      spAligned o 64
      spIn o z
      spFresh v.1 core st o z
      .ok o) fun o =>
    let s1 := iter 128 v.2 fun k s1 => planeRow s1 core st pl k (spImageRow v.1 core st fmt.toNat o k)
    let sc := if en then ofBytes 4096 (spFill v.1 core st.cgen 0#8 (o + size) 512) else unitScales
    .fin (writePlane s1 core st pl fun p => { p with scales := sc })) s

/-- R185: containers, scales and owner tags change places; neither plane is then as its save area holds it (R204). -/
def execMpswap (tk : Tk) (s : State) : Out :=
  issuePipe 3#2 tk (fun s core _ =>
    .fin (modQuad s (quadOf core) fun q => { q with
      pa := { q.pb with dirty := true }
      pb := { q.pa with dirty := true } })) s

/-! ## Sums of the array (R190) -/

/-- The product of two containers (R150, R155): NaN for an invalid product. -/
def prodM (at_ wt a w : Nat) : Ex :=
  if at_ = 12 then
    match lnsVal a, lnsVal w with
    | .nan, _ => .nan
    | _, .nan => .nan
    | .fin n x _, .fin m y _ =>
      if x = 0 ∨ y = 0 then .fin false 0 0
      else
        let k := intVal true 5 (a % 32) + intVal true 5 (w % 32)
        .fin (n != m) (lnsM k).1 (lnsM k).2
    | _, _ => .nan
  else (exMul (valOf at_ a) (valOf wt w)).1

/-- A product scaled by two SC8 codes (R155). -/
def scaleEx (sa sw : Nat) (x : Ex) : Ex :=
  if sa = 255 ∨ sw = 255 then .nan
  else
    match x with
    | .fin n a e => .fin n a (e + sa + sw - 254)
    | x => x

/-- The block of a block scale (R154): h = 2^shape along K, w = 32 / h along the other dimension. -/
def blockIdx (shape k o : Nat) : Nat := (k >>> shape) * (128 / (32 >>> shape)) + o / (32 >>> shape)

/-- The exact sum of lists of values, element by element. -/
def sumLists : List (List Ex) → List Ex
  | [] => []
  | [l] => l
  | l :: r => l.zipWith (fun x y => (exAdd .rne x y).1) (sumLists r)

/-- An accumulator takes one exact group sum: one rounding, then sat() (R190). -/
def accAdd (acc : Nat) (g : Ex) : Nat × Events :=
  let e0 := if exIsNan g then evInv else 0#4
  match valOf 7 acc with
  | .nan => (fF32.nanEnc, e0)
  | a =>
    let r := finishTag 7 { rm := .rne, sat := true, ftz := false } (exAdd .rne a g)
    (r.enc, r.ev ||| e0)

/-- Group sums added to a row of accumulators, group by group. -/
def accRowAdd (acc : List Nat) : List (List Ex) → List Nat × Events
  | [] => (acc, 0#4)
  | g :: r =>
    let z := acc.zipWith accAdd g
    let w := accRowAdd (z.map Prod.fst) r
    (w.1, z.foldl (fun e x => e ||| x.2) w.2)

/-- What a row of activations meets: formats, plane rows, scale arrays and their geometry. -/
structure ArrayIn where
  at_ : Nat
  wt : Nat
  plane : List (List Nat)
  sa : Option (List Nat)
  sw : Option (List Nat)
  ga : Nat
  gw : Nat

/-- An integer's value: its zero has no sign (R190). -/
def posZero (x : Ex) : Ex :=
  match x with
  | .fin _ 0 _ => .fin false 0 0
  | x => x

/-- The products of element `k` of row `i` with the plane's row k. -/
def prodRow (z : ArrayIn) (i k a : Nat) : List Ex :=
  let flt := z.at_ != 3 && z.at_ != 4
  let sa := match z.sa with
    | some l => l.getD (blockIdx z.ga k i) 0
    | none => 127
  ((List.range 128).zip (z.plane.getD k [])).map fun p =>
    let x := prodM z.at_ z.wt a p.2
    if flt then
      scaleEx sa (match z.sw with
        | some l => l.getD (blockIdx z.gw k p.1) 0
        | none => 127) x
    else posZero x

/-- The 16 group sums of a row (R190): group g over k = 8g to 8g + 7. -/
def groupSums (z : ArrayIn) (i : Nat) (row : List Nat) : List (List Ex) :=
  (List.range 16).map fun g =>
    sumLists ((List.range 8).map fun j => prodRow z i (8 * g + j) (row.getD (8 * g + j) 0))

/-- A row's elements as f32 codes. -/
def rowElems (v : VBits) : List Nat := vElems 32 v

/-- The rows of a plane for a strand under a weight format: containers, zero where it is not current (R182, R152). -/
def planeElems (s : State) (core : Nat) (st : Strand) (b : Bool) (wt : Nat) : List (List Nat) :=
  let p := planeOf (quadAt s (quadOf core)) b
  let w := tagW wt
  (List.range 128).map fun k =>
    if planeCur p core st then
      let v := (mapGet 0#2048 p.rows k).toNat
      (List.range 128).map fun n => v >>> (16 * n) % 2 ^ w
    else List.replicate 128 (if wt = 12 then 0x10 else 0)

/-- The plane's scale bytes under BSG_W.EN. -/
def planeScales (s : State) (core : Nat) (st : Strand) (b : Bool) : List Nat :=
  let p := planeOf (quadAt s (quadOf core)) b
  if planeCur p core st then (toBytes 512 p.scales).map BitVec.toNat else List.replicate 512 0

/-- Rows of the tile summed into an entry, in ascending order, with their map (R173, R190). -/
def streamRows (core : Nat) (st : Strand) (g : Region) (rg : Rg) (e : Nat) (sums : Nat → List (List Ex)) :
    List (Nat × Nat) → State → State
  | [], s => s
  | (i, m) :: r, s =>
    let at_ := rowAt g e m
    let x := accRowAdd (rowElems (getRow s core st at_)) (sums i)
    streamRows core st g rg e sums r (raiseSlot (putRow s core st at_ (vPack 32 x.1)) core rg e x.2)

/-- The rows of a map that are not discarded, or the first that leaves the region (R173). -/
def mapRows (g : Region) (l : List Nat) : Chk (List (Nat × Nat)) :=
  let live := ((List.range l.length).zip l).filter fun p => p.2 != 0xFFFF
  match live.find? fun p => decide (g.rows ≤ p.2) with
  | some p => trapWith .reservedField p.1
  | none => .ok live

/-- The slot of an mstream: none where every row is discarded; then under TRAP its rows must be current. -/
def streamSlot (s : State) (core : Nat) (st : Strand) (g : Region) (label : Nat) (live : List (Nat × Nat)) :
    Chk (Option (Nat × Bool)) := do
  match live, findLabel g label with
  | [], _ => .ok none
  | _, some e => do
    rowsFresh s core st (live.map fun p => rowAt g e p.2)
    .ok (some (e, false))
  | _, none => do
    let x ← pickSlot g label
    .ok (some x)

/-- The label of an mstream: its prefix's, else 0 (R28). -/
def labelOf (s : State) : Nat := (s.pfx.label.getD 0#10).toNat

/-- R173, R189 to R191. -/
def execMstream (tk : Tk) (rg : Rg) (xa : XReg) (map : Bool) (atag : BitVec 4) (rows : BitVec 7) (pl : Bool)
    (wtag : BitVec 4) (s : State) : Out :=
  issuePipe (planeBit pl) tk (fun s core st =>
    let n := rows.toNat + 1
    let sz := tagW atag.toNat / 8
    let ea := st.sys.bsgA.getLsbD 3 && atag != 3#4 && atag != 4#4
    orTrap s (do
      let a ← numX st xa
      let mp := a + 16384 * sz
      if map then do
        spIn mp 256
        spFresh s core st mp 256
      else .ok ()
      let g ← needRegion st rg
      let m := if map then (unpack 16 128 (spBytes s core st.cgen mp 256)).take n else List.range n
      let live ← mapRows g m
      spIn a (n * 128 * sz)
      if ea then spIn (mp + 256) 512 else .ok ()
      spFresh s core st a (n * 128 * sz)
      if ea then spFresh s core st (mp + 256) 512 else .ok ()
      if st.gtrap && !planeCur (planeOf (quadAt s (quadOf core)) pl) core st then trapOf .staleRead else .ok ()
      let x ← streamSlot s core st g (labelOf s) live
      .ok (a, g, live, x)) fun (a, g, live, x) =>
    match x with
    | none => .fin s
    | some (e, new) =>
      let s1 := if new then allocSlot s core st rg g e (labelOf s) else s
      let fill : Byte := if atag = 12#4 then 0x10#8 else 0#8
      let z : ArrayIn :=
        { at_ := atag.toNat
          wt := wtag.toNat
          plane := planeElems s core st pl wtag.toNat
          sa := if ea then some ((spBytes s core st.cgen (a + 16384 * sz + 256) 512).map BitVec.toNat) else none
          sw := if st.sys.bsgW.getLsbD 3 then some (planeScales s core st pl) else none
          ga := fieldOf st.sys.bsgA 0 3
          gw := fieldOf st.sys.bsgW 0 3 }
      let row := fun (i : Nat) => unpack (8 * sz) 128 (spFill s core st.cgen fill (a + i * 128 * sz) (128 * sz))
      .fin (streamRows core st g rg e (fun i => groupSums z i (row i)) live s1)) s

/-! ## mcplx and mdist (R200, R202) -/

/-- The group sums of the complex mode: group g over c = 8g to 8g + 7, real and imaginary parts interleaved. -/
def cplxSums (plane : List (List Nat)) (row : List Nat) : List (List Ex) :=
  let v := fun (x : Nat) => valOf 8 x
  let mul := fun (x y : Ex) => (exMul x y).1
  let add := fun (x y : Ex) => (exAdd .rne x y).1
  (List.range 8).map fun g =>
    sumLists ((List.range 8).map fun j =>
      let c := 8 * g + j
      let re := v (row.getD (2 * c) 0)
      let im := v (row.getD (2 * c + 1) 0)
      let w := plane.getD (2 * c) []
      (List.range 128).map fun n =>
        let ur := v (w.getD (n / 2 * 2) 0)
        let ui := v (w.getD (n / 2 * 2 + 1) 0)
        if n % 2 = 0 then add (mul re ur) (exNeg (mul im ui)) else add (mul re ui) (mul im ur))

/-- SUPERVISOR_ONLY unless the policy sets MCPLX and the strand is a supervisor's (R202, R384, R391). -/
def superPre (s : State) (st : Strand) : Option Trapped :=
  if st.super && s.msc.policy.getLsbD 1 then none else some { cause := .supervisorOnly }

/-- R202. -/
def execMcplx (tk : Tk) (rg : Rg) (xa : XReg) (rows : BitVec 7) (pl : Bool) (s : State) : Out :=
  issuePipePre (planeBit pl) (superPre s) tk (fun s core st =>
    let n := rows.toNat + 1
    orTrap s (do
      let a ← numX st xa
      let g ← needRegion st rg
      let live ← mapRows g (List.range n)
      spIn a (n * 256)
      spFresh s core st a (n * 256)
      if st.gtrap && !planeCur (planeOf (quadAt s (quadOf core)) pl) core st then trapOf .staleRead else .ok ()
      let x ← streamSlot s core st g 0 live
      .ok (a, g, live, x)) fun (a, g, live, x) =>
    match x with
    | none => .fin s
    | some (e, new) =>
      let s1 := if new then allocSlot s core st rg g e 0 else s
      let p := planeElems s core st pl 8
      .fin (streamRows core st g rg e
        (fun i => cplxSums p (unpack 16 128 (spBytes s core st.cgen (a + 256 * i) 256))) live s1)) s

/-- The group sums of squared differences (R200). -/
def distSums (plane : List (List Nat)) (row : List Nat) : List (List Ex) :=
  (List.range 16).map fun g =>
    sumLists ((List.range 8).map fun j =>
      let k := 8 * g + j
      let q := valOf 8 (row.getD k 0)
      (plane.getD k []).map fun w =>
        let d := (exAdd .rne q (exNeg (valOf 8 w))).1
        (exMul d d).1)

/-- Entry 0 of a region becomes valid with label 0, keeping its events (R192, R200). -/
def validEntry0 (s : State) (core : Nat) (rg : Rg) : State :=
  modStrand s core fun st =>
    match mapFind st.regions rg.toNat with
    | some g => putRegion st rg (g.setEntry 0 ((g.entry 0 &&& 0x3C00#32) ||| 0x8000#32))
    | none => st

/-- R200. -/
def execMdist (tk : Tk) (rg : Rg) (xa xb : XReg) (pl : Bool) (s : State) : Out :=
  issuePipe (planeBit pl) tk (fun s core st =>
    orTrap s (do
      let a ← numX st xa
      let n ← numX st xb
      let g ← needRegion st rg
      needM (decide (1 ≤ n) && decide (n ≤ 128) && decide (n ≤ g.rows)) 0xFFF1
      needM (g.slots == 1) 0xFFF6
      spIn a (256 * n)
      spFresh s core st a (256 * n)
      if st.gtrap && !planeCur (planeOf (quadAt s (quadOf core)) pl) core st then trapOf .staleRead else .ok ()
      .ok (a, n, g)) fun (a, n, g) =>
    let p := planeElems s core st pl 8
    .fin (iter n (validEntry0 s core rg) fun r s1 =>
      let x := accRowAdd (List.replicate 128 0)
        (distSums p (unpack 16 128 (spBytes s core st.cgen (a + 256 * r) 256)))
      raiseSlot (putRow s1 core st (rowAt g 0 r) (vPack 32 x.1)) core rg 0 x.2)) s

/-! ## mswap (R195) -/

/-- The shape word of a region. -/
def shapeWord (g : Region) : Nat := g.rows + 256 * g.slog

/-- The header of an mswap image: words 0, 16 to 31 and 48. -/
def swapHeader (g : Region) : List Byte :=
  toBytes 4 (BitVec.ofNat 32 (shapeWord g)) ++ List.replicate 60 0#8 ++
    (List.range 16).flatMap (fun e => toBytes 4 (g.entry e)) ++ List.replicate 64 0#8 ++
    toBytes 4 g.status ++ List.replicate 60 0#8

/-- The byte offset of the first bad field of an image header (R195): the shape, an entry with SP or a reserved bit, a
reserved bit of the status word, a reserved byte. -/
def swapBad (g : Region) (l : List Byte) : Option Nat :=
  let w := fun (o : Nat) => (ofBytes 32 ((l.drop o).take 4) : BitVec 32)
  let ok := fun (o : Nat) =>
    if o = 0 then decide ((w 0).toNat = 0 ∨ (w 0).toNat = shapeWord g)
    else if o < 4 then true
    else if 0x40 ≤ o ∧ o < 0x80 then
      if o % 4 = 0 then !(w o).getLsbD 14 else o % 4 == 1 || l.getD o 0#8 == 0#8
    else if o = 0xC0 then zeroBits (w o) 6 2
    else l.getD o 0#8 == 0#8
  firstBelow 256 fun o => !ok o

/-- The region that an image header gives. -/
def swapIn (g : Region) (l : List Byte) : Region :=
  let w := fun (o : Nat) => (ofBytes 32 ((l.drop o).take 4) : BitVec 32)
  { g with
    dir := (List.range g.slots).foldl (fun m e => mapSet 0#32 m e (w (0x40 + 4 * e))) []
    status := w 0xC0 }

/-- R195. -/
def execMswap (tk : Tk) (rg : Rg) (xa : XReg) (s : State) : Out :=
  issuePipe 0#2 tk (fun s core st =>
    orTrap s (do
      let a ← numX st xa
      spAligned a 64
      let g ← needRegion st rg
      let n := g.rows * g.slots
      spIn a (256 + 512 * n)
      spFresh s core st a (256 + 512 * n)
      needM g.trapPol 0xFFF6
      let h := spBytes s core st.cgen a 256
      match swapBad g h with
      | some o => trapWith .reservedField (0x8000 + o)
      | none => do
        rowsFresh s core st ((List.range n).map fun r => .acc (g.base + r))
        .ok (a, g, h)) fun (a, g, h) =>
    let s1 := spWriteN 5 (modStrand s core fun st => putRegion st rg (swapIn g h)) core st.cgen a (swapHeader g)
    .fin (iter (g.rows * g.slots) s1 fun r s1 =>
      let o := a + 256 + 512 * r
      putAcc (spWriteN 9 s1 core st.cgen o (toBytes 512 (accRow s core st (g.base + r)))) core st (g.base + r)
        (spRow s core st o))) s

/-! ## msave and mrestore (R203) -/

/-- Rows of the strand's configured regions. -/
def regionRows (st : Strand) : List Nat :=
  st.regions.flatMap fun p => (List.range (p.2.rows * p.2.slots)).map fun r => p.2.base + r

/-- The region table entry (Table 9.8). -/
def regionWords (g : Option Region) : List Byte :=
  match g with
  | none => List.replicate 16 0#8
  | some g =>
    toBytes 4 (BitVec.ofNat 32 (g.base + 2 ^ 10 * g.rows + 2 ^ 18 * g.slog + (if g.trapPol then 0 else 2 ^ 21) + 2 ^ 31)) ++
      toBytes 4 (BitVec.ofNat 32 (g.spill / 64)) ++ toBytes 4 g.status ++ List.replicate 4 0#8

/-- The counters of a strand (Table 9.8, 0x0A00). -/
def counterBytes (st : Strand) : List Byte :=
  (List.range 128).flatMap (fun e => toBytes 2 (mapGet 0#16 st.cnt e)) ++ toBytes 4 st.hsum ++
    toBytes 4 (BitVec.ofNat 32 ((if st.cntSat then 1 else 0) + if st.hsumSat then 2 else 0)) ++ List.replicate 248 0#8

/-- The tables of a context image: its first 0xC80 bytes (Table 9.8), with live bits of planes and rows. -/
def imageTables (st : Strand) (la lb : Bool) (live : Nat → Bool) : List Byte :=
  toBytes 4 0x4D534156#32 ++ toBytes 4 1#32 ++
    toBytes 4 (BitVec.ofNat 32 ((if la then 1 else 0) + if lb then 2 else 0)) ++ List.replicate 52 0#8 ++
    (List.range 16).flatMap (fun i => regionWords (mapFind st.regions i)) ++ List.replicate 192 0#8 ++
    (List.range 16).flatMap (fun i => (List.range 32).flatMap fun e =>
      toBytes 4 (match mapFind st.regions i with
        | some g => g.entry e
        | none => 0#32)) ++
    counterBytes st ++
    (List.range 128).map fun b => BitVec.ofNat 8 (packNat 1 ((List.range 8).map fun i => if live (8 * b + i) then 1 else 0))

/-- The live bits of the planes of a strand. -/
def planesLive (s : State) (core : Nat) (st : Strand) : Bool × Bool :=
  let q := quadAt s (quadOf core)
  (planeCur q.pa core st, planeCur q.pb core st)

/-- A unit of a context image that is saved: its phase, its number, its bytes by offset. -/
structure Unit_ where
  phase : Nat
  num : Nat
  parts : List (Nat × List Byte)
deriving Repr

/-- The units of an image in the order of Table 9.9: table granules, live planes with their scales, live rows. -/
def imageUnits (s : State) (core : Nat) (st : Strand) : List Unit_ :=
  let q := quadAt s (quadOf core)
  let lv := planesLive s core st
  let tab := imageTables st lv.1 lv.2 (rowLive s core st)
  let gap := fun (g : Nat) => decide (5 ≤ g) && decide (g < 8)
  let t := ((List.range 50).filter fun g => !gap g).map fun g =>
    ({ phase := 0, num := g, parts := [(64 * g, (tab.drop (64 * g)).take 64)] } : Unit_)
  let pl := fun (ph : Nat) (p : Plane) =>
    (List.range 128).map fun k =>
      ({ phase := ph, num := k
         parts := (0x2000 + 0x8000 * (ph - 1) + 256 * k, toBytes 256 (mapGet 0#2048 p.rows k)) ::
           if k = 127 then [(0x1000 + 0x200 * (ph - 1), toBytes 512 p.scales)] else [] } : Unit_)
  let rows := ((List.range 1024).filter (rowLive s core st)).map fun r =>
    ({ phase := 3, num := r, parts := [(0x20000 + 512 * r, toBytes 512 (accRow s core st r))] } : Unit_)
  t ++ (if lv.1 then pl 1 q.pa else []) ++ (if lv.2 then pl 2 q.pb else []) ++ rows

/-- Whether a unit lies at or after the progress of an instruction (Table 9.9). -/
def unitFrom (m : MLatch) (u : Unit_) : Bool :=
  decide (m.phase < u.phase) || (u.phase == m.phase && decide (m.row ≤ u.num))

/-- The operands of msave and mrestore (R203): the image of 0xA_0000 bytes under a right. -/
def imageLatch (st : Strand) (cn : CReg) (xa : XReg) (rt : Right) : Chk MLatch := do
  let o ← readX st .M xa
  let p ← capCheck st cn o 0xA0000 rt
  spAligned p.2 64
  .ok { cap := p.1, base := p.2 }

/-- The pieces of a byte list at an offset of an object. -/
def cutPieces (a : Nat) (l : List Byte) : List (Piece × List Byte) :=
  (pieces (l.length / 64 + 2) 0 a l.length).map fun p => (p, (l.drop (p.off - a)).take p.size)

/-- Units written through the memory port, in order; a cause stops at its unit (R205, Table 9.9). -/
def saveUnits (core idx : Nat) (m : MLatch) : List Unit_ → State → Eff
  | [], s => .stored (setProgress s core 0 0)
  | u :: r, s =>
    match writePieces s core .M none false idx (capObj m.cap) (capOgen m.cap)
        (u.parts.flatMap fun p => cutPieces (m.base + p.1) p.2) with
    | (.ok _, s1) => saveUnits core idx m r s1
    | (.error t, s1) =>
      let m1 := { m with
        phase := u.phase
        row := u.num }
      .trapMid (setProgress (setLatch s1 core m1) core u.phase u.num) t

/-- R203: the context image is written from the recorded point on. -/
def execMsave (tk : Tk) (cn : CReg) (xa : XReg) (s : State) : Out :=
  issueSerial tk (fun s core st =>
    orTrap s (captured st (imageLatch st cn xa .w)) fun m =>
    let b := beginStore st .M
    saveUnits core b.1 m ((imageUnits s core st).filter (unitFrom m)) (setStrand s core b.2)) s

/-- A region read from a context image; none where it is not configured. -/
def regionFrom (l : List Byte) (i : Nat) : Option Region :=
  let w := fun (o : Nat) => (ofBytes 32 ((l.drop o).take 4) : BitVec 32)
  let a := w (0x40 + 16 * i)
  if a.getLsbD 31 then
    let slog := fieldOf a 18 3
    some
      { base := fieldOf a 0 10, rows := fieldOf a 10 8, slog := slog, trapPol := !a.getLsbD 21
        spill := fieldOf (w (0x44 + 16 * i)) 0 12 * 64
        dir := (List.range (2 ^ (slog + 1))).foldl (fun m e => mapSet 0#32 m e (w (0x200 + 128 * i + 4 * e))) []
        status := w (0x48 + 16 * i) }
  else none

/-- The regions of an image. -/
def regionsFrom (l : List Byte) : FMap Region :=
  (List.range 16).filterMap fun i => (regionFrom l i).map fun g => (i, g)

/-- The strand with the tables of an image installed: regions, directories, counters. -/
def tablesFrom (st : Strand) (l : List Byte) : Strand :=
  let w := fun (o : Nat) => (ofBytes 32 ((l.drop o).take 4) : BitVec 32)
  { st with
    regions := regionsFrom l
    cnt := (List.range 128).foldl (fun m e => mapSet 0#16 m e (ofBytes 16 ((l.drop (0xA00 + 2 * e)).take 2))) []
    hsum := w 0xB00
    cntSat := (w 0xB04).getLsbD 0
    hsumSat := (w 0xB04).getLsbD 1 }

/-- A live bit of the row map of an image. -/
def rowBit (l : List Byte) (r : Nat) : Bool := (ofBytes 1024 ((l.drop 0xC00).take 128)).getLsbD r

/-- The first region of an image that R188 refuses: the byte offset of its entry (R203). -/
def imageBad (s : State) (core : Nat) (st : Strand) (l : List Byte) : Option Nat :=
  let w := fun (o : Nat) => (ofBytes 32 ((l.drop o).take 4) : BitVec 32)
  if w 0 ≠ 0x4D534156#32 ∨ w 4 ≠ 1#32 then some 0
  else
    let st1 := { st with regions := regionsFrom l }
    (firstBelow 16 fun i =>
      match regionFrom l i with
      | none => false
      | some g => decide (4 < g.slog) || g.rows == 0 || (regionBad s core st1 i g.base g.rows g.slog g.spill g.trapPol).isSome).map
      fun i => 0x40 + 16 * i

/-- Every row of the strand's regions and every plane of its own becomes void. -/
def voidContext (s : State) (core : Nat) (st : Strand) : State :=
  let s1 := (regionRows st).foldl (fun s r =>
    modQuad (writeOutRow s (quadOf core) r) (quadOf core) fun q => { q with rows := mapErase q.rows r }) s
  modQuad s1 (quadOf core) fun q =>
    { q with
      pa := if planeCur q.pa core st then {} else q.pa
      pb := if planeCur q.pb core st then {} else q.pb }

/-- Units of an image that are restored: phase, number, offset and size of their parts. -/
def restoreUnits (la lb : Bool) (l : List Byte) : List (Nat × Nat) :=
  (if la then (List.range 128).map fun k => (1, k) else []) ++ (if lb then (List.range 128).map fun k => (2, k) else []) ++
    ((List.range 1024).filter (rowBit l)).map fun r => (3, r)

/-- The rest of a restore: planes and rows through the memory port, in order; a cause stops at its unit (R205). -/
def loadUnits (core : Nat) (st : Strand) (ans : Option CxlResult) (m : MLatch) : List (Nat × Nat) → State → Eff
  | [], s => .fin (setProgress s core 0 0)
  | (ph, k) :: r, s =>
    let m1 := { m with
      phase := ph
      row := k }
    let at_ := fun (o n : Nat) => pieces (n / 64) 0 (m.base + o) n
    if ph = 3 then
      readUnit s core st ans m1 (at_ (0x20000 + 512 * k) 512) fun b s1 =>
        loadUnits core st none m r (putAcc s1 core st k (ofBytes 4096 b))
    else
      let scales := if k = 127 then at_ (0x1000 + 0x200 * (ph - 1)) 512 else []
      readUnit s core st ans m1 (at_ (0x2000 + 0x8000 * (ph - 1) + 256 * k) 256 ++ scales) fun b s1 =>
        let s2 := planeRow s1 core st (ph == 2) k (ofBytes 2048 (b.take 256))
        loadUnits core st none m r
          (if k = 127 then writePlane s2 core st (ph == 2) fun p => { p with scales := ofBytes 4096 (b.drop 256) } else s2)

/-- What follows the tables of a restore (R203): their checks, their installation where that has not been done, then what
is live. -/
def restoreRest (s : State) (core : Nat) (st : Strand) (ans : Option CxlResult) (m : MLatch) : Eff :=
  let lv := m.tabs.getD 8 0#8
  let units := restoreUnits (lv.getLsbD 0) (lv.getLsbD 1) m.tabs
  if m.phase = 0 then
    match imageBad s core st m.tabs with
    | some o => .trap s { cause := .reservedField, detail := BitVec.ofNat 16 (0x8000 + o) }
    | none =>
      let st1 := tablesFrom st m.tabs
      loadUnits core st1 ans m units (voidContext (setStrand s core st1) core st1)
  else loadUnits core st ans m (units.filter fun u => unitFrom m { phase := u.1, num := u.2, parts := [] }) s

/-- The tables of an image, 50 granules, read one after another from the latch's on, with fuel (Table 9.8, R205). -/
def loadTabs (fuel : Nat) (s : State) (core : Nat) (st : Strand) (ans : Option CxlResult) (m : MLatch) : Eff :=
  match fuel with
  | 0 => restoreRest s core st ans m
  | f + 1 =>
    readUnit s core st ans m [{ tag := 0, off := m.base + 64 * m.row, size := 64 }] fun b s1 =>
      loadTabs f s1 core st none { m with
        row := m.row + 1
        tabs := m.tabs ++ b }

/-- R203: header and tables, their checks, then what is live. -/
def execMrestore (tk : Tk) (cn : CReg) (xa : XReg) (s : State) : Out :=
  issueSerial tk (fun s core st =>
    orTrap s (captured st (imageLatch st cn xa .r)) fun m =>
    loadTabs (if m.phase = 0 then 50 - m.row else 0) s core st (ansOf st .M) m) s

end Sys2Proof.Machine
end

