-- ==== Sys2Proof/Machine/Route.lean ====
section
/-! DEFINITION. Routing, binding, draining, events, counters and retrieval of the matrix stream (R171, R172, R174, R192 to
R194, R196 to R199, R201). -/
namespace Sys2Proof.Machine
open Sys2Proof

/-! ## mrank (R171, R172, R197) -/

/-- Whether one score is higher than another: NaN is below every number (R172). -/
def scoreGt (a b : Ex) : Bool :=
  match a, b with
  | .nan, _ => false
  | _, .nan => true
  | a, b => exLt b a

/-- Whether two scores tie. -/
def scoreEq (a b : Ex) : Bool :=
  match a, b with
  | .nan, .nan => true
  | .nan, _ => false
  | _, .nan => false
  | a, b => exEq a b

/-- rank(e) of R172: the experts before it. -/
def rankOf (l : List Ex) (e : Nat) : Nat :=
  let v := l.getD e .nan
  (((List.range l.length).zip l).filter fun p => scoreGt p.2 v || (scoreEq p.2 v && decide (p.1 < e))).length

/-- The routing state of an mrank: lists by expert, counters, sums, saturation marks. -/
structure Routing where
  lists : FMap (List Nat) := []
  cnt : FMap (BitVec 16)
  hsum : BitVec 32
  cntSat : Bool
  hsumSat : Bool

/-- One choice of a token (R172): its label entry, and what it does to lists and counters. -/
def routeChoice (kind : Nat → Nat) (cap ovx t e : Nat) (seen : List Nat) (z : Routing) :
    Nat × List Nat × Routing :=
  let e := if kind e = 0 ∧ cap ≤ (mapGet [] z.lists e).length then ovx else e
  if seen.contains e then (0, seen, z)
  else
    let l := mapGet [] z.lists e
    let c := mapGet 0#16 z.cnt e
    let z1 : Routing :=
      { lists := mapSet [] z.lists e (if l.length < 127 then l ++ [t] else l)
        cnt := if c = 0xFFFF#16 then z.cnt else mapSet 0#16 z.cnt e (c + 1)
        cntSat := z.cntSat || c == 0xFFFF#16
        hsum := if z.hsum = BitVec.allOnes 32 then z.hsum else z.hsum + 1
        hsumSat := z.hsumSat || z.hsum == BitVec.allOnes 32 }
    (0x8000 + kind e * 0x400 + e, seen ++ [e], z1)

/-- The choices of a token in order: its label entries and the experts that serve it. -/
def routeToken (kind : Nat → Nat) (cap ovx t : Nat) : List Nat → List Nat → Routing → List Nat × List Nat × Routing
  | [], seen, z => ([], seen, z)
  | e :: r, seen, z =>
    let x := routeChoice kind cap ovx t e seen z
    let y := routeToken kind cap ovx t r x.2.1 x.2.2
    (x.1 :: y.1, y.2.1, y.2.2)

/-- The experts of ranks 0 to k - 1. -/
def topExperts (l : List Ex) (k : Nat) : List Nat :=
  let r := (List.range l.length).map fun e => (rankOf l e, e)
  (List.range k).filterMap fun j => (r.find? fun p => p.1 == j).map Prod.snd

/-- Every token in order: label rows and mask rows. -/
def routeAll (kind : Nat → Nat) (cap ovx k : Nat) : List (Nat × List Ex) → Routing →
    List (List Nat) × List (BitVec 128) × Routing
  | [], z => ([], [], z)
  | (t, l) :: r, z =>
    let x := routeToken kind cap ovx t (topExperts l k) [] z
    let y := routeAll kind cap ovx k r x.2.2
    (x.1 :: y.1, (x.2.1.foldl (fun m e => m ||| (1#128 <<< e)) 0#128) :: y.2.1, y.2.2)

/-- The byte offset of the first bad field of a routing table (R171); a reserved byte 0x22 to 0x3F that is not zero is one
(DESIGN CHOICE, log entry 85). -/
def routeBad (g : Granule) (ovx : Nat) : Option Nat :=
  let cap := fieldOf g 256 16
  if fieldOf g (2 * ovx) 2 = 0 then some (ovx / 4)
  else if cap = 0 ∨ 127 < cap then some 0x20
  else (firstFrom 0x22 30 fun o => !zeroBits g (8 * o) 8)

/-- R172, R197. -/
def execMrank (tk : Tk) (xa xb xc : XReg) (tag : BitVec 4) (t e : BitVec 7) (k : BitVec 4) (ovx : BitVec 7)
    (s : State) : Out :=
  issuePipe 0#2 tk (fun s core st =>
    let nt := t.toNat + 1
    let ne := e.toNat + 1
    let w := tagW tag.toNat
    let size := nt * ne * (w / 8)
    orTrap s (do
      let a ← numX st xa
      let b ← numX st xb
      let c ← numX st xc
      spAligned a 64
      spIn a size
      spFresh s core st a size
      spAligned c 64
      spIn c 64
      spFresh s core st c 64
      let g : Granule := ofBytes 512 (spBytes s core st.cgen c 64)
      match routeBad g ovx.toNat with
      | some o => trapWith .reservedField (0x8000 + o)
      | none => do
        spAligned b 64
        spIn b (0x1800 + 256 * ne)
        .ok (a, b, g)) fun (a, b, g) =>
    let kind := fun (x : Nat) => fieldOf g (2 * x) 2
    let sc := (unpack w (nt * ne) (spBytes s core st.cgen a size)).map (valOf tag.toNat)
    let rows := (List.range nt).map fun i => (i, (sc.drop (i * ne)).take ne)
    let z : Routing := { cnt := st.cnt, hsum := st.hsum, cntSat := st.cntSat, hsumSat := st.hsumSat }
    let r := routeAll kind (fieldOf g 256 16) ovx.toNat (k.toNat + 1) rows z
    let pad := fun (n : Nat) (l : List Nat) => packBytes 16 (l ++ List.replicate (n - l.length) 0)
    let s1 := spWriteN 66 s core st.cgen b (r.1.flatMap (pad 16))
    let s2 := spWriteN 34 s1 core st.cgen (b + 0x1000) (r.2.1.flatMap (toBytes 16))
    let s3 := iter ne s2 fun i s =>
      let l := mapGet [] r.2.2.lists i
      spWriteN 5 s core st.cgen (b + 0x1800 + 256 * i) (pad 128 (l.length :: l))
    .fin (modStrand s3 core fun st =>
      { st with
        cnt := r.2.2.cnt
        hsum := r.2.2.hsum
        cntSat := r.2.2.cntSat
        hsumSat := r.2.2.hsumSat })) s

/-! ## mbind (R174, R192) -/

/-- A label entry of a row with V = 1: label, position, kind. -/
structure LabelEnt where
  label : Nat
  pos : Nat
  kind : Nat
deriving DecidableEq, Repr

/-- Insertion in ascending order of (label, j). -/
def insLabel (x : LabelEnt) : List LabelEnt → List LabelEnt
  | [] => [x]
  | y :: r => if x.label < y.label ∨ (x.label = y.label ∧ x.pos < y.pos) then x :: y :: r else y :: insLabel x r

/-- The valid entries of a label row, in ascending order of (label, j). -/
def labelRow (l : List Nat) : List LabelEnt :=
  (((List.range l.length).zip l).filter fun p => decide (0x8000 ≤ p.2)).foldl
    (fun acc p => insLabel { label := p.2 % 1024, pos := p.1, kind := p.2 / 1024 % 4 } acc) []

/-- A bind descriptor (Table 8.2). -/
structure BindDesc where
  lt : Nat
  idin : Nat
  cst : Nat
  dreg : Nat
  idtag : Nat
deriving DecidableEq, Repr

/-- A descriptor, or the byte offset of its first bad field (R171, R192). -/
def bindDesc (g : Granule) : Except Nat BindDesc :=
  let w := fun i => elem 32 g i
  let tag := fieldOf (w 3) 4 4
  if tag < 7 ∨ 11 < tag then .error 0x0C
  else
    match firstFrom 0x0D 0x33 fun o => !zeroBits g (8 * o) 8 with
    | some o => .error o
    | none =>
      .ok { lt := (w 0).toNat, idin := (w 1).toNat, cst := (w 2).toNat, dreg := fieldOf (w 3) 0 4, idtag := tag }

/-- One entry's contribution to an output row: coefficient times value, one rounding each (R174). -/
def bindAdd (c : Ex) (out : List Nat) (v : List Ex) : List Nat × Events :=
  let z := out.zipWith (fun o x => accAdd o (exMul c x).1) v
  (z.map Prod.fst, z.foldl (fun e x => e ||| x.2) 0#4)

/-- The value row of an entry: slot row, zeros, identity row or constant row; the flag is BIND_MISS. -/
def bindSrc (s : State) (core : Nat) (st : Strand) (g : Region) (d : BindDesc) (t : Nat) (x : LabelEnt) :
    List Ex × Bool :=
  match x.kind with
  | 0 =>
    match findLabel g x.label with
    | some e => ((rowElems (getRow s core st (rowAt g e t))).map (valOf 7), false)
    | none => (List.replicate 128 (.fin false 0 0), true)
  | 1 => (List.replicate 128 (.fin false 0 0), false)
  | 2 =>
    let w := tagW d.idtag
    ((unpack w 128 (spBytes s core st.cgen (d.idin + 16 * w * t) (16 * w))).map (valOf d.idtag), false)
  | _ => ((unpack 32 128 (spBytes s core st.cgen d.cst 512)).map (valOf 7), false)

/-- A row of mbind: its entries folded in order. -/
def bindRow (s : State) (core : Nat) (st : Strand) (g : Region) (d : BindDesc) (coef t : Nat) (l : List LabelEnt) :
    List Nat × Events × Bool :=
  l.foldl (fun acc x =>
    let c := valOf 7 (ofBytes 32 (spBytes s core st.cgen (coef + 64 * t + 4 * x.pos) 4) : BitVec 32).toNat
    let v := bindSrc s core st g d t x
    let r := bindAdd c acc.1 v.1
    (r.1, acc.2.1 ||| r.2, acc.2.2 || v.2)) (List.replicate 128 0, 0#4, false)

/-- The label rows of a region's rows. -/
def bindLabels (s : State) (core : Nat) (st : Strand) (lt n : Nat) : List (List LabelEnt) :=
  (List.range n).map fun t => labelRow (unpack 16 16 (spBytes s core st.cgen (lt + 32 * t) 32))

/-- The rows of slots that an mbind reads. -/
def bindReads (g : Region) (l : List (List LabelEnt)) : List RowAt :=
  ((List.range l.length).zip l).flatMap fun p =>
    p.2.filterMap fun x => if x.kind = 0 then (findLabel g x.label).map fun e => rowAt g e p.1 else none

/-- The scratchpad rows that an mbind reads (R174): row t of IDIN where row t has an IDENTITY entry, the CONST row. -/
def bindScratch (d : BindDesc) (l : List (List LabelEnt)) : List (Nat × Nat) :=
  let n := 16 * tagW d.idtag
  (((List.range l.length).zip l).filter fun p => p.2.any fun x => x.kind == 2).map (fun p => (d.idin + n * p.1, n)) ++
    if l.any (fun r => r.any fun x => x.kind == 3) then [(d.cst, 512)] else []

/-- R174, R192. -/
def execMbind (tk : Tk) (rg : Rg) (xa xb : XReg) (s : State) : Out :=
  issuePipe 0#2 tk (fun s core st =>
    orTrap s (do
      let a ← numX st xa
      let b ← numX st xb
      spIn a 64
      spFresh s core st a 64
      let g ← needRegion st rg
      match bindDesc (ofBytes 512 (spBytes s core st.cgen a 64)) with
      | .error o => trapWith .reservedField (0x8000 + o)
      | .ok d => do
        let dg ← (match mapFind st.regions d.dreg with
          | some x => .ok x
          | none => trapWith .reservedField 0xFFF6 : Chk Region)
        needM (d.dreg != rg.toNat && dg.slots == 1 && decide (g.rows ≤ dg.rows)) 0xFFF6
        spIn d.lt (32 * g.rows)
        spFresh s core st d.lt (32 * g.rows)
        spAligned b 4
        spIn b (64 * g.rows)
        spFresh s core st b (64 * g.rows)
        let l := bindLabels s core st d.lt g.rows
        let reads := bindScratch d l
        reads.forM fun p => spIn p.1 p.2
        reads.forM fun p => spFresh s core st p.1 p.2
        rowsFresh s core st (bindReads g l)
        .ok (b, g, dg, d, l)) fun (b, g, dg, d, l) =>
    let dr : Rg := BitVec.ofNat 4 d.dreg
    let s1 := ((List.range l.length).zip l).foldl (fun s1 p =>
      let r := bindRow s core st g d b p.1 p.2
      let s2 := raiseSlot (putRow s1 core st (rowAt dg 0 p.1) (vPack 32 r.1)) core dr 0 r.2.1
      if r.2.2 then modStrand s2 core fun st =>
          match mapFind st.regions rg.toNat with
          | some x => putRegion st rg { x with status := x.status ||| 0x10#32 }
          | none => st
      else s2) (validEntry0 s core dr)
    .fin s1) s

/-! ## Release and drain (R193, R194) -/

/-- An entry is freed: its events go into REV, then it is cleared (R193). -/
def freeEntry (g : Region) (e : Nat) : Region :=
  { g.setEntry e 0#32 with status := g.status ||| (bits (g.entry e) 10 4).setWidth 32 }

/-- A control instruction on a configured region. -/
def regionCtl (tk : Tk) (rg : Rg) (f : Strand → Region → Chk Region) (s : State) : Out :=
  issueCtl tk (fun s core st =>
    orTrap s (do
      let g ← needRegion st rg
      f st g) fun g1 => .fin (modStrand s core fun st => putRegion st rg g1)) s

/-- R193: every entry. -/
def execMrelease (tk : Tk) (rg : Rg) (s : State) : Out :=
  regionCtl tk rg (fun _ g => .ok (iter g.entries g fun e g => freeEntry g e)) s

/-- R193: the entry of a label. -/
def execMreleaseOne (tk : Tk) (rg : Rg) (xa : XReg) (s : State) : Out :=
  issueCtl tk (fun s core st =>
    orTrap s (do
      let x ← readX st .M xa
      let g ← needRegion st rg
      .ok (match findLabel g (fieldOf x 0 10) with
        | some e => freeEntry g e
        | none => g)) fun g1 => .fin (modStrand s core fun st => putRegion st rg g1)) s

/-- R194: the entry's rows and a status granule; with `free`, the entry is then freed. -/
def drain (free : Bool) (tk : Tk) (rg : Rg) (xa xb : XReg) (s : State) : Out :=
  issuePipe 0#2 tk (fun s core st =>
    orTrap s (do
      let a ← numX st xa
      let e ← numX st xb
      let g ← needRegion st rg
      needM (decide (e < g.entries)) 0xFFF1
      spAligned a 64
      spIn a (512 * g.rows + 64)
      if entryV (g.entry e) then rowsFresh s core st ((List.range g.rows).map fun r => rowAt g e r) else .ok ()
      .ok (a, e, g)) fun (a, e, g) =>
    let s1 := iter g.rows s fun r s1 =>
      let v := if entryV (g.entry e) then getRow s core st (rowAt g e r) else 0#4096
      spWriteN 9 s1 core st.cgen (a + 512 * r) (toBytes 512 v)
    let s2 := spWriteN 2 s1 core st.cgen (a + 512 * g.rows) (toBytes 4 (g.entry e) ++ toBytes 4 g.status ++
      List.replicate 56 0#8)
    .fin (if free then modStrand s2 core fun st => putRegion st rg (freeEntry g e) else s2)) s

/-- R194. -/
def execMdrain (tk : Tk) (rg : Rg) (xa xb : XReg) (s : State) : Out := drain false tk rg xa xb s
/-- R194. -/
def execMdrainFree (tk : Tk) (rg : Rg) (xa xb : XReg) (s : State) : Out := drain true tk rg xa xb s

/-! ## Events and counters (R196, R199) -/

/-- An entry number below the directory's size. -/
def entryOk (g : Region) (kind entry : Nat) : Chk Unit := needM (kind != 0 || decide (entry < g.entries)) 0xFFF1

/-- R196: an entry or the status word. -/
def execMevrd (tk : Tk) (xd : XReg) (rg : Rg) (kind : BitVec 3) (entry : BitVec 5) (s : State) : Out :=
  issueCtl tk (fun s core st =>
    orTrap s (do
      let g ← needRegion st rg
      entryOk g kind.toNat entry.toNat
      .ok g) fun g =>
    let v := if kind = 0#3 then g.entry entry.toNat else g.status
    finX s core .M st xd (v.setWidth 64)) s

/-- R196: the events of an entry, of the status word, or of all. -/
def execMevclr (tk : Tk) (rg : Rg) (kind : BitVec 3) (entry : BitVec 5) (s : State) : Out :=
  regionCtl tk rg (fun _ g => do
    entryOk g kind.toNat entry.toNat
    let clr := fun (g : Region) (e : Nat) => g.setEntry e (g.entry e &&& ~~~0x3C00#32)
    .ok (match kind.toNat with
      | 0 => clr g entry.toNat
      | 1 => { g with status := g.status &&& ~~~0x3F#32 }
      | _ => { iter g.entries g (fun e g => clr g e) with status := g.status &&& ~~~0x3F#32 })) s

/-- R199 (Table 9.7). -/
def execMcntRd (tk : Tk) (xd : XReg) (sel : BitVec 9) (s : State) : Out :=
  issueCtl tk (fun s core st =>
    let v : DWord := if sel.toNat < 128 then (mapGet 0#16 st.cnt sel.toNat).setWidth 64
      else if sel = 0x100#9 then st.hsum.setWidth 64
      else d64 ((if st.cntSat then 1 else 0) + if st.hsumSat then 2 else 0)
    finX s core .M st xd v) s

/-- R199 (Table 9.7). -/
def execMcntClr (tk : Tk) (sel : BitVec 9) (s : State) : Out :=
  issueCtl tk (fun s core st =>
    .fin (setStrand s core
      (if sel.toNat < 128 then { st with cnt := mapErase st.cnt sel.toNat }
      else if sel = 0x100#9 then { st with
        hsum := 0
        hsumSat := false }
      else if sel = 0x101#9 then { st with cntSat := false }
      else { st with
        cnt := []
        hsum := 0
        cntSat := false
        hsumSat := false }))) s

/-! ## mtopk (R201) -/

/-- Whether value `a` of column `i` comes before `b` of column `j`. -/
def topBefore (hi : Bool) (a : Ex) (i : Nat) (b : Ex) (j : Nat) : Bool :=
  match a, b with
  | .nan, .nan => decide (i < j)
  | .nan, _ => false
  | _, .nan => true
  | a, b => (if hi then exLt b a else exLt a b) || (exEq a b && decide (i < j))

/-- The columns of a row in mtopk's order. -/
def topOrder (hi : Bool) (l : List Nat) : List Nat :=
  let v := (List.range l.length).zip (l.map (valOf 7))
  let r := v.map fun p => ((v.filter fun q => topBefore hi q.2 q.1 p.2 p.1).length, p.1)
  (List.range l.length).filterMap fun k => (r.find? fun p => p.1 == k).map Prod.snd

/-- The output row of mtopk: indices, then values. -/
def topRow (hi : Bool) (k n : Nat) (row : List Nat) : List Byte :=
  let idx := (topOrder hi (row.take n)).take k
  packBytes 16 (idx ++ List.replicate (128 - k) 0) ++
    packBytes 32 (idx.map (fun i => row.getD i 0) ++ List.replicate (128 - k) 0)

/-- R201. -/
def topk (hi : Bool) (tk : Tk) (rg : Rg) (xa xb xc : XReg) (s : State) : Out :=
  issuePipe 0#2 tk (fun s core st =>
    orTrap s (do
      let a ← numX st xa
      let k ← numX st xb
      let n ← numX st xc
      let g ← needRegion st rg
      needM (g.slots == 1) 0xFFF6
      needM (decide (1 ≤ k) && decide (k ≤ n) && decide (n ≤ 128)) 0xFFF1
      spAligned a 64
      spIn a (768 * g.rows)
      rowsFresh s core st ((List.range g.rows).map fun r => rowAt g 0 r)
      .ok (a, k, n, g)) fun (a, k, n, g) =>
    .fin (iter g.rows s fun r s1 =>
      spWriteN 13 s1 core st.cgen (a + 768 * r) (topRow hi k n (rowElems (getRow s core st (rowAt g 0 r)))))) s

/-- R201. -/
def execMtopkLo (tk : Tk) (rg : Rg) (xa xb xc : XReg) (s : State) : Out := topk false tk rg xa xb xc s
/-- R201. -/
def execMtopkHi (tk : Tk) (rg : Rg) (xa xb xc : XReg) (s : State) : Out := topk true tk rg xa xb xc s

/-! ## The finish of a matrix instruction (R177) -/

/-- The oldest unfinished matrix instruction finishes once its stores are performed. -/
def finishFirst (n : Nat) : List OrdPush → List OrdPush
  | [] => []
  | o :: r =>
    if o.fin then o :: finishFirst n r
    else if o.need ≤ n then { o with
      fin := true
      undo := [] } :: r
    else o :: r

/-- R177: its last write is performed; pushes follow in program order. -/
def execMatrixFinish (core : Nat) (s : State) : Out :=
  match strandAt s core with
  | none => .next s
  | some st =>
    let m := finishFirst (oldestStore st) st.mats
    if m = st.mats then .next s
    else .next (settle (noteProgress (setStrand s core { st with mats := m }) st.crew) core)

/-- R181. -/
def execArrayGrant (quad : Nat) (s : State) : Out := .next (arrayGrant s quad)

end Sys2Proof.Machine
end

