-- ==== Sys2Proof/Machine/Copy.lean ====
section
/-! DEFINITION. The copy stream (R175, R247 to R269): issue checks, copies in flight, landing zones, fences and loops. -/
namespace Sys2Proof.Machine
open Sys2Proof

/-! ## Ends of a copy -/

/-- An end moved by `k` bytes. -/
def CEnd.plus (e : CEnd) (k : Int) : CEnd :=
  match e with
  | .sp o => .sp ((o : Int) + k).toNat
  | .cw o => .cw ((o : Int) + k).toNat
  | .mem c o => .mem c ((o : Int) + k).toNat

/-- Bytes read at an end, zero in place of each byte of a stale scratchpad granule. -/
def readEnd (s : State) (core : Nat) (st : Strand) (x : Reader) (e : CEnd) (n : Nat) : Reads :=
  match e with
  | .sp o => .ok [spFill s core st.cgen 0#8 o n] s
  | .cw _ => .ok [] s
  | .mem c o => readPieces s core st x (capObj c) (capOgen c) (pieces (n / 64 + 2) 0 o n)

/-- Bytes written to the crew window, granule by granule, each under its owner's generation (R241, R255, R259). -/
def writeCrew (fuel : Nat) (s : State) (crew a : Nat) (l : List Byte) : State :=
  match fuel with
  | 0 => s
  | f + 1 =>
    if l.isEmpty then s
    else
      let s1 := match member s crew (a / 262144) with
        | some (o, m) => spWrite s o m.cgen (a % 262144) (l.take 64)
        | none => s
      writeCrew f s1 crew (a + 64) (l.drop 64)

/-- The access queue of the copy storer that serves a copy (R228; log entry 45). -/
def storeQueue (st : Strand) (idx : Nat) : Nat := 4 + ((st.copies.find? fun c => c.idx == idx).map CopyRec.slot).getD 0 % 2

/-- Bytes written at an end, as part of the copy `idx`. -/
def writeEnd (s : State) (core : Nat) (st : Strand) (idx : Nat) (e : CEnd) (l : List Byte) :
    Except Trapped Unit × State :=
  match e with
  | .sp o => (.ok (), spWriteN (l.length / 64 + 2) s core st.cgen o l)
  | .cw o => (.ok (), writeCrew (l.length / 64 + 1) s st.crew o l)
  | .mem c o => writePieces s core .C (some (storeQueue st idx)) false idx (capObj c) (capOgen c) (cutPieces o l)

/-! ## Formats of a converting copy (R254, Table 12.4) -/

/-- The bits of an element by copy format code: lns6 is packed (R151). -/
def copyBits (c : Nat) : Nat :=
  match c with
  | 0 => 16
  | 12 => 6
  | 14 => 32
  | c => fmtBits c

/-- The width of a natural format that only copies have: n16, n32. -/
def natCode (c : Nat) : Option Nat := if c = 0 then some 16 else if c = 14 then some 32 else none

/-- One element converted by copy format codes (Table 6.5). -/
def copyConvert (src tgt : Nat) (z : RSet) (x : Nat) : Rnd :=
  match natCode src, natCode tgt with
  | none, none => convert src tgt z x
  | some _, none => convertV false tgt z (exInt x)
  | ms, some w =>
    if src = tgt then { enc := x }
    else
      let v := if ms.isSome then exInt x else flushEx src z.ftz (valOf src x)
      let sat := fun (r : Rnd) =>
        if z.sat && r.ovf then { r with
          enc := if r.neg then 0 else 2 ^ w - 1
          ovf := false
          ev := r.ev ||| evSat } else r
      match v with
      | .nan => { enc := 0, ev := evInv }
      | .inf neg => sat { enc := 0, ovf := true, neg := neg, ev := evOv }
      | .fin neg a e =>
        let i := roundInt false w (toInt z.rm neg a e)
        sat (if i.ovf && (fltOf src).isSome then { i with enc := 0 } else i)

/-- Elements that fill whole granules on both sides of a conversion. -/
def cvtUnit (src tgt : Nat) : Nat :=
  max (512 / Nat.gcd 512 (copyBits src)) (512 / Nat.gcd 512 (copyBits tgt))

/-- The bytes of `m` packed LNS6 elements in scratchpad: a field that a stale granule touches is the zero 0x10 (R152). -/
def lnsBytes (s : State) (core : Nat) (st : Strand) (o m : Nat) : List Byte :=
  let v := packNat 8 ((spFill s core st.cgen 0#8 o (m * 6 / 8)).map BitVec.toNat)
  packBytes 6 ((List.range m).map fun j => if bitsCur s core st.cgen o (6 * j) then v >>> (6 * j) % 64 else 0x10)

/-! ## Units of a copy (R249) -/

/-- The number of units of a copy. -/
def unitsOf (op : CopyOp) : Nat :=
  match op with
  | .lin _ _ len => len / 64
  | .rows _ _ len _ _ n => if len = 0 then 0 else n
  | .cvt _ _ n sf df _ _ _ => n / cvtUnit sf df
  | .fill _ len _ => len / 64
  | .accRd _ _ n => n
  | .accWr _ _ n => n
  | .gath .. => 129
  | .scat _ rows _ _ => rows.length
  | .null _ _ _ toks => toks.length
  | .rcp _ _ len _ _ => if len = 0 then 0 else len / 64 + 1

/-- The bytes of a tile row of a gather or scatter: 128 elements of a copy format, an LNS6 element in a container of 8 bits
(R189; log entry 38). -/
def gathRow (fmt : Nat) : Nat := 16 * if fmt = 12 then 8 else copyBits fmt

/-- What unit `k` of a copy does once it has read `b`: its writes, with the events it raises. -/
inductive UnitDo where
  | read (e : CEnd) (n : Nat)
  | put (b : List Byte)

/-- Where unit `k` reads: an end and a byte count, or bytes it has already. DESIGN CHOICE (log entry 87): a cscat moves containers
whatever its DTAG, so a stale granule under ZERO gives 0x00 (R152). -/
def unitSrc (s : State) (core : Nat) (st : Strand) (op : CopyOp) (k : Nat) : UnitDo :=
  match op with
  | .lin src _ _ => .read (src.plus (64 * k)) 64
  | .rows src _ len ss _ _ => .read (src.plus (ss * k)) len
  | .cvt src _ _ sf df _ _ _ =>
    let m := cvtUnit sf df
    match src.plus (m * copyBits sf / 8 * k : Nat) with
    | .sp o => if sf = 12 then .put (lnsBytes s core st o m) else .read (.sp o) (m * copyBits sf / 8)
    | e => .read e (m * copyBits sf / 8)
  | .fill _ _ v => .put ((List.replicate 8 (toBytes 8 v)).flatten)
  | .accRd _ row _ => .put (toBytes 512 (accRow s core st (row + k)))
  | .accWr off _ _ => .read (.sp (off + 512 * k)) 512
  | .gath c rows _ fmt toks =>
    match rows[k]? with
    | some o => .read (.mem c o) (gathRow fmt)
    | none =>
      if k < 128 then .put (List.replicate (gathRow fmt) 0#8)
      else .put (packBytes 16 ((List.range 128).map fun i => toks.getD i 0xFFFF))
  | .scat _ _ tile fmt => .read (.sp (tile + gathRow fmt * k)) (gathRow fmt)
  | .null kind src _ toks =>
    match kind with
    | 0 => .put (List.replicate 512 0#8)
    | 1 => .read (.sp (src + 512 * toks.getD k 0)) 512
    | _ => .read (.sp src) 512
  | .rcp src _ len _ _ => if 64 * k < len then .read (.sp (src + 64 * k)) 64 else .put []

/-- Unit `k` of a copy is read: its bytes, a trap, or a wait for a CXL completion. -/
def unitLoad (s : State) (core : Nat) (st : Strand) (c : CopyRec) (k : Nat) : Reads :=
  match unitSrc s core st c.op k with
  | .put b => .ok [b] s
  | .read e n => readEnd s core st { know := c.know, via := some (c.slot % 4), ans := c.ans } e n

/-- Unit `k` of a copy is written. -/
def unitPut (s : State) (core : Nat) (st : Strand) (idx : Nat) (op : CopyOp) (k : Nat) (b : List Byte) :
    Except Trapped Unit × State × Events :=
  let w := fun (e : CEnd) (l : List Byte) =>
    let r := writeEnd s core st idx e l
    (r.1, r.2, 0#4)
  match op with
  | .lin _ dst _ => w (dst.plus (64 * k)) b
  | .rows _ dst _ _ ds _ => w (dst.plus (ds * k)) b
  | .cvt _ dst _ sf df rm sat ftz =>
    let m := cvtUnit sf df
    let v := packNat 8 (b.map BitVec.toNat)
    let z : RSet := { rm := rm, sat := sat, ftz := ftz }
    let r := (List.range m).map fun j => copyConvert sf df z (v >>> (copyBits sf * j) % 2 ^ copyBits sf)
    let o := writeEnd s core st idx (dst.plus (m * copyBits df / 8 * k : Nat)) (packBytes (copyBits df) (r.map (·.enc)))
    (o.1, o.2, r.foldl (fun e x => e ||| x.ev) 0#4)
  | .fill dst _ _ => w (dst.plus (64 * k)) b
  | .accRd off _ _ => w (.sp (off + 512 * k)) b
  | .accWr _ row _ => (.ok (), putAcc s core st (row + k) (ofBytes 4096 b), 0#4)
  | .gath _ _ tile fmt _ => w (.sp (tile + gathRow fmt * k)) b
  | .scat c rows _ _ => w (.mem c (rows.getD k 0)) b
  | .null _ _ dst toks => w (.sp (dst + 512 * toks.getD k 0)) b
  | .rcp _ dst len ctr _ =>
    if 64 * k < len then w (.cw (dst + 64 * k)) b
    else
      match member s st.crew (dst / 262144) with
      | none => (.ok (), s, 0#4)
      | some (o, m) =>
        let c : DWord := ofBytes 64 (spFill s o m.cgen 0#8 ctr 8)
        (.ok (), spWrite s o m.cgen ctr (toBytes 8 (c + 1)), 0#4)

/-! ## Progress and completion -/

/-- A copy of the strand changed by `f`. -/
def modCopy (st : Strand) (idx : Nat) (f : CopyRec → CopyRec) : Strand :=
  { st with copies := st.copies.map fun c => if c.idx = idx then f c else c }

/-- A copy completes (R250, R266, R268): its slot is free, its push may follow in order. -/
def finishCopy (s : State) (core : Nat) (c : CopyRec) : State :=
  modStrand s core fun st =>
    let st1 := { st with
      copies := st.copies.filter fun x => x.idx != c.idx
      copyPush := st.copyPush.map fun o => if o.idx = c.idx then { o with fin := true } else o
      uipend := if c.ui then st.uipend ++ [c.slot] else st.uipend }
    let st2 := raise st1 c.evs
    match c.op with
    | .rcp _ _ _ _ nq =>
      if nq = 0#4 then st2 else { st2 with ext := st2.ext ++ [{ q := 5 * (nq.toNat - 1), know := {} }] }
    | _ => st2

/-- A copy that meets a memory-port cause is held with its progress, the first unit it has not written (R267): the
stream's record is written, unless it has one, and the crew freezes. -/
def holdCopy (s : State) (core : Nat) (c : CopyRec) (t : Trapped) : State :=
  match strandAt s core with
  | none => s
  | some st =>
    let s1 := setStrand s core (modCopy st c.idx fun x => { x with
      held := true
      ahead := []
      ans := none
      asked := false })
    let x := streamOf st .C
    if x.tr.isSome then s1
    else
      takeTrap s1 core .C
        { cause := t.cause, detail := t.detail, popped := true, mid := true, addr := c.addr, gaddr := x.pc,
          words := c.words.take 5, fault := t.fault }

/-- A copy's request leaves on a CXL port, once for each unit that it reads there (R370), once its strand's older stores to the
granule have completed. -/
def askCopy (s : State) (core : Nat) (c : CopyRec) (port : Option Nat) : State :=
  match port with
  | none => s
  | some p =>
    if c.asked then s
    else sendCxl (modStrand s core fun st => modCopy st c.idx fun c => { c with asked := true }) p (.copy core c.slot)

/-- The units of a copy from its progress on, each read, unless the loader has, and then written, with fuel. -/
def moveUnits (fuel : Nat) (s : State) (core idx : Nat) : State :=
  match fuel with
  | 0 => s
  | f + 1 =>
    match strandAt s core with
    | none => s
    | some st =>
      match st.copies.find? fun c => c.idx == idx with
      | none => s
      | some c =>
        if unitsOf c.op ≤ c.done then setStrand s core (modCopy st idx fun c => { c with moved := true })
        else
          let put := fun (b : List Byte) (s1 : State) =>
            match unitPut s1 core st c.idx c.op c.done b with
            | (.ok _, s2, ev) =>
              moveUnits f (modStrand s2 core fun st => modCopy st idx fun c => { c with
                done := c.done + 1
                ahead := c.ahead.drop 1
                ans := none
                evs := c.evs ||| ev }) core idx
            | (.error t, s2, _) => holdCopy s2 core c t
          match c.ahead with
          | b :: _ => put b s
          | [] =>
            match unitLoad s core st c c.done with
            | .ok l s1 => put l.flatten s1
            | .trap t s1 => holdCopy s1 core c t
            | .ask p s1 => askCopy s1 core c p

/-- Whether the loader has read every unit of a copy, or has set it aside (R249). -/
def copyLoaded (c : CopyRec) : Bool := c.moved || c.held || decide (unitsOf c.op ≤ c.done + c.ahead.length)

/-- Whether two ends may share bytes: of one object, or both of this package's scratchpads. -/
def CEnd.mayMeet (a : CEnd) (n : Nat) (b : CEnd) (m : Nat) : Bool :=
  match a, b with
  | .sp o, .sp p => decide (o < p + m) && decide (p < o + n)
  | .mem c o, .mem d p => capObj c == capObj d && decide (o < p + m) && decide (p < o + n)
  | .mem _ _, _ => false
  | _, .mem _ _ => false
  | _, _ => true

/-- Whether some row of 512 bytes at one list of places shares bytes with one at another. -/
def rowsMeet (a b : List Nat) : Bool := a.any fun x => b.any fun y => decide (x < y + 512) && decide (y < x + 512)

/-- Whether the source and the destination of a copy of a strand of a rank may overlap: each of its units is then read and
written before the next is read (R249). A cnull reads and writes rows of its strand's scratchpad; a crcp meets its source only
in its own scratchpad. -/
def opOverlaps (rank : Nat) : CopyOp → Bool
  | .lin a b n => a.mayMeet n b n
  | .rows a b _ _ _ _ => a.mayMeet (2 ^ 64) b (2 ^ 64) || b.mayMeet (2 ^ 64) a (2 ^ 64)
  | .cvt a b n sf df _ _ _ => a.mayMeet (n * copyBits sf / 8) b (n * copyBits df / 8)
  | .null kind src dst toks =>
    let outs := toks.map fun t => dst + 512 * t
    match kind with
    | 0 => false
    | 1 => rowsMeet (toks.map fun t => src + 512 * t) outs
    | _ => rowsMeet [src] outs
  | .rcp src dst len _ _ =>
    dst / 262144 == rank && decide (src < dst % 262144 + len) && decide (dst % 262144 < src + len)
  | _ => false

/-- The loader reads the rest of a copy ahead of its storer, with fuel (R249). -/
def loadAhead (fuel : Nat) (s : State) (core idx : Nat) : State :=
  match fuel with
  | 0 => s
  | f + 1 =>
    match strandAt s core with
    | none => s
    | some st =>
      match st.copies.find? fun c => c.idx == idx with
      | none => s
      | some c =>
        if copyLoaded c ∨ opOverlaps st.rank c.op = true then s
        else
          match unitLoad s core st c (c.done + c.ahead.length) with
          | .ok l s1 =>
            loadAhead f (modStrand s1 core fun st => modCopy st idx fun c => { c with
              ahead := c.ahead ++ [l.flatten]
              ans := none }) core idx
          | .trap t s1 => holdCopy s1 core c t
          | .ask p s1 => askCopy s1 core c p

/-- The loader goes through copies in program order, and stops at one that it cannot finish (R249). -/
def loadCopies (core : Nat) : List CopyRec → State → State
  | [], s => s
  | c :: r, s =>
    let s1 := loadAhead (unitsOf c.op + 1) s core c.idx
    match (strandAt s1 core).bind fun st => st.copies.find? fun x => x.idx == c.idx with
    | some c1 => if copyLoaded c1 then loadCopies core r s1 else s1
    | none => s1

/-- Whether a copy's stores are all performed or failed (R250). -/
def copyPerformed (st : Strand) (idx : Nat) : Bool := !st.stores.any fun w => w.stream == .C && w.idx == idx

/-- Whether the copies before one have moved or are held (R249). -/
def copyFirst (st : Strand) (idx : Nat) : Bool :=
  st.copies.all fun c => decide (idx ≤ c.idx) || c.moved || c.held

/-- Whether UIPEND has room for a copy's entry (R266). DESIGN CHOICE (log entry 74): a copy whose entry would be the 129th
completes once an entry has been delivered. -/
def uiRoom (st : Strand) (c : CopyRec) : Bool := !c.ui || decide (st.uipend.length < 128)

/-- COPY_COMPLETE (R249, R250): the copy's units are moved in its turn; once its writes are performed it completes. Before
its turn the loader reads ahead, as far as it can get. -/
def copyStep (s : State) (core idx : Nat) : State :=
  match strandAt s core with
  | none => s
  | some st =>
    match st.copies.find? fun c => c.idx == idx with
    | none => s
    | some c =>
      if c.held then s
      else if c.moved = false ∧ copyFirst st idx = false then
        settle (loadCopies core (st.copies.filter fun x => decide (x.idx ≤ idx)) s) core
      else
        let s1 := if c.moved then s else moveUnits (unitsOf c.op + 1) s core idx
        match strandAt s1 core with
        | none => s1
        | some st1 =>
          let s2 := noteProgress s1 st1.crew
          match st1.copies.find? fun c => c.idx == idx with
          | some c1 =>
            settle (if c1.moved && copyPerformed st1 idx && uiRoom st1 c1 then finishCopy s2 core c1 else s2) core
          | none => s2

/-- R250: the outstanding copy in a slot. -/
def execCopyComplete (core slot : Nat) (s : State) : Out :=
  match (strandAt s core).bind fun st => st.copies.find? fun c => c.slot == slot with
  | some c => .next (copyStep s core c.idx)
  | none => .next s

/-! ## The frames of the copy stream -/

/-- How a copy stream instruction's turn ends; a copy's push stands in the stream's order already. -/
def closeC (core : Nat) (pat : BitVec 32) (control : Bool) (r : Eff) : State :=
  let done := fun (s : State) =>
    match strandAt s core with
    | some st => settle (noteProgress s st.crew) core
    | none => s
  let push := fun (s : State) =>
    if control then
      modStrand s core fun st =>
        { st with
          copyPush := st.copyPush ++
            [{ idx := 0, fin := true, mask := pushOf pat, know := (streamOf st .C).know, addr := s.grp.addr
               gaddr := s.grp.gaddr, words := s.grp.words }] }
    else s
  match r with
  | .fin s => done (push (passMC s core .C s.grp.next))
  | .jump s t => done (push (passMC s core .C t))
  | r => closeEff core .C pat r

/-- The frame of a copy stream instruction: pattern, an optional wait before the tk_pop, tk_pop, body (R46, R247). -/
def issueC (control : Bool) (gate : Strand → Bool) (tk : Tk) (body : BitVec 32 → State → Nat → Strand → Eff) (s : State) :
    Out :=
  match actor s .C with
  | none => .fault .noStrand
  | some (core, st) =>
    let pat := patOf st .C tk
    if !patternOk .C pat then .next (settle (trapNow s core .C { cause := .tokenPattern } false false) core)
    else if !(streamOf st .C).popped && !gate st then
      .next (settle (modStream s core .C fun x => { x with st := .syncWait }) core)
    else
      match popStep s core .C st pat with
      | .error s1 => .next s1
      | .ok (s1, st1) => .next (closeC core pat control (body pat s1 core st1))

/-- A control instruction of the copy stream. -/
def controlC (tk : Tk) (body : State → Nat → Strand → Eff) (s : State) : Out :=
  issueC true (fun _ => true) tk (fun _ => body) s

/-- The slot that the next copy takes (R247). -/
def nextSlot (st : Strand) : Nat := st.sys.seq.toNat % 128

/-- Whether the next copy's slot is free (R247). -/
def slotFree (st : Strand) : Bool := !st.copies.any fun c => c.slot == nextSlot st

/-- A copy has issued: it takes its slot, its place in the order and its push; an empty one completes at once (R248). -/
def addCopy (s : State) (core : Nat) (st : Strand) (pat : BitVec 32) (ui : Bool) (op : CopyOp) : State :=
  let b := beginStore st .C
  let k := (streamOf b.2 .C).know
  let g := s.grp
  let c : CopyRec :=
    { slot := nextSlot st, idx := b.1, op := op, ui := ui, know := k, addr := g.addr, gaddr := g.gaddr, words := g.words }
  let st1 := { b.2 with
    sys := { b.2.sys with seq := b.2.sys.seq + 1 }
    copies := b.2.copies ++ [c]
    copyPush := b.2.copyPush ++
      [{ idx := b.1, fin := false, mask := pushOf pat, know := k, addr := g.addr, gaddr := g.gaddr, words := g.words }] }
  let s1 := setStrand s core st1
  if unitsOf op = 0 ∧ uiRoom st c = true then finishCopy s1 core c else s1

/-- The frame of a copy: its checks give what it does (R247, R248). -/
def issueCopy (tk : Tk) (ui : Bool) (check : State → Nat → Strand → Chk CopyOp) (s : State) : Out :=
  issueC false slotFree tk (fun pat s core st =>
    orTrap s (check s core st) fun op => .fin (addCopy s core st pat ui op)) s

/-! ## Checks (R248) -/

/-- A scalar register as a number. -/
def numC (st : Strand) (r : XReg) : Chk Nat := do
  let v ← readX st .C r
  .ok v.toNat

/-- Step 3 for one end: its capability, or scratchpad. -/
def endOf (st : Strand) (sp : Bool) (cn : CReg) (off n : Nat) (rt : Right) : Chk CEnd :=
  if sp then .ok (.sp off)
  else do
    let c ← readC st cn
    let a ← capWindow c cn.toNat (BitVec.ofNat 64 off).toInt n rt
    .ok (.mem c a)

/-- The offset of an end. -/
def CEnd.offset (e : CEnd) : Nat :=
  match e with
  | .sp o => o
  | .cw o => o
  | .mem _ o => o

/-- Step 4: multiples of 64. -/
def alignC (l : List Nat) : Chk Unit := if l.all fun x => x % 64 == 0 then .ok () else trapOf .dataMisaligned

/-- Step 5 for an end of `n` bytes. -/
def boundC (e : CEnd) (n : Nat) : Chk Unit :=
  match e with
  | .sp o => spIn o n
  | _ => .ok ()

/-- Step 7 for an end that is read. -/
def freshC (s : State) (core : Nat) (st : Strand) (e : CEnd) (n : Nat) : Chk Unit :=
  match e with
  | .sp o => spFresh s core st o n
  | _ => .ok ()

/-- Step 6: the rank bound of a crew-window range (R255, R259). -/
def crewIn (s : State) (st : Strand) (a n : Nat) : Chk Unit :=
  match crewAt s st.crew with
  | some c => if (c.size + 1) * 262144 < a + n then trapOf .crewWindow else .ok ()
  | none => trapOf .crewWindow

/-- The capabilities of an instruction are read before anything is checked (step 1). -/
def readCaps (st : Strand) (l : List (Bool × CReg)) : Chk Unit :=
  match l with
  | [] => .ok ()
  | (sp, c) :: r => do
    if sp then .ok () else do
      let _ ← readC st c
    readCaps st r

/-- A list of Table 8.2 at a scratchpad offset: its checks, then its tokens (R175, R248 step 2). -/
def listAt (s : State) (core : Nat) (st : Strand) (o : Nat) : Chk (List Nat) := do
  alignC [o]
  spIn o 256
  spFresh s core st o 256
  let w := unpack 16 128 (spBytes s core st.cgen o 256)
  let n := w.getD 0 0
  if 128 < n then trapWith .reservedField 0
  else if n < 128 then .ok ((w.drop 1).take n)
  else do
    spIn o 258
    spFresh s core st o 258
    .ok (w.drop 1 ++ unpack 16 1 (spBytes s core st.cgen (o + 256) 2))

/-! ## Linear and strided copies -/

/-- A linear copy (R252). -/
def linear (tk : Tk) (sps spd : Bool) (cs cd : CReg) (xa xb : XReg) (ui : Bool) (xc : XReg) (s : State) : Out :=
  issueCopy tk ui (fun s core st => do
    let a ← numC st xa
    let b ← numC st xb
    let n ← numC st xc
    readCaps st [(sps, cs), (spd, cd)]
    let src ← endOf st sps cs a n .r
    let dst ← endOf st spd cd b n .w
    alignC [src.offset, dst.offset, n]
    boundC src n
    boundC dst n
    freshC s core st src n
    .ok (.lin src dst n)) s

/-- R252. -/
def execCpy (tk : Tk) (cd cs : CReg) (xa xb : XReg) (ui : Bool) (xc : XReg) (s : State) : Out :=
  linear tk false false cs cd xa xb ui xc s
/-- R175, R252. -/
def execCpyin (tk : Tk) (cs : CReg) (xa xb : XReg) (ui : Bool) (xc : XReg) (s : State) : Out :=
  linear tk false true cs 0#4 xa xb ui xc s
/-- R252. -/
def execCpyout (tk : Tk) (cd : CReg) (xa xb : XReg) (ui : Bool) (xc : XReg) (s : State) : Out :=
  linear tk true false 0#4 cd xa xb ui xc s

/-- The offsets of the rows of a strided end, modulo 2^64. -/
def strideOffs (a : DWord) (stride : BitVec 32) (n : Nat) : List Nat :=
  (List.range n).map fun r => (a + d64 r * stride.signExtend 64).toNat

/-- R253. -/
def execCpy2d (tk : Tk) (cd cs : CReg) (xa xb : XReg) (ui : Bool) (xc xs : XReg) (rows : BitVec 10) (spd sps : Bool)
    (s : State) : Out :=
  issueCopy tk ui (fun s core st => do
    let (a, b) ← readX2 st .C xa xb
    let len ← numC st xc
    let d ← readX st .C xs
    readCaps st [(sps, cs), (spd, cd)]
    let n := rows.toNat + 1
    let ss : BitVec 32 := bits d 0 32
    let ds : BitVec 32 := bits d 32 32
    let src ← (strideOffs a ss n).mapM fun o => endOf st sps cs o len .r
    let dst ← (strideOffs b ds n).mapM fun o => endOf st spd cd o len .w
    alignC (len :: ss.toNat :: ds.toNat :: (src ++ dst).map CEnd.offset)
    (src ++ dst).forM fun e => boundC e len
    src.forM fun e => freshC s core st e len
    .ok (.rows (src.headD (.sp 0)) (dst.headD (.sp 0)) len ss.toInt ds.toInt n)) s

/-- R254. -/
def execCpyCvt (tk : Tk) (cd cs : CReg) (xa xb : XReg) (ui : Bool) (xc : XReg) (dtag stag : BitVec 4) (spd sps : Bool)
    (s : State) : Out :=
  issueCopy tk ui (fun s core st => do
    let a ← numC st xa
    let b ← numC st xb
    let n ← numC st xc
    readCaps st [(sps, cs), (spd, cd)]
    let sf := stag.toNat
    let df := dtag.toNat
    let ns := (n * copyBits sf + 7) / 8
    let nd := (n * copyBits df + 7) / 8
    let src ← endOf st sps cs a ns .r
    let dst ← endOf st spd cd b nd .w
    alignC [src.offset, dst.offset]
    if n % cvtUnit sf df = 0 then .ok () else trapOf .dataMisaligned
    boundC src ns
    boundC dst nd
    freshC s core st src ns
    let z := settings s st
    .ok (.cvt src dst n sf df z.rm z.sat z.ftz)) s

/-! ## Fills and the accumulator -/

/-- R255. -/
def execCfill (tk : Tk) (xa xb xc : XReg) (ui : Bool) (s : State) : Out :=
  issueCopy tk ui (fun _ _ st => do
    let a ← numC st xa
    let n ← numC st xb
    let v ← readX st .C xc
    alignC [a, n]
    spIn a n
    .ok (.fill (.sp a) n v)) s

/-- R255: the crew window, in either mode. -/
def execCfillCw (tk : Tk) (xa xb xc : XReg) (ui : Bool) (s : State) : Out :=
  issueCopy tk ui (fun s _ st => do
    let a ← numC st xa
    let n ← numC st xb
    let v ← readX st .C xc
    alignC [a, n]
    crewIn s st a n
    .ok (.fill (.cw a) n v)) s

/-- The checks of cpyacc (R256): offset, first row, count. -/
def accCheck (st : Strand) (xa xb xc : XReg) : Chk (Nat × Nat × Nat) := do
  let a ← numC st xa
  let r ← numC st xb
  let n ← numC st xc
  needM (decide (1 ≤ n) && decide (n ≤ 1024)) 0xFFF1
  needM (st.regions.any fun p => decide (p.2.base ≤ r) && decide (r + n ≤ p.2.base + p.2.rows * p.2.slots)) 0xFFF0
  alignC [a]
  spIn a (512 * n)
  .ok (a, r, n)

/-- R256. -/
def execCpyaccRd (tk : Tk) (xa xb xc : XReg) (ui : Bool) (s : State) : Out :=
  issueCopy tk ui (fun s core st => do
    let (a, r, n) ← accCheck st xa xb xc
    rowsFresh s core st ((List.range n).map fun i => .acc (r + i))
    .ok (.accRd a r n)) s

/-- R256. -/
def execCpyaccWr (tk : Tk) (xa xb xc : XReg) (ui : Bool) (s : State) : Out :=
  issueCopy tk ui (fun s core st => do
    let (a, r, n) ← accCheck st xa xb xc
    spFresh s core st a (512 * n)
    .ok (.accWr a r n)) s

/-! ## Gathers, scatters, null experts -/

/-- What cgath and cscat share up to step 4 (R175, R257): capability, the rows' offsets in the object, tile, tokens. A
row lies at xa + xs × token, which cap_check takes as 64-bit two's complement (R46); an empty list checks a range of
zero bytes at xa (R248). -/
def gathCheck (s : State) (core : Nat) (st : Strand) (cn : CReg) (xa xb xc xs : XReg) (fmt e : Nat) (rt : Right) :
    Chk (CapBits × List Nat × Nat × List Nat) := do
  let a ← readX st .C xa
  let b ← numC st xb
  let l ← numC st xc
  let d ← readX st .C xs
  let c ← readC st cn
  let toks ← listAt s core st (l + 256 * e)
  let rows ← toks.mapM fun t => capWindow c cn.toNat (a + d * d64 t).toInt (gathRow fmt) rt
  let zero ← (if toks.isEmpty then do
      let o ← capWindow c cn.toNat a.toInt 0 rt
      .ok [o]
    else .ok [] : Chk (List Nat))
  alignC (b :: (zero ++ rows))
  .ok (c, rows, b, toks)

/-- R175. -/
def execCgath (tk : Tk) (cs : CReg) (xa xb : XReg) (ui : Bool) (xc xs : XReg) (dtag : BitVec 4) (e : BitVec 7)
    (s : State) : Out :=
  issueCopy tk ui (fun s core st => do
    let (c, rows, b, toks) ← gathCheck s core st cs xa xb xc xs dtag.toNat e.toNat .r
    spIn b (128 * gathRow dtag.toNat + 256)
    .ok (.gath c rows b dtag.toNat toks)) s

/-- R257. -/
def execCscat (tk : Tk) (cd : CReg) (xa xb : XReg) (ui : Bool) (xc xs : XReg) (dtag : BitVec 4) (e : BitVec 7)
    (s : State) : Out :=
  issueCopy tk ui (fun s core st => do
    let (c, rows, b, toks) ← gathCheck s core st cd xa xb xc xs dtag.toNat e.toNat .w
    let n := toks.length * gathRow dtag.toNat
    spIn b n
    spFresh s core st b n
    .ok (.scat c rows b dtag.toNat)) s

/-- The copies that resolve a null expert (R258): kind 0 zero, 1 identity, 2 constant. -/
def nullCopy (kind : Nat) (tk : Tk) (xa xb xc : XReg) (ui : Bool) (s : State) : Out :=
  issueCopy tk ui (fun s core st => do
    let l ← numC st xa
    let b ← numC st xb
    let c ← numC st xc
    let toks ← listAt s core st l
    alignC [b, c]
    let src := if kind = 1 then toks.map fun t => c + 512 * t else if kind = 2 ∧ toks ≠ [] then [c] else []
    if toks.isEmpty then do
      spIn b 0
      if kind = 0 then .ok () else spIn c 0
    else .ok ()
    (toks.map fun t => b + 512 * t).forM fun o => spIn o 512
    src.forM fun o => spIn o 512
    src.forM fun o => spFresh s core st o 512
    .ok (.null kind c b toks)) s

/-- R258. -/
def execCnullZero (tk : Tk) (xa xb : XReg) (ui : Bool) (s : State) : Out := nullCopy 0 tk xa xb 0#5 ui s
/-- R258. -/
def execCnullId (tk : Tk) (xa xb xc : XReg) (ui : Bool) (s : State) : Out := nullCopy 1 tk xa xb xc ui s
/-- R258. -/
def execCnullConst (tk : Tk) (xa xb xc : XReg) (ui : Bool) (s : State) : Out := nullCopy 2 tk xa xb xc ui s

/-! ## Remote copies (R259) -/

/-- R259. -/
def execCrcp (tk : Tk) (xa xb xc : XReg) (nq : BitVec 4) (ui : Bool) (s : State) : Out :=
  issueCopy tk ui (fun s core st => do
    let a ← numC st xa
    let b ← numC st xb
    let c ← readX st .C xc
    let len := fieldOf c 0 20
    let ctr := fieldOf c 20 18
    needM (zeroBits c 38 26 && decide (len ≤ 262144)) 0xFFF1
    alignC [a, b, len]
    if ctr % 8 = 0 then .ok () else trapOf .dataMisaligned
    spIn a len
    crewIn s st b len
    spFresh s core st a len
    .ok (.rcp a b len ctr nq)) s

/-! ## Landing zones (R261, R262) -/

/-- The external queue of a zone: em or ec (R261). -/
def zoneQueue (ec : Bool) : Nat := if ec then 15 else 10

/-- R261. -/
def execCarm (tk : Tk) (xa xb xc : XReg) (cn : CReg) (s : State) : Out :=
  controlC tk (fun s core st =>
    orTrap s (do
      let a ← numC st xa
      let n ← numC st xb
      let x ← readX st .C xc
      let cap ← readC st cn
      let z := fieldOf x 0 4
      needM (n != 0 && zeroBits x 5 59) 0xFFF1
      needM ((mapFind st.zones z).isNone && !st.zones.any fun p => rangesMeet a n p.2.off p.2.len) 0xFFF7
      let _ ← capWindow cap cn.toNat 0 0 .l
      alignC [a, n]
      spIn a n
      .ok (z, ({ obj := capObj cap, ogen := capOgen cap, off := a, len := n, ec := x.getLsbD 4 } : Zone)))
      fun (z, zone) => .fin (setStrand s core { st with zones := mapPut st.zones z zone })) s

/-- Whether a landing into a zone has still to push its token (R262). -/
def zoneBusy (s : State) (st : Strand) (z : Nat) : Bool :=
  s.te.any fun c => c.2.moves.any fun m => m.a.dtier == 3#2 && ((m.status.isNone && decide (0 < m.written)) || m.token) &&
    m.sid == st.sid && m.a.z.toNat == z

/-- R262. -/
def execCdisarm (tk : Tk) (xa : XReg) (s : State) : Out :=
  controlC tk (fun s core st =>
    orTrap s (do
      let x ← readX st .C xa
      needM (zeroBits x 4 60) 0xFFF1
      .ok x.toNat) fun z =>
    if zoneBusy s st z then .wait s else .fin (setStrand s core { st with zones := mapErase st.zones z })) s

/-! ## Waiting, fencing, loops and the end (R263 to R265) -/

/-- R263: every earlier copy has completed, so every write of it has been performed or has failed. -/
def execCfence (tk : Tk) (_scope : BitVec 4) (s : State) : Out :=
  controlC tk (fun s _ st => if st.copies.isEmpty then .fin s else .wait s) s

/-- R264. -/
def execCwaitAll (tk : Tk) (s : State) : Out :=
  controlC tk (fun s _ st => if st.copies.isEmpty then .fin s else .wait s) s

/-- R264. -/
def execCwaitLe (tk : Tk) (xa : XReg) (s : State) : Out :=
  controlC tk (fun s _ st =>
    orTrap s (numC st xa) fun n => if st.copies.length ≤ n then .fin s else .wait s) s

/-- R265. -/
def execCnop (tk : Tk) (s : State) : Out := controlC tk (fun s _ _ => .fin s) s

/-- R265: as mloop, on CLC and CPC. -/
def execCloop (off : BitVec 20) (s : State) : Out :=
  controlC 0#4 (fun s core st =>
    if st.sys.clc = 0#32 then .fin s
    else
      orTrap s (checkRel s st .C off) fun t =>
      .jump (modStrand s core fun st => { st with sys := { st.sys with clc := st.sys.clc - 1 } }) t) s

/-- R265. -/
def execCend (tk : Tk) (s : State) : Out := controlC tk (fun s _ _ => .after s .stop) s

end Sys2Proof.Machine
end

