-- ==== Sys2Proof/Machine/Sync.lean ====
section
/-! DEFINITION. Semaphores, bindings, releases, fences, barriers and pages (R100 to R109, R213, R231 to R234, R318). -/
namespace Sys2Proof.Machine
open Sys2Proof

/-! ## Semaphores -/

/-- A semaphore of a die (R101, R213). -/
def semOf (s : State) (die sem : Nat) : BitVec 64 := mapGet 0#64 (dieAt s die).sems sem

/-- A condition of SEMWAIT: 0 ge, 1 eq, 2 ne, unsigned (R101, R213). -/
def semCond (c : BitVec 2) (v x : BitVec 64) : Bool :=
  match c.toNat with
  | 0 => decide (x.toNat ≤ v.toNat)
  | 1 => v == x
  | _ => v != x

/-- A semaphore takes a value; a SEMWAIT that has started on it is satisfied by any value it takes (R213). -/
def semPut (s : State) (die sem : Nat) (v : BitVec 64) : State :=
  modDie s die fun d =>
    { d with
      sems := mapSet 0#64 d.sems sem v
      queues := d.queues.map fun p =>
        match p.2.wait with
        | some (c, n, x) => if n = sem ∧ semCond c v x = true then (p.1, { p.2 with semSat := true }) else p
        | none => p }

/-- The indivisible add (R101, R213, R345). -/
def semAdd (s : State) (die sem : Nat) (x : BitVec 64) : State := semPut s die sem (semOf s die sem + x)

/-! ## Covered accesses -/

/-- Whether the stores of a strand that an operation covers and waits for are still under way at a scope (R104). At strand
scope a store is performed once the memory port has accepted it: every later read of the strand follows it (R272). At every
other scope its home must have performed it. -/
def coveredPending (st : Strand) (e : Engine) (scope : Nat) (p : Option DWord → Bool) : Bool :=
  scope != 0 && st.stores.any fun w => decide (w.idx ≤ ((streamOf st e).know.of w.stream)) && (w.bound :: w.more).any p

/-- How many stores a list of failed writes comes from: the writes of one instruction or copy are one store (DESIGN CHOICE,
log entry 72). -/
def storeCount (l : List FailedW) : Nat := (l.map fun f => (f.sid, f.stream, f.idx)).eraseDups.length

/-- The status word of Table 5.8 for the failures reported. -/
def fenceWord (l : List FailedW) : DWord :=
  match l with
  | [] => 0#64
  | f :: _ => d64 (f.stream.num * 2 ^ 12 + f.reason * 2 ^ 8 + min (storeCount l) 255)

/-- The failures that an operation covers are reported, once: the status word, FENCE_OBJ and FENCE_OFF (R106). The other
writes of a store that is reported leave nothing to report. -/
def reportFailures (st : Strand) (e : Engine) (p : Option DWord → Bool) : DWord × Strand :=
  let cov := fun (f : FailedW) => decide (f.idx ≤ ((streamOf st e).know.of f.stream)) && (f.bound :: f.more).any p
  let l := st.failed.filter cov
  let told := fun (e : Engine) (n : Nat) => l.any fun f => f.stream == e && f.idx == n
  let st1 := { st with
    failed := st.failed.filter fun f => !told f.stream f.idx
    stores := st.stores.map fun w => { w with told := w.told || told w.stream w.idx } }
  match l with
  | [] => (0#64, st1)
  | f :: _ =>
    if st.sys.fenceObj.getLsbD 63 then (fenceWord l, st1)
    else
      let sys := { st.sys with
        fenceObj := d64 (2 ^ 63 + f.ogen % 65536 * 2 ^ 24 + f.obj % 2 ^ 24)
        fenceOff := d64 (f.off % 2 ^ 40) }
      (fenceWord l, { st1 with sys := sys })

/-- A release or fence of the scalar stream: waits for what it covers, reports it and writes the status to xd; `st1` gives
the strand as the operation leaves its later reads ordered. -/
def releaseTo (s : State) (core : Nat) (st : Strand) (xd : XReg) (scope : BitVec 3) (p : Option DWord → Bool)
    (st1 : Strand → Strand) : Eff :=
  if coveredPending st .S scope.toNat p then .wait s
  else
    let r := reportFailures st .S p
    .fin (setStrand s core (writeX (st1 r.2) .S xd r.1))

/-! ## The sem group (R101) -/

/-- R101: the release, then the add; xd := the new value. -/
def execSemsig (tk : Tk) (xd xa xb : XReg) (s : State) : Out :=
  issue .S tk (fun s core st =>
    orTrap s (readX2 st .S xa xb) fun (a, b) =>
    let sem := fieldOf a 0 12
    if coveredPending st .S 3 (boundIs (d64 sem)) then .wait s
    else
      let die := crewDie st.crew
      let s1 := semAdd s die sem b
      .fin (modStrand s1 core fun st => writeX st .S xd (semOf s1 die sem))) s

/-- A semaphore wait on a condition (R101). The stream tests the semaphore at its own turns (DESIGN CHOICE, log entry 73): a
value that another party replaces before the next of them is not seen. -/
def semwait (c : BitVec 2) (tk : Tk) (xd xa xb : XReg) (s : State) : Out :=
  issue .S tk (fun s core st =>
    orTrap s (readX2 st .S xa xb) fun (a, b) =>
    let sem := fieldOf a 0 12
    let v := semOf s (crewDie st.crew) sem
    if semCond c v b then finX s core .S (follow s st 3 (some (d64 sem))) xd v else .wait s) s

/-- R101. -/
def execSemwaitGe (tk : Tk) (xd xa xb : XReg) (s : State) : Out := semwait 0#2 tk xd xa xb s
/-- R101. -/
def execSemwaitEq (tk : Tk) (xd xa xb : XReg) (s : State) : Out := semwait 1#2 tk xd xa xb s
/-- R101. -/
def execSemwaitNe (tk : Tk) (xd xa xb : XReg) (s : State) : Out := semwait 2#2 tk xd xa xb s

/-- R101: a read that synchronises nothing. -/
def execSemrd (tk : Tk) (xd xa : XReg) (s : State) : Out :=
  issue .S tk (fun s core st =>
    orTrap s (readX st .S xa) fun a => finX s core .S st xd (semOf s (crewDie st.crew) (fieldOf a 0 12))) s

/-! ## Bindings (R102) -/

/-- The region of rbind and runbind: R is checked, or W where the capability has W but not R. -/
def bindRegion (st : Strand) (cn : CReg) (a b : DWord) : Chk (CapBits × Nat) := do
  let c ← readC st cn
  let w ← capWindow c cn.toNat a.toInt b.toNat (if hasRight c .r ∨ !hasRight c .w then .r else .w)
  .ok (c, w)

/-- Whether a binding is of exactly a region. -/
def sameRegion (b : Binding) (obj base len : Nat) : Bool := b.obj == obj && b.base == base && b.len == len

/-- R102: 16 entries, the newest first; one bound already is bound anew. It takes a place in the scalar stream's order, which
tells the accesses that follow it. -/
def execRbind (tk : Tk) (cn : CReg) (xa xb xs : XReg) (s : State) : Out :=
  issue .S tk (fun s core st =>
    orTrap s (do
      let (a, b) ← readX2 st .S xa xb
      let n ← readX st .S xs
      let (c, w) ← bindRegion st cn a b
      .ok (c, w, b.toNat, n)) fun (c, w, len, n) =>
    let rest := st.binds.filter fun x => !sameRegion x (capObj c) w len
    let b := beginStore st .S
    let bind : Binding := { idx := b.1, obj := capObj c, base := w, len := len, name := objName n }
    .fin (setStrand s core { b.2 with binds := (bind :: rest).take 16 })) s

/-- R102: removes the entry of exactly the region named. -/
def execRunbind (tk : Tk) (cn : CReg) (xa xb xs : XReg) (s : State) : Out :=
  issue .S tk (fun s core st =>
    orTrap s (do
      let (a, b) ← readX2 st .S xa xb
      let _ ← readX st .S xs
      let (c, w) ← bindRegion st cn a b
      .ok (c, w, b.toNat)) fun (c, w, len) =>
    .fin (setStrand s core { st with binds := st.binds.filter fun x => !sameRegion x (capObj c) w len })) s

/-! ## acq, rel and fence (R103, R104, R106) -/

/-- R104: an acquire waits for nothing; every later access bound to the object follows the read it follows (R276). -/
def execAcq (tk : Tk) (xa : XReg) (scope : BitVec 3) (s : State) : Out :=
  issue .S tk (fun s core st =>
    orTrap s (readX st .S xa) fun o => .fin (setStrand s core (follow s st scope.toNat (some (objName o))))) s

/-- R104, R106: covered accesses bound to the object. -/
def execRel (tk : Tk) (xd xa : XReg) (scope : BitVec 3) (s : State) : Out :=
  issue .S tk (fun s core st =>
    orTrap s (readX st .S xa) fun o => releaseTo s core st xd scope (boundIs (objName o)) id) s

/-- R104, R106: every covered access; every later access of the strand follows them (R276). -/
def execFence (tk : Tk) (xd : XReg) (scope : BitVec 3) (s : State) : Out :=
  issue .S tk (fun s core st =>
    releaseTo s core st xd scope (fun _ => true) fun st => follow s st scope.toNat none) s

/-! ## Barriers (R107, R318) -/

/-- GROUP is undefined or does not list the strand: RESERVED_FIELD at decode (R107). -/
def groupPre (g : BitVec 8) (s : State) (_core : Nat) (st : Strand) : Option Trapped :=
  match crewLaunch s st with
  | some (c, l) =>
    if groupHas (mapGet 0#128 l.groups g.toNat) c.coord st.rank then none else some { cause := .reservedField }
  | none => some { cause := .reservedField }

/-- Whether the phase of the strand's last arrival in a group is still incomplete. -/
def arrivalOpen (s : State) (st : Strand) (g : Nat) : Bool :=
  match crewLaunch s st, mapFind st.groups g with
  | some (c, l), some p => (mapGet (0, []) l.phases (phaseKey c.copy g)).1 == p
  | _, _ => false

/-- An arrival in the current phase of a group. -/
def arrive (s : State) (core : Nat) (st : Strand) (g : Nat) : State :=
  match crewAt s st.crew with
  | none => s
  | some c =>
    let ph := match mapFind s.launches c.launch with
      | some l => (mapGet (0, []) l.phases (phaseKey c.copy g)).1
      | none => 0
    let s1 := modLaunch s c.launch fun l =>
      let p := mapGet (0, []) l.phases (phaseKey c.copy g)
      { l with phases := mapSet (0, []) l.phases (phaseKey c.copy g) (p.1, p.2 ++ [memberId l.args c.coord st.rank]) }
    settlePhase (setStrand s1 core { st with groups := mapPut st.groups g ph }) c.launch c.copy g

/-- R107: waits for an earlier arrival's phase, releases, arrives. -/
def execBarrive (tk : Tk) (group : BitVec 8) (s : State) : Out :=
  issuePre .S tk (groupPre group) (fun s core st =>
    if arrivalOpen s st group.toNat || coveredPending st .S (groupScope s st group.toNat) (fun _ => true) then .wait s
    else .fin (arrive s core st group.toNat)) s

/-- R107: waits for the phase of the strand's last arrival, then acquires at the group scope; a strand that has arrived in none
completes at once. -/
def execBwait (tk : Tk) (group : BitVec 8) (s : State) : Out :=
  issuePre .S tk (groupPre group) (fun s core st =>
    if arrivalOpen s st group.toNat then .wait s
    else if (mapFind st.groups group.toNat).isNone then .fin s
    else .fin (setStrand s core (follow s st (groupScope s st group.toNat) none))) s

/-- R107, R108: the crew barrier; XSYNC is set when it completes. A crew of one strand waits for nothing. While an earlier
arrival of the strand is open, it waits for that phase before it arrives. -/
def execCbar (tk : Tk) (s : State) : Out :=
  issue .S tk (fun s core st =>
    let fin := fun (s : State) => Eff.fin (modStrand s core fun st => { follow s st 1 none with xsync := true })
    match crewAt s st.crew with
    | none => fin s
    | some c =>
      if c.size = 0 then fin s
      else if (streamOf st .S).arrived then if c.barArr.contains st.rank then .wait s else fin s
      else if c.barArr.contains st.rank || coveredPending st .S 1 (fun _ => true) then .wait s
      else
        let s1 := modStream (modCrew s st.crew fun c => { c with barArr := c.barArr ++ [st.rank] }) core .S
          fun x => { x with arrived := true }
        let s2 := settleCrewBarrier s1 st.crew
        match crewAt s2 st.crew with
        | some c2 => if c2.barArr.contains st.rank then .wait s2 else fin s2
        | none => fin s2) s

/-! ## Pages (R109, R231 to R234) -/

/-- What a page instruction finds: the object entry and, of a paged or sparse object, the page entry, its index. -/
structure PageInfo where
  e : BitVec 256
  pe : BitVec 64
  idx : Nat
deriving DecidableEq, Repr

/-- The translation of a page instruction (R109, R227, R233): CAP_STALE, or POISON where the port refuses; never
PAGE_UNCOMMITTED. The state word is read at its home. -/
def pageLookup (s : State) (core : Nat) (st : Strand) (obj ogen off : Nat) : Except Trapped PageInfo × State :=
  let sp := spaceOf s st
  let no := fun (c : Cause) (s1 : State) => (Except.error (portTrap s1 (dieOf core) sp obj ogen off c), s1)
  match lookup s (dieOf core) sp obj off with
  | (none, s1) => no .poison (refuseLog s1 obj off)
  | (some (e, _), s1) =>
    if !oeV e || oeGen e != ogen || ogen == 0 then no .capStale s1
    else if oeBad s1 e || decide (oeLen e < off + 8192) then no .poison (refuseLog s1 obj off)
    else if oeTier e == 2 && portOut s1 (oeLoc e) then no .poison s1
    else if boundaryCut s1 (dieOf core) (oeTier e) (oeLoc e) then no .poison (refuseLog s1 obj off)
    else if oeKind e = 0 then (.ok { e := e, pe := 0#64, idx := 0 }, s1)
    else
      match physRead s1 (dieOf core) (oeBase e + 8 * pageIdx e off) 8 with
      | (none, s2) => no .poison (refuseLog s2 obj off)
      | (some l, s2) =>
        let pe : BitVec 64 := bytesToBits 64 l
        if peBad e pe then no .poison (refuseLog s2 obj off) else (.ok { e := e, pe := pe, idx := pageIdx e off }, s2)

/-- The frame of the three page instructions: sources, checks, translation, then the operation. -/
def pageOp (tk : Tk) (cn : CReg) (xo : XReg) (rt : Right) (s : State)
    (k : State → Nat → Strand → CapBits → Nat → PageInfo → Eff) : Out :=
  issue .S tk (fun s core st =>
    orTrap s (do
      let o ← readX st .S xo
      let p ← capCheck st cn o 8192 rt
      checkAligned p.2 8192
      .ok p) fun (c, a) =>
    match pageLookup s core st (capObj c) (capOgen c) a with
    | (.error t, s1) => .trap s1 t
    | (.ok i, s1) => k s1 core st c a i) s

/-- The result of a page instruction into xd. -/
def pageRes (s : State) (core : Nat) (xd : XReg) (v : Nat) : Eff :=
  .fin (modStrand s core fun st => writeX st .S xd (d64 v))

/-- A page instruction refused at the state word or the written-map: POISON, logged; it has written nothing (R227, R231). -/
def pageRefused (s : State) (core : Nat) (st : Strand) (c : CapBits) (a : Nat) : Eff :=
  .trap (refuseLog s (capObj c) a) (portTrap s (dieOf core) (spaceOf s st) (capObj c) (capOgen c) a .poison)

/-- R231: takes a frame of the pool of the stack's die, clears the written-map, commits the page. -/
def execPgcommit (tk : Tk) (xd : XReg) (cn : CReg) (xo : XReg) (s : State) : Out :=
  pageOp tk cn xo .w s fun s core st c a i =>
    if oeKind i.e ≠ 2 then pageRes s core xd 2
    else if peC i.pe then pageRes s core xd 1
    else
      match (dieAt s (oeLoc i.e)).pool with
      | [] => pageRes s core xd 3
      | f :: r =>
        let w1 := physWrite s (dieOf core) (oeSide i.e + 64 * i.idx) (List.replicate 64 0#8)
        let w2 := physWrite w1.2 (dieOf core) (oeBase i.e + 8 * i.idx) (toBytes 8 (d64 (f * 8192 + 1)))
        if !w1.1 then pageRefused w1.2 core st c a
        else if w2.1 then pageRes (modDie w2.2 (oeLoc i.e) fun d => { d with pool := r }) core xd 0
        else pageRefused w2.2 core st c a

/-- A page leaves every translation cache and access queue of the package. -/
def dropPage (s : State) (space obj page : Nat) : State :=
  dropTrans s fun t => t.space == space && t.obj == obj && t.page == page

/-- R234: the release, C := 0, the drop of translations; the frame returns once its accesses are performed. -/
def execPgfree (tk : Tk) (xd : XReg) (cn : CReg) (xo : XReg) (s : State) : Out :=
  pageOp tk cn xo .w s fun s core st c a i =>
    if oeKind i.e ≠ 2 then pageRes s core xd 2
    else if !peC i.pe then pageRes s core xd 1
    else if st.stores.any (fun w => w.obj == capObj c && decide (a ≤ w.off ∧ w.off < a + 8192) &&
        decide (w.idx ≤ (streamOf st .S).know.of w.stream)) then .wait s
    else
      let w := physWrite s (dieOf core) (oeBase i.e + 8 * i.idx) (toBytes 8 (i.pe &&& ~~~1#64))
      if w.1 then
        let s1 := dropPage w.2 (spaceOf s st) (capObj c) i.idx
        pageRes (modDie s1 (oeLoc i.e) fun d => { d with freeing := d.freeing ++ [peFrame i.pe] }) core xd 0
      else pageRefused w.2 core st c a

/-- R109: C, SPARSE and the number of granules written. -/
def execPgquery (tk : Tk) (xd : XReg) (cn : CReg) (xo : XReg) (s : State) : Out :=
  pageOp tk cn xo .r s fun s core st c a i =>
    let cm := if peC i.pe then 1 else 0
    match oeKind i.e with
    | 0 => pageRes s core xd 1
    | 1 => pageRes s core xd cm
    | _ =>
      match physRead s (dieOf core) (oeSide i.e + 64 * i.idx) 16 with
      | (some l, s1) => pageRes s1 core xd (cm + 2 + 4 * (bitList 128 (ofBytes 128 l)).length)
      | (none, s1) => pageRefused s1 core st c a

end Sys2Proof.Machine
end

