-- ==== Sys2Proof/Machine/Queue.lean ====
section
/-! DEFINITION. The queues of a command processor: rings and buffers, starts, stops and completion of packets (R209, R210,
R288, R289, R297), and the packets that touch no launch: NOP, COPY, semaphores, QFENCE, JUMP, CALL, RETURN, IRQ, frames,
RELEASE_AT, PREEMPT, SETPRI and OTINV (R212 to R215, R292, R297 to R304). -/
namespace Sys2Proof.Machine
open Sys2Proof

/-! ## Queues -/

/-- A queue of a die. -/
def queueAt (s : State) (die q : Nat) : Queue := mapGet {} (dieAt s die).queues q

/-- A queue changed by `f`. -/
def modQueue (s : State) (die q : Nat) (f : Queue → Queue) : State :=
  modDie s die fun d => { d with queues := mapMod {} d.queues q f }

/-- The bytes of a launch's packet. -/
def launchBytes (s : State) (n : Nat) : Nat :=
  match mapFind s.launches n with
  | some l => if l.mask.isSome then 80 else 64
  | none => 0

/-- The place of the packet at the head: a ring count at depth 0, else an offset in the buffer (R297). -/
def queueHead (x : Queue) : Nat :=
  match x.stack with
  | [] => x.head.toNat
  | t :: _ => t.2.2

/-- The launches of a queue that have started and whose packets its head has not passed. -/
def Queue.launches (x : Queue) : List Nat :=
  x.ahead.filterMap fun a => match a with
    | .launch n => some n
    | .words _ => none

/-- The bytes that an entry ahead of the head takes in the program. -/
def aheadBytes (s : State) : Ahead → Nat
  | .launch n => launchBytes s n
  | .words k => 4 * k

/-- The place of the next packet to start: past what has started and the head has not passed (R209, R314). -/
def queuePos (s : State) (x : Queue) : Nat := queueHead x + (x.ahead.map (aheadBytes s)).sum

/-- The bytes of the ring below the tail that lie past what has started (R209). -/
def roomOf (s : State) (x : Queue) : Nat := (x.tail - x.head).toNat - (x.ahead.map (aheadBytes s)).sum

/-- Whether the tail covers `n` words from the next packet on (R209); a buffer's words are all there. -/
def covers (s : State) (x : Queue) (n : Nat) : Bool := !x.stack.isEmpty || decide (4 * n ≤ roomOf s x)

/-- The head moves past `n` words (R209). -/
def passWords (x : Queue) (n : Nat) : Queue :=
  match x.stack with
  | [] => { x with head := x.head + BitVec.ofNat 32 (4 * n) }
  | t :: r => { x with stack := (t.1, t.2.1, t.2.2 + 4 * n) :: r }

/-- `n` words have completed: the head passes them, in order, behind any launch that has not (R209, R314). -/
def passBehind (x : Queue) (n : Nat) : Queue :=
  if x.ahead.isEmpty then passWords x n else { x with ahead := x.ahead ++ [.words n] }

/-- What a packet holds while it waits is forgotten. -/
def clearPacket (x : Queue) : Queue :=
  { x with
    started := false
    startTick := 0
    wait := none
    semSat := false
    targets := []
    joinId := none
    waitRep := false
    ans := none
    asked := false
    done := 0
    data := none }

/-- A queue whose QFENCE does not go on leaves its join (R214): it arrives anew where the packet starts again. -/
def leaveJoin (s : State) (die q : Nat) : State :=
  match (queueAt s die q).joinId with
  | none => s
  | some id =>
    modDie s die fun d => { d with
      joins := (d.joins.map fun j => if j.id = id then { j with arrived := j.arrived.filter (· != q) } else j).filter
        fun j => !j.arrived.isEmpty }

/-- R289: a queue stops, with its report. -/
def stopQueue (s : State) (die q : Nat) (c : QCause) (noPacket : Bool) : State :=
  let s1 := modQueue (leaveJoin s die q) die q fun x =>
    { clearPacket x with
      stop := some c
      noPacket := noPacket }
  report s1 die 1 0 q c.code 0 0

/-- R288: the tail of a queue is checked; a bad one stops it. -/
def checkTail (s : State) (die q : Nat) : State :=
  let x := queueAt s die q
  if !zeroBits x.tail 0 2 || decide (2 ^ x.size < (x.tail - x.head).toNat) then stopQueue s die q .format true else s

/-! ## Reading by a command processor -/

/-- What a read of a command processor answers. -/
inductive CpAcc where
  | ok (l : List Byte) (s : State)
  | fail (s : State)
  | ask (port : Nat) (s : State)

/-- A read within one granule through a space's object table, with the answer of a CXL request (R227, R360). -/
def cpRead (s : State) (die : Nat) (ans : Option CxlResult) (space obj gen off n : Nat) : CpAcc :=
  let tr := translateIn s (ans == some .ok) die space obj gen off n
  match tr.1 with
  | .ok p =>
    if p.tier = 2 ∧ ans = none then .ask p.loc tr.2
    else if p.tier = 2 ∧ ans ≠ some .ok then .fail tr.2
    else
      match placeRead tr.2 p with
      | (.ok g, s1) => .ok (granBytes g (p.pa % 64) n) s1
      | (.refused, s1) => .fail (refuseLog s1 obj off)
      | (_, s1) => .fail s1
  | .refused => .fail (refuseLog tr.2 obj off)
  | .cut => .fail (refuseLog tr.2 obj off)
  | _ => .fail tr.2

/-- Bytes read piece by piece, with fuel. -/
def cpReadN (fuel : Nat) (s : State) (die : Nat) (ans : Option CxlResult) (space obj gen off n : Nat) : CpAcc :=
  match fuel with
  | 0 => .ok [] s
  | f + 1 =>
    if n = 0 then .ok [] s
    else
      let k := min n (64 - off % 64)
      match cpRead s die ans space obj gen off k with
      | .ok a s1 =>
        match cpReadN f s1 die ans space obj gen (off + k) (n - k) with
        | .ok b s2 => .ok (a ++ b) s2
        | r => r
      | r => r

/-- A write within one granule through a space's object table, with the answer of a CXL request where it goes to POOL: it
is performed, or fails where the port refuses it or the write fails. -/
def cpWrite (s : State) (die : Nat) (ans : Option CxlResult) (space obj gen off : Nat) (l : List Byte) : CpAcc :=
  let tr := translateIn s (ans == some .ok) die space obj gen off l.length
  match tr.1 with
  | .ok p =>
    if p.tier = 2 ∧ ans = none then .ask p.loc tr.2
    else if p.tier = 2 ∧ ans ≠ some .ok then .fail tr.2
    else
      match placeWrite tr.2 p (maskOf (p.pa % 64) l.length) (granPut 0#512 (p.pa % 64) l) false with
      | (none, s1) => .ok [] s1
      | (some 2, s1) => .fail (refuseLog s1 obj off)
      | (some _, s1) => .fail s1
  | .refused => .fail (refuseLog tr.2 obj off)
  | .cut => .fail (refuseLog tr.2 obj off)
  | _ => .fail tr.2

/-- Words of a queue's program from a place on: from its ring, or from its buffer object (R288, R297). -/
def queueWords (s : State) (die : Nat) (x : Queue) (pos n : Nat) : CpAcc :=
  match n with
  | 0 => .ok [] s
  | k + 1 =>
    let w : CpAcc :=
      match x.stack with
      | [] =>
        match physRead s die (x.base + pos % 2 ^ x.size) 4 with
        | (some l, s1) => .ok l s1
        | (none, s1) => .fail s1
      | t :: _ => cpRead s die x.ans x.space t.1 t.2.1 pos 4
    match w with
    | .ok a s1 =>
      match queueWords s1 die x (pos + 4) k with
      | .ok b s2 => .ok (a ++ b) s2
      | r => r
    | r => r

/-- Words from their bytes. -/
def wordsOf (n : Nat) (l : List Byte) : List Word := (List.range n).map fun i => ofBytes 32 ((l.drop (4 * i)).take 4)

/-- A queue asks a CXL port, once for its packet. -/
def askQueue (s : State) (die q port : Nat) : State :=
  if (queueAt s die q).asked then s
  else sendCxl (modQueue s die q fun x => { x with asked := true }) port (.queue die q)

/-! ## The frame of a packet -/

/-- What a packet's meaning answers: it completes; it has started and waits; it stops its queue; it has moved the queue
to another place; it has started the launch of a number. -/
inductive PEff where
  | done (s : State)
  | wait (s : State)
  | stop (s : State) (c : QCause)
  | moved (s : State)
  | launched (s : State) (n : Nat)

/-- A packet of `words` words completes: the head passes it. -/
def completePacket (s : State) (die q words : Nat) : State :=
  modQueue s die q fun x => { passBehind (clearPacket x) words with
    prevLaunch := some false
    hdr := none }

/-- The end of a packet's turn. -/
def closePacket (die q words : Nat) (r : PEff) : State :=
  match r with
  | .done s => completePacket s die q words
  | .wait s => s
  | .stop s c => stopQueue s die q c false
  | .moved s => modQueue s die q fun x => { clearPacket x with
      prevLaunch := some false
      hdr := none }
  | .launched s n => modQueue s die q fun x => { clearPacket x with
      prevLaunch := some true
      hdr := none
      ahead := x.ahead ++ [.launch n] }

/-- The frame of every packet: it starts, once, and then acts until it completes (R209). `first` says that it starts. -/
def runPacket (words : Nat) (body : State → Nat → Nat → Queue → Bool → PEff) (s : State) : Out :=
  match s.cur with
  | .queue die q =>
    let x := queueAt s die q
    let x1 := if x.started then x else { x with
      started := true
      startTick := s.frame.toNat }
    let s1 := modQueue s die q fun _ => x1
    .next (closePacket die q words (body s1 die q x1 (!x.started)))
  | _ => .fault .noQueue

/-! ## NOP, COPY, semaphores -/

/-- R292. -/
def execNop (len : BitVec 8) (s : State) : Out := runPacket len.toNat (fun s _ _ _ _ => .done s) s

/-- The checks of COPY before anything is copied (R212). -/
def copyPre (s : State) (die : Nat) (x : Queue) (src dst : CapBits) (len : Nat) : Option QCause × State :=
  if len = 0 ∨ len % 64 ≠ 0 then (some .format, s)
  else if !hasRight src .r || !hasRight dst .w || decide (capLen src < len) || decide (capLen dst < len) ||
      capBase src % 64 != 0 || capBase dst % 64 != 0 then (some .access, s)
  else
    let a := translateAt s die x.space (capObj src) (capOgen src) (capBase src) 64
    let b := translateAt a.2 die x.space (capObj dst) (capOgen dst) (capBase dst) 64
    match a.1, b.1 with
    | .stale, _ => (some .access, a.2)
    | _, .stale => (some .access, b.2)
    | _, _ => (none, b.2)

/-- R212: COPY, a granule a turn, in ascending order; each is read before it is written, and a granule written to POOL waits
for its completion. -/
def execCopyP (src dst : CapBits) (len : BitVec 32) (s : State) : Out :=
  runPacket 10 (fun s die q x first =>
    match if first then copyPre s die x src dst len.toNat else (none, s) with
    | (some c, s1) => .stop s1 c
    | (none, s1) =>
      let rd := match x.data with
        | some l => CpAcc.ok l s1
        | none => cpRead s1 die x.ans x.space (capObj src) (capOgen src) (capBase src + 64 * x.done) 64
      match rd with
      | .ask p s2 => .wait (askQueue s2 die q p)
      | .fail s2 => .stop s2 .access
      | .ok l s2 =>
        let again := fun (d : Option (List Byte)) (n : Nat) (s : State) => modQueue s die q fun x => { x with
          data := d
          done := n
          ans := none
          asked := false }
        match cpWrite s2 die (if x.data.isSome then x.ans else none) x.space (capObj dst) (capOgen dst)
            (capBase dst + 64 * x.done) l with
        | .fail s3 => .stop s3 .access
        | .ask p s3 => .wait (askQueue (if x.data.isSome then s3 else again (some l) x.done s3) die q p)
        | .ok _ s3 => if 64 * (x.done + 1) < len.toNat then .wait (again none (x.done + 1) s3) else .done s3) s

/-- R213, R217: every packet before it has completed, so the release has nothing to wait for. -/
def execSemsigP (sem : BitVec 12) (add : BitVec 64) (s : State) : Out :=
  runPacket 4 (fun s die _ _ _ => .done (semAdd s die sem.toNat add)) s

/-- R213: satisfied by any value the semaphore takes from its start on. -/
def execSemwaitP (cond : BitVec 2) (sem : BitVec 12) (value : BitVec 64) (s : State) : Out :=
  runPacket 4 (fun s die q x _ =>
    if cond = 3#2 then .stop s .format
    else if x.semSat || semCond cond (semOf s die sem.toNat) value then .done s
    else .wait (modQueue s die q fun x => { x with wait := some (cond, sem.toNat, value) })) s

/-! ## QFENCE (R214) -/

/-- A join of a die changed, or removed where it completes. -/
def putJoin (s : State) (die : Nat) (id : BitVec 8) (j : Option Join) : State :=
  modDie s die fun d => { d with joins := d.joins.filter (fun x => x.id != id) ++ j.toList }

/-- A queue arrives at a join; where every queue of its mask has, all their packets complete together. -/
def arriveJoin (s : State) (die q : Nat) (mask : BitVec 16) (id : BitVec 8) (arrived : List Nat) : PEff :=
  let arr := arrived ++ [q]
  if (bitList 16 mask).all arr.contains then
    .done ((arr.filter (· != q)).foldl (fun s p => completePacket s die p 2) (putJoin s die id none))
  else
    .wait (modQueue (putJoin s die id (some { id := id, mask := mask, arrived := arr })) die q fun x =>
      { x with joinId := some id })

/-- R214. -/
def execQfence (qmask : BitVec 16) (id : BitVec 8) (s : State) : Out :=
  runPacket 2 (fun s die q x _ =>
    if !qmask.getLsbD q then .stop s .format
    else if x.joinId.isSome then .wait s
    else
      match (dieAt s die).joins.find? fun j => j.id == id with
      | some j => if j.mask = qmask then arriveJoin s die q qmask id j.arrived else .stop s .format
      | none => arriveJoin s die q qmask id []) s

/-! ## Buffers and interrupts -/

/-- R297. -/
def execJumpP (obj : BitVec 24) (gen start : BitVec 16) (s : State) : Out :=
  runPacket 3 (fun s die q x _ =>
    match x.stack with
    | [] => .stop s .format
    | _ :: r => .moved (modQueue s die q fun x =>
        { x with stack := (obj.toNat, gen.toNat, 64 * start.toNat) :: r })) s

/-- R297. -/
def execCallP (obj : BitVec 24) (gen start : BitVec 16) (s : State) : Out :=
  runPacket 3 (fun s die q x _ =>
    if 4 ≤ x.stack.length then .stop s .format
    else .moved (modQueue s die q fun x =>
      { x with stack := (obj.toNat, gen.toNat, 64 * start.toNat) :: x.stack })) s

/-- R297: the CALL whose program it ends completes. -/
def execReturnP (s : State) : Out :=
  runPacket 1 (fun s die q x _ =>
    match x.stack with
    | [] => .stop s .format
    | _ :: r => .moved (modQueue s die q fun x => passWords { x with stack := r } 3)) s

/-- R215: the cookie, then the message. -/
def execIrq (vec : BitVec 11) (cookie : BitVec 32) (s : State) : Out :=
  runPacket 2 (fun s die q _ _ =>
    if s.msixSize ≤ vec.toNat then .stop s .format
    else .done (sendMsi (modQueue s die q fun x => { x with cookie := cookie }) vec.toNat)) s

/-! ## Frames (R298, R299) -/

/-- The frame clock FC. -/
def frameClock (s : State) (f : FrameSt) : Int := (s.frame.toNat : Int) - f.t0 - f.slip

/-- R299. -/
def execFrameBegin (t0 : BitVec 64) (sse : Bool) (ssem : BitVec 12) (s : State) : Out :=
  runPacket 4 (fun s die q x _ =>
    if x.frame.isSome then .stop s .format
    else
      let t := if t0 = 0#64 then s.frame.toNat else t0.toNat
      .done (modQueue s die q fun x => { x with frame := some { t0 := t, sse := sse, ssem := ssem.toNat } })) s

/-- R299: every launch of the frame stands earlier in the queue and has completed. -/
def execFrameEnd (s : State) : Out :=
  runPacket 1 (fun s die q x _ =>
    if x.frame.isNone then .stop s .format else .done (modQueue s die q fun x => { x with frame := none })) s

/-- The clock of a queue (R298): FC inside a frame, else FRAME. -/
def queueClock (s : State) (x : Queue) : Int :=
  match x.frame with
  | some f => frameClock s f
  | none => s.frame.toNat

/-- R298. -/
def execReleaseAt (t : BitVec 64) (s : State) : Out :=
  runPacket 3 (fun s _ _ x _ => if (t.toNat : Int) ≤ queueClock s x then .done s else .wait s) s

/-! ## PREEMPT and SETPRI (R302, R303) -/

/-- A pre-emption request reaches a crew (R310): Running becomes Stopping; at a Frozen crew it stays pending. -/
def requestStop (s : State) (k plim : Nat) : State :=
  modCrew s k fun c =>
    if c.preq.isSome then c
    else { c with
      preq := some s.frame.toNat
      plim := plim
      st := if c.st = .running then .stopping else c.st }

/-- The crews that a PREEMPT of some queues targets: those running, stopping or frozen. -/
def preemptTargets (s : State) (die : Nat) (qs : List Nat) : List (Nat × Nat) :=
  s.crews.filterMap fun p =>
    match mapFind s.launches p.2.launch with
    | some l =>
      if l.die = die ∧ qs.contains l.q = true ∧ (p.2.st = .running ∨ p.2.st = .stopping ∨ p.2.st = .frozen)
      then some (p.1, p.2.run) else none
    | none => none

/-- Whether a targeted crew has been saved, evicted or has ended: it left the cores it stood on. -/
def targetDone (s : State) (t : Nat × Nat) : Bool :=
  match crewAt s t.1 with
  | none => true
  | some c => c.run != t.2 || c.st == .suspended || c.st == .waiting || c.st == .restoring

/-- R302. -/
def execPreempt (q : BitVec 4) (all hold : Bool) (plim : BitVec 32) (s : State) : Out :=
  runPacket 2 (fun s die n x first =>
    let qs := if all then List.range 16 else [q.toNat]
    let lim := if plim = 0#32 then (dieAt s die).plim.toNat else plim.toNat
    let ts := if first then preemptTargets s die qs else x.targets
    let s1 := if first then
        let s0 := ts.foldl (fun s t => requestStop s t.1 lim) s
        if hold then qs.foldl (fun s k => modQueue s die k fun x => { x with hold := true }) s0 else s0
      else s
    if ts.all (targetDone s1) then .done s1
    else .wait (modQueue s1 die n fun x => { x with targets := ts })) s

/-- R303. -/
def execSetpri (q : BitVec 4) (ceil : BitVec 3) (s : State) : Out :=
  runPacket 2 (fun s die _ _ _ => .done (modQueue s die q.toNat fun x => { x with ceil := ceil.toNat })) s

/-! ## OTINV (R229, R304) -/

/-- The translations of an object, or of a whole space, are dropped. -/
def dropObj (s : State) (space obj : Nat) (all : Bool) : State := dropTrans s fun t => t.space == space && (all || t.obj == obj)

/-- OTINV begins: the translations it names are dropped; with the whole space, the space's entry comes into force (R389). -/
def invalidate (s : State) (space obj : Nat) (all : Bool) : State :=
  let s1 := dropObj s space obj all
  if all then { s1 with inForce := mapSet {} s1.inForce space (spaceReg s1 space) } else s1

/-- Whether a started MOVE uses an object of a space (R353). -/
def moveBusy (s : State) (space obj : Nat) (all : Bool) : Bool :=
  s.te.any fun c => c.2.space == space && c.2.moves.any fun m =>
    m.status.isNone && (all || m.a.sobj.toNat == obj || (m.a.dtier != 3#2 && m.a.dobj.toNat == obj))

/-- Whether a store or a move translated through a dropped translation is still under way. -/
def transBusy (s : State) (space obj : Nat) (all : Bool) : Bool :=
  let hit := fun (w : StoreW) => all || w.obj == obj
  s.strands.any (fun p => spaceOf s p.2 == space && p.2.stores.any hit) ||
  s.launches.any (fun l => l.2.space == space && l.2.stores.any hit) || moveBusy s space obj all

/-- R229, R304, R389. -/
def execOtinv (space : BitVec 9) (all : Bool) (obj : BitVec 24) (s : State) : Out :=
  runPacket 4 (fun s _ _ _ first =>
    let s1 := if first then invalidate s space.toNat obj.toNat all else s
    if transBusy s1 space.toNat obj.toNat all then .wait s1 else .done s1) s

end Sys2Proof.Machine
end

