-- ==== Sys2Proof/Machine/Launch.lean ====
section
/-! DEFINITION. Launches: the checks of R306 on kernel image (R47 to R49, R223), extension object (R293), argument rights
(R211, R222), group table (R294) and clusters (R296); the traversal order (R295); release, overrun and slip (R299); and
completion (R210, R309, R328). -/
namespace Sys2Proof.Machine
open Sys2Proof

/-! ## The kernel image -/

/-- The little-endian number of `n` bytes at an offset of a list. -/
def numAt (l : List Byte) (off n : Nat) : Nat := (ofBytes (8 * n) ((l.drop off).take n)).toNat

/-- Whether `n` bytes at an offset are zero. -/
def zeroAt (l : List Byte) (off n : Nat) : Bool := ((l.drop off).take n).all (· == 0#8)

/-- R49 on one stream: offset, length and entry; `len` is the image's length. -/
def streamOk (l : List Byte) (len e : Nat) : Bool :=
  let o := numAt l (8 + 12 * e) 4
  let n := numAt l (12 + 12 * e) 4
  let x := numAt l (16 + 12 * e) 4
  o % 64 == 0 && n % 4 == 0 && x % 4 == 0 && (if n = 0 then o == 0 && x == 0 else decide (x < n)) &&
  decide (o + n ≤ len)

/-- R49 on the 192 bytes of a header. -/
def headerOk (l : List Byte) (len : Nat) : Bool :=
  numAt l 0 4 == 0x4C534B48 && numAt l 4 2 == 1 && zeroAt l 6 2 && zeroAt l 0x90 48 && decide (numAt l 0x74 4 < 4) &&
  (List.range 4).all (streamOk l len) && decide (numAt l 0x78 4 + numAt l 0x7C 4 ≤ len) &&
  decide (numAt l 0x80 4 + 32 * numAt l 0x84 4 ≤ len) && decide (numAt l 0x88 4 + 8 * numAt l 0x8C 4 ≤ len)

/-- A table of the four streams' header fields at an offset within each stream's twelve bytes. -/
def streamField (l : List Byte) (k : Nat) : FMap Nat :=
  (List.range 4).foldl (fun m e => mapSet 0 m e (numAt l (8 + 12 * e + k) 4)) []

/-- The fields of a header (Table 2.16), with its live-mask records and the first words of its capability records. -/
def kernelOf (l : List Byte) (live : List (BitVec 256)) (caps : List (BitVec 32)) : Kernel :=
  { off := streamField l 0
    len := streamField l 4
    entry := streamField l 8
    tkp := (List.range 15).foldl (fun m i => mapSet 0#32 m (i + 1) (BitVec.ofNat 32 (numAt l (0x38 + 4 * i) 4))) []
    init := BitVec.ofNat 2 (numAt l 0x74 4)
    dataOff := numAt l 0x78 4
    dataLen := numAt l 0x7C 4
    live := live
    caps := caps }

/-- What a check of a launch answers: a value, a stop, or a wait for a CXL port. -/
inductive LRes (α : Type) where
  | ok (a : α) (s : State)
  | stop (c : QCause) (s : State)
  | ask (port : Nat) (s : State)

/-- A read whose failure stops the queue with a cause. -/
def readOr (c : QCause) (r : CpAcc) : LRes (List Byte) :=
  match r with
  | .ok l s => .ok l s
  | .fail s => .stop c s
  | .ask p s => .ask p s

/-- Sequencing of checks. -/
def LRes.bind {α β : Type} (r : LRes α) (f : α → State → LRes β) : LRes β :=
  match r with
  | .ok a s => f a s
  | .stop c s => .stop c s
  | .ask p s => .ask p s

/-- Step 1 of R306: the kernel capability of R223 and the header of R49. DESIGN CHOICE (log entry 87): the second word of a
capability record and the bytes of a live-mask record that are said to be zero are not looked at. -/
def readKernel (s : State) (die : Nat) (x : Queue) (a : LaunchArgs) : LRes Kernel :=
  let obj := a.kobj.toNat
  let gen := a.kgen.toNat
  match lookup s die x.space obj 0 with
  | (none, s1) => .stop .kernelFormat s1
  | (some (e, _), s1) =>
    if !oeV e || oeGen e != gen || gen == 0 || !oeExec e then .stop .kernelFormat s1
    else
      let rd := fun (s : State) (off n : Nat) =>
        readOr .kernelFormat (cpReadN (n / 64 + 2) s die x.ans x.space obj gen off n)
      (rd s1 0 192).bind fun h s2 =>
      if !headerOk h (oeLen e) then .stop .kernelFormat s2
      else
        (rd s2 (numAt h 0x80 4) (32 * numAt h 0x84 4)).bind fun lv s3 =>
        (rd s3 (numAt h 0x88 4) (8 * numAt h 0x8C 4)).bind fun cp s4 =>
        let live := (List.range (numAt h 0x84 4)).map fun i => (ofBytes 256 ((lv.drop (32 * i)).take 32))
        let caps := (List.range (numAt h 0x8C 4)).map fun i => BitVec.ofNat 32 (numAt cp (8 * i) 4)
        let k := kernelOf h live caps
        if k.dataLen ≠ 0 ∧ caps.any (fun c => fieldOf c 0 8 == 0) = true then .stop .kernelFormat s4 else .ok k s4

/-! ## The extension object and the arguments -/

/-- Step 2 of R306: slots 2 to 15 and the group table (R293). -/
def readExt (s : State) (die : Nat) (x : Queue) (a : LaunchArgs) : LRes (List Byte × List Byte) :=
  if a.lxobj = 0#24 then .ok ([], []) s
  else
    let rd := fun (s : State) (off n : Nat) =>
      readOr .access (cpReadN (n / 64 + 2) s die x.ans x.space a.lxobj.toNat a.lxgen.toNat off n)
    (rd s 0 0xE0).bind fun l s1 =>
    if a.gt then (rd s1 0x1000 0x1000).bind fun g s2 => .ok (l, g) s2 else .ok (l, []) s1

/-- The argument slots of a launch that are not the zero capability. -/
def slotsOf (a : LaunchArgs) (ext : List Byte) : FMap CapBits :=
  let m := mapSet 0#128 (mapSet 0#128 [] 0 a.arg0) 1 a.arg1
  (List.range 14).foldl (fun m i => mapSet 0#128 m (i + 2) (BitVec.ofNat 128 (numAt ext (16 * i) 16))) m

/-- R222: the form of a supplied argument. -/
def argOk (c : CapBits) : Bool :=
  decide (capBase c + capLen c ≤ 2 ^ 40) && !(capObj c == 0 && capRights c != 0#8) && !(capRights c).getLsbD 0

/-- Step 3 of R306: every record's rights and every supplied slot's form (R211, R222). -/
def argsOk (k : Kernel) (slots : FMap CapBits) : Bool :=
  slots.all (fun p => argOk p.2) &&
  k.caps.all fun r =>
    let need : BitVec 8 := bits r 8 8
    need &&& capRights (mapGet 0#128 slots (fieldOf r 16 16)) == need

/-! ## Groups and gangs (R294, R318) -/

/-- The valid entries of a group table, by number. -/
def groupsFrom (l : List Byte) : FMap (BitVec 128) :=
  (List.range (l.length / 16)).foldl (fun m i =>
    let g : BitVec 128 := BitVec.ofNat 128 (numAt l (16 * i) 16)
    if groupV g then mapPut m i g else m) []

/-- The extents of a grid, in crews. -/
def gridX (a : LaunchArgs) : Nat := a.gx.toNat + 1
/-- The Y extent. -/
def gridY (a : LaunchArgs) : Nat := a.gy.toNat + 1
/-- The Z extent. -/
def gridZ (a : LaunchArgs) : Nat := a.gz.toNat + 1

/-- The crews of a group within the grid: how many. -/
def groupCrews (a : LaunchArgs) (g : BitVec 128) : Nat :=
  groupSpan g 0 (gridX a) * groupSpan g 1 (gridY a) * groupSpan g 2 (gridZ a)

/-- The coordinates of a group's crews. -/
def groupCoords (a : LaunchArgs) (g : BitVec 128) : List (Nat × Nat × Nat) :=
  (List.range (groupSpan g 2 (gridZ a))).flatMap fun z =>
  (List.range (groupSpan g 1 (gridY a))).flatMap fun y =>
  (List.range (groupSpan g 0 (gridX a))).map fun x => (groupLo g 0 + x, groupLo g 1 + y, groupLo g 2 + z)

/-- Whether two groups share a crew of the grid. -/
def groupsMeet (a : LaunchArgs) (g h : BitVec 128) : Bool :=
  (List.range 3).all fun d =>
    let ext := if d = 0 then gridX a else if d = 1 then gridY a else gridZ a
    decide (max (groupLo g d) (groupLo h d) ≤ min (min (groupHi g d) (groupHi h d)) (ext - 1))

/-- The groups linked to a set through shared crews, with fuel. -/
def linkGroups (fuel : Nat) (a : LaunchArgs) (all sel : List (BitVec 128)) : List (BitVec 128) :=
  match fuel with
  | 0 => sel
  | f + 1 =>
    let more := all.filter fun g => !sel.contains g && sel.any (groupsMeet a g)
    if more.isEmpty then sel else linkGroups f a all (sel ++ more)

/-- The crews a set of groups holds, each once. -/
def unionCrews (a : LaunchArgs) (l : List (BitVec 128)) : List (Nat × Nat × Nat) :=
  (l.flatMap (groupCoords a)).eraseDups

/-- The crews that one die, or one cluster, can host at once. -/
def hostCrews (a : LaunchArgs) (oneCluster : Bool) : Nat :=
  let c := 16 / (a.size.toNat + 1)
  if oneCluster then c else 24 * c

/-- Whether the gang of a group fits (R294). -/
def gangFits (a : LaunchArgs) (oneCluster : Bool) (all : List (BitVec 128)) (g : BitVec 128) : Bool :=
  let l := linkGroups all.length a all [g]
  let m := hostCrews a oneCluster
  l.all (fun h => decide (groupCrews a h ≤ m)) && decide ((unionCrews a l).length ≤ m)

/-- Whether no strand is a member of more than four groups: the most groups meet at a lower corner of some of them. -/
def fewGroups (a : LaunchArgs) (all : List (BitVec 128)) : Bool :=
  all.all fun gx => all.all fun gy => all.all fun gz => (List.range 16).all fun r =>
    let c := (groupLo gx 0, groupLo gy 1, groupLo gz 2)
    decide (gridX a ≤ c.1 ∨ gridY a ≤ c.2.1 ∨ gridZ a ≤ c.2.2) ||
    decide ((all.filter fun g => groupHas g c r).length ≤ 4)

/-- R294 on one valid entry. -/
def groupOk (a : LaunchArgs) (g : BitVec 128) : Bool :=
  (List.range 3).all (fun d => decide (groupLo g d ≤ groupHi g d)) &&
  (bitList 16 (groupRanks g)).all (fun r => decide (r ≤ a.size.toNat)) && decide (groupSize a g ≠ 0)

/-- Step 4 of R306. -/
def groupsOk (a : LaunchArgs) (oneCluster : Bool) (m : FMap (BitVec 128)) : Bool :=
  let all := m.map Prod.snd
  all.all (groupOk a) && fewGroups a all && all.all (gangFits a oneCluster all)

/-! ## LAUNCH and LAUNCHM -/

/-- Step 5 of R306: a named cluster of an absent die (R296). -/
def maskAbsent (s : State) (m : BitVec 128) : Bool := (bitList 128 m).any fun c => decide (s.caps.dies.toNat ≤ c / 24)

/-- Whether a launch's release is due (R299). -/
def releaseDue (s : State) (l : Launch) : Bool :=
  if l.frame then
    match (queueAt s l.die l.q).frame with
    | some f => decide ((l.args.rel.toNat : Int) ≤ frameClock s f)
    | none => true
  else decide (l.start + l.args.rel.toNat ≤ s.frame.toNat)

/-- A queue as it stands once its head has come to the next packet to start. -/
def atNext (s : State) (x : Queue) : Queue :=
  passWords { clearPacket x with ahead := [] } ((x.ahead.map (aheadBytes s)).sum / 4)

/-- The place of a queue's head. -/
def placeOf (x : Queue) : QPlace := (x.stack, x.head.toNat)

/-- The ring count that a SLIP report of a launch at a place names. -/
def ringCount (x : Queue) : Nat := x.head.toNat

/-- A launch passes its checks and starts: Held until its release, then Dispatching (R309). An overrun that has begun before goes
on (R299). -/
def startLaunch (s : State) (die q : Nat) (x : Queue) (a : LaunchArgs) (mask : Option (BitVec 128)) (k : Kernel)
    (slots : FMap CapBits) (groups : FMap (BitVec 128)) : PEff :=
  let l : Launch :=
    { die := die, q := q, off := ringCount (atNext s x), chain := a.chain, args := a
      mask := mask, k := k, slots := slots, groups := groups, start := s.frame.toNat, lastPlace := s.frame.toNat
      frame := x.frame.isSome, super := x.priv, space := x.space
      episode := (x.late.find? fun p => p.1 = placeOf (atNext s x)).map Prod.snd }
  let n := s.nextLaunch
  let l1 := { l with st := if releaseDue s l then LaunchState.dispatching else .held }
  let s1 := modQueue s die q fun x => { x with late := x.late.filter fun p => p.1 ≠ placeOf (atNext s x) }
  .launched { s1 with
    nextLaunch := n + 1
    launches := mapPut s.launches n l1 } n

/-- The checks of R306 in order, after the packet's own fields. -/
def checkLaunch (a : LaunchArgs) (mask : Option (BitVec 128)) (s : State) (die q : Nat) (x : Queue) : PEff :=
  if (a.swz ≠ 0#4 ∧ 2 ≤ a.order.toNat) ∨ (a.gt = true ∧ a.lxobj = 0#24) ∨ mask = some 0#128 then .stop s .format
  else
    let r :=
      (readKernel s die x a).bind fun k s1 =>
      (readExt s1 die x a).bind fun e s2 =>
      let slots := slotsOf a e.1
      let groups := groupsFrom e.2
      if !argsOk k slots then .stop .launchRights s2
      else if !groupsOk a mask.isSome groups then .stop .launchGroups s2
      else if (mask.map (maskAbsent s)).getD false then .stop .absent s2
      else .ok (k, slots, groups) s2
    match r with
    | .stop c s1 => .stop s1 c
    | .ask p s1 => .wait (askQueue s1 die q p)
    | .ok (k, slots, groups) s1 => startLaunch s1 die q x a mask k slots groups

/-- R211, R293, R306, R309, R314. -/
def execLaunch (a : LaunchArgs) (s : State) : Out :=
  runPacket 16 (fun s die q x _ => checkLaunch a none s die q x) s

/-- R296, R306. -/
def execLaunchm (a : LaunchArgs) (mask : BitVec 128) (s : State) : Out :=
  runPacket 20 (fun s die q x _ => checkLaunch a (some mask) s die q x) s

/-! ## Traversal (R295) -/

/-- Position `i` of a plane cut into bands of `w` along its first axis (of extent `n`; the other of extent `m`): first
axis fastest within a band. -/
def bandAt (n m w i : Nat) : Nat × Nat :=
  let b := i / (w * m)
  let cw := min w (n - b * w)
  let r := i - b * (w * m)
  (b * w + r % cw, r / cw)

/-- The bits of `d` at even places, from bit `k` on, compacted. -/
def evenBits (fuel d : Nat) : Nat :=
  match fuel with
  | 0 => 0
  | f + 1 => d % 2 + 2 * evenBits f (d / 4)

/-- The Hilbert map of R295, with fuel. -/
def hilbert (fuel t s x y : Nat) : Nat × Nat :=
  match fuel with
  | 0 => (x, y)
  | f + 1 =>
    let rx := t / 2 % 2
    let ry := (t ^^^ rx) % 2
    let p := if ry = 0 then (if rx = 1 then (s - 1 - y, s - 1 - x) else (y, x)) else (x, y)
    hilbert f (t / 4) (2 * s) (p.1 + s * rx) (p.2 + s * ry)

/-- The point of index `d` of a curve of 4^m points. -/
def curveAt (order m d : Nat) : Nat × Nat :=
  if order = 2 then (evenBits m d, evenBits m (d / 2)) else hilbert m d 1 0 0

/-- The `k`-th point of a curve that lies in the grid, from index `d` on, with fuel. -/
def nthPoint (fuel order m nx ny d k : Nat) : Nat × Nat :=
  match fuel with
  | 0 => (0, 0)
  | f + 1 =>
    let p := curveAt order m d
    if p.1 < nx ∧ p.2 < ny then (if k = 0 then p else nthPoint f order m nx ny (d + 1) (k - 1))
    else nthPoint f order m nx ny (d + 1) k

/-- The coordinates of the crew at a position of the traversal order. -/
def coordAt (a : LaunchArgs) (i : Nat) : Nat × Nat × Nat :=
  let nx := gridX a
  let ny := gridY a
  let z := i / (nx * ny)
  let r := i % (nx * ny)
  let w := 2 ^ a.swz.toNat
  let p : Nat × Nat :=
    match a.order.toNat with
    | 0 => if a.swz = 0#4 then (r % nx, r / nx) else bandAt nx ny w r
    | 1 => if a.swz = 0#4 then (r / ny, r % ny) else
        let q := bandAt ny nx w r
        (q.2, q.1)
    | o =>
      let m := log2Up (max nx ny)
      nthPoint (4 ^ m + 1) o m nx ny 0 r
  (p.1, p.2, z)

/-! ## Release, overrun, slip -/

/-- FRAME_RELEASE (R299, R309): a Held launch whose release is due is Dispatching. -/
def releaseLaunch (s : State) (n : Nat) : State :=
  match mapFind s.launches n with
  | some l =>
    if l.st = .held ∧ releaseDue s l = true then modLaunch s n fun l => { l with st := .dispatching } else s
  | none => s

/-- R299, of a launch of the die's command processor. -/
def execFrameRelease (die launch : Nat) (s : State) : Out :=
  match mapFind s.launches launch with
  | some l => .next (if l.die = die then releaseLaunch s launch else s)
  | none => .next s

/-- Whether a launch overruns: it stands in an open frame at or past its deadline and has not completed (R299). -/
def overruns (s : State) (l : Launch) : Bool :=
  l.frame && l.st != .complete && l.args.budget != 0#16 &&
  match (queueAt s l.die l.q).frame with
  | some f => decide ((l.args.rel.toNat : Int) + l.args.budget.toNat ≤ frameClock s f)
  | none => false

/-- The launches of a program from a place on, up to FRAME_END or the tail, that have not started: the queue as it stands at each,
and its operands; `room` counts the bytes below the tail that follow. The words are read without effect; with fuel. -/
def queuedFrom (fuel : Nat) (s : State) (die q room : Nat) (v : Queue) : List (Queue × LaunchArgs) :=
  match fuel with
  | 0 => []
  | f + 1 =>
    let fits := fun (n : Nat) => !v.stack.isEmpty || decide (4 * n ≤ room)
    let words := fun (n : Nat) => match queueWords s die { v with ans := some .ok } (queueHead v) n with
      | .ok l _ => some (wordsOf n l)
      | _ => none
    match (if fits 1 then words 1 else none) with
    | none => []
    | some h =>
      let n := max 1 (fieldOf (wordAt h 0) 16 8)
      match (if fits n then words n else none).map (decodePacket v.priv) with
      | none => []
      | some (.error _) => []
      | some (.ok p) =>
        let go := fun (w : Queue) => queuedFrom f s die q (room - (w.head - v.head).toNat) w
        let jump := fun (body : State → Out) =>
          match body { modQueue s die q (fun _ => v) with cur := .queue die q } with
          | .next t => if (queueAt t die q).stop.isSome then [] else go (queueAt t die q)
          | _ => []
        match p with
        | .frameEnd => []
        | .launch a => (v, a) :: go (passWords v n)
        | .launchm a _ => (v, a) :: go (passWords v n)
        | .jumpP obj gen start => jump (execJumpP obj gen start)
        | .callP obj gen start => jump (execCallP obj gen start)
        | .returnP => jump execReturnP
        | _ => go (passWords v n)

/-- The packets of a frame that are looked at for launches that have not started (log entry 68). -/
def frameFuel : Nat := 65536

/-- The launches of a queue's open frame that have not started and overrun (R299). -/
def lateQueued (s : State) (die q : Nat) : List (Queue × LaunchArgs) :=
  let x := queueAt s die q
  match x.frame with
  | none => []
  | some f =>
    (queuedFrom frameFuel s die q (roomOf s x - 4 * x.skip) (passWords { atNext s x with stop := none } x.skip)).filter fun p =>
      p.2.budget != 0#16 && decide ((p.2.rel.toNat : Int) + p.2.budget.toNat ≤ frameClock s f)

/-- OVERRUN (R299): the launch's episode begins. -/
def execOverrun (die launch : Nat) (s : State) : Out :=
  match mapFind s.launches launch with
  | some l =>
    .next (if l.die = die ∧ overruns s l = true ∧ l.episode = none then
      modLaunch s launch fun l => { l with episode := some 0 } else s)
  | none => .next s

/-- One launch that overruns as FRAME advances: its episode grows; its first slip is reported. -/
def slipLaunch (s : State) (n : Nat) (l : Launch) : State :=
  let k := l.episode.getD 0
  let s1 := modLaunch s n fun l => { l with episode := some (k + 1) }
  if k = 0 then report s1 l.die 4 0 l.q l.off 0 0 else s1

/-- The bin of an episode's length (Table 18.11). -/
def lengthBin (n : Nat) : Nat := min 15 n.log2

/-- An overrun ends: the MSC adds its length to the slip histogram (R299). -/
def endEpisode (s : State) (k : Nat) : State := if k = 0 then s else mscCount s (9, 0, lengthBin k) 1

/-- The launches of a frame that overran before they could start: each one's episode grows, and its first slip is reported; an
episode whose launch no longer stands in the program ends. -/
def slipQueued (s : State) (die q : Nat) (l : List (Queue × LaunchArgs)) : State :=
  let late := (queueAt s die q).late
  let s1 := (late.filter fun e => !l.any fun p => placeOf p.1 = e.1).foldl (fun s e => endEpisode s e.2) s
  l.foldl (fun s p =>
    let k := ((late.find? fun e => e.1 = placeOf p.1).map Prod.snd).getD 0
    let s2 := modQueue s die q fun x => { x with late := x.late ++ [(placeOf p.1, k + 1)] }
    if k = 0 then report s2 die 4 0 q (ringCount p.1) 0 0 else s2) (modQueue s1 die q fun x => { x with late := [] })

/-- SLIP (R299): FRAME has advanced from `old`; the frame of a queue in which some launch overran, started or not, slips by one
tick. -/
def slipQueue (old s : State) (die q : Nat) : State :=
  let ls := s.launches.filter fun p => p.2.die == die && p.2.q == q && overruns old p.2
  let qs := lateQueued old die q
  let s1 := slipQueued s die q qs
  if ls.isEmpty && qs.isEmpty then s1
  else
    let s2 := ls.foldl (fun s p => slipLaunch s p.1 p.2) s1
    match (queueAt s die q).frame with
    | some f =>
      let s3 := modQueue s2 die q fun x => { x with frame := some { f with slip := f.slip + 1 } }
      if f.sse then semAdd s3 die f.ssem 1#64 else s3
    | none => s2

/-! ## Completion -/

/-- The head of a queue passes what has completed ahead of it, in order (R209, R314). -/
def passLaunches (fuel : Nat) (s : State) (die q : Nat) : State :=
  match fuel with
  | 0 => s
  | f + 1 =>
    match (queueAt s die q).ahead with
    | [] => s
    | .words k :: r => passLaunches f (modQueue s die q fun x => { passWords x k with ahead := r }) die q
    | .launch n :: r =>
      match mapFind s.launches n with
      | some l =>
        if l.st = .complete then
          let s1 := modQueue s die q fun x =>
            { passWords x (launchBytes s n / 4) with ahead := r }
          passLaunches f { s1 with launches := mapErase s1.launches n } die q
        else s
      | none => s

/-- The first failure of a list in time (R328). -/
def firstFailed : List FailedW → Option FailedW
  | [] => none
  | f :: r =>
    match firstFailed r with
    | some g => some (if g.n < f.n then g else f)
    | none => some f

/-- R309: a Draining launch whose stores have all been performed or have failed completes; R328 reports the failures. -/
def completeLaunch (s : State) (n : Nat) : State :=
  match mapFind s.launches n with
  | none => s
  | some l =>
    if l.st = .draining ∧ l.stores = [] then
      let s1 := match firstFailed l.failed with
        | none => s
        | some f => report s l.die 6 0 l.q (min (storeCount l.failed) (2 ^ 32 - 1)) f.obj f.off
      let s2 := match l.episode with
        | some k => endEpisode s1 k
        | none => s1
      let s3 := modLaunch s2 n fun l => { l with st := .complete }
      if (queueAt s3 l.die l.q).launches.contains n then
        passLaunches ((queueAt s3 l.die l.q).ahead.length + 1) s3 l.die l.q
      else { s3 with launches := mapErase s3.launches n }
    else s

/-- R309, R328, of a launch of the die's command processor. -/
def execLaunchComplete (die launch : Nat) (s : State) : Out :=
  match mapFind s.launches launch with
  | some l => .next (if l.die = die then completeLaunch s launch else s)
  | none => .next s

end Sys2Proof.Machine
end

