-- ==== Sys2Proof/Machine/Place.lean ====
section
/-! DEFINITION. Cores and their generations: allocation (R240), sweeps (R242), the start of a strand (R68, R308), clusters and
spread order (R307), gangs (R318), and the placing of a new crew. -/
namespace Sys2Proof.Machine
open Sys2Proof

/-! ## Generations (R240, R242) -/

/-- The generation after one (R240). -/
def nextGen (g : Gen) : Gen := BitVec.ofNat 16 (g.toNat % 65535 + 1)

/-- The quarter of a generation (Table 11.14). -/
def quarterOf (g : Gen) : Nat := g.toNat / 0x4000

/-- Whether a generation is the first of its quarter. -/
def entersQuarter (g : Gen) : Bool := g == 1#16 || (g.toNat % 0x4000 == 0 && g != 0#16)

/-- Whether an allocation on a core waits for a sweep (R242). -/
def allocBlocked (s : State) (core : Nat) : Bool :=
  let c := mapGet {} s.cores core
  let g := nextGen c.gctr
  entersQuarter g && c.sweep.contains (quarterOf g)

/-- An allocation on a core: the new generation; entering a quarter starts the sweep of the one after next. -/
def allocate (s : State) (core : Nat) : Gen × State :=
  let g := nextGen (mapGet {} s.cores core).gctr
  (g, { s with cores := mapMod {} s.cores core fun c => { c with
          gctr := g
          sweep := if entersQuarter g then c.sweep ++ [(quarterOf g + 2) % 4] else c.sweep } })

/-- Whether a tag lies in a quarter; the void tag lies in none. -/
def inQuarter (q : Nat) (g : Gen) : Bool := g != 0#16 && quarterOf g == q

/-- Held objects of a core whose tags lie in a quarter are written out (R242). -/
def sweepHeld (s : State) (core q : Nat) : State :=
  let s1 := iter 8 s fun t s =>
    match mapFind s.heldTiles (tileKey core t) with
    | some h => if inQuarter q h.gen then writeOutTile s core t else s
    | none => s
  let mine := fun (c : BitVec 2) => c.toNat == coreInQuad core
  let s2 := (quadAt s1 (quadOf core)).rows.foldl (fun s p =>
    if p.2.held.isSome && mine p.2.core && inQuarter q p.2.gen then writeOutRow s (quadOf core) p.1 else s) s1
  let pl := fun (s : State) (b : Bool) =>
    let p := planeOf (quadAt s (quadOf core)) b
    if p.held.isSome && mine p.core && inQuarter q p.gen then writeOutPlane s (quadOf core) b else s
  pl (pl s2 false) true

/-- The register tags that lie in a quarter become void. -/
def sweepRegs (q : Nat) (r : Regs) : Regs :=
  let go := fun {α : Type} (gen : α → Gen) (f : α → α) (m : FMap α) =>
    m.map fun p => if inQuarter q (gen p.2) then (p.1, f p.2) else p
  { r with
    x := go XVal.gen (fun v => { v with gen := 0#16 }) r.x
    c := go CVal.gen (fun v => { v with gen := 0#16 }) r.c
    p := go PVal.gen (fun v => { v with gen := 0#16 }) r.p
    v := go VVal.gen (fun v => { v with gen := 0#16 }) r.v
    t := go TVal.gen (fun v => { v with gen := 0#16 }) r.t
    sx := go XVal.gen (fun v => { v with gen := 0#16 }) r.sx }

/-- The tags of a core's objects that lie in a quarter become void (R242). -/
def sweepTags (s : State) (core q : Nat) : State :=
  let mine := fun (c : BitVec 2) => c.toNat == coreInQuad core
  let pl := fun (p : Plane) => if mine p.core && inQuarter q p.gen then { p with gen := 0#16 } else p
  let s1 := { s with
    spad := (s.spad.map fun p =>
      if p.1 / spadGrans = core ∧ inQuarter q p.2.gen = true then (p.1, { p.2 with gen := 0#16 }) else p).filter
        fun p => p.2 != {}
    cores := mapMod {} s.cores core fun c => { c with left := sweepRegs q c.left } }
  modQuad s1 (quadOf core) fun x => { x with
    rows := (x.rows.map fun p =>
      if mine p.2.core && inQuarter q p.2.gen then (p.1, { p.2 with gen := 0#16 }) else p).filter fun p => p.2 != {}
    pa := pl x.pa
    pb := pl x.pb }

/-- SWEEP_DONE (R242): the sweep under way on a core finishes. -/
def execSweepDone (core : Nat) (s : State) : Out :=
  match (mapGet {} s.cores core).sweep with
  | [] => .next s
  | q :: r =>
    let s1 := sweepTags (sweepHeld s core q) core q
    .next { s1 with cores := mapMod {} s1.cores core fun c => { c with sweep := r } }

/-! ## Clusters -/

/-- The cores of a package cluster in spread order (R307). -/
def spreadCores (cl : Nat) : List Nat :=
  (List.range 16).map fun i => 16 * cl + 4 * (i % 4) + i / 4

/-- The clusters of a die, if the die is present: its share of those CAPS reports (R296). -/
def dieClusters (s : State) (die : Nat) : List Nat :=
  if die < s.caps.dies.toNat then
    (List.range (min 24 (s.caps.clusters.toNat / s.caps.dies.toNat))).map fun i => 24 * die + i
  else []

/-- The free cores of a cluster, in spread order. -/
def freeCores (s : State) (cl : Nat) : List Nat := (spreadCores cl).filter fun c => (strandAt s c).isNone

/-- The cores that a crew of `n` strands takes: the first cluster of a list with enough that `ok` accepts. -/
def findCores (s : State) (n : Nat) (ok : List Nat → Bool) (cls : List Nat) : Option (List Nat) :=
  match cls with
  | [] => none
  | c :: r =>
    let l := (freeCores s c).take n
    if l.length = n ∧ ok l = true then some l else findCores s n ok r

/-- The lowest free crew slot of a die (R307). -/
def freeSlot (s : State) (die : Nat) : Option Nat :=
  firstBelow (dieAt s die).nslot fun k => (crewAt s (crewKey die k)).isNone

/-! ## Gangs (R318) -/

/-- The coordinates of the gang of a crew, its own alone where it shares no group. -/
def gangCoords (l : Launch) (c : Nat × Nat × Nat) : List (Nat × Nat × Nat) :=
  let all := l.groups.map Prod.snd
  let own := all.filter fun g => (List.range 16).any fun r => groupHas g c r
  if own.isEmpty then [c] else unionCrews l.args (linkGroups all.length l.args all own)

/-- The keys of the crews of a crew's gang that are there. -/
def gangKeys (s : State) (k : Nat) : List Nat :=
  match crewAt s k with
  | none => []
  | some c =>
    match mapFind s.launches c.launch with
    | none => [k]
    | some l =>
      let cs := gangCoords l c.coord
      (s.crews.filter fun p => p.2.launch == c.launch && p.2.copy == c.copy && cs.contains p.2.coord).map Prod.fst

/-! ## The start of a strand (R47, R48, R68, R308) -/

/-- The stream of an image at its start: Ended where it is empty. -/
def startStream (k : Kernel) (e : Engine) : Stream :=
  if mapGet 0 k.len e.num = 0 then { st := .ended } else { pc := BitVec.ofNat 32 (mapGet 0 k.entry e.num) }

/-- The data capability (R48). -/
def dataCap (l : Launch) : CapBits :=
  l.args.kobj ++ l.args.kgen ++ 0x82#8 ++ BitVec.ofNat 40 l.k.dataLen ++ BitVec.ofNat 40 l.k.dataOff

/-- The capability registers at a strand's start: the records' slots, and the data capability in c0. -/
def startCaps (l : Launch) (gen : Gen) : FMap CVal :=
  let m := l.k.caps.foldl (fun (m : FMap CVal) r =>
    if fieldOf r 0 8 < 16 then
      mapSet {} m (fieldOf r 0 8) { gen := gen, val := mapGet 0#128 l.slots (fieldOf r 16 16) }
    else m) []
  if l.k.dataLen = 0 then m else mapSet {} m 0 { gen := gen, val := dataCap l }

/-- A strand as dispatch starts it (R68, R308); its reads follow the `since` writes made so far (log entry 86). -/
def newStrand (l : Launch) (key sid rank copy : Nat) (coord : Nat × Nat × Nat) (gen : Gen) (since : Nat) : Strand :=
  let x := fun (n v : Nat) (m : FMap XVal) => mapSet {} m n { gen := gen, val := d64 v }
  { crew := key, sid := sid, rank := rank, x1 := copy, cgen := gen, gtrap := l.args.gtrap, super := l.super
    r := { x := x 4 coord.2.2 (x 3 coord.2.1 (x 2 coord.1 (x 1 copy []))), c := startCaps l gen }
    sys := { tkp := l.k.tkp, rotsz := l.k.init }
    views := [{ scope := 5, obj := none, since := since }]
    ss := [Engine.S, .V, .M, .C].foldl (fun m e => mapPut m e.num (startStream l.k e)) [] }

/-- The handle of a launch's kernel (R51). -/
def launchHandle (l : Launch) : Handle := { space := l.space, obj := l.args.kobj.toNat, gen := l.args.kgen.toNat }

/-- The line of each non-empty stream's entry is asked for (R51, R308). -/
def wantEntries (s : State) (die : Nat) (l : Launch) : State :=
  let lines := (List.range 4).filterMap fun e =>
    if mapGet 0 l.k.len e = 0 then none else some ((mapGet 0 l.k.off e + mapGet 0 l.k.entry e) / 64)
  modDie s die fun d => { d with lineReq := lines.foldl (fun r x => addLine r (launchHandle l) x) d.lineReq }

/-- One strand of a new crew is allocated on a core. -/
def startRank (l : Launch) (key copy : Nat) (coord : Nat × Nat × Nat) (s : State) (p : Nat × Nat) : State :=
  let a := allocate s p.1
  setStrand { a.2 with
    nextStrand := a.2.nextStrand + 1
    cores := mapMod {} a.2.cores p.1 fun c => { c with owner := some l.space } } p.1
    (newStrand l key a.2.nextStrand p.2 copy coord a.1 s.writes)

/-- A new crew takes a slot and its cores, and its strands start (R308); none where no slot is free or no cluster of
the list has room, or an allocation waits for a sweep. -/
def placeCrew (s : State) (n copy place : Nat) (cls : List Nat) (coord : Nat × Nat × Nat) : Option State :=
  match mapFind s.launches n with
  | none => none
  | some l =>
    match freeSlot s l.die, findCores s (l.args.size.toNat + 1) (fun _ => true) cls with
    | some slot, some cores =>
      if cores.any (allocBlocked s) then none
      else
        let key := crewKey l.die slot
        let c : Crew :=
          { launch := n, copy := copy, place := place, space := l.space, handle := launchHandle l
            size := l.args.size.toNat, copyonly := l.args.copyonly, coord := coord, cores := cores
            since := s.frame.toNat, progress := s.frame.toNat, run := s.nextStrand }
        let s1 := (cores.zip (List.range cores.length)).foldl (startRank l key copy coord) (setCrew s key c)
        some (cores.foldl settle (wantEntries s1 (dieOf (cores.headD 0)) l))
    | _, _ => none

/-- The crews of a gang placed one after another at one moment, or none of them. -/
def placeGang (s : State) (n copy place : Nat) (cls : List Nat) : List (Nat × Nat × Nat) → Option State
  | [] => some s
  | c :: r =>
    match placeCrew s n copy place cls c with
    | some s1 => placeGang s1 n copy place cls r
    | none => none

/-- Whether the crew at a position was placed with a gang whose first crew stands earlier (R318). -/
def placedEarlier (l : Launch) (i : Nat) : Bool :=
  let g := gangCoords l (coordAt l.args i)
  decide (1 < g.length) && (List.range i).any fun j => g.contains (coordAt l.args j)

/-- The first position from `i` on whose crew is not placed yet, with fuel. -/
def nextPosition (fuel : Nat) (l : Launch) (i : Nat) : Nat :=
  match fuel with
  | 0 => i
  | f + 1 => if i < gridSize l.args ∧ placedEarlier l i = true then nextPosition f l (i + 1) else i

/-- The clusters that a copy of a launch may use, and its place: the home die's, or the copy's one (R296). -/
def copyClusters (s : State) (l : Launch) (copy : Nat) : List Nat × Nat :=
  match l.mask with
  | none => (dieClusters s l.die, l.die)
  | some _ =>
    let c := (launchPlaces l).getD copy 0
    ([c], c)

/-- The next crew, or gang, of a copy of a launch is placed (R308, R318); none where it does not fit. -/
def placeNew (s : State) (n copy : Nat) : Option State :=
  match mapFind s.launches n with
  | none => none
  | some l =>
    let i := mapGet 0 l.next copy
    let c := copyClusters s l copy
    match placeGang s n copy c.2 c.1 (gangCoords l (coordAt l.args i)) with
    | none => none
    | some s1 =>
      some (settleLaunch (modLaunch s1 n fun l => { l with
        next := mapSet 0 l.next copy (nextPosition (gridSize l.args) l (i + 1))
        lastPlace := s.frame.toNat }) n)

end Sys2Proof.Machine
end

