-- ==== Sys2Proof/Machine/System.lean ====
section
/-! DEFINITION. System registers (R73, R74, R110), the safe point and the end of the scalar stream (R111, R112), and
user-level interrupts (R78, R79, R396). -/
namespace Sys2Proof.Machine
open Sys2Proof

/-! ## UISTAT (Table 3.9) -/

/-- ACT. -/
def uiAct (st : Strand) : Bool := st.sys.uistat.getLsbD 1
/-- EN. -/
def uiEn (st : Strand) : Bool := st.sys.uistat.getLsbD 0

/-- UISTAT at a delivery: EN kept; ID, SRC and RPOP set; ACT = 1. -/
def uiEnter (old : BitVec 32) (id : Nat) (src : Nat) (rpop : Bool) : BitVec 32 :=
  BitVec.ofNat 32 (id % 65536 * 65536 + (if rpop then 16 else 0) + src * 4 + 2 + (if old.getLsbD 0 then 1 else 0))

/-- UISTAT after uiret: ACT = 0, RPOP = 0. -/
def uiLeave (old : BitVec 32) : BitVec 32 := old &&& 0xFFFFFFED#32

/-- The strand at a delivery: UIEPC, UISTAT and the bank, and how the instruction at UIEPC resumes (R78). -/
def uiDeliver (st : Strand) (epc : BitVec 32) (id src : Nat) (rpop arrived : Bool) : Strand :=
  { st with
    uiArrived := arrived
    uiPat := (streamOf st .S).pat
    sys := { st.sys with
      uiepc := epc
      uistat := uiEnter st.sys.uistat id src rpop } }

/-! ## Reading a system register -/

/-- CREWID (Table 3.8). -/
def crewId (s : State) (st : Strand) : Nat :=
  match crewAt s st.crew with
  | some c => (if c.copyonly then 256 else 0) + c.size * 16 + st.rank
  | none => st.rank

/-- TKCNT (Table 3.8). -/
def tkcnt (st : Strand) : Nat := packNat 4 ((List.range 16).map fun q => tkCount st q)

/-- UIPEND, CSTAT and the registers a strand reads of itself, by SRN (Table 3.6). -/
def srrValue (s : State) (core : Nat) (st : Strand) (srn : Nat) : DWord :=
  match srn with
  | 0x000 => Config.capsWord s.caps s.bulkSize
  | 0x001 => d64 (localCore core)
  | 0x002 => d64 (dieOf core)
  | 0x003 => st.migrations.setWidth 64
  | 0x004 => st.cgen.setWidth 64
  | 0x005 => b64 st.gtrap
  | 0x006 => d64 (crewId s st)
  | 0x007 => s.frame
  | 0x010 => st.sys.rmode.setWidth 64
  | 0x011 => st.sys.vevt.setWidth 64
  | 0x012 => st.sys.rotsz.setWidth 64
  | 0x013 => st.sys.vrb.setWidth 64
  | 0x058 => st.sys.mupc
  | 0x014 => st.sys.vlc.setWidth 64
  | 0x015 => st.sys.vec.setWidth 64
  | 0x024 => st.sys.amaxst.setWidth 64
  | 0x059 => st.sys.mrow
  | 0x030 => st.sys.uivec.setWidth 64
  | 0x031 => st.sys.uiepc.setWidth 64
  | 0x032 => st.sys.uistat.setWidth 64
  | 0x033 => d64 st.uipend.length
  | 0x040 => d64 (tkcnt st)
  | 0x050 => (match s.cur with
    | .stream c .S => if c = core then s.grp.addr else pcOf st .S
    | _ => pcOf st .S).setWidth 64
  | 0x051 => (pcOf st .V).setWidth 64
  | 0x052 => (pcOf st .M).setWidth 64
  | 0x053 => (pcOf st .C).setWidth 64
  | 0x060 => st.sys.leaseRun.setWidth 64
  | 0x061 => d64 (lullOf s (quadOf core))
  | 0x062 => st.sys.mlc.setWidth 64
  | 0x063 => st.sys.clc.setWidth 64
  | 0x064 => st.sys.bsgA.setWidth 64
  | 0x065 => st.sys.bsgW.setWidth 64
  | 0x066 => d64 (st.copies.length * 2 ^ 32 + st.sys.seq.toNat)
  | 0x070 => st.sys.fenceObj
  | 0x071 => st.sys.fenceOff
  | 0x800 => d64 (spaceOf s st)
  | 0x801 => (spaceAt s (spaceOf s st)).kdom.setWidth 64
  | 0x802 => s.msc.policy
  | 0x803 => s.plvl.setWidth 64
  | n =>
    if 0x018 ≤ n ∧ n ≤ 0x01F then (mapGet 0#17 st.sys.tshape (n - 0x018)).setWidth 64
    else if 0x020 ≤ n ∧ n ≤ 0x023 then (mapGet 0#32 st.sys.amax (n - 0x020)).setWidth 64
    else if 0x041 ≤ n ∧ n ≤ 0x04F then (mapGet 0#32 st.sys.tkp (n - 0x040)).setWidth 64
    else 0#64

/-- SUPERVISOR_ONLY (row 11 of Table 2.2) for an SRN of 0x800 or above in a strand not enabled (R73). -/
def srnPre (srn : BitVec 12) (_s : State) (_core : Nat) (st : Strand) : Option Trapped :=
  if 0x800 ≤ srn.toNat ∧ st.super = false then some { cause := .supervisorOnly } else none

/-- R110. -/
def execSrr (tk : Tk) (xd : XReg) (srn : BitVec 12) (s : State) : Out :=
  issuePre .S tk (srnPre srn) (fun s core st => finX s core .S st xd (srrValue s core st srn.toNat)) s

/-! ## Writing a system register -/

/-- R71: the registers of a rotating region become void. -/
def voidRotating (st : Strand) (z : Nat) : Strand :=
  let r := { st.r with
    v := st.r.v.filter fun p => !(decide (32 ≤ p.1) && decide (p.1 < 32 + z))
    p := st.r.p.filter fun p => !(decide (16 ≤ p.1) && decide (p.1 < 16 + min z 16)) }
  { st with r := r }

/-- Whether an FP32 magnitude is a NaN. -/
def f32Nan (m : BitVec 32) : Bool := decide (0x7F800000 < fieldOf m 0 31)

/-- The effect of srw, by SRN; none where the value holds a reserved code or sets a reserved bit (R73). A register not
listed is RO: the write is ignored. DESIGN CHOICE (log entry 87): bits [63:32] of a value for TKPn are dropped. -/
def srwValue (st : Strand) (srn : Nat) (v : DWord) : Option Strand :=
  let w := v.setWidth 32
  let up := fun (f : SysRegs → SysRegs) => some { st with sys := f st.sys }
  let hi := zeroBits v 32 32
  match srn with
  | 0x010 =>
    if zeroBits v 5 59 && decide (1 ≤ fieldOf v 0 3) && decide (fieldOf v 0 3 ≤ 5) then
      up fun y => { y with rmode := v.setWidth 5 } else none
  | 0x011 => if zeroBits v 4 60 then up fun y => { y with vevt := y.vevt &&& ~~~v.setWidth 4 } else none
  | 0x012 =>
    if zeroBits v 2 62 then
      (up fun y => { y with rotsz := v.setWidth 2, vrb := 0#5 }).map fun st => voidRotating st (rotSize (v.setWidth 2))
    else none
  | 0x013 =>
    if zeroBits v 5 59 then
      let z := rotSize st.sys.rotsz
      up fun y => { y with vrb := if z = 0 then 0#5 else BitVec.ofNat 5 (v.toNat % z) }
    else none
  | 0x014 => if hi then up fun y => { y with vlc := w } else none
  | 0x015 => if hi then up fun y => { y with vec := w } else none
  | 0x024 => if zeroBits v 4 60 then up fun y => { y with amaxst := y.amaxst &&& ~~~v.setWidth 4 } else none
  | 0x030 => if hi && zeroBits v 0 2 then up fun y => { y with uivec := w } else none
  | 0x031 => if hi then up fun y => { y with uiepc := w } else none
  | 0x032 =>
    if hi && zeroBits v 5 11 then
      up fun y => { y with uistat := (y.uistat &&& 0xFFFFFFFE#32) ||| (w &&& 1#32) } else none
  | 0x060 =>
    if zeroBits v 9 55 && decide (1 ≤ fieldOf v 0 9) && decide (fieldOf v 0 9 ≤ 256) then
      up fun y => { y with leaseRun := v.setWidth 9 } else none
  | 0x062 => if hi then up fun y => { y with mlc := w } else none
  | 0x063 => if hi then up fun y => { y with clc := w } else none
  | 0x064 => if zeroBits v 4 60 && decide (fieldOf v 0 3 ≤ 5) then up fun y => { y with bsgA := v.setWidth 4 } else none
  | 0x065 => if zeroBits v 4 60 && decide (fieldOf v 0 3 ≤ 5) then up fun y => { y with bsgW := v.setWidth 4 } else none
  | 0x070 =>
    if zeroBits v 40 23 then
      up fun y => { y with fenceObj := if v.getLsbD 63 then y.fenceObj &&& ~~~(1#64 <<< 63) else y.fenceObj }
    else none
  | n =>
    if 0x020 ≤ n ∧ n ≤ 0x023 then
      if hi && !v.getLsbD 31 && !f32Nan w then up fun y => { y with amax := mapSet 0#32 y.amax (n - 0x020) w } else none
    else if 0x041 ≤ n ∧ n ≤ 0x04F then up fun y => { y with tkp := mapSet 0#32 y.tkp (n - 0x040) w }
    else some st

/-- R110. -/
def execSrw (tk : Tk) (xs : XReg) (srn : BitVec 12) (s : State) : Out :=
  issuePre .S tk (srnPre srn) (fun s core st =>
    orTrap s (do
      let v ← readX st .S xs
      match srwValue st srn.toNat v with
      | some st1 => .ok st1
      | none => trapOf .reservedField) fun st1 => .fin (setStrand s core st1)) s

/-! ## The safe point and the end -/

/-- The live-mask records of the strand's kernel (R47). -/
def liveOf (s : State) (st : Strand) : List (BitVec 256) :=
  match crewLaunch s st with
  | some (_, l) => l.k.live
  | none => []

/-- LM at or beyond LIVE_CNT: RESERVED_FIELD at decode (R47). -/
def lmPre (lm : BitVec 12) (s : State) (_core : Nat) (st : Strand) : Option Trapped :=
  if (liveOf s st).length ≤ lm.toNat then some { cause := .reservedField } else none

/-- Whether a pre-emption request is pending for a strand's crew. -/
def preemptPending (s : State) (st : Strand) : Bool :=
  match crewAt s st.crew with
  | some c => c.preq.isSome
  | none => false

/-- R111, R79: the strand's safe point where a pre-emption is pending and no handler runs. -/
def execSafept (tk : Tk) (lm : BitVec 12) (s : State) : Out :=
  issuePre .S tk (lmPre lm) (fun s _ st =>
    if preemptPending s st && !uiAct st then .after s (.safe lm.toNat) else .fin s) s

/-- Whether the end of a strand's scalar stream needs XSYNC: a MAPPED crew of more than one strand (R108). -/
def needsXsync (s : State) (st : Strand) : Bool :=
  match crewAt s st.crew with
  | some c => !c.copyonly && decide (1 ≤ c.size)
  | none => false

/-- R112, R108. -/
def execSEnd (tk : Tk) (s : State) : Out :=
  issue .S tk (fun s _ st =>
    if needsXsync s st && !st.xsync then .trap s { cause := .crewExitUnsynced } else .after s .stop) s

/-- brk and trapu (R78, R112): delivered to the handler, else a supervisor trap with DETAIL n. -/
def userTrap (c : Cause) (src : Nat) (tk : Tk) (code : BitVec 16) (s : State) : Out :=
  issue .S tk (fun s core st =>
    if uiAct st ∨ bits st.sys.uivec 2 30 = 0#30 then .trap s { cause := c, detail := code }
    else
      orTrap s (checkTarget s st .S st.sys.uivec.toNat) fun t =>
      .jump (setStrand s core (uiDeliver st s.grp.next code.toNat src false false)) t) s

/-- R112. -/
def execBrk (tk : Tk) (code : BitVec 16) (s : State) : Out := userTrap .brk 1 tk code s
/-- R112. -/
def execTrapu (tk : Tk) (code : BitVec 16) (s : State) : Out := userTrap .trapu 2 tk code s

/-- R78: back to the main bank and to UIEPC; with RPOP the instruction there skips its tk_pop. -/
def execUiret (tk : Tk) (s : State) : Out :=
  issue .S tk (fun s core st =>
    if !uiAct st then .trap s { cause := .uiState }
    else
      orTrap s (checkTarget s st .S st.sys.uiepc.toNat) fun t =>
      let st1 := { st with sys := { st.sys with uistat := uiLeave st.sys.uistat } }
      .resume (setStrand s core st1) t (st.sys.uistat.getLsbD 4)
        (st.sys.uistat.getLsbD 4 && st.uiArrived) st.uiPat) s

/-- Whether the scalar stream stands at an instruction boundary or in a wait that may be abandoned (R78). -/
def uiBoundary (s : State) (st : Strand) : Bool :=
  let x := streamOf st .S
  x.st != .ended && x.push.isNone && !awaits x && st.safe.isNone && x.tr.isNone &&
  match crewAt s st.crew with
  | some c => c.st == .running || c.st == .stopping
  | none => false

/-- R78: the oldest pending copy completion is delivered; a target outside the image traps at the return point. -/
def execUiDelivery (core : Nat) (s : State) : Out :=
  match strandAt s core with
  | none => .next s
  | some st =>
    match st.uipend with
    | [] => .next s
    | slot :: rest =>
      if uiEn st && !uiAct st && uiBoundary s st then
        let x := streamOf st .S
        match checkTarget s st .S st.sys.uivec.toNat with
        | .error t =>
          .next (takeTrap s core .S { cause := t.cause, popped := x.popped, addr := x.pc, gaddr := x.pc })
        | .ok t =>
          let st1 := { uiDeliver st x.pc slot 0 x.popped x.arrived with uipend := rest }
          .next (setStrand s core (setStream st1 .S
            { x with
              pc := t
              st := .issuing
              popped := false
              arrived := false
              want := none }))
      else .next s

end Sys2Proof.Machine
end

