-- ==== Sys2Proof/Machine/Save.lean ====
section
/-! DEFINITION. Saves and restores of crews (R245, R319 to R327): the save area of Table 14.11, safe-point saves, evictions,
resumption, and the restore of a strand's objects under a new generation; fault queue entries (R76, R77, R235). -/
namespace Sys2Proof.Machine
open Sys2Proof

/-! ## Trap records as words (R76) -/

/-- A trap record (Table 3.11). -/
def trapWords (e : Engine) (r : Option TrapRec) : List Word :=
  match r with
  | none => List.replicate 8 0#32
  | some r =>
    let f := fun (b : Bool) (k : Nat) => if b then 2 ^ k else 0
    [BitVec.ofNat 32 (r.detail.toNat * 2 ^ 16 + f r.pushp 15 + r.words.length * 2 ^ 12 + f r.mid 11 + f r.popped 10 +
        e.num * 2 ^ 8 + r.cause.code), r.addr, r.gaddr] ++
      (List.range 5).map fun i => r.words.getD i 0#32

/-- Words as bytes. -/
def wordsBytes (l : List Word) : List Byte := l.flatMap (toBytes 4)

/-! ## The save area (Table 14.11) -/

/-- Segments at rising offsets, zero between them, up to `top`. -/
def layout (pos top : Nat) : List (Nat × List Byte) → List Byte
  | [] => List.replicate (top - pos) 0#8
  | (o, b) :: r => List.replicate (o - pos) 0#8 ++ b ++ layout (o + b.length) top r

/-- The live mask of a save: a live-mask record, or everything (Table 14.10). -/
def saveMask (s : State) (st : Strand) (full : Bool) : BitVec 256 :=
  match full, st.safe with
  | false, some lm => (liveOf s st).getD lm 0#256
  | _, _ => BitVec.allOnes 256

/-- Whether a save covers register `n` of the file whose mask begins at a bit: named and current (R245). -/
def covered (m : BitVec 256) (bit n : Nat) (cgen gen : Gen) : Bool := m.getLsbD (bit + n) && gen == cgen

/-- The state of a stream as the save area writes it (Table 3.1): every stream of a crew saved while frozen is Frozen or Ended. -/
def streamCode (st : Strand) (full : Bool) (e : Engine) : Nat :=
  match stateOf st e with
  | .ended => 4
  | x => if full then 3 else if x = .tokenWait then 1 else if x = .syncWait then 2 else 0

/-- The resume state of a stream (R396). -/
def resumeCode (st : Strand) (e : Engine) : Nat :=
  if heldByPush st e || (streamOf st e).push.isSome then 2 else if (streamOf st e).popped then 1 else 0

/-- The header of a save area, MAGIC left out. -/
def saveHeader (st : Strand) (full : Bool) : List Byte :=
  let e := [Engine.S, .V, .M, .C]
  let tags := packNat 4 ((List.range 3).map fun i => (st.r.byp[i]?.map fun b => b.fmt.toNat).getD 15)
  let held := packNat 1 ((List.range 3).map fun i => if st.r.byp[i]?.isSome then 1 else 0)
  wordsBytes ([0#32, 1#32, BitVec.ofNat 32 ((if full then 1 else 0) + 16 * st.rank), BitVec.ofNat 32 (st.safe.getD 0)] ++
    e.map (pcOf st) ++
    [BitVec.ofNat 32 (packNat 3 (e.map (streamCode st full)) + 2 ^ 12 * packNat 2 (e.map (resumeCode st))),
      BitVec.ofNat 32 (tags + 2 ^ 12 * held)]) ++ toBytes 8 (d64 (tkcnt st))

/-- The live bits of a save and the format tags of v and t. -/
def liveBits (st : Strand) (m : BitVec 256) (full : Bool) (tiles : List Nat) : List Byte :=
  let b := fun (n : Nat) (f : Nat → Bool) => packNat 1 ((List.range n).map fun i => if f i then 1 else 0)
  let g := st.cgen
  toBytes 4 (BitVec.ofNat 32 (b 32 fun i => covered m 0 i g (mapGet {} st.r.x i).gen)) ++
  toBytes 2 (BitVec.ofNat 16 (b 16 fun i => covered m 32 i g (mapGet {} st.r.c i).gen)) ++
  toBytes 1 (BitVec.ofNat 8 (b 8 fun i => tiles.contains i && (mapGet {} st.r.t i).gen == g)) ++
  toBytes 1 (BitVec.ofNat 8 (b 8 fun i => full && (mapGet {} st.r.sx (24 + i)).gen == g)) ++
  toBytes 4 (BitVec.ofNat 32 (b 32 fun i => covered m 64 i g (mapGet {} st.r.p i).gen)) ++
  toBytes 8 (d64 (b 64 fun i => covered m 128 i g (mapGet {} st.r.v i).gen)) ++
  toBytes 32 (BitVec.ofNat 256 (packNat 4 ((List.range 64).map fun i => (mapGet {} st.r.v i).fmt.toNat))) ++
  toBytes 4 (BitVec.ofNat 32 (packNat 4 ((List.range 8).map fun i => (mapGet {} st.r.t i).fmt.toNat)))

/-- The system registers as a save writes them; after a safe point UIEPC and UIPEND read zero. -/
def saveSys (s : State) (core : Nat) (st : Strand) (full : Bool) : List Byte :=
  (List.range 128).flatMap fun n =>
    toBytes 8 (if !full && (n == 0x31 || n == 0x33) then 0#64 else srrValue { s with cur := .none } core st n)

/-- The tiles a save covers: named, and configured (Table 14.10). -/
def saveTiles (st : Strand) (m : BitVec 256) : List Nat :=
  (List.range 8).filter fun t => m.getLsbD (48 + t) && (mapGet 0#17 st.sys.tshape t).getLsbD 16

/-- The tile slots of a save: TSHAPE and state of each covered tile; a tile that is not dirty reads SAVED (R82), a void one
holds nothing, state 0 (DESIGN CHOICE, log entry 82). -/
def tileSlots (st : Strand) (tiles : List Nat) : List Byte :=
  (List.range 8).flatMap fun t =>
    if tiles.contains t then
      let v := mapGet {} st.r.t t
      let x : SlotState := if v.gen != st.cgen then .none else if v.dirty then .held else .saved
      toBytes 8 ((mapGet 0#17 st.sys.tshape t).setWidth 64) ++ toBytes 8 (d64 x.code)
    else List.replicate 16 0#8

/-- A binding as 32 bytes: name, object, base, length. -/
def bindBytes (b : Binding) : List Byte :=
  toBytes 8 b.name ++ toBytes 8 (d64 b.obj) ++ toBytes 8 (d64 b.base) ++ toBytes 8 (d64 b.len)

/-- A failure that no fence has reported, as 16 bytes. -/
def failBytes (f : FailedW) : List Byte :=
  wordsBytes [BitVec.ofNat 32 (f.reason + 16 * f.stream.num), BitVec.ofNat 32 (f.obj % 2 ^ 24)] ++ toBytes 8 (d64 f.off)

/-- The groups of a strand, with its launch's phase and whether the strand has arrived in it, 8 bytes each (R318). -/
def phaseBytes (s : State) (st : Strand) : List (List Byte) :=
  match crewLaunch s st with
  | none => []
  | some (c, l) => (groupsOf l c st).map fun g =>
      let p := mapGet (0, []) l.phases (phaseKey c.copy g)
      let here := p.2.contains (memberId l.args c.coord st.rank)
      wordsBytes [BitVec.ofNat 32 (g + if here then 2 ^ 16 else 0), BitVec.ofNat 32 p.1]

/-- Group state, XSYNC and unreported failures (R318, R321): XSYNC, the number of groups, of failures; then groups, then
failures. The format is a DESIGN CHOICE, as is that the command processor's record holds those beyond 7 and 4 (log entry 77). -/
def groupBytes (s : State) (st : Strand) : List Byte :=
  let g := phaseBytes s st
  layout 0 128
    [(0, wordsBytes [BitVec.ofNat 32 ((if st.xsync then 1 else 0) + 2 ^ 8 * g.length + 2 ^ 16 * min st.failed.length 0xFFFF)]),
     (0x08, (g.take 7).flatten),
     (0x40, (st.failed.take 4).flatMap failBytes)]

/-- Bytes 0 to 0xAFFF of a save area. -/
def saveLow (s : State) (core : Nat) (st : Strand) (full : Bool) : List Byte :=
  let m := saveMask s st full
  let g := st.cgen
  let tiles := saveTiles st m
  layout 0 0xB000
    [(0x0, saveHeader st full),
     (0x100, [Engine.S, .V, .M, .C].flatMap fun e => wordsBytes (trapWords e (streamOf st e).tr)),
     (0x180, tileSlots st tiles),
     (0x200, (List.range 32).flatMap fun i =>
       let x := mapGet {} st.r.x i
       toBytes 8 (if covered m 0 i g x.gen then x.val else 0#64)),
     (0x300, (List.range 16).flatMap fun i =>
       let x := mapGet {} st.r.c i
       toBytes 16 (if covered m 32 i g x.gen then x.val else 0#128)),
     (0x400, saveSys s core st full),
     (0x800, (List.range 8).flatMap fun i =>
       let x := mapGet {} st.r.sx (24 + i)
       toBytes 8 (if full && x.gen == g then x.val else 0#64)),
     (0x840, liveBits st m full tiles),
     (0x880, st.binds.flatMap bindBytes),
     (0xA80, if full then st.uipend.flatMap (fun n => toBytes 2 (BitVec.ofNat 16 n)) else []),
     (0xB80, groupBytes s st),
     (0xC00, st.r.byp.flatMap fun b => toBytes 512 b.val),
     (0x2000, (List.range 32).flatMap fun i =>
       let x := mapGet {} st.r.p i
       toBytes 128 (if covered m 64 i g x.gen then x.val else 0#1024)),
     (0x3000, (List.range 64).flatMap fun i =>
       let x := mapGet {} st.r.v i
       toBytes 512 (if covered m 128 i g x.gen then x.val else 0#4096))]

/-- The scratchpad granules current for a strand. -/
def liveGrans (s : State) (core : Nat) (st : Strand) : List (Nat × Granule) :=
  s.spad.filterMap fun p =>
    if p.1 / spadGrans = core ∧ p.2.gen = st.cgen then some (p.1 % spadGrans, p.2.val) else none

/-- Bytes 0xD000 to 0xFFFF: the scratchpad's live map and the held copies. -/
def saveHigh (st : Strand) (live : List Nat) : List Byte :=
  layout 0xD000 0x10000
    [(0xD000, (List.range 512).map fun b =>
       BitVec.ofNat 8 (packNat 1 ((List.range 8).map fun i => if live.contains (8 * b + i) then 1 else 0))),
     (0xE000, (List.range 128).flatMap fun k =>
       match st.copies.find? fun c => c.slot == k with
       | some c => toBytes 32 (BitVec.ofNat 256 (1 + 2 ^ 32 * c.done + 2 ^ 64 * c.idx))
       | none => List.replicate 32 0#8)]

/-- The header of a retired member's save: every stream Ended (R321). -/
def retiredLow (st : Strand) (full : Bool) : List Byte := layout 0 0xB000 [(0, saveHeader st full)]

/-- The rows and planes of a strand are held for its suspended context (R204). -/
def holdContext (s : State) (core : Nat) (st : Strand) : State := holdRows (holdPlanes s core st) core st

/-- The tiles of a save stay in the core's tile store, held (R82). -/
def holdTiles (s : State) (core : Nat) (st : Strand) (tiles : List Nat) : State :=
  tiles.foldl (fun s t =>
    let v := mapGet {} st.r.t t
    if v.gen = st.cgen then
      let h : HeldTile := { gen := v.gen, fmt := v.fmt, val := v.val, own := ownerOf st, dirty := v.dirty }
      { s with heldTiles := mapPut s.heldTiles (tileKey core t) h }
    else s) s

/-- Granules written at their places; false where some write is refused. -/
def physGrans (s : State) (die base : Nat) : List (Nat × Granule) → Bool × State
  | [] => (true, s)
  | p :: r =>
    let w := physWrite s die (base + 64 * p.1) (granBytes p.2 0 64)
    let z := physGrans w.2 die base r
    (w.1 && z.1, z.2)

/-- Blocks written at their addresses in order; false where some write is refused. -/
def physBlocks (s : State) (die : Nat) : List (Nat × List Byte) → Bool × State
  | [] => (true, s)
  | p :: r =>
    let w := physBlock s die p.1 p.2
    let z := physBlocks w.2 die r
    (w.1 && z.1, z.2)

/-- The planes of a strand that a save names live: those current for it, and those that stand in its save area already (R204). -/
def savedPlanes (s : State) (core : Nat) (st : Strand) : Bool × Bool :=
  let lv := planesLive s core st
  (lv.1 || st.planeOut.getLsbD 0, lv.2 || st.planeOut.getLsbD 1)

/-- The writes of one strand's save, by its core's die (DESIGN CHOICE, log entry 78), MAGIC last (R321, R322); false where some
write is refused. Bytes that Tables 9.8 and 14.11 do not list are zero. -/
def writeSave (s : State) (core : Nat) (st : Strand) (full : Bool) : Bool × State :=
  let a := saveAddr s (ownerOf st)
  let die := dieOf core
  let live := liveGrans s core st
  let lv := savedPlanes s core st
  let zero := fun (n : Nat) => List.replicate n 0#8
  let w1 := physBlocks s die
    [(a, if st.retired then retiredLow st full else saveLow s core st full),
     (a + 0xD000, saveHigh st (live.map Prod.fst)),
     (a + imageOff, imageTables st lv.1 lv.2 (rowLive s core st) ++ zero 0x380),
     (a + imageOff + 0x1400, zero 0xC00),
     (a + 0xF0000, zero 0x10000)]
  let w2 := physGrans w1.2 die (a + 0x10000) live
  if w1.1 && w2.1 then physWrite w2.2 die a (toBytes 4 0x53564153#32) else (false, w2.2)

/-- A stream as a save keeps it: it waits for nothing. -/
def quietStream (x : Stream) : Stream :=
  { x with
    st := if x.st = .ended then SState.ended else .issuing
    want := none }

/-- The tokens of landings into a strand that the tier engine holds for want of room (R62). -/
def heldTokens (s : State) (st : Strand) : List ExtPush :=
  s.te.flatMap fun c => (c.2.moves.filter fun m => m.token && m.sid == st.sid).filterMap fun m =>
    (mapFind st.zones m.a.z.toNat).map fun z => { q := zoneQueue z.ec, know := {} }

/-- What a save keeps of a strand beside its save area: what the area has no layout for. A safe point leaves no zone, no
handler and no completion pending (R79, R241, R269); a token that a landing could not push is pushed once there is room. -/
def keepStrand (s : State) (st : Strand) (full : Bool) : Strand :=
  let st1 := { st with
    r := {}
    zones := []
    ext := st.ext ++ heldTokens s st
    safe := none
    planeOut := 0#2
    planes := []
    ss := st.ss.map fun p => (p.1, quietStream p.2) }
  if full then st1 else { st1 with
    uipend := []
    uiArrived := false
    sys := { st1.sys with uiepc := 0 } }

/-- One strand leaves its core for its save area (R321 to R323). -/
def saveStrand (s : State) (core : Nat) (full : Bool) : Bool × State :=
  let s1 := leaveArray s core
  match strandAt s1 core with
  | none => (true, s1)
  | some st =>
    let w := writeSave s1 core st full
    let s2 := if st.retired then w.2
      else holdTiles (holdContext w.2 core st) core st (saveTiles st (saveMask w.2 st full))
    let s3 := modCrew (leaveCore s2 core st) st.crew fun c => { c with
      saved := mapPut c.saved st.rank (keepStrand s2 st full) }
    (w.1, { s3 with strands := mapErase s3.strands core })

/-- The strands of a crew saved one after another; false where some write was refused. -/
def saveRanks (s : State) (full : Bool) : List (Nat × Strand) → Bool × State
  | [] => (true, s)
  | p :: r =>
    let a := saveStrand s p.1 full
    let b := saveRanks a.2 full r
    (a.1 && b.1, b.2)

/-- The queue of a crew's launch. -/
def crewQueue (s : State) (c : Crew) : Nat := ((mapFind s.launches c.launch).map (·.q)).getD 0

/-- A crew is saved whole and leaves its cores (R321 to R324, Table 14.8): Waiting after a safe point, Suspended after an
eviction. -/
def saveCrew (s : State) (full : Bool) (k : Nat) : State :=
  match crewAt s k with
  | none => s
  | some c =>
    let w := saveRanks (modCrew s k fun c => { c with
      lost := []
      saved := [] }) full (strandsOf s k)
    let s1 := if w.1 then w.2 else report w.2 (crewDie k) 5 (crewSlot k) (crewQueue s c) 0 0 0
    settleLaunch (modCrew s1 k fun c => { c with
      st := if full then CrewState.suspended else .waiting
      full := full
      preq := none
      plim := 0
      dueRep := false
      thermal := false
      savedCores := c.cores
      cores := []
      incomplete := !w.1 }) c.launch

/-! ## Safe points and evictions -/

/-- Whether a landing is being written into a zone of a strand (R269). -/
def landingUnder (s : State) (st : Strand) : Bool :=
  s.te.any fun c => c.2.moves.any fun m => m.a.dtier == 3#2 && m.status.isNone && decide (0 < m.written) && m.sid == st.sid

/-- Whether the streams of a strand at its safe point are halted and drained, its lease ended, and its stores performed (R269,
R319, R321). -/
def strandSafe (s : State) (core : Nat) (st : Strand) : Bool :=
  st.stores.isEmpty &&
  (st.retired ||
    (st.safe.isSome && st.copies.isEmpty && matsDone st && !holdsLease s core && !landingUnder s st &&
      [Engine.S, .V, .M, .C].all fun e => !awaits (streamOf st e)))

/-- Whether a crew has reached its safe point (R320). -/
def crewSafe (s : State) (k : Nat) : Bool :=
  match crewAt s k with
  | some c => c.st == .stopping && (strandsOf s k).all fun p => strandSafe s p.1 p.2
  | none => false

/-- SAFE_POINT_SAVE for a gang all of whose crews have reached their safe points (R318, R320). -/
def savePoint (s : State) (k : Nat) : State :=
  let g := gangKeys s k
  if s.thermal.isEmpty && !g.isEmpty && g.all (crewSafe s) then g.foldl (fun s k => saveCrew s false k) s else s

/-- Whether everything issued in a strand has finished, trapped or is held (R77, items 2 and 3). -/
def strandQuiet (st : Strand) : Bool :=
  matsDone st && st.copies.all (fun c => c.held || c.moved) && [Engine.S, .V, .M, .C].all fun e => !awaits (streamOf st e)

/-- Whether a crew under eviction can be saved: its fault entry is written, its stores are performed. -/
def crewEvictable (s : State) (k : Nat) : Bool :=
  match crewAt s k with
  | some c => c.st == .evicting && !c.entryDue && (strandsOf s k).all fun p => strandQuiet p.2 && p.2.stores.isEmpty
  | none => false

/-- The full save of a gang under eviction, once it can be made (R324). -/
def evictReady (s : State) (k : Nat) : State :=
  let g := gangKeys s k
  if s.thermal.isEmpty && !g.isEmpty && g.all (crewEvictable s) then g.foldl (fun s k => saveCrew s true k) s else s

/-- R320, R321: the crew of a slot is saved; a crew under eviction too, once its stores are performed. -/
def execSafePointSave (die slot : Nat) (s : State) : Out :=
  .next (evictReady (savePoint s (crewKey die slot)) (crewKey die slot))

/-- R324: a Frozen crew, and its gang with it, is evicted; ignored otherwise. -/
def execCpEvict (die slot : Nat) (s : State) : Out :=
  let k := crewKey die slot
  match crewAt s k with
  | some c =>
    if c.st = .frozen then
      let f := fun (s : State) (k : Nat) => modCrew (freezeCrew s k) k fun c =>
        { c with st := if c.st = .frozen then CrewState.evicting else c.st }
      .next (evictReady ((gangKeys s k).foldl f s) k)
    else .next s
  | none => .next s

/-! ## Resumption (R77, R324) -/

/-- A stream resumes: its trap record has set where and how it stands (R77, R396). -/
def resumeStream (x : Stream) : Stream := { x with tr := none }

/-- The streams and held copies of a strand resume. -/
def resumeStrand (st : Strand) : Strand :=
  { st with
    ss := st.ss.map fun p => (p.1, resumeStream p.2)
    copies := st.copies.map fun c => { c with held := false } }

/-- Whether some stream of a crew holds a trap record. -/
def hasRecord (s : State) (k : Nat) : Bool :=
  (strandsOf s k).any fun p => p.2.ss.any fun x => x.2.tr.isSome

/-- The streams and held copies of a crew's strands resume. -/
def resumeStrands (s : State) (k : Nat) : State :=
  { s with strands := s.strands.map fun p => if p.2.crew = k then (p.1, resumeStrand p.2) else p }

/-- A frozen crew goes on in the state it remembers, and takes back its rows; a pending pre-emption makes it Stopping (R310). One
whose strands have all retired ends (R312). -/
def thaw (s : State) (k : Nat) : State :=
  let s1 := modCrew (resumeStrands s k) k fun c => { c with
    st := if c.preq.isSome then CrewState.stopping else c.remembered
    traps := []
    thermal := false
    resume := false }
  endCrew ((strandsOf s1 k).foldl (fun s p => settle (takeRows s p.1 p.2) p.1) s1) k

/-- R77: a Frozen crew resumes. During a thermal event it stays in place and resumes with the event's end (R368). -/
def resumeCrew (s : State) (k : Nat) : State :=
  if s.thermal.isEmpty then thaw s k
  else
    modCrew (resumeStrands s k) k fun c => { c with
      thermal := true
      traps := []
      resume := false }

/-- R77, R324: a Frozen crew resumes, once its fault entry is written; an evicted one waits to be restored. -/
def execCpResume (die slot : Nat) (s : State) : Out :=
  let k := crewKey die slot
  match crewAt s k with
  | none => .next s
  | some c =>
    if c.st = .frozen then
      .next (if c.entryDue then modCrew s k fun c => { c with resume := true } else resumeCrew s k)
    else if c.st = .suspended ∧ c.full = true then
      .next (settleLaunch (modCrew s k fun c => { c with st := .waiting }) c.launch)
    else .next s

/-! ## Fault queue entries (R235) -/

/-- The streams of a crew that hold records, in ascending rank and stream order. -/
def crewRecords (s : State) (k : Nat) : List (Nat × Engine × TrapRec) :=
  (List.range 16).flatMap fun r =>
    match member s k r with
    | none => []
    | some m => [Engine.S, .V, .M, .C].filterMap fun e => (streamOf m.2 e).tr.map fun t => (r, e, t)

/-- A record of a crew by rank and stream number. -/
def recordAt (l : List (Nat × Engine × TrapRec)) (p : Nat × Nat) : Option (Nat × Engine × TrapRec) :=
  l.find? fun x => x.1 == p.1 && x.2.1.num == p.2

/-- The entry of a freeze: header (Table 11.10) and records. -/
def entryWords (s : State) (k : Nat) (c : Crew) : List Word :=
  let l := crewRecords s k
  let o := c.traps.filterMap (recordAt l)
  let w := fun (n : Nat) => BitVec.ofNat 32 n
  let h0 := match o with
    | (r, e, t) :: _ => e.num * 2 ^ 20 + r * 2 ^ 16 + t.cause.code * 2 ^ 8
    | [] => 0
  let mem := (o.find? fun x => x.2.2.cause.isPort).bind fun x => x.2.2.fault
  let h2 := match mem with
    | some f => [w (f.obj % 2 ^ 24), w (f.ogen % 2 ^ 16), w f.off, w (f.off / 2 ^ 32 % 2 ^ 8), w f.page]
    | none => List.replicate 5 0#32
  [w (h0 + l.length + if mem.isSome then 2 ^ 22 else 0), w (c.space % 512 * 2 ^ 12 + crewSlot k)] ++ h2 ++
    List.replicate 9 0#32 ++ l.flatMap fun x => trapWords x.2.1 (some x.2.2)

/-- Whether the freeze of a crew has settled (R77, item 4). -/
def crewQuiet (s : State) (k : Nat) : Bool := (strandsOf s k).all fun p => strandQuiet p.2

/-- Pieces of 32 bytes written into a ring of 2^size bytes from a count on. -/
def ringWrite (s : State) (die base size pos : Nat) : List (List Byte) → State
  | [] => s
  | b :: r => ringWrite (physWrite s die (base + pos % 2 ^ size) b).2 die base size (pos + 32) r

/-- FAULT_ENTRY (R77, R235): the one entry of a freeze is written to the home die's fault queue when it has room; a CP_RESUME
that came before it takes effect. -/
def execFaultEntry (die slot : Nat) (s : State) : Out :=
  let k := crewKey die slot
  match crewAt s k with
  | none => .next s
  | some c =>
    let d := dieAt s die
    let b := wordsBytes (entryWords s k c)
    if c.entryDue ∧ (c.st = .frozen ∨ c.st = .evicting) ∧ crewQuiet s k = true ∧
        (d.fqTail - d.fqHead).toNat + b.length ≤ 2 ^ d.fqSize then
      let s1 := ringWrite s die d.fqBase d.fqSize d.fqTail.toNat (chunks 32 (b.length / 32 + 1) b)
      let s2 := modCrew (modDie s1 die fun d => { d with fqTail := d.fqTail + BitVec.ofNat 32 b.length }) k fun c =>
        { c with entryDue := false }
      .next (if c.resume ∧ c.st = .frozen then resumeCrew s2 k else s2)
    else .next s

/-! ## Reading a save area -/

/-- What a restore reads of one strand's save area. -/
structure SaveImg where
  low : List Byte
  high : List Byte
  tab : List Byte
  spad : List (Nat × Granule) := []
  tiles : List (Nat × TBits) := []
  rows : List (Nat × VBits) := []
  planes : FMap Plane := []
deriving Repr

/-- A block of bytes read by physical address. -/
def readBlock (s : State) (die a n : Nat) : Option (List Byte) × State :=
  let r := physReadAll s die a (n / 64)
  (r.1.map fun l => l.flatMap (granBytes · 0 64), r.2)

/-- Blocks of `n` bytes of a list read at their places. -/
def readBlocks (s : State) (die base n : Nat) : List Nat → Option (List (Nat × List Byte)) × State
  | [] => (some [], s)
  | k :: r =>
    match readBlock s die (base + n * k) n with
    | (some b, s1) =>
      let z := readBlocks s1 die base n r
      (z.1.map fun l => (k, b) :: l, z.2)
    | (none, s1) => (none, s1)

/-- The state of a tile slot. -/
def slotState (low : List Byte) (t : Nat) : Nat := numAt low (0x188 + 16 * t) 8

/-- The objects of a saved strand that were lost, by the core it left (R82, R204). -/
def lostTile (lost : List HeldObj) (old t : Nat) : Bool := lost.contains (.tile old t)
/-- Plane images of a save area read; none where some read is refused. -/
def readPlanes (s : State) (die : Nat) (o : Owner) : List Nat → Option (FMap Plane) × State
  | [] => (some [], s)
  | n :: r =>
    match readPlane s die o n with
    | (some p, s1) =>
      let z := readPlanes s1 die o r
      (z.1.map fun m => mapPut m n p, z.2)
    | (none, s1) => (none, s1)

/-- A lost row. -/
def lostRow (lost : List HeldObj) (old r : Nat) : Bool := lost.contains (.row (quadOf old) r)

/-- Reads a save area, by a die: none where a read is refused. `tiles`, `rows` and `planes` are those that stand in place, `lost`
those that the command processor's record names lost for a strand that left core `old`. -/
def readSave (s : State) (die : Nat) (o : Owner) (lost : List HeldObj) (old : Nat) (tiles rows planes : List Nat) :
    Option SaveImg × State :=
  let a := saveAddr s o
  match readBlock s die a 0xB000 with
  | (none, s1) => (none, s1)
  | (some low, s1) =>
    match readBlock s1 die (a + 0xD000) 0x3000 with
    | (none, s2) => (none, s2)
    | (some high, s2) =>
      match readBlock s2 die (a + imageOff) 0xC80 with
      | (none, s3) => (none, s3)
      | (some tab, s3) =>
        let ts := (List.range 8).filter fun t =>
          (slotState low t == 1 || slotState low t == 2) && !tiles.contains t && !lostTile lost old t
        let rs := (List.range 1024).filter fun r => rowBit tab r && !rows.contains r && !lostRow lost old r
        let gs := (List.range 4096).filter fun g => (high.getD (g / 8) 0#8).getLsbD (g % 8)
        let g := readBlocks s3 die (a + 0x10000) 64 gs
        let t := readBlocks g.2 die (a + 0xB000) 1024 ts
        let r := readBlocks t.2 die (a + imageOff + 0x20000) 512 rs
        let ps := [false, true].filter fun b => (tab.getD 8 0#8).getLsbD (planeNum b) && !planes.contains (planeNum b) &&
          !lost.contains (.plane (quadOf old) b)
        let p := readPlanes r.2 die o (ps.map planeNum)
        match g.1, t.1, r.1, p.1 with
        | some gl, some tl, some rl, some pl =>
          (some { low := low, high := high, tab := tab, spad := gl.map fun p => (p.1, ofBytes 512 p.2)
                  tiles := tl.map fun p => (p.1, ofBytes 8192 p.2), rows := rl.map fun p => (p.1, ofBytes 4096 p.2), planes := pl }, p.2)
        | _, _, _, _ => (none, p.2)

/-! ## Installing -/

/-- The system registers that a restore takes from the save area (Table 14.11); a tile that is lost is unconfigured (R82). -/
def sysFrom (low : List Byte) (gone : Nat → Bool) (y : SysRegs) : SysRegs :=
  let w := fun (n : Nat) => (ofBytes 64 ((low.drop (0x400 + 8 * n)).take 8) : BitVec 64)
  let t32 := fun (b n : Nat) => (List.range n).foldl (fun (m : FMap (BitVec 32)) i =>
    mapSet 0#32 m i ((w (b + i)).setWidth 32)) []
  { y with
    rmode := (w 0x10).setWidth 5
    vevt := (w 0x11).setWidth 4
    rotsz := (w 0x12).setWidth 2
    vrb := (w 0x13).setWidth 5
    vlc := (w 0x14).setWidth 32
    vec := (w 0x15).setWidth 32
    tshape := (List.range 8).foldl (fun m t =>
      mapSet 0#17 m t (if slotState low t = 3 ∨ gone t = true then 0#17 else BitVec.ofNat 17 (numAt low (0x180 + 16 * t) 8))) []
    amax := t32 0x20 4
    amaxst := (w 0x24).setWidth 4
    uivec := (w 0x30).setWidth 32
    uiepc := (w 0x31).setWidth 32
    uistat := (w 0x32).setWidth 32
    tkp := (List.range 15).foldl (fun m i => mapSet 0#32 m (i + 1) ((w (0x41 + i)).setWidth 32)) []
    mupc := w 0x58
    mrow := w 0x59
    leaseRun := (w 0x60).setWidth 9
    mlc := (w 0x62).setWidth 32
    clc := (w 0x63).setWidth 32
    bsgA := (w 0x64).setWidth 4
    bsgW := (w 0x65).setWidth 4
    seq := (w 0x66).setWidth 32
    fenceObj := w 0x70
    fenceOff := w 0x71 }

/-- A file of registers from a save area: those whose live bit is set, under the new generation. -/
def fileFrom {α : Type} [DecidableEq α] (d : α) (low : List Byte) (bitOff n off size : Nat) (f : Nat → List Byte → α) :
    FMap α :=
  (List.range n).foldl (fun m i =>
    if (low.getD (bitOff + i / 8) 0#8).getLsbD (i % 8) then mapSet d m i (f i ((low.drop (off + size * i)).take size))
    else m) []

/-- A 4-bit tag of a table of tags. -/
def tagFrom (low : List Byte) (off i : Nat) : BitVec 4 := BitVec.ofNat 4 (numAt low (off + i / 2) 1 / 16 ^ (i % 2))

/-- The registers of a save area under a generation, tiles left out. -/
def regsFrom (low : List Byte) (g : Gen) : Regs :=
  let held := fun (i : Nat) => (BitVec.ofNat 32 (numAt low 0x24 4)).getLsbD (12 + i)
  { x := fileFrom {} low 0x840 32 0x200 8 fun _ b => { gen := g, val := ofBytes 64 b }
    c := fileFrom {} low 0x844 16 0x300 16 fun _ b => { gen := g, val := ofBytes 128 b }
    p := fileFrom {} low 0x848 32 0x2000 128 fun _ b => { gen := g, val := ofBytes 1024 b }
    v := fileFrom {} low 0x84C 64 0x3000 512 fun i b => { gen := g, fmt := tagFrom low 0x854 i, val := ofBytes 4096 b }
    sx := (fileFrom {} low 0x847 8 0x800 8 fun _ b => ({ gen := g, val := ofBytes 64 b } : XVal)).map fun p =>
      (p.1 + 24, p.2)
    byp := ((List.range 3).filter held).map fun i =>
      { fmt := tagFrom low 0x24 i, val := ofBytes 4096 ((low.drop (0xC00 + 512 * i)).take 512) } }

/-- A trap record of a save area: the words as it gives them (Table 3.11), the cause and the access as the command processor's
record names them. -/
def recordFrom (low : List Byte) (e : Nat) (r : TrapRec) : TrapRec :=
  let w := fun (i : Nat) => BitVec.ofNat 32 (numAt low (0x100 + 32 * e + 4 * i) 4)
  let h := w 0
  { r with
    detail := bits h 16 16
    pushp := h.getLsbD 15
    mid := h.getLsbD 11
    popped := h.getLsbD 10
    addr := w 1
    gaddr := w 2
    words := (List.range (fieldOf h 12 3)).map fun i => w (3 + i) }

/-- A stream at its saved point (R326): its counter, unless it has still to push, its resume state, its trap record; the matrix
stream goes on at MUPC and MROW (R205). -/
def streamFrom (low : List Byte) (e : Nat) (x : Stream) : Stream :=
  let w := BitVec.ofNat 32 (numAt low 0x20 4)
  { x with
    pc := if fieldOf w (12 + 2 * e) 2 = 2 then x.pc else BitVec.ofNat 32 (numAt low (0x10 + 4 * e) 4)
    st := if fieldOf w (3 * e) 3 = 4 then .ended else .issuing
    popped := fieldOf w (12 + 2 * e) 2 == 1 || (fieldOf w (12 + 2 * e) 2 == 2 && x.popped)
    tr := x.tr.map (recordFrom low e)
    opnd := x.opnd.map fun m => { m with
      phase := numAt low (0x400 + 8 * 0x58) 8
      row := numAt low (0x400 + 8 * 0x59) 8 } }

/-- The bindings of a save area, each with its place among the scalar stream's accesses as the record names it (R102). -/
def bindsFrom (low : List Byte) (l : List Binding) : List Binding :=
  (List.range 16).filterMap fun i =>
    let a := 0x880 + 32 * i
    let len := numAt low (a + 24) 8
    if len = 0 ∧ l.length ≤ i then none
    else some { idx := (l[i]?.map fun b => b.idx).getD 0, name := ofBytes 64 ((low.drop a).take 8), obj := numAt low (a + 8) 8
                base := numAt low (a + 16) 8, len := len }

/-- The completions that UIPEND holds in a save area, in order; none after a safe point (R79). -/
def uipendFrom (low : List Byte) : List Nat :=
  (List.range (min 128 (numAt low (0x400 + 8 * 0x33) 8))).map fun i => numAt low (0xA80 + 2 * i) 2

/-- A held copy with the progress of a save area. -/
def copyFrom (high : List Byte) (c : CopyRec) : CopyRec := { c with done := numAt high (0x1000 + 32 * c.slot + 4) 4 }

/-- The token counts of a save area. -/
def toksFrom (low : List Byte) (t : FMap (List Know)) : FMap (List Know) :=
  (List.range 16).foldl (fun m q =>
    let n := numAt low (0x28 + q / 2) 1 / 16 ^ (q % 2) % 16
    let l := mapGet [] t q
    mapSet [] m q (l.take n ++ List.replicate (n - l.length) ({} : Know))) []

/-- The tiles of a strand restored on a core: taken back in place, or as read (R82). -/
def tilesFrom (s : State) (core : Nat) (o : Owner) (img : SaveImg) (g : Gen) : FMap TVal :=
  (List.range 8).foldl (fun m t =>
    match (mapFind s.heldTiles (tileKey core t)).filter fun h => h.own == o, mapFind img.tiles t with
    | some h, _ => mapSet {} m t { gen := g, fmt := h.fmt, val := h.val, dirty := h.dirty }
    | none, some v => mapSet {} m t { gen := g, fmt := tagFrom img.low 0x874 t, val := v }
    | none, none => m) []

/-- A restored strand, its matrix tables installed. -/
def strandFrom (s : State) (core old : Nat) (lost : List HeldObj) (st : Strand) (o : Owner) (img : SaveImg) (g : Gen) :
    Strand :=
  let st1 := { st with
    cgen := g
    migrations := if core = old then st.migrations else satInc32 st.migrations }
  if st.retired then st1
  else
    tablesFrom { st1 with
      r := { regsFrom img.low g with t := tilesFrom s core o img g }
      sys := sysFrom img.low (lostTile lost old) st.sys
      toks := toksFrom img.low st.toks
      binds := bindsFrom img.low st.binds
      uipend := uipendFrom img.low
      xsync := (img.low.getD 0xB80 0#8).getLsbD 0
      copies := st.copies.map (copyFrom img.high)
      ss := st.ss.map fun p => (p.1, streamFrom img.low p.1 p.2) } img.tab

/-- The rows held for other contexts that a strand's regions cover are written out (R204, R326). -/
def flushCovered (s : State) (core : Nat) (o : Owner) (st : Strand) : State :=
  (quadAt s (quadOf core)).rows.foldl (fun s p =>
    if p.2.held.isSome ∧ p.2.held ≠ some o ∧ rowIn st p.1 = true then writeOutRow s (quadOf core) p.1 else s) s

/-- The rows of a restored strand: taken back in place or installed as read; rows held for other contexts that its regions cover
are written out first (R204, R326). -/
def installRows (s : State) (core : Nat) (o : Owner) (img : SaveImg) (g : Gen) : State :=
  let c := BitVec.ofNat 2 (coreInQuad core)
  let s0 := ((strandAt s core).map (flushCovered s core o)).getD s
  let s1 := img.rows.foldl (fun s p =>
    modQuad s (quadOf core) fun q => { q with
      rows := mapSet {} q.rows p.1 { gen := g, core := c, val := p.2 } }) s0
  modQuad s1 (quadOf core) fun q => { q with
    rows := q.rows.map fun p =>
      if p.2.held = some o then (p.1, { p.2 with gen := g, core := c, held := none }) else p }

/-- The tiles that a core holds for other contexts are written out before a restore installs its own (R82, R326). -/
def flushForeign (s : State) (core : Nat) (o : Owner) : State :=
  iter 8 s fun t s =>
    match mapFind s.heldTiles (tileKey core t) with
    | some h => if h.own = o then s else writeOutTile s core t
    | none => s

/-- The planes of a restored strand: held in place until its next grant, or, written out, installed then as the restore has read
them. -/
def installPlanes (s : State) (core : Nat) (o : Owner) (img : SaveImg) (g : Gen) : State :=
  let c := BitVec.ofNat 2 (coreInQuad core)
  let out := fun (n : Nat) => if (mapFind img.planes n).isSome then 2 ^ n else 0
  let s1 := modQuad s (quadOf core) fun q =>
    let f := fun (p : Plane) => if p.held = some o then { p with gen := g, core := c } else p
    { q with
      pa := f q.pa
      pb := f q.pb }
  modStrand s1 core fun st => { st with
    planeOut := BitVec.ofNat 2 (out 0 + out 1)
    planes := img.planes }

/-- One rank of a crew is restored on a core under a new generation (R245, R326). -/
def installRank (s : State) (k : Nat) (lost : List HeldObj) (old core rank : Nat) (st : Strand) (img : SaveImg) : State :=
  let o : Owner := { die := crewDie k, slot := crewSlot k, rank := rank }
  let a := allocate (flushForeign s core o) core
  let s1 := setStrand a.2 core (strandFrom a.2 core old lost st o img a.1)
  let s2 := { s1 with
    cores := mapMod {} s1.cores core fun c => { c with owner := (crewAt s k).map (·.space) }
    spad := img.spad.foldl (fun m p => mapSet {} m (core * spadGrans + p.1) { gen := a.1, val := p.2 }) s1.spad
    heldTiles := s1.heldTiles.filter fun p => p.2.own != o }
  installPlanes (installRows s2 core o img a.1) core o img a.1

/-- Held objects of a context that stand elsewhere than its new core and array are written out (R82, R204, R326). -/
def flushElsewhere (s : State) (o : Owner) (core : Nat) : State :=
  let s1 := s.heldTiles.foldl (fun s p =>
    if p.2.own = o ∧ p.1 / 8 ≠ core then writeOutTile s (p.1 / 8) (p.1 % 8) else s) s
  s1.quads.foldl (fun s p =>
    if p.1 = quadOf core then s
    else
      let s2 := p.2.rows.foldl (fun s r => if r.2.held = some o then writeOutRow s p.1 r.1 else s) s
      let pl := fun (s : State) (b : Bool) =>
        if (planeOf (quadAt s p.1) b).held = some o then writeOutPlane s p.1 b else s
      pl (pl s2 false) true) s1

/-- The tiles, rows and planes of a context that stand in place for a core. -/
def inPlace (s : State) (o : Owner) (core : Nat) : List Nat × List Nat × List Nat :=
  ((List.range 8).filter fun t => ((mapFind s.heldTiles (tileKey core t)).map fun h => h.own == o).getD false,
   ((quadAt s (quadOf core)).rows.filter fun p => p.2.held == some o).map Prod.fst,
   ([false, true].filter fun b => (planeOf (quadAt s (quadOf core)) b).held == some o).map planeNum)

/-- R327: why a restore fails, as its report's DETAIL. -/
inductive RestoreRes where
  | ok (imgs : List SaveImg)
  | fail (detail : Nat)

/-- The save areas of a crew's ranks read, with their MAGIC and VERSION checked. -/
def readRanks (s : State) (k : Nat) (c : Crew) : List (Nat × Nat) → RestoreRes × State
  | [] => (.ok [], s)
  | (rank, core) :: r =>
    let o : Owner := { die := crewDie k, slot := crewSlot k, rank := rank }
    let s0 := flushElsewhere s o core
    let here := inPlace s0 o core
    let a := readSave s0 (dieOf core) o (((crewAt s0 k).map (·.lost)).getD []) (c.savedCores.getD rank 0) here.1
      here.2.1 here.2.2
    match a.1 with
    | none => (.fail 2, a.2)
    | some img =>
      if numAt img.low 0 4 ≠ 0x53564153 ∨ numAt img.low 4 4 ≠ 1 then (.fail 1, a.2)
      else
        match readRanks a.2 k c r with
        | (.ok l, s1) => (.ok (img :: l), s1)
        | x => x

/-- R327: a restore that fails is reported, and the crew is Suspended. -/
def failRestore (s : State) (k : Nat) (c : Crew) (detail : Nat) : State :=
  settleLaunch (report (modCrew s k fun c => { c with st := .suspended }) (crewDie k) 7 (crewSlot k) (crewQueue s c) detail 0 0)
    c.launch

/-- A restored crew: it runs, or stands Frozen where its save holds trap records (Table 14.8). -/
def restored (c : Crew) (cores : List Nat) (frozen : Bool) (run now : Nat) : Crew :=
  { c with
    st := if frozen then .frozen else .running
    remembered := .running
    full := false
    cores := cores
    saved := []
    savedCores := []
    lost := []
    since := now
    progress := now
    run := run
    runRep := false
    stallRep := false }

/-- R326, R327: a crew is restored on its cores, one per rank; or the DETAIL of its failure, with the state its reads left. -/
def restoreCrew (s : State) (k : Nat) (c : Crew) (cores : List Nat) : Except (Nat × State) State :=
  let ranks := (List.range cores.length).zip cores
  match (if c.incomplete then (.fail 3, s) else readRanks s k c ranks) with
  | (.fail d, s1) => .error (d, s1)
  | (.ok imgs, s1) =>
    let lost := ((crewAt s1 k).map (·.lost)).getD []
    let s2 := (ranks.zip imgs).foldl (fun s p =>
      match mapFind c.saved p.1.1 with
      | some st => installRank s k lost (c.savedCores.getD p.1.1 0) p.1.2 p.1.1 st p.2
      | none => s) s1
    let frozen := hasRecord s2 k
    let s3 := { modCrew s2 k (fun c => restored c cores frozen s.nextStrand s.frame.toNat) with nextStrand := s2.nextStrand + 1 }
    let s4 := if frozen then s3 else endCrew (resumeStrands s3 k) k
    .ok (settleLaunch (modLaunch s4 c.launch fun l => { l with lastPlace := s.frame.toNat }) c.launch)

/-! ## Places for a saved crew (R325) -/

/-- The regions of a saved strand. -/
def savedRegions (c : Crew) (rank : Nat) : FMap Region := ((mapFind c.saved rank).map (·.regions)).getD []

/-- Whether a configured region of a strand on the quad of a core overlaps a saved region (R325). -/
def regionsBlock (s : State) (core : Nat) (m : FMap Region) : Bool :=
  s.strands.any fun p => quadOf p.1 == quadOf core && p.2.regions.any fun g => m.any fun h =>
    rangesMeet g.2.base (g.2.rows * g.2.slots) h.2.base (h.2.rows * h.2.slots)

/-- The clusters a saved crew may be restored on: its copy's, or the home die's and then the others' (R325). -/
def restoreClusters (s : State) (k : Nat) (c : Crew) : List Nat :=
  match (mapFind s.launches c.launch).bind (·.mask) with
  | some _ => [c.place]
  | none => dieClusters s (crewDie k) ++ ((List.range 4).filter (· != crewDie k)).flatMap (dieClusters s)

/-- Whether saved regions of two ranks that would stand on one quad overlap. -/
def ranksMeet (c : Crew) (l : List (Nat × Nat)) : Bool :=
  l.any fun p => l.any fun q => decide (p.1 < q.1) && quadOf p.2 == quadOf q.2 &&
    (savedRegions c p.1).any fun g => (savedRegions c q.1).any fun h =>
      rangesMeet g.2.base (g.2.rows * g.2.slots) h.2.base (h.2.rows * h.2.slots)

/-- Room for a saved crew on cores of a cluster. -/
def restoreFits (s : State) (c : Crew) (cores : List Nat) : Bool :=
  let l := (List.range cores.length).zip cores
  !ranksMeet c l && l.all fun p => !regionsBlock s p.2 (savedRegions c p.1) && !allocBlocked s p.2

/-- The saved crews of a gang restored one after another at one moment, or none of them: none where one has no room; where one
fails, it alone is Suspended and its failure reported (log entry 24). `base` is the machine before the first, where one has been
restored. -/
def restoreGang (base : Option State) (s : State) : List Nat → Option State
  | [] => some s
  | k :: r =>
    match crewAt s k with
    | none => restoreGang base s r
    | some c =>
      if c.st ≠ .waiting then none
      else
        match findCores s (c.size + 1) (restoreFits s c) (restoreClusters s k c) with
        | some cores =>
          match restoreCrew s k c cores with
          | .ok s1 => restoreGang (some (base.getD s)) s1 r
          | .error (d, s1) => some (failRestore (base.getD s1) k c d)
        | none => none

end Sys2Proof.Machine
end

