-- ==== Sys2Proof/Machine/Dispatcher.lean ====
section
/-! DEFINITION. What a command processor does of its own accord: the choice of the next crew (R313), pre-emption on a
launch's behalf (R315), restores (R325), the watchdog (R317), overdue stops (R320), the tick of a RELEASE_AT (R298). -/
namespace Sys2Proof.Machine
open Sys2Proof

/-! ## The choice of R313 -/

/-- The crew of a launch copy that is placed next: a saved one, or the next of the traversal order. -/
inductive Pick where
  | saved (key : Nat)
  | fresh (copy : Nat)
deriving DecidableEq, Repr

/-- The next crew of each copy of a launch that has one waiting. -/
def picksOf (s : State) (n : Nat) (l : Launch) : List Pick :=
  (List.range (launchPlaces l).length).filterMap fun copy =>
    match (crewsOf s n).find? fun p => p.2.copy == copy && p.2.st == .waiting with
    | some p => some (.saved p.1)
    | none => if mapGet 0 l.next copy < gridSize l.args then some (.fresh copy) else none

/-- The machine after a pick is placed; none where it does not fit. -/
def placePick (s : State) (n : Nat) (p : Pick) : Option State :=
  match p with
  | .saved k => restoreGang none s (gangKeys s k)
  | .fresh copy => placeNew s n copy

/-- W of R313. -/
def waitOf (s : State) (l : Launch) : Nat := s.frame.toNat - l.lastPlace

/-- The effective priority E of R313. -/
def effPri (s : State) (l : Launch) : Nat := min 7 (launchPri s l + waitOf s l / (dieAt s l.die).age.toNat)

/-- Whether launch `a` goes before launch `b`: higher E, then larger W. -/
def goesBefore (s : State) (a b : Launch) : Bool :=
  decide (effPri s b < effPri s a) || (effPri s a == effPri s b && decide (waitOf s b < waitOf s a))

/-- A launch entered in the order of R313. -/
def insLaunch (s : State) (x : Nat × Launch) : List (Nat × Launch) → List (Nat × Launch)
  | [] => [x]
  | y :: r => if goesBefore s x.2 y.2 then x :: y :: r else y :: insLaunch s x r

/-- The launches of a die that have a crew waiting, in the order of R313; a held queue's launches place none (R302). -/
def launchOrder (s : State) (die : Nat) : List (Nat × Launch) :=
  (s.launches.filter fun p => p.2.die == die && p.2.st == .dispatching && !(queueAt s die p.2.q).hold &&
    !(picksOf s p.1 p.2).isEmpty).foldl (fun l x => insLaunch s x l) []

/-- The first pick of a list that fits. -/
def firstPick (s : State) (n : Nat) : List Pick → Option (Pick × State)
  | [] => none
  | p :: r =>
    match placePick s n p with
    | some s1 => some (p, s1)
    | none => firstPick s n r

/-- The first launch of an order whose next crew fits. -/
def firstFit (s : State) : List (Nat × Launch) → Option (Pick × State)
  | [] => none
  | (n, l) :: r =>
    match firstPick s n (picksOf s n l) with
    | some x => some x
    | none => firstFit s r

/-! ## Pre-emption on a launch's behalf (R315) -/

/-- How long a crew has run since its dispatch or restore. -/
def ranFor (s : State) (c : Crew) : Nat := s.frame.toNat - c.since

/-- The base priority of a crew's launch. -/
def crewPri (s : State) (c : Crew) : Nat := ((mapFind s.launches c.launch).map (launchPri s)).getD 0

/-- The crews of a die's command processor that are eligible victims for a launch, on a cluster. -/
def eligible (s : State) (l : Launch) (cl : Nat) : List (Nat × Crew) :=
  s.crews.filter fun p =>
    crewDie p.1 == l.die && p.2.st == .running && p.2.preq.isNone && clusterOf (p.2.cores.headD 0) == cl &&
    (decide (crewPri s p.2 < launchPri s l) || decide ((dieAt s l.die).age.toNat ≤ ranFor s p.2))

/-- A crew entered in the order of victims: ascending base priority, then longest running. -/
def insVictim (s : State) (x : Nat × Crew) : List (Nat × Crew) → List (Nat × Crew)
  | [] => [x]
  | y :: r =>
    if crewPri s x.2 < crewPri s y.2 ∨ (crewPri s x.2 = crewPri s y.2 ∧ ranFor s y.2 < ranFor s x.2) then x :: y :: r
    else y :: insVictim s x r

/-- Victims taken until `n` more cores are free. -/
def takeVictims (n : Nat) : List (Nat × Crew) → List Nat
  | [] => []
  | x :: r => if n = 0 then [] else x.1 :: takeVictims (n - (x.2.size + 1)) r

/-- The victims for a crew of `n` strands: in the first cluster of a list where eligible crews free enough cores. -/
def victimsIn (s : State) (l : Launch) (n : Nat) : List Nat → List Nat
  | [] => []
  | c :: r =>
    let e := eligible s l c
    let free := (freeCores s c).length
    if n ≤ free + (e.map fun p => p.2.size + 1).sum then
      takeVictims (n - free) (e.foldl (fun a x => insVictim s x a) [])
    else victimsIn s l n r

/-- The clusters that a pick's victims may free. -/
def pickClusters (s : State) (l : Launch) : Pick → List Nat
  | .saved k => ((crewAt s k).map fun c => if l.mask.isSome then [c.place] else dieClusters s l.die).getD []
  | .fresh copy => (copyClusters s l copy).1

/-- R315 for the launch that R313 chooses. -/
def preemptFor (s : State) (n : Nat) (l : Launch) : State :=
  match picksOf s n l with
  | [] => s
  | p :: _ =>
    if (dieAt s l.die).preen && effPri s l == 7 && (firstPick s n (picksOf s n l)).isNone &&
        l.victims.all (targetDone s) then
      let ks := ((victimsIn s l (l.args.size.toNat + 1) (pickClusters s l p)).flatMap (gangKeys s)).eraseDups
      let s1 := ks.foldl (fun s k => requestStop s k (dieAt s l.die).plim.toNat) s
      modLaunch s1 n fun l => { l with victims := ks.filterMap fun k => (crewAt s k).map fun c => (k, c.run) }
    else s

/-- A choice of a die's command processor: what R315 asks for its first launch, and the crew placed, if any. -/
def chooseCrew (s : State) (die : Nat) : State × Option (Pick × State) :=
  if !s.thermal.isEmpty || !ready s then (s, none)
  else
    match launchOrder s die with
    | [] => (s, none)
    | (n, l) :: r =>
      let s1 := preemptFor s n l
      (s1, firstFit s1 ((n, l) :: r))

/-- CREW_DISPATCH (R308, R313, R315): the chosen crew is placed, where it is a new one. -/
def execCrewDispatch (die : Nat) (s : State) : Out :=
  match chooseCrew s die with
  | (_, some (.fresh _, s1)) => .next s1
  | (s1, _) => .next s1

/-- CREW_RESTORE (R325, R326): the chosen crew is placed, where it is the saved one of a slot, or of its gang. -/
def execCrewRestore (die slot : Nat) (s : State) : Out :=
  match chooseCrew s die with
  | (s1, some (.saved k, s2)) => .next (if (gangKeys s k).contains (crewKey die slot) then s2 else s1)
  | (s1, _) => .next s1

/-! ## The watchdog (R317) and overdue stops (R320) -/

/-- Whether a crew stands on its cores. -/
def onCores (c : Crew) : Bool := c.st == .running || c.st == .stopping || c.st == .frozen || c.st == .evicting

/-- R320: a stop that is overdue is reported, once. -/
def execPreemptOverdue (die slot cycles : Nat) (s : State) : Out :=
  let k := crewKey die slot
  match crewAt s k with
  | some c =>
    if c.preq.isSome ∧ onCores c = true ∧ c.dueRep = false ∧ c.plim ≤ cycles ∧ crewSafe s k = false then
      .next (report (modCrew s k fun c => { c with dueRep := true }) die 2 slot (crewQueue s c)
        (min cycles (2 ^ 32 - 1)) 0 0)
    else .next s
  | none => .next s

/-- R317, DETAIL 0: a crew has run RUNLIM ticks. -/
def execWatchdogRun (die slot : Nat) (s : State) : Out :=
  let k := crewKey die slot
  let lim := (dieAt s die).runlim.toNat
  match crewAt s k with
  | some c =>
    if onCores c = true ∧ c.runRep = false ∧ lim ≠ 0 ∧ lim ≤ ranFor s c then
      .next (report (modCrew s k fun c => { c with runRep := true }) die 3 slot (crewQueue s c) 0 0 0)
    else .next s
  | none => .next s

/-- R317, DETAIL 1: a crew has made no progress for STALL ticks; not while a thermal event freezes it (R367). -/
def execWatchdogStall (die slot : Nat) (s : State) : Out :=
  let k := crewKey die slot
  let lim := (dieAt s die).stall.toNat
  match crewAt s k with
  | some c =>
    if s.thermal = [] ∧ onCores c = true ∧ c.stallRep = false ∧ lim ≠ 0 ∧ lim ≤ s.frame.toNat - c.progress then
      .next (report (modCrew s k fun c => { c with stallRep := true }) die 3 slot (crewQueue s c) 1 0 0)
    else .next s
  | none => .next s

/-- R317, DETAIL 2: a SEMWAIT or QFENCE has waited STALL ticks; not in a frame or under HOLD. -/
def execWatchdogQueue (die q : Nat) (s : State) : Out :=
  let lim := (dieAt s die).stall.toNat
  let x := queueAt s die q
  if x.started ∧ (x.wait.isSome ∨ x.joinId.isSome) ∧ x.hold = false ∧ x.frame = none ∧ x.waitRep = false ∧ lim ≠ 0 ∧
      lim ≤ s.frame.toNat - x.startTick then
    .next (report (modQueue s die q fun x => { x with waitRep := true }) die 3 0 q 2 0 0)
  else .next s

/-! ## RELEASE_AT (R298) -/

/-- RELEASE_TICK: a RELEASE_AT that has started on a queue completes, where its tick is reached. -/
def execReleaseTick (die q : Nat) (s : State) : Out :=
  let x := queueAt s die q
  if !x.started then .next s
  else
    match queueWords s die x (queueHead x) 3 with
    | .ok l s1 =>
      if numAt l 3 1 = 0x0D then
        match execReleaseAt (ofBytes 64 (l.drop 4)) { s1 with cur := .queue die q } with
        | .next s2 => .next { s2 with cur := .none }
        | o => o
      else .next s
    | _ => .next s

/-! ## Write-outs, deadlock, line fills, frames and acknowledgements -/

/-- WRITE_OUT (R82, R204): a held tile, plane or row is written to its save area. DESIGN CHOICE (log entry 87): the event stands for
the supervisor's flush of one object, which may come at any time. -/
def execWriteOut (o : HeldObj) (s : State) : Out :=
  match o with
  | .tile core t => .next (writeOutTile s core t)
  | .plane q b => .next (writeOutPlane s q b)
  | .row q r => .next (writeOutRow s q r)

end Sys2Proof.Machine
end

