-- ==== Sys2Proof/Machine/Scan.lean ====
section
/-! DEFINITION. Fetch through a core's instruction store (R50, R51) and the decode checks of a prefix group in the order of
Table 2.2 (R26, R27). -/
namespace Sys2Proof.Machine
open Sys2Proof

/-! ## The instruction store -/

/-- The kernel handle, image offset and length of a strand's stream (R47, R51). -/
def imageOf (s : State) (st : Strand) (e : Engine) : Option (Handle × Nat × Nat) :=
  match crewLaunch s st with
  | none => none
  | some (_, l) =>
    some ({ space := l.space, obj := l.args.kobj.toNat, gen := l.args.kgen.toNat }, mapGet 0 l.k.off e.num,
      mapGet 0 l.k.len e.num)

/-- A word of the instruction store. -/
inductive FWord where
  | ok (w : Word)
  | outside
  | miss (line : Nat)
deriving DecidableEq, Repr

/-- The line of a handle in a core's store. -/
def findLine (c : CoreSt) (h : Handle) (line : Nat) : Option Granule :=
  (c.istore.find? fun l => l.h == h && l.line == line).map (·.val)

/-- The word at a byte offset of a stream image of `len` bytes that begins at `koff` of the kernel image. -/
def fetchWord (c : CoreSt) (h : Handle) (koff len addr : Nat) : FWord :=
  if len ≤ addr then .outside
  else
    match findLine c h ((koff + addr) / 64) with
    | some g => .ok (elem 32 g ((koff + addr) % 64 / 4))
    | none => .miss ((koff + addr) / 64)

/-- A line is used: it becomes the most recent of the 512 (R51). -/
def touchLine (c : CoreSt) (h : Handle) (line : Nat) : CoreSt :=
  match findLine c h line with
  | none => c
  | some g =>
    { c with istore := { h := h, line := line, val := g } :: c.istore.filter fun l => !(l.h == h && l.line == line) }

/-- A line arrives at a core, replacing its least recently used one. -/
def installLine (c : CoreSt) (h : Handle) (line : Nat) (g : Granule) : CoreSt :=
  { c with
    istore := ({ h := h, line := line, val := g } :: c.istore.filter fun l => !(l.h == h && l.line == line)).take 512 }

/-! ## The group -/

/-- A prefix group as fetched: its prefixes and its follower, each with its address. -/
structure Scan where
  pre : List (Nat × Word)
  addr : Nat
  word : Word
deriving DecidableEq, Repr

/-- The words from `addr` on up to the first that is no prefix; or the word that lies outside, or that misses, after
the prefixes fetched. -/
def scanGroup (fuel : Nat) (c : CoreSt) (h : Handle) (koff len addr : Nat) (acc : List (Nat × Word)) :
    Except (List (Nat × Word) × Nat × Option Nat) Scan :=
  match fuel with
  | 0 => .error (acc, addr, none)
  | f + 1 =>
    match fetchWord c h koff len addr with
    | .outside => .error (acc, addr, none)
    | .miss l => .error (acc, addr, some l)
    | .ok w =>
      if wLS w = 2#2 then scanGroup f c h koff len (addr + 4) (acc ++ [(addr, w)])
      else .ok { pre := acc, addr := addr, word := w }

/-- What a group's decode gives: its prefixes and its instruction, with the address after it; a trap at an address; or
a wait for the line of its second word. -/
inductive GDec where
  | ok (pre : List Instr) (i : Instr) (words : List Word) (next : Nat)
  | trap (c : Cause) (addr : Nat) (words : List Word)
  | miss (addr line : Nat)
deriving Repr

/-- The kind of a prefix word. -/
def prefixKind (w : Word) : Nat := fieldOf w 26 4

/-- The first prefix whose word meets a condition. -/
def firstPrefix (l : List (Nat × Word)) (p : Word → Bool) : Option Nat := (l.find? fun x => p x.2).map Prod.fst

/-- The first orphaned prefix (R22, R27): one whose kind recurs later, or any before a control transfer or LS = 11. -/
def firstOrphan (e : Engine) (follower : Word) (l : List (Nat × Word)) : Option Nat :=
  match l with
  | [] => none
  | (a, w) :: r =>
    if wLS follower = 3#2 ∨ opControl e follower = true ∨ r.any (fun x => prefixKind x.2 == prefixKind w) = true
    then some a else firstOrphan e follower r

/-- The prefixes as instructions. -/
def prefixInstrs (l : List (Nat × Word)) : List Instr :=
  l.filterMap fun x => match decodePrefix x.2 with
    | .ok i => some i
    | _ => none

/-- Whether a follower under a transient prefix names a destination (R16). -/
def transientBad (pre : List Instr) (w : Word) : Bool :=
  pre.any fun i => match i with
    | .arith _ _ _ t _ _ _ _ => t && !zeroBits w 14 6
    | _ => false

/-- Rows 2 to 10 of Table 2.2 on a scanned group, in order; `second` is the word after the follower. -/
def decodeGroup (e : Engine) (g : Scan) (second : FWord) : GDec :=
  let ws := g.pre.map Prod.snd ++ [g.word]
  let op := wOP g.word
  let two := opDouble e op
  let t := fun (c : Cause) (a : Nat) => GDec.trap c a ws
  if g.pre.isEmpty && wLS g.word == 3#2 then t .illegalWord g.addr
  else
    match firstPrefix g.pre fun w => decodePrefix w == .opcode with
    | some a => t .illegalPrefix a
    | none =>
    match firstPrefix g.pre fun w => decodePrefix w == .reserved with
    | some a => t .reservedField a
    | none =>
    match firstOrphan e g.word g.pre with
    | some a => t .orphanPrefix a
    | none =>
    if decodeEngine e g.word 0#32 == .opcode then t .illegalOpcode g.addr
    else if (wLS g.word == 1#2) != two then t .illegalWord g.addr
    else
      match two, second with
      | true, .outside => t .fetchBound (g.addr + 4)
      | true, .miss l => .miss (g.addr + 4) l
      | _, w =>
        let w2 := match two, w with
          | true, .ok x => x
          | _, _ => 0#32
        let ws := if two then ws ++ [w2] else ws
        let next := g.addr + if two then 8 else 4
        match (g.pre.zip (prefixInstrs g.pre)).find? fun x => !acceptsPrefix (accept e op) x.2 with
        | some x => .trap .illegalPrefix x.1.1 ws
        | none =>
          let pre := prefixInstrs g.pre
          match decodeEngine e g.word w2 with
          | .ok i => if transientBad pre g.word then .trap .reservedField g.addr ws else .ok pre i ws next
          | .opcode => .trap .illegalOpcode g.addr ws
          | .reserved => .trap .reservedField g.addr ws

/-! ## The turn -/

/-- Whether a stream may go on: it has not ended, no tk_push holds it, has no trap record, and its crew lets it issue; an
instruction that waits for a memory answer finishes whatever its crew does (R77, R319). -/
def mayIssue (s : State) (st : Strand) (e : Engine) : Bool :=
  let x := streamOf st e
  x.st != .ended && x.push.isNone && !heldByPush st e && x.tr.isNone &&
  (awaits x || (st.safe.isNone &&
    match crewAt s st.crew with
    | some c => c.st == .running || c.st == .stopping
    | none => false))

/-- A line is wanted: the stream waits, and its die's fetch agent has the request (R51). -/
def wantLine (s : State) (core : Nat) (e : Engine) (h : Handle) (addr line : Nat) : State :=
  let s1 := modStream s core e fun x => { x with want := some addr }
  modDie s1 (dieOf core) fun d =>
    { d with lineReq := addLine d.lineReq h line }

end Sys2Proof.Machine
end

