-- ==== Sys2Proof/Machine/Events.lean ====
section
/-! DEFINITION. Events of the cores that no instruction names: token deadlock (R63), line fills (R51 to R53), the return of a
freed frame (R234), and the acknowledgement of an access (R271, R398). -/
namespace Sys2Proof.Machine
open Sys2Proof

/-! ## Token deadlock (R63) -/

/-- Whether a stream in Token wait still waits: its push has no room, or a queue of its wait is below the count. -/
def waitsStill (st : Strand) (e : Engine) : Bool :=
  let x := streamOf st e
  (pushWaiter st e).isSome ||
  (x.st == .tokenWait && (bitList 16 x.waitSet).any fun q => decide (tkCount st q < x.waitN.toNat))

/-- Whether a stream stands in Token wait (Table 3.1). -/
def inTokenWait (st : Strand) (e : Engine) : Bool := stateOf st e == .tokenWait && waitsStill st e

/-- The first three conditions of R63: no stream of the strand can go on. -/
def deadlocked (st : Strand) : Bool :=
  let l := [Engine.S, .V, .M, .C]
  l.all (fun e => stateOf st e == .ended || inTokenWait st e) && l.any (inTokenWait st) &&
  st.mats.all (fun o => o.fin || o.mask == 0#16) && st.copies.isEmpty && st.zones.isEmpty

/-- The words of the group at a stream's counter, as far as its instruction store holds them. -/
def groupWords (s : State) (core : Nat) (st : Strand) (e : Engine) : List Word :=
  match imageOf s st e with
  | none => []
  | some (h, koff, len) =>
    let c := mapGet {} s.cores core
    match scanGroup (len / 4 + 1) c h koff len (streamOf st e).pc.toNat [] with
    | .error (ws, _, _) => ws.map Prod.snd
    | .ok g =>
      match decodeGroup e g (fetchWord c h koff len (g.addr + 4)) with
      | .ok _ _ ws _ => ws
      | .trap _ _ ws => ws
      | .miss _ _ => g.pre.map Prod.snd ++ [g.word]

/-- The record of a token deadlock for the stream that waits. -/
def deadlockRec (st : Strand) (e : Engine) : TrapRec :=
  let x := streamOf st e
  match pushWaiter st e with
  | some p =>
    { cause := .tokenDeadlock, detail := p.mask, popped := true, pushp := true, addr := p.gaddr, gaddr := p.gaddr
      words := p.words.take 5 }
  | none =>
    { cause := .tokenDeadlock, detail := x.waitSet, addr := x.pc, gaddr := x.pc, words := x.waitWords.take 5 }

/-- TOKEN_DEADLOCK (R63): 64 cycles of deadlock have passed on a strand whose crew is not frozen. -/
def execTokenDeadlock (core : Nat) (s : State) : Out :=
  match strandAt s core with
  | none => .next s
  | some st =>
    let live := match crewAt s st.crew with
      | some c => c.st == .running || c.st == .stopping
      | none => false
    if live && deadlocked st then
      match [Engine.S, .V, .M, .C].find? (inTokenWait st) with
      | some e => .next (takeTrap s core e (deadlockRec st e))
      | none => .next s
    else .next s

/-! ## Line fills (R51 to R53, R223) -/

/-- What the read of a line by a die fetch agent gives; it may wait for a CXL completion of a port. -/
inductive FillRes where
  | ok (g : Granule)
  | trap (c : Cause)
  | ask (port : Nat)
deriving DecidableEq, Repr

/-- A line read through the object table under right X of the kernel capability; Table 18.2 gives what it meets. A line in
POOL is requested of its port first, and `ans` is the completion (R53, R370). -/
def fillRead (s : State) (die : Nat) (h : Handle) (line : Nat) (ans : Option CxlResult) : FillRes × State :=
  let tr := translateIn s (ans == some .ok) die h.space h.obj h.gen (64 * line) 64
  match tr.1 with
  | .stale => (.trap .capStale, tr.2)
  | .uncommitted => (.trap .pageUncommitted, tr.2)
  | .refused => (.trap .poison, refuseLog tr.2 h.obj (64 * line))
  | .isolated => (.trap .poison, tr.2)
  | .cut => (.trap .poison, refuseLog tr.2 h.obj (64 * line))
  | .ok p =>
    match (if p.tier = 2 then ans else some .ok) with
    | none => (.ask p.loc, tr.2)
    | some .poison => (.trap .poison, tr.2)
    | some .error => (.trap .poison, refuseLog tr.2 h.obj (64 * line))
    | some .ok =>
      match placeRead tr.2 p with
      | (.ok g, s1) => (.ok g, s1)
      | (.integrity, s1) => (.trap .poison, s1)
      | (.poison, s1) => (.trap .poison, s1)
      | (.refused, s1) => (.trap .poison, refuseLog s1 h.obj (64 * line))

/-- The cores of a die that run a crew of a handle. -/
def coresOfHandle (s : State) (die : Nat) (h : Handle) : List Nat :=
  (s.strands.filter fun p => dieOf p.1 == die &&
    ((crewAt s p.2.crew).map fun c => c.handle == h).getD false).map Prod.fst

/-- Whether a stream waits for a word of a line. -/
def wantsLine (s : State) (st : Strand) (e : Engine) (h : Handle) (line : Nat) : Bool :=
  match imageOf s st e, (streamOf st e).want with
  | some (h', koff, _), some a => h' == h && (koff + a) / 64 == line
  | _, _ => false

/-- A stream that needed a line that does not install traps at the word it was fetching (R53). -/
def failFetch (c : Cause) (h : Handle) (line : Nat) (s : State) (core : Nat) (e : Engine) : State :=
  match strandAt s core with
  | none => s
  | some st =>
    if wantsLine s st e h line then
      let x := streamOf st e
      let s1 := modStream s core e fun x => { x with want := none }
      if mayIssue s st e then
        takeTrap s1 core e
          { cause := c, addr := BitVec.ofNat 32 (x.want.getD 0), gaddr := x.pc, words := (groupWords s core st e).take 5
            fault := some (faultOf s (dieOf core) h.space h.obj h.gen (64 * line)) }
      else s1
    else s

/-- LINE_FILL (R51, R53): the die fetch agent's read of a requested line arrives, or it asks a CXL port for the line. -/
def execLineFill (die : Nat) (h : Handle) (line : Nat) (s : State) : Out :=
  match (dieAt s die).lineReq.find? fun r => r.h == h && r.line == line with
  | none => .next s
  | some q =>
    let s0 := modDie s die fun d => { d with lineReq := d.lineReq.filter fun r => !(r.h == h && r.line == line) }
    let r := fillRead s0 die h line q.ans
    let cs := coresOfHandle s die h
    match r.1 with
    | .ok g =>
      .next { r.2 with cores := cs.foldl (fun m c => mapMod {} m c fun c => installLine c h line g) r.2.cores }
    | .trap c =>
      .next (cs.foldl (fun s core =>
        [Engine.S, .V, .M, .C].foldl (fun s e => failFetch c h line s core e) s) r.2)
    | .ask p =>
      if q.asked then .next s
      else .next (sendCxl (modDie s die fun d => { d with
        lineReq := d.lineReq.map fun r => if r.h = h ∧ r.line = line then { r with asked := true } else r }) p
        (.line die h line))

/-! ## Frames and acknowledgements -/

/-- Whether a store or a move on a frame is under way. -/
def frameBusy (s : State) (f : Nat) : Bool :=
  let hit := fun (w : StoreW) => w.pa / 8192 == f && w.tier != 2#2
  let on := fun (p : Option Place) => (p.map fun p => p.pa / 8192 == f && p.tier != 2).getD false
  s.strands.any (fun p => p.2.stores.any hit) || s.launches.any (fun l => l.2.stores.any hit) ||
  s.te.any fun c => c.2.moves.any fun m => m.status.isNone && m.units.any fun u => on u.src || on u.dst

/-- FRAME_RETURN (R234, step 5): a freed frame whose accesses have ended returns to its die's pool. -/
def execFrameReturn (die : Nat) (s : State) : Out :=
  let d := dieAt s die
  match d.freeing.find? fun f => !frameBusy s f with
  | none => .next s
  | some f => .next (modDie { s with old := s.old.filter fun o => o.gran / 128 != f } die fun d => { d with
      freeing := d.freeing.erase f
      pool := d.pool ++ [f] })

/-- A store reaches its home and is performed there: its controller's entry is written. -/
def performStore (s : State) (w : StoreW) : State :=
  if w.tier = 2#2 ∨ (mapGet {} s.ctls (ctrlOf w.tier.toNat w.loc w.pa)).hot = true then s
  else drainTo (if unqueued s w then enterStore s w else s) (w.pa / 64)

/-- ACCESS_PERFORMED (R271, R398): a store of a core's strand that a controller performs is acknowledged, and what waited for it
goes on; which of those that may reach their homes next is free (R276, R281). -/
def execAccessPerformed (core : Nat) (s : State) : Out :=
  match strandAt s core with
  | none => .next s
  | some st =>
    match chooseOf s (mayEnter (st.stores.filter fun w => w.tier != 2#2)) with
    | (some w, s1) => .next (settle (performStore s1 w) core)
    | (none, s1) => .next (settle s1 core)

end Sys2Proof.Machine
end

