-- ==== Sys2Proof/Machine/Tier.lean ====
section
/-! DEFINITION. The tier engine (R329 to R353): contexts, entries and their statuses, moves granule by granule, landings and
lateness, and multicast streams. -/
namespace Sys2Proof.Machine
open Sys2Proof

/-! ## Contexts -/

/-- A context of the tier engine. -/
def ctxAt (s : State) (n : Nat) : TeCtx := mapGet {} s.te n

/-- A context changed by `f`. -/
def modCtx (s : State) (n : Nat) (f : TeCtx → TeCtx) : State := { s with te := mapMod {} s.te n f }

/-- The itinerary tick (R331). -/
def itinTick (s : State) (c : TeCtx) : Int := (s.frame.toNat : Int) - c.t0

/-- A tick of an entry as R346 to R351 use it: with TBASE and DOFS, signed. -/
def effTick (c : TeCtx) (t : Nat) : Int := t + c.tbase.toInt + c.dofs.toInt

/-- Lateness against an effective due tick (R333). -/
def latenessAt (s : State) (c : TeCtx) (due : Int) : Nat := (itinTick s c - due).toNat

/-- The open moves of a class (R350): those that stand in the context's list. -/
def openMoves (c : TeCtx) (cls : Nat) : Nat := (c.moves.filter fun m => m.a.wclass.toNat == cls).length

/-- WIN of a class (Table 16.2). -/
def winOf (c : TeCtx) (cls : Nat) : Nat := mapGet 1 c.win cls

/-- A MOVE of a context by its place in the execution. -/
def moveOf (c : TeCtx) (order : Nat) : Option MoveSt := c.moves.find? fun m => m.order == order

/-- A MOVE of a context changed by `f`. -/
def modMove (s : State) (n order : Nat) (f : MoveSt → MoveSt) : State :=
  modCtx s n fun c => { c with moves := c.moves.map fun m => if m.order = order then f m else m }

/-- Whether a package is this one. -/
def isHere (p : BitVec 4) : Bool := p == Config.package

/-! ## Streams (R332, R352) -/

/-- Whether a started MC move of a member still waits for granules of a shard. -/
def waitsShard (m : MoveSt) (epoch : BitVec 32) (k : Nat) : Bool :=
  m.member && m.status.isNone && !m.units.isEmpty && m.shard == k && (m.str.map fun x => x.epoch == epoch).getD false

/-- What has arrived of a shard. -/
def shardAt (s : State) (epoch : BitVec 32) (k : Nat) : Option Shard := s.shards.find? fun h => h.epoch == epoch && h.k == k

/-- A shard is no longer held. -/
def dropShard (s : State) (epoch : BitVec 32) (k : Nat) : State :=
  { s with shards := s.shards.filter fun h => !(h.epoch == epoch && h.k == k) }

/-- The context of a stream at which this package is a member. -/
def memberOf (s : State) (epoch : BitVec 32) : Option TeCtx :=
  (s.te.find? fun c => (c.2.mc.map fun x => x.epoch == epoch && !isHere x.src).getD false).map Prod.snd

/-- The source of a stream that this package has left as a member, where it follows it no longer. -/
def leftStream (s : State) (epoch : BitVec 32) : Option (BitVec 4) :=
  if (memberOf s epoch).isSome then none
  else (s.te.findSome? fun c => c.2.left.find? fun e => e.1 == epoch && !isHere e.2).map Prod.snd

/-- Whether a started MC move of a member of a stream has not completed. -/
def streamOpen (s : State) (epoch : BitVec 32) : Bool :=
  s.te.any fun c => c.2.moves.any fun m => m.member && m.status.isNone && (m.str.map fun x => x.epoch == epoch).getD false

/-- What a member has learned of a stream's end is forgotten with the stream, once none of its moves waits any more, so that a
later stream of that EPOCH is new. -/
def forgetStream (s : State) (epoch : BitVec 32) : State :=
  if (leftStream s epoch).isSome && !streamOpen s epoch then { s with
    ends := s.ends.filter (· != epoch)
    cuts := s.cuts.filter (· != epoch) }
  else s

/-- The shards that the held-back members of a context's group will take. -/
def pendShards (c : TeCtx) : List Nat := c.pend.filterMap Pend.shard

/-- A flit to a multicast group. -/
def toGroup (s : State) (grp : BitVec 8) (m : OutMsg) : State := sendFlit s grp.toNat m

/-- A flit to a package. -/
def toPackage (s : State) (pkg : Nat) (m : OutMsg) : State := sendFlit s (256 + pkg) m

/-- A context leaves its multicast stream: the source ends it; a member discards and acknowledges the shards it has not
taken. -/
def leaveStream (s : State) (n : Nat) : State :=
  match (ctxAt s n).mc with
  | none => s
  | some x =>
    let s1 := modCtx s n fun c => { c with
      mc := none
      left := (x.epoch, x.src) :: c.left.filter fun e => e.1 != x.epoch }
    if s.caps.ovl = false then s1
    else if isHere x.src then
      toGroup { s1 with acked := s1.acked.filter fun a => a.1 != x.epoch } x.grp (.eos x.grp x.epoch)
    else
      let late := fun (h : Shard) => h.epoch == x.epoch && (decide (x.next ≤ h.k) || (pendShards (ctxAt s n)).contains h.k)
      forgetStream ((s1.shards.filter late).foldl (fun s h => toPackage s x.src.toNat (.ack x.src x.epoch h.k)) { s1 with
        shards := s1.shards.filter fun h => !late h }) x.epoch

/-- Whether the words of an entry are those of a MOVE. -/
def isMove (ws : List Word) : Bool := fieldOf (wordAt ws 0) 24 8 == 1

/-- R349: a context stops: it considers no further entry, and a MOVE that its window holds back never starts. The first cause
stands. -/
def stopCtx (s : State) (n cause : Nat) : State :=
  let c := ctxAt s n
  if c.stopping ∨ c.active = false then s
  else modCtx (leaveStream s n) n fun c => { c with
    stopping := true
    cause := cause
    gust := 0
    held := c.held.filter fun ws => !isMove ws
    pend := [] }

/-! ## Status words (R330) -/

/-- A status word of a place in a context's execution is refused: the context stops, where it still runs that itinerary (R336). -/
def refuseStatus (s : State) (n order : Nat) : State := if (ctxAt s n).first ≤ order then stopCtx s n 2 else s

/-- The status word of an entry is written; a refused write stops the context (R336). One to POOL is performed as its completion
comes (R370). -/
def writeStatus (s : State) (n idx order : Nat) (st : Status) (late : Nat) : State :=
  let c := ctxAt s n
  let off := 0x10000 + 4 * idx
  let w : BitVec 32 := BitVec.ofNat 32 (st.code + 2 ^ 16 * min late 0xFFFF)
  let tr := translateAt s c.die c.space c.obj c.gen off 4
  match tr.1 with
  | .ok p =>
    if p.tier = 2 then sendCxl tr.2 p.loc (.status n order p w)
    else
      match cpWrite s c.die none c.space c.obj c.gen off (toBytes 4 w) with
      | .ok _ s1 => s1
      | .fail s1 => refuseStatus s1 n order
      | .ask _ s1 => s1
  | .refused => refuseStatus (refuseLog tr.2 c.obj off) n order
  | .cut => refuseStatus (refuseLog tr.2 c.obj off) n order
  | _ => refuseStatus tr.2 n order

/-- The completion of a status word's write to POOL. -/
def answerStatus (s : State) (n order : Nat) (p : Place) (w : Word) (r : CxlResult) : State :=
  if r = .error then refuseStatus s n order
  else (placeWrite s p (maskOf (p.pa % 64) 4) (granPut 0#512 (p.pa % 64) (toBytes 4 w)) false).2

/-- An entry of a place in the execution completes with a status: its word, the failures a MARK counts, the log (R341,
R345). -/
def entryStatus (s : State) (n idx order : Nat) (st : Status) (late : Nat) : State :=
  let s1 := writeStatus s n idx order st late
  let s2 := if st = .refused ∨ st = .isolated then logEvent s1 5 (64 * idx + st.code) else s1
  if st = .done then s2 else modCtx s2 n fun c => { c with fails := c.fails ++ [order] }

/-- R345: the marks at the head of a context's list whose earlier entries have completed perform their adds. -/
def settleMarks (fuel : Nat) (s : State) (n : Nat) : State :=
  match fuel with
  | 0 => s
  | f + 1 =>
    let c := ctxAt s n
    match c.marks with
    | [] => s
    | k :: r =>
      if c.moves.any fun m => m.status.isNone && decide (m.order < k.order) then s
      else
        let cnt := (c.fails.filter fun o => decide (o < k.order)).length
        let s1 := modCtx s n fun c => { c with
          marks := r
          fails := c.fails.filter fun o => decide (k.order < o) }
        let s2 := if k.fen then semAdd s1 c.die k.fsem (d64 cnt) else s1
        settleMarks f (writeStatus (semAdd s2 c.die k.sem (k.add.setWidth 64)) n k.idx k.order .done 0) n

/-- Whether a move's credit returns (Table 16.6): of a landing once its token is pushed, at the source of a stream once every
package has acknowledged. -/
def creditBack (s : State) (m : MoveSt) : Bool :=
  m.status.isSome && !m.token && (m.str.isNone || m.member || !s.caps.ovl || m.acks.isEmpty)

/-- Moves whose credit is back leave the context's list. -/
def dropMoves (s : State) (n : Nat) : State :=
  modCtx s n fun c => { c with moves := c.moves.filter fun m => !creditBack s m }

/-- What a stream hears of a move that completes (R332): a member acknowledges but for an ISOLATED that is its own; the source
tells a failure. -/
def tellStream (s : State) (m : MoveSt) (st : Status) : State :=
  match m.str with
  | none => s
  | some x =>
    if !s.caps.ovl then s
    else if m.member then
      let told := ((shardAt s x.epoch m.shard).bind Shard.fail).isSome
      let s1 := forgetStream (dropShard s x.epoch m.shard) x.epoch
      if st = .isolated ∧ told = false then s1 else toPackage s1 x.src.toNat (.ack x.src x.epoch m.shard)
    else if st = .done then s
    else toGroup s x.grp (.fail x.grp x.epoch m.shard st.code)

/-- A MOVE completes with a status: its word, what its stream hears, its credit, and the marks. -/
def completeMove (s : State) (n order : Nat) (st : Status) : State :=
  match moveOf (ctxAt s n) order with
  | none => s
  | some m =>
    let s1 := entryStatus s n m.idx order st (latenessAt s (ctxAt s n) m.due)
    let s2 := modMove s1 n order fun m => { m with
      status := some st
      sent := if m.str.isSome && !m.member then some (m.sent.getD s.frame.toNat) else m.sent
      acks := m.acks.filter fun p => !isHere (BitVec.ofNat 4 p)
      units := [] }
    let s3 := dropMoves (tellStream s2 m st) n
    settleMarks ((ctxAt s3 n).marks.length) s3 n

/-! ## Where a move reads and writes (R341, R342) -/

/-- The object table entry of an object as the tier engine reads it; none where the read is refused. -/
def teEntry (s : State) (die space obj off : Nat) : Option (BitVec 256) × State :=
  let r := lookup s die space obj off
  (r.1.map Prod.fst, r.2)

/-- Row 4 of Table 16.4 on one object. -/
def objBad (s : State) (die : Nat) (e : BitVec 256) (gen tier off n : Nat) : Bool :=
  !oeV e || oeGen e != gen || gen == 0 || oeTier e != tier || oeBad s e || decide (oeLen e < off + n) ||
  boundaryCut s die (oeTier e) (oeLoc e)

/-- A granule of an object: its place, and of a compressed page its size and its sidecar line's address. -/
def tePlace (s : State) (die space obj off : Nat) : Option (Place × Option (Nat × Nat)) × State :=
  match lookup s die space obj off with
  | (none, s1) => (none, s1)
  | (some (e, held), s1) =>
    let dom := (spaceAt s1 space).kdom
    let at_ := fun (pa : Nat) =>
      ({ pa := pa, tier := oeTier e, loc := oeLoc e, ctrl := ctrlOf (oeTier e) (oeLoc e) pa, dom := dom
         side := if oeKind e = 2 then some (oeSide e + 64 * pageIdx e off) else none } : Place)
    if oeKind e = 0 then (some (at_ (oeBase e + off), none), s1)
    else
      match pageEntry s1 die e off held with
      | (none, s2) => (none, s2)
      | (some pe, s2) =>
        let pg := pageSize e
        let p := at_ (peFrame pe * 8192 + off % pg)
        if peBad e pe || !peC pe then (none, s2)
        else if peCmp pe = 0 then (some (p, none), s2)
        else if oeTier e = 0 ∧ s2.caps.hcmp = false then (none, s2)
        else
          match sideLine s2 die space obj off e with
          | (none, s3) => (none, s3)
          | (some g, s3) =>
            if 8 < fieldOf g (4 * (off % pg / 512)) 4 then (none, s3)
            else (some ({ p with zmask := some (g, peFrame pe * 8192, off % pg) },
              some (pg, oeSide e + 64 * pageIdx e off)), s3)

/-- The granules that the first `n` sectors of a page store, by their sidecar line (Table 11.12). -/
def storedGrans (side : Granule) (n : Nat) : List Nat :=
  (List.range n).flatMap fun k => (List.range (fieldOf side (4 * k) 4)).map (8 * k + ·)

/-- Granule `i` of the frames of a page, as it is stored. -/
def storedAt (p : Place) (i : Nat) : Place := { p with
  pa := p.pa + 64 * i
  side := none
  zmask := none }

/-- The units of a page kept packed: the granules that it stores, then the destination's sidecar line (R342). -/
def packedUnits (p q : Place) (da sectors : Nat) : List MUnit :=
  let side := (p.zmask.map Prod.fst).getD 0#512
  (storedGrans side sectors).map (fun i => { src := some (storedAt p i), dst := some (storedAt q i), quiet := true }) ++
    [{ src := some p, dst := some q, line := some (da, side, sectors) }]

/-- The units that begin at a granule of a move: none where R342 refuses it, no unit where an earlier granule of a packed page
made them. -/
def unitOf (soff doff len : Nat) (i : Nat) (src dst : Option (Place × Option (Nat × Nat))) : Option (List MUnit) :=
  match src, dst with
  | some (p, some (pg, _)), some (q, some (pg', da)) =>
    if soff % pg ≠ 0 ∨ doff % pg ≠ 0 ∨ 64 * len % pg ≠ 0 ∨ pg ≠ pg' then none
    else if 64 * i % pg = 0 then some (packedUnits p q da (pg / 512))
    else some []
  | _, some (_, some _) => none
  | p, q => some [{ src := p.map Prod.fst, dst := q.map Prod.fst }]

/-- The places of the granules of a move, from granule `i` on; none where row 4 refuses one. `hasSrc` and `hasDst` say
whether it reads a source and writes an object. -/
def itinUnits (fuel : Nat) (s : State) (c : TeCtx) (a : MoveArgs) (hasSrc hasDst : Bool) (soff doff i : Nat) :
    Option (List MUnit) × State :=
  match fuel with
  | 0 => (some [], s)
  | f + 1 =>
    let p := if hasSrc then tePlace s c.die c.space a.sobj.toNat (soff + 64 * i) else (none, s)
    let q := if hasDst then tePlace p.2 c.die c.space a.dobj.toNat (doff + 64 * i) else (none, p.2)
    if (hasSrc && p.1.isNone) || (hasDst && q.1.isNone) then (none, q.2)
    else
      match unitOf soff doff a.len.toNat i p.1 q.1 with
      | none => (none, q.2)
      | some u =>
        match itinUnits f q.2 c a hasSrc hasDst soff doff (i + 1) with
        | (some r, s1) => (some (u ++ r), s1)
        | (none, s1) => (none, s1)

/-- Whether source and destination granules of a move meet. -/
def unitsMeet (l : List MUnit) : Bool :=
  l.any fun u => l.any fun v =>
    match u.src, v.dst with
    | some p, some q => p.pa / 64 == q.pa / 64
    | _, _ => false

/-- An effective offset (R340): within 0 to 2^40 - 1, or a range failure. -/
def effOff (off : BitVec 40) (acc : BitVec 64) : Option Nat :=
  let x : BitVec 64 := off.setWidth 64 + acc
  if x.toInt < 0 ∨ 2 ^ 40 ≤ x.toNat then none else some x.toNat

/-- The core that a LAND move names. -/
def landCore (a : MoveArgs) : Nat := a.die.toNat * coresPerDie + a.core.toNat

/-- The strand and zone that a LAND move may land in (row 5 of Table 16.4). -/
def landZone (s : State) (a : MoveArgs) : Option (Strand × Zone) :=
  if coresPerDie ≤ a.core.toNat then none
  else
    match strandAt s (landCore a) with
    | none => none
    | some st =>
      match mapFind st.zones a.z.toNat with
      | none => none
      | some z =>
        if z.obj = a.dobj.toNat ∧ z.ogen = a.dgen.toNat ∧ 64 * a.zoff.toNat + 64 * a.len.toNat ≤ z.len then
          some (st, z) else none

/-- Rows 2 to 5 of Table 16.4: the status of a move that fails at its start, or its units. -/
def startChecks (s : State) (c : TeCtx) (a : MoveArgs) (hasSrc : Bool) : Except Status (List MUnit) × State :=
  let hasDst := a.dtier != 3#2
  let se := if hasSrc then teEntry s c.die c.space a.sobj.toNat a.soff.toNat else (none, s)
  let de := if hasDst then teEntry se.2 c.die c.space a.dobj.toNat a.doff.toNat else (none, se.2)
  let s1 := de.2
  let pool := fun (t : BitVec 2) (e : Option (BitVec 256)) => t == 2#2 && (e.map fun e => oeTier e == 2).getD false
  let port := fun (e : Option (BitVec 256)) => (e.map oeLoc).getD 0
  let far := fun (t : BitVec 2) (e : Option (BitVec 256)) => pool t e && decide (s1.caps.cxlPorts.toNat ≤ port e)
  if (((hasSrc && a.stier == 1#2) || a.dtier == 1#2) && s1.bulkSize == 0) || far a.stier se.1 || far a.dtier de.1 ||
      (a.mc && !s1.caps.ovl) then (.error .absent, s1)
  else if (pool a.stier se.1 && portOut s1 (port se.1)) || (pool a.dtier de.1 && portOut s1 (port de.1)) then
    (.error .isolated, s1)
  else
    let n := 64 * a.len.toNat
    let so := if hasSrc then effOff a.soff c.sacc else some 0
    let od := if hasDst then effOff a.doff c.dacc else some 0
    match so, od with
    | some so, some od =>
      let bad := fun (has : Bool) (e : Option (BitVec 256)) (gen tier off : Nat) =>
        has && (e.map fun e => objBad s1 c.die e gen tier off n).getD true
      if bad hasSrc se.1 a.sgen.toNat a.stier.toNat so || bad hasDst de.1 a.dgen.toNat a.dtier.toNat od then
        (.error .refused, s1)
      else
        match itinUnits a.len.toNat s1 c a hasSrc hasDst so od 0 with
        | (none, s2) => (.error .refused, s2)
        | (some u, s2) =>
          if unitsMeet u then (.error .refused, s2)
          else if hasDst = false ∧ landZone s2 a = none then (.error .dropped, s2)
          else (.ok u, s2)
    | _, _ => (.error .refused, s1)

/-! ## Landings (R261, R333) -/

/-- R333: LATE and L after a landing of lateness `d`. -/
def updateLate (s : State) (n d : Nat) : State :=
  let s1 := modCtx s n fun c =>
    let late := if 0 < d then min (c.late + d) 0xFFFF else c.late / 2
    { c with
      late := late
      l := if c.lateHi.toNat < late then min 3 (c.l + 1) else if late < c.lateLo.toNat then 0 else c.l }
  if 0 < d then mscCount s1 (10, 0, lengthBin d) 1 else s1

/-- Whether a landing into the zone of a move stands before it in itinerary order, with its token not pushed (R284): one that has
started, or a member of a group that its window holds back. -/
def landsBefore (c : TeCtx) (m : MoveSt) : Bool :=
  (c.moves.any fun x => (x.status.isNone || x.token) && x.a.dtier == 3#2 && decide (x.order < m.order) && x.sid == m.sid &&
    x.a.z == m.a.z) ||
  c.pend.any fun p => decide (p.order < m.order) && p.zone == some (landCore m.a, m.a.z.toNat)

/-- The strand and zone of a landing under way: that of the strand it began in, still armed. -/
def zoneOf (s : State) (m : MoveSt) : Option (Strand × Zone) := (landZone s m.a).filter fun z => z.1.sid == m.sid

/-- The token of a landing that has written its bytes is pushed (R261, R284), after those of earlier landings into its zone and
once its queue has room (R62); a zone that is armed no longer takes none. Its credit returns (R350). -/
def pushToken (s : State) (n : Nat) (m : MoveSt) : State :=
  let off := fun (s : State) => dropMoves (modMove s n m.order fun m => { m with token := false }) n
  if !m.token || landsBefore (ctxAt s n) m then s
  else
    match zoneOf s m with
    | none => off s
    | some (st, z) =>
      let q := zoneQueue z.ec
      if tkCount st q ≤ 14 then
        off (noteProgress (modStrand s (landCore m.a) fun st => { st with
          toks := mapMod [] st.toks q (· ++ [({} : Know)]) }) st.crew)
      else s

/-- A landing whose bytes are all written completes DONE: its lateness, then its status, then its token (R333, R341, Table 16.3).
DEDUCED (log entry 58): R331 says of it that it completes once its token is pushed; its credit returns then. -/
def finishLanding (s : State) (n : Nat) (m : MoveSt) : State :=
  let s1 := updateLate s n (latenessAt s (ctxAt s n) m.due)
  let s2 := completeMove (modMove s1 n m.order fun m => { m with token := true }) n m.order .done
  match moveOf (ctxAt s2 n) m.order with
  | some m => pushToken s2 n m
  | none => s2

/-! ## One unit of a move -/

/-- What reading the source of a unit gives. -/
inductive SrcRes where
  | ok (v : Granule) (poison : Bool) (s : State)
  | ask (port : Nat) (s : State)
  | fail (st : Status) (s : State)

/-- A request of a move leaves on a CXL port, once. -/
def askMove (s : State) (n : Nat) (m : MoveSt) (port : Nat) : State :=
  if m.asked then s else sendCxl (modMove s n m.order fun m => { m with asked := true }) port (.move n m.order)

/-- The bytes of a granule whose read gave none: free. -/
def drawGran (s : State) : Granule × State :=
  let f := drawFresh s
  (BitVec.ofNat 512 (Config.freeBits f.1), f.2)

/-- A granule of a place as a MOVE reads it: with its poison, where it carries one (R341). -/
def teRead (s : State) (p : Place) : SrcRes :=
  match placeRead s p with
  | (.ok v, s1) => .ok v false s1
  | (.poison, s1) => .ok (drawGran s1).1 true (drawGran s1).2
  | (_, s1) => .fail .refused s1

/-- The source of a unit: of a member, the next granule of its shard; else its place. A boundary that has gone down refuses it
(R375). -/
def unitRead (s : State) (die : Nat) (m : MoveSt) (u : MUnit) : SrcRes :=
  match u.src with
  | none =>
    match ((m.str.bind fun x => shardAt s x.epoch m.shard).bind fun h => h.data[m.written]?) with
    | some v => .ok v false s
    | none => .ok (drawGran s).1 false (drawGran s).2
  | some p =>
    if boundaryCut s die p.tier p.loc then .fail .refused s
    else if u.line.isSome then .ok 0#512 false s
    else if p.tier = 2 ∧ m.ans = none then (if portOut s p.loc then .fail .isolated s else .ask p.loc s)
    else if p.tier = 2 ∧ m.ans = some .error then .fail .refused s
    else if p.tier = 2 ∧ m.ans = some .poison then .ok (drawGran s).1 true (drawGran s).2
    else teRead s p

/-- The granules of a page kept packed as its stream carries them: expanded. -/
def pageGrans (s : State) (p : Place) : Nat → List Granule × State
  | 0 => ([], s)
  | k + 1 =>
    let r := pageGrans s p k
    match teRead r.2 { p with zmask := p.zmask.map fun z => (z.1, z.2.1, 64 * k) } with
    | .ok v _ s1 => (r.1 ++ [v], s1)
    | .ask _ s1 => (r.1, s1)
    | .fail _ s1 => (r.1, s1)

/-- Bytes that the source of a stream has read leave for its members (R332). -/
def sendShard (s : State) (m : MoveSt) (l : List Granule) : State :=
  match m.str with
  | some x => if m.member || !s.caps.ovl || l.isEmpty then s else toGroup s x.grp (.shard x.grp x.epoch m.shard l)
  | none => s

/-- A unit of a move has been written. -/
def nextUnit (s : State) (n : Nat) (m : MoveSt) (l : List Granule) : State :=
  modMove (sendShard s m l) n m.order fun m => { m with
    written := m.written + 1
    units := m.units.drop 1
    val := none
    ans := none
    asked := false
    sent := if m.units.length ≤ 1 ∧ m.str.isSome then some s.frame.toNat else m.sent }

/-- The granules that the stream of a packed page's move carries: the page expanded; of no stream, none. -/
def lineGrans (s : State) (m : MoveSt) (src : Option Place) (sectors : Nat) : List Granule × State :=
  match src with
  | some p => pageGrans s p (if m.str.isSome then 8 * sectors else 0)
  | none => ([], s)

/-- What was read of a unit is written to its destination. A boundary that has gone down refuses it (R375). -/
def unitWrite (s : State) (n : Nat) (m : MoveSt) (u : MUnit) (v : Granule × Bool) : State :=
  match u.dst with
  | some q =>
    if boundaryCut s (ctxAt s n).die q.tier q.loc then completeMove s n m.order .refused
    else
      match u.line with
      | some (da, side, sectors) =>
        let w := physWrite s (ctxAt s n).die da (granBytes side 0 64)
        let g := lineGrans w.2 m u.src sectors
        if w.1 then nextUnit g.2 n m g.1 else completeMove w.2 n m.order .refused
      | none =>
        if q.tier = 2 ∧ m.ans = none then
          (if portOut s q.loc then completeMove s n m.order .isolated else askMove s n m q.loc)
        else if q.tier = 2 ∧ m.ans ≠ some .ok then completeMove s n m.order .refused
        else
          match placeWrite s q (BitVec.allOnes 64) v.1 v.2 with
          | (none, s1) => nextUnit s1 n m (if u.quiet then [] else [v.1])
          | (some _, s1) => completeMove s1 n m.order .refused
  | none =>
    if v.2 then completeMove s n m.order .refused
    else
      match zoneOf s m with
      | none => completeMove s n m.order .dropped
      | some (st, z) =>
        let off := z.off + 64 * m.a.zoff.toNat + 64 * m.written
        nextUnit (noteProgress (spWrite s (landCore m.a) st.cgen off (granBytes v.1 0 64)) st.crew) n m [v.1]

/-- A member's move whose next granule is not there: it completes where its shard failed, where this package is removed, where
the stream has ended; else it waits (R332, R352). None where the granule is there. -/
def memberStep (s : State) (n : Nat) (m : MoveSt) (x : Stream2) : Option State :=
  let stuck :=
    if s.cuts.contains x.epoch then completeMove s n m.order .isolated
    else if s.ends.contains x.epoch then completeMove s n m.order .dropped
    else s
  match shardAt s x.epoch m.shard with
  | none => some stuck
  | some h =>
    match h.fail with
    | some st => some (completeMove s n m.order st)
    | none => if m.written < h.data.length then none else some stuck

/-- A move whose units are all written completes DONE. -/
def finishMove (s : State) (n : Nat) (m : MoveSt) : State :=
  if m.a.dtier = 3#2 then finishLanding s n m else completeMove s n m.order .done

/-- Whether a unit needs a device that a thermal event holds (R367). -/
def unitHot (s : State) (u : MUnit) : Bool :=
  let hot := fun (p : Option Place) => (p.map fun p => p.tier != 2 && (mapGet {} s.ctls p.ctrl).hot).getD false
  hot u.src || hot u.dst

/-- A move advances by a read and a write of one unit, or completes, or pushes its token. -/
def moveStep (s : State) (n : Nat) (m : MoveSt) : State :=
  if m.status.isSome then pushToken s n m
  else
    match m.units with
    | [] => finishMove s n m
    | u :: _ =>
      if unitHot s u then s
      else
        match (if m.member then m.str.bind (memberStep s n m) else none), m.val with
        | some s1, _ => s1
        | none, some v => unitWrite s n m u v
        | none, none =>
          match unitRead s (ctxAt s n).die m u with
          | .ask port s1 => askMove s1 n m port
          | .fail st s1 => completeMove s1 n m.order st
          | .ok v po s1 =>
            let m1 := { m with
              val := some (v, po)
              ans := none
              asked := false }
            unitWrite (modMove s1 n m.order fun _ => m1) n m1 u (v, po)

/-- Every move of a context advances by one unit, in order. -/
def stepMoves (s : State) (n : Nat) : State :=
  ((ctxAt s n).moves.map (·.order)).foldl (fun s o =>
    match moveOf (ctxAt s n) o with
    | some m => moveStep s n m
    | none => s) s

/-! ## The frame of an entry (R338, R339) -/

/-- What an entry's meaning answers: it has started and completes later; it completes with a status; it has started and holds
the entries after it; it is considered and cannot start yet; it completes and goes on at another entry; it ends the itinerary. -/
inductive EEff where
  | started (s : State)
  | done (s : State) (st : Status)
  | hold (s : State)
  | block (s : State)
  | jump (s : State) (target : Nat)
  | finish (s : State)

/-- The lateness field of the entry under consideration: a MOVE's (R330), from its DUE in word 7; else 0. -/
def entryLate (s : State) (c : TeCtx) : Nat :=
  match c.held with
  | some ws => if fieldOf (wordAt ws 0) 24 8 = 1 then latenessAt s c (effTick c (wordAt ws 7).toNat) else 0
  | none => 0

/-- The core and zone that an entry's words name, where it is a landing. -/
def landingOf (idx : Nat) (ws : List Word) : Option (Nat × Nat) :=
  match decodeEntry idx ws with
  | .ok (.move a) => if a.dtier = 3#2 then some (landCore a, a.z.toNat) else none
  | _ => none

/-- Execution falls through past entry 2047 once every member of the group before has started (R336, R347). -/
def fallThrough (s : State) (n : Nat) : State :=
  let c := ctxAt s n
  if 2048 ≤ c.idx ∧ c.pend = [] then stopCtx s n 3 else s

/-- The context goes past the entry under consideration. -/
def passEntry (s : State) (n : Nat) : State :=
  fallThrough (modCtx s n fun c =>
    if c.again then { c with
      held := none
      pend := c.pend.filter fun p => p.order != c.cord }
    else { c with
      held := none
      order := c.order + 1
      gust := c.gust - 1
      idx := c.idx + 1 }) n

/-- A MOVE of a group that its window holds back stands among those passed over; one of a multicast stream takes its number there
(R332, R347). -/
def pendEntry (c : TeCtx) (ws : List Word) : TeCtx :=
  let mc := match decodeEntry c.cidx ws with
    | .ok (.move a) => a.mc
    | _ => false
  { c with
    pend := c.pend ++ [{ idx := c.cidx, order := c.cord, ws := ws, zone := landingOf c.cidx ws
                         shard := if mc then c.mc.map Stream2.next else none }]
    mc := if mc then c.mc.map fun x => { x with next := x.next + 1 } else c.mc }

/-- The end of an entry's consideration. -/
def closeEntry (n : Nat) (r : EEff) : State :=
  match r with
  | .started s => passEntry s n
  | .done s st =>
    let c := ctxAt s n
    let s1 := entryStatus s n c.cidx c.cord st (entryLate s c)
    if st = .illegal ∨ st = .reserved then stopCtx (modCtx s1 n fun c => { c with held := none }) n 1
    else passEntry s1 n
  | .hold s => s
  | .block s =>
    let c := ctxAt s n
    if c.again then modCtx s n fun c => { c with held := none }
    else
      match c.held with
      | some ws => if c.gust = 0 then s else passEntry (modCtx s n fun c => pendEntry c ws) n
      | none => s
  | .jump s t =>
    let c := ctxAt s n
    modCtx (entryStatus s n c.cidx c.cord .done 0) n fun c => { c with
      held := none
      order := c.order + 1
      idx := t }
  | .finish s =>
    let c := ctxAt s n
    modCtx (entryStatus (leaveStream s n) n c.cidx c.cord .done 0) n fun c => { c with
      held := none
      active := false
      stopping := false }

/-- The frame of every entry. -/
def runEntry (body : State → Nat → TeCtx → EEff) (s : State) : Out :=
  match s.cur with
  | .ctx n => .next (closeEntry n (body s n (ctxAt s n)))
  | _ => .fault .noContext

/-! ## The entries -/

/-- The quad that a context serves by a move (R333): that of the core a LAND move names. -/
def servedQuad (a : MoveArgs) : Option Nat :=
  if a.dtier = 3#2 ∧ a.core.toNat < coresPerDie then some (quadOf (landCore a)) else none

/-- The quad of a LAND move's core is served by the context: of an entry too that a store or a REPEAT brought in after the
itinerary was accepted. -/
def serveQuad (s : State) (n : Nat) (a : MoveArgs) : State :=
  match servedQuad a with
  | some q => modCtx s n fun c => { c with served := if c.served.contains q then c.served else c.served ++ [q] }
  | none => s

/-- The packages whose acknowledgement the source of a stream awaits for a shard: those of PMASK that have not acknowledged it
already (R332). -/
def awaitedAcks (s : State) (x : Stream2) (k : Nat) : List Nat :=
  (bitList 16 x.pmask).filter fun p => !s.acked.contains (x.epoch, k, p)

/-- The shard number that a group member took as it was passed over. -/
def takenShard (c : TeCtx) : Option Nat :=
  if c.again then (c.pend.find? fun p => p.order == c.cord).bind Pend.shard else none

/-- A MOVE starts: its checks, its place in the stream, its units. A member that its source has removed goes on ISOLATED, unless
some of its shard came before (R332). -/
def startMove (s : State) (n : Nat) (c : TeCtx) (a : MoveArgs) : State :=
  let str := if a.mc then c.mc else none
  let taken := takenShard c
  let shard := taken.getD ((str.map (·.next)).getD 0)
  let member := (str.map fun x => !isHere x.src).getD false
  let cut := member && s.caps.ovl && (str.map fun x => s.cuts.contains x.epoch && (shardAt s x.epoch shard).isNone).getD false
  let r := startChecks (serveQuad s n a) c a (!member)
  let units : Except Status (List MUnit) := if cut then .error .isolated else r.1
  let m : MoveSt :=
    { idx := c.cidx, order := c.cord, a := a, due := effTick c a.due.toNat, started := s.frame.toNat
      sid := ((landZone r.2 a).map fun z => z.1.sid).getD 0, str := str, member := member
      shard := shard
      acks := if member then [] else (str.map fun x => awaitedAcks s x shard).getD []
      units := match units with
        | .ok u => u
        | .error _ => [] }
  let s1 := modCtx r.2 n fun c => { c with
    moves := c.moves ++ [m]
    mc := if a.mc && taken.isNone then c.mc.map fun x => { x with next := x.next + 1 } else c.mc }
  match units with
  | .ok _ => s1
  | .error st => completeMove s1 n m.order st

/-- R331, R341. -/
def execMove (a : MoveArgs) (s : State) : Out :=
  runEntry (fun s n c =>
    if a.mc && c.mc.isNone then .done s .reserved
    else if winOf c a.wclass.toNat ≤ openMoves c a.wclass.toNat then .block s
    else .started (startMove s n c a)) s

/-- R329, R330, R332: a stream begins; the one before it ends. DESIGN CHOICE (log entry 87): where Ovlan Link is absent, members
that R330 makes RESERVED are reported first. -/
def execMcast (pmask : BitVec 16) (src : BitVec 4) (grp : BitVec 8) (epoch : BitVec 32) (ackto : BitVec 16) (s : State) :
    Out :=
  runEntry (fun s n _ =>
    if !pmask.getLsbD src.toNat || !pmask.getLsbD Config.package.toNat then .done s .reserved
    else
      let x : Stream2 :=
        { epoch := epoch, pmask := pmask, src := src, grp := grp, ackto := if ackto = 0#16 then 4096 else ackto.toNat }
      let s1 := modCtx (leaveStream s n) n fun c => { c with
        mc := some x
        left := c.left.filter fun e => e.1 != epoch }
      .done s1 (if s1.caps.ovl then .done else .absent)) s

/-- The hint records of a range of `n` bytes (Table 16.5), page by page from an offset on, with fuel; `pg` is the record's
page. -/
def hintRecords (fuel : Nat) (s : State) (c : TeCtx) (obj port pg off n : Nat) (when_ : DWord) : State :=
  match fuel with
  | 0 => s
  | f + 1 =>
    if n = 0 then s
    else
      match tePlace s c.die c.space obj off with
      | (none, s1) => s1
      | (some (p, _), s1) =>
        let k := min n (pg - p.pa % pg)
        let w : DWord := d64 p.pa
        let s2 := emit s1 (.hint port (portAt s1 port).hintAddr [0x48494E54#32, BitVec.ofNat 32 ((p.pa % 64 + k + 63) / 64),
          bits w 0 32, bits w 32 32, bits when_ 0 32, bits when_ 32 32, 0#32, 0#32])
        hintRecords f s2 c obj port pg (off + k) (n - k) when_

/-- Whether every sector of a range of `n` bytes has a place. -/
def rangeOk (fuel : Nat) (s : State) (c : TeCtx) (obj off n : Nat) : Bool :=
  match fuel with
  | 0 => true
  | f + 1 =>
    if n = 0 then true
    else
      let k := min n (512 - off % 512)
      (tePlace s c.die c.space obj off).1.isSome && rangeOk f s c obj (off + k) (n - k)

/-- R343: rows 2 to 4 of Table 16.4 on a hint's range, then its records. -/
def hintPool (s : State) (c : TeCtx) (obj gen len : Nat) (off : BitVec 40) (at_ : Nat) : EEff :=
  let r := teEntry s c.die c.space obj off.toNat
  match r.1 with
  | none => .done r.2 .refused
  | some e =>
    if oeTier e = 2 ∧ r.2.caps.cxlPorts.toNat ≤ oeLoc e then .done r.2 .absent
    else if oeTier e = 2 ∧ portOut r.2 (oeLoc e) = true then .done r.2 .isolated
    else
      match effOff off c.sacc with
      | none => .done r.2 .refused
      | some o =>
        let pg := if oeKind e = 0 then 8192 else pageSize e
        if objBad r.2 c.die e gen 2 o (64 * len) || !rangeOk (len + 1) r.2 c obj o (64 * len) then .done r.2 .refused
        else if !(portAt r.2 (oeLoc e)).hintV then .done r.2 .done
        else
          let w : DWord := d64 (c.t0 + at_) + c.tbase.signExtend 64 + c.dofs.signExtend 64
          .done (hintRecords 16 r.2 c obj (oeLoc e) pg o (64 * len) w) .done

/-- R343. DESIGN CHOICE (log entry 87): a hint on an absent BULK completes ABSENT (R4), not DONE (R343). -/
def execHint (tier : BitVec 2) (obj : BitVec 24) (gen len : BitVec 16) (off : BitVec 40) (at_ : BitVec 24) (s : State) :
    Out :=
  runEntry (fun s _ c =>
    if tier = 2#2 then hintPool s c obj.toNat gen.toNat len.toNat off at_.toNat
    else .done s (if tier = 3#2 then .reserved else if tier = 1#2 ∧ s.bulkSize = 0 then .absent else .done)) s

/-- R344. -/
def execWaitw (wclass : BitVec 4) (n : BitVec 7) (s : State) : Out :=
  runEntry (fun s _ c => if openMoves c wclass.toNat ≤ n.toNat then .done s .done else .hold s) s

/-- R345: the mark starts at once, and its adds follow every earlier entry's completion. -/
def execMark (sem : BitVec 12) (fen : Bool) (fsem : BitVec 12) (add : BitVec 32) (s : State) : Out :=
  runEntry (fun s n c =>
    let k : MarkSt :=
      { idx := c.cidx, order := c.cord, sem := sem.toNat, fen := fen, fsem := fsem.toNat, add := add }
    let s1 := modCtx s n fun c => { c with marks := c.marks ++ [k] }
    .started (settleMarks (c.marks.length + 1) s1 n)) s

/-- The accumulators of a context moved by a number of strides (R346). -/
def addStride (c : TeCtx) (sadv dadv : Bool) (d : Int) : TeCtx :=
  { c with
    sacc := if sadv then c.sacc + i64 d else c.sacc
    dacc := if dadv then c.dacc + i64 d else c.dacc }

/-- R346. -/
def execRepeatE (target : BitVec 11) (lvl : BitVec 2) (sadv dadv : Bool) (count step stride : BitVec 16) (s : State) :
    Out :=
  runEntry (fun s n c =>
    let l := lvl.toNat
    let armed := c.arm.getLsbD l
    if !armed && count == 0#16 then .done s .done
    else
      let rem := if armed then mapGet 0#16 c.rem l else count
      let one : Int := stride.toInt * 65536
      if rem ≠ 0#16 then
        .jump (modCtx s n fun c => addStride { c with
          arm := c.arm ||| (1#4 <<< l)
          rem := mapSet 0#16 c.rem l (rem - 1)
          dofs := c.dofs + step.setWidth 32 } sadv dadv one) target.toNat
      else
        .done (modCtx s n fun c => addStride { c with
          arm := c.arm &&& ~~~(1#4 <<< l)
          rem := mapSet 0#16 c.rem l 0#16
          dofs := c.dofs - count.setWidth 32 * step.setWidth 32 } sadv dadv (-(one * count.toNat))) .done) s

/-- R347: at its release tick the next N entries become its group. -/
def execGust (n : BitVec 7) (tick : BitVec 32) (s : State) : Out :=
  runEntry (fun s k c =>
    if effTick c tick.toNat ≤ itinTick s c then .done (modCtx s k fun c => { c with gust := n.toNat + 1 }) .done
    else .hold s) s

/-- A gatherer context. -/
def rqAt (s : State) (r : Nat) : RqCtx := mapGet {} s.rq r

/-- A context asks a CXL port for what the entry it considers needs, once (R370). -/
def askEntry (s : State) (n port : Nat) : State :=
  if (ctxAt s n).asked then s else sendCxl (modCtx s n fun c => { c with asked := true }) port (.entry n)

/-- The answer of a context's request has been used. -/
def spendEntry (s : State) (n : Nat) : State :=
  modCtx s n fun c => { c with
    ans := none
    asked := false }

/-- N of a batch, from its log entry in the ring (R334). -/
def batchSize (s : State) (c : TeCtx) (g : RqCtx) (b : BitVec 32) : CpAcc :=
  cpRead s g.die c.ans g.space g.obj g.gen (0x44 + 16 * (b.toNat % 64)) 4

/-- R348. -/
def execBatch (rctx : BitVec 4) (rebase : Bool) (sem : BitVec 12) (sen : Bool) (tref : BitVec 32) (s : State) : Out :=
  runEntry (fun s n c =>
    let g := rqAt s rctx.toNat
    let ahead := g.nb - c.bseen
    if !s.caps.rqg then .done s .absent
    else if !g.active then .done s .refused
    else if ahead.toNat ≤ g.rels.length ∨ 2 ^ 31 ≤ ahead.toNat then .hold s
    else if 64 < ahead.toNat then .done (modCtx s n fun c => { c with bseen := g.nb }) .refused
    else
      match if sen then batchSize s c g c.bseen else .ok [] s with
      | .ask p s1 => .hold (askEntry s1 n p)
      | .fail s1 => .done (spendEntry s1 n) .refused
      | .ok l s1 =>
        let k : BitVec 32 := ofBytes 32 l
        let s2 := spendEntry (if sen then semAdd s1 c.die sem.toNat (k.setWidth 64) else s1) n
        .done (modCtx s2 n fun c => { c with
          bseen := c.bseen + 1
          tbase := if rebase then BitVec.ofInt 32 (itinTick s c) - tref else c.tbase }) .done) s

/-- R349, R352: the itinerary leaves its stream as it reaches END, and ends once every earlier entry has completed. -/
def execItinEnd (s : State) : Out :=
  runEntry (fun s n c =>
    if c.moves.all (fun m => m.status.isSome) && c.marks.isEmpty then .finish s else .hold (leaveStream s n)) s

/-! ## ITIN (R300, R336) -/

/-- The quads that hold a core named by a LAND move of an itinerary (R333): of its entries from one on, as they stand in
memory, up to its END, to an entry that would stop it, or to one that cannot be read. This is no access of the tier engine, which
reads an entry as it considers it (R336). -/
def landQuads (s : State) (die space obj gen : Nat) : Nat → Nat → List Nat
  | 0, _ => []
  | fuel + 1, i =>
    match cpRead s die (some .ok) space obj gen (32 * i) 32 with
    | .ok l _ =>
      match decodeEntry i ((List.range 8).map fun k => ofBytes 32 ((l.drop (4 * k)).take 4)) with
      | .ok .itinEnd => []
      | .ok (.move a) =>
        let r := landQuads s die space obj gen fuel (i + 1)
        match servedQuad a with
        | some q => if r.contains q then r else q :: r
        | none => r
      | .ok _ => landQuads s die space obj gen fuel (i + 1)
      | .error _ => []
    | _ => []

/-- A context accepts an itinerary: it keeps its configuration, the cause of its last stop, and the moves whose credit is still
out (R336, R350). -/
def acceptItin (s : State) (n die space obj gen first : Nat) : State :=
  let s1 := modCtx s n fun c =>
    { lateHi := c.lateHi, lateLo := c.lateLo, win := c.win, left := c.left, cause := c.cause, moves := c.moves
      order := c.order + 1, first := c.order + 1, active := true, idx := min first 2047
      space := space, obj := obj, gen := gen, t0 := s.frame.toNat, die := die
      served := landQuads s die space obj gen (2048 - first) first }
  if 2047 < first then stopCtx s1 n 3 else s1

/-- R300. -/
def execItin (ctx : BitVec 8) (obj : BitVec 24) (gen : BitVec 16) (first : BitVec 32) (s : State) : Out :=
  runPacket 4 (fun s die _ x _ =>
    if (ctxAt s ctx.toNat).active then .wait s
    else .done (acceptItin s ctx.toNat die x.space obj.toNat gen.toNat first.toNat)) s

end Sys2Proof.Machine
end

