-- ==== Sys2Proof/Machine/Gather.lean ====
section
/-! DEFINITION. The request gatherer (R301, R334, R354): the ring, batches and their closes, and GATHER. -/
namespace Sys2Proof.Machine
open Sys2Proof

/-- A gatherer context changed by `f`. -/
def modRq (s : State) (r : Nat) (f : RqCtx → RqCtx) : State := { s with rq := mapMod {} s.rq r f }

/-- A context of the gatherer asks a CXL port, once (R370). -/
def askRing (s : State) (r port : Nat) : State :=
  if (rqAt s r).asked then s else sendCxl (modRq s r fun g => { g with asked := true }) port (.ring r)

/-- The answer of its request has been used. -/
def spendRing (s : State) (r : Nat) : State :=
  modRq s r fun g => { g with
    ans := none
    asked := false }

/-- A gatherer context stops with a cause (R354); an open batch stays open. -/
def stopRq (s : State) (r cause : Nat) : State :=
  modRq s r fun g => { g with
    active := false
    stopAsk := false
    closing := []
    cause := cause }

/-- Stores that have been neither performed nor failed, of a list. -/
def stillOpen (s : State) (l : List (Nat × Nat)) : List (Nat × Nat) :=
  let o := (allStores s).map fun w => (w.sid, w.seq)
  l.filter o.contains

/-- The releases of a context's closes, in order, each once the stores it covers are performed or have failed (R334); with
fuel. -/
def settleRels (fuel : Nat) (s : State) (r : Nat) : State :=
  match fuel, (rqAt s r).rels with
  | f + 1, (die, sem, n, l) :: rest =>
    if stillOpen s l = [] then
      settleRels f (semAdd (modRq s r fun g => { g with rels := rest }) die sem (d64 n)) r
    else s
  | _, _ => s

/-- A close has made its ring writes: the next batch may open, and the release follows, which covers the stores that precede the
TAIL read, and the semaphore. -/
def finishClose (s : State) (r : Nat) : State :=
  settleRels ((rqAt s r).rels.length + 1) (modRq s r fun g => { g with
    closing := []
    openV := false
    openN := 0
    head := g.head + BitVec.ofNat 32 g.openN
    nb := g.nb + 1
    rels := g.rels ++ [(g.die, g.sem, g.openN, stillOpen s g.cover)] }) r

/-- The ring writes of a close, in order; one to POOL waits for its completion. A refused one stops the context, and no batch
closes (R354). -/
def putRing (s : State) (r : Nat) : List (Nat × List Word) → State
  | [] => finishClose s r
  | (off, ws) :: rest =>
    let g := rqAt s r
    match cpWrite s g.die g.ans g.space g.obj g.gen off (ws.flatMap (toBytes 4)) with
    | .ok _ s1 => putRing (spendRing s1 r) r rest
    | .fail s1 => stopRq (spendRing s1 r) r 2
    | .ask p s1 => askRing (modRq s1 r fun g => { g with closing := (off, ws) :: rest }) r p

/-- The open batch of a context closes, on count (0) or on deadline (1): log entry, HEAD, BATCHES. -/
def closeBatch (s : State) (r reason : Nat) : State :=
  let g := rqAt s r
  putRing s r
    [(0x40 + 16 * (g.nb.toNat % 64), [g.head, BitVec.ofNat 32 g.openN, s.frame.setWidth 32, BitVec.ofNat 32 reason]),
     (0x04, [g.head + BitVec.ofNat 32 g.openN]), (0x0C, [g.nb + 1])]

/-- A batch opens, under the limits that GATHER last gave. -/
def openBatch (s : State) (r : Nat) : State :=
  modRq s r fun g => { g with
    openV := true
    openAt := s.frame.toNat
    openN := 0
    batchN := g.pendBatchN
    deadline := g.pendDeadline
    sem := g.pendSem }

/-- New requests are taken in order (R334), with fuel: each finds a batch open or opens one; a full one closes at once. -/
def takeRequests (fuel : Nat) (s : State) (r n : Nat) : State :=
  match fuel with
  | 0 => s
  | f + 1 =>
    if n = 0 ∨ (rqAt s r).active = false ∨ (rqAt s r).closing ≠ [] then s
    else
      let s1 := if (rqAt s r).openV then s else openBatch s r
      let g := rqAt s1 r
      let k := min n (g.batchN - g.openN)
      let s2 := modRq s1 r fun g => { g with openN := g.openN + k }
      let s3 := if g.batchN ≤ g.openN + k then closeBatch s2 r 0 else s2
      takeRequests f s3 r (n - k)

/-- An open batch whose deadline has passed closes. -/
def deadlineClose (s : State) (r : Nat) : State :=
  let g := rqAt s r
  if g.active ∧ g.openV ∧ g.closing = [] ∧ g.deadline ≤ s.frame.toNat - g.openAt then closeBatch s r 1 else s

/-- TAIL is read, the stores that precede it being those accepted by then; the new requests are taken, and an open batch whose
deadline has passed closes (R334). -/
def readTail (s : State) (r : Nat) : State :=
  let g := rqAt s r
  match cpRead s g.die g.ans g.space g.obj g.gen 0 4 with
  | .ask p s1 => askRing s1 r p
  | .fail s1 => stopRq (spendRing s1 r) r 2
  | .ok l s1 =>
    let tail : BitVec 32 := ofBytes 32 l
    let s2 := modRq (spendRing s1 r) r fun g => { g with cover := (allStores s).map fun w => (w.sid, w.seq) }
    if 2 ^ g.log2n < (tail - g.head).toNat then stopRq (logEvent s2 7 r) r 1
    else
      let n := (tail - g.head - BitVec.ofNat 32 g.openN).toNat
      deadlineClose (takeRequests (n + 1) s2 r n) r

/-- A stop that was asked for: the open batch closes as on deadline, and the context becomes idle once it has. -/
def rqStopping (s : State) (r : Nat) : State :=
  let s1 := if (rqAt s r).openV then closeBatch s r 1 else s
  if (rqAt s1 r).active ∧ (rqAt s1 r).closing = [] then stopRq s1 r 3 else s1

/-- What a gatherer context does at each advance of FRAME (R334, R354): it goes on with a close under way, once the CXL completion
it waits for has come; then it stops, or reads TAIL. -/
def rqFrame (s : State) (r : Nat) : State :=
  let s0 := settleRels (rqAt s r).rels.length s r
  let g := rqAt s0 r
  if !g.active || g.asked then s0
  else
    let s1 := if g.closing = [] then s0 else putRing s0 r g.closing
    let g1 := rqAt s1 r
    if !g1.active || !g1.closing.isEmpty then s1
    else if g1.stopAsk then rqStopping s1 r
    else readTail s1 r

/-- A gatherer context at an advance of FRAME: what needs a device in self-refresh waits, the releases that are due aside
(R367). -/
def rqTurn (s : State) (r : Nat) : State :=
  let t := rqFrame { s with stall := false } r
  if t.stall then settleRels (rqAt s r).rels.length s r else { t with stall := s.stall }

/-- DEADLINE_CLOSE. -/
def execDeadlineClose (rctx : Nat) (s : State) : Out := .next (deadlineClose s rctx)

/-- RQC_STOP: noted until the next advance of FRAME. -/
def execRqcStop (rctx : Nat) (s : State) : Out :=
  .next (modRq s rctx fun g => { g with stopAsk := g.active })

/-- The header of a ring object, from its bytes: its size as a logarithm and its HEAD; none where it is malformed. -/
def ringHeader (s : State) (die space obj : Nat) (l : List Byte) : Option (Nat × BitVec 32) × State :=
  let n := numAt l 8 4
  if n < 4 ∨ 12 < n ∨ zeroAt l 16 48 = false then (none, s)
  else
    match lookup s die space obj 0 with
    | (some (e, _), s1) => (if oeLen e < 0x1000 + 64 * 2 ^ n then none else some (n, ofBytes 32 ((l.drop 4).take 4)), s1)
    | (none, s1) => (none, s1)

/-- R301. DESIGN CHOICE (log entry 87): of an absent gatherer and operands out of range, QUEUE_ABSENT is reported. It waits
for a CXL request that the context's last run has left under way. -/
def execGather (rctx : BitVec 4) (obj : BitVec 24) (gen : BitVec 16) (batchN : BitVec 13) (deadline : BitVec 32)
    (sem : BitVec 12) (s : State) : Out :=
  runPacket 6 (fun s die q x _ =>
    let r := rctx.toNat
    let g := rqAt s r
    let lim := fun (s : State) => modRq s r fun g => { g with
      pendBatchN := batchN.toNat
      pendDeadline := deadline.toNat
      pendSem := sem.toNat }
    if !s.caps.rqg then .stop s .absent
    else if batchN.toNat = 0 ∨ 4096 < batchN.toNat ∨ deadline = 0#32 then .stop s .format
    else if g.active then
      (if g.obj = obj.toNat ∧ g.gen = gen.toNat then .done (lim s) else .stop s .format)
    else if g.asked then .wait s
    else
      match cpRead s die x.ans x.space obj.toNat gen.toNat 0 64 with
      | .ask p s1 => .wait (askQueue s1 die q p)
      | .fail s1 => .stop s1 .access
      | .ok l s1 =>
        match ringHeader s1 die x.space obj.toNat l with
        | (none, s2) => .stop s2 .access
        | (some (n, h), s2) =>
          .done (lim (modRq s2 r fun g =>
            { active := true, obj := obj.toNat, gen := gen.toNat, space := x.space, die := die, log2n := n, head := h
              cause := g.cause, rels := g.rels }))) s

end Sys2Proof.Machine
end

