-- ==== Sys2Proof/Machine/Itinerary.lean ====
section
/-! DEFINITION. The turn of a tier-engine context (R336, R338, R347, R349), the events of the tier engine and of Ovlan Link
(R332, R333, R352), and its registers' commands (R337). -/
namespace Sys2Proof.Machine
open Sys2Proof

/-! ## Considering an entry -/

/-- An entry, read whole from one granule (R336); one in POOL waits for its completion (R370). -/
def readEntry (s : State) (c : TeCtx) (idx : Nat) : CpAcc := cpRead s c.die c.ans c.space c.obj c.gen (32 * idx) 32

/-- The words of an entry. -/
def itinWords (l : List Byte) : List Word := (List.range 8).map fun i => ofBytes 32 ((l.drop (4 * i)).take 4)

/-- The meaning of a decoded entry: that of its instruction. -/
def execEntry : Entry → State → Out
  | .move a => execMove a
  | .mcast pmask src grp epoch ackto => execMcast pmask src grp epoch ackto
  | .hint tier obj gen len off at_ => execHint tier obj gen len off at_
  | .waitw wclass n => execWaitw wclass n
  | .mark sem fen fsem add => execMark sem fen fsem add
  | .repeatE target lvl sadv dadv count step stride => execRepeatE target lvl sadv dadv count step stride
  | .gust n tick => execGust n tick
  | .batch rctx rebase sem sen tref => execBatch rctx rebase sem sen tref
  | .itinEnd => execItinEnd

/-- No party acts after a context's turn. -/
def closeCtx (o : Out) : Out :=
  match o with
  | .next s => .next { s with cur := .none }
  | o => o

/-- The entry under consideration runs, or completes with the status its decode gives (R339). -/
def runWords (s : State) (n idx : Nat) (ws : List Word) : Out :=
  let s1 := { modCtx s n fun c => { c with held := some ws } with cur := .ctx n }
  match decodeEntry idx ws with
  | .ok e => closeCtx (execEntry e s1)
  | .error st => closeCtx (.next (closeEntry n (.done s1 st)))

/-- Whether a word list is a MOVE or a HINT, which a GUST's group may hold. -/
def groupKind (ws : List Word) : Bool := fieldOf (wordAt ws 0) 24 8 == 1 || fieldOf (wordAt ws 0) 24 8 == 3

/-- Whether an entry is a MOVE that its class's window holds back. -/
def blockedMove (c : TeCtx) (idx : Nat) (ws : List Word) : Bool :=
  match decodeEntry idx ws with
  | .ok (.move a) => decide (winOf c a.wclass.toNat ≤ openMoves c a.wclass.toNat)
  | _ => false

/-- The first group member passed over that may start now. -/
def firstPend (c : TeCtx) : Option Pend := c.pend.find? fun p => !blockedMove c p.idx p.ws

/-- The next entry in order, read, is considered; an entry of another kind ends a group and waits for its members (R347). -/
def considerWords (s : State) (n : Nat) (ws : List Word) : Out :=
  let c := ctxAt s n
  let s1 := modCtx s n fun c => { c with
    cidx := c.idx
    cord := c.order
    again := false }
  if groupKind ws && decide (0 < c.gust) then runWords s1 n c.idx ws
  else if c.pend.isEmpty then runWords (modCtx s1 n fun c => { c with gust := 0 }) n c.idx ws
  else .next (modCtx s n fun c => { c with gust := 0 })

/-- The next entry in order is read. -/
def considerNext (s : State) (n : Nat) : Out :=
  let c := ctxAt s n
  if 2048 ≤ c.idx then .next s
  else
    match readEntry s c c.idx with
    | .ask p s1 => .next (askEntry s1 n p)
    | .fail s1 => .next (stopCtx (spendEntry s1 n) n 2)
    | .ok l s1 => considerWords (spendEntry s1 n) n (itinWords l)

/-- The entry that a context considers: one that is considered and holds the later ones; a passed-over group member that may
start; else the next in order. A context that stops becomes idle once what it has started has completed. -/
def considerEntry (s : State) (n : Nat) : Out :=
  let c := ctxAt s n
  match c.held with
  | some ws => runWords s n c.cidx ws
  | none =>
    if c.stopping then
      .next (if c.moves.all (fun m => m.status.isSome) && c.marks.isEmpty && !c.asked then
        modCtx (spendEntry s n) n fun c => { c with
          active := false
          stopping := false } else s)
    else
      match firstPend c with
      | some p =>
        runWords (modCtx s n fun c => { c with
          cidx := p.idx
          cord := p.order
          again := true }) n p.idx p.ws
      | none => if c.pend.isEmpty || decide (0 < c.gust) then considerNext s n else .next s

/-- Whether a context may consider its entry during a thermal event, which lets it start none (R367): one that has started, or
its stop. -/
def mayConsider (s : State) (c : TeCtx) : Bool :=
  c.active && (s.thermal.isEmpty || c.stopping || (c.held.map fun ws => !isMove ws).getD false)

/-- A context's turn: its moves advance, then it considers an entry; during a thermal event it starts none (R367). -/
def ctxTurn (s : State) (n : Nat) : Out :=
  let s1 := stepMoves s n
  let s2 := settleMarks (ctxAt s1 n).marks.length s1 n
  let c := ctxAt s2 n
  if mayConsider s c then considerEntry s2 n else .next s2

/-! ## Events of the tier engine -/

/-- GUST_RELEASE (R347): a GUST that has started on a context completes, where its tick is reached. -/
def execGustRelease (ctx : Nat) (s : State) : Out :=
  let c := ctxAt s ctx
  match c.held with
  | none => .next s
  | some ws =>
    match decodeEntry c.cidx ws with
    | .ok (.gust n tick) => closeCtx (execGust n tick { s with cur := .ctx ctx })
    | _ => .next s

/-- LANDING_DONE (R333): the first landing of a context whose bytes are all written completes, or pushes its token. -/
def execLandingDone (ctx : Nat) (s : State) : Out :=
  match (ctxAt s ctx).moves.find? fun m => m.a.dtier == 3#2 && m.units.isEmpty && (m.status.isNone || m.token) with
  | some m => .next (moveStep s ctx m)
  | none => .next s

/-- MOVE_COMPLETE (R341): a MOVE to STAGE, BULK or POOL whose last write is performed completes. -/
def execMoveComplete (ctx idx : Nat) (s : State) : Out :=
  match (ctxAt s ctx).moves.find? fun m => m.idx == idx && m.status.isNone && m.a.dtier != 3#2 && m.units.isEmpty with
  | some m => .next (finishMove s ctx m)
  | none => .next s

/-! ## Ovlan Link (R332, R352) -/

/-- The keys of the contexts that are listed. -/
def ctxKeys (s : State) : List Nat := s.te.map Prod.fst

/-- Granules of a shard, or its failure, join what has arrived of it. -/
def holdShard (s : State) (h : Shard) : State :=
  match shardAt s h.epoch h.k with
  | some g => { dropShard s h.epoch h.k with shards := (dropShard s h.epoch h.k).shards ++
      [{ g with data := g.data ++ h.data, fail := g.fail <|> h.fail }] }
  | none => { s with shards := s.shards ++ [h] }

/-- Flits of a shard reach this package as a member: held for its move; ignored after a removal, or where its move has
completed; discarded and acknowledged where the itinerary has left the stream. -/
def arriveShard (s : State) (h : Shard) : State :=
  let waits := s.te.any fun c => c.2.moves.any fun m => waitsShard m h.epoch h.k
  if s.cuts.contains h.epoch then s
  else if waits then holdShard s h
  else
    match memberOf s h.epoch, leftStream s h.epoch with
    | some c, _ =>
      if h.k < (c.mc.map (·.next)).getD 0 ∧ (pendShards c).contains h.k = false then s else holdShard s h
    | none, some src => toPackage s src.toNat (.ack src h.epoch h.k)
    | none, none => holdShard s h

/-- The waiting moves of a stream of a member learn that nothing more comes. -/
def settleMembers (s : State) : State :=
  (ctxKeys s).foldl (fun s n =>
    ((ctxAt s n).moves.map (·.order)).foldl (fun s o =>
      match moveOf (ctxAt s n) o with
      | some m =>
        match m.str with
        | some x => if waitsShard m x.epoch m.shard then (memberStep s n m x).getD s else s
        | none => s
      | none => s) s) s

/-- SHARD_FLIT: the next granules of a shard. -/
def execShardFlit (epoch : BitVec 32) (k : Nat) (granules : List Granule) (s : State) : Out :=
  .next (arriveShard s { epoch := epoch, k := k, data := granules })

/-- The status of a code of R330. -/
def statusOf (n : Nat) : Status :=
  match n with
  | 1 => .done | 2 => .absent | 3 => .isolated | 4 => .dropped | 5 => .illegal | 6 => .reserved | _ => .refused

/-- FAILURE_FLIT: the member's move completes with the source's status; granules it has landed stand. -/
def execFailureFlit (epoch : BitVec 32) (k status : Nat) (s : State) : Out :=
  .next (settleMembers (arriveShard s { epoch := epoch, k := k, data := [], fail := some (statusOf status) }))

/-- A package no longer stands between moves of a stream and their credit: of one shard, or of every shard. -/
def dropAck (s : State) (epoch : BitVec 32) (pkg : Nat) (k : Option Nat) : State :=
  (ctxKeys s).foldl (fun s n =>
    dropMoves (modCtx s n fun c => { c with
      moves := c.moves.map fun m =>
        if !m.member && (m.str.map fun x => x.epoch == epoch).getD false && (k.map fun k => m.shard == k).getD true then
          { m with acks := m.acks.filter (· != pkg) }
        else m }) n) s

/-- Whether the source of a stream has still to start a shard. -/
def notStarted (s : State) (epoch : BitVec 32) (k : Nat) : Bool :=
  match s.te.findSome? fun c => (c.2.mc.filter fun x => x.epoch == epoch && isHere x.src).map fun x => (x, c.2) with
  | some (x, c) => decide (x.next ≤ k) || (pendShards c).contains k
  | none => !s.te.any fun c => c.2.left.any fun e => e.1 == epoch && isHere e.2

/-- ACK_FLIT: one that comes before the source has started its shard is kept for the start. -/
def execAckFlit (epoch : BitVec 32) (k pkg : Nat) (s : State) : Out :=
  .next (if notStarted s epoch k then
    (if s.acked.contains (epoch, k, pkg) then s else { s with acked := s.acked ++ [(epoch, k, pkg)] })
  else dropAck s epoch pkg (some k))

/-- REMOVAL_FLIT: this package is removed from a stream. -/
def execRemovalFlit (epoch : BitVec 32) (pkg : Nat) (s : State) : Out :=
  if pkg = Config.package.toNat ∧ s.cuts.contains epoch = false then
    .next (forgetStream (settleMembers { s with cuts := s.cuts ++ [epoch] }) epoch)
  else .next s

/-- END_OF_STREAM. -/
def execEndOfStream (epoch : BitVec 32) (s : State) : Out :=
  if s.ends.contains epoch then .next s
  else .next (forgetStream (settleMembers { s with ends := s.ends ++ [epoch] }) epoch)

/-- ACKTO_SOURCE: a member that has not acknowledged shard `k` within ACKTO is removed from the stream. -/
def execAcktoSource (ctx k pkg : Nat) (s : State) : Out :=
  match (ctxAt s ctx).moves.find? fun m => !m.member && m.shard == k && m.acks.contains pkg &&
      pkg != Config.package.toNat && (m.str.map fun x => (m.sent.map fun t => decide (t + x.ackto ≤ s.frame.toNat)).getD
        false).getD false with
  | none => .next s
  | some m =>
    match m.str with
    | none => .next s
    | some x =>
      let s1 := dropAck (logEvent s 6 (pkg * 2 ^ 32 + x.epoch.toNat)) x.epoch pkg none
      let s2 := modCtx s1 ctx fun c => { c with
        mc := c.mc.map fun y => if y.epoch = x.epoch then { y with pmask := y.pmask &&& ~~~(1#16 <<< pkg) } else y }
      .next (toPackage s2 pkg (.removal pkg x.epoch))

/-- ACKTO_MEMBER: an MC move of a context that waits for flits, and every later one of its stream, completes ISOLATED. -/
def execAcktoMember (ctx : Nat) (s : State) : Out :=
  match (ctxAt s ctx).moves.find? fun m =>
      (m.str.map fun x => waitsShard m x.epoch m.shard && decide (m.started + x.ackto ≤ s.frame.toNat) &&
        (memberStep s ctx m x).isSome).getD false with
  | none => .next s
  | some m =>
    match m.str with
    | none => .next s
    | some x =>
      .next (forgetStream (settleMembers { s with
        cuts := if s.cuts.contains x.epoch then s.cuts else s.cuts ++ [x.epoch] }) x.epoch)

/-! ## Commands (Table 16.2) -/

/-- TEC_STOP (R349). -/
def execTecStop (ctx : Nat) (s : State) : Out := .next (stopCtx s ctx 4)

/-- CLRLULL (R337). -/
def execClrLull (ctx : Nat) (s : State) : Out :=
  .next (modCtx s ctx fun c => { c with
    late := 0
    l := 0 })

end Sys2Proof.Machine
end

