-- ==== Sys2Proof/Machine/Host.lean ====
section
/-! DEFINITION. What the host writes: tails and queue commands (R288, R289, R302), the registers of Tables 14.1, 14.5, 16.2,
18.4 to 18.9, 19.8 and 19.11 at their places in BAR 0 (R388 to R390), frames of a pool. -/
namespace Sys2Proof.Machine
open Sys2Proof

/-! ## Tails and queue commands -/

/-- A tail reaches a queue of a running package (R288): a stopped queue records it; one that is no multiple of 4 stops the
queue and leaves TAIL. -/
def writeTail (s : State) (die q : Nat) (tail : BitVec 32) : State :=
  let x := queueAt s die q
  if !x.en then s
  else if x.stop.isSome then modQueue s die q fun x => { x with tail := tail }
  else if !zeroBits tail 0 2 then stopQueue s die q .format true
  else checkTail (modQueue s die q fun x => { x with tail := tail }) die q

/-- A doorbell: ignored until READY and by a queue that is not enabled; recorded in STANDBY; it ends IDLE (R381, R392,
R393). -/
def ringDoorbell (s : State) (die q : Nat) (tail : BitVec 32) : State :=
  if s.off then s
  else if s.pwrState = 2#2 then { s with tails := s.tails ++ [(die, q, tail)] }
  else if s.phase ≠ 7#4 ∨ s.caps.dies.toNat ≤ die ∨ 16 ≤ q then s
  else writeTail { s with
    pwrState := 0#2
    idleSeen := s.frame.toNat } die q tail

/-- DOORBELL. -/
def execDoorbell (die q : Nat) (tail : BitVec 32) (s : State) : Out := .next (ringDoorbell s die q tail)

/-- The words of a queue's next packet that its tail covers already. -/
def wordsReady (s : State) (x : Queue) (n : Nat) : Nat :=
  match x.stack with
  | [] => min n (roomOf s x / 4)
  | _ => n

/-- A queue passes words of a skipped packet as its tail covers them (R289); the head passes them in order (R314). -/
def passSkip (s : State) (die q : Nat) : State :=
  let x := queueAt s die q
  let n := wordsReady s x x.skip
  modQueue s die q fun x => if n = 0 then x else { passBehind x n with skip := x.skip - n }

/-- The header of a stopped packet: as the queue has read it, or as it stands there; a packet whose header cannot be read counts
as one word (R289; log entry 88). -/
def stoppedHeader (s : State) (die : Nat) (x : Queue) : Word :=
  match x.hdr with
  | some h => h
  | none =>
    match queueWords s die x (queuePos s x) 1 with
    | .ok l _ => ofBytes 32 l
    | _ => 0#32

/-- SKIP (R289). -/
def skipQueue (s : State) (die q : Nat) : State :=
  let x := queueAt s die q
  if x.stop.isNone then s
  else
    let go := fun (s : State) => modQueue s die q fun x => { x with
      stop := none
      noPacket := false }
    if x.noPacket then checkTail (go s) die q
    else
      let h := stoppedHeader s die x
      let op := fieldOf h 24 8
      checkTail (passSkip (modQueue (go s) die q fun x => { x with
        skip := max (fieldOf h 16 8) 1
        hdr := none
        prevLaunch := some (op == 1 || op == 2) }) die q) die q

/-- QCTL_SKIP. -/
def execQctlSkip (die q : Nat) (s : State) : Out := .next (if ready s then skipQueue s die q else s)

/-- RETRY (R289). -/
def retryQueue (s : State) (die q : Nat) : State :=
  if (queueAt s die q).stop.isNone then s
  else checkTail (modQueue s die q fun x => { x with
    stop := none
    noPacket := false }) die q

/-- QCTL_RETRY. -/
def execQctlRetry (die q : Nat) (s : State) : Out := .next (if ready s then retryQueue s die q else s)

/-- RUN (R289, R302). -/
def runQueue (s : State) (die q : Nat) : State := modQueue s die q fun x => { x with hold := false }

/-- QCTL_RUN. -/
def execQctlRun (die q : Nat) (s : State) : Out := .next (if ready s then runQueue s die q else s)

/-- Whether a queue is idle: it has passed every packet and has none under way. -/
def queueIdle (x : Queue) : Bool :=
  x.stop.isNone && !x.hold && x.head == x.tail && x.stack.isEmpty && !x.started && x.ahead.isEmpty && x.skip == 0

/-- RESET of an idle or stopped queue (R289). -/
def resetQueue (s : State) (die q : Nat) : State :=
  let x := queueAt s die q
  if queueIdle x || x.stop.isSome then
    modQueue (leaveJoin s die q) die q fun x => { clearPacket x with
      head := 0
      tail := 0
      stack := []
      stop := none
      noPacket := false
      ahead := []
      hdr := none
      skip := 0
      prevLaunch := none }
  else s

/-- QCTL_RESET. -/
def execQctlReset (die q : Nat) (s : State) : Out := .next (if ready s then resetQueue s die q else s)

/-! ## Frames of a pool (R390) -/

/-- A frame returns to a die's pool; one outside the stack or already free is ignored and logged. -/
def pushFrame (s : State) (die : Nat) (value : BitVec 64) : State :=
  let f := fieldOf value 13 39
  if Config.inStack die f = false ∨ (dieAt s die).pool.contains f = true then logEvent s 8 f
  else modDie s die fun d => { d with pool := d.pool ++ [f] }

/-- FP_PUSH. -/
def execFpPush (die : Nat) (value : BitVec 64) (s : State) : Out :=
  .next (if ready s && decide (die < s.caps.dies.toNat) then pushFrame s die value else s)

/-! ## CXL port commands (R371) -/

/-- RESTORE: an isolated port whose link has trained again returns to service. -/
def restorePort (s : State) (p : Nat) : State :=
  let x := portAt s p
  if x.state = 2#3 ∧ x.trained = true then
    logEvent { s with ports := mapMod {} s.ports p fun x => { x with
      state := 4#3
      restored := true
      trained := false } } 9 p
  else s

/-- RESTORE. -/
def execRestore (port : Nat) (s : State) : Out := .next (if ready s then restorePort s port else s)

/-! ## Queue registers (Table 14.1) -/

/-- A write of QBASE: only while EN = 0, and of a multiple of the ring's size. -/
def writeQbase (x : Queue) (v : BitVec 64) : Queue :=
  let b := fieldOf v 6 46 * 64
  if x.en ∨ b % 2 ^ x.size ≠ 0 then x else { x with base := b }

/-- A write of QCFG: EN and CEIL at any time, the others only while EN = 0; a SIZE out of range is ignored whole. -/
def writeQcfg (x : Queue) (v : BitVec 64) : Queue :=
  let size := fieldOf v 0 5
  if size < 12 ∨ 24 < size then x
  else
    let x1 := { x with
      ceil := fieldOf v 16 3
      en := v.getLsbD 15
      prevLaunch := if v.getLsbD 15 && !x.en then none else x.prevLaunch }
    if x.en then x1
    else { x1 with
      priv := v.getLsbD 14
      space := fieldOf v 5 9
      size := size }

/-- A write into a queue's block. -/
def writeQueueReg (s : State) (die q off : Nat) (v : BitVec 64) : State :=
  match off with
  | 0x00 => modQueue s die q fun x => writeQbase x v
  | 0x08 => modQueue s die q fun x => writeQcfg x v
  | 0x10 => ringDoorbell s die q (v.setWidth 32)
  | 0x30 =>
    let f := fun (b : Nat) (g : State → Nat → Nat → State) (s : State) => if v.getLsbD b then g s die q else s
    f 3 resetQueue (f 2 runQueue (f 1 retryQueue (f 0 skipQueue s)))
  | _ => s

/-! ## Command processor and die registers (Tables 14.5, 19.8) -/

/-- A write of a register of a command processor. -/
def writeCpReg (s : State) (die off : Nat) (v : BitVec 64) : State :=
  let w := v.setWidth 32
  match off with
  | 0x000 => modDie s die fun d => { d with
      plim := bits v 16 32
      preen := v.getLsbD 0 }
  | 0x008 => if w = 0#32 then s else modDie s die fun d => { d with age := w }
  | 0x010 => modDie s die fun d => { d with
      stall := bits v 32 32
      runlim := w }
  | 0x018 =>
    let n := fieldOf v 0 13
    if n = 0 ∨ 4096 < n then s
    else modDie s die fun d => { d with
      saveBase := fieldOf v 24 28 * 2 ^ 24
      nslot := n }
  | 0x020 =>
    if 8 < fieldOf v 0 4 then s
    else modDie s die fun d => { d with
      rptEn := v.getLsbD 63
      rptVec := fieldOf v 52 11
      rptBase := fieldOf v 12 40 * 2 ^ 12
      rptSize := fieldOf v 0 4 }
  | 0x028 => modDie s die fun d => { d with rptHead := w }
  | _ => s

/-- A write of a register of a die. A write of FQ_BASE while HEAD differs from TAIL leaves SIZE and writes BASE (log entry 79). -/
def writeDieReg (s : State) (die off : Nat) (v : BitVec 64) : State :=
  match off with
  | 0x00 =>
    let n := fieldOf v 0 16
    if n < 512 ∨ 32768 < n ∨ n % 512 ≠ 0 then s else modDie s die fun d => { d with nxd := n }
  | 0x08 =>
    let d := dieAt s die
    let b := fieldOf v 6 46 * 64
    let n := if d.fqHead = d.fqTail then fieldOf v 0 5 else d.fqSize
    if n < 16 ∨ 24 < n ∨ b % 2 ^ n ≠ 0 then s
    else modDie s die fun d => { d with
      fqBase := b
      fqSize := n }
  | 0x10 => modDie s die fun d => { d with fqHead := v.setWidth 32 }
  | 0x20 => pushFrame s die v
  | _ => s

/-! ## Controllers, tier engine, gatherer, spaces, CXL ports, power -/

/-- A write into a controller's block (Tables 18.4, 18.7). -/
def writeCtlReg (s : State) (c off : Nat) (v : BitVec 64) : State :=
  match off with
  | 0x10 => modCtl s c fun x => { x with
      passh := if fieldOf v 32 16 = 0 then x.passh else bits v 32 16
      scrubEn := v.getLsbD 0 }
  | 0x20 => if fieldOf v 16 8 ≤ fieldOf v 8 8 then s else modCtl s c fun x => { x with
      tcrit := bits v 16 8
      tres := bits v 8 8 }
  | _ => s

/-- A write of the eight window fields of a register (Table 16.2). -/
def writeWin (c : TeCtx) (first : Nat) (v : BitVec 64) : TeCtx :=
  let f := fun (k : Nat) => fieldOf v (8 * k) 7
  if (List.range 8).any fun k => f k == 0 || decide (64 < f k) then c
  else { c with win := (List.range 8).foldl (fun m k => mapSet 1 m (first + k) (f k)) c.win }

/-- A write into a context's block of the tier engine (Table 16.2). -/
def writeTeReg (s : State) (n off : Nat) (v : BitVec 64) : State :=
  match off with
  | 0x00 =>
    if fieldOf v 16 16 < fieldOf v 0 16 then s
    else modCtx s n fun c => { c with
      lateHi := bits v 16 16
      lateLo := bits v 0 16 }
  | 0x08 => modCtx s n fun c => writeWin c 0 v
  | 0x10 => modCtx s n fun c => writeWin c 8 v
  | 0x48 =>
    let s1 := if v.getLsbD 1 then modCtx s n fun c => { c with
      late := 0
      l := 0 } else s
    if v.getLsbD 0 then stopCtx s1 n 4 else s1
  | _ => s

/-- A write of a space table entry (R389). -/
def writeSpace (s : State) (n : Nat) (v : BitVec 64) : State :=
  if v.getLsbD 63 ∧ fieldOf v 56 6 = 0 then s
  else
    let e : Space := { v := v.getLsbD 63, consent := v.getLsbD 62, kdom := bits v 56 6, obt := fieldOf v 6 46 * 64 }
    { s with spaces := mapSet {} s.spaces n e }

/-- A write of CXL_CTL (Table 18.9). -/
def writeCxlCtl (s : State) (p : Nat) (v : BitVec 64) : State :=
  let t := fieldOf v 32 16
  let s1 := if t < 2 then s else { s with ports := mapMod {} s.ports p fun x => { x with tmo := bits v 32 16 } }
  if v.getLsbD 0 then restorePort s1 p else s1

/-- Whether the package may go to STANDBY (R393). -/
def mayStandby (s : State) : Bool :=
  s.crews.all (fun c => c.2.st == .suspended || c.2.st == .waiting) && s.te.all (fun c => !c.2.active) &&
  s.rq.all (fun g => !g.2.active)

/-- Every held object of the package is written out (R82, R204, R393). -/
def flushHeld (s : State) : State :=
  let s1 := s.heldTiles.foldl (fun s p => writeOutTile s (p.1 / 8) (p.1 % 8)) s
  s1.quads.foldl (fun s p =>
    writeOutPlane (writeOutPlane (p.2.rows.foldl (fun s r => writeOutRow s p.1 r.1) s) p.1 false) p.1 true) s1

/-- The MSC commits its counters (R378). -/
def commitCounters (s : State) : State :=
  { s with msc := { s.msc with
      committed := s.msc.ram.foldl (fun l p => countUp l p.1 p.2 (counterTop p.1)) s.msc.committed
      ram := [] } }

/-- A request for STANDBY (R393). -/
def requestStandby (s : State) : State :=
  if !ready s then s
  else if !mayStandby s then { s with pwrResult := 2#2 }
  else
    let s1 := commitCounters (flushHeld s)
    let s2 := (s1.wq.map Prod.fst).foldl drainEntry s1
    { s2 with
      pwrResult := 1#2
      pwrState := 2#2 }

/-- PWR_REQ_STANDBY. -/
def execPwrReqStandby (s : State) : Out := .next (requestStandby s)

/-- A request for ON (R393): from STANDBY the package trains its links again, from phase 5 on. -/
def requestOn (s : State) : State :=
  if s.off then s
  else if s.pwrState = 2#2 then (if s.phase = 7#4 then { s with phase := 5#4 } else s)
  else if s.phase = 7#4 then { s with pwrResult := 1#2 }
  else s

/-- PWR_REQ_ON. -/
def execPwrReqOn (s : State) : Out := .next (requestOn s)

/-- What a reset or a loss of power leaves (R378, R380, R383): the committed counters, the SVN floors, the staged images, the
fuses, and, but for a loss of power that reaches it, the bytes of POOL. What the outside has still to do and the messages that
have left stay, and free values go on being fresh. -/
def afterReset (s : State) : State :=
  { State.reset with
    schedule := s.schedule
    out := s.out
    fresh := s.fresh
    caps := s.caps
    pwrCap := BitVec.ofNat 16 s.caps.variant.watts
    resets := s.resets + 1
    mem := s.mem.filter fun c => Config.isPool c.1
    msc := { committed := s.msc.committed, floors := s.msc.floors, flash := s.msc.flash } }

/-- A request for OFF (R392). -/
def requestOff (s : State) : State :=
  if s.off then s
  else if s.phase = 7#4 ∨ s.pwrState = 2#2 then { afterReset (commitCounters s) with off := true }
  else s

/-- PWR_REQ_OFF. -/
def execPwrReqOff (s : State) : Out := .next (requestOff s)

/-- A reset of the whole package but for a loss of power (R380). -/
def resetPackage (s : State) : State := if s.off then s else afterReset (commitCounters s)

/-- RST_CTL_RESET: BAR 0 ignores writes until READY (R381). -/
def execRstCtlReset (s : State) : Out := .next (if s.phase = 7#4 then resetPackage s else s)

/-- A write of PWR_CTL (Table 19.11). -/
def writePwrCtl (s : State) (v : BitVec 64) : State :=
  let s1 := if fieldOf v 16 16 = 0 then s else { s with idleTicks := bits v 16 16 }
  match fieldOf v 0 2 with
  | 0 => requestOn s1
  | 2 => requestStandby s1
  | 3 => requestOff s1
  | _ => s1

/-- A write into the package block of BAR 0; a cap above the variant's power is ignored (R1, Table 19.11). -/
def writePackageReg (s : State) (off : Nat) (v : BitVec 64) : State :=
  match off with
  | 0x10 => if v.getLsbD 0 then resetPackage s else s
  | 0x18 => writePwrCtl s v
  | 0x28 =>
    let c := fieldOf v 0 16
    if c < 300 ∨ s.caps.variant.watts < c then s else { s with pwrCap := bits v 0 16 }
  | _ => s

/-! ## BAR 0 (Table 19.7) -/

/-- A write into a die's megabyte of BAR 0. -/
def writeDieBlock (s : State) (die off : Nat) (v : BitVec 64) : State :=
  if s.caps.dies.toNat ≤ die then s
  else if off = 0x038 then (match execCpEvict die (fieldOf v 0 12) s with
    | .next s1 => s1
    | _ => s)
  else if off = 0x040 then (match execCpResume die (fieldOf v 0 12) s with
    | .next s1 => s1
    | _ => s)
  else if off < 0x100 then writeCpReg s die off v
  else if 0x1000 ≤ off ∧ off < 0x1400 then writeQueueReg s die ((off - 0x1000) / 0x40) (off % 0x40) v
  else if 0x40000 ≤ off ∧ off < 0x40100 then writeDieReg s die (off - 0x40000) v
  else if 0x80000 ≤ off ∧ off < 0x80040 ∧ die < s.caps.nStacks.toNat then writeCtlReg s die (off - 0x80000) v
  else s

/-- A write into the tier engine's window. -/
def writeTeBlock (s : State) (off : Nat) (v : BitVec 64) : State :=
  if 0x1000 ≤ off ∧ off < 0x3000 then writeTeReg s ((off - 0x1000) / 0x80) (off % 0x80) v
  else if 0x3000 ≤ off ∧ off < 0x3200 ∧ off % 0x20 = 0x10 ∧ v.getLsbD 0 = true then
    modRq s ((off - 0x3000) / 0x20) fun g => { g with stopAsk := g.active }
  else s

/-- A write of 64 bits at an offset of BAR 0: unlisted offsets and blocks of absent units ignore it (R388). -/
def writeBar0 (s : State) (off : Nat) (v : BitVec 64) : State :=
  if off < 0x100 then writePackageReg s off v
  else if 0x100000 ≤ off ∧ off < 0x500000 then writeDieBlock s ((off - 0x100000) / 0x100000) (off % 0x100000) v
  else if 0x500000 ≤ off ∧ off < 0x510000 then writeTeBlock s (off - 0x500000) v
  else if 0x510000 ≤ off ∧ off < 0x511000 ∧ off % 8 = 0 then writeSpace s ((off - 0x510000) / 8) v
  else if 0x520000 ≤ off ∧ off < 0x520400 then
    (if (off - 0x520000) / 0x40 < s.bulkSize then writeCtlReg s (4 + (off - 0x520000) / 0x40) (off % 0x40) v else s)
  else if 0x521000 ≤ off ∧ off < 0x521200 then
    (if (off - 0x521000) / 0x40 < s.caps.cxlPorts.toNat ∧ off % 0x40 = 0 then
      writeCxlCtl s ((off - 0x521000) / 0x40) v else s)
  else if 0x530000 ≤ off ∧ off < 0x538000 ∧ off % 8 = 0 then
    writeMsix s ((off - 0x530000) / 8) v
  else s

/-- The queue whose QTAIL lies at an offset of BAR 0. -/
def tailAt (off : Nat) : Option (Nat × Nat) :=
  let o := (off - 0x100000) % 0x100000
  if 0x100000 ≤ off ∧ off < 0x500000 ∧ 0x1000 ≤ o ∧ o < 0x1400 ∧ o % 0x40 = 0x10 then
    some ((off - 0x100000) / 0x100000, (o - 0x1000) / 0x40)
  else none

/-- A write of BAR 0 in STANDBY: a tail is recorded, and the package block, which is the security core's, takes its writes
(R393; log entry 79). -/
def writeStandby (s : State) (off : Nat) (v : BitVec 64) : State :=
  match tailAt off with
  | some p => ringDoorbell s p.1 p.2 (v.setWidth 32)
  | none => if s.phase = 7#4 ∧ off < 0x100 then writePackageReg s off v else s

/-- REGISTER_WRITE (R287, R388): BAR 0 ignores writes until READY; in STANDBY tails and the package block act. -/
def execRegisterWrite (off : Nat) (value : BitVec 64) (s : State) : Out :=
  .next (if ready s then writeBar0 s off value
    else if s.off = false ∧ s.pwrState = 2#2 then writeStandby s off value
    else s)

end Sys2Proof.Machine
end

