-- ==== Sys2Proof/Machine/Links.lean ====
section
/-! DEFINITION. Memory controllers and links (R356 to R375): completions and time-outs of CXL ports, replays and retraining,
the write queues, the patrol scrubber, the thermal freeze and its end, and the host windows. -/
namespace Sys2Proof.Machine
open Sys2Proof

/-! ## CXL completions (R356, R370, R371) -/

/-- A CXL port changed by `f`. -/
def modPort (s : State) (p : Nat) (f : CxlPort → CxlPort) : State := { s with ports := mapMod {} s.ports p f }

/-- An accepted store of a strand, wherever it waits. -/
def findStore (s : State) (sid seq : Nat) : Option StoreW :=
  let hit := fun (w : StoreW) => w.sid == sid && w.seq == seq
  match s.strands.findSome? fun p => p.2.stores.find? hit with
  | some w => some w
  | none => s.launches.findSome? fun l => l.2.stores.find? hit

/-- A store to POOL is performed, or is refused (REASON 2). -/
def answerStore (s : State) (sid seq : Nat) (r : CxlResult) : State :=
  if r = .error then storeDone s sid seq (some 2)
  else
    match findStore s sid seq with
    | some w => enterStore s w
    | none => s

/-- A copy of a core's strand takes the answer it waits for. -/
def answerCopy (s : State) (core slot : Nat) (r : CxlResult) : State :=
  modStrand s core fun st => { st with
    copies := st.copies.map fun c =>
      if c.slot = slot ∧ c.asked = true then { c with
        ans := some r
        asked := false } else c }

/-- The party that a CXL request serves takes its completion (R370). -/
def answer (s : State) (a : Asker) (r : CxlResult) : State :=
  match a with
  | .stream core e => modStream s core e fun x =>
      if x.asked then { x with
        ans := some r
        asked := false } else x
  | .copy core slot => answerCopy s core slot r
  | .store sid seq => answerStore s sid seq r
  | .move ctx order => modMove s ctx order fun m =>
      if m.asked then { m with
        ans := some r
        asked := false } else m
  | .queue die q => modQueue s die q fun x =>
      if x.asked then { x with
        ans := some r
        asked := false } else x
  | .line die h line => modDie s die fun d => { d with
      lineReq := d.lineReq.map fun x =>
        if x.h = h ∧ x.line = line ∧ x.asked = true then { x with
          ans := some r
          asked := false } else x }
  | .entry n => modCtx s n fun c =>
      if c.asked then { c with
        ans := some r
        asked := false } else c
  | .status n order p w => answerStatus s n order p w r
  | .ring k => modRq s k fun g =>
      if g.asked then { g with
        ans := some r
        asked := false } else g

/-- The strand and granule of a store that waits at a port. -/
def storeGran (s : State) (a : Asker) : Option (Nat × Nat) :=
  match a with
  | .store sid seq => (findStore s sid seq).map fun w => (sid, w.pa / 64)
  | _ => none

/-- Whether a store would complete before an older one of its strand to the same granule, which the expander performs first
(R277; log entry 29). -/
def overtakes (s : State) (older : List (Asker × Nat)) (a : Asker) : Bool :=
  (storeGran s a).isSome && older.any fun b => storeGran s b.1 == storeGran s a

/-- CXL_COMPLETION: a request of a port that carries traffic completes (R370). -/
def execCxlCompletion (port n : Nat) (r : CxlResult) (s : State) : Out :=
  let x := portAt s port
  match x.out[n]? with
  | none => .next s
  | some (a, _) =>
    if (x.state = 3#3 ∨ x.state = 4#3) ∧ overtakes s (x.out.take n) a = false then
      .next (answer (modPort s port fun x => { x with out := x.out.eraseIdx n }) a r)
    else .next s

/-- The party that a failed request serves learns of it (R356). -/
def failAsker (s : State) (a : Asker) : State :=
  match a with
  | .stream core e => answer s (.stream core e) .poison
  | .copy core slot => answer s (.copy core slot) .poison
  | .store sid seq => storeDone s sid seq (some 1)
  | .move ctx order => completeMove s ctx order .isolated
  | .line die h line => answer s (.line die h line) .poison
  | a => answer s a .error

/-- Numbers of 64 bits as one, each at its place. -/
def packCodes : List Nat → Nat
  | [] => 0
  | n :: r => n + 2 ^ 64 * packCodes r

/-- A number of a request, for the event log: one for each (log entry 21). -/
def askerCode : Asker → Nat
  | .stream core e => packCodes [0, core, e.num]
  | .copy core slot => packCodes [1, core, slot]
  | .store sid seq => packCodes [2, sid, seq]
  | .move ctx order => packCodes [3, ctx, order]
  | .queue die q => packCodes [4, die, q]
  | .line die h line => packCodes [5, die, h.space, h.obj, h.gen, line]
  | .entry n => packCodes [6, n]
  | .status n order _ _ => packCodes [7, n, order]
  | .ring r => packCodes [8, r]

/-- A port is isolated: every request on it fails, in one step; the port and the request that timed out, its oldest, are
logged (R356). -/
def isolatePort (s : State) (p : Nat) : State :=
  let reqs := (portAt s p).out
  let s1 := modPort s p fun x => { x with
    state := 2#3
    trained := false
    restored := false
    replays := 0
    isoFrame := s.frame.setWidth 32
    out := [] }
  let req := (reqs.head?.map fun q => askerCode q.1).getD 0
  reqs.foldl (fun s q => failAsker s q.1) (logEvent (mscCount s1 (8, p, 0) 1) 10 (16 * req + p))

/-- COMPLETION_TIMEOUT (R356, R371): the oldest request of a port has waited TMO ticks. -/
def execCompletionTimeout (port : Nat) (s : State) : Out :=
  let x := portAt s port
  match x.out with
  | [] => .next s
  | (_, t) :: _ =>
    if x.tmo.toNat ≤ s.frame.toNat - t ∧ portOut s port = false then .next (isolatePort s port) else .next s

/-- HOST_READ_TIMEOUT (R373): a read of a queue's ring or buffer times out. -/
def execHostReadTimeout (die q : Nat) (s : State) : Out :=
  let x := queueAt s die q
  if ready s ∧ x.en ∧ x.stop.isNone ∧ (x.head ≠ x.tail ∨ x.stack ≠ []) then .next (stopQueue s die q .access false)
  else .next s

/-! ## Replays and retraining (R374, R375) -/

/-- A flit of a link that carries traffic is replayed; the sixteenth in a row retrains the link. -/
def replayLink (x : LinkSt) (now : Nat) : LinkSt × Bool :=
  if x.down ∨ x.training then (x, false)
  else if x.replays < 15 then ({ x with replays := x.replays + 1 }, false)
  else ({ x with
    replays := 0
    training := true
    since := now
    retrains := x.retrains + 1 }, true)

/-- The instance of RETRAIN that counts a link's retrains (log entry 22). -/
def linkKey : Link → CounterKey
  | .cxl p => (7, p, 0)
  | .ovlan p => (7, 8 + p, 0)
  | .boundary b => (7, 16 + b, 0)

/-- A retrain is counted, where there was one. -/
def countRetrain (s : State) (l : Link) (yes : Bool) : State := if yes then mscCount s (linkKey l) 1 else s

/-- A saturating count of 16 bits. -/
def satInc16 (x : BitVec 16) : BitVec 16 := if x = BitVec.allOnes 16 then x else x + 1

/-- A flit of a CXL port is replayed. -/
def replayPort (x : CxlPort) : CxlPort × Bool :=
  if x.state ≠ 3#3 ∧ x.state ≠ 4#3 then (x, false)
  else if x.replays < 15 then ({ x with replays := x.replays + 1 }, false)
  else ({ x with
    replays := 0
    state := 1#3
    retrains := satInc16 x.retrains }, true)

/-- FLIT_REPLAY. -/
def execFlitReplay (l : Link) (s : State) : Out :=
  match l with
  | .ovlan p =>
    let r := replayLink (mapGet {} s.ovl p) s.frame.toNat
    .next (countRetrain { s with ovl := mapSet {} s.ovl p r.1 } l r.2)
  | .boundary b =>
    let r := replayLink (mapGet {} s.bnds b) s.frame.toNat
    .next (countRetrain { s with bnds := mapSet {} s.bnds b r.1 } l r.2)
  | .cxl p =>
    let r := replayPort (portAt s p)
    .next (countRetrain (modPort s p fun _ => r.1) l r.2)

/-- A link has trained. -/
def linkTrained (x : LinkSt) : LinkSt := { x with
  training := false
  replays := 0
  wait := [] }

/-- A CXL port's link has trained: it carries traffic again, or, isolated, it may be restored (R371). -/
def portTrained (x : CxlPort) : CxlPort × Bool :=
  if x.state = 1#3 then ({ x with state := if x.restored then 4#3 else 3#3 }, false)
  else if x.state = 2#3 ∧ x.trained = false then ({ x with
    trained := true
    retrains := satInc16 x.retrains }, true)
  else (x, false)

/-- LINK_RETRAINED: a link trains within its 1,024 ticks; the flits that waited leave in order (R374). -/
def execLinkRetrained (l : Link) (s : State) : Out :=
  match l with
  | .ovlan p =>
    let x := mapGet {} s.ovl p
    .next (if x.training then { s with ovl := mapMod {} s.ovl p linkTrained, out := s.out ++ x.wait } else s)
  | .boundary b => .next (if (mapGet {} s.bnds b).training then { s with bnds := mapMod {} s.bnds b linkTrained } else s)
  | .cxl p =>
    let r := portTrained (portAt s p)
    .next (countRetrain (modPort s p fun _ => r.1) l r.2)

/-- Whether a link has trained for 1,024 ticks in vain. -/
def trainedOut (x : LinkSt) (now : Nat) : Bool := x.training && !x.down && decide (1024 ≤ now - x.since)

/-- A link that is down. -/
def linkDown (x : LinkSt) : LinkSt := { x with
  down := true
  training := false
  wait := [] }

/-- OVLAN_LINK_DOWN (R374): its flits are discarded, those that wait and those to come; the members behind it leave their
streams through ACKTO. -/
def execOvlanLinkDown (port : Nat) (s : State) : Out :=
  if trainedOut (mapGet {} s.ovl port) s.frame.toNat then
    .next (logEvent { s with ovl := mapMod {} s.ovl port linkDown } 11 port)
  else .next s

/-- The die of the party that a CXL request serves. -/
def askerDie (s : State) : Asker → Option Nat
  | .stream core _ => some (dieOf core)
  | .copy core _ => some (dieOf core)
  | .store sid seq => (findStore s sid seq).map fun w => w.die
  | .move ctx _ => some (mapGet {} s.te ctx).die
  | .queue die _ => some die
  | .line die _ _ => some die
  | .entry n => some (mapGet {} s.te n).die
  | .status n _ _ _ => some (mapGet {} s.te n).die
  | .ring r => some (mapGet {} s.rq r).die

/-- Whether a request of a port has to cross a boundary. -/
def askerCrosses (s : State) (b p : Nat) (a : Asker) : Bool := (askerDie s a).any fun d => Config.crosses d 2 p b

/-- A request that a boundary keeps from its completion is refused, a write fails (R375). -/
def cutAsker (s : State) (a : Asker) : State :=
  match a with
  | .store sid seq => storeDone s sid seq (some 1)
  | .move ctx order => completeMove s ctx order .refused
  | _ => answer s a .error

/-- The requests of the ports that have to cross a boundary end. -/
def cutRequests (s : State) (b : Nat) : State :=
  s.ports.foldl (fun s p =>
    let cut := p.2.out.filter fun q => askerCrosses s b p.1 q.1
    cut.foldl (fun s q => cutAsker s q.1) (modPort s p.1 fun x => { x with out := x.out.filter fun q => !cut.contains q })) s

/-- The accepted stores that no home holds yet and that have to cross a boundary fail (R286, R375). -/
def cutStores (s : State) (b : Nat) : State :=
  ((allStores s).filter fun w => unqueued s w && Config.crosses w.die w.tier.toNat w.loc b).foldl
    (fun s w => storeDone s w.sid w.seq (some 1)) s

/-- BOUNDARY_DOWN (R375): reads that would cross it are refused and writes fail, those on their way too. -/
def execBoundaryDown (b : Nat) (s : State) : Out :=
  if trainedOut (mapGet {} s.bnds b) s.frame.toNat then
    .next (cutStores (cutRequests (logEvent { s with bnds := mapMod {} s.bnds b linkDown } 12 b) b) b)
  else .next s

/-! ## Write queues (R361 to R364) -/

/-- A controller's state. -/
def ctlAt (s : State) (c : Nat) : MemCtl := mapGet {} s.ctls c

/-- Whether a controller serves a read of a granule now: no drain of its channel and no self-refresh holds it (R364, R367). -/
def servable (c : MemCtl) (ctrl g : Nat) : Bool := !c.hot && !c.drain.contains (Config.channel ctrl g)

/-- The waiting reads of a class that `ok` allows are served, oldest first. -/
def serveClass (s : State) (ctrl cls : Nat) (ok : Nat → Bool) : State :=
  ((ctlAt s ctrl).waiting.filter fun w => w.2.2 == cls && ok w.1).foldl (fun s w => (granRead s ctrl w.1 w.2.1).2) s

/-- The reads that wait for nothing more are served, class C2 before class C3 (R364). -/
def serveWaiting (s : State) (ctrl : Nat) : State :=
  let ok := servable (ctlAt s ctrl) ctrl
  modCtl (serveClass (serveClass s ctrl 2 ok) ctrl 3 ok) ctrl fun c => { c with waiting := c.waiting.filter fun w => !ok w.1 }

/-- The accepted stores that may enter a controller's queues next (R272, R361). -/
def storesFor (s : State) (ctrl : Nat) : List StoreW :=
  mayEnter ((allStores s).filter fun w => w.tier != 2#2 && ctrlOf w.tier.toNat w.loc w.pa == ctrl && unqueued s w)

/-- MC_WRITE (R361): an accepted store enters its channel's queue, or merges there; with all entries taken it waits. Which of
those that may enter arrives first is free (R276, R281). -/
def execMcWrite (ctrl : Nat) (s : State) : Out :=
  match chooseOf s (storesFor s ctrl) with
  | (some w, s1) => .next (if (ctlAt s ctrl).hot || wqFull s ctrl (w.pa / 64) then s1 else enterStore s1 w)
  | (none, s1) => .next s1

/-- MC_READ (R362, R364, R367): a read of class C3 arrives; it is served at once, or waits while its channel drains or its device
is in self-refresh. -/
def execMcRead (ctrl gran : Nat) (dom : BitVec 6) (s : State) : Out :=
  if servable (ctlAt s ctrl) ctrl gran then .next (granRead s ctrl gran dom).2
  else .next (modCtl s ctrl fun c => { c with waiting := c.waiting ++ [(gran, dom, 3)] })

/-- The entry that a controller writes next: the oldest of a channel in drain mode, else the oldest of a channel in which no
read waits (R361, R364). -/
def nextDrain (c : MemCtl) (ctrl : Nat) : Option Nat :=
  if c.hot then none
  else
    match c.order.find? fun g => c.drain.contains (Config.channel ctrl g) with
    | some g => some g
    | none => c.order.find? fun g => !c.waiting.any fun w => sameChannel ctrl w.1 g

/-- ENTRY_DRAIN (R363, R364): the next entry of a controller is written; the reads that waited for it follow. -/
def execEntryDrain (ctrl : Nat) (s : State) : Out :=
  .next (serveWaiting (((nextDrain (ctlAt s ctrl) ctrl).map (drainEntry s)).getD s) ctrl)

/-- DRAIN_AGE (R361): the oldest entry of a channel is 2,048 cycles old: that of the controller's oldest entry outside the
channels that drain already; the channel drains. -/
def execDrainAge (ctrl : Nat) (s : State) : Out :=
  let c := ctlAt s ctrl
  match c.order.find? fun g => !c.drain.contains (Config.channel ctrl g) with
  | none => .next s
  | some g => .next (modCtl s ctrl fun c => enterDrain c (Config.channel ctrl g))

/-- The first request of class C3 is of class C2. -/
def promoteFirst : List (Nat × BitVec 6 × Nat) → List (Nat × BitVec 6 × Nat)
  | [] => []
  | x :: r => if x.2.2 = 3 then (x.1, x.2.1, 2) :: r else x :: promoteFirst r

/-- PROMOTE_C2 (R364): a waiting request of class C3 is 1,024 cycles old. -/
def execPromoteC2 (ctrl : Nat) (s : State) : Out :=
  .next (modCtl s ctrl fun c => { c with waiting := promoteFirst c.waiting })

/-! ## Patrol scrub (R365, R366) -/

/-- Granules of a controller's device (Table 0.3): a stack of 48 GiB, an LPDDR-6 device of 128 GiB. -/
def devGrans (ctrl : Nat) : Nat := if ctrl < 4 then 805306368 else 2147483648

/-- A granule of a pass has been visited. -/
def scrubbed (c : MemCtl) (ctrl gran : Nat) : MemCtl :=
  if c.pos.toNat + 1 < devGrans ctrl then { c with
    pos := c.pos + 1
    seen := gran :: c.seen }
  else { c with
    pos := 0
    seen := []
    passes := satInc32 c.passes }

/-- Whether the scrubber may read a granule: one of its controller's device, which the pass has not visited, and with no
pending entry (R365). -/
def mayScrub (s : State) (ctrl gran : Nat) : Bool :=
  let c := ctlAt s ctrl
  ready s && c.scrubEn && !c.hot && Config.physCtrl (64 * gran) == ctrl && !c.seen.contains gran && (mapFind s.wq gran).isNone

/-- SCRUB_READ: a granule is read and checked under its own domain; one that decodes corrected gets a write-back. -/
def execScrubRead (ctrl gran : Nat) (s : State) : Out :=
  if mayScrub s ctrl gran then
    let r := devRead s ctrl gran none
    let fix := correctable s gran && (match r.1 with
      | .ok _ => true
      | _ => false)
    .next (modCtl r.2 ctrl fun c =>
      scrubbed (if fix && !c.pend.contains gran then { c with pend := c.pend ++ [gran] } else c) ctrl gran)
  else .next s

/-- The KD of a granule as its guard decodes: the stored one where no symbol is corrected (R358, R360). -/
def kdOf (s : State) (g : Nat) : BitVec 6 :=
  let gd := mapGet {} s.guards g
  let kd := gd.kd.getD 0#6
  match syndrome (memGran s.mem g) (guardWord gd.tag kd gd.p) gd.check with
  | some (_, w, _) => bits w 4 6
  | none => kd

/-- The entry of a scrub write-back: the corrected granule, under its own corrected KD. -/
def scrubEntry (s : State) (ctrl g : Nat) : WqEntry :=
  { ctrl := ctrl, mask := BitVec.allOnes 64, val := granPeek s g, dom := kdOf s g, scrub := true }

/-- SCRUB_WRITEBACK: the oldest write-back of a controller enters its channel's queue as a SCRUB entry. -/
def execScrubWriteback (ctrl : Nat) (s : State) : Out :=
  match (ctlAt s ctrl).pend with
  | [] => .next s
  | g :: r =>
    if wqFull s ctrl g then .next s
    else
      .next (modCtl { s with wq := mapPut s.wq g (scrubEntry s ctrl g) } ctrl fun c =>
        let c1 := { c with
          pend := r
          order := c.order ++ [g] }
        if 48 ≤ (chanOrder c1 ctrl g).length then enterDrain c1 (Config.channel ctrl g) else c1)

/-! ## Thermal freeze (R367, R368) -/

/-- A crew freezes for a thermal event; one that is frozen already stays so. -/
def heatCrew (s : State) (k : Nat) : State :=
  match crewAt s k with
  | none => s
  | some c =>
    if c.st = .running ∨ c.st = .stopping then modCrew (freezeCrew s k) k fun c => { c with thermal := true } else s

/-- Whether the package has a memory device. DESIGN CHOICE (log entry 80): of the LPDDR-6 devices the first BULK_SIZE are present. -/
def hasDevice (s : State) (dev : Nat) : Bool :=
  if dev < 4 then decide (dev < s.caps.nStacks.toNat) else decide (dev - 4 < s.bulkSize)

/-- A device reaches its critical temperature: the package's crews freeze, its reads and writes wait. -/
def heat (s : State) (dev : Nat) : State :=
  let s1 := s.crews.foldl (fun s p => heatCrew s p.1) s
  let s2 := modCtl { s1 with thermal := s1.thermal ++ [dev] } dev fun c => { c with hot := true }
  if s.thermal.isEmpty then logEvent (mscCount s2 (6, 0, 0) 1) 13 dev else s2

/-- THERMAL_FREEZE: the temperature of a device, which reaches TCRIT. -/
def execThermalFreeze (dev : Nat) (temp : BitVec 8) (s : State) : Out :=
  if !ready s || !hasDevice s dev then .next s
  else
    let s1 := modCtl s dev fun c => { c with temp := temp }
    let c := ctlAt s1 dev
    .next (if c.tcrit.toNat ≤ temp.toNat ∧ c.hot = false then heat s1 dev else s1)

/-- A device leaves self-refresh; what waits for it is served at its controller's and its parties' next turns (R364, R368; log
entry 61). -/
def coolDevice (s : State) (dev : Nat) : State := modCtl s dev fun c => { c with hot := false }

/-- A crew frozen by the event resumes; one that holds a trap record stays for the supervisor (R368). -/
def coolCrew (s : State) (k : Nat) : State :=
  match crewAt s k with
  | none => s
  | some c =>
    if c.st = .frozen ∧ c.thermal = true then
      (if hasRecord s k then modCrew s k fun c => { c with thermal := false } else thaw s k)
    else s

/-- Temperatures of devices. -/
def setTemps (s : State) (l : List (Nat × BitVec 8)) : State :=
  l.foldl (fun s t => modCtl s t.1 fun c => { c with temp := t.2 }) s

/-- THERMAL_RESUME: the temperatures of devices, with which every device of the event is at or below TRES. -/
def execThermalResume (temps : List (Nat × BitVec 8)) (s : State) : Out :=
  let s1 := setTemps s (temps.filter fun t => hasDevice s t.1 && decide (t.2.toNat < (ctlAt s t.1).tcrit.toNat))
  if s1.thermal.isEmpty || !(s1.thermal.all fun d => decide ((ctlAt s1 d).temp.toNat ≤ (ctlAt s1 d).tres.toNat)) then
    .next s1
  else
    let s2 := s1.thermal.foldl coolDevice { s1 with thermal := [] }
    .next (s2.crews.foldl (fun s p => coolCrew s p.1) s2)

/-! ## Host windows (R239, R359, R373, Table 18.2) -/

/-- The completion statuses of a host window: data, poison, Completer Abort, COMPRESSED_OPAQUE. -/
def cplCode : MemRes → Nat
  | .ok _ => 0
  | .poison => 1
  | .integrity => 2

/-- The bytes of a read by physical address, with fuel; the first granule that fails ends it. A read that would cross a boundary
that is down is refused: a Completer Abort (R375; log entry 68). -/
def windowRead (fuel : Nat) (s : State) (dom : BitVec 6) (pa n : Nat) : Nat × List Byte × State :=
  match fuel with
  | 0 => (0, [], s)
  | f + 1 =>
    if n = 0 then (0, [], s)
    else
      let k := min n (64 - pa % 64)
      if physCut s iodDie pa then (2, [], s)
      else
      match granRead s (Config.physCtrl pa) (pa / 64) dom with
      | (.ok v, s1) =>
        let r := windowRead f s1 dom (pa + k) (n - k)
        (r.1, granBytes v (pa % 64) k ++ r.2.1, r.2.2)
      | (x, s1) => (cplCode x, [], s1)

/-- A posted write by physical address, granule by granule, with fuel; a granule beyond a boundary that is down takes no write
(R375). -/
def windowWrite (fuel : Nat) (s : State) (dom : BitVec 6) (pa : Nat) (l : List Byte) : State :=
  match fuel with
  | 0 => s
  | f + 1 =>
    if l.isEmpty then s
    else
      let k := min l.length (64 - pa % 64)
      let c := Config.physCtrl pa
      let g := pa / 64
      let v := granPut 0#512 (pa % 64) (l.take k)
      let s1 := if physCut s iodDie pa then s else enqueueWrite (makeRoom s c g) c g (maskOf (pa % 64) k) v false dom []
      windowWrite f s1 dom (pa + k) (l.drop k)

/-- Objects that an object table can list: those a capability can name. -/
def obtSize : Nat := 2 ^ 24

/-- Whether a page entry of an object on BULK or POOL names an opaque packed page (R239) of which bytes `pa` to `pa + n - 1`
touch one. -/
def opaquePage (s : State) (e : BitVec 256) (pa n i : Nat) : Bool :=
  let p : BitVec 64 := peekBits 64 s (oeBase e + 8 * i)
  peC p && peCmp p != 0 && decide (peFrame p * 8192 < pa + n) && decide (pa < peFrame p * 8192 + pageSize e)

/-- Whether an object of a space's table holds an opaque packed page that a range of bytes touches. -/
def opaqueObj (s : State) (sp : Space) (pa n obj : Nat) : Bool :=
  let e : BitVec 256 := peekBits 256 s (sp.obt + 32 * obj)
  oeV e && oeKind e == 1 && oeTier e != 0 &&
  (List.range ((oeLen e + pageSize e - 1) / pageSize e)).any (opaquePage s e pa n)

/-- Whether a range of physical addresses touches an opaque packed page of a usable space (R239). -/
def opaqueAt (s : State) (pa n : Nat) : Bool :=
  s.inForce.any fun sp => sp.2.v && (List.range obtSize).any (opaqueObj s sp.2 pa n)

/-- HOST_WINDOW_ACCESS: a read of `n` bytes, or a write, through a host window of a domain, reaches its controllers. -/
def execHostWindowAccess (wr : Bool) (pa : Nat) (dom : BitVec 6) (bytes : List Byte) (n : Nat) (s : State) : Out :=
  if !ready s then .next s
  else if wr then .next (windowWrite (bytes.length + 1) s dom pa bytes)
  else if opaqueAt s pa n then .next (emit (logEvent s 14 pa) (.cpl 3 []))
  else
    let r := windowRead (n + 1) s dom pa n
    .next (emit (if r.1 = 2 then logEvent r.2.2 15 pa else r.2.2) (.cpl r.1 (if r.1 = 0 then r.2.1 else [])))

end Sys2Proof.Machine
end

