-- ==== Sys2Proof/Machine/Msc.lean ====
section
/-! DEFINITION. The management and security core: signed images (R382 to R384), the attestation log and its commands (R385 to
R387), lifetime counters (R379), debug accesses (R243). -/
namespace Sys2Proof.Machine
open Sys2Proof

/-! ## Signed images -/

/-- The bytes before a payload (Table 19.3). -/
def imageHead : Nat := 0x1D40

/-- The image of a KIND in the boot flash. -/
def flashImage (s : State) (kind : Nat) : List Byte := (mapFind s.msc.flash kind).getD (Config.flash kind)

/-- An accepted image: SVN, measurement, payload. -/
structure Image where
  svn : Nat
  d : BitVec 512
  payload : List Byte
deriving DecidableEq, Repr

/-- Check 1 of R383. -/
def imageFormat (l : List Byte) (kind : Nat) : Bool :=
  decide (imageHead ≤ l.length) && numAt l 0 4 == 0x4C534657 && numAt l 4 4 == kind && zeroAt l 0x14 236 &&
  zeroAt l 0x1D33 13 && decide (imageHead + numAt l 12 4 ≤ l.length) &&
  decide (imageHead + numAt l 12 4 ≤ Config.partitionSize kind)

/-- R383: an image of a KIND, against a floor; the first check that fails gives ERR. -/
def verifyImage (floor kind : Nat) (l : List Byte) : Except Nat Image :=
  let key := (l.drop 0x100).take 2592
  let pay := (l.drop imageHead).take (numAt l 12 4)
  let d := Config.sha3 (l.take 0x100 ++ pay)
  if !imageFormat l kind then .error 1
  else if 4 ≤ numAt l 16 4 ∨ Config.keySlot (numAt l 16 4) ≠ some (Config.sha3 key) then .error 2
  else if numAt l 8 4 < floor then .error 3
  else if !Config.mldsaVerify key (toBytes 64 d) ((l.drop 0xB20).take 4627) then .error 4
  else .ok { svn := numAt l 8 4, d := d, payload := pay }

/-! ## The attestation log (R386) -/

/-- Records that the log holds. -/
def logDepth : Nat := 1024

/-- A record is appended, where the log has room. -/
def appendLog (s : State) (r : BitVec 512) : State :=
  if logDepth ≤ s.msc.log.length then s
  else { s with msc := { s.msc with
      log := s.msc.log ++ [r]
      loghash := Config.sha3 (toBytes 64 s.msc.loghash ++ toBytes 64 r) } }

/-- An image of a KIND is accepted: its SVN runs, its measurement is kept and logged. -/
def acceptImage (s : State) (kind : Nat) (i : Image) : State :=
  appendLog { s with msc := { s.msc with
      svn := mapPut s.msc.svn kind i.svn
      meas := mapPut s.msc.meas kind i.d } } i.d

/-- Whether the MSC answers MCTP (R381). -/
def answers (s : State) : Bool := !s.off && decide (5 ≤ s.phase.toNat)

/-- An answer of the MSC. -/
def reply (s : State) (status : Nat) (l : List Byte) : Out := .next (if answers s then emit s (.ext l status) else s)

/-! ## Counters (R379) -/

/-- Whether the package has an instance of a memory device's counter: stack k, or mounted LPDDR-6 device k as 4 + k. -/
def devInst (s : State) (i : Nat) : Bool :=
  decide (i < s.caps.nStacks.toNat) || (decide (4 ≤ i) && decide (i < 4 + s.caps.mounted.toNat))

/-- Whether the package has a link of RETRAIN's instances. -/
def linkInst (s : State) (i : Nat) : Bool :=
  decide (i < s.caps.cxlPorts.toNat) ||
  (decide (8 ≤ i) && decide (i < 16) && s.caps.ovl && decide (i - 8 < s.caps.ovlPorts.toNat)) ||
  (decide (16 ≤ i) && decide (i - 16 < if s.caps.dies.toNat ≤ 2 then 3 else 8))

/-- Whether a counter of Table 18.11 has an instance and a bin. -/
def hasBin (s : State) (k : CounterKey) : Bool :=
  match k.1 with
  | 0 => k.2.1 == 0 && k.2.2 == 0
  | 1 => devInst s k.2.1 && decide (k.2.2 < 120)
  | 2 | 3 | 4 => devInst s k.2.1 && k.2.2 == 0
  | 5 => (devInst s k.2.1 || (decide (20 ≤ k.2.1) && decide (k.2.1 - 20 < s.caps.dies.toNat))) && decide (k.2.2 < 16)
  | 6 => k.2.1 == 0 && decide (k.2.2 < 2)
  | 7 => linkInst s k.2.1 && k.2.2 == 0
  | 8 => decide (k.2.1 < s.caps.cxlPorts.toNat) && k.2.2 == 0
  | _ => k.2.1 == 0 && decide (k.2.2 < 16)

/-- A count of a key in a list. -/
def countOf (l : List (CounterKey × Nat)) (k : CounterKey) : Nat := ((l.filter fun p => p.1 == k).map Prod.snd).sum

/-- The bytes of a counter's value: 32 bits, 16 for ISOLATE, 48 for the ticks of THERM_FREEZE. -/
def counterWidth (k : CounterKey) : Nat := if k.1 = 8 then 2 else if k.1 = 6 ∧ k.2.2 = 1 then 6 else 4

/-- The value of a lifetime counter: committed and in RAM, as one snapshot. -/
def counterValue (s : State) (k : CounterKey) : Nat :=
  min (countOf s.msc.committed k + countOf s.msc.ram k) (counterTop k)

/-- READ_COUNTER. -/
def execReadCounter (counter inst bin : Nat) (s : State) : Out :=
  let k : CounterKey := (counter, inst, bin)
  if 11 ≤ counter then reply s 1 []
  else if !hasBin s k then reply s 2 []
  else reply s 0 (toBytes (counterWidth k) (d64 (counterValue s k)))

/-! ## Identity and attestation -/

/-- The measurement of a KIND. -/
def measOf (s : State) (kind : Nat) : BitVec 512 := mapGet 0#512 s.msc.meas kind

/-- "FRAPRA-DEVICE". -/
def deviceLabel : List Byte := [0x46, 0x52, 0x41, 0x50, 0x52, 0x41, 0x2D, 0x44, 0x45, 0x56, 0x49, 0x43, 0x45]

/-- "FRAPRA-ALIAS". -/
def aliasLabel : List Byte := [0x46, 0x52, 0x41, 0x50, 0x52, 0x41, 0x2D, 0x41, 0x4C, 0x49, 0x41, 0x53]

/-- The seed of the DeviceID key (R385). -/
def deviceSeed : List Byte := toBytes 32 (Config.sha3 (toBytes 64 Config.uds ++ deviceLabel))

/-- CDI, from the measurements of the MSC image and of the policy (R385). -/
def cdi (msc pol : BitVec 512) : BitVec 512 := Config.sha3 (toBytes 64 Config.uds ++ toBytes 64 msc ++ toBytes 64 pol)

/-- The seed of the Alias key (R385). -/
def aliasSeed (msc pol : BitVec 512) : List Byte := toBytes 32 (Config.sha3 (toBytes 64 (cdi msc pol) ++ aliasLabel))

/-- The seed of the Alias key of the images that run. -/
def aliasOf (s : State) : List Byte := aliasSeed (measOf s 1) (measOf s 4)

/-- The certificates: 0 DeviceID's, 1 the Alias key's (R385). -/
def certOf (s : State) (cert : Nat) : List Byte :=
  if cert = 0 then Config.deviceCert else Config.aliasCert deviceSeed (aliasOf s)

/-- GET_CERT: up to 1,024 bytes of a certificate. -/
def execGetCert (cert off : Nat) (s : State) : Out :=
  if 2 ≤ cert then reply s 2 [] else reply s 0 (((certOf s cert).drop off).take 1024)

/-- ATTEST (R386). -/
def execAttest (nonce : BitVec 256) (s : State) : Out :=
  let tail := toBytes 64 s.msc.loghash ++ toBytes 4 (d64 s.msc.log.length) ++ toBytes 8 s.frame
  reply s 0 (tail ++ Config.mldsaSign (aliasOf s) (toBytes 64 (Config.sha3 (toBytes 32 nonce ++ tail))))

/-- GET_LOG: up to 16 records. -/
def execGetLog (first n : Nat) (s : State) : Out :=
  reply s 0 (((s.msc.log.drop first).take (min n 16)).flatMap (toBytes 64))

/-! ## Debug accesses (R243) -/

/-- The registers of a core as they stand, the present strand's over those left there; held tiles are the core's. -/
def coreRegs (s : State) (core : Nat) : Regs :=
  let c := mapGet {} s.cores core
  match strandAt s core with
  | some st => layRegs c.left st.r
  | none => c.left

/-- The tag and bytes of a core's tile: a register's, or a held one's. -/
def tileObj (s : State) (core n : Nat) : Gen × List Byte :=
  match mapFind s.heldTiles (tileKey core n) with
  | some h => (h.gen, toBytes 1024 h.val)
  | none =>
    let t := mapGet {} (coreRegs s core).t n
    (t.gen, toBytes 1024 t.val)

/-- The tag and bytes of the object that a debug access names, as its core sees it; no tag of its own where another core of the
quad has tagged it (R191). -/
def debugObj (s : State) (o : DebugObj) : Option Gen × List Byte :=
  let mine := fun (core : Nat) (c : BitVec 2) (g : Gen) => if c.toNat = coreInQuad core then some g else none
  match o with
  | .granule core g =>
    let x := spGran s core g
    (some x.gen, toBytes 64 x.val)
  | .x core n =>
    let x := mapGet {} (coreRegs s core).x n
    (some x.gen, toBytes 8 x.val)
  | .sx core n =>
    let x := mapGet {} (coreRegs s core).sx (24 + n)
    (some x.gen, toBytes 8 x.val)
  | .c core n =>
    let x := mapGet {} (coreRegs s core).c n
    (some x.gen, toBytes 16 x.val)
  | .p core n =>
    let x := mapGet {} (coreRegs s core).p n
    (some x.gen, toBytes 128 x.val)
  | .v core n =>
    let x := mapGet {} (coreRegs s core).v n
    (some x.gen, toBytes 512 x.val)
  | .tile core n =>
    let x := tileObj s core n
    (some x.1, x.2)
  | .row core r =>
    let x := mapGet {} (quadAt s (quadOf core)).rows r
    (mine core x.core x.gen, toBytes 512 x.val)
  | .plane core b k =>
    let x := planeOf (quadAt s (quadOf core)) b
    (mine core x.core x.gen, toBytes 256 (mapGet 0#2048 x.rows k))
  | .scales core b =>
    let x := planeOf (quadAt s (quadOf core)) b
    (mine core x.core x.gen, toBytes 512 x.scales)

/-- The core, the kind's number and the index of an object. -/
def objKey : DebugObj → Nat × Nat × Nat
  | .granule core g => (core, 0, g)
  | .x core n => (core, 1, n)
  | .v core n => (core, 2, n)
  | .tile core n => (core, 3, n)
  | .row core r => (core, 4, r)
  | .plane core b k => (core, 5, if b then 128 + k else k)
  | .sx core n => (core, 6, n)
  | .c core n => (core, 7, n)
  | .p core n => (core, 8, n)
  | .scales core b => (core, 9, if b then 1 else 0)

/-- How many objects of a kind a core, or its quad, has. -/
def kindSize (kind : Nat) : Nat :=
  match kind with
  | 0 => spadGrans | 1 => 32 | 2 => 64 | 3 => 8 | 4 => 1024 | 5 => 256 | 6 => 8 | 7 => 16 | 8 => 32 | _ => 2

/-- Whether the package has an object. -/
def hasObj (s : State) (o : DebugObj) : Bool :=
  let k := objKey o
  decide (k.1 < s.caps.dies.toNat * coresPerDie) && decide (k.2.2 < kindSize k.2.1)

/-- DEBUG_READ: the object's bytes and flag 0 where its tag is G, else zero bytes and flag 1. -/
def execDebugRead (o : DebugObj) (g : BitVec 16) (s : State) : Out :=
  if !ready s || !hasObj s o then reply s 3 []
  else
    let x := debugObj s o
    if x.1 = some g then reply s 0 (x.2 ++ [0#8]) else reply s 0 (x.2.map (fun _ => 0#8) ++ [1#8])

/-- The space whose consent a raw read of a core needs: that of its strand, or of its last one. -/
def coreSpace (s : State) (core : Nat) : Option Nat :=
  match strandAt s core with
  | some st => some (spaceOf s st)
  | none => (mapGet {} s.cores core).owner

/-- The record of a raw read (R386; its layout is log entry 23). -/
def rawRecord (s : State) (o : DebugObj) : BitVec 512 :=
  let k := objKey o
  ofBytes 512 (toBytes 4 (d64 k.1) ++ toBytes 4 (d64 k.2.1) ++ toBytes 8 (d64 k.2.2) ++ toBytes 8 s.frame)

/-- RAW_READ: logged before its data is returned; refused and logged without both conditions, or with the log full. -/
def execRawRead (o : DebugObj) (s : State) : Out :=
  let core := (objKey o).1
  let consent := ((coreSpace s core).map fun n => (spaceReg s n).consent).getD false
  if !answers s then .next s
  else if !ready s || !hasObj s o then reply s 3 []
  else if s.msc.policy.getLsbD 0 = false ∨ consent = false ∨ logDepth ≤ s.msc.log.length then
    reply (logEvent s 16 core) 3 []
  else reply (appendLog s (rawRecord s o)) 0 ((debugObj s o).2 ++ [0#8])

/-- The bytes of an object with some replaced from an offset on; a stale object is zero-filled first. -/
def patch (l : List Byte) (current : Bool) (off : Nat) (b : List Byte) : List Byte :=
  let base := if current then l else l.map fun _ => 0#8
  base.take off ++ b.take (base.length - off) ++ base.drop (off + b.length)

/-- The machine with an object of a core's strand written under a generation; x0 and p0 hold nothing (R64), bit 80 of a
capability register is zero (R220). DESIGN CHOICE (log entry 87): a tile, row or plane of a context that is held under the number
is written out first (R82). -/
def putObj (s : State) (core : Nat) (g : Gen) (current : Bool) (o : DebugObj) (l : List Byte) : State :=
  let setR := fun (f : Regs → Regs) => modStrand s core fun st => { st with r := f st.r }
  let c : BitVec 2 := BitVec.ofNat 2 (coreInQuad core)
  match o with
  | .granule _ n => { s with spad := mapSet {} s.spad (core * spadGrans + n) { gen := g, val := ofBytes 512 l } }
  | .x _ n => setR fun r => if n = 0 then r else { r with x := mapSet {} r.x n { gen := g, val := ofBytes 64 l } }
  | .sx _ n => setR fun r => { r with sx := mapSet {} r.sx (24 + n) { gen := g, val := ofBytes 64 l } }
  | .c _ n => setR fun r => { r with c := mapSet {} r.c n { gen := g, val := ofBytes 128 l &&& ~~~(1#128 <<< 80) } }
  | .p _ n => setR fun r => if n = 0 then r else { r with p := mapSet {} r.p n { gen := g, val := ofBytes 1024 l } }
  | .v _ n =>
    setR fun r =>
      let f := if current then (mapGet {} r.v n).fmt else 15#4
      { r with v := mapSet {} r.v n { gen := g, fmt := f, val := ofBytes 4096 l } }
  | .tile _ n =>
    let s1 := writeOutTile s core n
    modStrand s1 core fun st =>
      let f := if current then (mapGet {} st.r.t n).fmt else 15#4
      { st with r := { st.r with
        t := mapSet {} st.r.t n { gen := g, fmt := f, val := ofBytes 8192 l, dirty := true } } }
  | .row _ n =>
    let s1 := writeOutRow s (quadOf core) n
    modQuad s1 (quadOf core) fun q => { q with
      rows := mapSet {} q.rows n { gen := g, core := c, val := ofBytes 4096 l, dirty := true } }
  | .plane _ b k =>
    let s1 := writeOutPlane s (quadOf core) b
    modQuad s1 (quadOf core) fun q =>
      let p := planeOf q b
      let p1 : Plane := if current then p else { gen := g, core := c }
      setPlane q b { p1 with
        rows := mapSet 0#2048 p1.rows k (ofBytes 2048 l)
        dirty := true }
  | .scales _ b =>
    let s1 := writeOutPlane s (quadOf core) b
    modQuad s1 (quadOf core) fun q =>
      let p1 : Plane := if current then planeOf q b else { gen := g, core := c }
      setPlane q b { p1 with
        scales := ofBytes 4096 l
        dirty := true }

/-- DEBUG_WRITE: a tag_write under the CGEN of the core's strand; refused where none is allocated. -/
def execDebugWrite (o : DebugObj) (off : Nat) (bytes : List Byte) (s : State) : Out :=
  let core := (objKey o).1
  if !answers s then .next s
  else
    match strandAt s core with
    | none => reply s 3 []
    | some st =>
      if !ready s || !hasObj s o then reply s 3 []
      else
        let x := debugObj s o
        let cur := x.1 == some st.cgen
        reply (putObj s core st.cgen cur o (patch x.2 cur off (bytes.take 64))) 0 []

/-! ## Firmware and MCTP (R387) -/

/-- The bytes of an image in BULK by physical address; none where a read fails. -/
def readImage (s : State) (pa n : Nat) : Option (List Byte) × State :=
  let r := physReadAll s iodDie pa ((pa % 64 + n + 63) / 64)
  (r.1.map fun gs => ((gs.flatMap (toBytes 64)).drop (pa % 64)).take n, r.2)

/-- An image staged from BULK: verified, and written to flash for the next reset. -/
def stageImage (s : State) (kind pa : Nat) : Nat × State :=
  match readImage s pa imageHead with
  | (none, s1) => (1, s1)
  | (some h, s1) =>
    if Config.partitionSize kind < imageHead + numAt h 12 4 then (1, s1)
    else
      match readImage s1 pa (imageHead + numAt h 12 4) with
      | (none, s2) => (1, s2)
      | (some l, s2) =>
        match verifyImage (mapGet 0 s2.msc.floors kind) kind l with
        | .error e => (e, s2)
        | .ok _ => (0, { s2 with msc := { s2.msc with flash := mapPut s2.msc.flash kind l } })

/-- Whether a KIND is one of R382's. -/
def isKind (k : Nat) : Bool := decide (1 ≤ k) && decide (k ≤ 4)

/-- FW_STAGE. -/
def execFwStage (kind pa : Nat) (s : State) : Out :=
  if !answers s then .next s
  else if !isKind kind then reply s 1 []
  else
    let r := stageImage s kind pa
    reply r.2 r.1 []

/-- FW_COMMIT (R383, R386): the floor of a KIND rises to the SVN of the running image. -/
def execFwCommit (kind : Nat) (s : State) : Out :=
  if !answers s then .next s
  else
    match mapFind s.msc.svn kind with
    | none => reply s 1 []
    | some v =>
      let f := max (mapGet 0 s.msc.floors kind) v
      reply (appendLog { s with msc := { s.msc with floors := mapPut s.msc.floors kind f } }
        (ofBytes 512 (toBytes 4 (d64 kind) ++ toBytes 4 (d64 f)))) 0 []

/-- SET_ENDPOINT_ID: one of the MSC's two endpoints takes its identifier. -/
def execSetEndpointId (i3c : Bool) (id : BitVec 8) (s : State) : Out :=
  .next (if !answers s then s
    else { s with msc := if i3c then { s.msc with epI3c := id } else { s.msc with epPcie := id } })

/-- The commands of Table 19.6. -/
def mscCommands : List (BitVec 8) := [0x10#8, 0x20#8, 0x21#8, 0x22#8, 0x30#8, 0x40#8, 0x41#8]

/-- UNKNOWN_COMMAND: status 1. -/
def execUnknownCommand (cmd : BitVec 8) (s : State) : Out := if mscCommands.contains cmd then .next s else reply s 1 []

end Sys2Proof.Machine
end

