-- ==== Sys2Proof/Machine/Boot.lean ====
section
/-! DEFINITION. Resets and the boot sequence (R380, R381), the advance of FRAME (R5), power windows and states (R392 to
R394), and the commits of the lifetime counters (R378). -/
namespace Sys2Proof.Machine
open Sys2Proof

/-! ## Resets -/

/-- POWER_ON (R392): leaving OFF is a power-on reset. -/
def execPowerOn (s : State) : Out := .next (if s.off then { afterReset s with off := false } else s)

/-- PERST (R380). -/
def execPerst (s : State) : Out := .next (resetPackage s)

/-! ## Boot phases (Table 19.1) -/

/-- A phase fails: the package stays in it. -/
def bootFail (s : State) (err detail : Nat) : State :=
  { s with berr := BitVec.ofNat 4 err, bdetail := BitVec.ofNat 8 detail }

/-- The next phase begins. -/
def bootNext (s : State) : State := { s with phase := s.phase + 1 }

/-- The image of a KIND is read from flash and verified; then `k`. -/
def bootImage (s : State) (kind : Nat) (k : Image → State → State) : State :=
  match verifyImage (mapGet 0 s.msc.floors kind) kind (flashImage s kind) with
  | .error e => bootFail s e kind
  | .ok i => k i (acceptImage s kind i)

/-- Phase 2: the policy is applied (R384). -/
def bootPolicy (s : State) : State :=
  bootImage s 4 fun i s =>
    if i.payload.length ≠ 64 then bootFail s 1 4
    else if (ofBytes 512 i.payload).toNat / 4 ≠ 0 then bootFail s 5 4
    else bootNext { s with msc := { s.msc with policy := ofBytes 64 (i.payload.take 8) } }

/-- A CXL port after training: down, or up; one that was isolated stays so, and only RESTORE returns it to service (R371). -/
def trainPort (x : CxlPort) (down : Bool) (box : Option Nat) : CxlPort :=
  { tmo := x.tmo, retrains := x.retrains, isoFrame := x.isoFrame
    state := if x.state = 2#3 then 2#3 else if down then 0#3 else 3#3
    trained := x.state == 2#3 && !down
    hintV := box.isSome && !down, hintAddr := if down then 0 else box.getD 0 }

/-- Ports up to `n` after training: those listed are left down, and logged. -/
def bootPorts (n : Nat) (s : State) (cxlDown ovlDown : List Nat) (boxes : List (Nat × Nat)) : State :=
  let up := fun (s : State) (p : Nat) =>
    let box := (boxes.find? fun b => b.1 == p).map Prod.snd
    let down := cxlDown.contains p
    let s1 := modPort s p fun x => trainPort x down box
    if down then logEvent s1 17 p else s1
  let ovl := fun (s : State) (p : Nat) =>
    let down := ovlDown.contains p
    let s1 := { s with ovl := mapMod {} s.ovl p fun x => { retrains := x.retrains, down := down } }
    if down then logEvent s1 11 p else s1
  let s1 := (List.range n).foldl up s
  if s.caps.ovl then (List.range s.caps.ovlPorts.toNat).foldl ovl s1 else s1

/-- The die boundaries of the package (R6). -/
def boundaries (s : State) : Nat := if s.caps.dies.toNat ≤ 2 then 3 else 8

/-- Every boundary carries traffic again. -/
def bootBounds (s : State) : State := { s with bnds := [] }

/-- GCTR := 0 and every tag is void on every core: what the compute dies hold is gone (R381, R393). -/
def voidCores (s : State) : State :=
  { s with
    cores := []
    spad := []
    quads := []
    heldTiles := []
    aq := []
    dies := s.dies.map fun d => (d.1, { d.2 with
      tc := []
      lineReq := [] }) }

/-- READY begins (R381). -/
def enterReady (s : State) : State :=
  { s with phase := 7#4, frame := 0#64, idleSeen := 0, winTicks := 0 }

/-- READY begins again after STANDBY (R393): FRAME went on, every semaphore is zero (R213), and the recorded tails act. -/
def leaveStandby (s : State) : State :=
  let s1 := { s with
    phase := 7#4
    pwrState := 0#2
    pwrResult := 1#2
    idleSeen := s.frame.toNat
    tails := []
    dies := s.dies.map fun d => (d.1, { d.2 with sems := [] }) }
  s.tails.foldl (fun s t => writeTail s t.1 t.2.1 t.2.2) s1

/-- Phase 6: the images of the command processors and of the tier engine are verified and installed. -/
def bootInstall (s : State) : State :=
  if s.pwrState = 2#2 then leaveStandby (voidCores s)
  else bootImage s 2 fun _ s => bootImage s 3 fun _ s => enterReady (voidCores s)

/-- A phase ends as the world gives. -/
def bootStep (s : State) (o : BootOutcome) : State :=
  match s.phase.toNat, o with
  | 0, .pass => bootNext s
  | 1, .pass => bootImage s 1 fun _ s => bootNext s
  | 2, .pass => bootPolicy s
  | 3, .pass => bootNext s
  | 3, .fail e d => if e = 6 ∧ d < s.caps.nStacks.toNat then bootFail s 6 d else s
  | 4, .bulk n l =>
    bootNext (l.foldl (fun s d => logEvent s 19 d) { s with bulkSize := min n s.caps.mounted.toNat })
  | 5, .ports c o b => if c.contains 0 then bootFail s 6 0x20 else bootNext (bootBounds (bootPorts s.caps.cxlPorts.toNat s c o b))
  | 5, .fail e d =>
    if e = 6 ∧ (d = 0x20 ∨ (0x10 ≤ d ∧ d < 0x10 + boundaries s)) then bootFail s 6 d else s
  | 6, .pass => bootInstall s
  | 6, .fail e d => if e = 7 ∧ s.pwrState ≠ 2#2 ∧ (d = 2 ∨ d = 3) then bootFail s 7 d else s
  | _, _ => s

/-- BOOT_PHASE: the phase under way ends; a phase that has failed stays. -/
def execBootPhase (o : BootOutcome) (s : State) : Out := .next (if s.off ∨ s.berr ≠ 0#4 then s else bootStep s o)

/-! ## The advance of FRAME (R5) -/

/-- Whole seconds in a number of ticks of 819.2 ns. -/
def secondsOf (ticks : Nat) : Nat := ticks * 4096 / 5000000000

/-- The bin of a temperature (Table 18.11). -/
def tempBin (t : Nat) : Nat := if t < 32 then 0 else min 15 ((t - 32) / 8 + 1)

/-- A second has passed: the temperatures of dies and of trained stacks and devices are counted; a die's is a free value. -/
def countTemps (s : State) : State :=
  let n := if 4 ≤ s.phase.toNat then s.caps.nStacks.toNat else 0
  let devs := List.range n ++ (List.range s.bulkSize).map (4 + ·)
  let s1 := devs.foldl (fun s d => mscCount s (5, d, tempBin (ctlAt s d).temp.toNat) 1) s
  (List.range s.caps.dies.toNat).foldl (fun s d =>
    let f := drawFresh s
    mscCount f.2 (5, 20 + d, Config.freeBits f.1 % 16) 1) s1

/-- What the MSC counts in a tick (R378, Table 18.11): the ticks of a thermal event, and each second the temperatures. -/
def mscTick (s : State) : State :=
  let s1 := { s with msc := { s.msc with up := s.msc.up + 1 } }
  let s2 := if s.thermal.isEmpty then s1 else mscCount s1 (6, 0, 1) 1
  if secondsOf s.msc.up < secondsOf (s.msc.up + 1) then countTemps s2 else s2

/-- Whether every queue, crew slot and context is idle (R392). -/
def packageIdle (s : State) : Bool :=
  s.dies.all (fun d => d.2.queues.all fun q => queueIdle q.2) && s.crews.isEmpty && s.te.all (fun c => !c.2.active) &&
  s.rq.all fun g => !g.2.active

/-- FRAME has advanced from `old`: the frame of every queue in which a launch overran slips (R299). -/
def slipAll (old s : State) : State :=
  old.dies.foldl (fun s d => d.2.queues.foldl (fun s q => if q.2.frame.isSome then slipQueue old s d.1 q.1 else s) s) s

/-- What the advance of FRAME does in a running package. -/
def tickOn (s : State) : State :=
  let f := s.frame + 1
  let s1 := slipAll s { s with frame := f }
  let s2 := { s1 with
    winTicks := s.winTicks + 1
    idleSeen := if packageIdle s then s.idleSeen else f.toNat }
  mscTick (s2.rq.foldl (fun s g => rqTurn s g.1) s2)

/-- FRAME_TICK: a tick has passed. FRAME advances from READY on, through STANDBY too (R381, R393); the MSC counts from its start
on (R378). -/
def execFrameTick (s : State) : Out :=
  .next (if s.off then s
    else if s.pwrState = 2#2 then mscTick { s with
      frame := s.frame + 1
      winTicks := s.winTicks + 1 }
    else if s.phase = 7#4 then tickOn s
    else if 2 ≤ s.phase.toNat then mscTick s else s)

/-! ## Power (R392, R394) -/

/-- The power level after a window. -/
def nextLevel (p : BitVec 2) (watts cap : Nat) : BitVec 2 :=
  if cap < watts then (if p = 3#2 then p else p + 1)
  else if 20 * watts < 19 * cap then (if p = 0#2 then p else p - 1)
  else p

/-- POWER_WINDOW: a window of 1,024 ticks ends with an average input, in STANDBY too, where the MSC runs on (R392, R394). -/
def execPowerWindow (watts : Nat) (s : State) : Out :=
  if (!ready s && s.pwrState != 2#2) || decide (s.winTicks < 1024) then .next s
  else
    let cap := s.pwrCap.toNat
    let above := if cap < watts ∧ s.plvl = 3#2 then s.overWins + 1 else 0
    let s1 := { s with
      winTicks := 0
      pwrInput := BitVec.ofNat 32 watts
      plvl := nextLevel s.plvl watts cap
      overWins := above }
    .next (if above = 8 then logEvent s1 18 watts else s1)

/-- IDLE_ENTER: everything has been idle for IDLE_TICKS. -/
def execIdleEnter (s : State) : Out :=
  .next (if ready s ∧ s.pwrState = 0#2 ∧ packageIdle s = true ∧ s.idleTicks.toNat ≤ s.frame.toNat - s.idleSeen then
    { s with pwrState := 1#2 } else s)

/-! ## Counters (R378) -/

/-- COUNTER_COMMIT: an hour of power-on time has passed. -/
def execCounterCommit (s : State) : Out := .next (if s.off then s else commitCounters (mscCount s (0, 0, 0) 1))

/-- POWER_LOSS: the counts in RAM are lost with everything else. -/
def execPowerLoss (s : State) : Out := .next { afterReset s with off := true }

end Sys2Proof.Machine
end

