-- ==== Sys2Proof/Machine/Scalar.lean ====
section
/-! DEFINITION. The scalar stream's arithmetic, capability, load, store, atomic and control instructions (R83 to R99)
and the prefixes of every stream (R13, R27 to R29). -/
namespace Sys2Proof.Machine
open Sys2Proof

/-! ## Prefixes -/

/-- R13: the fields that the follower takes. -/
def execArith (rm : BitVec 3) (sat : Bool) (ftz : BitVec 2) (t : Bool) (pred : PReg) (pneg pen : Bool) (fmt : BitVec 4)
    (s : State) : Out :=
  .next { s with
    pfx := { s.pfx with
      arith := some { rm := rm, sat := sat, ftz := ftz, t := t, pred := pred, pneg := pneg, pen := pen, fmt := fmt } } }

/-- R28. -/
def execLabel (lbl : BitVec 10) (s : State) : Out := .next { s with pfx := { s.pfx with label := some lbl } }

/-- R29. -/
def execImmx (upper : BitVec 26) (s : State) : Out := .next { s with pfx := { s.pfx with immx := some upper } }

/-! ## Arithmetic -/

/-- R112: nothing but its tokens. -/
def execSnop (tk : Tk) (s : State) : Out := issue .S tk (fun s _ _ => .fin s) s

/-- The alu and mul groups: xd := f(xa, xb) (R86, R87). -/
def alu2 (f : DWord → DWord → DWord) (tk : Tk) (xd xa xb : XReg) (s : State) : Out :=
  issue .S tk (fun s core st => orTrap s (readX2 st .S xa xb) fun (a, b) => finX s core .S st xd (f a b)) s

/-- The immediate forms: xd := f(xa, imm) (R88). -/
def aluI (f : DWord → DWord → DWord) (tk : Tk) (xd xa : XReg) (imm : BitVec 10) (s : State) : Out :=
  issue .S tk (fun s core st => orTrap s (readX st .S xa) fun a => finX s core .S st xd (f a (imm64 s imm))) s

/-- The shift group by an immediate count (R88). -/
def shiftI (f : DWord → Nat → DWord) (tk : Tk) (xd xa : XReg) (n : BitVec 6) (s : State) : Out :=
  issue .S tk (fun s core st => orTrap s (readX st .S xa) fun a => finX s core .S st xd (f a n.toNat)) s

/-- Signed quotient with the edges of Table 5.2. -/
def divS (a b : DWord) : DWord := if b = 0#64 then BitVec.allOnes 64 else i64 (a.toInt.tdiv b.toInt)
/-- Unsigned quotient with the edges of Table 5.2. -/
def divU (a b : DWord) : DWord := if b = 0#64 then BitVec.allOnes 64 else d64 (a.toNat / b.toNat)
/-- Signed remainder: xa - xb × quotient. -/
def remS (a b : DWord) : DWord := if b = 0#64 then a else i64 (a.toInt.tmod b.toInt)
/-- Unsigned remainder. -/
def remU (a b : DWord) : DWord := if b = 0#64 then a else d64 (a.toNat % b.toNat)

/-- R86: xa + xb. -/
def execAdd (tk : Tk) (xd xa xb : XReg) (s : State) : Out :=
  alu2 (fun a b => a + b) tk xd xa xb s

/-- R86: xa - xb. -/
def execSub (tk : Tk) (xd xa xb : XReg) (s : State) : Out :=
  alu2 (fun a b => a - b) tk xd xa xb s

/-- R86: xa AND xb. -/
def execAndR (tk : Tk) (xd xa xb : XReg) (s : State) : Out :=
  alu2 (fun a b => a &&& b) tk xd xa xb s

/-- R86: xa OR xb. -/
def execOrR (tk : Tk) (xd xa xb : XReg) (s : State) : Out :=
  alu2 (fun a b => a ||| b) tk xd xa xb s

/-- R86: xa XOR xb. -/
def execXorR (tk : Tk) (xd xa xb : XReg) (s : State) : Out :=
  alu2 (fun a b => a ^^^ b) tk xd xa xb s

/-- R86: left by xb[5:0]. -/
def execSll (tk : Tk) (xd xa xb : XReg) (s : State) : Out :=
  alu2 (fun a b => a <<< (b.toNat % 64)) tk xd xa xb s

/-- R86: right by xb[5:0], zero fill. -/
def execSrl (tk : Tk) (xd xa xb : XReg) (s : State) : Out :=
  alu2 (fun a b => a >>> (b.toNat % 64)) tk xd xa xb s

/-- R86: right by xb[5:0], sign fill. -/
def execSra (tk : Tk) (xd xa xb : XReg) (s : State) : Out :=
  alu2 (fun a b => a.sshiftRight (b.toNat % 64)) tk xd xa xb s

/-- R86: signed less. -/
def execSlt (tk : Tk) (xd xa xb : XReg) (s : State) : Out :=
  alu2 (fun a b => b64 (decide (a.toInt < b.toInt))) tk xd xa xb s

/-- R86: unsigned less. -/
def execSltu (tk : Tk) (xd xa xb : XReg) (s : State) : Out :=
  alu2 (fun a b => b64 (decide (a.toNat < b.toNat))) tk xd xa xb s

/-- R86: the smaller as signed. -/
def execMinR (tk : Tk) (xd xa xb : XReg) (s : State) : Out :=
  alu2 (fun a b => if a.toInt ≤ b.toInt then a else b) tk xd xa xb s

/-- R86: the larger as signed. -/
def execMaxR (tk : Tk) (xd xa xb : XReg) (s : State) : Out :=
  alu2 (fun a b => if a.toInt ≤ b.toInt then b else a) tk xd xa xb s

/-- R86: the smaller as unsigned. -/
def execMinu (tk : Tk) (xd xa xb : XReg) (s : State) : Out :=
  alu2 (fun a b => if a.toNat ≤ b.toNat then a else b) tk xd xa xb s

/-- R86: the larger as unsigned. -/
def execMaxu (tk : Tk) (xd xa xb : XReg) (s : State) : Out :=
  alu2 (fun a b => if a.toNat ≤ b.toNat then b else a) tk xd xa xb s

/-- R87: the low 64 bits of the product. -/
def execMul (tk : Tk) (xd xa xb : XReg) (s : State) : Out :=
  alu2 (fun a b => a * b) tk xd xa xb s

/-- R87: the high 64 bits, signed. -/
def execMulh (tk : Tk) (xd xa xb : XReg) (s : State) : Out :=
  alu2 (fun a b => i64 (a.toInt * b.toInt / 2 ^ 64)) tk xd xa xb s

/-- R87: the high 64 bits, unsigned. -/
def execMulhu (tk : Tk) (xd xa xb : XReg) (s : State) : Out :=
  alu2 (fun a b => d64 (a.toNat * b.toNat / 2 ^ 64)) tk xd xa xb s

/-- R87: the high 64 bits, signed xa by unsigned xb. -/
def execMulhsu (tk : Tk) (xd xa xb : XReg) (s : State) : Out :=
  alu2 (fun a b => i64 (a.toInt * (b.toNat : Int) / 2 ^ 64)) tk xd xa xb s

/-- R87, Table 5.2. -/
def execDiv (tk : Tk) (xd xa xb : XReg) (s : State) : Out :=
  alu2 divS tk xd xa xb s

/-- R87, Table 5.2. -/
def execDivu (tk : Tk) (xd xa xb : XReg) (s : State) : Out :=
  alu2 divU tk xd xa xb s

/-- R87, Table 5.2. -/
def execRem (tk : Tk) (xd xa xb : XReg) (s : State) : Out :=
  alu2 remS tk xd xa xb s

/-- R87, Table 5.2. -/
def execRemu (tk : Tk) (xd xa xb : XReg) (s : State) : Out :=
  alu2 remU tk xd xa xb s

/-- R88: add of xa and the immediate. -/
def execAddi (tk : Tk) (xd xa : XReg) (imm : BitVec 10) (s : State) : Out :=
  aluI (fun a b => a + b) tk xd xa imm s

/-- R88: and of xa and the immediate. -/
def execAndi (tk : Tk) (xd xa : XReg) (imm : BitVec 10) (s : State) : Out :=
  aluI (fun a b => a &&& b) tk xd xa imm s

/-- R88: or of xa and the immediate. -/
def execOri (tk : Tk) (xd xa : XReg) (imm : BitVec 10) (s : State) : Out :=
  aluI (fun a b => a ||| b) tk xd xa imm s

/-- R88: xor of xa and the immediate. -/
def execXori (tk : Tk) (xd xa : XReg) (imm : BitVec 10) (s : State) : Out :=
  aluI (fun a b => a ^^^ b) tk xd xa imm s

/-- R88: slt of xa and the immediate. -/
def execSlti (tk : Tk) (xd xa : XReg) (imm : BitVec 10) (s : State) : Out :=
  aluI (fun a b => b64 (decide (a.toInt < b.toInt))) tk xd xa imm s

/-- R88: sltu of xa and the immediate. -/
def execSltiu (tk : Tk) (xd xa : XReg) (imm : BitVec 10) (s : State) : Out :=
  aluI (fun a b => b64 (decide (a.toNat < b.toNat))) tk xd xa imm s

/-- R88: left by n. -/
def execSlli (tk : Tk) (xd xa : XReg) (n : BitVec 6) (s : State) : Out :=
  shiftI (fun a n => a <<< n) tk xd xa n s

/-- R88: right with zero fill by n. -/
def execSrli (tk : Tk) (xd xa : XReg) (n : BitVec 6) (s : State) : Out :=
  shiftI (fun a n => a >>> n) tk xd xa n s

/-- R88: right with sign fill by n. -/
def execSrai (tk : Tk) (xd xa : XReg) (n : BitVec 6) (s : State) : Out :=
  shiftI (fun a n => a.sshiftRight n) tk xd xa n s

/-- R88: the immediate times 2^24. -/
def execLui (tk : Tk) (xd : XReg) (imm : BitVec 15) (s : State) : Out :=
  issue .S tk (fun s core st => finX s core .S st xd (i64 (immOf s imm * 2 ^ 24))) s

/-! ## Capabilities (R89, R90) -/

/-- A field of a capability into xd (R89). -/
def cinsp (f : CapBits → Nat) (tk : Tk) (xd : XReg) (ca : CReg) (s : State) : Out :=
  issue .S tk (fun s core st => orTrap s (readC st ca) fun c => finX s core .S st xd (d64 (f c))) s

/-- R89. -/
def execCinspBase (tk : Tk) (xd : XReg) (ca : CReg) (s : State) : Out :=
  cinsp capBase tk xd ca s

/-- R89. -/
def execCinspLen (tk : Tk) (xd : XReg) (ca : CReg) (s : State) : Out :=
  cinsp capLen tk xd ca s

/-- R89. -/
def execCinspRights (tk : Tk) (xd : XReg) (ca : CReg) (s : State) : Out :=
  cinsp (fun c => (capRights c).toNat) tk xd ca s

/-- R89. -/
def execCinspObj (tk : Tk) (xd : XReg) (ca : CReg) (s : State) : Out :=
  cinsp capObj tk xd ca s

/-- R89. -/
def execCinspGen (tk : Tk) (xd : XReg) (ca : CReg) (s : State) : Out :=
  cinsp capOgen tk xd ca s

/-- R90: base b and length xb, after cap_check(ca, xa, xb, D). -/
def execCwin (tk : Tk) (cd ca : CReg) (xa xb : XReg) (s : State) : Out :=
  issue .S tk (fun s core st =>
    orTrap s (do
      let (a, b) ← readX2 st .S xa xb
      let (c, w) ← capCheck st ca a b.toNat .d
      .ok (setBits (setBits c 0 40 (BitVec.ofNat 40 w)) 40 40 (b.setWidth 40))) fun c =>
    .fin (setStrand s core (writeC st cd c))) s

/-- R90: the rights that xa names as well, bit 80 clear. -/
def execCrt (tk : Tk) (cd ca : CReg) (xa : XReg) (s : State) : Out :=
  issue .S tk (fun s core st =>
    orTrap s (do
      let a ← readX st .S xa
      let (c, _) ← capCheck st ca 0#64 0 .d
      .ok (setBits c 80 8 (capRights c &&& a.setWidth 8 &&& 0xFE#8))) fun c =>
    .fin (setStrand s core (writeC st cd c))) s

/-- R90: a copy. -/
def execCmov (tk : Tk) (cd ca : CReg) (s : State) : Out :=
  issue .S tk (fun s core st => orTrap s (readC st ca) fun c => .fin (setStrand s core (writeC st cd c))) s

/-! ## Loads and stores (R83, R92, R94) -/

/-- R92: 1 byte, sign extension. -/
def execLdb (tk : Tk) (xd : XReg) (cn : CReg) (xo : XReg) (imm : BitVec 6) (s : State) : Out :=
  loadSM tk xd cn xo imm 1 true s

/-- R92: 1 byte, zero extension. -/
def execLdbu (tk : Tk) (xd : XReg) (cn : CReg) (xo : XReg) (imm : BitVec 6) (s : State) : Out :=
  loadSM tk xd cn xo imm 1 false s

/-- R92: 2 bytes, sign extension. -/
def execLdh (tk : Tk) (xd : XReg) (cn : CReg) (xo : XReg) (imm : BitVec 6) (s : State) : Out :=
  loadSM tk xd cn xo imm 2 true s

/-- R92: 2 bytes, zero extension. -/
def execLdhu (tk : Tk) (xd : XReg) (cn : CReg) (xo : XReg) (imm : BitVec 6) (s : State) : Out :=
  loadSM tk xd cn xo imm 2 false s

/-- R92: 4 bytes, sign extension. -/
def execLdw (tk : Tk) (xd : XReg) (cn : CReg) (xo : XReg) (imm : BitVec 6) (s : State) : Out :=
  loadSM tk xd cn xo imm 4 true s

/-- R92: 4 bytes, zero extension. -/
def execLdwu (tk : Tk) (xd : XReg) (cn : CReg) (xo : XReg) (imm : BitVec 6) (s : State) : Out :=
  loadSM tk xd cn xo imm 4 false s

/-- R92: 8 bytes. -/
def execLdd (tk : Tk) (xd : XReg) (cn : CReg) (xo : XReg) (imm : BitVec 6) (s : State) : Out :=
  loadSM tk xd cn xo imm 8 false s

/-- R92: 1 byte. -/
def execStb (tk : Tk) (xs : XReg) (cn : CReg) (xo : XReg) (imm : BitVec 6) (s : State) : Out :=
  storeSM tk xs cn xo imm 1 s

/-- R92: 2 bytes. -/
def execSth (tk : Tk) (xs : XReg) (cn : CReg) (xo : XReg) (imm : BitVec 6) (s : State) : Out :=
  storeSM tk xs cn xo imm 2 s

/-- R92: 4 bytes. -/
def execStw (tk : Tk) (xs : XReg) (cn : CReg) (xo : XReg) (imm : BitVec 6) (s : State) : Out :=
  storeSM tk xs cn xo imm 4 s

/-- R92: 8 bytes. -/
def execStd (tk : Tk) (xs : XReg) (cn : CReg) (xo : XReg) (imm : BitVec 6) (s : State) : Out :=
  storeSM tk xs cn xo imm 8 s

/-- R83. -/
def execSpld (tk : Tk) (xd xa : XReg) (sz : BitVec 2) (sgn : Bool) (imm : BitVec 7) (s : State) : Out :=
  loadSP tk xd xa sz sgn imm s

/-- R83. -/
def execSpst (tk : Tk) (xs xa : XReg) (sz : BitVec 2) (imm : BitVec 7) (s : State) : Out :=
  storeSP tk xs xa sz imm s

/-- R94. -/
def execRspld (tk : Tk) (xd xa : XReg) (sz : BitVec 2) (sgn : Bool) (imm : BitVec 7) (s : State) : Out :=
  loadCW tk xd xa sz sgn imm s

/-- R94. -/
def execRspst (tk : Tk) (xs xa : XReg) (sz : BitVec 2) (imm : BitVec 7) (s : State) : Out :=
  storeCW tk xs xa sz imm s

/-! ## Atomics (R95, R96) -/

/-- R96. -/
def execAmoadd (tk : Tk) (xd : XReg) (cn : CReg) (xa xb : XReg) (w : Bool) (s : State) : Out :=
  amoMem .add tk xd cn xa xb w s

/-- R96. -/
def execAmomin (tk : Tk) (xd : XReg) (cn : CReg) (xa xb : XReg) (w : Bool) (s : State) : Out :=
  amoMem .min tk xd cn xa xb w s

/-- R96. -/
def execAmomax (tk : Tk) (xd : XReg) (cn : CReg) (xa xb : XReg) (w : Bool) (s : State) : Out :=
  amoMem .max tk xd cn xa xb w s

/-- R96. -/
def execAmoand (tk : Tk) (xd : XReg) (cn : CReg) (xa xb : XReg) (w : Bool) (s : State) : Out :=
  amoMem .band tk xd cn xa xb w s

/-- R96. -/
def execAmoor (tk : Tk) (xd : XReg) (cn : CReg) (xa xb : XReg) (w : Bool) (s : State) : Out :=
  amoMem .bor tk xd cn xa xb w s

/-- R96. -/
def execAmoxor (tk : Tk) (xd : XReg) (cn : CReg) (xa xb : XReg) (w : Bool) (s : State) : Out :=
  amoMem .xor tk xd cn xa xb w s

/-- R96. -/
def execAmoswap (tk : Tk) (xd : XReg) (cn : CReg) (xa xb : XReg) (w : Bool) (s : State) : Out :=
  amoMem .swap tk xd cn xa xb w s

/-- R96. -/
def execAmocas (tk : Tk) (xd : XReg) (cn : CReg) (xa xb : XReg) (w : Bool) (s : State) : Out :=
  amoMem .cas tk xd cn xa xb w s

/-- R95. -/
def execSpamoAdd (tk : Tk) (xd xa xb : XReg) (w cw : Bool) (s : State) : Out :=
  amoSP .add tk xd xa xb w cw s

/-- R95. -/
def execSpamoMin (tk : Tk) (xd xa xb : XReg) (w cw : Bool) (s : State) : Out :=
  amoSP .min tk xd xa xb w cw s

/-- R95. -/
def execSpamoMax (tk : Tk) (xd xa xb : XReg) (w cw : Bool) (s : State) : Out :=
  amoSP .max tk xd xa xb w cw s

/-- R95. -/
def execSpamoAnd (tk : Tk) (xd xa xb : XReg) (w cw : Bool) (s : State) : Out :=
  amoSP .band tk xd xa xb w cw s

/-- R95. -/
def execSpamoOr (tk : Tk) (xd xa xb : XReg) (w cw : Bool) (s : State) : Out :=
  amoSP .bor tk xd xa xb w cw s

/-- R95. -/
def execSpamoXor (tk : Tk) (xd xa xb : XReg) (w cw : Bool) (s : State) : Out :=
  amoSP .xor tk xd xa xb w cw s

/-- R95. -/
def execSpamoSwap (tk : Tk) (xd xa xb : XReg) (w cw : Bool) (s : State) : Out :=
  amoSP .swap tk xd xa xb w cw s

/-- R95. -/
def execSpamoCas (tk : Tk) (xd xa xb : XReg) (w cw : Bool) (s : State) : Out :=
  amoSP .cas tk xd xa xb w cw s

/-! ## Control transfers (R97, R98) -/

/-- A branch, taken on a condition of xa and xb (R97); a branch not taken checks no target (R50). -/
def branch (c : DWord → DWord → Bool) (tk : Tk) (xa xb : XReg) (off : BitVec 10) (s : State) : Out :=
  issue .S tk (fun s _ st =>
    orTrap s (readX2 st .S xa xb) fun (a, b) =>
    if c a b then orTrap s (checkRel s st .S off) fun t => .jump s t else .fin s) s

/-- R97: equal. -/
def execBeq (tk : Tk) (xa xb : XReg) (off : BitVec 10) (s : State) : Out :=
  branch (fun a b => a == b) tk xa xb off s

/-- R97: not equal. -/
def execBne (tk : Tk) (xa xb : XReg) (off : BitVec 10) (s : State) : Out :=
  branch (fun a b => a != b) tk xa xb off s

/-- R97: less, signed. -/
def execBlt (tk : Tk) (xa xb : XReg) (off : BitVec 10) (s : State) : Out :=
  branch (fun a b => decide (a.toInt < b.toInt)) tk xa xb off s

/-- R97: not less, signed. -/
def execBge (tk : Tk) (xa xb : XReg) (off : BitVec 10) (s : State) : Out :=
  branch (fun a b => decide (b.toInt ≤ a.toInt)) tk xa xb off s

/-- R97: less, unsigned. -/
def execBltu (tk : Tk) (xa xb : XReg) (off : BitVec 10) (s : State) : Out :=
  branch (fun a b => decide (a.toNat < b.toNat)) tk xa xb off s

/-- R97: not less, unsigned. -/
def execBgeu (tk : Tk) (xa xb : XReg) (off : BitVec 10) (s : State) : Out :=
  branch (fun a b => decide (b.toNat ≤ a.toNat)) tk xa xb off s

/-- The return address of a call: the word after it (R98). -/
def linkAddr (s : State) : DWord := (s.grp.addr + 4#32).setWidth 64

/-- R98. -/
def execJmp (tk : Tk) (off : BitVec 20) (s : State) : Out :=
  issue .S tk (fun s _ st => orTrap s (checkRel s st .S off) fun t => .jump s t) s

/-- R98: x31 := the address after the call. -/
def execCall (tk : Tk) (off : BitVec 20) (s : State) : Out :=
  issue .S tk (fun s core st =>
    orTrap s (checkRel s st .S off) fun t => .jump (setStrand s core (writeX st .S 31#5 (linkAddr s))) t) s

/-- R98. -/
def execJr (tk : Tk) (xa : XReg) (s : State) : Out :=
  issue .S tk (fun s _ st =>
    orTrap s (do
      let a ← readX st .S xa
      checkTarget s st .S a.toNat) fun t => .jump s t) s

/-- R98: xa is read before x31 is written. -/
def execCallr (tk : Tk) (xa : XReg) (s : State) : Out :=
  issue .S tk (fun s core st =>
    orTrap s (do
      let a ← readX st .S xa
      checkTarget s st .S a.toNat) fun t => .jump (setStrand s core (writeX st .S 31#5 (linkAddr s))) t) s

/-! ## Tokens (R99) -/

/-- R99: tk_pop of a set the scalar stream consumes. -/
def execTkpop (qmask : BitVec 16) (s : State) : Out :=
  match actor s .S with
  | none => .fault .noStrand
  | some (core, st) =>
    match popStep s core .S st (0#16 ++ qmask) with
    | .error s1 => .next s1
    | .ok (s1, _) => .next (closeEff core .S 0#32 (.fin s1))

/-- R99: tk_push of a set the scalar stream produces. -/
def execTkpush (qmask : BitVec 16) (s : State) : Out :=
  match actor s .S with
  | none => .fault .noStrand
  | some (core, _) => .next (closeEff core .S (qmask ++ 0#16) (.fin s))

/-- R99: waits in Token wait until the queue holds n tokens; moves none. -/
def execTkwait (q n : BitVec 4) (s : State) : Out :=
  match actor s .S with
  | none => .fault .noStrand
  | some (core, st) =>
    if n.toNat ≤ tkCount st q.toNat then .next (closeEff core .S 0#32 (.fin s))
    else .next (setStrand s core (tokenWait st .S (1#16 <<< q.toNat) n s.grp.words))

end Sys2Proof.Machine
end

