-- ==== Sys2Proof/Machine/Tile.lean ====
section
/-! DEFINITION. The tile instructions (R80 to R82, R142, R143). -/
namespace Sys2Proof.Machine
open Sys2Proof

/-- A tile's shape: rows, columns, tag (Table 3.8). -/
structure Shape where
  rows : Nat
  cols : Nat
  tag : Nat
deriving DecidableEq, Repr

/-- TSHAPE of a tile, as bits. -/
def tshapeOf (st : Strand) (t : Nat) : BitVec 17 := mapGet 0#17 st.sys.tshape t

/-- The shape of a configured tile, or TILE_UNCONFIGURED. -/
def shapeOf (st : Strand) (t : TReg) : Chk Shape :=
  let w := tshapeOf st t.toNat
  if w.getLsbD 16 then .ok { rows := fieldOf w 0 6 + 1, cols := fieldOf w 6 6 + 1, tag := fieldOf w 12 4 }
  else trapOf .tileUnconfigured

/-- A tile becomes void, with a TSHAPE. -/
def resetTile (st : Strand) (t : Nat) (shape : BitVec 17) : Strand :=
  { st with
    sys := { st.sys with tshape := mapSet 0#17 st.sys.tshape t shape }
    r := { st.r with t := mapErase st.r.t t } }

/-- R80: held tiles of other contexts are written out first. -/
def execTcfg (tk : Tk) (t : TReg) (rows cols : BitVec 6) (tag : BitVec 4) (s : State) : Out :=
  issue .V tk (fun s core _ =>
    let s1 := flushTiles s core
    .fin (modStrand s1 core fun st => resetTile st t.toNat (1#1 ++ tag ++ cols ++ rows))) s

/-- R143. -/
def execTzero (tk : Tk) (t : TReg) (s : State) : Out :=
  issue .V tk (fun s core _ =>
    let s1 := flushTiles s core
    .fin (modStrand s1 core fun st => resetTile st t.toNat 0#17)) s

/-- tag_read of a tile. -/
def readTile (st : Strand) (t : TReg) : Chk TBits :=
  let v := mapGet {} st.r.t t.toNat
  tagRead st.gtrap st.cgen v.gen v.val 0#8192

/-- tag_write of elements of `w` bits of a tile, by their numbers: zero elsewhere where the tile is not current. -/
def writeTile (st : Strand) (t : TReg) (tag w : Nat) (l : List (Nat × Nat)) : Strand :=
  let old := mapGet {} st.r.t t.toNat
  let base := if old.gen = st.cgen then old.val else 0#8192
  let v := l.foldl (fun (b : TBits) p => setBits b (p.1 * w) w (BitVec.ofNat w p.2)) base
  { st with
    r := { st.r with
      t := mapSet {} st.r.t t.toNat { gen := st.cgen, fmt := BitVec.ofNat 4 tag, val := v, dirty := true } } }

/-- Element numbers of slice `idx`: a row's or a column's. -/
def sliceElems (isRow : Bool) (sh : Shape) (idx : Nat) : List Nat :=
  if isRow then (List.range sh.cols).map fun j => idx * sh.cols + j
  else (List.range sh.rows).map fun i => i * sh.cols + idx

/-- The limit of a slice index. -/
def sliceLim (isRow : Bool) (sh : Shape) : Nat := if isRow then sh.rows else sh.cols

/-- The .w slice moves (R81). -/
def sliceIn (isRow : Bool) (tk : Tk) (v : VReg) (t : TReg) (idx : BitVec 6) (s : State) : Out :=
  issue .V tk (fun s core st =>
    orTrap s (do
      let sh ← shapeOf st t
      let x ← readV st v
      if x.fmt.toNat ≠ sh.tag ∧ x.fmt ≠ 15#4 then trapOf .formatMismatch else .ok (sh, x)) fun (sh, x) =>
    if sliceLim isRow sh ≤ idx.toNat then .fin s
    else
      let w := tagW sh.tag
      let e := sliceElems isRow sh idx.toNat
      .fin (setStrand s core (writeTile st t sh.tag w (e.zip (vElems w x.val))))) s

/-- The .r slice moves (R81): a whole write that enters the bypass. -/
def sliceOut (isRow : Bool) (tk : Tk) (v : VReg) (t : TReg) (idx : BitVec 6) (s : State) : Out :=
  issue .V tk (fun s core st =>
    orTrap s (do
      let sh ← shapeOf st t
      let x ← readTile st t
      .ok (sh, x)) fun (sh, x) =>
    let w := tagW sh.tag
    let l := if sliceLim isRow sh ≤ idx.toNat then []
      else (sliceElems isRow sh idx.toNat).map fun i => x.toNat >>> (i * w) % 2 ^ w
    .fin (setStrand s core (putWhole s st v sh.tag w none (vPack w l)))) s

/-- R81. -/
def execTrowW (tk : Tk) (v : VReg) (t : TReg) (idx : BitVec 6) (s : State) : Out := sliceIn true tk v t idx s
/-- R81. -/
def execTrowR (tk : Tk) (v : VReg) (t : TReg) (idx : BitVec 6) (s : State) : Out := sliceOut true tk v t idx s
/-- R81. -/
def execTcolW (tk : Tk) (v : VReg) (t : TReg) (idx : BitVec 6) (s : State) : Out := sliceIn false tk v t idx s
/-- R81. -/
def execTcolR (tk : Tk) (v : VReg) (t : TReg) (idx : BitVec 6) (s : State) : Out := sliceOut false tk v t idx s

/-! ## tld and tst (R142) -/

/-- The byte address of each row: base + i × xs. -/
def rowOffs (sh : Shape) (xo xs : DWord) (imm : BitVec 16) : List DWord :=
  (List.range sh.rows).map fun i => xo + i64 imm.toInt + d64 i * xs

/-- The bytes of a row. -/
def rowBytes (sh : Shape) : Nat := elemBytes sh.cols (tagW sh.tag)

/-- The alignment checks of R142 on the rows' addresses. -/
def rowsAligned (sh : Shape) (l : List Nat) : Chk Unit :=
  if (tagW sh.tag = 4 ∧ sh.cols % 2 ≠ 0) ∨ (l.any fun a => a % max 1 (tagW sh.tag / 8) != 0) = true
  then trapOf .dataMisaligned else .ok ()

/-- The rows of a tile access through a capability: their places in the object, checked. -/
def tileRows (st : Strand) (cn : CReg) (sh : Shape) (offs : List DWord) (rt : Right) : Chk (CapBits × List Nat) := do
  let c ← readC st cn
  let l ← offs.mapM fun o => capWindow c cn.toNat o.toInt (rowBytes sh) rt
  rowsAligned sh l
  .ok (c, l)

/-- The rows of a tile access in scratchpad, checked. -/
def tileRowsSP (sh : Shape) (offs : List DWord) : Chk (List Nat) := do
  let l := offs.map BitVec.toNat
  rowsAligned sh l
  if l.any fun a => decide (262144 < a + rowBytes sh) then trapOf .scratchBound else .ok l

/-- The pieces of rows, each tagged with its row. -/
def rowPieces (n : Nat) (l : List Nat) : List Piece :=
  ((List.range l.length).zip l).flatMap fun p => pieces 18 p.1 p.2 n

/-- The operands of a tile access: its shape and its rows' offsets. -/
def tileOps (st : Strand) (t : TReg) (xo xs : XReg) (imm : BitVec 16) : Chk (Shape × List DWord) := do
  let sh ← shapeOf st t
  let o ← readX st .V xo
  let d ← readX st .V xs
  .ok (sh, rowOffs sh o d imm)

/-- The configured elements of a tile from its rows' bytes, as one partial write (R142). -/
def loadTile (st : Strand) (t : TReg) (sh : Shape) (b : List Byte) : Strand :=
  let w := tagW sh.tag
  let n := sh.rows * sh.cols
  writeTile st t sh.tag w ((List.range n).zip (unpack w n b))

/-- R142. -/
def execTld (tk : Tk) (t : TReg) (cn : CReg) (xo xs : XReg) (sp : Bool) (imm : BitVec 16) (s : State) : Out :=
  issue .V tk (fun s core st =>
    orTrap s (tileOps st t xo xs imm) fun (sh, offs) =>
    if sp then
      orTrap s (do
        let l ← tileRowsSP sh offs
        if l.all fun a => spReadable s core st.cgen st.gtrap a (rowBytes sh) then .ok l else trapOf .staleRead)
        fun l =>
      .fin (setStrand s core (loadTile st t sh (l.flatMap fun a => spFill s core st.cgen (staleByte sh.tag) a (rowBytes sh))))
    else
      orTrap s (tileRows st cn sh offs .r) fun (c, l) =>
      withPieces s core .V st c (rowPieces (rowBytes sh) l) fun b s1 =>
        .fin (modStrand s1 core fun st => loadTile st t sh b.flatten)) s

/-- The bytes of row `i` of a tile. -/
def tileRow (sh : Shape) (x : TBits) (i : Nat) : List Byte :=
  let n := rowBytes sh
  (List.range n).map fun k => elem 8 x (i * n + k)

/-- R142. -/
def execTst (tk : Tk) (t : TReg) (cn : CReg) (xo xs : XReg) (sp : Bool) (imm : BitVec 16) (s : State) : Out :=
  issue .V tk (fun s core st =>
    orTrap s (do
      let (sh, offs) ← tileOps st t xo xs imm
      let x ← readTile st t
      .ok (sh, offs, x)) fun (sh, offs, x) =>
    if sp then
      orTrap s (tileRowsSP sh offs) fun l =>
      .fin (((List.range l.length).zip l).foldl
        (fun s p => spWriteN 18 s core st.cgen p.2 (tileRow sh x p.1)) s)
    else
      orTrap s (tileRows st cn sh offs .w) fun (c, l) =>
      storePieces s core .V false st c (((List.range l.length).zip l).flatMap fun p =>
        (pieces 18 p.1 p.2 (rowBytes sh)).map fun q =>
          (q, ((tileRow sh x p.1).drop (q.off - p.2)).take q.size))) s

end Sys2Proof.Machine
end

