-- ==== Sys2Proof/Machine/Dispatch.lean ====
section
/-! DEFINITION. The meaning of each constructor of Instr: one arm each, one direct call each. -/
namespace Sys2Proof.Machine

/-- The effect of one instruction or step on the machine. -/
def exec (i : Instr) (s : State) : Host.Outcome State Fault Refusal :=
  match i with
  | .arith rm sat ftz t pred pneg pen fmt => Sys2Proof.Machine.execArith rm sat ftz t pred pneg pen fmt s
  | .label lbl => Sys2Proof.Machine.execLabel lbl s
  | .immx upper => Sys2Proof.Machine.execImmx upper s
  | .snop tk => Sys2Proof.Machine.execSnop tk s
  | .add tk xd xa xb => Sys2Proof.Machine.execAdd tk xd xa xb s
  | .sub tk xd xa xb => Sys2Proof.Machine.execSub tk xd xa xb s
  | .andR tk xd xa xb => Sys2Proof.Machine.execAndR tk xd xa xb s
  | .orR tk xd xa xb => Sys2Proof.Machine.execOrR tk xd xa xb s
  | .xorR tk xd xa xb => Sys2Proof.Machine.execXorR tk xd xa xb s
  | .sll tk xd xa xb => Sys2Proof.Machine.execSll tk xd xa xb s
  | .srl tk xd xa xb => Sys2Proof.Machine.execSrl tk xd xa xb s
  | .sra tk xd xa xb => Sys2Proof.Machine.execSra tk xd xa xb s
  | .slt tk xd xa xb => Sys2Proof.Machine.execSlt tk xd xa xb s
  | .sltu tk xd xa xb => Sys2Proof.Machine.execSltu tk xd xa xb s
  | .minR tk xd xa xb => Sys2Proof.Machine.execMinR tk xd xa xb s
  | .maxR tk xd xa xb => Sys2Proof.Machine.execMaxR tk xd xa xb s
  | .minu tk xd xa xb => Sys2Proof.Machine.execMinu tk xd xa xb s
  | .maxu tk xd xa xb => Sys2Proof.Machine.execMaxu tk xd xa xb s
  | .mul tk xd xa xb => Sys2Proof.Machine.execMul tk xd xa xb s
  | .mulh tk xd xa xb => Sys2Proof.Machine.execMulh tk xd xa xb s
  | .mulhu tk xd xa xb => Sys2Proof.Machine.execMulhu tk xd xa xb s
  | .mulhsu tk xd xa xb => Sys2Proof.Machine.execMulhsu tk xd xa xb s
  | .div tk xd xa xb => Sys2Proof.Machine.execDiv tk xd xa xb s
  | .divu tk xd xa xb => Sys2Proof.Machine.execDivu tk xd xa xb s
  | .rem tk xd xa xb => Sys2Proof.Machine.execRem tk xd xa xb s
  | .remu tk xd xa xb => Sys2Proof.Machine.execRemu tk xd xa xb s
  | .addi tk xd xa imm => Sys2Proof.Machine.execAddi tk xd xa imm s
  | .andi tk xd xa imm => Sys2Proof.Machine.execAndi tk xd xa imm s
  | .ori tk xd xa imm => Sys2Proof.Machine.execOri tk xd xa imm s
  | .xori tk xd xa imm => Sys2Proof.Machine.execXori tk xd xa imm s
  | .slli tk xd xa n => Sys2Proof.Machine.execSlli tk xd xa n s
  | .srli tk xd xa n => Sys2Proof.Machine.execSrli tk xd xa n s
  | .srai tk xd xa n => Sys2Proof.Machine.execSrai tk xd xa n s
  | .slti tk xd xa imm => Sys2Proof.Machine.execSlti tk xd xa imm s
  | .sltiu tk xd xa imm => Sys2Proof.Machine.execSltiu tk xd xa imm s
  | .lui tk xd imm => Sys2Proof.Machine.execLui tk xd imm s
  | .cinspBase tk xd ca => Sys2Proof.Machine.execCinspBase tk xd ca s
  | .cinspLen tk xd ca => Sys2Proof.Machine.execCinspLen tk xd ca s
  | .cinspRights tk xd ca => Sys2Proof.Machine.execCinspRights tk xd ca s
  | .cinspObj tk xd ca => Sys2Proof.Machine.execCinspObj tk xd ca s
  | .cinspGen tk xd ca => Sys2Proof.Machine.execCinspGen tk xd ca s
  | .pgcommit tk xd cn xo => Sys2Proof.Machine.execPgcommit tk xd cn xo s
  | .pgfree tk xd cn xo => Sys2Proof.Machine.execPgfree tk xd cn xo s
  | .pgquery tk xd cn xo => Sys2Proof.Machine.execPgquery tk xd cn xo s
  | .cwin tk cd ca xa xb => Sys2Proof.Machine.execCwin tk cd ca xa xb s
  | .crt tk cd ca xa => Sys2Proof.Machine.execCrt tk cd ca xa s
  | .cmov tk cd ca => Sys2Proof.Machine.execCmov tk cd ca s
  | .ldb tk xd cn xo imm => Sys2Proof.Machine.execLdb tk xd cn xo imm s
  | .ldbu tk xd cn xo imm => Sys2Proof.Machine.execLdbu tk xd cn xo imm s
  | .ldh tk xd cn xo imm => Sys2Proof.Machine.execLdh tk xd cn xo imm s
  | .ldhu tk xd cn xo imm => Sys2Proof.Machine.execLdhu tk xd cn xo imm s
  | .ldw tk xd cn xo imm => Sys2Proof.Machine.execLdw tk xd cn xo imm s
  | .ldwu tk xd cn xo imm => Sys2Proof.Machine.execLdwu tk xd cn xo imm s
  | .ldd tk xd cn xo imm => Sys2Proof.Machine.execLdd tk xd cn xo imm s
  | .stb tk xs cn xo imm => Sys2Proof.Machine.execStb tk xs cn xo imm s
  | .sth tk xs cn xo imm => Sys2Proof.Machine.execSth tk xs cn xo imm s
  | .stw tk xs cn xo imm => Sys2Proof.Machine.execStw tk xs cn xo imm s
  | .std tk xs cn xo imm => Sys2Proof.Machine.execStd tk xs cn xo imm s
  | .spld tk xd xa sz sgn imm => Sys2Proof.Machine.execSpld tk xd xa sz sgn imm s
  | .spst tk xs xa sz imm => Sys2Proof.Machine.execSpst tk xs xa sz imm s
  | .rspld tk xd xa sz sgn imm => Sys2Proof.Machine.execRspld tk xd xa sz sgn imm s
  | .rspst tk xs xa sz imm => Sys2Proof.Machine.execRspst tk xs xa sz imm s
  | .amoadd tk xd cn xa xb w => Sys2Proof.Machine.execAmoadd tk xd cn xa xb w s
  | .amomin tk xd cn xa xb w => Sys2Proof.Machine.execAmomin tk xd cn xa xb w s
  | .amomax tk xd cn xa xb w => Sys2Proof.Machine.execAmomax tk xd cn xa xb w s
  | .amoand tk xd cn xa xb w => Sys2Proof.Machine.execAmoand tk xd cn xa xb w s
  | .amoor tk xd cn xa xb w => Sys2Proof.Machine.execAmoor tk xd cn xa xb w s
  | .amoxor tk xd cn xa xb w => Sys2Proof.Machine.execAmoxor tk xd cn xa xb w s
  | .amoswap tk xd cn xa xb w => Sys2Proof.Machine.execAmoswap tk xd cn xa xb w s
  | .amocas tk xd cn xa xb w => Sys2Proof.Machine.execAmocas tk xd cn xa xb w s
  | .spamoAdd tk xd xa xb w cw => Sys2Proof.Machine.execSpamoAdd tk xd xa xb w cw s
  | .spamoMin tk xd xa xb w cw => Sys2Proof.Machine.execSpamoMin tk xd xa xb w cw s
  | .spamoMax tk xd xa xb w cw => Sys2Proof.Machine.execSpamoMax tk xd xa xb w cw s
  | .spamoAnd tk xd xa xb w cw => Sys2Proof.Machine.execSpamoAnd tk xd xa xb w cw s
  | .spamoOr tk xd xa xb w cw => Sys2Proof.Machine.execSpamoOr tk xd xa xb w cw s
  | .spamoXor tk xd xa xb w cw => Sys2Proof.Machine.execSpamoXor tk xd xa xb w cw s
  | .spamoSwap tk xd xa xb w cw => Sys2Proof.Machine.execSpamoSwap tk xd xa xb w cw s
  | .spamoCas tk xd xa xb w cw => Sys2Proof.Machine.execSpamoCas tk xd xa xb w cw s
  | .beq tk xa xb off => Sys2Proof.Machine.execBeq tk xa xb off s
  | .bne tk xa xb off => Sys2Proof.Machine.execBne tk xa xb off s
  | .blt tk xa xb off => Sys2Proof.Machine.execBlt tk xa xb off s
  | .bge tk xa xb off => Sys2Proof.Machine.execBge tk xa xb off s
  | .bltu tk xa xb off => Sys2Proof.Machine.execBltu tk xa xb off s
  | .bgeu tk xa xb off => Sys2Proof.Machine.execBgeu tk xa xb off s
  | .jmp tk off => Sys2Proof.Machine.execJmp tk off s
  | .call tk off => Sys2Proof.Machine.execCall tk off s
  | .jr tk xa => Sys2Proof.Machine.execJr tk xa s
  | .callr tk xa => Sys2Proof.Machine.execCallr tk xa s
  | .tkpop qmask => Sys2Proof.Machine.execTkpop qmask s
  | .tkpush qmask => Sys2Proof.Machine.execTkpush qmask s
  | .tkwait q n => Sys2Proof.Machine.execTkwait q n s
  | .semsig tk xd xa xb => Sys2Proof.Machine.execSemsig tk xd xa xb s
  | .semwaitGe tk xd xa xb => Sys2Proof.Machine.execSemwaitGe tk xd xa xb s
  | .semwaitEq tk xd xa xb => Sys2Proof.Machine.execSemwaitEq tk xd xa xb s
  | .semwaitNe tk xd xa xb => Sys2Proof.Machine.execSemwaitNe tk xd xa xb s
  | .semrd tk xd xa => Sys2Proof.Machine.execSemrd tk xd xa s
  | .rbind tk cn xa xb xs => Sys2Proof.Machine.execRbind tk cn xa xb xs s
  | .runbind tk cn xa xb xs => Sys2Proof.Machine.execRunbind tk cn xa xb xs s
  | .acq tk xa scope => Sys2Proof.Machine.execAcq tk xa scope s
  | .rel tk xd xa scope => Sys2Proof.Machine.execRel tk xd xa scope s
  | .fence tk xd scope => Sys2Proof.Machine.execFence tk xd scope s
  | .barrive tk group => Sys2Proof.Machine.execBarrive tk group s
  | .bwait tk group => Sys2Proof.Machine.execBwait tk group s
  | .cbar tk => Sys2Proof.Machine.execCbar tk s
  | .srr tk xd srn => Sys2Proof.Machine.execSrr tk xd srn s
  | .srw tk xs srn => Sys2Proof.Machine.execSrw tk xs srn s
  | .safept tk lm => Sys2Proof.Machine.execSafept tk lm s
  | .sEnd tk => Sys2Proof.Machine.execSEnd tk s
  | .brk tk code => Sys2Proof.Machine.execBrk tk code s
  | .trapu tk code => Sys2Proof.Machine.execTrapu tk code s
  | .uiret tk => Sys2Proof.Machine.execUiret tk s
  | .vnop tk => Sys2Proof.Machine.execVnop tk s
  | .vadd tk vd va vb bsel => Sys2Proof.Machine.execVadd tk vd va vb bsel s
  | .vsub tk vd va vb bsel => Sys2Proof.Machine.execVsub tk vd va vb bsel s
  | .vmul tk vd va vb bsel => Sys2Proof.Machine.execVmul tk vd va vb bsel s
  | .vfma tk vd va vb bsel vc => Sys2Proof.Machine.execVfma tk vd va vb bsel vc s
  | .vmin tk vd va vb bsel => Sys2Proof.Machine.execVmin tk vd va vb bsel s
  | .vmax tk vd va vb bsel => Sys2Proof.Machine.execVmax tk vd va vb bsel s
  | .vabs tk vd va byp => Sys2Proof.Machine.execVabs tk vd va byp s
  | .vneg tk vd va byp => Sys2Proof.Machine.execVneg tk vd va byp s
  | .vand tk vd va vb bsel => Sys2Proof.Machine.execVand tk vd va vb bsel s
  | .vor tk vd va vb bsel => Sys2Proof.Machine.execVor tk vd va vb bsel s
  | .vxor tk vd va vb bsel => Sys2Proof.Machine.execVxor tk vd va vb bsel s
  | .vshiftL tk vd va vb => Sys2Proof.Machine.execVshiftL tk vd va vb s
  | .vshiftR tk vd va vb => Sys2Proof.Machine.execVshiftR tk vd va vb s
  | .vshiftA tk vd va vb => Sys2Proof.Machine.execVshiftA tk vd va vb s
  | .vsel tk vd va vb p => Sys2Proof.Machine.execVsel tk vd va vb p s
  | .vwmul tk vd va vb => Sys2Proof.Machine.execVwmul tk vd va vb s
  | .vwadd tk vd va vb => Sys2Proof.Machine.execVwadd tk vd va vb s
  | .vmov tk vd va byp => Sys2Proof.Machine.execVmov tk vd va byp s
  | .vcmpEq tk pd va vb => Sys2Proof.Machine.execVcmpEq tk pd va vb s
  | .vcmpLt tk pd va vb => Sys2Proof.Machine.execVcmpLt tk pd va vb s
  | .vcmpLe tk pd va vb => Sys2Proof.Machine.execVcmpLe tk pd va vb s
  | .vcmpNe tk pd va vb => Sys2Proof.Machine.execVcmpNe tk pd va vb s
  | .pand tk pd pa pb => Sys2Proof.Machine.execPand tk pd pa pb s
  | .por tk pd pa pb => Sys2Proof.Machine.execPor tk pd pa pb s
  | .pxor tk pd pa pb => Sys2Proof.Machine.execPxor tk pd pa pb s
  | .pandn tk pd pa pb => Sys2Proof.Machine.execPandn tk pd pa pb s
  | .pnot tk pd pa => Sys2Proof.Machine.execPnot tk pd pa s
  | .pmov tk pd pa => Sys2Proof.Machine.execPmov tk pd pa s
  | .pwhile tk pd xa lsz => Sys2Proof.Machine.execPwhile tk pd xa lsz s
  | .pcnt tk pa xd lsz => Sys2Proof.Machine.execPcnt tk pa xd lsz s
  | .vexp2 tk vd va byp => Sys2Proof.Machine.execVexp2 tk vd va byp s
  | .vlog2 tk vd va byp => Sys2Proof.Machine.execVlog2 tk vd va byp s
  | .vrecip tk vd va byp => Sys2Proof.Machine.execVrecip tk vd va byp s
  | .vrsqrt tk vd va byp => Sys2Proof.Machine.execVrsqrt tk vd va byp s
  | .vcvt tk vd va tgt => Sys2Proof.Machine.execVcvt tk vd va tgt s
  | .vcvtAmax tk vd va tgt n => Sys2Proof.Machine.execVcvtAmax tk vd va tgt n s
  | .vcast tk vd va tgt => Sys2Proof.Machine.execVcast tk vd va tgt s
  | .vsplat tk vd xa tag => Sys2Proof.Machine.execVsplat tk vd xa tag s
  | .vext tk va xd xb => Sys2Proof.Machine.execVext tk va xd xb s
  | .vins tk vd xa xb tag => Sys2Proof.Machine.execVins tk vd xa xb tag s
  | .viota tk vd xa xb tag => Sys2Proof.Machine.execViota tk vd xa xb tag s
  | .vredSum tk vd va byp => Sys2Proof.Machine.execVredSum tk vd va byp s
  | .vredMax tk vd va byp => Sys2Proof.Machine.execVredMax tk vd va byp s
  | .vredMin tk vd va byp => Sys2Proof.Machine.execVredMin tk vd va byp s
  | .vredAmax tk vd va byp => Sys2Proof.Machine.execVredAmax tk vd va byp s
  | .vscanSum tk vd va byp => Sys2Proof.Machine.execVscanSum tk vd va byp s
  | .vscanMax tk vd va byp => Sys2Proof.Machine.execVscanMax tk vd va byp s
  | .vperm tk vd va vb => Sys2Proof.Machine.execVperm tk vd va vb s
  | .vslideUp tk vd va vb => Sys2Proof.Machine.execVslideUp tk vd va vb s
  | .vslideDn tk vd va vb => Sys2Proof.Machine.execVslideDn tk vd va vb s
  | .vzip tk vd va vb => Sys2Proof.Machine.execVzip tk vd va vb s
  | .vunzip tk vd va vb => Sys2Proof.Machine.execVunzip tk vd va vb s
  | .vrev tk vd va byp => Sys2Proof.Machine.execVrev tk vd va byp s
  | .vchain tk xa xb => Sys2Proof.Machine.execVchain tk xa xb s
  | .vld tk vd cn xo esz imm tag => Sys2Proof.Machine.execVld tk vd cn xo esz imm tag s
  | .vldS tk vd cn xo esz imm tag xs => Sys2Proof.Machine.execVldS tk vd cn xo esz imm tag xs s
  | .vldX tk vd cn xo esz imm tag vi => Sys2Proof.Machine.execVldX tk vd cn xo esz imm tag vi s
  | .vst tk vs cn xo esz imm => Sys2Proof.Machine.execVst tk vs cn xo esz imm s
  | .vstS tk vs cn xo esz imm xs => Sys2Proof.Machine.execVstS tk vs cn xo esz imm xs s
  | .vstX tk vs cn xo esz imm vi => Sys2Proof.Machine.execVstX tk vs cn xo esz imm vi s
  | .vspld tk vd xa tag imm => Sys2Proof.Machine.execVspld tk vd xa tag imm s
  | .vspst tk vs xa imm => Sys2Proof.Machine.execVspst tk vs xa imm s
  | .tld tk t cn xo xs sp imm => Sys2Proof.Machine.execTld tk t cn xo xs sp imm s
  | .tst tk t cn xo xs sp imm => Sys2Proof.Machine.execTst tk t cn xo xs sp imm s
  | .tcfg tk t rows cols tag => Sys2Proof.Machine.execTcfg tk t rows cols tag s
  | .tzero tk t => Sys2Proof.Machine.execTzero tk t s
  | .trowW tk v t idx => Sys2Proof.Machine.execTrowW tk v t idx s
  | .trowR tk v t idx => Sys2Proof.Machine.execTrowR tk v t idx s
  | .tcolW tk v t idx => Sys2Proof.Machine.execTcolW tk v t idx s
  | .tcolR tk v t idx => Sys2Proof.Machine.execTcolR tk v t idx s
  | .vbrAny tk p off => Sys2Proof.Machine.execVbrAny tk p off s
  | .vbrAll tk p off => Sys2Proof.Machine.execVbrAll tk p off s
  | .vbrNone tk p off => Sys2Proof.Machine.execVbrNone tk p off s
  | .vjmp tk off => Sys2Proof.Machine.execVjmp tk off s
  | .vloop tk off => Sys2Proof.Machine.execVloop tk off s
  | .vend tk => Sys2Proof.Machine.execVend tk s
  | .mnop tk => Sys2Proof.Machine.execMnop tk s
  | .mlease tk n => Sys2Proof.Machine.execMlease tk n s
  | .munlease tk => Sys2Proof.Machine.execMunlease tk s
  | .mwload tk cn xa pl => Sys2Proof.Machine.execMwload tk cn xa pl s
  | .mwloadm tk fmt xa pl => Sys2Proof.Machine.execMwloadm tk fmt xa pl s
  | .mpswap tk => Sys2Proof.Machine.execMpswap tk s
  | .mregion tk rg xa xb trapPol slog spill => Sys2Proof.Machine.execMregion tk rg xa xb trapPol slog spill s
  | .mstream tk rg xa map atag rows pl wtag => Sys2Proof.Machine.execMstream tk rg xa map atag rows pl wtag s
  | .mbind tk rg xa xb => Sys2Proof.Machine.execMbind tk rg xa xb s
  | .mrelease tk rg => Sys2Proof.Machine.execMrelease tk rg s
  | .mreleaseOne tk rg xa => Sys2Proof.Machine.execMreleaseOne tk rg xa s
  | .mdrain tk rg xa xb => Sys2Proof.Machine.execMdrain tk rg xa xb s
  | .mdrainFree tk rg xa xb => Sys2Proof.Machine.execMdrainFree tk rg xa xb s
  | .mswap tk rg xa => Sys2Proof.Machine.execMswap tk rg xa s
  | .mevrd tk xd rg kind entry => Sys2Proof.Machine.execMevrd tk xd rg kind entry s
  | .mevclr tk rg kind entry => Sys2Proof.Machine.execMevclr tk rg kind entry s
  | .mrank tk xa xb xc tag t e k ovx => Sys2Proof.Machine.execMrank tk xa xb xc tag t e k ovx s
  | .mtopkLo tk rg xa xb xc => Sys2Proof.Machine.execMtopkLo tk rg xa xb xc s
  | .mtopkHi tk rg xa xb xc => Sys2Proof.Machine.execMtopkHi tk rg xa xb xc s
  | .mdist tk rg xa xb pl => Sys2Proof.Machine.execMdist tk rg xa xb pl s
  | .mcntRd tk xd sel => Sys2Proof.Machine.execMcntRd tk xd sel s
  | .mcntClr tk sel => Sys2Proof.Machine.execMcntClr tk sel s
  | .mcplx tk rg xa rows pl => Sys2Proof.Machine.execMcplx tk rg xa rows pl s
  | .msave tk cn xa => Sys2Proof.Machine.execMsave tk cn xa s
  | .mrestore tk cn xa => Sys2Proof.Machine.execMrestore tk cn xa s
  | .mloop off => Sys2Proof.Machine.execMloop off s
  | .mend tk => Sys2Proof.Machine.execMend tk s
  | .cnop tk => Sys2Proof.Machine.execCnop tk s
  | .cpy tk cd cs xa xb ui xc => Sys2Proof.Machine.execCpy tk cd cs xa xb ui xc s
  | .cpy2d tk cd cs xa xb ui xc xs rows spd sps => Sys2Proof.Machine.execCpy2d tk cd cs xa xb ui xc xs rows spd sps s
  | .cpyCvt tk cd cs xa xb ui xc dtag stag spd sps => Sys2Proof.Machine.execCpyCvt tk cd cs xa xb ui xc dtag stag spd sps s
  | .cpyin tk cs xa xb ui xc => Sys2Proof.Machine.execCpyin tk cs xa xb ui xc s
  | .cpyout tk cd xa xb ui xc => Sys2Proof.Machine.execCpyout tk cd xa xb ui xc s
  | .cpyaccRd tk xa xb xc ui => Sys2Proof.Machine.execCpyaccRd tk xa xb xc ui s
  | .cpyaccWr tk xa xb xc ui => Sys2Proof.Machine.execCpyaccWr tk xa xb xc ui s
  | .cfill tk xa xb xc ui => Sys2Proof.Machine.execCfill tk xa xb xc ui s
  | .cfillCw tk xa xb xc ui => Sys2Proof.Machine.execCfillCw tk xa xb xc ui s
  | .cgath tk cs xa xb ui xc xs dtag e => Sys2Proof.Machine.execCgath tk cs xa xb ui xc xs dtag e s
  | .cscat tk cd xa xb ui xc xs dtag e => Sys2Proof.Machine.execCscat tk cd xa xb ui xc xs dtag e s
  | .cnullZero tk xa xb ui => Sys2Proof.Machine.execCnullZero tk xa xb ui s
  | .cnullId tk xa xb xc ui => Sys2Proof.Machine.execCnullId tk xa xb xc ui s
  | .cnullConst tk xa xb xc ui => Sys2Proof.Machine.execCnullConst tk xa xb xc ui s
  | .crcp tk xa xb xc nq ui => Sys2Proof.Machine.execCrcp tk xa xb xc nq ui s
  | .carm tk xa xb xc cn => Sys2Proof.Machine.execCarm tk xa xb xc cn s
  | .cdisarm tk xa => Sys2Proof.Machine.execCdisarm tk xa s
  | .cfence tk scope => Sys2Proof.Machine.execCfence tk scope s
  | .cwaitAll tk => Sys2Proof.Machine.execCwaitAll tk s
  | .cwaitLe tk xa => Sys2Proof.Machine.execCwaitLe tk xa s
  | .cloop off => Sys2Proof.Machine.execCloop off s
  | .cend tk => Sys2Proof.Machine.execCend tk s
  | .nop len => Sys2Proof.Machine.execNop len s
  | .launch a => Sys2Proof.Machine.execLaunch a s
  | .launchm a mask => Sys2Proof.Machine.execLaunchm a mask s
  | .copyP src dst len => Sys2Proof.Machine.execCopyP src dst len s
  | .semsigP sem add => Sys2Proof.Machine.execSemsigP sem add s
  | .semwaitP cond sem value => Sys2Proof.Machine.execSemwaitP cond sem value s
  | .qfence qmask id => Sys2Proof.Machine.execQfence qmask id s
  | .jumpP obj gen start => Sys2Proof.Machine.execJumpP obj gen start s
  | .callP obj gen start => Sys2Proof.Machine.execCallP obj gen start s
  | .returnP => Sys2Proof.Machine.execReturnP s
  | .irq vec cookie => Sys2Proof.Machine.execIrq vec cookie s
  | .frameBegin t0 sse ssem => Sys2Proof.Machine.execFrameBegin t0 sse ssem s
  | .frameEnd => Sys2Proof.Machine.execFrameEnd s
  | .releaseAt t => Sys2Proof.Machine.execReleaseAt t s
  | .itin ctx obj gen first => Sys2Proof.Machine.execItin ctx obj gen first s
  | .gather rctx obj gen batchN deadline sem => Sys2Proof.Machine.execGather rctx obj gen batchN deadline sem s
  | .preempt q all hold plim => Sys2Proof.Machine.execPreempt q all hold plim s
  | .setpri q ceil => Sys2Proof.Machine.execSetpri q ceil s
  | .otinv space all obj => Sys2Proof.Machine.execOtinv space all obj s
  | .move a => Sys2Proof.Machine.execMove a s
  | .mcast pmask src grp epoch ackto => Sys2Proof.Machine.execMcast pmask src grp epoch ackto s
  | .hint tier obj gen len off at_ => Sys2Proof.Machine.execHint tier obj gen len off at_ s
  | .waitw wclass n => Sys2Proof.Machine.execWaitw wclass n s
  | .mark sem fen fsem add => Sys2Proof.Machine.execMark sem fen fsem add s
  | .repeatE target lvl sadv dadv count step stride => Sys2Proof.Machine.execRepeatE target lvl sadv dadv count step stride s
  | .gust n tick => Sys2Proof.Machine.execGust n tick s
  | .batch rctx rebase sem sen tref => Sys2Proof.Machine.execBatch rctx rebase sem sen tref s
  | .itinEnd => Sys2Proof.Machine.execItinEnd s
  | .doorbell die q tail => Sys2Proof.Machine.execDoorbell die q tail s
  | .qctlSkip die q => Sys2Proof.Machine.execQctlSkip die q s
  | .qctlRetry die q => Sys2Proof.Machine.execQctlRetry die q s
  | .qctlRun die q => Sys2Proof.Machine.execQctlRun die q s
  | .qctlReset die q => Sys2Proof.Machine.execQctlReset die q s
  | .cpEvict die slot => Sys2Proof.Machine.execCpEvict die slot s
  | .cpResume die slot => Sys2Proof.Machine.execCpResume die slot s
  | .tecStop ctx => Sys2Proof.Machine.execTecStop ctx s
  | .clrLull ctx => Sys2Proof.Machine.execClrLull ctx s
  | .rqcStop rctx => Sys2Proof.Machine.execRqcStop rctx s
  | .restore port => Sys2Proof.Machine.execRestore port s
  | .rstCtlReset => Sys2Proof.Machine.execRstCtlReset s
  | .pwrReqOn => Sys2Proof.Machine.execPwrReqOn s
  | .pwrReqStandby => Sys2Proof.Machine.execPwrReqStandby s
  | .pwrReqOff => Sys2Proof.Machine.execPwrReqOff s
  | .fpPush die value => Sys2Proof.Machine.execFpPush die value s
  | .registerWrite off value => Sys2Proof.Machine.execRegisterWrite off value s
  | .powerOn => Sys2Proof.Machine.execPowerOn s
  | .perst => Sys2Proof.Machine.execPerst s
  | .bootPhase o => Sys2Proof.Machine.execBootPhase o s
  | .frameTick => Sys2Proof.Machine.execFrameTick s
  | .deadlineClose rctx => Sys2Proof.Machine.execDeadlineClose rctx s
  | .overrun die launch => Sys2Proof.Machine.execOverrun die launch s
  | .frameRelease die launch => Sys2Proof.Machine.execFrameRelease die launch s
  | .releaseTick die q => Sys2Proof.Machine.execReleaseTick die q s
  | .gustRelease ctx => Sys2Proof.Machine.execGustRelease ctx s
  | .powerWindow watts => Sys2Proof.Machine.execPowerWindow watts s
  | .idleEnter => Sys2Proof.Machine.execIdleEnter s
  | .counterCommit => Sys2Proof.Machine.execCounterCommit s
  | .tokenDeadlock core => Sys2Proof.Machine.execTokenDeadlock core s
  | .arrayGrant quad => Sys2Proof.Machine.execArrayGrant quad s
  | .watchdogRun die slot => Sys2Proof.Machine.execWatchdogRun die slot s
  | .watchdogStall die slot => Sys2Proof.Machine.execWatchdogStall die slot s
  | .watchdogQueue die q => Sys2Proof.Machine.execWatchdogQueue die q s
  | .preemptOverdue die slot cycles => Sys2Proof.Machine.execPreemptOverdue die slot cycles s
  | .crewDispatch die => Sys2Proof.Machine.execCrewDispatch die s
  | .sweepDone core => Sys2Proof.Machine.execSweepDone core s
  | .safePointSave die slot => Sys2Proof.Machine.execSafePointSave die slot s
  | .crewRestore die slot => Sys2Proof.Machine.execCrewRestore die slot s
  | .writeOut o => Sys2Proof.Machine.execWriteOut o s
  | .lineFill die h line => Sys2Proof.Machine.execLineFill die h line s
  | .copyComplete core slot => Sys2Proof.Machine.execCopyComplete core slot s
  | .landingDone ctx => Sys2Proof.Machine.execLandingDone ctx s
  | .uiDelivery core => Sys2Proof.Machine.execUiDelivery core s
  | .faultEntry die slot => Sys2Proof.Machine.execFaultEntry die slot s
  | .frameReturn die => Sys2Proof.Machine.execFrameReturn die s
  | .launchComplete die launch => Sys2Proof.Machine.execLaunchComplete die launch s
  | .shardFlit epoch k granules => Sys2Proof.Machine.execShardFlit epoch k granules s
  | .ackFlit epoch k pkg => Sys2Proof.Machine.execAckFlit epoch k pkg s
  | .failureFlit epoch k status => Sys2Proof.Machine.execFailureFlit epoch k status s
  | .removalFlit epoch pkg => Sys2Proof.Machine.execRemovalFlit epoch pkg s
  | .endOfStream epoch => Sys2Proof.Machine.execEndOfStream epoch s
  | .acktoSource ctx k pkg => Sys2Proof.Machine.execAcktoSource ctx k pkg s
  | .acktoMember ctx => Sys2Proof.Machine.execAcktoMember ctx s
  | .completionTimeout port => Sys2Proof.Machine.execCompletionTimeout port s
  | .cxlCompletion port n r => Sys2Proof.Machine.execCxlCompletion port n r s
  | .hostReadTimeout die q => Sys2Proof.Machine.execHostReadTimeout die q s
  | .flitReplay l => Sys2Proof.Machine.execFlitReplay l s
  | .ovlanLinkDown port => Sys2Proof.Machine.execOvlanLinkDown port s
  | .boundaryDown b => Sys2Proof.Machine.execBoundaryDown b s
  | .thermalFreeze dev temp => Sys2Proof.Machine.execThermalFreeze dev temp s
  | .thermalResume temps => Sys2Proof.Machine.execThermalResume temps s
  | .mcWrite ctrl => Sys2Proof.Machine.execMcWrite ctrl s
  | .mcRead ctrl gran dom => Sys2Proof.Machine.execMcRead ctrl gran dom s
  | .entryDrain ctrl => Sys2Proof.Machine.execEntryDrain ctrl s
  | .drainAge ctrl => Sys2Proof.Machine.execDrainAge ctrl s
  | .promoteC2 ctrl => Sys2Proof.Machine.execPromoteC2 ctrl s
  | .scrubRead ctrl gran => Sys2Proof.Machine.execScrubRead ctrl gran s
  | .readCounter counter inst bin => Sys2Proof.Machine.execReadCounter counter inst bin s
  | .getCert cert off => Sys2Proof.Machine.execGetCert cert off s
  | .attest nonce => Sys2Proof.Machine.execAttest nonce s
  | .getLog first n => Sys2Proof.Machine.execGetLog first n s
  | .debugRead o g => Sys2Proof.Machine.execDebugRead o g s
  | .rawRead o => Sys2Proof.Machine.execRawRead o s
  | .debugWrite o off bytes => Sys2Proof.Machine.execDebugWrite o off bytes s
  | .fwStage kind pa => Sys2Proof.Machine.execFwStage kind pa s
  | .fwCommit kind => Sys2Proof.Machine.execFwCommit kind s
  | .setEndpointId i3c id => Sys2Proof.Machine.execSetEndpointId i3c id s
  | .unknownCommand cmd => Sys2Proof.Machine.execUnknownCommand cmd s
  | .linkRetrained l => Sys2Proof.Machine.execLinkRetrained l s
  | .powerLoss => Sys2Proof.Machine.execPowerLoss s
  | .hostWindowAccess wr pa dom bytes n => Sys2Proof.Machine.execHostWindowAccess wr pa dom bytes n s
  | .accessPerformed core => Sys2Proof.Machine.execAccessPerformed core s
  | .matrixFinish core => Sys2Proof.Machine.execMatrixFinish core s
  | .moveComplete ctx idx => Sys2Proof.Machine.execMoveComplete ctx idx s
  | .scrubWriteback ctrl => Sys2Proof.Machine.execScrubWriteback ctrl s

end Sys2Proof.Machine
end

