-- ==== Sys2Proof/Machine/Fetch.lean ====
section
/-! DEFINITION. A stream's turn: it fetches and decodes its next group, and executes it (R21, R26, R27, R51). -/
namespace Sys2Proof.Machine
open Sys2Proof

/-- A decode trap: no token has moved (R26, R75). -/
def decodeTrap (s : State) (core : Nat) (e : Engine) (gaddr : Nat) (c : Cause) (addr : Nat) (ws : List Word) : State :=
  takeTrap s core e
    { cause := c, addr := BitVec.ofNat 32 addr, gaddr := BitVec.ofNat 32 gaddr, words := ws.take 5 }

/-- A prefix of a group takes its effect: the latch that its follower reads. -/
def applyPrefix (s : State) (i : Instr) : State :=
  match exec i s with
  | .next s1 => s1
  | _ => s

/-- The machine as a group's follower finds it: the party that acts, the group's addresses and words, its prefixes. -/
def prepareGroup (s : State) (core : Nat) (e : Engine) (gaddr addr next : Nat) (ws : List Word) (pre : List Instr) :
    State :=
  let g : Group :=
    { gaddr := BitVec.ofNat 32 gaddr, addr := BitVec.ofNat 32 addr, next := BitVec.ofNat 32 next, words := ws }
  pre.foldl applyPrefix
    { (modStream s core e fun x => { x with want := none }) with
      cur := .stream core e
      grp := g
      pfx := {} }

/-- After a turn nothing of the group remains. -/
def closeTurn (o : Out) : Out :=
  match o with
  | .next s => .next { s with
      cur := .none
      grp := {}
      pfx := {} }
  | o => o

/-- The lines of a group count as used. -/
def touchGroup (s : State) (core : Nat) (h : Handle) (koff a b : Nat) : State :=
  { s with
    cores := mapMod {} s.cores core fun c => touchLine (touchLine c h ((koff + a) / 64)) h ((koff + b) / 64) }

/-- Whether an earlier instruction of a stream has still to complete or to push: ORPHAN_PREFIX waits for it (R22). -/
def earlierLeft (st : Strand) (e : Engine) : Bool := !(ordOf st e).isEmpty || (e == .C && !st.copies.isEmpty)

/-- A stream's turn: it fetches, decodes and executes its next group, or waits for a line, or does nothing; at a safe point
the core gives up its array (R319). -/
def streamTurn (s : State) (core : Nat) (e : Engine) : Out :=
  match strandAt s core with
  | none => .next s
  | some st =>
    if !mayIssue s st e then .next (settleSafe (settle s core) core)
    else
      match imageOf s st e with
      | none => .next s
      | some (h, koff, len) =>
        let c := mapGet {} s.cores core
        let pc := (streamOf st e).pc.toNat
        match scanGroup (len / 4 + 1) c h koff len pc [] with
        | .error (_, a, some l) => .next (wantLine s core e h a l)
        | .error (ws, a, none) => .next (settle (decodeTrap s core e pc .fetchBound a (ws.map Prod.snd)) core)
        | .ok g =>
          match decodeGroup e g (fetchWord c h koff len (g.addr + 4)) with
          | .miss a l => .next (wantLine s core e h a l)
          | .trap cause a ws =>
            if cause = .orphanPrefix ∧ earlierLeft st e = true then .next (settle s core)
            else .next (settle (decodeTrap s core e pc cause a ws) core)
          | .ok pre i ws next =>
            let s1 := touchGroup s core h koff pc (next - 4)
            closeTurn (exec i (prepareGroup s1 core e pc g.addr next ws pre))

end Sys2Proof.Machine
end

