-- ==== Sys2Proof/Machine/Sched.lean ====
section
/-! DEFINITION. The turn of a queue (R209, R288, R289, R314), and which party acts where no schedule says so (log entry 5). -/
namespace Sys2Proof.Machine
open Sys2Proof

/-! ## A queue's turn -/

/-- The meaning of a decoded packet: that of its instruction. -/
def execPacket : Packet → State → Out
  | .nop len => execNop len
  | .launch a => execLaunch a
  | .launchm a mask => execLaunchm a mask
  | .copyP src dst len => execCopyP src dst len
  | .semsigP sem add => execSemsigP sem add
  | .semwaitP cond sem value => execSemwaitP cond sem value
  | .qfence qmask id => execQfence qmask id
  | .jumpP obj gen start => execJumpP obj gen start
  | .callP obj gen start => execCallP obj gen start
  | .returnP => execReturnP
  | .irq vec cookie => execIrq vec cookie
  | .frameBegin t0 sse ssem => execFrameBegin t0 sse ssem
  | .frameEnd => execFrameEnd
  | .releaseAt t => execReleaseAt t
  | .itin ctx obj gen first => execItin ctx obj gen first
  | .gather rctx obj gen batchN deadline sem => execGather rctx obj gen batchN deadline sem
  | .preempt q all hold plim => execPreempt q all hold plim
  | .setpri q ceil => execSetpri q ceil
  | .otinv space all obj => execOtinv space all obj

/-- Whether a header is that of a launch with CHAIN = 1. -/
def chained (h : Word) : Bool := (fieldOf h 24 8 == 1 || fieldOf h 24 8 == 2) && h.getLsbD 15

/-- Whether the launch before a chained one is at least Running (R314). -/
def lastRunning (s : State) (x : Queue) : Bool :=
  match x.launches.getLast?.bind (mapFind s.launches) with
  | some l => l.st == .running || l.st == .draining || l.st == .complete
  | none => true

/-- Whether the packet of a header may start (R209, R292, R314, R367). -/
def mayStart (s : State) (x : Queue) (h : Word) : Bool :=
  x.started || fieldOf h 24 8 == 0 ||
  ((x.ahead.isEmpty || (chained h && x.prevLaunch == some true && lastRunning s x)) &&
    (s.thermal.isEmpty || fieldOf h 24 8 != 3))

/-- A packet that may start or has started: its decode, and its meaning. -/
def runQueued (s : State) (die q : Nat) (x : Queue) (ws : List Word) : Out :=
  match decodePacket x.priv ws with
  | .error c => .next (stopQueue s die q c false)
  | .ok p =>
    if !x.started && chained (wordAt ws 0) && x.prevLaunch == some false then .next (stopQueue s die q .format false)
    else closeCtx (execPacket p { s with cur := .queue die q })

/-- The packet at a queue's place. -/
def nextPacket (s : State) (die q : Nat) : Out :=
  let x := queueAt s die q
  let pos := queuePos s x
  if !covers s x 1 then .next s
  else
    match queueWords s die x pos 1 with
    | .fail s1 => .next (stopQueue s1 die q .access false)
    | .ask p s1 => .next (askQueue s1 die q p)
    | .ok l s1 =>
      let h : Word := ofBytes 32 l
      let n := max 1 (fieldOf h 16 8)
      if !covers s x n || !mayStart s x h then .next s
      else
        let s2 := modQueue s1 die q fun x => { x with hdr := some h }
        match queueWords s2 die x pos n with
        | .fail s3 => .next (stopQueue s3 die q .access false)
        | .ask p s3 => .next (askQueue s3 die q p)
        | .ok l s3 => runQueued s3 die q x (wordsOf n l)

/-- A queue's turn. -/
def queueTurn (s : State) (die q : Nat) : Out :=
  let x := queueAt s die q
  if !ready s || x.stop.isSome then .next s
  else if 0 < x.skip then .next (passSkip s die q)
  else if x.hold && !x.started then .next s
  else nextPacket s die q

/-! ## Who acts without a schedule -/

/-- An action of the package itself. -/
inductive Auto where
  | stream (core : Nat) (e : Engine)
  | queue (die q : Nat)
  | ctx (n : Nat)
  | tick
  | copy (core slot : Nat)
  | access (core : Nat)
  | matrix (core : Nat)
  | ui (core : Nat)
  | deadlock (core : Nat)
  | grant (quad : Nat)
  | sweep (core : Nat)
  | choose (die : Nat)
  | fill (die : Nat) (h : Handle) (line : Nat)
  | frames (die : Nat)
  | write (ctrl : Nat)
  | drain (ctrl : Nat)
  | launch (die n : Nat)
  | crew (die slot : Nat)
  | watch (die q : Nat)
  | landing (n : Nat)
  | port (p : Nat)
  | link (l : Link)
deriving DecidableEq, Repr

/-- What the strands of the package may do. -/
def strandAutos (s : State) : List Auto :=
  s.strands.flatMap fun p =>
    [Auto.stream p.1 .S, .stream p.1 .V, .stream p.1 .M, .stream p.1 .C, .access p.1, .matrix p.1, .ui p.1, .deadlock p.1] ++
    p.2.copies.map fun c => Auto.copy p.1 c.slot

/-- What the dies may do. -/
def dieAutos (s : State) : List Auto :=
  s.dies.flatMap fun d =>
    (d.2.queues.flatMap fun q => [Auto.queue d.1 q.1, .watch d.1 q.1]) ++ [Auto.choose d.1, .frames d.1] ++
    d.2.lineReq.map fun r => Auto.fill d.1 r.h r.line

/-- What launches and crews may do. -/
def launchAutos (s : State) : List Auto :=
  (s.launches.map fun l => Auto.launch l.2.die l.1) ++
  s.crews.map fun c => Auto.crew (crewDie c.1) (crewSlot c.1)

/-- What the memory, the arrays, the tier engine and the links may do. -/
def otherAutos (s : State) : List Auto :=
  (s.quads.map fun q => Auto.grant q.1) ++
  ((s.cores.filter fun c => !c.2.sweep.isEmpty).map fun c => Auto.sweep c.1) ++
  ((s.launches.flatMap fun l => l.2.stores).map fun w => Auto.write (ctrlOf w.tier.toNat w.loc w.pa)) ++
  ((s.ctls.filter fun c => !c.2.order.isEmpty || !c.2.waiting.isEmpty).map fun c => Auto.drain c.1) ++
  (s.te.flatMap fun c => [Auto.ctx c.1, .landing c.1]) ++
  (s.ports.map fun p => Auto.port p.1) ++
  ((s.ovl.map fun p => Auto.link (.ovlan p.1)) ++ s.bnds.map fun b => Auto.link (.boundary b.1))

/-- Every action of a running package; with nothing else to do, FRAME advances. -/
def autosOf (s : State) : List Auto :=
  .tick :: (strandAutos s ++ dieAutos s ++ launchAutos s ++ otherAutos s)

/-- One meaning after another. -/
def andThen (o : Out) (k : State → Out) : Out :=
  match o with
  | .next s => k s
  | o => o

/-- The crew that a command processor chooses is placed. -/
def chooseTurn (s : State) (die : Nat) : Out :=
  match chooseCrew s die with
  | (_, some (_, s1)) => .next s1
  | (s1, none) => .next s1

/-- An action that needs a device in self-refresh waits with all of its effect (R367). -/
def holdHot (s : State) (o : Out) : Out :=
  match o with
  | .next t => if t.stall then .next s else .next t
  | o => o

/-- The advance of FRAME waits for no device (R367): what else it does, a report or a count, stands. -/
def tickTurn (s : State) : Out := andThen (execFrameTick s) fun t => .next { t with stall := false }

/-- The machine after an action of its own. -/
def runAuto (s : State) : Auto → Out
  | .stream core e => streamTurn s core e
  | .queue die q => queueTurn s die q
  | .ctx n => ctxTurn s n
  | .copy core slot => execCopyComplete core slot s
  | .access core => execAccessPerformed core s
  | .matrix core => execMatrixFinish core s
  | .ui core => execUiDelivery core s
  | .deadlock core => execTokenDeadlock core s
  | .tick => tickTurn s
  | .grant quad => execArrayGrant quad s
  | .sweep core => execSweepDone core s
  | .choose die => chooseTurn s die
  | .fill die h line => execLineFill die h line s
  | .frames die => execFrameReturn die s
  | .write ctrl => execMcWrite ctrl s
  | .drain ctrl => execEntryDrain ctrl s
  | .launch die n => andThen (execFrameRelease die n s) fun s => andThen (execOverrun die n s) (execLaunchComplete die n)
  | .crew die slot => andThen (execSafePointSave die slot s) fun s => andThen (execFaultEntry die slot s) fun s =>
      andThen (execWatchdogRun die slot s) (execWatchdogStall die slot)
  | .watch die q => execWatchdogQueue die q s
  | .landing n => execLandingDone n s
  | .port p => execCompletionTimeout p s
  | .link (.ovlan p) => execOvlanLinkDown p s
  | .link (.boundary b) => execBoundaryDown b s
  | .link (.cxl _) => .next s

/-- The action whose turn it is, of a running package. -/
def autoTurn (s : State) : Out :=
  if !ready s then (if s.off then .next s else tickTurn s)
  else
    let l := autosOf s
    let s1 := { s with clock := s.clock + 1 }
    holdHot s1 (runAuto s1 (l.getD (s.clock % l.length) .tick))

/-- Whether an event is the advance of FRAME. -/
def isTick : Instr → Bool
  | .frameTick => true
  | _ => false

/-- An event: its meaning, where it has one outside every party's turn; an instruction, a packet or an entry is no event. -/
def eventTurn (s : State) (i : Instr) : Out :=
  match if isTick i then tickTurn { s with cur := .none } else exec i { s with cur := .none } with
  | .next s1 => closeTurn (.next s1)
  | _ => .next s

/-- The machine after the turn of the party that is scheduled. -/
def runTurn (s : State) (t : Turn) : Out :=
  holdHot s (match t with
    | .stream core e => streamTurn s core e
    | .queue die q => queueTurn s die q
    | .ctx n => ctxTurn s n
    | .event i => eventTurn s i)

/-! ## A word placed for the next step -/

/-- A launch of no extent and no rights. -/
def blankArgs : LaunchArgs :=
  { chain := false, pri := 0, copyonly := false, order := 0, swz := 0, size := 0, kobj := 1, kgen := 1, gtrap := false
    gx := 0, gy := 0, gz := 0, lxobj := 0, gt := false, lxgen := 0, rel := 0, budget := 0, arg0 := 0, arg1 := 0 }

/-- A kernel whose stream of an engine is one line. -/
def lineKernel (e : Engine) : Kernel := { len := [(e.num, 64)] }

/-- The handle of that kernel. -/
def lineHandle : Handle := { space := 0, obj := 1, gen := 1 }

/-- A strand whose stream of an engine is at its start, the others Ended. -/
def lineStrand (e : Engine) : Strand :=
  { crew := 0
    ss := [Engine.S, .V, .M, .C].foldl (fun m f =>
      mapPut m f.num { st := if f = e then SState.issuing else .ended }) [] }

/-- A running package with one strand on core 0 whose stream of an engine fetches a line next (log entry 6). -/
def placeLine (s : State) (e : Engine) (line : Granule) : State :=
  { s with
    phase := 7#4
    off := false
    pwrState := 0#2
    launches := mapPut s.launches 0 { die := 0, q := 0, off := 0, args := blankArgs, k := lineKernel e, st := .running }
    crews := mapPut s.crews 0 { launch := 0, space := 0, handle := lineHandle, size := 0, cores := [0] }
    strands := mapPut s.strands 0 (lineStrand e)
    cores := mapMod {} s.cores 0 fun c => installLine c lineHandle 0 line
    schedule := [.stream 0 e] }

/-- The engine that reads the bits of a row of the opcode table. -/
def rowEngine (w : Nat) : Engine :=
  ((tableEngine (BitVec.ofNat 32 w) (BitVec.ofNat 32 (w >>> 32))).map Prod.fst).getD .S

end Sys2Proof.Machine
end

