-- ==== Sys2Proof/Machine/Step.lean ====
section
/-! DEFINITION. One step of the machine: the party that the schedule names acts, or, with none scheduled, the next of the
package's own actions. -/
namespace Sys2Proof.Machine
open Sys2Proof

/-- One step. -/
def step (s : State) : Host.Outcome State Fault Refusal :=
  match s.schedule with
  | t :: r => runTurn { s with schedule := r } t
  | [] => autoTurn s

/-- The machine with an instruction of the opcode table where the next step fetches it (log entry 6). -/
def State.withFetchWord (s : State) (nbits w : Nat) : State := placeLine s (rowEngine w) (BitVec.ofNat 512 (w % 2 ^ max nbits 32))

end Sys2Proof.Machine
end

