-- ==== Sys2Proof/Machine/Bar0.lean ====
section
/-! DEFINITION. What a read of BAR 0 returns (R10, R287, R291, R337, R343, R354, R369 to R371, R381, R388 to R393): the words
of the registers of Tables 14.1, 14.5, 16.2, 16.7, 18.4 to 18.9, 19.2, 19.8 and 19.11. -/
namespace Sys2Proof.Machine
open Sys2Proof

/-- A register that holds a physical address in bits [51:6], with what its other bits hold. -/
def addrWord (a low : Nat) : BitVec 64 := d64 (a / 64 % 2 ^ 46 * 64 + low)

/-! ## Queues (Table 14.1) -/

/-- QSTAT.STATE: 0 idle, 1 active, 2 stopped, 3 held. -/
def queueState (x : Queue) : BitVec 2 :=
  if x.stop.isSome then 2 else if x.hold then 3 else if queueIdle x then 0 else 1

/-- Whether QSTAT names a packet: a stopped or held one. -/
def namesPacket (x : Queue) : Bool := x.stop.isSome || x.hold

/-- QSTAT.OFF: the place of the stopped or held packet. -/
def queueOff (s : State) (x : Queue) : BitVec 32 := if namesPacket x then BitVec.ofNat 32 (queuePos s x) else 0

/-- QEOBJ: the buffer object of the packet that QSTAT.OFF names, at depth 1 and more. -/
def queueObj (x : Queue) : BitVec 24 :=
  if namesPacket x then BitVec.ofNat 24 ((x.stack.head?.map Prod.fst).getD 0) else 0

/-- QSTAT. -/
def queueStat (s : State) (x : Queue) : BitVec 64 :=
  queueOff s x ++ 0#17 ++ BitVec.ofNat 3 x.stack.length ++ BitVec.ofNat 8 ((x.stop.map QCause.code).getD 0) ++ 0#2 ++ queueState x

/-- QCFG. -/
def queueCfg (x : Queue) : BitVec 64 :=
  0#45 ++ BitVec.ofNat 3 x.ceil ++ BitVec.ofBool x.en ++ BitVec.ofBool x.priv ++ BitVec.ofNat 9 x.space ++ BitVec.ofNat 5 x.size

/-- A read of a queue's block; QCTL is write-only. -/
def readQueueReg (s : State) (x : Queue) (off : Nat) : BitVec 64 :=
  match off with
  | 0x00 => addrWord x.base 0
  | 0x08 => queueCfg x
  | 0x10 => x.tail.setWidth 64
  | 0x18 => x.head.setWidth 64
  | 0x20 => queueStat s x
  | 0x28 => (queueObj x).setWidth 64
  | 0x38 => x.cookie.setWidth 64
  | _ => 0

/-! ## Command processors and dies (Tables 14.5, 19.8) -/

/-- A read of a register of a command processor; CP_EVICT and CP_RESUME are write-only. -/
def readCpReg (d : Die) (off : Nat) : BitVec 64 :=
  match off with
  | 0x000 => 0#16 ++ d.plim ++ 0#15 ++ BitVec.ofBool d.preen
  | 0x008 => d.age.setWidth 64
  | 0x010 => d.stall ++ d.runlim
  | 0x018 => 0#12 ++ BitVec.ofNat 28 (d.saveBase / 2 ^ 24) ++ 0#11 ++ BitVec.ofNat 13 d.nslot
  | 0x020 => BitVec.ofBool d.rptEn ++ BitVec.ofNat 11 d.rptVec ++ BitVec.ofNat 40 (d.rptBase / 2 ^ 12) ++ 0#8 ++ BitVec.ofNat 4 d.rptSize
  | 0x028 => d.rptHead.setWidth 64
  | 0x030 => 0#16 ++ d.rptLost ++ d.rptTail
  | _ => 0

/-- A read of a register of a die; FP_PUSH is write-only. -/
def readDieReg (d : Die) (off : Nat) : BitVec 64 :=
  match off with
  | 0x00 => 0#48 ++ BitVec.ofNat 16 d.nxd
  | 0x08 => addrWord d.fqBase d.fqSize
  | 0x10 => d.fqHead.setWidth 64
  | 0x18 => d.fqTail.setWidth 64
  | 0x28 => 0#41 ++ BitVec.ofNat 23 d.pool.length
  | _ => 0

/-- A read of a controller's block (Tables 18.4, 18.6, 18.7). -/
def readCtlReg (c : MemCtl) (off : Nat) : BitVec 64 :=
  match off with
  | 0x00 => c.ue ++ c.ce
  | 0x08 => c.yield ++ c.int
  | 0x10 => 0#16 ++ c.passh ++ 0#31 ++ BitVec.ofBool c.scrubEn
  | 0x18 => c.passes ++ c.pos
  | 0x20 => 0#39 ++ BitVec.ofBool c.hot ++ c.tcrit ++ c.tres ++ c.temp
  | _ => 0

/-- A read within a die's megabyte. -/
def readDieBlock (s : State) (die off : Nat) : BitVec 64 :=
  if s.caps.dies.toNat ≤ die then 0
  else if off < 0x100 then readCpReg (dieAt s die) off
  else if 0x1000 ≤ off ∧ off < 0x1400 then readQueueReg s (queueAt s die ((off - 0x1000) / 0x40)) (off % 0x40)
  else if 0x40000 ≤ off ∧ off < 0x40100 then readDieReg (dieAt s die) (off - 0x40000)
  else if 0x80000 ≤ off ∧ off < 0x80040 ∧ die < s.caps.nStacks.toNat then readCtlReg (ctlAt s die) (off - 0x80000)
  else 0

/-! ## Tier engine and gatherer (Tables 16.2, 16.7; R343) -/

/-- Whether a context holds the END of its itinerary. -/
def atEnd (c : TeCtx) : Bool :=
  match c.held.map (decodeEntry c.cidx) with
  | some (.ok .itinEnd) => true
  | _ => false

/-- TEC_STAT.IDX: the next entry to be considered, past the one that is considered and waits; at and after END, the END's. -/
def nextIdx (c : TeCtx) : Nat := min 2047 (if c.held.isSome && !c.again && !atEnd c then c.cidx + 1 else c.idx)

/-- TEC_STAT. -/
def teStat (c : TeCtx) : BitVec 64 :=
  BitVec.ofNat 16 c.late ++ BitVec.ofNat 2 c.l ++ c.arm ++ BitVec.ofNat 11 (nextIdx c) ++ 0#3 ++ BitVec.ofNat 4 c.cause ++ 0#22 ++
    (if c.active then (if c.stopping then 2#2 else 1#2) else 0#2)

/-- The window fields of eight classes. -/
def winWord (c : TeCtx) (first : Nat) : BitVec 64 :=
  (List.range 8).foldl (fun w k => w ||| (d64 (winOf c (first + k) % 128) <<< (8 * k))) 0

/-- TEC_LOOP. -/
def loopWord (c : TeCtx) : BitVec 64 := mapGet 0#16 c.rem 3 ++ mapGet 0#16 c.rem 2 ++ mapGet 0#16 c.rem 1 ++ mapGet 0#16 c.rem 0

/-- A read of a context's block; TEC_CTL is write-only. -/
def readTeReg (c : TeCtx) (off : Nat) : BitVec 64 :=
  match off with
  | 0x00 => 0#32 ++ c.lateHi ++ c.lateLo
  | 0x08 => winWord c 0
  | 0x10 => winWord c 8
  | 0x18 => teStat c
  | 0x20 => c.tbase ++ c.dofs
  | 0x28 => c.sacc
  | 0x30 => c.dacc
  | 0x38 => loopWord c
  | 0x40 => c.bseen.setWidth 64
  | _ => 0

/-- RQC_STAT. -/
def rqStat (g : RqCtx) : BitVec 64 :=
  BitVec.ofNat 32 g.openAt ++ 0#12 ++ BitVec.ofBool g.openV ++ BitVec.ofNat 13 g.openN ++ 0#2 ++ BitVec.ofNat 2 g.cause ++
    (if g.active then 1#2 else if g.cause = 1 ∨ g.cause = 2 then 2#2 else 0#2)

/-- A read of a gatherer context's block; RQC_CTL is write-only. -/
def readRqReg (g : RqCtx) (off : Nat) : BitVec 64 :=
  match off with
  | 0x00 => rqStat g
  | 0x08 => g.nb.setWidth 64
  | _ => 0

/-- HINTMBp. -/
def hintMb (x : CxlPort) : BitVec 64 := BitVec.ofBool x.hintV ++ 0#11 ++ BitVec.ofNat 46 (x.hintAddr / 64) ++ 0#6

/-- A read within the tier engine's window. -/
def readTeBlock (s : State) (off : Nat) : BitVec 64 :=
  if 0x100 ≤ off ∧ off < 0x140 ∧ off % 8 = 0 then hintMb (portAt s ((off - 0x100) / 8))
  else if 0x1000 ≤ off ∧ off < 0x3000 then readTeReg (ctxAt s ((off - 0x1000) / 0x80)) (off % 0x80)
  else if 0x3000 ≤ off ∧ off < 0x3200 then readRqReg (rqAt s ((off - 0x3000) / 0x20)) (off % 0x20)
  else 0

/-! ## Spaces, CXL ports, the package (R389, Tables 18.9, 19.2, 19.11) -/

/-- An entry of the space table. -/
def spaceWord (e : Space) : BitVec 64 :=
  BitVec.ofBool e.v ++ BitVec.ofBool e.consent ++ e.kdom ++ 0#4 ++ BitVec.ofNat 46 (e.obt / 64) ++ 0#6

/-- A read of a CXL port's block; RESTORE is write-only. -/
def readCxlReg (x : CxlPort) (off : Nat) : BitVec 64 :=
  match off with
  | 0x00 => 0#16 ++ x.tmo ++ 0#32
  | 0x08 => x.isoFrame ++ x.retrains ++ 0#13 ++ x.state
  | _ => 0

/-- BOOT_STAT. -/
def bootStat (s : State) : BitVec 64 := 0#48 ++ s.bdetail ++ s.berr ++ s.phase

/-- A read of the package block; RST_CTL is write-only. -/
def readPackageReg (s : State) (off : Nat) : BitVec 64 :=
  match off with
  | 0x00 => Config.capsWord s.caps s.bulkSize
  | 0x08 => bootStat s
  | 0x18 => 0#32 ++ s.idleTicks ++ 0#16
  | 0x20 => s.pwrInput ++ 0#22 ++ s.plvl ++ 0#2 ++ s.pwrResult ++ 0#2 ++ s.pwrState
  | 0x28 => 0#48 ++ s.pwrCap
  | _ => 0

/-- A read of a running package's BAR 0 at an offset: unlisted offsets and blocks of absent units read zero (R388). -/
def readRegs (s : State) (off : Nat) : BitVec 64 :=
  if off < 0x100 then readPackageReg s off
  else if 0x100000 ≤ off ∧ off < 0x500000 then readDieBlock s ((off - 0x100000) / 0x100000) (off % 0x100000)
  else if 0x500000 ≤ off ∧ off < 0x510000 then readTeBlock s (off - 0x500000)
  else if 0x510000 ≤ off ∧ off < 0x511000 ∧ off % 8 = 0 then spaceWord (spaceReg s ((off - 0x510000) / 8))
  else if 0x520000 ≤ off ∧ off < 0x520400 ∧ (off - 0x520000) / 0x40 < s.bulkSize then
    readCtlReg (ctlAt s (4 + (off - 0x520000) / 0x40)) (off % 0x40)
  else if 0x521000 ≤ off ∧ off < 0x521200 ∧ (off - 0x521000) / 0x40 < s.caps.cxlPorts.toNat then
    readCxlReg (portAt s ((off - 0x521000) / 0x40)) (off % 0x40)
  else if 0x530000 ≤ off ∧ off < 0x538000 ∧ off % 8 = 0 then msixWord s ((off - 0x530000) / 8)
  else if 0x538000 ≤ off ∧ off < 0x538100 ∧ off % 8 = 0 then mapGet 0#64 s.pba ((off - 0x538000) / 8)
  else 0

/-- What a read of 64 bits of BAR 0 returns, from phase 5 on: until READY BOOT_STAT and zero everywhere else (R381). DESIGN CHOICE
(log entry 79): in STANDBY the package block answers and the units without power read zero. -/
def readBar0 (s : State) (off : Nat) : BitVec 64 :=
  if s.phase ≠ 7#4 then (if off = 0x08 then bootStat s else 0)
  else if s.pwrState = 2#2 then (if off < 0x100 then readPackageReg s off else 0)
  else readRegs s off

end Sys2Proof.Machine
end

