-- ==== Sys2Proof/WellFormed.lean ====
section
/-! DEFINITION. The well-formed instructions: those whose fields hold values that their encodings assign (R31 and
each instruction's own rule), so that some word decodes to them; and the steps that name a unit of the part. -/
namespace Sys2Proof
open Sys2Proof.Machine

/-- A one-source instruction under BYP names w0 to w2 (R35). -/
def wfByp (byp : Bool) (va : VReg) : Bool := bypOk byp va

/-- SCOPE codes 0 to 5 (R32). -/
def wfScope (n : Nat) : Bool := decide (n < 6)

/-- A well-formed MOVE (R339, R340). -/
def wfMove (a : MoveArgs) : Bool :=
  !(a.stier == 3#2) && zeroBits a.soff 0 6 && !(a.len == 0#16) &&
  (if a.dtier == 3#2 then a.doff == 0#40
   else zeroBits a.doff 0 6 && a.z == 0#4 && a.core == 0#9 && a.die == 0#2 && a.zoff == 0#12)

/-- Whether every field of an instruction holds a value that its encoding assigns. -/
def Instr.wf (i : Instr) : Bool :=
  match i with
  | .arith rm _ ftz _ pred pneg pen _ =>
    decide (rm.toNat < 6) && decide (ftz.toNat < 3) && (pen || (pred == 0#5 && !pneg))
  | .spld _ _ _ sz sgn _ => !(sgn && sz == 3#2)
  | .rspld _ _ _ sz sgn _ => !(sgn && sz == 3#2)
  | .tkpop m => !(m == 0#16) && m &&& 0xEEEE#16 == 0#16
  | .tkpush m => !(m == 0#16) && m &&& 0xFFF1#16 == 0#16
  | .tkwait q _ => zeroBits q 0 2
  | .acq _ _ s => wfScope s.toNat
  | .rel _ _ _ s => wfScope s.toNat
  | .fence _ _ s => wfScope s.toNat
  | .srr _ _ n => srnAssigned n.toNat
  | .srw _ _ n => srnAssigned n.toNat
  | .vadd _ _ va vb b | .vsub _ _ va vb b | .vmul _ _ va vb b | .vfma _ _ va vb b _ => bselOk b va vb
  | .vmin _ _ va vb b | .vmax _ _ va vb b => bselOk b va vb
  | .vand _ _ va vb b | .vor _ _ va vb b | .vxor _ _ va vb b => bselOk b va vb
  | .vabs _ _ va y | .vneg _ _ va y | .vmov _ _ va y | .vrev _ _ va y => wfByp y va
  | .vexp2 _ _ va y | .vlog2 _ _ va y | .vrecip _ _ va y | .vrsqrt _ _ va y => wfByp y va
  | .vredSum _ _ va y | .vredMax _ _ va y | .vredMin _ _ va y | .vredAmax _ _ va y => wfByp y va
  | .vscanSum _ _ va y | .vscanMax _ _ va y => wfByp y va
  | .vcvt _ _ _ t => fmtData t.toNat
  | .vcvtAmax _ _ _ t _ => fmtData t.toNat
  | .vcast _ _ _ t => !(t == 15#4)
  | .vsplat _ _ _ t => !(t == 15#4)
  | .vins _ _ _ _ t => !(t == 15#4)
  | .viota _ _ _ _ t => decide (1 ≤ t.toNat ∧ t.toNat ≤ 6)
  | .vld _ _ _ _ e _ t => !(e == 3#2) && !(t == 15#4)
  | .vldS _ _ _ _ e _ t _ => !(e == 3#2) && !(t == 15#4)
  | .vldX _ _ _ _ e _ t _ => !(e == 3#2) && !(t == 15#4)
  | .vst _ _ _ _ e _ => !(e == 3#2)
  | .vstS _ _ _ _ e _ _ => !(e == 3#2)
  | .vstX _ _ _ _ e _ _ => !(e == 3#2)
  | .vspld _ _ _ t _ => !(t == 15#4)
  | .tld _ _ cn _ _ sp _ => !sp || cn == 0#4
  | .tst _ _ cn _ _ sp _ => !sp || cn == 0#4
  | .tcfg _ _ r c t => fmtData t.toNat && decide ((r.toNat + 1) * (c.toNat + 1) * fmtBits t.toNat ≤ 8192)
  | .mlease _ n => decide (n.toNat ≤ 256)
  | .mwloadm _ f _ _ => f == 3#4 || f == 4#4 || f == 8#4 || (decide (10 ≤ f.toNat) && decide (f.toNat ≤ 12))
  | .mregion _ _ _ _ trap slog spill => decide (slog.toNat ≤ 4) && (!trap || spill == 0#12)
  | .mstream _ _ _ _ a _ _ w => streamPair a.toNat w.toNat
  | .mevrd _ _ _ k _ => decide (k.toNat ≤ 1)
  | .mevclr _ _ k _ => decide (k.toNat ≤ 2)
  | .mrank _ _ _ _ g _ e k o =>
    (g == 7#4 || g == 8#4 || g == 9#4) && decide (k.toNat ≤ e.toNat) && decide (o.toNat ≤ e.toNat)
  | .mcntRd _ _ s => mcntSel s.toNat && !(s == 0x1FF#9)
  | .mcntClr _ s => mcntSel s.toNat
  | .cpy2d _ cd cs _ _ _ _ _ _ d s => (!d || cd == 0#4) && (!s || cs == 0#4)
  | .cpyCvt _ cd cs _ _ _ _ dt st d s => (!d || cd == 0#4) && (!s || cs == 0#4) && copyPair st.toNat dt.toNat
  | .cgath _ _ _ _ _ _ _ dt _ => !(dt == 15#4)
  | .cscat _ _ _ _ _ _ _ dt _ => !(dt == 15#4)
  | .crcp _ _ _ _ nq _ => decide (nq.toNat < 5)
  | .cfence _ s => wfScope s.toNat
  | .nop len => !(len == 0#8)
  | .launchm _ m => zeroBits m 96 32
  | .itin c _ _ _ => zeroBits c 6 2
  | .preempt q all _ _ => !all || q == 0#4
  | .otinv _ all obj => all == (obj == 0#24)
  | .move a => wfMove a
  | .hint t _ _ len _ _ => !(t == 3#2) && !(len == 0#16)
  | .waitw _ n => decide (n.toNat ≤ 64)
  | .gust n _ => decide (1 ≤ n.toNat ∧ n.toNat ≤ 64)
  | .doorbell d q _ => decide (d < 4 ∧ q < 16)
  | .qctlSkip d q => decide (d < 4 ∧ q < 16)
  | .qctlRetry d q => decide (d < 4 ∧ q < 16)
  | .qctlRun d q => decide (d < 4 ∧ q < 16)
  | .qctlReset d q => decide (d < 4 ∧ q < 16)
  | .tecStop c => decide (c < 64)
  | .clrLull c => decide (c < 64)
  | .rqcStop c => decide (c < 16)
  | .restore p => decide (p < 8)
  -- Every value of these instructions' fields is assigned.
  | .label .. | .immx .. | .snop .. | .add .. | .sub .. | .andR .. | .orR .. | .xorR .. | .sll .. | .srl .. => true
  | .sra .. | .slt .. | .sltu .. | .minR .. | .maxR .. | .minu .. | .maxu .. | .mul .. | .mulh .. | .mulhu .. => true
  | .mulhsu .. | .div .. | .divu .. | .rem .. | .remu .. | .addi .. | .andi .. | .ori .. | .xori .. | .slli .. => true
  | .srli .. | .srai .. | .slti .. | .sltiu .. | .lui .. | .cinspBase .. | .cinspLen .. | .cinspRights .. => true
  | .cinspObj .. | .cinspGen .. | .pgcommit .. | .pgfree .. | .pgquery .. | .cwin .. | .crt .. | .cmov .. => true
  | .ldb .. | .ldbu .. | .ldh .. | .ldhu .. | .ldw .. | .ldwu .. | .ldd .. | .stb .. | .sth .. | .stw .. => true
  | .std .. | .spst .. | .rspst .. | .amoadd .. | .amomin .. | .amomax .. | .amoand .. | .amoor .. | .amoxor .. => true
  | .amoswap .. | .amocas .. | .spamoAdd .. | .spamoMin .. | .spamoMax .. | .spamoAnd .. | .spamoOr .. => true
  | .spamoXor .. | .spamoSwap .. | .spamoCas .. | .beq .. | .bne .. | .blt .. | .bge .. | .bltu .. | .bgeu .. => true
  | .jmp .. | .call .. | .jr .. | .callr .. | .semsig .. | .semwaitGe .. | .semwaitEq .. | .semwaitNe .. => true
  | .semrd .. | .rbind .. | .runbind .. | .barrive .. | .bwait .. | .cbar .. | .safept .. | .sEnd .. | .brk .. => true
  | .trapu .. | .uiret .. | .vnop .. | .vshiftL .. | .vshiftR .. | .vshiftA .. | .vsel .. | .vwmul .. => true
  | .vwadd .. | .vcmpEq .. | .vcmpLt .. | .vcmpLe .. | .vcmpNe .. | .pand .. | .por .. | .pxor .. | .pandn .. => true
  | .pnot .. | .pmov .. | .pwhile .. | .pcnt .. | .vext .. | .vperm .. | .vslideUp .. | .vslideDn .. | .vzip .. => true
  | .vunzip .. | .vchain .. | .vspst .. | .tzero .. | .trowW .. | .trowR .. | .tcolW .. => true
  | .tcolR .. | .vbrAny .. | .vbrAll .. | .vbrNone .. | .vjmp .. | .vloop .. | .vend .. | .mnop .. => true
  | .munlease .. | .mwload .. | .mpswap .. | .mbind .. | .mrelease .. | .mreleaseOne .. | .mdrain .. => true
  | .mdrainFree .. | .mswap .. | .mtopkLo .. | .mtopkHi .. | .mdist .. | .mcplx .. | .msave .. | .mrestore .. => true
  | .mloop .. | .mend .. | .cnop .. | .cpy .. | .cpyin .. | .cpyout .. | .cpyaccRd .. | .cpyaccWr .. | .cfill .. => true
  | .cfillCw .. | .cnullZero .. | .cnullId .. | .cnullConst .. | .carm .. | .cdisarm .. => true
  | .cwaitAll .. | .cwaitLe .. | .cloop .. | .cend .. | .launch .. | .copyP .. | .semsigP .. | .semwaitP .. => true
  | .qfence .. | .jumpP .. | .callP .. | .returnP .. | .irq .. | .frameBegin .. | .frameEnd .. | .releaseAt .. => true
  | .gather .. | .setpri .. | .mcast .. | .mark .. | .repeatE .. | .batch .. | .itinEnd .. | .cpEvict .. => true
  | .cpResume .. | .rstCtlReset .. | .pwrReqOn .. | .pwrReqStandby .. | .pwrReqOff .. | .fpPush .. => true
  | .registerWrite .. | .powerOn .. | .perst .. | .bootPhase .. | .frameTick .. | .deadlineClose .. => true
  | .overrun .. | .frameRelease .. | .releaseTick .. | .gustRelease .. | .powerWindow .. | .idleEnter .. => true
  | .counterCommit .. | .tokenDeadlock .. | .arrayGrant .. | .watchdogRun .. | .watchdogStall .. => true
  | .watchdogQueue .. | .preemptOverdue .. | .crewDispatch .. | .sweepDone .. | .safePointSave .. => true
  | .crewRestore .. | .writeOut .. | .lineFill .. | .copyComplete .. | .landingDone .. | .uiDelivery .. => true
  | .faultEntry .. | .frameReturn .. | .launchComplete .. | .shardFlit .. | .ackFlit .. | .failureFlit .. => true
  | .removalFlit .. | .endOfStream .. | .acktoSource .. | .acktoMember .. | .completionTimeout .. => true
  | .cxlCompletion .. | .hostReadTimeout .. | .flitReplay .. | .ovlanLinkDown .. | .boundaryDown .. => true
  | .thermalFreeze .. | .thermalResume .. | .mcWrite .. | .mcRead .. | .entryDrain .. | .drainAge .. => true
  | .promoteC2 .. | .scrubRead .. | .readCounter .. | .getCert .. | .attest .. | .getLog .. | .debugRead .. => true
  | .rawRead .. | .debugWrite .. | .fwStage .. | .fwCommit .. | .setEndpointId .. | .unknownCommand .. => true
  | .linkRetrained .. | .powerLoss .. | .hostWindowAccess .. | .accessPerformed .. | .matrixFinish .. => true
  | .moveComplete .. | .scrubWriteback .. => true

end Sys2Proof
end

