-- ==== Sys2Proof/Safety.lean ====
section
/-! DEFINITION. What claims are stated in: reading an encoding back, safe runs. -/
namespace Sys2Proof.Safety
open Sys2Proof Sys2Proof.Machine

/-- A single-word instruction of a stream reads back (R24, R25). -/
def OneWord (e : Engine) (i : Instr) : Prop :=
  ∃ w, encode i = [w] ∧ wLS w = 0#2 ∧ opDouble e (wOP w) = false ∧ ∀ w2, decodeEngine e w w2 = .ok i

/-- A double-word instruction of a stream reads back (R24, R25). -/
def TwoWords (e : Engine) (i : Instr) : Prop :=
  ∃ w w2, encode i = [w, w2] ∧ wLS w = 1#2 ∧ opDouble e (wOP w) = true ∧ decodeEngine e w w2 = .ok i

/-- What reading an instruction's own words gives: the instruction, with every field, and for a word of a stream the
LS that its OP asks for (R24, R25); a step that no word names has no words. -/
def ReadsBack (i : Instr) : Prop :=
  match i.form with
  | .engine e => OneWord e i ∨ TwoWords e i
  | .pfx => ∃ w, encode i = [w] ∧ wLS w = 2#2 ∧ decodePrefix w = .ok i
  | .packet => ∃ p, decodePacket true (encode i) = .ok p ∧ p.instr = i
  | .entry => (encode i).length = 8 ∧ ∃ x, decodeEntry 2047 (encode i) = .ok x ∧ x.instr = i
  | .bare => encode i = []

/-- A state from which the next step goes on. -/
def Goes (s : State) : Prop := ∃ t, step s = .next t

/-- The state `n` steps on, where every step goes on. -/
def after (n : Nat) (s : State) : Option State :=
  match n with
  | 0 => some s
  | k + 1 =>
    match step s with
    | .next t => after k t
    | _ => none

/-- A state whose memory is in canonical form. -/
def MemOk (s : State) : Prop := Memory.wf s.mem = true

/-- A safe run of `n` steps: every step goes on, and every state's memory is in canonical form. -/
def SafeRun (n : Nat) (s : State) : Prop := ∀ k, k ≤ n → ∃ t, after k s = some t ∧ MemOk t

/-! ## What an instruction of a stream leaves -/

/-- A strand without its streams, its token queues, its queued pushes and the marks of its end: what an instruction's
own effect writes, and no tk_pop or tk_push (R46, R60). -/
def body (st : Strand) : Strand :=
  { st with
    ss := []
    toks := []
    ext := []
    copyPush := []
    mats := []
    safe := none
    gone := false
    retired := false }

/-- The machine without its strands, crews and launches: memory and its caches, dies, quads, tier engine, links, and
everything else. -/
def rest (s : State) : State :=
  { s with
    strands := []
    crews := []
    launches := [] }

/-- The stream `e` of the strand on `core` acts, its instruction's pattern is one it may use (R44), and its tk_pop is
done: `s1` and `st` are the machine and the strand after it (R46); no push of the stream waits. -/
structure Poised (s : State) (core : Nat) (e : Engine) (tk : Tk) (s1 : State) (st : Strand) : Prop where
  cur : s.cur = .stream core e
  acts : ∃ st0, strandAt s core = some st0 ∧ patternOk e (patOf st0 e tk) = true ∧
    popStep s core e st0 (patOf st0 e tk) = .ok (s1, st)
  idle : (streamOf st e).push = none

/-- Nothing of the strand waits to be pushed. -/
structure Calm (st : Strand) : Prop where
  copies : st.copyPush = []
  mats : st.mats = []
  ext : st.ext = []
  push : ∀ e, (streamOf st e).push = none

/-- No serial instruction of the strand on `core` keeps a later one from its start (R176). -/
def NoSerial (s : State) (core : Nat) : Prop :=
  ∃ st, strandAt s core = some st ∧ ((streamOf st .M).popped = true ∨ serialBusy st = false)

/-- The core holds its quad's lease and it has not run out (R180), no serial instruction is under way (R176), and the
strand's crew is not Frozen (R77). -/
structure Leased (s : State) (core : Nat) : Prop where
  lease : holdsLease (expireLease s core) core = true
  serial : NoSerial s core
  awake : ∀ st, strandAt s core = some st → crewFrozen s st = false

/-- Every matrix instruction of the strand on `core` has finished (R176). -/
def MatsDone (s : State) (core : Nat) : Prop := ∃ st, strandAt s core = some st ∧ matsDone st = true

/-- The slot of the strand's next copy is free, or its tk_pop is done already (R247). -/
def SlotFree (s : State) (core : Nat) : Prop :=
  ∃ st, strandAt s core = some st ∧ ((streamOf st .C).popped = true ∨ slotFree st = true)

/-- A stream but for its push and what waiting for room shows (R46, R62). -/
def unpushed (x : Stream) : Stream :=
  { x with
    push := none
    st := .issuing
    waitSet := 0
    waitN := 0 }

/-- An instruction of the stream `e` on `core` has finished (R46). Its strand's body is that of `st`; its stream stands at `pc` and
waits for nothing but its push; the strand's other streams are as in `st`, but that pushes which wait may have been performed; no
other strand has changed; and everything else of the machine is as in `s`. Of tokens and queued pushes, of crews and of launches it
says nothing: a push that is performed, the progress of the crew and the strand's part in barriers stand there. -/
structure Finished (s : State) (core : Nat) (e : Engine) (st : Strand) (pc : BitVec 32) (t : State) : Prop where
  strand : ∃ st', strandAt t core = some st' ∧ body st' = body st ∧ (streamOf st' e).pc = pc ∧
    (streamOf st' e).popped = false ∧ ∀ f, f ≠ e → unpushed (streamOf st' f) = unpushed (streamOf st f)
  others : ∀ c, c ≠ core → strandAt t c = strandAt s c
  rest : Safety.rest t = Safety.rest s

/-- Executing `i` in `s` finishes it: the next state is as `Finished` says of the machine `s1` and the strand `st`. -/
def Completes (i : Instr) (s s1 : State) (core : Nat) (e : Engine) (st : Strand) (pc : BitVec 32) : Prop :=
  ∃ t, exec i s = .next t ∧ Finished s1 core e st pc t

/-! ## What a packet leaves -/

/-- A queue whose packet has started (R209). -/
def startedQ (s : State) (x : Queue) : Queue :=
  if x.started then x else { x with
    started := true
    startTick := s.frame.toNat }

/-- The machine with the packet of a queue started. -/
def beginPacket (s : State) (die q : Nat) : State := modQueue s die q (startedQ s)

/-- Executing the packet `i` of the queue `q` of `die` completes it: `s2` is the machine after its effect, and the queue's
head passes its `n` words (R209). -/
def PacketDone (i : Instr) (s : State) (die q : Nat) (s2 : State) (n : Nat) : Prop :=
  exec i s = .next (modQueue s2 die q fun x => { passBehind (clearPacket x) n with prevLaunch := some false })

/-! ## What an entry leaves -/

/-- Executing the entry `i` of the context `n` completes it with a status: `s2` is the machine after its effect; its
status word is written, and the context goes past it (R330, R338). -/
def EntryDone (i : Instr) (s : State) (n : Nat) (s2 : State) (st : Status) : Prop :=
  let c := ctxAt s2 n
  exec i s = .next (passEntry (entryStatus s2 n c.cidx c.cord st (entryLate s2 c)) n)

end Sys2Proof.Safety
end

