-- ==== Sys2Proof/Certificates/Slice0/Obligations.lean ====
section
/-! DEFINITION. The statements of this row. -/
open Sys2Proof Sys2Proof.Machine Sys2Proof.Safety

/-! ## The scalar stream -/

/-- R86: scalar register arithmetic; each writes its result to xd, where xd is not x0, and nothing else.
R87: products and quotients with the edge results of Table 5.2. The FN values without a function trap ILLEGAL_OPCODE. -/
def Obligations.ScalarRegisterArithmetic : Prop :=
  (∀ (s s1 : State) (core : Nat) (tk : Tk) (st : Strand) (xd xa xb : XReg) (a b : DWord),
     Poised s core .S tk s1 st → readX st .S xa = .ok a → readX st .S xb = .ok b →
     let done := fun (i : Instr) (v : DWord) => Completes i s s1 core .S (writeX st .S xd v) s1.grp.next
     done (.add tk xd xa xb) (a + b) ∧
     done (.sub tk xd xa xb) (a - b) ∧
     done (.andR tk xd xa xb) (a &&& b) ∧
     done (.orR tk xd xa xb) (a ||| b) ∧
     done (.xorR tk xd xa xb) (a ^^^ b) ∧
     done (.sll tk xd xa xb) (a <<< (b.toNat % 64)) ∧
     done (.srl tk xd xa xb) (a >>> (b.toNat % 64)) ∧
     done (.sra tk xd xa xb) (a.sshiftRight (b.toNat % 64)) ∧
     done (.slt tk xd xa xb) (if a.toInt < b.toInt then 1 else 0) ∧
     done (.sltu tk xd xa xb) (if a.toNat < b.toNat then 1 else 0) ∧
     done (.minR tk xd xa xb) (if a.toInt ≤ b.toInt then a else b) ∧
     done (.maxR tk xd xa xb) (if a.toInt ≤ b.toInt then b else a) ∧
     done (.minu tk xd xa xb) (if a.toNat ≤ b.toNat then a else b) ∧
     done (.maxu tk xd xa xb) (if a.toNat ≤ b.toNat then b else a)) ∧
  (∀ (s s1 : State) (core : Nat) (tk : Tk) (st : Strand) (xd xa xb : XReg) (a b : DWord),
     Poised s core .S tk s1 st → readX st .S xa = .ok a → readX st .S xb = .ok b →
     let done := fun (i : Instr) (v : DWord) => Completes i s s1 core .S (writeX st .S xd v) s1.grp.next
     done (.mul tk xd xa xb) (a * b) ∧
     done (.mulh tk xd xa xb) (BitVec.ofInt 64 (a.toInt * b.toInt / 2 ^ 64)) ∧
     done (.mulhu tk xd xa xb) (BitVec.ofNat 64 (a.toNat * b.toNat / 2 ^ 64)) ∧
     done (.mulhsu tk xd xa xb) (BitVec.ofInt 64 (a.toInt * (b.toNat : Int) / 2 ^ 64)) ∧
     done (.div tk xd xa xb) (if b = 0 then BitVec.allOnes 64 else BitVec.ofInt 64 (a.toInt.tdiv b.toInt)) ∧
     done (.divu tk xd xa xb) (if b = 0 then BitVec.allOnes 64 else BitVec.ofNat 64 (a.toNat / b.toNat)) ∧
     done (.rem tk xd xa xb) (if b = 0 then a else BitVec.ofInt 64 (a.toInt.tmod b.toInt)) ∧
     done (.remu tk xd xa xb) (if b = 0 then a else BitVec.ofNat 64 (a.toNat % b.toNat))) ∧
  (∀ w w2 : Word, w.toNat / 2 ^ 20 % 64 = 0x01 → 14 ≤ w.toNat % 32 → decodeEngine .S w w2 = .opcode) ∧
  (∀ w w2 : Word, w.toNat / 2 ^ 20 % 64 = 0x02 → 8 ≤ w.toNat % 32 → decodeEngine .S w w2 = .opcode)

/-- R88, R29: the immediate forms; the immediate is the field sign-extended, or under IMMX the 26 upper bits before it; the
shift group's other selectors trap ILLEGAL_OPCODE, and it takes no IMMX. -/
def Obligations.ScalarImmediates : Prop :=
  (∀ (s s1 : State) (core : Nat) (tk : Tk) (st : Strand) (xd xa : XReg) (imm : BitVec 10) (n : BitVec 6) (l : BitVec 15)
    (a : DWord), Poised s core .S tk s1 st → readX st .S xa = .ok a →
    let done := fun (i : Instr) (v : DWord) => Completes i s s1 core .S (writeX st .S xd v) s1.grp.next
    let v : DWord := match s.pfx.immx with
      | none => imm.signExtend 64
      | some u => (u ++ imm).signExtend 64
    let u : DWord := match s.pfx.immx with
      | none => l.signExtend 64 <<< 24
      | some u => (u ++ l).signExtend 64 <<< 24
    done (.addi tk xd xa imm) (a + v) ∧
    done (.andi tk xd xa imm) (a &&& v) ∧
    done (.ori tk xd xa imm) (a ||| v) ∧
    done (.xori tk xd xa imm) (a ^^^ v) ∧
    done (.slti tk xd xa imm) (if a.toInt < v.toInt then 1 else 0) ∧
    done (.sltiu tk xd xa imm) (if a.toNat < v.toNat then 1 else 0) ∧
    done (.slli tk xd xa n) (a <<< n.toNat) ∧
    done (.srli tk xd xa n) (a >>> n.toNat) ∧
    done (.srai tk xd xa n) (a.sshiftRight n.toNat) ∧
    done (.lui tk xd l) u) ∧
  (∀ w w2 : Word, w.toNat / 2 ^ 20 % 64 = 0x07 → 3 ≤ w.toNat / 2 ^ 6 % 16 → decodeEngine .S w w2 = .opcode) ∧
  (∀ u : BitVec 26, acceptsPrefix (accept .S 0x07) (.immx u) = false)

/-- R90: capabilities derived from others: a copy, one of fewer rights, and one of a narrower window. -/
def Obligations.CapabilityDerivation : Prop :=
  ∀ (s s1 : State) (core : Nat) (tk : Tk) (st : Strand) (xa xb : XReg) (cd ca : CReg) (c : CapBits) (a b : DWord),
    Poised s core .S tk s1 st → readC st ca = .ok c → readX st .S xa = .ok a → readX st .S xb = .ok b →
    let done := fun (i : Instr) (v : CapBits) => Completes i s s1 core .S (writeC st cd v) s1.grp.next
    done (.cmov tk cd ca) c ∧
    (hasRight c .d = true →
      done (.crt tk cd ca xa) (setBits c 80 8 (c.extractLsb' 80 8 &&& a.setWidth 8 &&& 0xFE#8)) ∧
      (0 ≤ a.toInt → a.toInt + b.toNat ≤ capLen c →
        done (.cwin tk cd ca xa xb)
          (setBits (setBits c 0 40 (BitVec.ofNat 40 (capBase c + a.toNat))) 40 40 (b.setWidth 40))))

/-- R92: a load whose address passes its checks and whose read the memory port answers writes the bytes, extended, to
xd. Which of the values that R281 allows a read gives is a free choice of the model (log entry 86).
R92, R398: a store whose address passes its checks and whose write the memory port accepts goes on; the accepted
write is the strand's. -/
def Obligations.LoadsAndStores : Prop :=
  (∀ (s s1 s2 : State) (core : Nat) (tk : Tk) (st st2 : Strand) (xd xo : XReg) (cn : CReg) (imm : BitVec 6) (o : DWord)
     (c : CapBits) (a : Nat) (l : List Byte), Poised s core .S tk s1 st → readX st .S xo = .ok o →
     strandAt s2 core = some st2 →
     let load := fun (i : Instr) (size : Nat) (sgn : Bool) =>
       smAddr s1 st cn o imm size .r = .ok (c, a) →
       portRead s1 core st (readerOf st .S) (capObj c) (capOgen c) a size = .ok l s2 →
       Completes i s s2 core .S (writeX st2 .S xd (extend sgn size l)) s2.grp.next
     load (.ldb tk xd cn xo imm) 1 true ∧ load (.ldbu tk xd cn xo imm) 1 false ∧
     load (.ldh tk xd cn xo imm) 2 true ∧ load (.ldhu tk xd cn xo imm) 2 false ∧
     load (.ldw tk xd cn xo imm) 4 true ∧ load (.ldwu tk xd cn xo imm) 4 false ∧
     load (.ldd tk xd cn xo imm) 8 false) ∧
  (∀ (s s1 s2 : State) (core : Nat) (tk : Tk) (st st2 : Strand) (xs xo : XReg) (cn : CReg) (imm : BitVec 6) (v o : DWord)
     (c : CapBits) (a : Nat), Poised s core .S tk s1 st → readX st .S xs = .ok v → readX st .S xo = .ok o →
     strandAt s2 core = some st2 →
     let store := fun (i : Instr) (size : Nat) =>
       smAddr s1 st cn o imm size .w = .ok (c, a) →
       portWrite (setStrand s1 core (beginStore st .S).2) core .S none false (beginStore st .S).1 (capObj c)
         (capOgen c) a (toBytes size v) = (.ok (), s2) →
       Completes i s s2 core .S st2 s2.grp.next
     store (.stb tk xs cn xo imm) 1 ∧ store (.sth tk xs cn xo imm) 2 ∧ store (.stw tk xs cn xo imm) 4 ∧
     store (.std tk xs cn xo imm) 8)

/-- R83, R94: loads and stores of the strand's scratchpad and of the crew window. -/
def Obligations.Scratchpad : Prop :=
  ∀ (s s1 : State) (core : Nat) (tk : Tk) (st : Strand) (xd xa : XReg) (sz : BitVec 2) (sgn : Bool) (imm : BitVec 7)
    (v a : DWord) (l : List Byte) (o : Nat) (w : Nat × Gen × Bool × Nat),
    Poised s core .S tk s1 st → readX st .S xa = .ok a →
    let n := 2 ^ sz.toNat
    let addr := spAddr s1 a imm n
    (spCheck addr.toNat n = .ok o →
      (spRead s1 core st.cgen st.gtrap o n = .ok l →
        Completes (.spld tk xd xa sz sgn imm) s s1 core .S (writeX st .S xd (extend sgn n l)) s1.grp.next) ∧
      (readX st .S xd = .ok v →
        Completes (.spst tk xd xa sz imm) s (spWrite s1 core st.cgen o (toBytes n v)) core .S st s1.grp.next)) ∧
    (cwCheck s1 st addr n = .ok w →
      (spRead s1 w.1 w.2.1 w.2.2.1 w.2.2.2 n = .ok l →
        Completes (.rspld tk xd xa sz sgn imm) s s1 core .S (writeX { st with xsync := false } .S xd (extend sgn n l))
          s1.grp.next) ∧
      (readX st .S xd = .ok v →
        Completes (.rspst tk xd xa sz imm) s (spWrite s1 w.1 w.2.1 w.2.2.2 (toBytes n v)) core .S
          { st with xsync := false } s1.grp.next))

/-- R96: an atomic on global memory: the old value, sign-extended, in xd; the new value at its place; a cas that fails
writes nothing.
R95: an atomic on scratchpad or the crew window: the old value, sign-extended, in xd; the new value in place; a cas
that fails writes nothing. -/
def Obligations.AtomicOperations : Prop :=
  (∀ (s s1 s2 s3 : State) (core : Nat) (tk : Tk) (st : Strand) (xd xa xb : XReg) (cn : CReg) (w : Bool) (a b d : DWord)
     (c : CapBits) (p : Nat) (pl : Place) (old : List Byte),
     Poised s core .S tk s1 st → readX st .S xa = .ok a → readX st .S xb = .ok b →
     let n := if w then 8 else 4
     capCheck st cn a n .a = .ok (c, p) → p % n = 0 →
     portRead s1 core st { readerOf st .S with rmw := true } (capObj c) (capOgen c) p n = .ok old s2 →
     translateIn s2 true (dieOf core) (spaceOf s2 st) (capObj c) (capOgen c) p n = (.ok pl, s3) → pl.zmask = none →
     let o := extend true n old
     let amo := fun (i : Instr) (k : AmoKind) => ∀ (l : List Byte) (s4 : State) (st4 : Strand),
       amoBytes k n old b d = some l →
       atomicWrite s3 st.sid pl (maskOf (pl.pa % 64) l.length) (granPut 0#512 (pl.pa % 64) l) = (true, s4) →
       strandAt s4 core = some st4 → Completes i s s4 core .S (writeX st4 .S xd o) s4.grp.next
     amo (.amoadd tk xd cn xa xb w) .add ∧ amo (.amomin tk xd cn xa xb w) .min ∧ amo (.amomax tk xd cn xa xb w) .max ∧
     amo (.amoand tk xd cn xa xb w) .band ∧ amo (.amoor tk xd cn xa xb w) .bor ∧
     amo (.amoxor tk xd cn xa xb w) .xor ∧ amo (.amoswap tk xd cn xa xb w) .swap ∧
     (readX st .S xd = .ok d →
       amo (.amocas tk xd cn xa xb w) .cas ∧
       (amoBytes .cas n old b d = none → ∀ st3, strandAt s3 core = some st3 →
         Completes (.amocas tk xd cn xa xb w) s s3 core .S (writeX st3 .S xd o) s3.grp.next))) ∧
  (∀ (s s1 : State) (core : Nat) (tk : Tk) (st : Strand) (xd xa xb : XReg) (w cw : Bool) (a b d : DWord)
     (z : Nat × Gen × Bool × Nat) (old : List Byte),
     Poised s core .S tk s1 st → readX st .S xa = .ok a → readX st .S xb = .ok b →
     let n := if w then 8 else 4
     (if cw then cwCheck s1 st a n = .ok z else spCheck a.toNat n = .ok z.2.2.2 ∧ z = (core, st.cgen, st.gtrap, z.2.2.2)) →
     spRead s1 z.1 z.2.1 z.2.2.1 z.2.2.2 n = .ok old →
     let o := extend true n old
     let st' := writeX { st with xsync := st.xsync && !cw } .S xd o
     let amo := fun (i : Instr) (k : AmoKind) => ∀ l, amoBytes k n old b d = some l →
       Completes i s (spWrite s1 z.1 z.2.1 z.2.2.2 l) core .S st' s1.grp.next
     amo (.spamoAdd tk xd xa xb w cw) .add ∧ amo (.spamoMin tk xd xa xb w cw) .min ∧
     amo (.spamoMax tk xd xa xb w cw) .max ∧ amo (.spamoAnd tk xd xa xb w cw) .band ∧
     amo (.spamoOr tk xd xa xb w cw) .bor ∧ amo (.spamoXor tk xd xa xb w cw) .xor ∧
     amo (.spamoSwap tk xd xa xb w cw) .swap ∧
     (readX st .S xd = .ok d →
       amo (.spamoCas tk xd xa xb w cw) .cas ∧
       (amoBytes .cas n old b d = none → Completes (.spamoCas tk xd xa xb w cw) s s1 core .S st' s1.grp.next)))

/-- R97, R98, R50: transfers. A branch goes to its checked target or falls through; a jump goes to it, a call with the
address after it in x31. -/
def Obligations.ScalarTransfers : Prop :=
  ∀ (s s1 : State) (core : Nat) (tk : Tk) (st : Strand) (xa xb : XReg) (a b : DWord) (off : BitVec 10)
    (joff : BitVec 20) (t jt rt : BitVec 32),
    Poised s core .S tk s1 st → readX st .S xa = .ok a → readX st .S xb = .ok b →
    let branch := fun (i : Instr) (taken : Prop) =>
      (taken → checkRel s1 st .S off = .ok t → Completes i s s1 core .S st t) ∧
      (¬taken → Completes i s s1 core .S st s1.grp.next)
    let link := writeX st .S 31#5 ((s1.grp.addr + 4#32).setWidth 64)
    branch (.beq tk xa xb off) (a = b) ∧ branch (.bne tk xa xb off) (a ≠ b) ∧
    branch (.blt tk xa xb off) (a.toInt < b.toInt) ∧ branch (.bge tk xa xb off) (b.toInt ≤ a.toInt) ∧
    branch (.bltu tk xa xb off) (a.toNat < b.toNat) ∧ branch (.bgeu tk xa xb off) (b.toNat ≤ a.toNat) ∧
    (checkRel s1 st .S joff = .ok jt →
      Completes (.jmp tk joff) s s1 core .S st jt ∧ Completes (.call tk joff) s s1 core .S link jt) ∧
    (checkTarget s1 st .S a.toNat = .ok rt →
      Completes (.jr tk xa) s s1 core .S st rt ∧ Completes (.callr tk xa) s s1 core .S link rt)

/-- R99, R62: tkpop takes one token of each queue of its set, tkpush puts one into each, where nothing else of the
strand waits to push; tkwait goes on once its queue holds n tokens and moves none.
R46, R62: an instruction under a pattern takes one token of each queue of the pop set and puts one into each queue of
the push set, once; the no-operations of the four streams do nothing else.
R46, R62: an instruction one of whose popped queues is empty waits in Token wait, with no token moved and nothing else
changed: instructions of each of the four streams, those of M and C where nothing else keeps them from their tk_pop (R176,
R247). -/
def Obligations.Tokens : Prop :=
  (∀ (s : State) (core : Nat) (st : Strand) (m : BitVec 16) (q n : BitVec 4),
     s.cur = .stream core .S → strandAt s core = some st → Calm st → (streamOf st .S).tr = none →
     (streamOf st .S).popped = false →
     (canPop st m = true → ∃ t st', exec (.tkpop m) s = .next t ∧ Finished s core .S st s.grp.next t ∧
       strandAt t core = some st' ∧
       ∀ k, k < 16 → tkCount st' k + (if m.getLsbD k then 1 else 0) = tkCount st k) ∧
     (canPush st m = true → ∃ t st', exec (.tkpush m) s = .next t ∧ Finished s core .S st s.grp.next t ∧
       strandAt t core = some st' ∧
       ∀ k, k < 16 → tkCount st' k = tkCount st k + (if m.getLsbD k then 1 else 0)) ∧
     (n.toNat ≤ tkCount st q.toNat → ∃ t st', exec (.tkwait q n) s = .next t ∧ Finished s core .S st s.grp.next t ∧
       strandAt t core = some st' ∧ ∀ k, k < 16 → tkCount st' k = tkCount st k)) ∧
  (∀ (s : State) (core : Nat) (st : Strand) (tk : Tk) (e : Engine) (i : Instr),
     (e, i) ∈ [(Engine.S, .snop tk), (.V, .vnop tk), (.M, .mnop tk), (.C, .cnop tk)] →
     s.cur = .stream core e → strandAt s core = some st → Calm st → (streamOf st e).tr = none →
     (streamOf st e).popped = false → patternOk e (patternOf st tk) = true →
     canPop st (popOf (patternOf st tk)) = true → canPush st (pushOf (patternOf st tk)) = true →
     ∃ t st', exec i s = .next t ∧ Finished s core e st s.grp.next t ∧ strandAt t core = some st' ∧
       (streamOf st' e).push = none ∧
       ∀ k, k < 16 → tkCount st' k + (if (popOf (patternOf st tk)).getLsbD k then 1 else 0) =
         tkCount st k + (if (pushOf (patternOf st tk)).getLsbD k then 1 else 0)) ∧
  (∀ (s : State) (core : Nat) (st : Strand) (tk : Tk) (e : Engine) (xd xa xb xo : XReg) (cd cn : CReg) (v va vb : VReg)
     (pd : PReg) (imm : BitVec 6) (off : BitVec 20) (sc : BitVec 3) (bs sz : BitVec 2) (bi : BitVec 16) (tag : BitVec 4)
     (byp ui : Bool) (rg : Rg) (sel : BitVec 9) (fsc : BitVec 4),
     s.cur = .stream core e → strandAt s core = some st → (streamOf st e).popped = false →
     patternOk e (patternOf st tk) = true → canPop st (popOf (patternOf st tk)) = false →
     let waits := fun (i : Instr) => ∃ t st', exec i s = .next t ∧ strandAt t core = some st' ∧ body st' = body st ∧
       st'.toks = st.toks ∧ (streamOf st' e).st = .tokenWait ∧ (streamOf st' e).pc = (streamOf st e).pc ∧ rest t = rest s
     (e = .S → waits (.snop tk) ∧ waits (.add tk xd xa xb) ∧ waits (.ldd tk xd cn xo imm) ∧ waits (.std tk xd cn xo imm) ∧
       waits (.jmp tk off) ∧ waits (.cmov tk cd cn) ∧ waits (.semsig tk xd xa xb) ∧ waits (.acq tk xa sc) ∧
       waits (.rel tk xd xa sc) ∧ waits (.sEnd tk)) ∧
     (e = .V → waits (.vnop tk) ∧ waits (.vadd tk v va vb bs) ∧ waits (.vmov tk v va byp) ∧ waits (.pcnt tk pd xa sz) ∧
       waits (.vld tk v cn xo sz bi tag) ∧ waits (.vst tk v cn xo sz bi) ∧ waits (.vend tk)) ∧
     (e = .M → serialBusy st = false → waits (.mnop tk) ∧
       (matsDone st = true → waits (.mrelease tk rg) ∧ waits (.mcntRd tk xd sel) ∧ waits (.munlease tk))) ∧
     (e = .C → waits (.cnop tk) ∧ waits (.cdisarm tk xa) ∧
       (slotFree st = true → waits (.cpy tk cd cn xa xb ui xo) ∧ waits (.cfill tk xa xb xo ui)) ∧
       (st.copies = [] → waits (.cfence tk fsc) ∧ waits (.cend tk))))

/-- R101, R213: semaphores of the home die. A signal adds once its release has nothing to wait for; a wait whose condition
holds and a read give the value.
R101: a semaphore wait whose condition does not hold stays in Sync wait. That the strand's later reads bound to the semaphore
follow its wait is kept as a view (log entry 86). -/
def Obligations.SemaphoreInstructions : Prop :=
  (∀ (s s1 : State) (core : Nat) (tk : Tk) (st : Strand) (xd xa xb : XReg) (a b : DWord),
     Poised s core .S tk s1 st → readX st .S xa = .ok a → readX st .S xb = .ok b →
     let die := crewDie st.crew
     let n := a.toNat % 4096
     let v := semOf s1 die n
     let st1 := follow s1 st 3 (some (BitVec.ofNat 64 n))
     let done := fun (i : Instr) => Completes i s s1 core .S (writeX st1 .S xd v) s1.grp.next
     (coveredPending st .S 3 (boundIs (BitVec.ofNat 64 n)) = false →
       Completes (.semsig tk xd xa xb) s (semPut s1 die n (v + b)) core .S (writeX st .S xd (v + b)) s1.grp.next) ∧
     (b.toNat ≤ v.toNat → done (.semwaitGe tk xd xa xb)) ∧
     (v = b → done (.semwaitEq tk xd xa xb)) ∧
     (v ≠ b → done (.semwaitNe tk xd xa xb)) ∧
     Completes (.semrd tk xd xa) s s1 core .S (writeX st .S xd v) s1.grp.next) ∧
  (∀ (s s1 : State) (core : Nat) (tk : Tk) (st : Strand) (xd xa xb : XReg) (a b : DWord),
     Poised s core .S tk s1 st → readX st .S xa = .ok a → readX st .S xb = .ok b →
     let v := semOf s1 (crewDie st.crew) (a.toNat % 4096)
     let waits := fun (i : Instr) => ∃ t st', exec i s = .next t ∧ strandAt t core = some st' ∧ body st' = body st ∧
       (streamOf st' .S).st = .syncWait ∧ rest t = rest s1
     (v.toNat < b.toNat → waits (.semwaitGe tk xd xa xb)) ∧ (v ≠ b → waits (.semwaitEq tk xd xa xb)) ∧
     (v = b → waits (.semwaitNe tk xd xa xb)))

/-- R102: a binding of a region to the object that xs names becomes the newest of 16; runbind removes the binding of
exactly the region. -/
def Obligations.Bindings : Prop :=
  ∀ (s s1 : State) (core : Nat) (tk : Tk) (st : Strand) (cn : CReg) (xa xb xs : XReg) (a b n : DWord) (c : CapBits)
    (w : Nat), Poised s core .S tk s1 st → readX st .S xa = .ok a → readX st .S xb = .ok b → readX st .S xs = .ok n →
    bindRegion st cn a b = .ok (c, w) →
    let others := st.binds.filter fun x => !(x.obj == capObj c && x.base == w && x.len == b.toNat)
    let new : Binding := { idx := (beginStore st .S).1, obj := capObj c, base := w, len := b.toNat, name := objName n }
    Completes (.rbind tk cn xa xb xs) s s1 core .S { (beginStore st .S).2 with binds := (new :: others).take 16 } s1.grp.next ∧
    Completes (.runbind tk cn xa xb xs) s s1 core .S { st with binds := others } s1.grp.next

/-- R104, R106: an acquire goes on at once; a release or fence with nothing covered under way goes on, writes the status
of the failures it reports to xd and drops them. R107: a member of a group with no arrival open arrives, which its
launch's phase record shows, and the last arrival completes the phase; a wait whose phase is complete goes on. A strand
arrives at its crew's barrier and waits there, or, as the last, completes the phase; one whose phase is complete goes on
with XSYNC set. That an acquire ends at once and that release and fence wait only for covered stores is the model’s reading
(log entry 42); the views that order the strand's later reads are the model's (log entry 86). -/
def Obligations.Synchronisation : Prop :=
  (∀ (s s1 : State) (core : Nat) (tk : Tk) (st : Strand) (xd xa : XReg) (a : DWord) (sc : BitVec 3),
     Poised s core .S tk s1 st → readX st .S xa = .ok a →
     let p := boundIs (objName a)
     let all := fun (_ : Option DWord) => true
     let done := fun (i : Instr) (q : Option DWord → Bool) (f : Strand → Strand) =>
       Completes i s s1 core .S (writeX (f (reportFailures st .S q).2) .S xd (reportFailures st .S q).1) s1.grp.next
     Completes (.acq tk xa sc) s s1 core .S (follow s1 st sc.toNat (some (objName a))) s1.grp.next ∧
     (coveredPending st .S sc.toNat p = false → done (.rel tk xd xa sc) p id) ∧
     (coveredPending st .S sc.toNat all = false → done (.fence tk xd sc) all fun st => follow s1 st sc.toNat none)) ∧
  (∀ (s s1 : State) (core : Nat) (tk : Tk) (st : Strand) (g : BitVec 8) (c : Crew) (l : Launch),
     Poised s core .S tk s1 st → crewLaunch s st = some (c, l) →
     (groupHas (mapGet 0#128 l.groups g.toNat) c.coord st.rank = true →
       (arrivalOpen s1 st g.toNat = false → coveredPending st .S (groupScope s1 st g.toNat) (fun _ => true) = false →
         Completes (.barrive tk g) s s1 core .S
           { st with groups := mapPut st.groups g.toNat (mapGet (0, []) l.phases (phaseKey c.copy g.toNat)).1 } s1.grp.next ∧
         (let key := phaseKey c.copy g.toNat
          let p := mapGet (0, []) l.phases key
          let arr := p.2 ++ [memberId l.args c.coord st.rank]
          let gone := (mapGet [] l.left key).filter fun m => !arr.contains m
          ∃ t l', exec (.barrive tk g) s = .next t ∧ mapFind t.launches c.launch = some l' ∧
            mapGet (0, []) l'.phases key =
              if groupSize l.args (mapGet 0#128 l.groups g.toNat) ≤ arr.length + gone.length then (p.1 + 1, [])
              else (p.1, arr))) ∧
       (arrivalOpen s1 st g.toNat = false →
         Completes (.bwait tk g) s s1 core .S
           (if (mapFind st.groups g.toNat).isNone then st else follow s1 st (groupScope s1 st g.toNat) none) s1.grp.next)) ∧
     (let on := { follow s1 st 1 none with xsync := true }
      ((streamOf st .S).arrived = true → c.barArr.contains st.rank = false → Completes (.cbar tk) s s1 core .S on s1.grp.next) ∧
      (c.size ≠ 0 → (streamOf st .S).arrived = false → c.barArr.contains st.rank = false →
        coveredPending st .S 1 (fun _ => true) = false →
        let arr := c.barArr ++ [st.rank]
        (barrierMissing s1 st.crew arr = true →
          ∃ t st' c', exec (.cbar tk) s = .next t ∧ strandAt t core = some st' ∧ body st' = body st ∧
            (streamOf st' .S).st = .syncWait ∧ (streamOf st' .S).arrived = true ∧
            crewAt t st.crew = some c' ∧ c'.barArr = arr ∧ c'.barPhase = c.barPhase) ∧
        (barrierMissing s1 st.crew arr = false →
          Completes (.cbar tk) s s1 core .S on s1.grp.next ∧
          ∃ t c', exec (.cbar tk) s = .next t ∧ crewAt t st.crew = some c' ∧ c'.barArr = [] ∧
            c'.barPhase = c.barPhase + 1))))

/-- R73, R110, R111 and Tables 3.6 to 3.9, 9.10: srr reads a system register into xd: what the strand, its core and its
die are, its rounding modes, loop counts, shapes, magnitudes, patterns, the places and token counts of its streams, its copies,
the lull level, and, where the supervisor has enabled it, its space, key domain, policy and the power level. srw writes a
register that software may write, clears what it marks in a W1C field, and is ignored by a read-only one. A safe point with no
pre-emption pending, or inside a handler, goes on; with one, the strand stands at its safe point under the live mask named, once it
has pushed. That the upper half of a value for TKPn is dropped is the model's choice (log entry 87). -/
def Obligations.SystemRegisters : Prop :=
  ∀ (s s1 : State) (core : Nat) (tk : Tk) (st : Strand) (xd : XReg) (lm : BitVec 12) (v : DWord) (n : Nat),
    Poised s core .S tk s1 st →
    let rd := fun (srn : BitVec 12) (v : DWord) =>
      Completes (.srr tk xd srn) s s1 core .S (writeX st .S xd v) s1.grp.next
    let wr := fun (srn : BitVec 12) (st' : Strand) => Completes (.srw tk xd srn) s s1 core .S st' s1.grp.next
    let sys := fun (srn : BitVec 12) (y : SysRegs) => wr srn { st with sys := y }
    (rd 0x000#12 (Config.capsWord s1.caps s1.bulkSize) ∧ rd 0x001#12 (d64 (localCore core)) ∧
      rd 0x002#12 (d64 (dieOf core)) ∧ rd 0x003#12 (st.migrations.setWidth 64) ∧ rd 0x004#12 (st.cgen.setWidth 64) ∧
      rd 0x005#12 (if st.gtrap then 1 else 0) ∧ rd 0x007#12 s1.frame ∧ rd 0x010#12 (st.sys.rmode.setWidth 64) ∧
      rd 0x011#12 (st.sys.vevt.setWidth 64) ∧ rd 0x012#12 (st.sys.rotsz.setWidth 64) ∧
      rd 0x013#12 (st.sys.vrb.setWidth 64) ∧ rd 0x014#12 (st.sys.vlc.setWidth 64) ∧ rd 0x015#12 (st.sys.vec.setWidth 64) ∧
      rd 0x024#12 (st.sys.amaxst.setWidth 64) ∧ rd 0x030#12 (st.sys.uivec.setWidth 64) ∧
      rd 0x031#12 (st.sys.uiepc.setWidth 64) ∧ rd 0x032#12 (st.sys.uistat.setWidth 64) ∧
      rd 0x051#12 ((pcOf st .V).setWidth 64) ∧ rd 0x052#12 ((pcOf st .M).setWidth 64) ∧ rd 0x053#12 ((pcOf st .C).setWidth 64) ∧
      rd 0x040#12 (d64 (tkcnt st)) ∧ rd 0x061#12 (d64 (lullOf s1 (quadOf core))) ∧
      rd 0x066#12 (d64 (st.copies.length * 2 ^ 32 + st.sys.seq.toNat)) ∧
      rd 0x033#12 (d64 st.uipend.length) ∧ rd 0x050#12 (s1.grp.addr.setWidth 64) ∧ rd 0x058#12 st.sys.mupc ∧
      rd 0x059#12 st.sys.mrow ∧ rd 0x060#12 (st.sys.leaseRun.setWidth 64) ∧ rd 0x062#12 (st.sys.mlc.setWidth 64) ∧
      rd 0x063#12 (st.sys.clc.setWidth 64) ∧ rd 0x064#12 (st.sys.bsgA.setWidth 64) ∧ rd 0x065#12 (st.sys.bsgW.setWidth 64) ∧
      rd 0x070#12 st.sys.fenceObj ∧ rd 0x071#12 st.sys.fenceOff ∧
      (∀ c, crewAt s1 st.crew = some c → rd 0x006#12 (d64 ((if c.copyonly then 256 else 0) + c.size * 16 + st.rank)) ∧
        (st.super = true → rd 0x800#12 (d64 c.space) ∧ rd 0x801#12 ((spaceAt s1 c.space).kdom.setWidth 64))) ∧
      (st.super = true → rd 0x802#12 s1.msc.policy ∧ rd 0x803#12 (s1.plvl.setWidth 64)) ∧
      (n < 8 → rd (BitVec.ofNat 12 (0x018 + n)) ((mapGet 0#17 st.sys.tshape n).setWidth 64)) ∧
      (n < 4 → rd (BitVec.ofNat 12 (0x020 + n)) ((mapGet 0#32 st.sys.amax n).setWidth 64)) ∧
      (1 ≤ n → n < 16 → rd (BitVec.ofNat 12 (0x040 + n)) ((mapGet 0#32 st.sys.tkp n).setWidth 64))) ∧
    (readX st .S xd = .ok v →
      (∀ srn : BitVec 12, srn.toNat < 8 ∨ (0x050 ≤ srn.toNat ∧ srn.toNat < 0x054) ∨
        srn ∈ [0x033#12, 0x040#12, 0x058#12, 0x059#12, 0x061#12, 0x066#12, 0x071#12] → wr srn st) ∧
      (v.toNat < 32 →
        let z := rotSize st.sys.rotsz
        sys 0x013#12 { st.sys with vrb := if z = 0 then 0#5 else BitVec.ofNat 5 (v.toNat % z) }) ∧
      (n < 4 → v.toNat ≤ 0x7F800000 →
        sys (BitVec.ofNat 12 (0x020 + n)) { st.sys with amax := mapSet 0#32 st.sys.amax n (v.setWidth 32) }) ∧
      (v.toNat < 2 ^ 32 → v.toNat / 2 ^ 5 % 2 ^ 11 = 0 →
        sys 0x032#12 { st.sys with uistat := (st.sys.uistat &&& 0xFFFFFFFE#32) ||| (v.setWidth 32 &&& 1#32) }) ∧
      (v.toNat / 2 ^ 40 % 2 ^ 23 = 0 →
        let o := if v.getLsbD 63 then st.sys.fenceObj &&& ~~~(1#64 <<< 63) else st.sys.fenceObj
        sys 0x070#12 { st.sys with fenceObj := o }) ∧
      (v.toNat < 32 → 1 ≤ v.toNat % 8 → v.toNat % 8 ≤ 5 → sys 0x010#12 { st.sys with rmode := v.setWidth 5 }) ∧
      (v.toNat < 16 → sys 0x011#12 { st.sys with vevt := st.sys.vevt &&& ~~~v.setWidth 4 } ∧
        sys 0x024#12 { st.sys with amaxst := st.sys.amaxst &&& ~~~v.setWidth 4 }) ∧
      (v.toNat < 4 → wr 0x012#12
        (voidRotating { st with sys := { st.sys with rotsz := v.setWidth 2, vrb := 0 } } (rotSize (v.setWidth 2)))) ∧
      (v.toNat < 2 ^ 32 → sys 0x014#12 { st.sys with vlc := v.setWidth 32 } ∧
        sys 0x015#12 { st.sys with vec := v.setWidth 32 } ∧ sys 0x031#12 { st.sys with uiepc := v.setWidth 32 } ∧
        sys 0x062#12 { st.sys with mlc := v.setWidth 32 } ∧ sys 0x063#12 { st.sys with clc := v.setWidth 32 } ∧
        (v.toNat % 4 = 0 → sys 0x030#12 { st.sys with uivec := v.setWidth 32 })) ∧
      (1 ≤ v.toNat → v.toNat ≤ 256 → sys 0x060#12 { st.sys with leaseRun := v.setWidth 9 }) ∧
      (v.toNat < 16 → v.toNat % 8 ≤ 5 → sys 0x064#12 { st.sys with bsgA := v.setWidth 4 } ∧
        sys 0x065#12 { st.sys with bsgW := v.setWidth 4 }) ∧
      (1 ≤ n → n < 16 →
        sys (BitVec.ofNat 12 (0x040 + n)) { st.sys with tkp := mapSet 0#32 st.sys.tkp n (v.setWidth 32) })) ∧
    (lm.toNat < (liveOf s st).length →
      (preemptPending s1 st = false ∨ st.sys.uistat.getLsbD 1 = true →
        Completes (.safept tk lm) s s1 core .S st s1.grp.next) ∧
      (preemptPending s1 st = true → st.sys.uistat.getLsbD 1 = false → (streamOf st .S).tr = none →
        canPush st (pushOf (patOf st .S tk)) = true →
        ∃ t st', exec (.safept tk lm) s = .next t ∧ Finished s1 core .S st s1.grp.next t ∧ strandAt t core = some st' ∧
          st'.safe = some lm.toNat))

/-- R78, R112: brk and trapu with a handler enter it: UIEPC holds the address after, UISTAT the code, the source (1 brk,
2 trapu) and ACT; uiret leaves it to UIEPC with ACT and RPOP clear. -/
def Obligations.UserTraps : Prop :=
  ∀ (s s1 : State) (core : Nat) (tk : Tk) (st : Strand) (code : BitVec 16) (t : BitVec 32),
    Poised s core .S tk s1 st →
    (st.sys.uistat.getLsbD 1 = false → st.sys.uivec.extractLsb' 2 30 ≠ 0#30 →
      checkTarget s1 st .S st.sys.uivec.toNat = .ok t →
      let enter := fun (src : Nat) =>
        { st with
          uiArrived := false
          uiPat := (streamOf st .S).pat
          sys := { st.sys with
            uiepc := s1.grp.next
            uistat := BitVec.ofNat 32 (code.toNat * 65536 + src * 4 + 2 + (st.sys.uistat.toNat % 2)) } }
      Completes (.brk tk code) s s1 core .S (enter 1) t ∧ Completes (.trapu tk code) s s1 core .S (enter 2) t) ∧
    (st.sys.uistat.getLsbD 1 = true → st.sys.uistat.getLsbD 4 = false →
      checkTarget s1 st .S st.sys.uiepc.toNat = .ok t →
      Completes (.uiret tk) s s1 core .S
        { st with sys := { st.sys with uistat := st.sys.uistat &&& 0xFFFFFFED#32 } } t) ∧
    (st.sys.uistat.getLsbD 1 = true → st.sys.uistat.getLsbD 4 = true →
      checkTarget s1 st .S st.sys.uiepc.toNat = .ok t →
      ∃ t' st', exec (.uiret tk) s = .next t' ∧ strandAt t' core = some st' ∧ rest t' = rest s1 ∧
        body st' = body { st with sys := { st.sys with uistat := st.sys.uistat &&& 0xFFFFFFED#32 } } ∧
        (streamOf st' .S).pc = t ∧ (streamOf st' .S).popped = true)

/-- R13, R28, R29: a prefix latches its fields for the instruction that follows and changes nothing else. -/
def Obligations.PrefixLatch : Prop :=
  ∀ (s : State) (rm : BitVec 3) (sat : Bool) (ftz : BitVec 2) (t : Bool) (pred : PReg) (pneg pen : Bool)
    (fmt : BitVec 4) (lbl : BitVec 10) (u : BitVec 26),
    exec (.arith rm sat ftz t pred pneg pen fmt) s = .next { s with
      pfx := { arith := some ⟨rm, sat, ftz, t, pred, pneg, pen, fmt⟩, label := s.pfx.label, immx := s.pfx.immx } } ∧
    exec (.label lbl) s = .next { s with
      pfx := { arith := s.pfx.arith, label := some lbl, immx := s.pfx.immx } } ∧
    exec (.immx u) s = .next { s with
      pfx := { arith := s.pfx.arith, label := s.pfx.label, immx := some u } }

/-- R61, R112, R144, R206, R265: end, vend, mend and cend end their stream once their push is performed, where another
stream of the strand goes on. -/
def Obligations.StreamEnds : Prop :=
  ∀ (s s1 : State) (core : Nat) (tk : Tk) (st : Strand) (e f : Engine), e ≠ f → Poised s core e tk s1 st →
    (streamOf st f).st ≠ .ended → (streamOf st f).push = none → (streamOf st e).tr = none → st.copyPush = [] → st.mats = [] →
    canPush st (pushOf (patOf st e tk)) = true →
    let ends := fun (i : Instr) => ∃ t st', exec i s = .next t ∧ strandAt t core = some st' ∧ body st' = body st ∧
      (streamOf st' e).st = .ended ∧ (streamOf st' e).pc = s1.grp.next
    (e = .S → needsXsync s1 st = false ∨ st.xsync = true → ends (.sEnd tk)) ∧
    (e = .V → ends (.vend tk)) ∧
    (e = .M → MatsDone s core → ends (.mend tk)) ∧
    (e = .C → ends (.cend tk))

/-- R109, R231, R233, R234: what a page instruction answers in xd: 2 of an object that is not sparse, 1 of a page in the
state it asks for, 3 with an empty pool, 0 where it commits a page with a frame of the pool or frees one, and of pgquery the
page's state: committed, sparse, and the number of granules written. A freed page is uncommitted, in no translation cache,
and its frame is on its way to the pool. -/
def Obligations.PageInstructions : Prop :=
  ∀ (s s1 s2 : State) (core : Nat) (tk : Tk) (st st2 : Strand) (xd xo : XReg) (cn : CReg) (o : DWord) (c : CapBits)
    (a : Nat) (i : PageInfo), Poised s core .S tk s1 st → readX st .S xo = .ok o →
    let checked := fun (rt : Right) => capCheck st cn o 8192 rt = .ok (c, a) ∧ a % 8192 = 0 ∧
      pageLookup s1 core st (capObj c) (capOgen c) a = (.ok i, s2) ∧ strandAt s2 core = some st2
    let done := fun (x : Instr) (v : DWord) => Completes x s s2 core .S (writeX st2 .S xd v) s2.grp.next
    (checked .w → oeKind i.e ≠ 2 → done (.pgcommit tk xd cn xo) 2 ∧ done (.pgfree tk xd cn xo) 2) ∧
    (checked .w → oeKind i.e = 2 → peC i.pe = true → done (.pgcommit tk xd cn xo) 1) ∧
    (checked .w → oeKind i.e = 2 → peC i.pe = false → done (.pgfree tk xd cn xo) 1 ∧
      ∀ (f : Nat) (r : List Nat) (st3 : Strand), (dieAt s2 (oeLoc i.e)).pool = f :: r →
        let w1 := physWrite s2 (dieOf core) (oeSide i.e + 64 * i.idx) (List.replicate 64 0#8)
        let w2 := physWrite w1.2 (dieOf core) (oeBase i.e + 8 * i.idx) (toBytes 8 (BitVec.ofNat 64 (f * 8192 + 1)))
        w1.1 = true → w2.1 = true → strandAt w2.2 core = some st3 →
        Completes (.pgcommit tk xd cn xo) s (modDie w2.2 (oeLoc i.e) fun d => { d with pool := r }) core .S
          (writeX st3 .S xd 0) w2.2.grp.next) ∧
    (checked .w → oeKind i.e = 2 → peC i.pe = false → (dieAt s2 (oeLoc i.e)).pool = [] → done (.pgcommit tk xd cn xo) 3) ∧
    (checked .w → oeKind i.e = 2 → peC i.pe = true →
      (∀ w, w ∈ st.stores → w.obj = capObj c → a ≤ w.off → w.off < a + 8192 → (streamOf st .S).know.of w.stream < w.idx) →
      let w := physWrite s2 (dieOf core) (oeBase i.e + 8 * i.idx) (toBytes 8 (i.pe &&& ~~~1#64))
      let s3 := modDie (dropPage w.2 (spaceOf s2 st) (capObj c) i.idx) (oeLoc i.e) fun d => { d with
        freeing := d.freeing ++ [peFrame i.pe] }
      w.1 = true → ∀ st3, strandAt s3 core = some st3 →
        Completes (.pgfree tk xd cn xo) s s3 core .S (writeX st3 .S xd 0) s3.grp.next) ∧
    (checked .r → oeKind i.e = 0 → done (.pgquery tk xd cn xo) 1) ∧
    (checked .r → oeKind i.e = 1 → done (.pgquery tk xd cn xo) (if peC i.pe then 1 else 0)) ∧
    (∀ (l : List Byte) (s3 : State) (st3 : Strand), checked .r → oeKind i.e = 2 →
      physRead s2 (dieOf core) (oeSide i.e + 64 * i.idx) 16 = (some l, s3) → strandAt s3 core = some st3 →
      Completes (.pgquery tk xd cn xo) s s3 core .S
        (writeX st3 .S xd (d64 ((if peC i.pe then 1 else 0) + 2 + 4 * (bitList 128 (ofBytes 128 l)).length))) s3.grp.next)

/-! ## The vector stream -/

/-- R14, R17, R69, R113, R115, R117, R118, R120: element-wise arithmetic. The sources' agreed format, or the prefix's,
gives width and result format; each active element gets its result, rounded once, and its events go into VEVT. -/
def Obligations.VectorArithmetic : Prop :=
  ∀ (s s1 : State) (core : Nat) (tk : Tk) (st : Strand) (vd va vb vc : VReg) (bs : BitVec 2) (x y z : VSrc)
    (p : Option PBits) (t : Nat), Poised s core .V tk s1 st → predOf s1 st = .ok p →
    let srcs := [(va, bs.getLsbD 0), (vb, bs.getLsbD 1)]
    let k := settings s1 st
    let w := tagW t
    let done := fun (i : Instr) (f : Nat → Nat → Nat → Rnd) (c : VBits) =>
      let r := mapElems p w f 0 (vElems w x.val) (vElems w y.val) (vElems w c)
      Completes i s s1 core .V (raise (putV s1 st vd t w w (4096 / w) p r.1) r.2) s1.grp.next
    (readVs st srcs = .ok [x, y] → arithFmt s1 [x, y] famArith = .ok t →
      done (.vadd tk vd va vb bs) (arith3 t k fun a b _ => exAdd k.rm a b) x.val ∧
      done (.vsub tk vd va vb bs) (arith3 t k fun a b _ => exAdd k.rm a (exNeg b)) x.val ∧
      done (.vmul tk vd va vb bs) (arith3 t k fun a b _ => exMul a b) x.val ∧
      done (.vmin tk vd va vb bs) (arith3 t k fun a b _ => (exPick false a b, false)) x.val ∧
      done (.vmax tk vd va vb bs) (arith3 t k fun a b _ => (exPick true a b, false)) x.val) ∧
    (readVs st (srcs ++ [(vc, false)]) = .ok [x, y, z] → arithFmt s1 [x, y, z] famArith = .ok t →
      done (.vfma tk vd va vb bs vc) (arith3 t k fun a b c =>
        ((exAdd k.rm (exMul a b).1 c).1, (exMul a b).2 || (exAdd k.rm (exMul a b).1 c).2)) z.val)

/-- R35, R118, R120: one-source arithmetic: the sign operations and the seeds. Where log entry 15 leaves a seed open the
value is Config’s, and the statement holds for every one. -/
def Obligations.VectorUnary : Prop :=
  ∀ (s s1 : State) (core : Nat) (tk : Tk) (st : Strand) (vd va : VReg) (byp : Bool) (x : VSrc) (p : Option PBits) (t : Nat),
    Poised s core .V tk s1 st → predOf s1 st = .ok p → readVs st [(va, byp)] = .ok [x] →
    let w := tagW t
    let done := fun (i : Instr) (f : Nat → Rnd) =>
      let r := mapElems p w (fun a _ _ => f a) 0 (vElems w x.val) (vElems w x.val) (vElems w x.val)
      Completes i s s1 core .V (raise (putV s1 st vd t w w (4096 / w) p r.1) r.2) s1.grp.next
    (arithFmt s1 [x] famArith = .ok t →
      done (.vabs tk vd va byp) (signOp false t (settings s1 st)) ∧
      done (.vneg tk vd va byp) (signOp true t (settings s1 st))) ∧
    (arithFmt s1 [x] famSeed = .ok t →
      done (.vexp2 tk vd va byp) (seedOf .exp2 t (settings s1 st)) ∧
      done (.vlog2 tk vd va byp) (seedOf .log2 t (settings s1 st)) ∧
      done (.vrecip tk vd va byp) (seedOf .recip t (settings s1 st)) ∧
      done (.vrsqrt tk vd va byp) (seedOf .rsqrt t (settings s1 st)))

/-- R119, R70: the widening multiply and add: results in the wider format fill k registers from vd on, a multiple of k. -/
def Obligations.VectorWidening : Prop :=
  ∀ (s s1 : State) (core : Nat) (tk : Tk) (st : Strand) (vd va vb : VReg) (x y : VSrc) (p : Option PBits) (t : Nat),
    Poised s core .V tk s1 st → predOf s1 st = .ok p → readVs st [(va, false), (vb, false)] = .ok [x, y] →
    arithFmt s1 [x, y] famWide = .ok t →
    let u := wideTag t
    let k := tagW u / tagW t
    vd.toNat % k = 0 →
    let z := settings s1 st
    let v := fun (x : Nat) => flushEx t z.ftz (valOf t x)
    let done := fun (i : Instr) (f : Ex → Ex → Ex × Bool) =>
      let r := mapElems p (tagW t) (fun a b _ => finishTag u z (f (v a) (v b))) 0 (vElems (tagW t) x.val)
        (vElems (tagW t) y.val) (vElems (tagW t) x.val)
      Completes i s s1 core .V (raise (putWide s1 st vd k u (tagW t) (tagW u) p r.1) r.2) s1.grp.next
    done (.vwmul tk vd va vb) exMul ∧ done (.vwadd tk vd va vb) (exAdd z.rm)

/-- R121, R122, R123, R397: bitwise logic, shifts by the element's count mod w, selection by a predicate, and moves. That vsel
reads a void source beside one of lns6 as bytes 0x00 is the model's choice (log entry 87). -/
def Obligations.VectorLogic : Prop :=
  ∀ (s s1 : State) (core : Nat) (tk : Tk) (st : Strand) (vd va vb : VReg) (bs : BitVec 2) (byp : Bool) (pr : PReg)
    (x y : VSrc) (p : Option PBits) (q : PBits) (t : Nat), Poised s core .V tk s1 st → predOf s1 st = .ok p →
    let put := fun (i : Instr) (tag w : Nat) (v : VBits) =>
      Completes i s s1 core .V (putWhole s1 st vd tag w p v) s1.grp.next
    let a := x.fmt.toNat
    let b := y.fmt.toNat
    (readVs st [(va, bs.getLsbD 0), (vb, bs.getLsbD 1)] = .ok [x, y] →
      let u := tagOr s1 st vd p a b
      let tag := if a = 15 ∧ b = 15 then u else (agree [a, b]).getD 14
      put (.vand tk vd va vb bs) tag (tagW u) (x.val &&& y.val) ∧
      put (.vor tk vd va vb bs) tag (tagW u) (x.val ||| y.val) ∧
      put (.vxor tk vd va vb bs) tag (tagW u) (x.val ^^^ y.val)) ∧
    (readV st va = .ok x → readV st vb = .ok y →
      (x.fmt ≠ 15#4 → y.fmt = 15#4 ∨ tagW b = tagW a →
        let w := tagW a
        let sh := fun (f : Nat → Nat → Nat) =>
          vPack w ((vElems w x.val).zipWith (fun e n => f e (n % w)) (vElems w y.val))
        put (.vshiftL tk vd va vb) a w (sh fun e n => e <<< n % 2 ^ w) ∧
        put (.vshiftR tk vd va vb) a w (sh fun e n => e >>> n) ∧
        put (.vshiftA tk vd va vb) a w (sh fun e n => wrapInt w (intVal true w e / 2 ^ n))) ∧
      (readP st pr = .ok q → agree [a, b] = some t →
        let w := tagW t
        let m := vPack w ((List.range (4096 / w)).map fun j => if q.getLsbD (j * (w / 4)) then 2 ^ w - 1 else 0)
        put (.vsel tk vd va vb pr) t w ((x.val &&& m) ||| (y.val &&& ~~~m)))) ∧
    (readVs st [(va, byp)] = .ok [x] →
      let u := tagOr s1 st vd p a 15
      put (.vmov tk vd va byp) u (tagW u) (vPack (tagW u) (vElems (tagW u) x.val)) ∧
      put (.vrev tk vd va byp) u (tagW u) (vPack (tagW u) (vElems (tagW u) x.val).reverse))

/-- R124: comparisons write a whole predicate, 0 for an inactive element; NaN compares unequal.
R126: pwhile sets the elements below a count and clears the others; pcnt counts the elements that are set. -/
def Obligations.VectorCompareAndCount : Prop :=
  (∀ (s s1 : State) (core : Nat) (tk : Tk) (st : Strand) (pd : PReg) (va vb : VReg) (x y : VSrc) (p : Option PBits) (t : Nat),
     Poised s core .V tk s1 st → predOf s1 st = .ok p → readVs st [(va, false), (vb, false)] = .ok [x, y] →
     arithFmt s1 [x, y] famArith = .ok t →
     let v := fun (e : Nat) => flushEx t (settings s1 st).ftz (valOf t e)
     let w := tagW t
     let done := fun (i : Instr) (c : Cmp) =>
       let r := mapElems p w (fun a b _ => { enc := if (cmpEx c (v a) (v b)).1 then 1 else 0, ev := (cmpEx c (v a) (v b)).2 })
         0 (vElems w x.val) (vElems w y.val) (vElems w x.val)
       Completes i s s1 core .V (raise (writeP st pd (pPack w (r.1.map (· == 1)))) r.2) s1.grp.next
     done (.vcmpEq tk pd va vb) .eq ∧ done (.vcmpLt tk pd va vb) .lt ∧ done (.vcmpLe tk pd va vb) .le ∧
     done (.vcmpNe tk pd va vb) .ne) ∧
  (∀ (s s1 : State) (core : Nat) (tk : Tk) (st : Strand) (pd pa : PReg) (xr : XReg) (sz : BitVec 2) (a : PBits)
     (n : DWord), Poised s core .V tk s1 st → readP st pa = .ok a → readX st .V xr = .ok n →
     let w := 4 * 2 ^ sz.toNat
     Completes (.pwhile tk pd xr sz) s s1 core .V
       (writeP st pd (pPack w ((List.range (4096 / w)).map fun j => decide (j < n.toNat)))) s1.grp.next ∧
     Completes (.pcnt tk pa xr sz) s s1 core .V
       (writeX st .V xr (BitVec.ofNat 64 ((List.range (4096 / w)).filter fun j => a.getLsbD (j * (w / 4))).length)) s1.grp.next)

/-- R19, R20, R50, R127: branches on a predicate, jumps, and the loop branch: VLC, then VEC counts down and the registers
rotate; with both 0 it falls through. -/
def Obligations.VectorTransfers : Prop :=
  ∀ (s s1 : State) (core : Nat) (tk : Tk) (st : Strand) (pr : PReg) (b : PBits) (off : BitVec 13) (joff : BitVec 20)
    (t jt : BitVec 32), Poised s core .V tk s1 st → readP st pr = .ok b →
    let branch := fun (i : Instr) (taken : Prop) =>
      (taken → checkRel s1 st .V off = .ok t → Completes i s s1 core .V st t) ∧
      (¬taken → Completes i s s1 core .V st s1.grp.next)
    branch (.vbrAny tk pr off) (b ≠ 0#1024) ∧ branch (.vbrAll tk pr off) (b = BitVec.allOnes 1024) ∧
    branch (.vbrNone tk pr off) (b = 0#1024) ∧
    Completes (.vnop tk) s s1 core .V st s1.grp.next ∧
    (checkRel s1 st .V joff = .ok jt →
      Completes (.vjmp tk joff) s s1 core .V st jt ∧
      (st.sys.vlc ≠ 0 → Completes (.vloop tk joff) s s1 core .V
        (rotStage { st with sys := { st.sys with vlc := st.sys.vlc - 1 } } true) jt) ∧
      (st.sys.vlc = 0 → st.sys.vec ≠ 0 → Completes (.vloop tk joff) s s1 core .V
        (rotStage { st with sys := { st.sys with vec := st.sys.vec - 1 } } false) jt)) ∧
    (st.sys.vlc = 0 → st.sys.vec = 0 → Completes (.vloop tk joff) s s1 core .V st s1.grp.next)

/-- R18, R128 to R131: conversions with and without the magnitude register, casts, and moves between scalars and
vectors. That vins with an index out of range writes nothing is the model’s reading (log entry 44). -/
def Obligations.VectorConversions : Prop :=
  ∀ (s s1 : State) (core : Nat) (tk : Tk) (st : Strand) (vd va : VReg) (xa xb : XReg) (tag : BitVec 4) (n : BitVec 2)
    (x : VSrc) (p : Option PBits) (a b : DWord), Poised s core .V tk s1 st → predOf s1 st = .ok p →
    let put := fun (i : Instr) (v : VBits) =>
      Completes i s s1 core .V (putWhole s1 st vd tag.toNat (tagW tag.toNat) p v) s1.grp.next
    let w := tagW tag.toNat
    (readV st va = .ok x →
      put (.vcast tk vd va tag) x.val ∧
      (let t := if fmtOver s1 ≠ 0 then fmtOver s1 else tag.toNat
       let f := x.fmt.toNat
       let k := tagW t / tagW f
       cvtOk f t = true → (1 < k → vd.toNat % k = 0) →
       let l := vElems (tagW f) x.val
       let r := mapElems p (tagW f) (fun e _ _ => convert f t (settings s1 st) e) 0 l l l
       let st1 := if 1 < k then putWide s1 st vd k t (tagW f) (tagW t) p r.1
         else putV s1 st vd t (tagW f) (tagW t) l.length p r.1
       Completes (.vcvt tk vd va tag) s s1 core .V (raise st1 r.2) s1.grp.next ∧
       Completes (.vcvtAmax tk vd va tag n) s s1 core .V (raise (mergeAmax st1 n.toNat (amaxOf f p l)) r.2) s1.grp.next) ∧
      (readX st .V xb = .ok b →
        let e := (vElems (tagW x.fmt.toNat) x.val).getD b.toNat 0
        Completes (.vext tk va xa xb) s s1 core .V
          (writeX st .V xa (if intOf x.fmt.toNat = some true then BitVec.ofInt 64 (intVal true (tagW x.fmt.toNat) e)
            else BitVec.ofNat 64 e)) s1.grp.next)) ∧
    (readX st .V xa = .ok a → readX st .V xb = .ok b →
      put (.vsplat tk vd xa tag) (vPack w (List.replicate (4096 / w) (a.toNat % 2 ^ w))) ∧
      put (.viota tk vd xa xb tag) (vPack w ((List.range (4096 / w)).map fun j => (a.toNat + j * b.toNat) % 2 ^ w)) ∧
      (transient s1 = true ∨ (vecReg st vd).gen ≠ st.cgen ∨ (vecReg st vd).fmt = tag →
        (4096 / w ≤ b.toNat → Completes (.vins tk vd xa xb tag) s s1 core .V st s1.grp.next) ∧
        (b.toNat < 4096 / w →
          let hit := isActive p w b.toNat
          let at_ := fun (v : Nat) => if hit then BitVec.ofNat 4096 (v <<< (b.toNat * w)) else 0#4096
          Completes (.vins tk vd xa xb tag) s s1 core .V
            (writeV s1 st (rotV st vd.toNat) tag.toNat (at_ (a.toNat % 2 ^ w)) (at_ (2 ^ w - 1)) true) s1.grp.next)))

/-- R132, R133: reductions put one result in element 0; scans put each prefix in place. The order in which nodes of
vmin, vmax and vred round is the model’s reading (log entry 43). -/
def Obligations.ReductionsAndScans : Prop :=
  ∀ (s s1 : State) (core : Nat) (tk : Tk) (st : Strand) (vd va : VReg) (byp : Bool) (x : VSrc) (p : Option PBits) (t : Nat),
    Poised s core .V tk s1 st → predOf s1 st = .ok p → readVs st [(va, byp)] = .ok [x] →
    let z := settings s1 st
    let w := tagW t
    let e := vElems w x.val
    let red := fun (i : Instr) (k : Red) =>
      let r := reduce k t z p e
      Completes i s s1 core .V (raise (putV s1 st vd r.1 w (tagW r.1) 0 none [r.2.enc]) r.2.ev) s1.grp.next
    (arithFmt s1 [x] famArith = .ok t →
      red (.vredSum tk vd va byp) .sum ∧ red (.vredMax tk vd va byp) .max ∧ red (.vredMin tk vd va byp) .min ∧
      red (.vredAmax tk vd va byp) .amax ∧
      (let r := scan (pickTag t true z) p w 0 none (e.map (srcElem t z))
       Completes (.vscanMax tk vd va byp) s s1 core .V (raise (putV s1 st vd t w w e.length p r.1) r.2) s1.grp.next)) ∧
    (arithFmt s1 [x] famScan = .ok t → (1 < 32 / w → vd.toNat % (32 / w) = 0) →
      let flt := (fltOf t).isSome
      let leaf := e.map fun v => if flt then toF32 t z v else wrapInt 32 (intVal true w v)
      let r := scan (if flt then sumF32 z else sumI32 z) p w 0 none leaf
      let tag := if flt then 7 else 6
      let st1 := if 1 < 32 / w then putWide s1 st vd (32 / w) tag w 32 p r.1 else putV s1 st vd tag w 32 e.length p r.1
      Completes (.vscanSum tk vd va byp) s s1 core .V (raise st1 r.2) s1.grp.next)

/-- R134, R135, R397: permutes of elements. -/
def Obligations.VectorPermutes : Prop :=
  ∀ (s s1 : State) (core : Nat) (tk : Tk) (st : Strand) (vd va vb : VReg) (x y : VSrc) (p : Option PBits),
    Poised s core .V tk s1 st → predOf s1 st = .ok p → readV st va = .ok x → readV st vb = .ok y →
    (let t := tagOr s1 st vd p x.fmt.toNat 15
     let w := tagW t
     Completes (.vperm tk vd va vb) s s1 core .V
       (putWhole s1 st vd t w p (vPack w ((vElems w y.val).map fun i => (vElems w x.val).getD i 0))) s1.grp.next) ∧
    (x.fmt = 15#4 ∨ y.fmt = 15#4 ∨ tagW x.fmt.toNat = tagW y.fmt.toNat →
      let t := tagOr s1 st vd p x.fmt.toNat y.fmt.toNat
      let w := tagW t
      let n := 4096 / w
      let a := vElems w x.val
      let b := vElems w y.val
      let put := fun (i : Instr) (l : List Nat) =>
        Completes i s s1 core .V (putWhole s1 st vd t w p (vPack w l)) s1.grp.next
      put (.vslideUp tk vd va vb) (b.getD (n - 1) 0 :: a.take (n - 1)) ∧
      put (.vslideDn tk vd va vb) (a.drop 1 ++ [b.headD 0]) ∧
      put (.vzip tk vd va vb) (interleave (a.take (n / 2)) (b.take (n / 2))) ∧
      put (.vunzip tk vd va vb) (evens a ++ evens b))

/-- R136 to R138: vector loads and stores. A load whose active elements pass their checks and are read fills their
places; a store hands each active element to the memory port; the scratchpad forms move whole registers.
R138: vspld reads 512 bytes of scratchpad into vd; vspst writes the granules that hold an active element. -/
def Obligations.VectorMemoryAndScratchpad : Prop :=
  (∀ (s s1 s2 : State) (core : Nat) (tk : Tk) (st st2 : Strand) (v vi : VReg) (cn : CReg) (xo xs : XReg) (e : BitVec 2)
     (imm : BitVec 16) (tag : BitVec 4) (x : VSrc) (c : CapBits) (p : Option PBits) (l : List Piece) (b : List (List Byte)),
     Poised s core .V tk s1 st → strandAt s2 core = some st2 →
     let n := 2 ^ e.toNat
     let load := fun (i : Instr) (m : VMode) =>
       vmPieces s1 st cn xo e imm m .r = .ok (c, p, l) →
       readPieces s1 core st (readerOf st .V) (capObj c) (capOgen c) l = .ok b s2 →
       Completes i s s2 core .V
         (putV s2 st2 v tag.toNat (8 * n) (8 * n) (512 / n) p (placeElems (512 / n) (l.zip b))) s2.grp.next
     let store := fun (i : Instr) (m : VMode) =>
       readV st v = .ok x → vmPieces s1 st cn xo e imm m .w = .ok (c, p, l) →
       writePieces (setStrand s1 core (beginStore st .V).2) core .V none (granAtomic m n l) (beginStore st .V).1 (capObj c)
         (capOgen c) (l.map fun q => (q, toBytes n (x.val >>> (8 * n * q.tag)))) = (.ok (), s2) →
       Completes i s s2 core .V st2 s2.grp.next
     load (.vld tk v cn xo e imm tag) .contig ∧ load (.vldS tk v cn xo e imm tag xs) (.strided xs) ∧
     load (.vldX tk v cn xo e imm tag vi) (.indexed vi) ∧
     store (.vst tk v cn xo e imm) .contig ∧ store (.vstS tk v cn xo e imm xs) (.strided xs) ∧
     store (.vstX tk v cn xo e imm vi) (.indexed vi)) ∧
  (∀ (s s1 : State) (core : Nat) (tk : Tk) (st : Strand) (v : VReg) (xa : XReg) (tag : BitVec 4) (imm : BitVec 5) (a : DWord)
     (o : Nat) (p : Option PBits) (x : VSrc) (b : List Byte),
     Poised s core .V tk s1 st → predOf s1 st = .ok p → readX st .V xa = .ok a → vspAddr a imm = .ok o →
     (spGrans s1 core st.cgen st.gtrap o 8 = .ok b →
       Completes (.vspld tk v xa tag imm) s s1 core .V
         (putWhole s1 st v tag.toNat (tagW tag.toNat) p (ofBytes 4096 b)) s1.grp.next) ∧
     (readV st v = .ok x →
       let w := tagW x.fmt.toNat
       let mask := writeMask p w w (4096 / w)
       Completes (.vspst tk v xa imm) s
         (iter 8 s1 fun i s => if mask.extractLsb' (512 * i) 512 = 0#512 then s
           else spWriteBits s core st.cgen (o + 64 * i) (mask.extractLsb' (512 * i) 512) (x.val.extractLsb' (512 * i) 512))
         core .V st s1.grp.next))

/-- R140, R141: a chain of n elements whose descriptor and ranges pass their checks runs its blocks; its events go into
VEVT.
R80, R81, R142, R143: tiles are configured, zeroed, and moved slice by slice and row by row. -/
def Obligations.ChainsAndTiles : Prop :=
  (∀ (s s1 : State) (core : Nat) (tk : Tk) (st : Strand) (xa xb : XReg) (a n : DWord) (g : List Byte) (d : Chain),
     Poised s core .V tk s1 st → readX st .V xa = .ok a → readX st .V xb = .ok n →
     a.toNat % 64 = 0 → a.toNat < 262144 → spGrans s1 core st.cgen st.gtrap a.toNat 1 = .ok g →
     chainDesc (ofBytes 512 g) = .ok d →
     (n = 0 → Completes (.vchain tk xa xb) s s1 core .V st s1.grp.next) ∧
     (n ≠ 0 → chainCheck d n.toNat = .ok () →
       let len := elemBytes n.toNat (tagW d.fin)
       spReadable s1 core st.cgen st.gtrap d.src0 len = true →
       (d.usesSrc1 = true → spReadable s1 core st.cgen st.gtrap d.src1 len = true) →
       let r := chainBlocks ((n.toNat + 127) / 128) d (settingsOf st.sys.rmode d.rm d.sat d.ftz) core st.cgen n.toNat 0 s1 0#4
       ∃ st2, strandAt r.1 core = some st2 ∧ Completes (.vchain tk xa xb) s r.1 core .V (raise st2 r.2) r.1.grp.next)) ∧
  (∀ (s s1 s2 : State) (core : Nat) (tk : Tk) (st st2 : Strand) (t : TReg) (rows cols : BitVec 6) (tag : BitVec 4) (v : VReg)
     (idx : BitVec 6) (sh : Shape) (x : VSrc) (y : TBits) (cn : CReg) (xo xs : XReg) (imm : BitVec 16) (offs : List DWord)
     (c : CapBits) (l : List Nat) (b : List (List Byte)), Poised s core .V tk s1 st → strandAt s2 core = some st2 →
     (s2 = flushTiles s1 core →
       Completes (.tcfg tk t rows cols tag) s s2 core .V (resetTile st2 t.toNat (1#1 ++ tag ++ cols ++ rows)) s2.grp.next ∧
       Completes (.tzero tk t) s s2 core .V (resetTile st2 t.toNat 0#17) s2.grp.next) ∧
     (shapeOf st t = .ok sh →
       let w := tagW sh.tag
       (readV st v = .ok x → x.fmt.toNat = sh.tag ∨ x.fmt = 15#4 →
         let put := fun (i : Instr) (isRow : Bool) (lim : Nat) =>
           (lim ≤ idx.toNat → Completes i s s1 core .V st s1.grp.next) ∧
           (idx.toNat < lim → Completes i s s1 core .V
             (writeTile st t sh.tag w ((sliceElems isRow sh idx.toNat).zip (vElems w x.val))) s1.grp.next)
         put (.trowW tk v t idx) true sh.rows ∧ put (.tcolW tk v t idx) false sh.cols) ∧
       (readTile st t = .ok y →
         let get := fun (i : Instr) (isRow : Bool) (lim : Nat) => Completes i s s1 core .V
           (putWhole s1 st v sh.tag w none (vPack w (if lim ≤ idx.toNat then []
             else (sliceElems isRow sh idx.toNat).map fun k => y.toNat >>> (k * w) % 2 ^ w))) s1.grp.next
         get (.trowR tk v t idx) true sh.rows ∧ get (.tcolR tk v t idx) false sh.cols)) ∧
     (tileOps st t xo xs imm = .ok (sh, offs) →
       (tileRowsSP sh offs = .ok l →
         (l.all (fun a => spReadable s1 core st.cgen st.gtrap a (rowBytes sh)) = true →
           Completes (.tld tk t cn xo xs true imm) s s1 core .V
             (loadTile st t sh (l.flatMap fun a => spBytes s1 core st.cgen a (rowBytes sh))) s1.grp.next) ∧
         (readTile st t = .ok y → Completes (.tst tk t cn xo xs true imm) s
           (((List.range l.length).zip l).foldl (fun s p => spWriteN 18 s core st.cgen p.2 (tileRow sh y p.1)) s1) core .V st
           s1.grp.next)) ∧
       (tileRows st cn sh offs .r = .ok (c, l) →
         readPieces s1 core st (readerOf st .V) (capObj c) (capOgen c) (rowPieces (rowBytes sh) l) = .ok b s2 →
         Completes (.tld tk t cn xo xs false imm) s s2 core .V (loadTile st2 t sh b.flatten) s2.grp.next) ∧
       (readTile st t = .ok y → tileRows st cn sh offs .w = .ok (c, l) →
         writePieces (setStrand s1 core (beginStore st .V).2) core .V none false (beginStore st .V).1 (capObj c) (capOgen c)
           (((List.range l.length).zip l).flatMap fun p => (pieces 18 p.1 p.2 (rowBytes sh)).map fun q =>
             (q, ((tileRow sh y p.1).drop (q.off - p.2)).take q.size)) = (.ok (), s2) →
         Completes (.tst tk t cn xo xs false imm) s s2 core .V st2 s2.grp.next)))

/-! ## The matrix stream -/

/-- R180, R206: the forms that only control the stream: no operation, the loop on MLC, the lease and its end. A lease
that is granted at once, or that has been granted while the instruction waited, completes mlease. How LEASE_TIME is
measured is the model’s choice (log entry 16). -/
def Obligations.MatrixControl : Prop :=
  ∀ (s s1 : State) (core : Nat) (tk : Tk) (st : Strand) (n : BitVec 9) (off : BitVec 20) (p : BitVec 32),
    let done := fun (i : Instr) (s2 : State) (pc : BitVec 32) =>
      ∀ st2, strandAt s2 core = some st2 → Completes i s s2 core .M st2 pc
    (Poised s core .M tk s1 st →
      (NoSerial s core → done (.mnop tk) s1 s1.grp.next) ∧
      (MatsDone s core → done (.munlease tk) (endLease s1 core) s1.grp.next) ∧
      (MatsDone s core → (streamOf st .M).arrived = true → holdsLease s1 core = true →
        done (.mlease tk n) s1 s1.grp.next) ∧
      (MatsDone s core → (streamOf st .M).arrived = false → (streamOf st .M).opnd = none →
        let run := if n = 0#9 then st.sys.leaseRun.toNat else n.toNat
        let s2 := requestArray (modStream (setLatch (endLease s1 core) core { base := run }) core .M fun x => { x with
          arrived := true }) core run
        holdsLease s2 core = true → done (.mlease tk n) s2 s2.grp.next)) ∧
    (Poised s core .M 0#4 s1 st → NoSerial s core →
      (st.sys.mlc = 0#32 → done (.mloop off) s1 s1.grp.next) ∧
      (st.sys.mlc ≠ 0#32 → checkRel s1 st .M off = .ok p →
        done (.mloop off) (modStrand s1 core fun st => { st with sys := { st.sys with mlc := st.sys.mlc - 1 } }) p))

/-- R188, R193, R196: a region is configured or given up, its entries freed with their events kept in REV, its events
read and cleared.
R199: the expert counters, their sum and the saturation marks, read into xd and cleared by selector. -/
def Obligations.RegionsAndCounters : Prop :=
  (∀ (s s1 : State) (core : Nat) (tk : Tk) (st : Strand) (rg : Rg) (xa xb xd : XReg) (pol : Bool) (slog : BitVec 3)
     (spill : BitVec 12) (kind : BitVec 3) (entry : BitVec 5) (a b : DWord) (g : Region),
     Poised s core .M tk s1 st → MatsDone s core → readX st .M xa = .ok a → readX st .M xb = .ok b →
     let doneR := fun (i : Instr) (g : Region) => Completes i s s1 core .M (putRegion st rg g) s1.grp.next
     (b = 0#64 → Completes (.mregion tk rg xa xb pol slog spill) s s1 core .M
       { st with regions := mapErase st.regions rg.toNat } s1.grp.next) ∧
     (b ≠ 0#64 → regionBad s1 core st rg.toNat a.toNat b.toNat slog.toNat (spill.toNat * 64) pol = none →
       let s2 := writeOutRows s1 (quadOf core) a.toNat (b.toNat * 2 ^ slog.toNat)
       ∀ st2, strandAt s2 core = some st2 → Completes (.mregion tk rg xa xb pol slog spill) s s2 core .M
         (putRegion st2 rg { base := a.toNat, rows := b.toNat, slog := slog.toNat, trapPol := pol
                             spill := spill.toNat * 64 }) s2.grp.next) ∧
     (mapFind st.regions rg.toNat = some g →
       doneR (.mrelease tk rg) (iter g.entries g fun e g => freeEntry g e) ∧
       (∀ e, findLabel g (fieldOf a 0 10) = some e → doneR (.mreleaseOne tk rg xa) (freeEntry g e)) ∧
       (findLabel g (fieldOf a 0 10) = none → doneR (.mreleaseOne tk rg xa) g) ∧
       (kind = 0#3 → entry.toNat < g.entries →
         Completes (.mevrd tk xd rg kind entry) s s1 core .M (writeX st .M xd ((g.entry entry.toNat).setWidth 64))
           s1.grp.next ∧
         doneR (.mevclr tk rg kind entry) (g.setEntry entry.toNat (g.entry entry.toNat &&& ~~~0x3C00#32))) ∧
       (kind = 1#3 →
         Completes (.mevrd tk xd rg kind entry) s s1 core .M (writeX st .M xd (g.status.setWidth 64)) s1.grp.next ∧
         doneR (.mevclr tk rg kind entry) { g with status := g.status &&& ~~~0x3F#32 }) ∧
       (kind = 2#3 → doneR (.mevclr tk rg kind entry)
         { iter g.entries g (fun e g => g.setEntry e (g.entry e &&& ~~~0x3C00#32)) with
           status := g.status &&& ~~~0x3F#32 }))) ∧
  (∀ (s s1 : State) (core : Nat) (tk : Tk) (st : Strand) (xd : XReg) (sel : BitVec 9),
     Poised s core .M tk s1 st → MatsDone s core →
     let rd := fun (v : DWord) => Completes (.mcntRd tk xd sel) s s1 core .M (writeX st .M xd v) s1.grp.next
     let clr := fun (st' : Strand) => Completes (.mcntClr tk sel) s s1 core .M st' s1.grp.next
     (sel.toNat < 128 → rd ((mapGet 0#16 st.cnt sel.toNat).setWidth 64) ∧
       clr { st with cnt := mapErase st.cnt sel.toNat }) ∧
     (sel = 0x100#9 → rd (st.hsum.setWidth 64) ∧
       clr { st with
         hsum := 0
         hsumSat := false }) ∧
     (sel = 0x101#9 → rd (d64 ((if st.cntSat then 1 else 0) + if st.hsumSat then 2 else 0)) ∧
       clr { st with cntSat := false }) ∧
     (sel = 0x1FF#9 →
       clr { st with
         cnt := []
         hsum := 0
         cntSat := false
         hsumSat := false }))

/-- R184, R185: a plane is loaded from memory or from scratchpad, with its scales, 0x7F each where BSG_W.EN is 0; the
planes change places. Each spends one instruction of the lease (R180). What mwloadm sees of scratchpad, where array-pipe
instructions before it are unfinished, is loadView (R176; log entry 10).
R203, R205: the matrix context is written to its image, and read back from it: tables, planes, rows. -/
def Obligations.PlanesAndContexts : Prop :=
  (∀ (s s1 : State) (core : Nat) (tk : Tk) (st : Strand) (cn : CReg) (xa : XReg) (pl : Bool) (fmt : BitVec 4) (a : DWord)
     (c : CapBits) (base : Nat), Poised s core .M tk s1 st → Leased s core → readX st .M xa = .ok a →
     let done := fun (i : Instr) (s2 : State) =>
       ∀ st2, strandAt s2 core = some st2 → Completes i s (spendLease s2 core) core .M st2 s2.grp.next
     let en := st.sys.bsgW.getLsbD 3
     let x := if en then 512 else 0
     let size := imageBytes fmt.toNat
     (∀ (m : MLatch) (s2 : State),
       (streamOf st .M).opnd = some m ∨ ((streamOf st .M).opnd = none ∧ capCheck st cn a (32768 + x) .m = .ok (c, base) ∧
         base % 64 = 0 ∧ m = { cap := c, base := base, en := en, row := st.sys.mrow.toNat }) →
       loadRows (128 - m.row) s1 core st pl (ansOf st .M) m = .fin s2 → done (.mwload tk cn xa pl) s2) ∧
     (let v := loadView s1 st pl
      a.toNat % 64 = 0 → a.toNat + (size + x) ≤ 262144 → spReadable v.1 core st.cgen st.gtrap a.toNat (size + x) = true →
       let s2 := iter 128 v.2 fun k s2 => planeRow s2 core st pl k (spImageRow v.1 core st fmt.toNat a.toNat k)
       let sc := if en then ofBytes 4096 (spFill v.1 core st.cgen 0#8 (a.toNat + size) 512) else unitScales
       done (.mwloadm tk fmt xa pl) (writePlane s2 core st pl fun p => { p with scales := sc })) ∧
     done (.mpswap tk) (modQuad s1 (quadOf core) fun q => { q with
       pa := { q.pb with dirty := true }
       pb := { q.pa with dirty := true } })) ∧
  (∀ (s s1 s3 : State) (core : Nat) (tk : Tk) (st st3 : Strand) (cn : CReg) (xa : XReg) (a : DWord) (c : CapBits)
     (base : Nat) (m : MLatch), Poised s core .M tk s1 st → Leased s core → MatsDone s core →
     readX st .M xa = .ok a → strandAt s3 core = some st3 →
     let done := fun (i : Instr) => Completes i s (spendLease s3 core) core .M st3 s3.grp.next
     let taken := fun (rt : Right) => (streamOf st .M).opnd = some m ∨ ((streamOf st .M).opnd = none ∧
       capCheck st cn a 0xA0000 rt = .ok (c, base) ∧ base % 64 = 0 ∧ m = { cap := c, base := base })
     (taken .w →
       saveUnits core (beginStore st .M).1 m ((imageUnits s1 core st).filter (unitFrom m))
         (setStrand s1 core (beginStore st .M).2) = .stored s3 →
       done (.msave tk cn xa)) ∧
     (taken .r → loadTabs (if m.phase = 0 then 50 - m.row else 0) s1 core st (ansOf st .M) m = .fin s3 →
       done (.mrestore tk cn xa)))

/-- R173, R189 to R191, R202: the rows of a tile, or of a map those that it does not discard, multiplied by a plane and
summed group by group into the rows of the slot of the prefix's label, which is allocated where it is new.
R200: squared distances of n rows to the rows of a plane, into entry 0 of a region of one slot. -/
def Obligations.StreamingAndDistances : Prop :=
  (∀ (s s1 : State) (core : Nat) (tk : Tk) (st : Strand) (rg : Rg) (xa : XReg) (map : Bool) (at_ : BitVec 4)
     (rows : BitVec 7) (pl : Bool) (wt : BitVec 4) (a : DWord) (g : Region) (live : List (Nat × Nat))
     (x : Option (Nat × Bool)), Poised s core .M tk s1 st → Leased s core → readX st .M xa = .ok a →
     mapFind st.regions rg.toNat = some g →
     (st.gtrap = true → planeCur (planeOf (Machine.quadAt s1 (quadOf core)) pl) core st = true) →
     let done := fun (i : Instr) (s2 : State) =>
       ∀ st2, strandAt s2 core = some st2 → Completes i s (spendLease s2 core) core .M st2 s2.grp.next
     let n := rows.toNat + 1
     let fresh := fun (o n : Nat) => o + n ≤ 262144 ∧ spReadable s1 core st.cgen st.gtrap o n = true
     let sums := fun (label : Nat) (f : Nat → List (List Ex)) =>
       match x with
       | none => s1
       | some (e, new) =>
         streamRows core st g rg e f live (if new then allocSlot s1 core st rg g e label else s1)
     (let sz := tagW at_.toNat / 8
      let mp := a.toNat + 16384 * sz
      let ea := st.sys.bsgA.getLsbD 3 && at_ != 3#4 && at_ != 4#4
      (map = true → fresh mp 256) → fresh a.toNat (n * 128 * sz) → (ea = true → fresh (mp + 256) 512) →
      mapRows g (if map then (unpack 16 128 (spBytes s1 core st.cgen mp 256)).take n else List.range n) = .ok live →
      streamSlot s1 core st g (labelOf s1) live = .ok x →
      let z : ArrayIn :=
        { at_ := at_.toNat
          wt := wt.toNat
          plane := planeElems s1 core st pl wt.toNat
          sa := if ea then some ((spBytes s1 core st.cgen (mp + 256) 512).map BitVec.toNat) else none
          sw := if st.sys.bsgW.getLsbD 3 then some (planeScales s1 core st pl) else none
          ga := fieldOf st.sys.bsgA 0 3
          gw := fieldOf st.sys.bsgW 0 3 }
      let row := fun (i : Nat) => unpack (8 * sz) 128
        (spFill s1 core st.cgen (if at_ = 12#4 then 0x10#8 else 0#8) (a.toNat + i * 128 * sz) (128 * sz))
      done (.mstream tk rg xa map at_ rows pl wt) (sums (labelOf s1) fun i => groupSums z i (row i))) ∧
     (st.super = true → s.msc.policy.getLsbD 1 = true → fresh a.toNat (n * 256) → mapRows g (List.range n) = .ok live →
      streamSlot s1 core st g 0 live = .ok x →
      done (.mcplx tk rg xa rows pl) (sums 0 fun i =>
        cplxSums (planeElems s1 core st pl 8) (unpack 16 128 (spBytes s1 core st.cgen (a.toNat + 256 * i) 256))))) ∧
  (∀ (s s1 : State) (core : Nat) (tk : Tk) (st : Strand) (rg : Rg) (xa xb : XReg) (pl : Bool) (a n : DWord) (g : Region),
     Poised s core .M tk s1 st → Leased s core → readX st .M xa = .ok a → readX st .M xb = .ok n →
     mapFind st.regions rg.toNat = some g → 1 ≤ n.toNat → n.toNat ≤ 128 → n.toNat ≤ g.rows → g.slots = 1 →
     a.toNat + 256 * n.toNat ≤ 262144 → spReadable s1 core st.cgen st.gtrap a.toNat (256 * n.toNat) = true →
     (st.gtrap = true → planeCur (planeOf (Machine.quadAt s1 (quadOf core)) pl) core st = true) →
     let s2 := iter n.toNat (validEntry0 s1 core rg) fun r s2 =>
       let x := accRowAdd (List.replicate 128 0)
         (distSums (planeElems s1 core st pl 8) (unpack 16 128 (spBytes s1 core st.cgen (a.toNat + 256 * r) 256)))
       raiseSlot (putRow s2 core st (rowAt g 0 r) (vPack 32 x.1)) core rg 0 x.2
     ∀ st2, strandAt s2 core = some st2 →
       Completes (.mdist tk rg xa xb pl) s (spendLease s2 core) core .M st2 s2.grp.next)

/-- R193, R194, R201: the rows of an entry and a status granule go to scratchpad, and with free the entry is then freed;
the top K columns of each row of a region of one slot. R195: a region of TRAP policy and its image in scratchpad
change places: directory, status and every row. What of an image mswap reads and drops is the model’s reading (log
entry 46). -/
def Obligations.DrainingAndSwap : Prop :=
  (∀ (s s1 : State) (core : Nat) (tk : Tk) (st : Strand) (rg : Rg) (xa xb xc : XReg) (a b c : DWord) (g : Region),
     Poised s core .M tk s1 st → Leased s core → readX st .M xa = .ok a → readX st .M xb = .ok b →
     readX st .M xc = .ok c → mapFind st.regions rg.toNat = some g → a.toNat % 64 = 0 →
     let done := fun (i : Instr) (s2 : State) =>
       ∀ st2, strandAt s2 core = some st2 → Completes i s (spendLease s2 core) core .M st2 s2.grp.next
     let e := b.toNat
     (e < g.entries → a.toNat + (512 * g.rows + 64) ≤ 262144 →
       (entryV (g.entry e) = true → ∀ r, r < g.rows → rowReadable s1 core st (rowAt g e r) = true) →
       let s2 := iter g.rows s1 fun r s2 =>
         let v := if entryV (g.entry e) then getRow s1 core st (rowAt g e r) else 0#4096
         spWriteN 9 s2 core st.cgen (a.toNat + 512 * r) (toBytes 512 v)
       let s3 := spWriteN 2 s2 core st.cgen (a.toNat + 512 * g.rows)
         (toBytes 4 (g.entry e) ++ toBytes 4 g.status ++ List.replicate 56 0#8)
       done (.mdrain tk rg xa xb) s3 ∧
       done (.mdrainFree tk rg xa xb) (modStrand s3 core fun st => putRegion st rg (freeEntry g e))) ∧
     (g.slots = 1 → 1 ≤ b.toNat → b.toNat ≤ c.toNat → c.toNat ≤ 128 → a.toNat + 768 * g.rows ≤ 262144 →
       (∀ r, r < g.rows → rowReadable s1 core st (rowAt g 0 r) = true) →
       let top := fun (hi : Bool) => iter g.rows s1 fun r s2 =>
         spWriteN 13 s2 core st.cgen (a.toNat + 768 * r)
           (topRow hi b.toNat c.toNat (rowElems (getRow s1 core st (rowAt g 0 r))))
       done (.mtopkLo tk rg xa xb xc) (top false) ∧ done (.mtopkHi tk rg xa xb xc) (top true))) ∧
  (∀ (s s1 : State) (core : Nat) (tk : Tk) (st : Strand) (rg : Rg) (xa : XReg) (a : DWord) (g : Region),
     Poised s core .M tk s1 st → Leased s core → readX st .M xa = .ok a → a.toNat % 64 = 0 →
     mapFind st.regions rg.toNat = some g → g.trapPol = true →
     let n := g.rows * g.slots
     a.toNat + (256 + 512 * n) ≤ 262144 → spReadable s1 core st.cgen st.gtrap a.toNat (256 + 512 * n) = true →
     swapBad g (spBytes s1 core st.cgen a.toNat 256) = none →
     (∀ r, r < n → rowReadable s1 core st (.acc (g.base + r)) = true) →
     let h := spBytes s1 core st.cgen a.toNat 256
     let s2 := iter n (spWriteN 5 (modStrand s1 core fun st => putRegion st rg (swapIn g h)) core st.cgen a.toNat
       (swapHeader g)) fun r s2 =>
         let o := a.toNat + 256 + 512 * r
         putAcc (spWriteN 9 s2 core st.cgen o (toBytes 512 (accRow s1 core st (g.base + r)))) core st (g.base + r)
           (spRow s1 core st o)
     ∀ st2, strandAt s2 core = some st2 →
       Completes (.mswap tk rg xa) s (spendLease s2 core) core .M st2 s2.grp.next)

/-- R171, R172, R197: each token's experts by rank, capacity and overflow expert give label rows, mask rows and lists in
scratchpad, and count into the expert counters.
R174, R192: the rows of slots, zeros, identity rows and constant rows of each token's labels, weighted and folded in
ascending order of (label, position), become the rows of entry 0 of the destination region. -/
def Obligations.RoutingAndBinding : Prop :=
  (∀ (s s1 : State) (core : Nat) (tk : Tk) (st : Strand) (xa xb xc : XReg) (tag : BitVec 4) (t e : BitVec 7) (k : BitVec 4)
     (ovx : BitVec 7) (a b c : DWord), Poised s core .M tk s1 st → Leased s core → readX st .M xa = .ok a →
     readX st .M xb = .ok b → readX st .M xc = .ok c →
     let nt := t.toNat + 1
     let ne := e.toNat + 1
     let w := tagW tag.toNat
     let size := nt * ne * (w / 8)
     let fresh := fun (o n : Nat) =>
       o % 64 = 0 ∧ o + n ≤ 262144 ∧ spReadable s1 core st.cgen st.gtrap o n = true
     let g : Granule := ofBytes 512 (spBytes s1 core st.cgen c.toNat 64)
     fresh a.toNat size → fresh c.toNat 64 → routeBad g ovx.toNat = none → b.toNat % 64 = 0 →
     b.toNat + (0x1800 + 256 * ne) ≤ 262144 →
     let sc := (unpack w (nt * ne) (spBytes s1 core st.cgen a.toNat size)).map (valOf tag.toNat)
     let rows := (List.range nt).map fun i => (i, (sc.drop (i * ne)).take ne)
     let z : Machine.Routing := { cnt := st.cnt, hsum := st.hsum, cntSat := st.cntSat, hsumSat := st.hsumSat }
     let r := routeAll (fun x => fieldOf g (2 * x) 2) (fieldOf g 256 16) ovx.toNat (k.toNat + 1) rows z
     let pad := fun (n : Nat) (l : List Nat) => packBytes 16 (l ++ List.replicate (n - l.length) 0)
     let s2 := spWriteN 66 s1 core st.cgen b.toNat (r.1.flatMap (pad 16))
     let s3 := spWriteN 34 s2 core st.cgen (b.toNat + 0x1000) (r.2.1.flatMap (toBytes 16))
     let s4 := iter ne s3 fun i s =>
       let l := mapGet [] r.2.2.lists i
       spWriteN 5 s core st.cgen (b.toNat + 0x1800 + 256 * i) (pad 128 (l.length :: l))
     ∀ st2, strandAt s4 core = some st2 →
       Completes (.mrank tk xa xb xc tag t e k ovx) s (spendLease s4 core) core .M
         { st2 with
           cnt := r.2.2.cnt
           hsum := r.2.2.hsum
           cntSat := r.2.2.cntSat
           hsumSat := r.2.2.hsumSat } s4.grp.next) ∧
  (∀ (s s1 : State) (core : Nat) (tk : Tk) (st : Strand) (rg : Rg) (xa xb : XReg) (a b : DWord) (g dg : Region)
     (d : BindDesc), Poised s core .M tk s1 st → Leased s core → readX st .M xa = .ok a → readX st .M xb = .ok b →
     mapFind st.regions rg.toNat = some g → bindDesc (ofBytes 512 (spBytes s1 core st.cgen a.toNat 64)) = .ok d →
     mapFind st.regions d.dreg = some dg → d.dreg ≠ rg.toNat → dg.slots = 1 → g.rows ≤ dg.rows →
     let fresh := fun (o n : Nat) => o + n ≤ 262144 ∧ spReadable s1 core st.cgen st.gtrap o n = true
     let l := bindLabels s1 core st d.lt g.rows
     fresh a.toNat 64 → fresh d.lt (32 * g.rows) → b.toNat % 4 = 0 → fresh b.toNat (64 * g.rows) →
     (∀ p, p ∈ bindScratch d l → fresh p.1 p.2) →
     (bindReads g l).all (rowReadable s1 core st) = true →
     let dr : Rg := BitVec.ofNat 4 d.dreg
     let s2 := ((List.range l.length).zip l).foldl (fun s2 p =>
       let r := bindRow s1 core st g d b.toNat p.1 p.2
       let s3 := raiseSlot (putRow s2 core st (rowAt dg 0 p.1) (vPack 32 r.1)) core dr 0 r.2.1
       if r.2.2 then modStrand s3 core fun st =>
           match mapFind st.regions rg.toNat with
           | some x => putRegion st rg { x with status := x.status ||| 0x10#32 }
           | none => st
       else s3) (validEntry0 s1 core dr)
     ∀ st2, strandAt s2 core = some st2 →
       Completes (.mbind tk rg xa xb) s (spendLease s2 core) core .M st2 s2.grp.next)

/-! ## The copy stream -/

/-- R248, R252 to R254: a copy whose ends pass their checks issues: it takes its slot, its sequence number and its place in
the order of the stream, and the stream goes on. Linear, strided and converting copies. -/
def Obligations.CopiesOfRanges : Prop :=
  ∀ (s s1 : State) (core : Nat) (tk : Tk) (st : Strand) (cd cs : CReg) (xa xb xc xs : XReg) (ui sps spd : Bool)
    (rows : BitVec 10) (df sf : BitVec 4) (a b n d : DWord) (src dst : CEnd),
    Poised s core .C tk s1 st → SlotFree s core → readX st .C xa = .ok a → readX st .C xb = .ok b →
    readX st .C xc = .ok n → readX st .C xs = .ok d →
    let done := fun (i : Instr) (op : CopyOp) =>
      let s2 := addCopy s1 core st (patOf st .C tk) ui op
      ∀ st2, strandAt s2 core = some st2 → Completes i s s2 core .C st2 s1.grp.next
    let ends := fun (sps spd : Bool) (cs cd : CReg) =>
      endOf st sps cs a.toNat n.toNat .r = .ok src ∧ endOf st spd cd b.toNat n.toNat .w = .ok dst ∧
      src.offset % 64 = 0 ∧ dst.offset % 64 = 0 ∧ n.toNat % 64 = 0 ∧ boundC src n.toNat = .ok () ∧
      boundC dst n.toNat = .ok () ∧ freshC s1 core st src n.toNat = .ok ()
    (ends false false cs cd → done (.cpy tk cd cs xa xb ui xc) (.lin src dst n.toNat)) ∧
    (ends false true cs 0#4 → done (.cpyin tk cs xa xb ui xc) (.lin src dst n.toNat)) ∧
    (ends true false 0#4 cd → done (.cpyout tk cd xa xb ui xc) (.lin src dst n.toNat)) ∧
    (let ss : BitVec 32 := bits d 0 32
     let ds : BitVec 32 := bits d 32 32
     let k := rows.toNat + 1
     ∀ (l m : List CEnd), readCaps st [(sps, cs), (spd, cd)] = .ok () →
     (strideOffs a ss k).mapM (fun o => endOf st sps cs o n.toNat .r) = .ok l →
     (strideOffs b ds k).mapM (fun o => endOf st spd cd o n.toNat .w) = .ok m →
     n.toNat % 64 = 0 → ss.toNat % 64 = 0 → ds.toNat % 64 = 0 → (∀ e, e ∈ l ++ m → e.offset % 64 = 0) →
     (∀ e, e ∈ l ++ m → boundC e n.toNat = .ok ()) → (∀ e, e ∈ l → freshC s1 core st e n.toNat = .ok ()) →
     done (.cpy2d tk cd cs xa xb ui xc xs rows spd sps)
       (.rows (l.headD (.sp 0)) (m.headD (.sp 0)) n.toNat ss.toInt ds.toInt k)) ∧
    (let ns := (n.toNat * copyBits sf.toNat + 7) / 8
     let nd := (n.toNat * copyBits df.toNat + 7) / 8
     endOf st sps cs a.toNat ns .r = .ok src → endOf st spd cd b.toNat nd .w = .ok dst →
     src.offset % 64 = 0 → dst.offset % 64 = 0 → n.toNat % cvtUnit sf.toNat df.toNat = 0 →
     boundC src ns = .ok () → boundC dst nd = .ok () → freshC s1 core st src ns = .ok () →
     let z := settings s1 st
     done (.cpyCvt tk cd cs xa xb ui xc df sf spd sps) (.cvt src dst n.toNat sf.toNat df.toNat z.rm z.sat z.ftz))

/-- R248, R255, R256, R259: fills of scratchpad and of the crew window, accumulator rows to and from scratchpad, and a
copy to another member with its counter and queue.
R175, R248, R257, R258: a gather and a scatter of the rows of a token list, and the copies that resolve null experts. -/
def Obligations.CopiesOfTheCoreAndByList : Prop :=
  (∀ (s s1 : State) (core : Nat) (tk : Tk) (st : Strand) (xa xb xc : XReg) (nq : BitVec 4) (ui : Bool) (a b c : DWord)
     (cr : Crew), Poised s core .C tk s1 st → SlotFree s core → readX st .C xa = .ok a → readX st .C xb = .ok b →
     readX st .C xc = .ok c → crewAt s1 st.crew = some cr →
     let done := fun (i : Instr) (op : CopyOp) =>
       let s2 := addCopy s1 core st (patOf st .C tk) ui op
       ∀ st2, strandAt s2 core = some st2 → Completes i s s2 core .C st2 s1.grp.next
     let top := (cr.size + 1) * 262144
     (a.toNat % 64 = 0 → b.toNat % 64 = 0 → a.toNat + b.toNat ≤ 262144 →
       done (.cfill tk xa xb xc ui) (.fill (.sp a.toNat) b.toNat c)) ∧
     (a.toNat % 64 = 0 → b.toNat % 64 = 0 → a.toNat + b.toNat ≤ top →
       done (.cfillCw tk xa xb xc ui) (.fill (.cw a.toNat) b.toNat c)) ∧
     (let r := b.toNat
      let n := c.toNat
      1 ≤ n → n ≤ 1024 → (∃ p, p ∈ st.regions ∧ p.2.base ≤ r ∧ r + n ≤ p.2.base + p.2.rows * p.2.slots) →
      a.toNat % 64 = 0 → a.toNat + 512 * n ≤ 262144 →
      ((∀ i, i < n → rowReadable s1 core st (.acc (r + i)) = true) →
        done (.cpyaccRd tk xa xb xc ui) (.accRd a.toNat r n)) ∧
      (spReadable s1 core st.cgen st.gtrap a.toNat (512 * n) = true →
        done (.cpyaccWr tk xa xb xc ui) (.accWr a.toNat r n))) ∧
     (let len := fieldOf c 0 20
      let ctr := fieldOf c 20 18
      zeroBits c 38 26 = true → len ≤ 262144 → a.toNat % 64 = 0 → b.toNat % 64 = 0 → len % 64 = 0 → ctr % 8 = 0 →
      a.toNat + len ≤ 262144 → b.toNat + len ≤ top → spReadable s1 core st.cgen st.gtrap a.toNat len = true →
      done (.crcp tk xa xb xc nq ui) (.rcp a.toNat b.toNat len ctr nq))) ∧
  (∀ (s s1 : State) (core : Nat) (tk : Tk) (st : Strand) (cn : CReg) (xa xb xc xs : XReg) (ui : Bool) (fmt : BitVec 4)
     (e : BitVec 7) (c : CapBits) (b : Nat) (rows toks : List Nat) (x y z : DWord),
     Poised s core .C tk s1 st → SlotFree s core →
     let done := fun (i : Instr) (op : CopyOp) =>
       let s2 := addCopy s1 core st (patOf st .C tk) ui op
       ∀ st2, strandAt s2 core = some st2 → Completes i s s2 core .C st2 s1.grp.next
     let row := gathRow fmt.toNat
     (gathCheck s1 core st cn xa xb xc xs fmt.toNat e.toNat .r = .ok (c, rows, b, toks) → b + (128 * row + 256) ≤ 262144 →
       done (.cgath tk cn xa xb ui xc xs fmt e) (.gath c rows b fmt.toNat toks)) ∧
     (gathCheck s1 core st cn xa xb xc xs fmt.toNat e.toNat .w = .ok (c, rows, b, toks) →
       b + toks.length * row ≤ 262144 → spReadable s1 core st.cgen st.gtrap b (toks.length * row) = true →
       done (.cscat tk cn xa xb ui xc xs fmt e) (.scat c rows b fmt.toNat)) ∧
     (readX st .C xa = .ok x → readX st .C xb = .ok y → listAt s1 core st x.toNat = .ok toks →
       y.toNat % 64 = 0 → y.toNat ≤ 262144 → (∀ t, t ∈ toks → y.toNat + 512 * t + 512 ≤ 262144) →
       done (.cnullZero tk xa xb ui) (.null 0 0 y.toNat toks) ∧
       (readX st .C xc = .ok z → z.toNat % 64 = 0 → z.toNat ≤ 262144 →
         ((∀ t, t ∈ toks → z.toNat + 512 * t + 512 ≤ 262144 ∧
           spReadable s1 core st.cgen st.gtrap (z.toNat + 512 * t) 512 = true) →
           done (.cnullId tk xa xb xc ui) (.null 1 z.toNat y.toNat toks)) ∧
         ((toks ≠ [] → z.toNat + 512 ≤ 262144 ∧ spReadable s1 core st.cgen st.gtrap z.toNat 512 = true) →
           done (.cnullConst tk xa xb xc ui) (.null 2 z.toNat y.toNat toks)))))

/-- R261 to R265: landing zones are armed and disarmed, the fences and waits end once the copies they name have completed,
and the loop on CLC. -/
def Obligations.CopyControl : Prop :=
  ∀ (s s1 : State) (core : Nat) (tk : Tk) (st : Strand) (xa xb xc : XReg) (cn : CReg) (sc : BitVec 4) (off : BitVec 20)
    (a b c : DWord) (cap : CapBits) (p : BitVec 32),
    let done := fun (i : Instr) (st' : Strand) => Completes i s s1 core .C st' s1.grp.next
    (Poised s core .C tk s1 st → readX st .C xa = .ok a → readX st .C xb = .ok b → readX st .C xc = .ok c →
      done (.cnop tk) st ∧
      (st.copies = [] → done (.cfence tk sc) st ∧ done (.cwaitAll tk) st) ∧
      (st.copies.length ≤ a.toNat → done (.cwaitLe tk xa) st) ∧
      (zeroBits a 4 60 = true → zoneBusy s1 st a.toNat = false →
        done (.cdisarm tk xa) { st with zones := mapErase st.zones a.toNat }) ∧
      (let z := fieldOf c 0 4
       readC st cn = .ok cap → hasRight cap .l = true → b ≠ 0#64 → zeroBits c 5 59 = true →
       mapFind st.zones z = none → (∀ q, q ∈ st.zones → rangesMeet a.toNat b.toNat q.2.off q.2.len = false) →
       a.toNat % 64 = 0 → b.toNat % 64 = 0 → a.toNat + b.toNat ≤ 262144 →
       done (.carm tk xa xb xc cn)
         { st with zones := mapPut st.zones z { obj := capObj cap, ogen := capOgen cap, off := a.toNat, len := b.toNat
                                                ec := c.getLsbD 4 } })) ∧
    (Poised s core .C 0#4 s1 st →
      (st.sys.clc = 0#32 → done (.cloop off) st) ∧
      (st.sys.clc ≠ 0#32 → checkRel s1 st .C off = .ok p →
        Completes (.cloop off) s s1 core .C { st with sys := { st.sys with clc := st.sys.clc - 1 } } p))

/-! ## Packets -/

/-- R209, R212 to R215, R229, R292, R297 to R299, R302 to R304: the packets that touch no launch complete as their rules
say, each once its condition holds, and the head passes its words; the packets that move a queue to another buffer leave it
there. -/
def Obligations.QueuePackets : Prop :=
  ∀ (s : State) (die q : Nat), s.cur = .queue die q →
    let s1 := beginPacket s die q
    let x := startedQ s (Machine.queueAt s die q)
    let first := !(Machine.queueAt s die q).started
    let moved := fun (i : Instr) (l : List (Nat × Nat × Nat)) =>
      exec i s = .next (modQueue s1 die q fun x => { clearPacket x with
        stack := l
        prevLaunch := some false })
    (∀ len, PacketDone (.nop len) s die q s1 len.toNat) ∧
    (∀ sem add, PacketDone (.semsigP sem add) s die q (semAdd s1 die sem.toNat add) 4) ∧
    (∀ cond sem value, cond ≠ 3#2 → (x.semSat = true ∨ semCond cond (semOf s1 die sem.toNat) value = true) →
      PacketDone (.semwaitP cond sem value) s die q s1 4) ∧
    (∀ (m : BitVec 16) (id : BitVec 8) (arr : List Nat), m.getLsbD q = true → x.joinId = none →
      ((∃ j, (dieAt s1 die).joins.find? (fun j => j.id == id) = some j ∧ j.mask = m ∧ arr = j.arrived ++ [q]) ∨
        ((dieAt s1 die).joins.find? (fun j => j.id == id) = none ∧ arr = [q])) →
      (bitList 16 m).all arr.contains = true →
      PacketDone (.qfence m id) s die q
        ((arr.filter (· != q)).foldl (fun s p => completePacket s die p 2) (putJoin s1 die id none)) 2) ∧
    (∀ obj gen start t r, x.stack = t :: r →
      moved (.jumpP obj gen start) ((obj.toNat, gen.toNat, 64 * start.toNat) :: r)) ∧
    (∀ obj gen start, x.stack.length < 4 →
      moved (.callP obj gen start) ((obj.toNat, gen.toNat, 64 * start.toNat) :: x.stack)) ∧
    (∀ t o g p r, x.stack = t :: (o, g, p) :: r → moved .returnP ((o, g, p + 12) :: r)) ∧
    (∀ t, x.stack = [t] → exec .returnP s = .next (modQueue s1 die q fun x => { clearPacket x with
      stack := []
      head := x.head + 12
      prevLaunch := some false })) ∧
    (∀ vec cookie, vec.toNat < s.msixSize →
      PacketDone (.irq vec cookie) s die q
        (sendMsi (modQueue s1 die q fun x => { x with cookie := cookie }) vec.toNat) 2) ∧
    (∀ t0 sse ssem, x.frame = none →
      PacketDone (.frameBegin t0 sse ssem) s die q
        (modQueue s1 die q fun x => { x with
          frame := some { t0 := if t0 = 0#64 then s.frame.toNat else t0.toNat, sse := sse, ssem := ssem.toNat } }) 4) ∧
    (x.frame ≠ none → PacketDone .frameEnd s die q (modQueue s1 die q fun x => { x with frame := none }) 1) ∧
    (∀ t, (t.toNat : Int) ≤ queueClock s1 x → PacketDone (.releaseAt t) s die q s1 3) ∧
    (∀ n ceil, PacketDone (.setpri n ceil) s die q
      (modQueue s1 die n.toNat fun x => { x with ceil := ceil.toNat }) 2) ∧
    (∀ space all obj,
      let s2 := if first then invalidate s1 space.toNat obj.toNat all else s1
      transBusy s2 space.toNat obj.toNat all = false → PacketDone (.otinv space all obj) s die q s2 4) ∧
    (∀ n all hold plim,
      let qs := if all then List.range 16 else [BitVec.toNat n]
      (first = true → preemptTargets s1 die qs = [] →
        PacketDone (.preempt n all hold plim) s die q
          (if hold then qs.foldl (fun s k => modQueue s die k fun x => { x with hold := true }) s1 else s1) 2) ∧
      (first = false → x.targets.all (targetDone s1) = true → PacketDone (.preempt n all hold plim) s die q s1 2)) ∧
    (∀ (src dst : CapBits) (len : BitVec 32) (s2 s3 s4 : State) (l : List Byte),
      (if first then copyPre s1 die x src dst len.toNat else (none, s1)) = (none, s2) →
      (x.data = none ∧ cpRead s2 die x.ans x.space (capObj src) (capOgen src) (capBase src + 64 * x.done) 64 = .ok l s3 ∨
        x.data = some l ∧ s3 = s2) →
      cpWrite s3 die (if x.data.isSome then x.ans else none) x.space (capObj dst) (capOgen dst) (capBase dst + 64 * x.done)
        l = .ok [] s4 →
      (64 * (x.done + 1) < len.toNat →
        exec (.copyP src dst len) s = .next (modQueue s4 die q fun x => { x with
          data := none
          done := x.done + 1
          ans := none
          asked := false })) ∧
      (len.toNat ≤ 64 * (x.done + 1) → PacketDone (.copyP src dst len) s die q s4 10))

/-- R211, R293, R294, R296, R306, R309: a launch whose checks pass starts, Held until its release and then Dispatching, and
stands in its queue; R300, R301: an itinerary and a request ring are handed to their engines. -/
def Obligations.LaunchPackets : Prop :=
  ∀ (s : State) (die q : Nat), s.cur = .queue die q →
    let s1 := beginPacket s die q
    let x := startedQ s (Machine.queueAt s die q)
    (∀ (a : LaunchArgs) (mask : Option (BitVec 128)) (s2 s3 : State) (k : Kernel) (e : List Byte × List Byte),
      ¬ (a.swz ≠ 0#4 ∧ 2 ≤ a.order.toNat) → ¬ (a.gt = true ∧ a.lxobj = 0#24) → mask ≠ some 0#128 →
      readKernel s1 die x a = .ok k s2 → readExt s2 die x a = .ok e s3 →
      argsOk k (slotsOf a e.1) = true → groupsOk a mask.isSome (groupsFrom e.2) = true →
      (∀ m, mask = some m → maskAbsent s1 m = false) →
      let i := match mask with
        | none => Instr.launch a
        | some m => Instr.launchm a m
      ∃ t l, exec i s = .next t ∧ mapFind t.launches s3.nextLaunch = some l ∧ l.args = a ∧ l.mask = mask ∧ l.k = k ∧
        l.slots = slotsOf a e.1 ∧ l.groups = groupsFrom e.2 ∧ l.die = die ∧ l.q = q ∧ l.super = x.priv ∧
        l.space = x.space ∧ l.start = s3.frame.toNat ∧ l.frame = x.frame.isSome ∧
        l.st = (if releaseDue s3 { l with st := .held } then LaunchState.dispatching else .held) ∧
        t.nextLaunch = s3.nextLaunch + 1 ∧
        (Machine.queueAt t die q).launches = (Machine.queueAt s3 die q).launches ++ [s3.nextLaunch] ∧
        (Machine.queueAt t die q).started = false) ∧
    (∀ ctx obj gen start, (ctxAt s1 (BitVec.toNat ctx)).active = false →
      PacketDone (.itin ctx obj gen start) s die q
        (acceptItin s1 ctx.toNat die x.space obj.toNat gen.toNat start.toNat) 4) ∧
    (∀ (r : BitVec 4) (obj : BitVec 24) (gen : BitVec 16) (n : BitVec 13) (due : BitVec 32) (sem : BitVec 12) (s2 s3 : State)
      (l : List Byte) (k : Nat) (h : BitVec 32), s1.caps.rqg = true → 1 ≤ n.toNat → n.toNat ≤ 4096 → due ≠ 0#32 →
      let limits := fun (g : RqCtx) => { g with
        pendBatchN := n.toNat
        pendDeadline := due.toNat
        pendSem := sem.toNat }
      ((rqAt s1 r.toNat).active = true → (rqAt s1 r.toNat).obj = obj.toNat → (rqAt s1 r.toNat).gen = gen.toNat →
        PacketDone (.gather r obj gen n due sem) s die q (modRq s1 r.toNat limits) 6) ∧
      ((rqAt s1 r.toNat).active = false → (rqAt s1 r.toNat).asked = false →
        cpRead s1 die x.ans x.space obj.toNat gen.toNat 0 64 = .ok l s2 →
        ringHeader s2 die x.space obj.toNat l = (some (k, h), s3) →
        PacketDone (.gather r obj gen n due sem) s die q
          (modRq (modRq s3 r.toNat fun g =>
            { active := true, obj := obj.toNat, gen := gen.toNat, space := x.space, die := die, log2n := k, head := h
              cause := g.cause, rels := g.rels }) r.toNat limits)
          6))

/-! ## Itinerary entries -/

/-- R331, R332, R338, R341, R343 to R349: the entries of an itinerary, each once its condition holds. That a
hint on an absent BULK completes ABSENT is the model's choice (log entry 87). -/
def Obligations.ItineraryEntries : Prop :=
  ∀ (s : State) (n : Nat), s.cur = .ctx n →
    let c := ctxAt s n
    (∀ a, (a.mc = true → c.mc ≠ none) → openMoves c a.wclass.toNat < winOf c a.wclass.toNat →
      exec (.move a) s = .next (passEntry (startMove s n c a) n)) ∧
    (∀ pmask src grp epoch ackto, pmask.getLsbD (BitVec.toNat src) = true →
      pmask.getLsbD Config.package.toNat = true → s.caps.ovl = true → c.mc = none →
      EntryDone (.mcast pmask src grp epoch ackto) s n
        (modCtx s n fun c => { c with
          mc := some { epoch := epoch, pmask := pmask, src := src, grp := grp
                       ackto := if ackto = 0#16 then 4096 else ackto.toNat }
          left := c.left.filter fun e => e.1 != epoch }) .done) ∧
    (∀ tier obj gen len off at_ s2,
      (tier = 0#2 ∨ (tier = 1#2 ∧ s.bulkSize ≠ 0) → EntryDone (.hint tier obj gen len off at_) s n s .done) ∧
      (tier = 1#2 → s.bulkSize = 0 → EntryDone (.hint tier obj gen len off at_) s n s .absent) ∧
      (tier = 2#2 → hintPool s c obj.toNat gen.toNat len.toNat off at_.toNat = .done s2 .done →
        EntryDone (.hint tier obj gen len off at_) s n s2 .done)) ∧
    (∀ cls k, openMoves c cls.toNat ≤ k.toNat → EntryDone (.waitw cls k) s n s .done) ∧
    (∀ sem fen fsem add,
      let s2 := modCtx s n fun c => { c with
        marks := c.marks ++ [{ idx := c.cidx, order := c.cord, sem := BitVec.toNat sem, fen := fen
                               fsem := BitVec.toNat fsem, add := add }] }
      exec (.mark sem fen fsem add) s = .next (passEntry (settleMarks (c.marks.length + 1) s2 n) n)) ∧
    (∀ target lvl sadv dadv count step stride,
      let l := BitVec.toNat lvl
      let armed := c.arm.getLsbD l
      let rem := if armed then mapGet 0#16 c.rem l else count
      let one : Int := BitVec.toInt stride * 65536
      let i := Instr.repeatE target lvl sadv dadv count step stride
      (armed = false → count = 0#16 → EntryDone i s n s .done) ∧
      (armed = true ∨ count ≠ 0#16 → rem ≠ 0#16 →
        let s2 := modCtx s n fun c => addStride { c with
          arm := c.arm ||| (1#4 <<< l)
          rem := mapSet 0#16 c.rem l (rem - 1)
          dofs := c.dofs + BitVec.setWidth 32 step } sadv dadv one
        exec i s = .next (modCtx (entryStatus s2 n (ctxAt s2 n).cidx (ctxAt s2 n).cord .done 0) n fun c => { c with
          held := none
          order := c.order + 1
          idx := target.toNat })) ∧
      (armed = true → rem = 0#16 →
        EntryDone i s n (modCtx s n fun c => addStride { c with
          arm := c.arm &&& ~~~(1#4 <<< l)
          rem := mapSet 0#16 c.rem l 0#16
          dofs := c.dofs - BitVec.setWidth 32 count * BitVec.setWidth 32 step } sadv dadv (-(one * count.toNat))) .done)) ∧
    (∀ k tick, effTick c (BitVec.toNat tick) ≤ itinTick s c →
      EntryDone (.gust k tick) s n (modCtx s n fun c => { c with gust := k.toNat + 1 }) .done) ∧
    (∀ (r : BitVec 4) (rebase : Bool) (sem : BitVec 12) (tref : BitVec 32) (l : List Byte) (s2 : State),
      let g := rqAt s r.toNat
      let ahead := (g.nb - c.bseen).toNat
      let seen := fun (t : State) => modCtx (spendEntry t n) n fun x => { x with
        bseen := x.bseen + 1
        tbase := if rebase then BitVec.ofInt 32 (itinTick s c) - tref else x.tbase }
      s.caps.rqg = true → g.active = true → g.rels.length < ahead → ahead ≤ 64 →
      EntryDone (.batch r rebase sem false tref) s n (seen s) .done ∧
      (batchSize s c g c.bseen = .ok l s2 →
        let k : BitVec 32 := ofBytes 32 l
        EntryDone (.batch r rebase sem true tref) s n (seen (semAdd s2 c.die sem.toNat (k.setWidth 64))) .done)) ∧
    (c.moves.all (fun m => m.status.isSome) = true → c.marks = [] →
      exec .itinEnd s = .next (modCtx (entryStatus (leaveStream s n) n c.cidx c.cord .done 0) n fun c => { c with
        held := none
        active := false
        stopping := false }))

/-! ## What the host writes -/

/-- R288, R289, R302, R392: a tail reaches its queue and ends IDLE; SKIP, RETRY, RUN and RESET. What RESET clears is the
model’s reading (log entry 52). -/
def Obligations.QueueCommands : Prop :=
  ∀ (s : State) (die q : Nat) (tail : BitVec 32), ready s = true →
    let x := Machine.queueAt s die q
    let go := fun (x : Queue) => { x with
      stop := none
      noPacket := false }
    let inRing := fun (x : Queue) => (x.tail - x.head).toNat ≤ 2 ^ x.size
    (die < s.caps.dies.toNat → q < 16 → x.en = true →
      (x.stop ≠ none ∨ (zeroBits tail 0 2 = true ∧ inRing { x with tail := tail })) →
      exec (.doorbell die q tail) s = .next (modQueue { s with
        pwrState := 0#2
        idleSeen := s.frame.toNat } die q fun x => { x with tail := tail })) ∧
    (x.stop ≠ none → zeroBits x.tail 0 2 = true → inRing x → exec (.qctlRetry die q) s = .next (modQueue s die q go)) ∧
    exec (.qctlRun die q) s = .next (modQueue s die q fun x => { x with hold := false }) ∧
    (queueIdle x = true ∨ x.stop ≠ none →
      ∃ t, exec (.qctlReset die q) s = .next t ∧ rest { t with dies := s.dies } = rest s ∧
        let y := Machine.queueAt t die q
        y.head = 0#32 ∧ y.tail = 0#32 ∧ y.stop = none ∧ y.stack = [] ∧ y.launches = [] ∧ y.started = false ∧
        y.en = x.en ∧ y.base = x.base ∧ y.size = x.size ∧ y.frame = x.frame) ∧
    (x.stop ≠ none → x.noPacket = true → zeroBits x.tail 0 2 = true → inRing x → exec (.qctlSkip die q) s = .next (modQueue s die q go)) ∧
    (∀ (h : BitVec 32), x.stop ≠ none → x.noPacket = false → x.stack = [] → x.ahead = [] → zeroBits x.tail 0 2 = true → inRing x →
      (x.hdr = some h ∨ x.hdr = none ∧ ∃ l s2, queueWords s die x (queuePos s x) 1 = .ok l s2 ∧ h = ofBytes 32 l) →
      let n := max (fieldOf h 16 8) 1
      4 * n ≤ (x.tail - x.head).toNat →
      ∃ t, exec (.qctlSkip die q) s = .next t ∧ Machine.queueAt t die q = { go x with
        head := x.head + BitVec.ofNat 32 (4 * n)
        hdr := none
        skip := 0
        prevLaunch := some (fieldOf h 24 8 == 1 || fieldOf h 24 8 == 2) })

/-- R77, R234, R301, R324, R337, R349, R371, R390: a Frozen crew's gang is evicted, or the crew resumes; a Suspended crew with
a full save becomes restorable; a context of the tier engine stops, or its lateness is cleared; a gatherer context takes
the request to stop; an isolated port that has trained again returns to service; a frame returns to its die's pool, or is
logged as event 8, a number of the model's choosing (log entry 21). -/
def Obligations.HostCommands : Prop :=
  (∀ (s : State) (die slot n : Nat), ready s = true →
     let k := crewKey die slot
     (∀ c, crewAt s k = some c → c.st = .frozen →
       exec (.cpEvict die slot) s = .next (evictReady ((gangKeys s k).foldl (fun s k =>
         modCrew (freezeCrew s k) k fun c => { c with st := if c.st = .frozen then CrewState.evicting else c.st }) s) k)) ∧
     (∀ c, crewAt s k = some c → c.st = .frozen → c.entryDue = false → s.thermal = [] →
       exec (.cpResume die slot) s = .next (thaw s k)) ∧
     (∀ c, crewAt s k = some c → c.st = .suspended → c.full = true →
       exec (.cpResume die slot) s = .next (settleLaunch (modCrew s k fun c => { c with st := .waiting }) c.launch)) ∧
     ((ctxAt s n).active = true → (ctxAt s n).stopping = false →
       exec (.tecStop n) s = .next (leaveStream (modCtx s n fun c => { c with
         stopping := true
         cause := 4
         gust := 0
         held := c.held.filter fun ws => !isMove ws
         pend := [] }) n)) ∧
     exec (.clrLull n) s = .next (modCtx s n fun c => { c with
       late := 0
       l := 0 }) ∧
     exec (.rqcStop n) s = .next (modRq s n fun g => { g with stopAsk := g.active }) ∧
     ((portAt s n).state = 2#3 → (portAt s n).trained = true →
       ∃ t, exec (.restore n) s = .next t ∧ portAt t n = { portAt s n with
         state := 4#3
         restored := true
         trained := false } ∧ t.mem = s.mem) ∧
     (∀ v, die < s.caps.dies.toNat → (dieAt s die).pool.contains (fieldOf (v : BitVec 64) 13 39) = false →
       let f := fieldOf v 13 39
       exec (.fpPush die v) s = .next (if Config.inStack die f = true
         then modDie s die fun d => { d with pool := d.pool ++ [f] } else logEvent s 8 f)))

/-- R10, R288, R371, R381, R388 to R390, R393: a register write of a running package acts as its register takes it: a queue's
base, configuration and tail, PLIM and PREEN, the watchdog limits, FQ_HEAD, FP_PUSH, the lateness limits of a context, a space
table entry, an MSI-X word, the power cap. A write of an offset that holds none, or before READY, changes nothing. A
read of a write-only register is zero; reads give QBASE, QTAIL, QHEAD, QCOOKIE, FQ_HEAD, an MSI-X word, the pending bits and the
power cap. That a tail is recorded in STANDBY is R393. The places and the layout of the MSI-X table and pending-bit array
within their block, and what lies past them, are the model's choice (log entries 64 and 79), as is that a write of QBASE is
checked against the ring's size (log entry 51). -/
def Obligations.Bar0Registers : Prop :=
  (∀ (s : State) (off : Nat) (v : BitVec 64), s.phase ≠ 7#4 → s.pwrState ≠ 2#2 →
    exec (.registerWrite off v) s = .next s) ∧
  (∀ (s : State) (die q : Nat) (v : BitVec 64), s.off = false → s.pwrState = 2#2 → die < 4 → q < 16 →
    exec (.registerWrite (0x100000 * (die + 1) + 0x1010 + 0x40 * q) v) s =
      .next { s with tails := s.tails ++ [(die, q, v.setWidth 32)] }) ∧
  (∀ (s : State) (off : Nat), ready s = true → (0x100 ≤ off ∧ off < 0x100000) ∨ 0x538100 ≤ off →
    readBar0 s off = 0#64 ∧ ∀ v, exec (.registerWrite off v) s = .next s) ∧
  (∀ s : State, ready s = true → readBar0 s 0x10 = 0#64 ∧ readBar0 s 0x28 = s.pwrCap.setWidth 64 ∧
    (∀ n, n < 4096 → readBar0 s (0x530000 + 8 * n) = msixWord s n) ∧
    (∀ n, n < 32 → readBar0 s (0x538000 + 8 * n) = mapGet 0#64 s.pba n) ∧
    (∀ n, n < 64 → readBar0 s (0x501048 + 0x80 * n) = 0#64) ∧
    ∀ die, die < s.caps.dies.toNat → die < 4 →
      let base := 0x100000 * (die + 1)
      readBar0 s (base + 0x38) = 0#64 ∧ readBar0 s (base + 0x40) = 0#64 ∧ readBar0 s (base + 0x40020) = 0#64 ∧
      readBar0 s (base + 0x40010) = (dieAt s die).fqHead.setWidth 64 ∧
      ∀ q, q < 16 →
        let x := Machine.queueAt s die q
        let block := base + 0x1000 + 0x40 * q
        readBar0 s block = d64 (x.base / 64 % 2 ^ 46 * 64) ∧ readBar0 s (block + 0x10) = x.tail.setWidth 64 ∧
        readBar0 s (block + 0x18) = x.head.setWidth 64 ∧ readBar0 s (block + 0x30) = 0#64 ∧
        readBar0 s (block + 0x38) = x.cookie.setWidth 64) ∧
  (∀ (s : State) (v : BitVec 64), ready s = true →
     let wr := fun (off : Nat) (t : State) => exec (.registerWrite off v) s = .next t
     (∀ c, c = fieldOf v 0 16 → 300 ≤ c → c ≤ s.caps.variant.watts → wr 0x28 { s with pwrCap := bits v 0 16 }) ∧
     wr 0x30 s ∧
     (∀ die q, die < s.caps.dies.toNat → die < 4 → q < 16 →
       wr (0x100000 * (die + 1) + 0x1000 + 0x40 * q) (modQueue s die q fun x => writeQbase x v) ∧
       wr (0x100000 * (die + 1) + 0x1008 + 0x40 * q) (modQueue s die q fun x => writeQcfg x v) ∧
       wr (0x100000 * (die + 1) + 0x1010 + 0x40 * q) (ringDoorbell s die q (v.setWidth 32))) ∧
     (∀ die, die < s.caps.dies.toNat → die < 4 →
       wr (0x100000 * (die + 1)) (modDie s die fun d => { d with
         plim := bits v 16 32
         preen := v.getLsbD 0 }) ∧
       wr (0x100000 * (die + 1) + 0x10) (modDie s die fun d => { d with
         stall := bits v 32 32
         runlim := v.setWidth 32 }) ∧
       wr (0x100000 * (die + 1) + 0x40010) (modDie s die fun d => { d with fqHead := v.setWidth 32 }) ∧
       wr (0x100000 * (die + 1) + 0x40020) (pushFrame s die v)) ∧
     (∀ n, n < 64 → fieldOf v 0 16 ≤ fieldOf v 16 16 →
       wr (0x501000 + 0x80 * n) (modCtx s n fun c => { c with
         lateHi := bits v 16 16
         lateLo := bits v 0 16 })) ∧
     (∀ n, n < 512 → (v.getLsbD 63 = true → fieldOf v 56 6 ≠ 0) →
       let x : Space := { v := v.getLsbD 63, consent := v.getLsbD 62, kdom := bits v 56 6, obt := fieldOf v 6 46 * 64 }
       wr (0x510000 + 8 * n) { s with spaces := mapSet {} s.spaces n x }) ∧
     (∀ n, n < 4096 →
       let t := { s with msix := mapSet (msixReset n) s.msix n v }
       wr (0x530000 + 8 * n) (if msixPending t (n / 2) = true ∧ msixMasked t (n / 2) = false
         then emit (setPending t (n / 2) false) (.msi (n / 2)) else t)) ∧
     (∀ n, n < 32 → wr (0x538000 + 8 * n) s))

/-! ## Crews and the command processors -/

/-- R242, R299, R308, R309, R317, R320, R321, R325: placing and saving crews, the sweep, reports, releases, overruns and
completions of launches. Which crew goes first among equals is the model’s reading (log entry 53);
that a WRITE_OUT stands for the supervisor's flush is its choice (log entry 87). -/
def Obligations.CrewEvents : Prop :=
  ∀ (s s2 : State) (die slot core n : Nat),
    let k := crewKey die slot
    let order := launchOrder s die
    (∀ m l r c, s.thermal = [] → ready s = true → order = (m, l) :: r →
      firstFit (preemptFor s m l) order = some (.fresh c, s2) → exec (.crewDispatch die) s = .next s2) ∧
    (∀ m l r j, s.thermal = [] → ready s = true → order = (m, l) :: r →
      firstFit (preemptFor s m l) order = some (.saved j, s2) → (gangKeys s j).contains k = true →
      exec (.crewRestore die slot) s = .next s2) ∧
    (s.thermal = [] → gangKeys s k ≠ [] → (gangKeys s k).all (crewSafe s) = true →
      exec (.safePointSave die slot) s =
        .next (evictReady ((gangKeys s k).foldl (fun s k => saveCrew s false k) s) k)) ∧
    (∀ q r, (mapGet {} s.cores core).sweep = q :: r →
      let s1 := sweepTags (sweepHeld s core q) core q
      exec (.sweepDone core) s = .next { s1 with
        cores := mapMod {} s1.cores core fun c => { c with sweep := r } }) ∧
    (exec (.writeOut (.tile core n)) s = .next (writeOutTile s core n) ∧
      exec (.writeOut (.plane core true)) s = .next (writeOutPlane s core true) ∧
      exec (.writeOut (.plane core false)) s = .next (writeOutPlane s core false) ∧
      exec (.writeOut (.row core n)) s = .next (writeOutRow s core n)) ∧
    (∀ c, crewAt s k = some c →
      let rep := fun (f : Crew → Crew) (kind d : Nat) =>
        Machine.report (modCrew s k f) die kind slot (crewQueue s c) d 0 0
      (∀ m, c.preq ≠ none → onCores c = true → c.dueRep = false → c.plim ≤ m → crewSafe s k = false →
        exec (.preemptOverdue die slot m) s = .next (rep (fun c => { c with dueRep := true }) 2 (min m (2 ^ 32 - 1)))) ∧
      (onCores c = true → c.runRep = false → (dieAt s die).runlim.toNat ≠ 0 →
        (dieAt s die).runlim.toNat ≤ s.frame.toNat - c.since →
        exec (.watchdogRun die slot) s = .next (rep (fun c => { c with runRep := true }) 3 0)) ∧
      (s.thermal = [] → onCores c = true → c.stallRep = false → (dieAt s die).stall.toNat ≠ 0 →
        (dieAt s die).stall.toNat ≤ s.frame.toNat - c.progress →
        exec (.watchdogStall die slot) s = .next (rep (fun c => { c with stallRep := true }) 3 1)) ∧
      (let d := dieAt s die
       let b := wordsBytes (entryWords s k c)
       c.entryDue = true → c.st = .frozen → crewQuiet s k = true →
       (d.fqTail - d.fqHead).toNat + b.length ≤ 2 ^ d.fqSize →
       c.resume = false →
       exec (.faultEntry die slot) s = .next (modCrew (modDie
         (ringWrite s die d.fqBase d.fqSize d.fqTail.toNat (chunks 32 (b.length / 32 + 1) b)) die fun d =>
           { d with fqTail := d.fqTail + BitVec.ofNat 32 b.length }) k fun c => { c with entryDue := false }))) ∧
    (let x := Machine.queueAt s die n
     let lim := (dieAt s die).stall.toNat
     x.started = true → x.wait ≠ none ∨ x.joinId ≠ none → x.hold = false → x.frame = none → x.waitRep = false → lim ≠ 0 → lim ≤ s.frame.toNat - x.startTick →
     exec (.watchdogQueue die n) s =
       .next (Machine.report (modQueue s die n fun x => { x with waitRep := true }) die 3 0 n 2 0 0)) ∧
    (∀ l, mapFind s.launches n = some l → l.die = die →
      (l.st = .held → releaseDue s l = true →
        exec (.frameRelease die n) s = .next (modLaunch s n fun l => { l with st := .dispatching })) ∧
      (overruns s l = true → l.episode = none →
        exec (.overrun die n) s = .next (modLaunch s n fun l => { l with episode := some 0 })) ∧
      (l.st = .draining → l.stores = [] → l.failed = [] → l.episode = none →
        (Machine.queueAt s die l.q).launches.contains n = false →
        exec (.launchComplete die n) s = .next { s with
          launches := mapErase (modLaunch s n fun l => { l with st := .complete }).launches n })) ∧
    (∀ l s1, (Machine.queueAt s die n).started = true →
      queueWords s die (Machine.queueAt s die n) (queueHead (Machine.queueAt s die n)) 3 = .ok l s1 → numAt l 3 1 = 0x0D →
      ∃ t, exec (.releaseAt (ofBytes 64 (l.drop 4))) { s1 with cur := .queue die n } = .next t ∧
        exec (.releaseTick die n) s = .next { t with cur := .none })

/-! ## Cores -/

/-- R51, R63, R78, R106, R177, R181, R234, R250: what happens at a core of its own accord. Which of several stores reaches its home
first is a free choice, and what it overwrote is kept while a strand may still read it (log entry 86). -/
def Obligations.CoreEvents : Prop :=
  ∀ (s : State) (core n : Nat) (st : Strand), strandAt s core = some st →
    (∀ c e, crewAt s st.crew = some c → c.st = .running ∨ c.st = .stopping → deadlocked st = true →
      [Engine.S, .V, .M, .C].find? (inTokenWait st) = some e →
      exec (.tokenDeadlock core) s = .next (takeTrap s core e (deadlockRec st e))) ∧
    (∀ c, (Machine.quadAt s n).lease = none → arrayBusy s n = false → nextGrant s n = some c →
      exec (.arrayGrant n) s = .next (grantTo s (4 * n + c) (mapGet 0 (Machine.quadAt s n).waits c))) ∧
    (∀ u r p, st.uipend = u :: r → uiEn st = true → uiAct st = false → uiBoundary s st = true →
      checkTarget s st .S st.sys.uivec.toNat = .ok p →
      let x := streamOf st .S
      exec (.uiDelivery core) s = .next (setStrand s core (setStream
        { uiDeliver st x.pc u 0 x.popped x.arrived with uipend := r } .S
        { x with
          pc := p
          st := .issuing
          popped := false
          arrived := false
          want := none }))) ∧
    (∀ w s1, chooseOf s (mayEnter (st.stores.filter fun w => w.tier != 2#2)) = (some w, s1) →
      exec (.accessPerformed core) s = .next (settle (performStore s1 w) core)) ∧
    (let m := finishFirst (oldestStore st) st.mats
     m ≠ st.mats →
     exec (.matrixFinish core) s = .next (settle (noteProgress (setStrand s core { st with mats := m }) st.crew) core)) ∧
    (∀ c, st.copies.find? (fun c => c.slot == n) = some c → st.copies.find? (fun x => x.idx == c.idx) = some c →
      c.held = false → c.moved = true → copyPerformed st c.idx = true → uiRoom st c = true →
      exec (.copyComplete core n) s = .next (settle (finishCopy (noteProgress s st.crew) core c) core)) ∧
    (∀ die h line r g s2, (dieAt s die).lineReq.find? (fun r => r.h == h && r.line == line) = some r →
      fillRead (modDie s die fun d => { d with lineReq := d.lineReq.filter fun r => !(r.h == h && r.line == line) }) die h line
        r.ans = (.ok g, s2) →
      exec (.lineFill die h line) s = .next { s2 with
        cores := (coresOfHandle s die h).foldl (fun m c => mapMod {} m c fun c => installLine c h line g) s2.cores }) ∧
    (∀ f, (dieAt s n).freeing.find? (fun f => !frameBusy s f) = some f →
      exec (.frameReturn n) s = .next (modDie { s with old := s.old.filter fun o => o.gran / 128 != f } n fun d => { d with
        freeing := d.freeing.erase f
        pool := d.pool ++ [f] }))

/-! ## The tier engine, the gatherer and Ovlan Link -/

/-- R332 to R334, R341, R347, R352: landings and moves complete, a gust's tick comes, a batch's deadline closes it, and what
other packages send arrives. The number under which a removal is logged (log entry 21) and that an acknowledgement which
comes before its shard is started is kept (log entry 57) are the model's choice, as is that a flit's port is an unknown function of its
destination (log entry 66). -/
def Obligations.TierEvents : Prop :=
  ∀ (s : State) (n k pkg : Nat) (epoch : BitVec 32),
    (∀ ws g tick, (ctxAt s n).held = some ws → decodeEntry (ctxAt s n).cidx ws = .ok (.gust g tick) →
      effTick (ctxAt s n) tick.toNat ≤ itinTick s (ctxAt s n) →
      ∃ t, exec (.gust g tick) { s with cur := .ctx n } = .next t ∧
        exec (.gustRelease n) s = .next { t with cur := .none }) ∧
    (∀ m, (ctxAt s n).moves.find? (fun m => m.a.dtier == 3#2 && m.units.isEmpty && (m.status.isNone || m.token)) = some m →
      m.status = none → exec (.landingDone n) s = .next (finishLanding s n m)) ∧
    (∀ m, (ctxAt s n).moves.find? (fun m => m.idx == k && m.status.isNone && m.a.dtier != 3#2 && m.units.isEmpty) = some m →
      exec (.moveComplete n k) s = .next (completeMove s n m.order .done)) ∧
    (∀ s2 s3 s4,
      let g := rqAt s n
      let puts := fun (t : State) (off : Nat) (ws : List Word) (t' : State) => ∃ l,
        let g := rqAt t n
        cpWrite t g.die g.ans g.space g.obj g.gen off (ws.flatMap (toBytes 4)) = .ok l t'
      g.active = true → g.openV = true → g.closing = [] → g.deadline ≤ s.frame.toNat - g.openAt →
      puts s (0x40 + 16 * (g.nb.toNat % 64)) [g.head, BitVec.ofNat 32 g.openN, s.frame.setWidth 32, 1#32] s2 →
      puts (spendRing s2 n) 0x04 [g.head + BitVec.ofNat 32 g.openN] s3 → puts (spendRing s3 n) 0x0C [g.nb + 1] s4 →
      let t := spendRing s4 n
      let x := rqAt t n
      x.rels = [] → stillOpen t x.cover = [] → ∃ u, exec (.deadlineClose n) s = .next u ∧
        semOf u x.die x.sem = semOf t x.die x.sem + d64 x.openN ∧ rqAt u n = { x with
          closing := []
          openV := false
          openN := 0
          head := x.head + BitVec.ofNat 32 x.openN
          nb := x.nb + 1 }) ∧
    (s.cuts.contains epoch = false →
      (s.te.any fun c => c.2.moves.any fun m => waitsShard m epoch k) = true → shardAt s epoch k = none →
      (∀ l, exec (.shardFlit epoch k l) s = .next { s with shards := s.shards ++ [{ epoch := epoch, k := k, data := l }] }) ∧
      exec (.failureFlit epoch k pkg) s = .next (settleMembers { s with
        shards := s.shards ++ [{ epoch := epoch, k := k, data := [], fail := some (statusOf pkg) }] })) ∧
    (notStarted s epoch k = false → exec (.ackFlit epoch k pkg) s = .next (dropAck s epoch pkg (some k))) ∧
    (notStarted s epoch k = true → s.acked.contains (epoch, k, pkg) = false →
      exec (.ackFlit epoch k pkg) s = .next { s with acked := s.acked ++ [(epoch, k, pkg)] }) ∧
    (s.cuts.contains epoch = false → exec (.removalFlit epoch Config.package.toNat) s =
      .next (forgetStream (settleMembers { s with cuts := s.cuts ++ [epoch] }) epoch)) ∧
    (s.ends.contains epoch = false →
      exec (.endOfStream epoch) s = .next (forgetStream (settleMembers { s with ends := s.ends ++ [epoch] }) epoch)) ∧
    (∀ m x, (ctxAt s n).moves.find? (fun m => !m.member && m.shard == k && m.acks.contains pkg &&
        pkg != Config.package.toNat && (m.str.map fun x => (m.sent.map fun t => decide (t + x.ackto ≤ s.frame.toNat)).getD
          false).getD false) = some m → m.str = some x →
      exec (.acktoSource n k pkg) s = .next (toPackage (modCtx
        (dropAck (logEvent s 6 (pkg * 2 ^ 32 + x.epoch.toNat)) x.epoch pkg none) n fun c => { c with
          mc := c.mc.map fun y => if y.epoch = x.epoch then { y with pmask := y.pmask &&& ~~~(1#16 <<< pkg) } else y })
        pkg (.removal pkg x.epoch))) ∧
    (∀ m x, (ctxAt s n).moves.find? (fun m =>
        (m.str.map fun x => waitsShard m x.epoch m.shard && decide (m.started + x.ackto ≤ s.frame.toNat) &&
          (memberStep s n m x).isSome).getD false) = some m → m.str = some x →
      s.cuts.contains x.epoch = false →
      exec (.acktoMember n) s = .next (forgetStream (settleMembers { s with cuts := s.cuts ++ [x.epoch] }) x.epoch))

/-! ## Memory and links -/

/-- R356, R361 to R368, R370 to R375: controllers, the patrol scrubber, the thermal freeze, ports and links. The numbers of the
events 11 and 12 (log entry 21), that a port's count of replays in a row starts anew at the retraining that ends it (log entry
30), that an MC_READ is of class C3 and how it waits (log entry 61), that which store enters first is free (log entry 86), and that a
write of the host window enters its queue at once (log entry 64) are the model's choice. -/
def Obligations.MemoryAndLinks : Prop :=
  ∀ (s : State) (n g : Nat),
    let c := ctlAt s n
    (∀ w s1, chooseOf s (storesFor s n) = (some w, s1) →
      c.hot = false → wqFull s n (w.pa / 64) = false → exec (.mcWrite n) s = .next (enterStore s1 w)) ∧
    (∀ d, servable c n g = true → exec (.mcRead n g d) s = .next (granRead s n g d).2) ∧
    (∀ d, servable c n g = false → exec (.mcRead n g d) s = .next (modCtl s n fun c => { c with waiting := c.waiting ++ [(g, d, 3)] })) ∧
    (∀ h, nextDrain c n = some h → exec (.entryDrain n) s = .next (serveWaiting (drainEntry s h) n)) ∧
    (∀ h, c.order.find? (fun g => !c.drain.contains (Config.channel n g)) = some h →
      exec (.drainAge n) s = .next (modCtl s n fun c => enterDrain c (Config.channel n h))) ∧
    exec (.promoteC2 n) s = .next (modCtl s n fun c => { c with waiting := promoteFirst c.waiting }) ∧
    (mayScrub s n g = true → ∀ v s2, devRead s n g none = (.ok v, s2) →
      (correctable s g = false → exec (.scrubRead n g) s = .next (modCtl s2 n fun c => scrubbed c n g)) ∧
      (correctable s g = true → (ctlAt s2 n).pend.contains g = false →
        exec (.scrubRead n g) s = .next (modCtl s2 n fun c => scrubbed { c with pend := c.pend ++ [g] } n g))) ∧
    (∀ r, c.pend = g :: r → wqFull s n g = false →
      ∃ t, exec (.scrubWriteback n) s = .next t ∧ (ctlAt t n).pend = r ∧ (ctlAt t n).order = c.order ++ [g] ∧
        mapFind t.wq g = some (scrubEntry s n g) ∧ t.mem = s.mem) ∧
    (∀ a x k r, (portAt s n).out[k]? = some (a, x) → ((portAt s n).state = 3#3 ∨ (portAt s n).state = 4#3) →
      overtakes s ((portAt s n).out.take k) a = false →
      exec (.cxlCompletion n k r) s = .next (answer (modPort s n fun x => { x with out := x.out.eraseIdx k }) a r)) ∧
    (∀ a t rest, (portAt s n).out = (a, t) :: rest → (portAt s n).tmo.toNat ≤ s.frame.toNat - t →
      portOut s n = false → exec (.completionTimeout n) s = .next (isolatePort s n)) ∧
    (let x := Machine.queueAt s n g
     ready s = true → x.en = true → x.stop = none → x.head ≠ x.tail →
     exec (.hostReadTimeout n g) s = .next (stopQueue s n g .access false)) ∧
    (let x : LinkSt := mapGet {} s.ovl n
     x.down = false → x.training = false → x.replays < 15 →
     exec (.flitReplay (.ovlan n)) s = .next { s with
       ovl := mapSet {} s.ovl n { x with replays := x.replays + 1 } }) ∧
    (let x : LinkSt := mapGet {} s.bnds n
     x.down = false → x.training = false → x.replays = 15 →
     ∃ t, exec (.flitReplay (.boundary n)) s = .next t ∧ mapGet {} t.bnds n = { x with
       replays := 0
       training := true
       since := s.frame.toNat
       retrains := x.retrains + 1 }) ∧
    ((portAt s n).state = 3#3 → (portAt s n).replays = 15 →
     ∃ t, exec (.flitReplay (.cxl n)) s = .next t ∧ (portAt t n).state = 1#3 ∧ (portAt t n).replays = 0) ∧
    ((mapGet {} s.ovl n : LinkSt).training = true →
      exec (.linkRetrained (.ovlan n)) s = .next { s with
        ovl := mapMod {} s.ovl n linkTrained
        out := s.out ++ (mapGet {} s.ovl n : LinkSt).wait }) ∧
    ((mapGet {} s.bnds n : LinkSt).training = true →
      exec (.linkRetrained (.boundary n)) s = .next { s with bnds := mapMod {} s.bnds n linkTrained }) ∧
    ((portAt s n).state = 1#3 → (portAt s n).restored = false →
      ∃ t, exec (.linkRetrained (.cxl n)) s = .next t ∧ (portAt t n).state = 3#3) ∧
    (trainedOut (mapGet {} s.ovl n) s.frame.toNat = true →
      exec (.ovlanLinkDown n) s = .next (logEvent { s with ovl := mapMod {} s.ovl n linkDown } 11 n)) ∧
    (trainedOut (mapGet {} s.bnds n) s.frame.toNat = true →
      exec (.boundaryDown n) s = .next (cutStores (cutRequests
        (logEvent { s with bnds := mapMod {} s.bnds n linkDown } 12 n) n) n)) ∧
    (∀ t, ready s = true → hasDevice s n = true → c.tcrit.toNat ≤ BitVec.toNat t → c.hot = false →
      exec (.thermalFreeze n t) s = .next (heat (modCtl s n fun c => { c with temp := t }) n)) ∧
    (s.thermal = [n] → c.temp.toNat ≤ c.tres.toNat →
      exec (.thermalResume []) s =
        .next ((coolDevice { s with thermal := [] } n).crews.foldl (fun s p => coolCrew s p.1)
          (coolDevice { s with thermal := [] } n))) ∧
    (∀ pa d b m, ready s = true →
      exec (.hostWindowAccess true pa d b m) s = .next (windowWrite (b.length + 1) s d pa b) ∧
      (opaqueAt s pa m = false →
        ∀ l s2, windowRead (m + 1) s d pa m = (0, l, s2) →
          exec (.hostWindowAccess false pa d b m) s = .next (emit s2 (.cpl 0 l))))

/-! ## Boot, power, time -/

/-- R5, R378, R380, R381, R392 to R394: resets, boot phases, the states and the cap of power, FRAME and the hourly commit; the
return from STANDBY follows phases 5 and 6. The number of the event of a device that is left out, and of that of eight windows
above the cap, is the model's choice (log entry 21). -/
def Obligations.BootAndPower : Prop :=
  ∀ (s : State) (w : Nat),
    (s.off = true → exec .powerOn s = .next { afterReset s with off := false }) ∧
    (s.off = false → exec .perst s = .next (afterReset (commitCounters s))) ∧
    exec .powerLoss s = .next { afterReset s with off := true } ∧
    (ready s = true →
      exec .rstCtlReset s = .next (afterReset (commitCounters s)) ∧
      exec .pwrReqOn s = .next { s with pwrResult := 1#2 } ∧
      exec .pwrReqOff s = .next { afterReset (commitCounters s) with off := true } ∧
      (mayStandby s = false → exec .pwrReqStandby s = .next { s with pwrResult := 2#2 }) ∧
      (mayStandby s = true → ∃ t, exec .pwrReqStandby s = .next t ∧ t.pwrState = 2#2 ∧ t.pwrResult = 1#2)) ∧
    (s.off = false → s.berr = 0#4 →
      (s.phase = 0#4 → exec (.bootPhase .pass) s = .next { s with phase := 1#4 }) ∧
      (s.phase = 3#4 → exec (.bootPhase .pass) s = .next { s with phase := 4#4 }) ∧
      (∀ n l, s.phase = 4#4 → ∃ t, exec (.bootPhase (.bulk n l)) s = .next t ∧ t.phase = 5#4 ∧
        t.bulkSize = min n s.caps.mounted.toNat ∧
        t.msc.events = s.msc.events ++ l.map fun d => (19, d))) ∧
    (s.off = false → s.pwrState = 2#2 → s.phase = 7#4 → exec .pwrReqOn s = .next { s with phase := 5#4 }) ∧
    (s.off = false → s.pwrState = 2#2 → s.berr = 0#4 →
      (∀ c o b, s.phase = 5#4 → c.contains 0 = false → ∃ t, exec (.bootPhase (.ports c o b)) s = .next t ∧ t.phase = 6#4 ∧
        t.pwrState = 2#2 ∧ t.frame = s.frame ∧ t.caps = s.caps) ∧
      (s.phase = 6#4 → s.tails = [] → ∃ t, exec (.bootPhase .pass) s = .next t ∧ t.phase = 7#4 ∧ t.pwrState = 0#2 ∧
        t.pwrResult = 1#2 ∧ t.frame = s.frame ∧ t.caps = s.caps ∧ t.mem = s.mem ∧
        ∀ core, (mapGet {} t.cores core).gctr = 0#16)) ∧
    (∀ c o b, s.off = false → s.berr = 0#4 → s.phase = 5#4 → c.contains 0 = true →
      exec (.bootPhase (.ports c o b)) s = .next { s with
        berr := 6#4
        bdetail := 0x20#8 }) ∧
    (s.off = false → s.pwrState = 2#2 → ∃ t, exec .frameTick s = .next t ∧ t.frame = s.frame + 1 ∧
      t.winTicks = s.winTicks + 1 ∧ t.strands = s.strands ∧ t.mem = s.mem) ∧
    (ready s = true → (∀ d, d ∈ s.dies → ∀ q, q ∈ d.2.queues → q.2.frame = none) →
      (∀ r, (rqAt s r).active = false) → ∃ t, exec .frameTick s = .next t ∧ t.frame = s.frame + 1) ∧
    (ready s = true ∨ s.pwrState = 2#2 → 1024 ≤ s.winTicks → s.pwrCap.toNat < w → s.plvl ≠ 3#2 →
      exec (.powerWindow w) s = .next { s with
        winTicks := 0
        pwrInput := BitVec.ofNat 32 w
        plvl := s.plvl + 1
        overWins := 0 }) ∧
    (ready s = true ∨ s.pwrState = 2#2 → 1024 ≤ s.winTicks → s.pwrCap.toNat < w → s.plvl = 3#2 →
      let t := { s with
        winTicks := 0
        pwrInput := BitVec.ofNat 32 w
        overWins := s.overWins + 1 }
      exec (.powerWindow w) s = .next (if s.overWins = 7 then logEvent t 18 w else t)) ∧
    (ready s = true ∨ s.pwrState = 2#2 → 1024 ≤ s.winTicks → w ≤ s.pwrCap.toNat →
      exec (.powerWindow w) s = .next { s with
        winTicks := 0
        pwrInput := BitVec.ofNat 32 w
        plvl := if 20 * w < 19 * s.pwrCap.toNat ∧ s.plvl ≠ 0#2 then s.plvl - 1 else s.plvl
        overWins := 0 }) ∧
    (ready s = true → s.pwrState = 0#2 → packageIdle s = true → s.idleTicks.toNat ≤ s.frame.toNat - s.idleSeen →
      exec .idleEnter s = .next { s with pwrState := 1#2 }) ∧
    (s.off = false → exec .counterCommit s = .next (commitCounters (mscCount s (0, 0, 0) 1)))

/-! ## The management and security core -/

/-- R243, R379, R385 to R387: what the MSC answers to its commands: bytes and a status. Signatures, certificates and
hashes are functions of Config without a value (log entry 11). The order that numbers the counters and the place of their
values (log entry 22), the widths of what ATTEST signs and the byte that ends a debug read (log entry 23) and status 1 for an
unknown KIND (log entry 65) are the model's choice. -/
def Obligations.SecurityCommands : Prop :=
  ∀ (s : State), answers s = true →
    let ans := fun (i : Instr) (t : State) (l : List Byte) (st : Nat) => exec i s = .next (emit t (.ext l st))
    (∀ c k b, 11 ≤ c → ans (.readCounter c k b) s [] 1) ∧
    (∀ c k b, c < 11 → hasBin s (c, k, b) = false → ans (.readCounter c k b) s [] 2) ∧
    (∀ c k b, c < 11 → hasBin s (c, k, b) = true →
      ans (.readCounter c k b) s (toBytes (counterWidth (c, k, b)) (d64 (counterValue s (c, k, b)))) 0) ∧
    (∀ off, ans (.getCert 0 off) s ((Config.deviceCert.drop off).take 1024) 0 ∧
      ans (.getCert 1 off) s (((Config.aliasCert deviceSeed (aliasSeed (measOf s 1) (measOf s 4))).drop off).take 1024) 0) ∧
    (∀ nonce, let tail := toBytes 64 s.msc.loghash ++ toBytes 4 (d64 s.msc.log.length) ++ toBytes 8 s.frame
      ans (.attest nonce) s
        (tail ++ Config.mldsaSign (aliasSeed (measOf s 1) (measOf s 4)) (toBytes 64 (Config.sha3 (toBytes 32 nonce ++ tail)))) 0) ∧
    (∀ i n, ans (.getLog i n) s (((s.msc.log.drop i).take (min n 16)).flatMap (toBytes 64)) 0) ∧
    (∀ k, isKind k = false → ∀ pa, ans (.fwStage k pa) s [] 1) ∧
    (∀ k pa, isKind k = true → ∃ t, exec (.fwStage k pa) s = .next t ∧
      (answers (stageImage s k pa).2 = true → t = emit (stageImage s k pa).2 (.ext [] (stageImage s k pa).1))) ∧
    (∀ k v, mapFind s.msc.svn k = some v → s.msc.log.length < 1024 →
      ∃ t, exec (.fwCommit k) s = .next t ∧ mapFind t.msc.floors k = some (max (mapGet 0 s.msc.floors k) v) ∧
        t.msc.log.length = s.msc.log.length + 1 ∧ t.out = s.out ++ [.ext [] 0]) ∧
    (∀ id, exec (.setEndpointId true id) s = .next { s with msc := { s.msc with epI3c := id } } ∧
      exec (.setEndpointId false id) s = .next { s with msc := { s.msc with epPcie := id } }) ∧
    (∀ c, mscCommands.contains c = false → ans (.unknownCommand c) s [] 1) ∧
    (ready s = true → ∀ o g, hasObj s o = true →
      let x := debugObj s o
      (x.1 = some g → ans (.debugRead o g) s (x.2 ++ [0#8]) 0) ∧
      (x.1 ≠ some g → ans (.debugRead o g) s (x.2.map (fun _ => 0#8) ++ [1#8]) 0)) ∧
    (ready s = true → ∀ o n, hasObj s o = true → coreSpace s (objKey o).1 = some n → (spaceReg s n).consent = true →
      s.msc.policy.getLsbD 0 = true → s.msc.log.length < 1024 →
      ans (.rawRead o) (appendLog s (rawRecord s o)) ((debugObj s o).2 ++ [0#8]) 0) ∧
    (ready s = true → ∀ g n off b core st, g < 4096 → core < s.caps.dies.toNat * coresPerDie → strandAt s core = some st →
      n < 32 →
      (let x := debugObj s (.granule core g)
       let cur := x.1 == some st.cgen
       let y : SGran := { gen := st.cgen, val := ofBytes 512 (patch x.2 cur off (b.take 64)) }
       ans (.debugWrite (.granule core g) off b)
         { s with spad := mapSet {} s.spad (core * spadGrans + g) y } [] 0) ∧
      (let x := debugObj s (.x core n)
       let cur := x.1 == some st.cgen
       let y : XVal := { gen := st.cgen, val := ofBytes 64 (patch x.2 cur off (b.take 64)) }
       ans (.debugWrite (.x core n) off b)
         (setStrand s core (if n = 0 then st else { st with r := { st.r with x := mapSet {} st.r.x n y } })) [] 0))

/-! ## The machine as a whole -/

/-- R24 to R44 and Tables 2.2 to 2.12, 8.2: the words of the listings, each read by the decoder of its stream as the
instruction it stands for; a packet and an entry from their words. -/
def Obligations.DecodeWords : Prop :=
  decodeEngine .S 0x001190A1#32 0#32 = .ok (.sub 0#4 3#5 4#5 5#5) ∧
  decodeEngine .S 0x00348028#32 0#32 = .ok (.addi 0#4 9#5 0#5 40#10) ∧
  decodeEngine .S 0x00F31214#32 0#32 = .ok (.cwin 0#4 3#4 1#4 4#5 5#5) ∧
  decodeEngine .V 0x01389403#32 0#32 = .ok (.pcnt 0#4 17#5 5#5 3#2) ∧
  decodeEngine .V 0x43004402#32 0x7000#32 = .ok (.vld 0#4 1#6 1#4 0#5 2#2 0#16 7#4) ∧
  decodeEngine .M 0x00110000#32 0#32 = .ok (.mlease 0#4 32#9) ∧
  decodeEngine .M 0x54909001#32 0x800008FF#32 = .ok (.mstream 5#4 0#4 18#5 true 8#4 127#7 true 8#4) ∧
  decodeEngine .C 0x01042546#32 0#32 = .ok (.carm 0#4 8#5 9#5 10#5 3#4) ∧
  decodeEngine .V 0#32 0#32 = .ok (.vnop 0#4) ∧
  decodePacket true [0x05040014#32, 1#32, 0#32, 0#32] = .ok (.semwaitP 0#2 20#12 1#64) ∧
  decodeEntry 0 [0x02000000#32, 3#32, 0x500#32, 1#32, 0#32, 0#32, 0#32, 0#32] =
    .ok (.mcast 3#16 0#4 5#8 1#32 0#16)

/-- R24 to R44: reading an instruction's own words gives the instruction, with every field: every well-formed instruction
of every stream, prefix, packet and itinerary entry. -/
def Obligations.EncodingReadsBack : Prop := ∀ i : Instr, i.wf = true → ReadsBack i

/-- R21, R26, R209, R336: a step runs what it decodes. The stream that is scheduled executes the follower of the group
that it scans and decodes, with the group's prefixes latched; a queue's packet and an entry are executed as their
instructions; an event that is scheduled is executed, with no party acting. An action that a device in self-refresh holds
(R367) is not taken; the advance of FRAME waits for none. The schedule is the model’s own field (log entry 5). -/
def Obligations.StepRunsTheDecoded : Prop :=
  (∀ (s : State) (core : Nat) (e : Engine) (r : List Turn) (st : Strand) (h : Handle) (koff len : Nat) (g : Scan)
    (pre : List Instr) (i : Instr) (ws : List Word) (next : Nat), s.schedule = .stream core e :: r →
    let s1 := { s with schedule := r }
    let c := mapGet {} s1.cores core
    let pc := (streamOf st e).pc.toNat
    strandAt s1 core = some st → mayIssue s1 st e = true → imageOf s1 st e = some (h, koff, len) →
    scanGroup (len / 4 + 1) c h koff len pc [] = .ok g →
    decodeGroup e g (fetchWord c h koff len (g.addr + 4)) = .ok pre i ws next →
    step s = holdHot s1
      (closeTurn (exec i (prepareGroup (touchGroup s1 core h koff pc (next - 4)) core e pc g.addr next ws pre)))) ∧
  (∀ (s : State) (i : Instr) (r : List Turn) (t : State), s.schedule = .event i :: r →
    let s1 := { s with schedule := r }
    exec i { s1 with cur := .none } = .next t →
    (isTick i = false → step s = holdHot s1 (closeTurn (.next t))) ∧
    (isTick i = true → step s = closeTurn (.next { t with stall := false }))) ∧
  (∀ (p : Packet) (s : State), execPacket p s = exec p.instr s) ∧
  (∀ (e : Entry) (s : State), execEntry e s = exec e.instr s)

/-- R1, R240, R287, R291, R366, R368, R371, R381, R390, R393 and Tables 0.1, 14.1, 14.5, 18.4, 18.6, 18.7, 18.9, 19.8, 19.11: what
reset leaves: phase 0, FRAME 0, no strand, crew or launch, memory in canonical form with nothing listed; a queue not enabled, of
ceiling 7; the limits of a command processor; a controller's counters and thresholds; GCTR 0; the power cap of the variant. The statement names only values that the spec gives,
and that memory lists nothing (log entry 1: the model’s choice of how blank memory is written); that the cap is 2,400 W is that
the model's package is an LSF9-M96 (log entry 2). -/
def Obligations.ResetState : Prop :=
  let s := State.reset
  s.phase = 0#4 ∧ s.frame = 0#64 ∧ s.berr = 0#4 ∧ s.strands = [] ∧ s.crews = [] ∧ s.launches = [] ∧ s.mem = [] ∧
  MemOk s ∧ ready s = false ∧
  (∀ core, (mapGet {} s.cores core).gctr = 0#16) ∧
  (∀ die q, (Machine.queueAt s die q).en = false ∧ (Machine.queueAt s die q).ceil = 7 ∧
    (Machine.queueAt s die q).head = 0#32 ∧ (Machine.queueAt s die q).tail = 0#32) ∧
  (∀ die, (dieAt s die).plim = 20000#32 ∧ (dieAt s die).preen = true ∧ (dieAt s die).age = 1024#32 ∧
    (dieAt s die).stall = 2048#32 ∧ (dieAt s die).runlim = 65536#32 ∧ (dieAt s die).nxd = 4096) ∧
  (∀ c, (ctlAt s c).tcrit = 105#8 ∧ (ctlAt s c).tres = 95#8 ∧ (ctlAt s c).passh = 24#16 ∧
    (ctlAt s c).ue = 0#32 ∧ (ctlAt s c).ce = 0#32 ∧ (ctlAt s c).yield = 0#32 ∧ (ctlAt s c).int = 0#32) ∧
  (∀ p, (portAt s p).tmo = 4096#16) ∧ s.pwrCap = 2400#16 ∧ s.idleTicks = 1024#16

/-- R240, R361 to R363 and log entry 1: every step keeps memory in its canonical form: addresses rising, none listed
with the byte that an unlisted address reads as. The canonical form and what an unlisted byte reads as are the
model’s own (log entry 1: a design choice, no rule of the spec); a frame of every statement about memory rests on
it. -/
def Obligations.MemoryStaysCanonical : Prop := ∀ s t : State, MemOk s → step s = .next t → MemOk t

/-- R271, R361, R363, R370: where a store's bytes land: the write of a controller's next entry puts the bytes that the
entry's mask names into its granule, and into the others of the granule what the device read for it, and changes no other
byte of memory; a completed store to POOL changes the bytes that its mask names, and no other. -/
def Obligations.StoresReachMemory : Prop :=
  (∀ (s : State) (n g : Nat) (e : WqEntry), nextDrain (ctlAt s n) n = some g → (ctlAt s n).waiting = [] →
    mapFind s.wq g = some e →
    let lands := fun (v : Granule) => ∃ t, exec (.entryDrain n) s = .next t ∧
      (∀ a, a / 64 ≠ g → memByte t.mem a = memByte s.mem a) ∧
      ∀ i, i < 64 → memByte t.mem (64 * g + i) =
        if e.mask.getLsbD i then e.val.extractLsb' (8 * i) 8 else v.extractLsb' (8 * i) 8
    (e.mask = BitVec.allOnes 64 → lands e.val) ∧
    (∀ v s2, devRead (touchDev (dropEntry s g e) e.ctrl) e.ctrl g (some e.dom) = (.ok v, s2) → lands v)) ∧
  (∀ (s : State) (n sid seq x : Nat) (rest : List (Asker × Nat)) (w : StoreW),
    (portAt s n).out = (.store sid seq, x) :: rest → (portAt s n).state = 3#3 →
    findStore s sid seq = some w → w.tier = 2#2 →
    ∃ t, exec (.cxlCompletion n 0 .ok) s = .next t ∧
      ∀ a, memByte t.mem a =
        if a / 64 = w.pa / 64 ∧ w.mask.getLsbD (a % 64) = true then w.gran.extractLsb' (8 * (a % 64)) 8
        else memByte s.mem a)

/-! ## Traps -/

/-- R75 to R77, R396: a trap that the supervisor handles: the stream's record is written, the stream stands at its group's
first word, or at its push, the crew freezes, remembers what it was, and one fault queue entry is due. -/
def Obligations.SupervisorTrap : Prop :=
  ∀ (s : State) (core : Nat) (e : Engine) (r : TrapRec) (st : Strand) (c : Crew),
    strandAt s core = some st → crewAt s st.crew = some c → c.st = .running →
    let t := takeTrap s core e r
    (∃ st', strandAt t core = some st' ∧ (streamOf st' e).tr = some r ∧ st'.r = st.r ∧
      (streamOf st' e).pc = if r.pushp then (streamOf st e).pc else r.gaddr) ∧
    (∃ c', crewAt t st.crew = some c' ∧ c'.st = .frozen ∧ c'.remembered = .running ∧ c'.entryDue = true ∧
      c'.traps = c.traps ++ [(st.rank, e.num)]) ∧
    t.mem = s.mem ∧ t.dies = s.dies

/-- R46, R73, R75, R78, R84, R92, R108: what an instruction of the scalar stream traps on, with its cause, and that it then
has none of its own effect: a pattern its stream may not use, a system register of the supervisor's, a failed check of an
address, a stale source, a user trap with no handler to take it, uiret outside a handler, an end without the barrier. -/
def Obligations.InstructionTraps : Prop :=
  ∀ (s s1 : State) (core : Nat) (tk : Tk) (st : Strand) (xd xa xb : XReg) (cn : CReg) (imm : BitVec 6) (srn : BitVec 12)
    (code : BitVec 16) (o : DWord) (t : Trapped),
    (Poised s core .S tk s1 st →
      let traps := fun (i : Instr) (t : Trapped) => exec i s = .next (settle (trapNow s1 core .S t true false) core)
      (readX st .S xa = .error t → traps (.add tk xd xa xb) t ∧ traps (.jr tk xa) t ∧ traps (.ldd tk xd cn xa imm) t) ∧
      (readX st .S xa = .ok o →
        (smAddr s1 st cn o imm 4 .r = .error t → traps (.ldw tk xd cn xa imm) t ∧ traps (.ldwu tk xd cn xa imm) t) ∧
        (smAddr s1 st cn o imm 8 .r = .error t → traps (.ldd tk xd cn xa imm) t) ∧
        (∀ v, smAddr s1 st cn o imm 8 .w = .error t → readX st .S xd = .ok v → traps (.std tk xd cn xa imm) t)) ∧
      (st.sys.uistat.getLsbD 1 = true ∨ st.sys.uivec.extractLsb' 2 30 = 0#30 →
        traps (.brk tk code) { cause := .brk, detail := code } ∧
        traps (.trapu tk code) { cause := .trapu, detail := code }) ∧
      (st.sys.uistat.getLsbD 1 = false → traps (.uiret tk) { cause := .uiState }) ∧
      (needsXsync s1 st = true → st.xsync = false → traps (.sEnd tk) { cause := .crewExitUnsynced })) ∧
    (s.cur = .stream core .S → strandAt s core = some st →
      let refused := fun (i : Instr) (c : Cause) =>
        exec i s = .next (settle (trapNow s core .S { cause := c } false false) core)
      (0x800 ≤ srn.toNat → st.super = false →
        refused (.srr tk xd srn) .supervisorOnly ∧ refused (.srw tk xd srn) .supervisorOnly) ∧
      (patternOk .S (patOf st .S tk) = false → refused (.add tk xd xa xb) .tokenPattern ∧ refused (.snop tk) .tokenPattern))

/-- R46, Table 3.10: cap_check: the right first, then the bound, computed without wrap; what passes is the window's base
plus the offset. -/
def Obligations.CapabilityCheck : Prop :=
  ∀ (st : Strand) (cn : CReg) (off : DWord) (size : Nat) (rt : Right) (c : CapBits), readC st cn = .ok c →
    let n : BitVec 16 := BitVec.ofNat 16 cn.toNat
    (hasRight c rt = false → capCheck st cn off size rt = .error { cause := .capRights, detail := n }) ∧
    (hasRight c rt = true → (off.toInt < 0 ∨ (capLen c : Int) < off.toInt + size) →
      capCheck st cn off size rt = .error { cause := .capBound, detail := n }) ∧
    (hasRight c rt = true → 0 ≤ off.toInt → off.toInt + size ≤ capLen c →
      capCheck st cn off size rt = .ok (c, capBase c + off.toNat))

/-- R64, R84, R125: x0 reads as zero and p0 as all ones, in every state, and a write of either changes nothing; what is
written to another register is what reads of it give, and no other register changes. -/
def Obligations.HardwiredRegisters : Prop :=
  ∀ (st : Strand) (e : Engine) (v : DWord) (b : PBits) (x y : XReg) (p q : PReg),
    readX st e 0#5 = .ok 0#64 ∧ writeX st e 0#5 v = st ∧ readP st 0#5 = .ok (BitVec.allOnes 1024) ∧ writeP st 0#5 b = st ∧
    (x ≠ 0#5 → readX (writeX st e x v) e x = .ok v) ∧ (x ≠ y → readX (writeX st e x v) e y = readX st e y) ∧
    (p ≠ 0#5 → readP (writeP st p b) p = .ok b) ∧
    (rotP st p.toNat ≠ rotP st q.toNat → readP (writeP st p b) q = readP st q)

/-- R89: cinsp reads one field of a capability into xd, zero-extended, whatever its rights; a void register inspects as the
zero capability; FIELD 5 to 7 trap ILLEGAL_OPCODE. -/
def Obligations.CapabilityInspection : Prop :=
  (∀ (s s1 : State) (core : Nat) (tk : Tk) (st : Strand) (xd : XReg) (ca : CReg) (c : CapBits),
    Poised s core .S tk s1 st → readC st ca = .ok c →
    let done := fun (i : Instr) (v : DWord) => Completes i s s1 core .S (writeX st .S xd v) s1.grp.next
    done (.cinspBase tk xd ca) ((c.extractLsb' 0 40).setWidth 64) ∧
    done (.cinspLen tk xd ca) ((c.extractLsb' 40 40).setWidth 64) ∧
    done (.cinspRights tk xd ca) ((c.extractLsb' 80 8).setWidth 64) ∧
    done (.cinspObj tk xd ca) ((c.extractLsb' 104 24).setWidth 64) ∧
    done (.cinspGen tk xd ca) ((c.extractLsb' 88 16).setWidth 64)) ∧
  (∀ (st : Strand) (ca : CReg), st.gtrap = false → (mapGet {} st.r.c ca.toNat : CVal).gen ≠ st.cgen →
    readC st ca = .ok 0#128) ∧
  (∀ w w2 : Word, w.toNat / 2 ^ 20 % 64 = 0x0B → 5 ≤ w.toNat / 2 ^ 8 % 8 → decodeEngine .S w w2 = .opcode)

/-- R125: plogic is bitwise over all 1024 bits and writes pd whole; FN 6 and 7 trap ILLEGAL_OPCODE; it accepts no prefix. -/
def Obligations.PredicateLogic : Prop :=
  (∀ (s s1 : State) (core : Nat) (tk : Tk) (st : Strand) (pd pa pb : PReg) (a b : PBits),
    Poised s core .V tk s1 st → readP st pa = .ok a → readP st pb = .ok b →
    let done := fun (i : Instr) (v : PBits) => Completes i s s1 core .V (writeP st pd v) s1.grp.next
    done (.pand tk pd pa pb) (a &&& b) ∧ done (.por tk pd pa pb) (a ||| b) ∧ done (.pxor tk pd pa pb) (a ^^^ b) ∧
    done (.pandn tk pd pa pb) (a &&& ~~~b) ∧ done (.pnot tk pd pa) (~~~a) ∧ done (.pmov tk pd pa) a) ∧
  (∀ w w2 : Word, w.toNat / 2 ^ 20 % 64 = 0x11 → 6 ≤ w.toNat / 2 ^ 2 % 8 → decodeEngine .V w w2 = .opcode) ∧
  (∀ i : Instr, i.form = .pfx → acceptsPrefix (accept .V 0x11) i = false)
end

