-- ==== Sys2Proof/Laws/Bits.lean ====
section
/-! SUPPORT. Reading a field of a word that was put together from fields. -/
namespace Sys2Proof.Laws
open Sys2Proof Sys2Proof.Machine
set_option linter.unusedSimpArgs false

@[simp] theorem bits_or {n : Nat} (x y : BitVec n) (lo k : Nat) : bits (x ||| y) lo k = bits x lo k ||| bits y lo k := by
  unfold bits; apply BitVec.eq_of_getLsbD_eq; intro i hi; simp [hi]
@[simp] theorem bits_fld_low {w : Nat} (k lo n : Nat) (x : BitVec w) (h : lo + n ≤ k) : bits (fld k x) lo n = 0#n := by
  unfold bits fld; apply BitVec.eq_of_getLsbD_eq; intro i hi; simp [hi]; intros; omega
@[simp] theorem bits_fld {w : Nat} (k lo n : Nat) (x : BitVec w) (h : k ≤ lo) (h' : lo + n ≤ 32) :
    bits (fld k x) lo n = bits x (lo - k) n := by
  unfold bits fld; apply BitVec.eq_of_getLsbD_eq; intro i hi
  have h1 : ¬ (lo + i < k) := by omega
  have h2 : lo + i - k = lo - k + i := by omega
  have h4 : lo + i < 32 := by omega
  simp [hi, h1, h2, h4]
@[simp] theorem bits_high {w : Nat} (x : BitVec w) (lo n : Nat) (h : w ≤ lo) : bits x lo n = 0#n := by
  unfold bits; apply BitVec.eq_of_getLsbD_eq; intro i hi; simp [hi]; exact BitVec.getLsbD_of_ge _ _ (by omega)
@[simp] theorem bits_self {n : Nat} (x : BitVec n) : bits x 0 n = x := by simp [bits]
@[simp] theorem bits_zero (n lo k : Nat) : bits (0#n) lo k = 0#k := by simp [bits]
@[simp] theorem fieldOf_eq {n : Nat} (x : BitVec n) (lo w : Nat) : fieldOf x lo w = (bits x lo w).toNat := rfl
@[simp] theorem zeroBits_eq {n : Nat} (x : BitVec n) (lo w : Nat) : zeroBits x lo w = (bits x lo w == 0#w) := rfl
@[simp] theorem or_eq_zero {n : Nat} (x y : BitVec n) : (x ||| y == 0#n) = (x == 0#n && y == 0#n) := by
  rw [Bool.eq_iff_iff]; simp
@[simp] theorem zero_fld_mid {w : Nat} (k lo n : Nat) (x : BitVec w) (h : lo < k) (h' : lo + n ≤ 32) (h2 : k < lo + n) :
    (bits (fld k x) lo n == 0#n) = (bits x 0 (lo + n - k) == 0#(lo + n - k)) := by
  rw [Bool.eq_iff_iff]; simp only [beq_iff_eq]; unfold bits fld
  constructor
  · intro h; apply BitVec.eq_of_getLsbD_eq; intro i hi
    have := congrArg (fun z => z.getLsbD (k - lo + i)) h
    have a1 : k - lo + i < n := by omega
    have a2 : lo + (k - lo + i) = k + i := by omega
    have a3 : k + i < 32 := by omega
    have a4 : i < 32 := by omega
    simpa [a1, a2, a3, a4, hi] using this
  · intro h; apply BitVec.eq_of_getLsbD_eq; intro i hi
    by_cases hk : lo + i < k
    · simp [hi, hk]
    · have := congrArg (fun z => z.getLsbD (lo + i - k)) h
      have a1 : lo + i - k < lo + n - k := by omega
      simp [a1] at this
      simp [hi, hk]; intros; exact this
@[simp] theorem getLsbD_fld {w : Nat} (k i : Nat) (x : BitVec w) (h : i < 32) :
    (fld k x).getLsbD i = (decide (k ≤ i) && x.getLsbD (i - k)) := by
  unfold fld
  by_cases hk : i < k
  · have : ¬ k ≤ i := by omega
    simp [h, hk, this]
  · have : k ≤ i := by omega
    simp [h, hk, this]
@[simp] theorem bit1_beq (b : Bool) : (bit1 b == 0#1) = !b := by cases b <;> rfl
@[simp] theorem getLsbD_bit1 (b : Bool) : (bit1 b).getLsbD 0 = b := by cases b <;> rfl

@[simp] theorem bits_ofNat (n k lo w : Nat) : bits (BitVec.ofNat n k) lo w = BitVec.ofNat w ((k % 2 ^ n) >>> lo) := by
  unfold bits; apply BitVec.eq_of_toNat_eq; simp
@[simp] theorem getElem_fld {w : Nat} (k i : Nat) (x : BitVec w) (h : i < 32) :
    (fld k x)[i] = (decide (k ≤ i) && x.getLsbD (i - k)) := by
  rw [← getLsbD_fld k i x h, BitVec.getLsbD_eq_getElem]
@[simp] theorem getElem_bit1 (b : Bool) : (bit1 b)[0] = b := by cases b <;> rfl
@[simp] theorem getLsbD_past {w : Nat} (x : BitVec w) (i : Nat) (h : w ≤ i) : x.getLsbD i = false :=
  BitVec.getLsbD_of_ge x i h
@[simp] theorem bit1_false : bit1 false = 0#1 := rfl
@[simp] theorem bit1_true : bit1 true = 1#1 := rfl
theorem halves (n m : Nat) (x : BitVec (n + m)) : (bits x m n : BitVec n) ++ (bits x 0 m : BitVec m) = x := by
  unfold bits; apply BitVec.eq_of_getLsbD_eq; intro i hi
  rw [BitVec.getLsbD_append]
  split
  · rename_i h; simp [h]
  · have : m + (i - m) = i := by omega
    have h2 : i - m < n := by omega
    simp [this, h2]
theorem halves64 (x : BitVec 64) : (bits x 32 32 : BitVec 32) ++ (bits x 0 32 : BitVec 32) = x := halves 32 32 x
theorem halves40 (x : BitVec 40) : (bits x 32 8 : BitVec 8) ++ (bits x 0 32 : BitVec 32) = x := halves 8 32 x
theorem bits_bits {w : Nat} (x : BitVec w) (a n lo k : Nat) (h : lo + k ≤ n) :
    bits (bits x a n) lo k = bits x (a + lo) k := by
  unfold bits; apply BitVec.eq_of_getLsbD_eq; intro i hi
  have h1 : lo + i < n := by omega
  simp [hi, h1, Nat.add_assoc]
theorem quarters (x : BitVec 128) :
    @HAppend.hAppend (BitVec 64) (BitVec 64) (BitVec (64 + 64)) _ ((bits x 96 32 : BitVec 32) ++ (bits x 64 32 : BitVec 32))
      ((bits x 32 32 : BitVec 32) ++ (bits x 0 32 : BitVec 32)) = x := by
  have h1 := halves 32 32 (bits x 64 64)
  have h2 := halves 32 32 (bits x 0 64)
  rw [bits_bits _ _ _ _ _ (by decide), bits_bits _ _ _ _ _ (by decide)] at h1 h2
  have h3 := halves 64 64 x
  rw [← h1, ← h2] at h3
  exact h3
theorem bits_above (c : BitVec 8) (h : bits c 6 2 = 0#2) : bits c 6 10 = 0#10 := by
  revert h; revert c; decide +kernel
theorem wOP_engWord (d : Bool) (tk : Tk) (op : BitVec 6) (body : Word) (h : bits body 20 6 = 0#6) :
    wOP (engWord d tk op body) = op.toNat := by
  simp [wOP, engWord, fieldOf_eq, bits_or, bits_fld_low, bits_fld, bits_self, bits_high, h]
theorem wLS_engWord (d : Bool) (tk : Tk) (op : BitVec 6) (body : Word) (h : bits body 30 2 = 0#2) :
    wLS (engWord d tk op body) = (bit1 d).setWidth 2 := by
  cases d <;> simp [wLS, engWord, bits_or, bits_fld_low, bits_fld, bits_self, bits_high, bits_ofNat, bit1, h]
theorem wTK_engWord (d : Bool) (tk : Tk) (op : BitVec 6) (body : Word) (h : bits body 26 4 = 0#4) :
    wTK (engWord d tk op body) = tk := by
  simp [wTK, engWord, bits_or, bits_fld_low, bits_fld, bits_self, bits_high, h]

end Sys2Proof.Laws
end

