-- ==== Sys2Proof/Laws/State.lean ====
section
/-! SUPPORT. Field lemmas of the named updates of the machine: what each update leaves of every field a proof reads. -/
namespace Sys2Proof.Laws
open Sys2Proof Sys2Proof.Machine

/-! ## Maps -/

@[simp] theorem mapFind_nil {α : Type} (k : Nat) : mapFind ([] : FMap α) k = none := rfl

theorem mapFind_cons {α : Type} (p : Nat × α) (m : FMap α) (k : Nat) :
    mapFind (p :: m) k = if p.1 = k then some p.2 else mapFind m k := by
  by_cases h : p.1 = k <;> simp [mapFind, h]

theorem mapFind_append {α : Type} (a b : FMap α) (k : Nat) : mapFind (a ++ b) k = (mapFind a k).or (mapFind b k) := by
  simp only [mapFind, List.find?_append]
  cases a.find? _ <;> rfl

/-- A map restricted to some keys. -/
theorem mapFind_filter {α : Type} (m : FMap α) (f : Nat → Bool) (k : Nat) :
    mapFind (m.filter fun p => f p.1) k = if f k then mapFind m k else none := by
  induction m with
  | nil => simp
  | cons p m ih => by_cases h : p.1 = k <;> cases hf : f p.1 <;> simp_all [mapFind_cons]

theorem mapFind_mem {α : Type} {m : FMap α} {k : Nat} {v : α} (h : mapFind m k = some v) : (k, v) ∈ m := by
  obtain ⟨p, hp, rfl⟩ := Option.map_eq_some_iff.1 h
  have hk : p.1 = k := by simpa using List.find?_some hp
  exact hk ▸ List.mem_of_find?_eq_some hp

theorem mapFind_erase {α : Type} (m : FMap α) (k j : Nat) :
    mapFind (mapErase m k) j = if k = j then none else mapFind m j := by
  rw [mapErase, mapFind_filter m (· != k)]
  by_cases h : k = j
  · simp [h]
  · simp [h, show j ≠ k from Ne.symm h]

/-- Reading a map after a write to it. -/
@[simp] theorem mapFind_put {α : Type} (m : FMap α) (k j : Nat) (v : α) :
    mapFind (mapPut m k v) j = if k = j then some v else mapFind m j := by
  rw [mapPut, mapFind_append, mapFind_cons, mapFind_filter m (fun i => decide (i < k)), mapFind_filter m (fun i => decide (k < i))]
  rcases Nat.lt_trichotomy k j with h | rfl | h
  · simp [h, Nat.ne_of_lt h, Nat.not_lt.2 (Nat.le_of_lt h)]
  · simp
  · simp [h, Nat.ne_of_gt h, Nat.not_lt.2 (Nat.le_of_lt h)]

@[simp] theorem mapGet_put {α : Type} (d : α) (m : FMap α) (k j : Nat) (v : α) :
    mapGet d (mapPut m k v) j = if k = j then v else mapGet d m j := by
  unfold mapGet; rw [mapFind_put]; split <;> simp

/-- Reading a map after a write to it, where an unlisted key reads as `d`. -/
@[simp] theorem mapGet_set {α : Type} [DecidableEq α] (d : α) (m : FMap α) (k j : Nat) (v : α) :
    mapGet d (mapSet d m k v) j = if k = j then v else mapGet d m j := by
  unfold mapSet
  split
  · rename_i h; subst h; unfold mapGet; rw [mapFind_erase]; split <;> simp
  · simp

@[simp] theorem mapGet_mod {α : Type} [DecidableEq α] (d : α) (m : FMap α) (k j : Nat) (f : α → α) :
    mapGet d (mapMod d m k f) j = if k = j then f (mapGet d m k) else mapGet d m j := by
  simp [mapMod]

/-! ## Strands and streams -/

@[simp] theorem streamOf_setStream (st : Strand) (e f : Engine) (x : Stream) :
    streamOf (setStream st e x) f = if e = f then x else streamOf st f := by
  cases e <;> cases f <;> simp [streamOf, setStream, Engine.num]

@[simp] theorem strandAt_setStrand (s : State) (c d : Nat) (st : Strand) :
    strandAt (setStrand s c st) d = if c = d then some st else strandAt s d := by
  simp [strandAt, setStrand]

@[simp] theorem setStrand_grp (s : State) (c : Nat) (st : Strand) : (setStrand s c st).grp = s.grp := rfl
@[simp] theorem setStrand_cur (s : State) (c : Nat) (st : Strand) : (setStrand s c st).cur = s.cur := rfl
@[simp] theorem setStrand_pfx (s : State) (c : Nat) (st : Strand) : (setStrand s c st).pfx = s.pfx := rfl
@[simp] theorem setStrand_mem (s : State) (c : Nat) (st : Strand) : (setStrand s c st).mem = s.mem := rfl
@[simp] theorem setStrand_crews (s : State) (c : Nat) (st : Strand) : (setStrand s c st).crews = s.crews := rfl
@[simp] theorem setStrand_launches (s : State) (c : Nat) (st : Strand) : (setStrand s c st).launches = s.launches := rfl
@[simp] theorem setStrand_frame (s : State) (c : Nat) (st : Strand) : (setStrand s c st).frame = s.frame := rfl
@[simp] theorem setStrand_dies (s : State) (c : Nat) (st : Strand) : (setStrand s c st).dies = s.dies := rfl
@[simp] theorem setStrand_resets (s : State) (c : Nat) (st : Strand) : (setStrand s c st).resets = s.resets := rfl
@[simp] theorem setStrand_stall (s : State) (c : Nat) (st : Strand) : (setStrand s c st).stall = s.stall := rfl
@[simp] theorem setStrand_aq (s : State) (c : Nat) (st : Strand) : (setStrand s c st).aq = s.aq := rfl
@[simp] theorem setStrand_acked (s : State) (c : Nat) (st : Strand) : (setStrand s c st).acked = s.acked := rfl
@[simp] theorem setStrand_nfail (s : State) (c : Nat) (st : Strand) : (setStrand s c st).nfail = s.nfail := rfl
@[simp] theorem setStrand_quads (s : State) (c : Nat) (st : Strand) : (setStrand s c st).quads = s.quads := rfl

theorem modStrand_some {s : State} {c : Nat} {st : Strand} (f : Strand → Strand) (h : strandAt s c = some st) :
    modStrand s c f = setStrand s c (f st) := by simp [modStrand, h]

theorem modStrand_none {s : State} {c : Nat} (f : Strand → Strand) (h : strandAt s c = none) : modStrand s c f = s := by
  simp [modStrand, h]

theorem strandAt_modStrand (s : State) (c d : Nat) (f : Strand → Strand) :
    strandAt (modStrand s c f) d = if c = d then (strandAt s c).map f else strandAt s d := by
  cases h : strandAt s c with
  | none => rw [modStrand_none f h]; split <;> simp_all
  | some st => rw [modStrand_some f h, strandAt_setStrand]; simp

@[simp] theorem modStrand_crews (s : State) (c : Nat) (f : Strand → Strand) : (modStrand s c f).crews = s.crews := by
  unfold modStrand; split <;> rfl
@[simp] theorem modStrand_grp (s : State) (c : Nat) (f : Strand → Strand) : (modStrand s c f).grp = s.grp := by
  unfold modStrand; split <;> rfl

@[simp] theorem modCrew_strands (s : State) (k : Nat) (f : Crew → Crew) : (modCrew s k f).strands = s.strands := by
  unfold modCrew; split <;> rfl
@[simp] theorem modCrew_launches (s : State) (k : Nat) (f : Crew → Crew) : (modCrew s k f).launches = s.launches := by
  unfold modCrew; split <;> rfl
@[simp] theorem modLaunch_strands (s : State) (n : Nat) (f : Launch → Launch) : (modLaunch s n f).strands = s.strands := by
  unfold modLaunch; split <;> rfl
@[simp] theorem modLaunch_crews (s : State) (n : Nat) (f : Launch → Launch) : (modLaunch s n f).crews = s.crews := by
  unfold modLaunch; split <;> rfl

/-! ## Units: what a unit's own update leaves of it, and of memory, strands and crews -/

@[simp] theorem dieAt_modDie (s : State) (d e : Nat) (f : Die → Die) :
    dieAt (modDie s d f) e = if d = e then f (dieAt s d) else dieAt s e := mapGet_mod _ _ _ _ _
@[simp] theorem quadAt_modQuad (s : State) (q r : Nat) (f : Quad → Quad) :
    Machine.quadAt (modQuad s q f) r = if q = r then f (Machine.quadAt s q) else Machine.quadAt s r := mapGet_mod _ _ _ _ _
@[simp] theorem queueAt_modQueue (s : State) (d q r : Nat) (f : Queue → Queue) :
    queueAt (modQueue s d q f) d r = if q = r then f (queueAt s d q) else queueAt s d r := by
  simp [queueAt, modQueue]
theorem queueAt_modQueue_die (s : State) {d e : Nat} (q r : Nat) (f : Queue → Queue) (h : d ≠ e) :
    queueAt (modQueue s d q f) e r = queueAt s e r := by simp [queueAt, modQueue, h]
@[simp] theorem ctlAt_modCtl (s : State) (c d : Nat) (f : MemCtl → MemCtl) :
    ctlAt (modCtl s c f) d = if c = d then f (ctlAt s c) else ctlAt s d := mapGet_mod _ _ _ _ _
@[simp] theorem portAt_modPort (s : State) (p q : Nat) (f : CxlPort → CxlPort) :
    portAt (modPort s p f) q = if p = q then f (portAt s p) else portAt s q := mapGet_mod _ _ _ _ _
@[simp] theorem ctxAt_modCtx (s : State) (n m : Nat) (f : TeCtx → TeCtx) :
    ctxAt (modCtx s n f) m = if n = m then f (ctxAt s n) else ctxAt s m := mapGet_mod _ _ _ _ _
@[simp] theorem rqAt_modRq (s : State) (r t : Nat) (f : RqCtx → RqCtx) :
    rqAt (modRq s r f) t = if r = t then f (rqAt s r) else rqAt s t := mapGet_mod _ _ _ _ _

/-! ## MSI-X (R290, R298, R388) -/

@[simp] theorem msixWord_set (s : State) (k j : Nat) (v : BitVec 64) :
    msixWord { s with msix := mapSet (msixReset k) s.msix k v } j = if k = j then v else msixWord s j := by
  by_cases h : k = j
  · subst h; simp [msixWord]
  · simp only [h, if_false]
    unfold msixWord mapGet mapSet
    split <;> simp [mapFind_erase, h]

@[simp] theorem msixMasked_setPending (s : State) (v w : Nat) (b : Bool) :
    msixMasked (setPending s v b) w = msixMasked s w := rfl

/-- A vector's message is pending where it was masked, and leaves where it was not. -/
theorem sendMsi_cases (s : State) (vec : Nat) :
    (msixMasked s vec = true ∧ sendMsi s vec = setPending s vec true) ∨
    (msixMasked s vec = false ∧ sendMsi s vec = emit s (.msi vec)) := by
  unfold sendMsi; cases h : msixMasked s vec <;> simp

theorem sendMsi_keeps_mem (s : State) (vec : Nat) : (sendMsi s vec).mem = s.mem := by
  rcases sendMsi_cases s vec with h | h <;> rw [h.2] <;> rfl

/-! ## Fields that a strand's and a unit's update leave -/

@[simp] theorem setStrand_writes (s : State) (c : Nat) (st : Strand) : (setStrand s c st).writes = s.writes := rfl
@[simp] theorem setStrand_old (s : State) (c : Nat) (st : Strand) : (setStrand s c st).old = s.old := rfl
@[simp] theorem setStrand_seen (s : State) (c : Nat) (st : Strand) : (setStrand s c st).seen = s.seen := rfl
@[simp] theorem setStrand_pba (s : State) (c : Nat) (st : Strand) : (setStrand s c st).pba = s.pba := rfl
@[simp] theorem emit_pba (s : State) (m : OutMsg) : (emit s m).pba = s.pba := rfl
@[simp] theorem logEvent_pba (s : State) (a b : Nat) : (logEvent s a b).pba = s.pba := rfl
@[simp] theorem modCtl_pba (s : State) (c : Nat) (f : MemCtl → MemCtl) : (modCtl s c f).pba = s.pba := rfl
@[simp] theorem touchDev_writes (s : State) (c : Nat) : (touchDev s c).writes = s.writes := rfl
@[simp] theorem logEvent_up (s : State) (a b : Nat) : (logEvent s a b).msc.up = s.msc.up := rfl

/-- What the update of a unit leaves as it is. -/
def Keeps (s t : State) : Prop := t.mem = s.mem ∧ t.strands = s.strands ∧ t.crews = s.crews ∧ t.launches = s.launches

theorem modDie_keeps (s : State) (d : Nat) (f : Die → Die) : Keeps s (modDie s d f) := ⟨rfl, rfl, rfl, rfl⟩
theorem modQueue_keeps (s : State) (d q : Nat) (f : Queue → Queue) : Keeps s (modQueue s d q f) := ⟨rfl, rfl, rfl, rfl⟩
theorem modQuad_keeps (s : State) (q : Nat) (f : Quad → Quad) : Keeps s (modQuad s q f) := ⟨rfl, rfl, rfl, rfl⟩
theorem modCtl_keeps (s : State) (c : Nat) (f : MemCtl → MemCtl) : Keeps s (modCtl s c f) := ⟨rfl, rfl, rfl, rfl⟩
theorem modPort_keeps (s : State) (p : Nat) (f : CxlPort → CxlPort) : Keeps s (modPort s p f) := ⟨rfl, rfl, rfl, rfl⟩
theorem modCtx_keeps (s : State) (n : Nat) (f : TeCtx → TeCtx) : Keeps s (modCtx s n f) := ⟨rfl, rfl, rfl, rfl⟩
theorem modRq_keeps (s : State) (r : Nat) (f : RqCtx → RqCtx) : Keeps s (modRq s r f) := ⟨rfl, rfl, rfl, rfl⟩
theorem emit_keeps (s : State) (m : OutMsg) : Keeps s (emit s m) := ⟨rfl, rfl, rfl, rfl⟩
theorem logEvent_keeps (s : State) (code detail : Nat) : Keeps s (logEvent s code detail) := ⟨rfl, rfl, rfl, rfl⟩
theorem touchDev_keeps (s : State) (c : Nat) : Keeps s (touchDev s c) := ⟨rfl, rfl, rfl, rfl⟩

/-- A device in self-refresh holds the action that touches it, and nothing else does (R367). -/
@[simp] theorem touchDev_stall (s : State) (c : Nat) : (touchDev s c).stall = (s.stall || (ctlAt s c).hot) := rfl

@[simp] theorem emit_out (s : State) (m : OutMsg) : (emit s m).out = s.out ++ [m] := rfl
@[simp] theorem logEvent_events (s : State) (code detail : Nat) :
    (logEvent s code detail).msc.events = s.msc.events ++ [(code, detail)] := rfl

end Sys2Proof.Laws
end

