-- ==== Sys2Proof/Laws/Frame.lean ====
section
/-! SUPPORT. What a tk_pop, a tk_push and the end of an instruction's turn leave unchanged: the lemmas through which the
meanings of the streams are read. -/
namespace Sys2Proof.Laws
open Sys2Proof Sys2Proof.Machine Sys2Proof.Safety

/-! ## The body of a strand -/

@[simp] theorem body_setStream (st : Strand) (e : Engine) (x : Stream) : body (setStream st e x) = body st := rfl

/-- What every update of a sequence keeps, the sequence keeps. -/
theorem foldl_keeps {σ τ ι : Type} (view : σ → τ) (upd : σ → ι → σ) (keeps : ∀ s i, view (upd s i) = view s) :
    ∀ (is : List ι) (s : σ), view (is.foldl upd s) = view s
  | [], _ => rfl
  | i :: is, s => (foldl_keeps view upd keeps is (upd s i)).trans (keeps s i)

@[simp] theorem body_pushSet (st : Strand) (m : BitVec 16) (k : Know) : body (pushSet st m k) = body st :=
  foldl_keeps body (fun (st : Strand) q => { st with toks := mapMod [] st.toks q (· ++ [k]) }) (fun _ _ => rfl) _ _

@[simp] theorem ss_pushSet (st : Strand) (m : BitVec 16) (k : Know) : (pushSet st m k).ss = st.ss :=
  foldl_keeps Strand.ss (fun (st : Strand) q => { st with toks := mapMod [] st.toks q (· ++ [k]) }) (fun _ _ => rfl) _ _

@[simp] theorem body_pop1 (st : Strand) (q : Nat) : body (pop1 st q).1 = body st := by
  unfold pop1; split <;> rfl

@[simp] theorem body_popSet (st : Strand) (e : Engine) (m : BitVec 16) : body (popSet st e m) = body st :=
  foldl_keeps body _ (fun st q => by simp) _ _

@[simp] theorem body_tryPush (st : Strand) (e : Engine) : body (tryPush st e) = body st := by
  unfold tryPush
  dsimp only
  split
  · rfl
  · split
    · rfl
    · split
      · have h : ∀ x k m, body (setStream (pushSet st m k) e x) = body st := by simp
        split
        all_goals exact body_pushSet _ _ _
      · rfl

@[simp] theorem body_flushOrd (st : Strand) (l : List OrdPush) : body (flushOrd st l).1 = body st := by
  induction l generalizing st with
  | nil => rfl
  | cons o r ih => unfold flushOrd; split <;> simp [ih]

@[simp] theorem ss_flushOrd (st : Strand) (l : List OrdPush) : (flushOrd st l).1.ss = st.ss := by
  induction l generalizing st with
  | nil => rfl
  | cons o r ih => unfold flushOrd; split <;> simp [ih]

@[simp] theorem body_flushExt (st : Strand) (l : List ExtPush) : body (flushExt st l).1 = body st := by
  induction l generalizing st with
  | nil => rfl
  | cons o r ih =>
    unfold flushExt; split
    · rw [ih]; rfl
    · exact ih _

@[simp] theorem ss_flushExt (st : Strand) (l : List ExtPush) : (flushExt st l).1.ss = st.ss := by
  induction l generalizing st with
  | nil => rfl
  | cons o r ih =>
    unfold flushExt; split
    · rw [ih]
    · exact ih _

/-- A settling of pushes moves tokens of the queued pushes, then of each stream's own. -/
theorem settlePushes_split (st : Strand) : ∃ b : Strand, settlePushes st = tryPush (tryPush (tryPush (tryPush b .S) .V) .M) .C ∧
    b.ss = st.ss ∧ body b = body st := by
  unfold settlePushes
  dsimp only
  have h0 := body_flushOrd { st with copyPush := [] } st.copyPush
  have e0 := ss_flushOrd { st with copyPush := [] } st.copyPush
  generalize flushOrd { st with copyPush := [] } st.copyPush = c at *
  have h1 := body_flushOrd { c.1 with copyPush := c.2, mats := [] } c.1.mats
  have e1 := ss_flushOrd { c.1 with copyPush := c.2, mats := [] } c.1.mats
  generalize flushOrd { c.1 with copyPush := c.2, mats := [] } c.1.mats = m at *
  have h2 := body_flushExt { m.1 with mats := m.2, ext := [] } m.1.ext
  have e2 := ss_flushExt { m.1 with mats := m.2, ext := [] } m.1.ext
  generalize flushExt { m.1 with mats := m.2, ext := [] } m.1.ext = x at *
  exact ⟨_, rfl, (e2.trans e1).trans e0, (h2.trans h1).trans h0⟩

/-- A settling of pushes leaves the body of a strand. -/
@[simp] theorem body_settlePushes (st : Strand) : body (settlePushes st) = body st := by
  obtain ⟨b, h, -, hb⟩ := settlePushes_split st
  rw [h]; simp [hb]

/-! ## The streams of a strand -/

/-- A stream goes on: it has not ended, and no push that it waits for ends it. -/
def Alive (st : Strand) (e : Engine) : Prop :=
  (streamOf st e).st ≠ .ended ∧ ∀ p, (streamOf st e).push = some p → p.after ≠ .stop

theorem streamOf_ss {a b : Strand} (h : a.ss = b.ss) (e : Engine) : streamOf a e = streamOf b e := by
  simp [streamOf, h]

theorem ss_safe (st : Strand) (l : Option Nat) : ({ st with safe := l } : Strand).ss = st.ss := rfl

/-- What a performed or refused push does to the streams: to its own, and to no field but push, state and the set waited
for. -/
theorem streamOf_tryPush (st : Strand) (e f : Engine) :
    unpushed (streamOf (tryPush st e) f) = unpushed (streamOf st f) ∧ (Alive st f → Alive (tryPush st e) f) := by
  unfold tryPush
  dsimp only
  split
  · exact ⟨rfl, id⟩
  · rename_i p hp
    split
    · exact ⟨rfl, id⟩
    · split
      · have key : ∀ st' : Strand, st'.ss = (setStream (pushSet st p.mask p.know) e
              { streamOf st e with
                push := none
                st := if p.after = .stop then .ended else .issuing }).ss →
            unpushed (streamOf st' f) = unpushed (streamOf st f) ∧ (Alive st f → Alive st' f) := by
          intro st' h
          have hs := streamOf_ss h f
          rw [streamOf_setStream, streamOf_ss (ss_pushSet _ _ _)] at hs
          by_cases he : e = f
          · subst he
            simp only [if_true] at hs
            refine ⟨by rw [hs]; rfl, fun ha => ⟨?_, ?_⟩⟩
            · rw [hs]; simp [ha.2 p hp]
            · rw [hs]; simp
          · simp only [he, if_false] at hs
            exact ⟨by rw [hs], fun ha => by unfold Alive; rw [hs]; exact ha⟩
        split
        · exact key _ rfl
        · exact key _ rfl
      · by_cases he : e = f
        · subst he
          refine ⟨by simp [unpushed], fun ha => ⟨by simp, ?_⟩⟩
          simp only [streamOf_setStream, if_true]
          exact ha.2
        · simp [he, Alive]

theorem streamOf_settlePushes (st : Strand) (f : Engine) :
    unpushed (streamOf (settlePushes st) f) = unpushed (streamOf st f) ∧ (Alive st f → Alive (settlePushes st) f) := by
  obtain ⟨b, h, hss, -⟩ := settlePushes_split st
  rw [h]
  have hs : streamOf b f = streamOf st f := streamOf_ss hss f
  have ha : Alive b f ↔ Alive st f := by unfold Alive; rw [hs]
  obtain ⟨a1, a3⟩ := streamOf_tryPush b .S f
  obtain ⟨b1, b3⟩ := streamOf_tryPush (tryPush b .S) .V f
  obtain ⟨c1, c3⟩ := streamOf_tryPush (tryPush (tryPush b .S) .V) .M f
  obtain ⟨d1, d3⟩ := streamOf_tryPush (tryPush (tryPush (tryPush b .S) .V) .M) .C f
  exact ⟨by rw [d1, c1, b1, a1, hs], fun h => d3 (c3 (b3 (a3 (ha.2 h))))⟩

theorem unpushed_pc {x y : Stream} (h : unpushed x = unpushed y) : x.pc = y.pc := (Stream.mk.inj h).1

theorem unpushed_popped {x y : Stream} (h : unpushed x = unpushed y) : x.popped = y.popped := by
  have := congrArg Stream.popped h
  exact this

/-! ## The rest of the machine -/

@[simp] theorem rest_setStrand (s : State) (c : Nat) (st : Strand) : rest (setStrand s c st) = rest s := rfl

@[simp] theorem rest_modStrand (s : State) (c : Nat) (f : Strand → Strand) : rest (modStrand s c f) = rest s := by
  unfold modStrand; split <;> rfl

@[simp] theorem rest_modCrew (s : State) (k : Nat) (f : Crew → Crew) : rest (modCrew s k f) = rest s := by
  unfold modCrew; split <;> rfl

@[simp] theorem rest_modLaunch (s : State) (n : Nat) (f : Launch → Launch) : rest (modLaunch s n f) = rest s := by
  unfold modLaunch; split <;> rfl

@[simp] theorem rest_noteProgress (s : State) (k : Nat) : rest (noteProgress s k) = rest s := by simp [noteProgress]

@[simp] theorem strands_noteProgress (s : State) (k : Nat) : (noteProgress s k).strands = s.strands := by
  simp [noteProgress]

theorem leaveBarriers_keeps {γ : Type} (g : State → γ) (hc : ∀ s k f, g (modCrew s k f) = g s)
    (hl : ∀ s n f, g (modLaunch s n f) = g s) (s : State) (core : Nat) : g (leaveBarriers s core) = g s := by
  unfold leaveBarriers
  split
  · rfl
  · dsimp only
    split
    · simp [settleCrewBarrier, hc]
    · rw [foldl_keeps g]
      · simp [settleCrewBarrier, hc]
      · intro b a; simp [settlePhase, hl]

@[simp] theorem rest_leaveBarriers (s : State) (core : Nat) : rest (leaveBarriers s core) = rest s :=
  leaveBarriers_keeps rest (by simp) (by simp) s core

@[simp] theorem strands_leaveBarriers (s : State) (core : Nat) : (leaveBarriers s core).strands = s.strands :=
  leaveBarriers_keeps State.strands (by simp) (by simp) s core

theorem strandAt_strands {a b : State} (h : a.strands = b.strands) (c : Nat) : strandAt a c = strandAt b c := by
  simp [strandAt, h]

theorem mayRetire_alive {st : Strand} {e : Engine} (h : (streamOf st e).st ≠ .ended) : mayRetire st = false := by
  cases e <;> simp [mayRetire, h]

theorem finished_trans {s s' : State} {core : Nat} {e : Engine} {st st' : Strand} {pc : BitVec 32} {t : State}
    (h : Finished s' core e st' pc t) (ho : ∀ c, c ≠ core → strandAt s' c = strandAt s c) (hr : rest s' = rest s)
    (hb : body st' = body st) (hx : ∀ f, f ≠ e → unpushed (streamOf st' f) = unpushed (streamOf st f)) :
    Finished s core e st pc t := by
  obtain ⟨⟨a, h1, h2, h3, h3', h6⟩, h4, h5⟩ := h
  exact ⟨⟨a, h1, h2.trans hb, h3, h3', fun f hf => (h6 f hf).trans (hx f hf)⟩, fun c hc => (h4 c hc).trans (ho c hc), h5.trans hr⟩

/-- What settling a strand one of whose streams goes on leaves. -/
theorem settle_finished {s : State} {core : Nat} {e : Engine} {st : Strand} (h : strandAt s core = some st)
    (ha : Alive st e) (hp : (streamOf st e).popped = false) :
    Finished s core e st (streamOf st e).pc (settle s core) := by
  have hx := fun f => (streamOf_settlePushes st f).1
  obtain ⟨p1, p3⟩ := streamOf_settlePushes st e
  have hb := body_settlePushes st
  unfold settle
  rw [modStrand_some _ h]
  generalize settlePushes st = st1 at *
  have key : ∃ st2, strandAt (settleEnd (setStrand s core st1) core) core = some st2 ∧ body st2 = body st1 ∧
      st2.ss = st1.ss ∧ (∀ c, c ≠ core → strandAt (settleEnd (setStrand s core st1) core) c = strandAt s c) ∧
      rest (settleEnd (setStrand s core st1) core) = rest s := by
    unfold settleEnd
    simp only [strandAt_setStrand, if_true]
    split
    · refine ⟨{ st1 with gone := true }, ?_, rfl, rfl, fun c hc => ?_, by simp⟩
      · rw [strandAt_strands (strands_leaveBarriers _ _)]; simp
      · rw [strandAt_strands (strands_leaveBarriers _ _)]; simp [Ne.symm hc]
    · exact ⟨st1, by simp, rfl, rfl, fun c hc => by simp [Ne.symm hc], by simp⟩
  generalize settleEnd (setStrand s core st1) core = s2 at *
  obtain ⟨st2, k1, k2, k3, k4, k5⟩ := key
  have hs : streamOf st2 e = streamOf st1 e := streamOf_ss k3 e
  have hm : mayRetire st2 = false := mayRetire_alive (e := e) (by rw [hs]; exact (p3 ha).1)
  have : settleRetire s2 core = s2 := by unfold settleRetire; simp [k1, hm]
  rw [this]
  exact ⟨⟨st2, k1, k2.trans hb, by rw [hs, unpushed_pc p1], by rw [hs, unpushed_popped p1, hp],
    fun f _ => by rw [streamOf_ss k3 f, hx f]⟩, k4, k5⟩

/-- What finishing an instruction that pushes as it goes on leaves, before it settles. -/
theorem finishSV_go {s : State} {core : Nat} {e : Engine} {st : Strand} (pat pc : BitVec 32)
    (h : strandAt s core = some st) : ∃ st1, strandAt (finishSV s core e pat pc .go) core = some st1 ∧
      body st1 = body st ∧ (streamOf st1 e).pc = pc ∧ (streamOf st1 e).popped = false ∧ Alive st1 e ∧
      (∀ c, c ≠ core → strandAt (finishSV s core e pat pc .go) c = strandAt s c) ∧
      rest (finishSV s core e pat pc .go) = rest s ∧
      ∀ f, f ≠ e → unpushed (streamOf st1 f) = unpushed (streamOf st f) := by
  unfold finishSV
  rw [modStrand_some _ h, modStrand_some _ (by rw [strandAt_setStrand, if_pos rfl])]
  dsimp only
  refine ⟨_, by rw [strandAt_setStrand, if_pos rfl], ?_, ?_, ?_, ?_, ?_, ?_, ?_⟩
  · simp
  · rw [unpushed_pc (streamOf_tryPush _ e e).1]; simp
  · rw [unpushed_popped (streamOf_tryPush _ e e).1]; simp
  · refine (streamOf_tryPush _ e e).2 ⟨by simp, ?_⟩
    intro p hp; simp at hp; rw [← hp]; simp
  · intro c hc; simp [Ne.symm hc]
  · simp
  · intro f hf; rw [(streamOf_tryPush _ e f).1]; simp [Ne.symm hf]

/-- The end of an instruction of S or V that pushes and goes on: what its turn leaves. -/
theorem close_go {s : State} {core : Nat} {e : Engine} {st : Strand} (pat pc : BitVec 32)
    (h : strandAt s core = some st) :
    Finished s core e st pc
      (match strandAt (finishSV s core e pat pc .go) core with
      | some st => settle (noteProgress (finishSV s core e pat pc .go) st.crew) core
      | none => finishSV s core e pat pc .go) := by
  obtain ⟨st1, h1, h2, h3, h4, h5, h6, h7, h8⟩ := finishSV_go pat pc h
  rw [h1]
  dsimp only
  have h1' : strandAt (noteProgress (finishSV s core e pat pc .go) st1.crew) core = some st1 := by
    rw [strandAt_strands (strands_noteProgress _ _), h1]
  have := settle_finished h1' h5 h4
  rw [h3] at this
  refine finished_trans this (fun c hc => ?_) ?_ h2 h8
  · rw [strandAt_strands (strands_noteProgress _ _), h6 c hc]
  · simp [h7]

theorem closeEff_fin {s : State} {core : Nat} {e : Engine} {st : Strand} (pat : BitVec 32)
    (h : strandAt s core = some st) : Finished s core e st s.grp.next (closeEff core e pat (.fin s)) :=
  close_go pat _ h

theorem closeEff_jump {s : State} {core : Nat} {e : Engine} {st : Strand} (pat t : BitVec 32)
    (h : strandAt s core = some st) : Finished s core e st t (closeEff core e pat (.jump s t)) :=
  close_go pat _ h

theorem closeEff_stored {s : State} {core : Nat} {e : Engine} {st : Strand} (pat : BitVec 32)
    (h : strandAt s core = some st) : Finished s core e st s.grp.next (closeEff core e pat (.stored s)) :=
  close_go pat _ h

/-! ## The frame of an instruction -/

theorem actor_of {s : State} {core : Nat} {e : Engine} {st : Strand} (hc : s.cur = .stream core e)
    (h : strandAt s core = some st) : actor s e = some (core, st) := by
  simp [actor, hc, h]

/-- What a tk_pop that is done leaves. -/
theorem popStep_ok {s s1 : State} {core : Nat} {e : Engine} {st st1 : Strand} {m : BitVec 32}
    (h : strandAt s core = some st) (hp : popStep s core e st m = .ok (s1, st1)) :
    strandAt s1 core = some st1 ∧ body st1 = body st ∧ rest s1 = rest s ∧ s1.crews = s.crews ∧
      s1.launches = s.launches ∧ ∀ c, c ≠ core → strandAt s1 c = strandAt s c := by
  unfold popStep at hp
  dsimp only at hp
  split at hp
  · cases hp; exact ⟨h, rfl, rfl, rfl, rfl, fun _ _ => rfl⟩
  · split at hp
    · cases hp
      refine ⟨by simp, by simp, by simp, rfl, rfl, fun c hc => by simp [Ne.symm hc]⟩
    · cases hp

/-- An instruction with its frame, poised: its body runs on the machine after the tk_pop. -/
theorem issue_poised {s s1 : State} {core : Nat} {e : Engine} {tk : Tk} {st1 : Strand}
    (b : State → Nat → Strand → Eff) (h : Poised s core e tk s1 st1) :
    ∃ pat, issue e tk b s = .next (closeEff core e pat (b s1 core st1)) ∧ strandAt s1 core = some st1 := by
  obtain ⟨hc, ⟨st, h1, h2, h3⟩, -⟩ := h
  refine ⟨patOf st e tk, ?_, (popStep_ok h1 h3).1⟩
  unfold issue issuePre
  rw [actor_of hc h1]
  simp [h2, h3]

theorem issue_fin {s s1 s2 : State} {core : Nat} {e : Engine} {tk : Tk} {st1 st2 : Strand}
    (b : State → Nat → Strand → Eff) (h : Poised s core e tk s1 st1)
    (hb : strandAt s1 core = some st1 → b s1 core st1 = .fin s2) (h2 : strandAt s2 core = some st2) :
    ∃ t, issue e tk b s = .next t ∧ Finished s2 core e st2 s2.grp.next t := by
  obtain ⟨pat, hi, hs⟩ := issue_poised b h
  rw [hi, hb hs]
  exact ⟨_, rfl, closeEff_fin pat h2⟩

end Sys2Proof.Laws
end

