-- ==== Sys2Proof/Laws/Memory.lean ====
section
/-! SUPPORT. The canonical form of maps and of memory: every operation that writes one keeps it, what a read gives after
a write, and what each shared operation over memory does to it. -/
namespace Sys2Proof.Laws
open Sys2Proof Sys2Proof.Machine Sys2Proof.Safety

/-! ## Maps in canonical form -/

theorem mapSorted_iff {α : Type} (m : FMap α) : mapSorted m = true ↔ m.Pairwise fun a b => a.1 < b.1 := by
  induction m with
  | nil => simp [mapSorted]
  | cons p r ih =>
    cases r with
    | nil => simp [mapSorted]
    | cons q r =>
      simp only [mapSorted, Bool.and_eq_true, decide_eq_true_eq, ih, List.pairwise_cons]
      constructor
      · rintro ⟨h, h1, h2⟩
        refine ⟨fun a ha => ?_, h1, h2⟩
        rcases List.mem_cons.1 ha with rfl | ha
        · exact h
        · exact Nat.lt_trans h (h1 a ha)
      · rintro ⟨h, h1, h2⟩
        exact ⟨h q (by simp), h1, h2⟩

theorem mapWf_iff {α : Type} [DecidableEq α] (d : α) (m : FMap α) :
    mapWf d m = true ↔ (m.Pairwise fun a b => a.1 < b.1) ∧ ∀ p ∈ m, p.2 ≠ d := by
  simp [mapWf, mapSorted_iff]

theorem mapWf_filter {α : Type} [DecidableEq α] {d : α} {m : FMap α} (f : Nat × α → Bool) (h : mapWf d m = true) :
    mapWf d (m.filter f) = true := by
  rw [mapWf_iff] at *
  exact ⟨h.1.filter _, fun p hp => h.2 p (List.mem_filter.1 hp).1⟩

theorem mapWf_erase {α : Type} [DecidableEq α] {d : α} {m : FMap α} (k : Nat) (h : mapWf d m = true) :
    mapWf d (mapErase m k) = true := mapWf_filter _ h

theorem mapWf_put {α : Type} [DecidableEq α] {d : α} {m : FMap α} (k : Nat) {v : α} (h : mapWf d m = true) (hv : v ≠ d) :
    mapWf d (mapPut m k v) = true := by
  rw [mapWf_iff] at *
  have lo : ∀ p ∈ m.filter (fun p => decide (p.1 < k)), p.1 < k := fun p hp => by simpa using (List.mem_filter.1 hp).2
  have hi : ∀ p ∈ m.filter (fun p => decide (k < p.1)), k < p.1 := fun p hp => by simpa using (List.mem_filter.1 hp).2
  refine ⟨List.pairwise_append.2 ⟨h.1.filter _, List.pairwise_cons.2 ⟨hi, h.1.filter _⟩, fun p hp q hq => ?_⟩, ?_⟩
  · rcases List.mem_cons.1 hq with rfl | hq
    · exact lo p hp
    · exact Nat.lt_trans (lo p hp) (hi q hq)
  · intro p hp
    rcases List.mem_append.1 hp with hp | hp
    · exact h.2 p (List.mem_filter.1 hp).1
    · rcases List.mem_cons.1 hp with rfl | hp
      · exact hv
      · exact h.2 p (List.mem_filter.1 hp).1

/-- Writing a value keeps the canonical form; the value an unlisted key reads as removes the entry. -/
theorem mapWf_set {α : Type} [DecidableEq α] {d : α} {m : FMap α} (k : Nat) (v : α) (h : mapWf d m = true) :
    mapWf d (mapSet d m k v) = true := by
  unfold mapSet
  split
  · exact mapWf_erase k h
  · exact mapWf_put k h ‹_›

/-! ## Bytes written -/

theorem mem_memCells (l : List Byte) (a : Nat) (p : Host.Cell) :
    p ∈ memCells a l → a ≤ p.1 ∧ p.1 < a + l.length ∧ p.2 ≠ Memory.blank := by
  induction l generalizing a with
  | nil => simp [memCells]
  | cons b r ih =>
    simp only [memCells, List.length_cons]
    split
    · intro h
      obtain ⟨h1, h2, h3⟩ := ih (a + 1) h
      exact ⟨by omega, by omega, h3⟩
    · rename_i hb
      intro h
      rcases List.mem_cons.1 h with rfl | h
      · exact ⟨Nat.le_refl _, by simp only; omega, hb⟩
      · obtain ⟨h1, h2, h3⟩ := ih (a + 1) h
        exact ⟨by omega, by omega, h3⟩

theorem memCells_wf (l : List Byte) (a : Nat) : mapWf Memory.blank (memCells a l) = true := by
  rw [mapWf_iff]
  refine ⟨?_, fun p hp => (mem_memCells l a p hp).2.2⟩
  induction l generalizing a with
  | nil => simp [memCells]
  | cons b r ih =>
    simp only [memCells]
    split
    · exact ih _
    · rw [List.pairwise_cons]
      exact ⟨fun p hp => by have := mem_memCells r (a + 1) p hp; simp only; omega, ih _⟩

theorem memByte_memCells (l : List Byte) (a x : Nat) :
    mapGet Memory.blank (memCells a l) x = if a ≤ x ∧ x < a + l.length then l.getD (x - a) 0#8 else Memory.blank := by
  induction l generalizing a with
  | nil =>
    simp [memCells, mapGet, Memory.blank]
  | cons b r ih =>
    have hi := ih (a + 1)
    unfold mapGet at *
    simp only [memCells, List.length_cons]
    by_cases hx : a = x
    · subst hx
      have h0 : ¬ (a + 1 ≤ a ∧ a < a + 1 + r.length) := by omega
      have h1 : a ≤ a ∧ a < a + (r.length + 1) := by omega
      rw [if_neg h0] at hi
      rw [if_pos h1]
      split
      · rename_i hb
        simp [hi, hb]
      · simp [mapFind_cons]
    · have h2 : (a + 1 ≤ x ∧ x < a + 1 + r.length) ↔ (a ≤ x ∧ x < a + (r.length + 1)) := by omega
      have h3 : (if b = Memory.blank then memCells (a + 1) r else (a, b) :: memCells (a + 1) r) =
          if b = Memory.blank then memCells (a + 1) r else (a, b) :: memCells (a + 1) r := rfl
      have h4 : mapFind (if b = Memory.blank then memCells (a + 1) r else (a, b) :: memCells (a + 1) r) x =
          mapFind (memCells (a + 1) r) x := by
        split
        · rfl
        · simp [mapFind_cons, hx]
      rw [h4, hi]
      simp only [h2]
      split
      · rename_i h
        have h5 : x - a = (x - (a + 1)) + 1 := by omega
        rw [h5, List.getD_cons_succ]
      · rfl

/-- A read of one byte after a write of bytes (R271): the byte written, or what was there. -/
theorem memByte_memPut (m : Memory) (a x : Nat) (l : List Byte) :
    memByte (memPut m a l) x = if a ≤ x ∧ x < a + l.length then l.getD (x - a) 0#8 else memByte m x := by
  have hc := memByte_memCells l a x
  have e1 : mapFind (m.filter fun p => decide (p.1 < a)) x = if decide (x < a) then mapFind m x else none :=
    mapFind_filter m (fun k => decide (k < a)) x
  have e2 : mapFind (m.filter fun p => decide (a + l.length ≤ p.1)) x =
      if decide (a + l.length ≤ x) then mapFind m x else none :=
    mapFind_filter m (fun k => decide (a + l.length ≤ k)) x
  unfold memByte memPut mapGet at *
  rw [mapFind_append, mapFind_append, e1, e2]
  by_cases h1 : x < a
  · have h2 : ¬ (a ≤ x ∧ x < a + l.length) := by omega
    have h3 : ¬ (a + l.length ≤ x) := by omega
    have h4 : mapFind (memCells a l) x = none := by
      rw [if_neg h2] at hc
      cases hf : mapFind (memCells a l) x with
      | none => rfl
      | some v =>
        exfalso
        have := mapFind_mem hf
        have := mem_memCells l a _ this
        simp only at this
        omega
    simp [h1, h2, h3, h4]
  · by_cases h2 : a + l.length ≤ x
    · have h3 : ¬ (a ≤ x ∧ x < a + l.length) := by omega
      have h4 : mapFind (memCells a l) x = none := by
        cases hf : mapFind (memCells a l) x with
        | none => rfl
        | some v =>
          exfalso
          have := mapFind_mem hf
          have := mem_memCells l a _ this
          simp only at this
          omega
      simp [h1, h2, h3, h4]
    · have h3 : a ≤ x ∧ x < a + l.length := by omega
      rw [if_pos h3] at hc ⊢
      simp [h1, h2, hc]

/-- Writing bytes keeps the canonical form. -/
theorem memPut_wf {m : Memory} (a : Nat) (l : List Byte) (h : Memory.wf m = true) : Memory.wf (memPut m a l) = true := by
  have hc := memCells_wf l a
  unfold Memory.wf memPut at *
  rw [mapWf_iff] at *
  have hb : ∀ p ∈ memCells a l, a ≤ p.1 ∧ p.1 < a + l.length := fun p hp =>
    ⟨(mem_memCells l a p hp).1, (mem_memCells l a p hp).2.1⟩
  refine ⟨?_, ?_⟩
  · rw [List.pairwise_append, List.pairwise_append]
    refine ⟨⟨h.1.filter _, hc.1, fun p hp q hq => ?_⟩, h.1.filter _, fun p hp q hq => ?_⟩
    · have h1 : p.1 < a := by simpa using (List.mem_filter.1 hp).2
      have := hb q hq
      omega
    · have h2 : a + l.length ≤ q.1 := by simpa using (List.mem_filter.1 hq).2
      rcases List.mem_append.1 hp with hp | hp
      · have h1 : p.1 < a := by simpa using (List.mem_filter.1 hp).2
        omega
      · have := hb p hp
        omega
  · intro p hp
    rcases List.mem_append.1 hp with hp | hp
    · rcases List.mem_append.1 hp with hp | hp
      · exact h.2 p (List.mem_filter.1 hp).1
      · exact hc.2 p hp
    · exact h.2 p (List.mem_filter.1 hp).1

/-- Memory at reset is in canonical form. -/
theorem reset_memOk : MemOk State.reset := by unfold MemOk; decide +kernel

/-! ## What the operations over memory do to it -/

theorem memOk_of_mem {s t : State} (h : t.mem = s.mem) (hs : MemOk s) : MemOk t := by
  unfold MemOk at *; rw [h]; exact hs

@[simp] theorem modCtl_mem (s : State) (c : Nat) (f : MemCtl → MemCtl) : (modCtl s c f).mem = s.mem := rfl
@[simp] theorem logEvent_mem (s : State) (c n : Nat) : (logEvent s c n).mem = s.mem := rfl
@[simp] theorem mscCount_mem (s : State) (k : CounterKey) (n : Nat) : (mscCount s k n).mem = s.mem := rfl
@[simp] theorem modDie_mem (s : State) (d : Nat) (f : Die → Die) : (modDie s d f).mem = s.mem := rfl
@[simp] theorem modStrand_mem (s : State) (c : Nat) (f : Strand → Strand) : (modStrand s c f).mem = s.mem := by
  unfold modStrand; split <;> rfl
@[simp] theorem modCrew_mem (s : State) (k : Nat) (f : Crew → Crew) : (modCrew s k f).mem = s.mem := by
  unfold modCrew; split <;> rfl
@[simp] theorem modLaunch_mem (s : State) (n : Nat) (f : Launch → Launch) : (modLaunch s n f).mem = s.mem := by
  unfold modLaunch; split <;> rfl

@[simp] theorem touchDev_mem (s : State) (c : Nat) : (touchDev s c).mem = s.mem := rfl
@[simp] theorem countUe_mem (s : State) (c g : Nat) : (countUe s c g).mem = s.mem := by simp [countUe]
@[simp] theorem countInt_mem (s : State) (c g : Nat) : (countInt s c g).mem = s.mem := by simp [countInt]
@[simp] theorem countCe_mem (s : State) (c : Nat) : (countCe s c).mem = s.mem := by simp [countCe]
@[simp] theorem yieldScrub_mem (s : State) (c : Nat) : (yieldScrub s c).mem = s.mem := by simp [yieldScrub]
@[simp] theorem refuseLog_mem (s : State) (o f : Nat) : (refuseLog s o f).mem = s.mem := rfl
@[simp] theorem emit_mem (s : State) (o : OutMsg) : (emit s o).mem = s.mem := rfl
@[simp] theorem sendCxl_mem (s : State) (p : Nat) (a : Asker) : (sendCxl s p a).mem = s.mem := rfl
@[simp] theorem setTc_mem (s : State) (d : Nat) (l : List Trans) : (setTc s d l).mem = s.mem := rfl
@[simp] theorem storeDone_mem (s : State) (i q : Nat) (f : Option Nat) : (storeDone s i q f).mem = s.mem := rfl
@[simp] theorem dropEntry_mem (s : State) (g : Nat) (e : WqEntry) : (dropEntry s g e).mem = s.mem := rfl

/-- A read of a device leaves memory as it is: it counts and logs. -/
@[simp] theorem devRead_mem (s : State) (c g : Nat) (d : Option (BitVec 6)) : (devRead s c g d).2.mem = s.mem := by
  unfold devRead
  dsimp only
  split
  · rfl
  · split
    · simp
    · split
      · simp
      · split
        · dsimp only; split <;> simp
        · simp

theorem devWrite_memOk {s : State} (g : Nat) (v : Granule) (d : BitVec 6) (p : Bool) (h : MemOk s) :
    MemOk (devWrite s g v d p) := memPut_wf _ _ h

@[simp] theorem ackAll_mem (l : List (Nat × Nat)) (s : State) (f : Option Nat) : (ackAll s l f).mem = s.mem := by
  induction l generalizing s with
  | nil => rfl
  | cons w r ih => simp [ackAll, ih]

theorem foldl_memOk {α : Type} (f : State → α → State) (hf : ∀ s a, MemOk s → MemOk (f s a)) (l : List α) {s : State}
    (h : MemOk s) : MemOk (l.foldl f s) := by
  induction l generalizing s with
  | nil => exact h
  | cons a r ih => exact ih (hf s a h)

theorem drainEntry_memOk {s : State} (g : Nat) (h : MemOk s) : MemOk (drainEntry s g) := by
  unfold drainEntry
  split
  · exact h
  · rename_i e _
    have h1 : MemOk (touchDev (dropEntry s g e) e.ctrl) := memOk_of_mem rfl h
    dsimp only
    split
    · exact memOk_of_mem (ackAll_mem _ _ _) (devWrite_memOk _ _ _ _ h1)
    · have hd := devRead_mem (touchDev (dropEntry s g e) e.ctrl) e.ctrl g (some e.dom)
      split <;> rename_i heq <;> rw [heq] at hd
      · exact memOk_of_mem (ackAll_mem _ _ _) (devWrite_memOk _ _ _ _ (memOk_of_mem hd h1))
      · exact memOk_of_mem ((ackAll_mem _ _ _).trans hd) h1

theorem drainTo_memOk {s : State} (g : Nat) (h : MemOk s) : MemOk (drainTo s g) := by
  unfold drainTo
  split
  · exact h
  · exact drainEntry_memOk _ (foldl_memOk _ (fun _ _ h => drainEntry_memOk _ h) _ h)

theorem serveC1_memOk (n : Nat) {s : State} (c g : Nat) (h : MemOk s) : MemOk (serveC1 n s c g) := by
  induction n generalizing s with
  | zero => exact h
  | succ n ih =>
    unfold serveC1
    dsimp only
    split
    · split
      · exact h
      · exact ih (drainEntry_memOk _ h)
    · exact h

theorem makeRoom_memOk {s : State} (c g : Nat) (h : MemOk s) : MemOk (makeRoom s c g) := by
  unfold makeRoom
  split
  · split
    · exact h
    · exact foldl_memOk _ (fun _ _ h => drainEntry_memOk _ h) _ h
  · exact h

@[simp] theorem cancelPend_mem (s : State) (c g : Nat) : (cancelPend s c g).mem = s.mem := by
  unfold cancelPend; split <;> simp

@[simp] theorem enqueueWrite_mem (s : State) (c g : Nat) (m : BitVec 64) (v : Granule) (p : Bool) (d : BitVec 6)
    (w : List (Nat × Nat)) : (enqueueWrite s c g m v p d w).mem = s.mem := by
  have h := cancelPend_mem s c g
  unfold enqueueWrite
  dsimp only
  generalize cancelPend s c g = s0 at *
  split
  · split <;> simp [h]
  · simp [h]

theorem granRead_memOk {s : State} (c g : Nat) (d : BitVec 6) (h : MemOk s) : MemOk (granRead s c g d).2 := by
  have h0 := serveC1_memOk wqDepth c g (s := touchDev s c) h
  unfold granRead
  dsimp only
  split
  · split
    · exact h0
    · exact memOk_of_mem (devRead_mem _ _ _ _) (drainTo_memOk _ h0)
  · exact memOk_of_mem (devRead_mem _ _ _ _) h0

theorem memOk_ite {α : Type} {c : Prop} [Decidable c] {a b : α × State} (ha : MemOk a.2) (hb : MemOk b.2) :
    MemOk (if c then a else b).2 := by split <;> assumption

theorem drainOlder_memOk {s : State} (g : Nat) (e : WqEntry) (h : MemOk s) : MemOk (drainOlder s g e) :=
  foldl_memOk _ (fun _ _ h => drainEntry_memOk _ h) _ h

theorem granWrite_memOk {s : State} (c g : Nat) (m : BitVec 64) (v : Granule) (p : Bool) (d : BitVec 6) (h : MemOk s) :
    MemOk (granWrite s c g m v p d).2 := by
  unfold granWrite
  dsimp only
  have h1 : MemOk (enqueueWrite (makeRoom (touchDev s c) c g) c g m v p d []) :=
    memOk_of_mem (enqueueWrite_mem _ _ _ _ _ _ _ _) (makeRoom_memOk c g (s := touchDev s c) h)
  generalize enqueueWrite (makeRoom (touchDev s c) c g) c g m v p d [] = s1 at h1 ⊢
  split
  · exact h1
  · rename_i e _
    refine memOk_ite h1 ?_
    split <;> exact drainEntry_memOk _ (drainOlder_memOk _ _ h1)

theorem physRead_memOk {s : State} (d a n : Nat) (h : MemOk s) : MemOk (physRead s d a n).2 := by
  have hg := granRead_memOk (Config.physCtrl a) (a / 64) 0#6 h
  unfold physRead
  split
  · exact h
  · split <;> rename_i heq <;> rw [heq] at hg <;> exact hg

theorem physWrite_memOk {s : State} (d a : Nat) (l : List Byte) (h : MemOk s) : MemOk (physWrite s d a l).2 := by
  have hg := granWrite_memOk (Config.physCtrl a) (a / 64) (maskOf (a % 64) l.length) (granPut 0#512 (a % 64) l) false 0#6 h
  unfold physWrite
  dsimp only
  split
  · exact h
  · split <;> rename_i heq <;> rw [heq] at hg <;> exact hg

theorem physWriteAll_memOk (l : List (List Byte)) {s : State} (d a : Nat) (h : MemOk s) :
    MemOk (physWriteAll s d a l).2 := by
  induction l generalizing s a with
  | nil => exact h
  | cons x r ih => exact ih _ (physWrite_memOk d a x h)

theorem memOk_snd {α : Type} {r : α × State} {a : α} {s : State} (h : MemOk r.2) (e : r = (a, s)) : MemOk s := by
  rw [e] at h; exact h

theorem physReadAll_memOk (n : Nat) {s : State} (d a : Nat) (h : MemOk s) : MemOk (physReadAll s d a n).2 := by
  induction n generalizing s a with
  | zero => exact h
  | succ k ih =>
    have hg := physRead_memOk d a 64 h
    unfold physReadAll
    split <;> rename_i heq <;> rw [heq] at hg
    · split <;> exact memOk_snd (ih _ hg) ‹_›
    · exact hg

theorem readObt_memOk {s : State} (die space obj : Nat) (h : MemOk s) : MemOk (readObt s die space obj).2 := by
  unfold readObt
  dsimp only
  split
  · exact h
  · split <;> exact memOk_snd (physRead_memOk _ _ _ h) ‹_›

theorem lookup_memOk {s : State} (die space obj off : Nat) (h : MemOk s) : MemOk (lookup s die space obj off).2 := by
  unfold lookup
  split
  · exact h
  · split <;> exact memOk_snd (readObt_memOk _ _ _ h) ‹_›

theorem pageEntry_memOk {s : State} (die : Nat) (e : BitVec 256) (off : Nat) (pe : Option (BitVec 64)) (h : MemOk s) :
    MemOk (pageEntry s die e off pe).2 := by
  unfold pageEntry
  split
  · exact h
  · split <;> exact memOk_snd (physRead_memOk _ _ _ h) ‹_›

@[simp] theorem tcInsert_mem (s : State) (die space obj off : Nat) (e : BitVec 256) (pe : BitVec 64)
    (side : Option Granule) : (tcInsert s die space obj off e pe side).mem = s.mem := by
  unfold tcInsert; split <;> rfl

theorem sideLine_memOk {s : State} (die space obj off : Nat) (e : BitVec 256) (h : MemOk s) :
    MemOk (sideLine s die space obj off e).2 := by
  unfold sideLine
  split
  · exact h
  · split <;> exact memOk_snd (physRead_memOk _ _ _ h) ‹_›

theorem translatePage_memOk {s : State} (die space obj off : Nat) (e : BitVec 256) (pe : BitVec 64) (h : MemOk s) :
    MemOk (translatePage s die space obj off e pe).2 := by
  have ht := fun (t : State) (f : BitVec 64) (g : Option Granule) (ht : MemOk t) =>
    memOk_of_mem (tcInsert_mem t die space obj off e f g) ht
  unfold translatePage
  refine memOk_ite h (memOk_ite h (memOk_ite (ht _ _ _ h) (memOk_ite h ?_)))
  have h2 := sideLine_memOk die space obj off e h
  split <;> rename_i heq <;> rw [heq] at h2
  · exact h2
  · exact ht _ _ _ h2

/-- A translation keeps memory in its canonical form: it reads tables, which drains pending entries, and caches. -/
theorem translate_memOk {s : State} (done : Bool) (die space obj ogen off size : Nat) (h : MemOk s) :
    MemOk (translateIn s done die space obj ogen off size).2 := by
  unfold translateIn
  refine memOk_ite h ?_
  have h1 := lookup_memOk die space obj off h
  generalize lookup s die space obj off = r at h1 ⊢
  obtain ⟨_ | ⟨e, pe⟩, s1⟩ := r
  · exact h1
  · refine memOk_ite h1 (memOk_ite h1 (memOk_ite h1 (memOk_ite h1 (memOk_ite (memOk_of_mem (tcInsert_mem _ _ _ _ _ _ _ _) h1) ?_))))
    have h2 := pageEntry_memOk die e off pe h1
    generalize pageEntry s1 die e off pe = q at h2 ⊢
    obtain ⟨_ | p, s2⟩ := q
    · exact h2
    · exact translatePage_memOk _ _ _ _ _ _ h2

/-- An access queue moves its translations on. -/
theorem advanceQueue_memOk {s : State} (core q : Nat) (t : Trans) (space obj ogen off : Nat) (h : MemOk s) :
    MemOk (advanceQueue s core q t space obj ogen off) := by
  unfold advanceQueue
  dsimp only
  split
  · exact h
  · split
    · exact h
    · have h2 := translate_memOk false (dieOf core) space obj ogen t.pageEnd 1 h
      unfold nextTrans
      dsimp only
      split <;> exact h2

/-- A translation through an access queue, or through the cache alone, keeps memory in its canonical form. -/
theorem portPlace_memOk {s : State} (done : Bool) (core : Nat) (via : Option Nat) (space obj ogen off size : Nat)
    (h : MemOk s) : MemOk (portPlace s done core via space obj ogen off size).2 := by
  unfold portPlace
  split
  · exact translate_memOk _ _ _ _ _ _ _ h
  · unfold queuePlace
    dsimp only
    have ha := fun (s : State) (t : Trans) (q : Nat) (h : MemOk s) => advanceQueue_memOk core q t space obj ogen (off + size) h
    split
    · exact ha _ _ _ (memOk_of_mem (setTc_mem _ _ _) (translate_memOk _ _ _ _ _ _ _ (memOk_of_mem (setTc_mem _ _ _) h)))
    · have h2 := translate_memOk done (dieOf core) space obj ogen off size h
      split
      · exact ha _ _ _ h2
      · exact h2

theorem granReads_memOk (n : Nat) {s : State} (c g : Nat) (d : BitVec 6) (h : MemOk s) :
    MemOk (granReads s c g n d).2 := by
  induction n generalizing s g with
  | zero => exact h
  | succ k ih =>
    unfold granReads
    split
    · have h1 := memOk_snd (granRead_memOk _ _ _ h) ‹_›
      split <;> exact memOk_snd (ih _ h1) ‹_›
    · exact memOk_snd (granRead_memOk _ _ _ h) ‹_›

theorem placeRead_memOk {s : State} (p : Place) (h : MemOk s) : MemOk (placeRead s p).2 := by
  have lift : ∀ r : MemRes × State, MemOk r.2 → MemOk (match r with
      | (.ok v, s1) => (PlRes.ok v, s1)
      | (.poison, s1) => (PlRes.poison, s1)
      | (.integrity, s1) => (PlRes.integrity, s1)).2 := by
    rintro ⟨r, t⟩ ht; cases r <;> exact ht
  unfold placeRead
  dsimp only
  split
  · split
    · exact h
    · split
      · exact memOk_snd (granReads_memOk _ _ _ _ h) ‹_›
      · exact memOk_snd (granReads_memOk _ _ _ _ h) ‹_›
      · have h1 := memOk_snd (granReads_memOk _ _ _ _ h) ‹_›
        split <;> exact h1
  · split
    · exact h
    · split
      · exact lift _ (granRead_memOk _ _ _ h)
      · split
        · have h1 := memOk_snd (granRead_memOk _ _ _ h) ‹_›
          split
          · exact lift _ (granRead_memOk _ _ _ h1)
          · exact h1
        · exact memOk_snd (granRead_memOk _ _ _ h) ‹_›

theorem sparseFill_memOk {s : State} (side : Option Nat) (pa : Nat) (m : BitVec 64) (v : Granule) (h : MemOk s) :
    MemOk (sparseFill s side pa m v).2 := by
  unfold sparseFill
  split
  · exact h
  · split
    · exact h
    · dsimp only
      split
      · have h1 := memOk_snd (granRead_memOk _ _ _ h) ‹_›
        split
        · exact h1
        · exact granWrite_memOk _ _ _ _ _ _ h1
      · exact memOk_snd (granRead_memOk _ _ _ h) ‹_›

@[simp] theorem noteWrite_mem (s : State) (p : Place) (w : Option Nat) : (noteWrite s p w).mem = s.mem := by
  unfold noteWrite; split <;> rfl

theorem putPlace_memOk {s : State} (p : Place) (m : BitVec 64) (v : Granule) (q : Bool) (h : MemOk s) :
    MemOk (putPlace s p m v q).2 := by
  unfold putPlace
  split
  · exact h
  · split
    · dsimp only; split <;> exact memPut_wf _ _ h
    · have h1 := sparseFill_memOk p.side p.pa m v h
      split <;> rename_i heq <;> rw [heq] at h1
      · exact h1
      · exact granWrite_memOk _ _ _ _ _ _ h1

theorem placeWrite_memOk {s : State} (p : Place) (m : BitVec 64) (v : Granule) (q : Bool) (h : MemOk s) :
    MemOk (placeWrite s p m v q).2 := putPlace_memOk _ _ _ _ (memOk_of_mem (noteWrite_mem _ _ _) h)

/-- The write of an atomic keeps memory in its canonical form. -/
theorem atomicWrite_memOk {s : State} (sid : Nat) (p : Place) (m : BitVec 64) (v : Granule) (h : MemOk s) :
    MemOk (atomicWrite s sid p m v).2 := by
  have h0 : MemOk (noteWrite s p (some sid)) := memOk_of_mem (noteWrite_mem _ _ _) h
  unfold atomicWrite
  dsimp only
  split
  · exact putPlace_memOk _ _ _ _ h0
  · have h1 := sparseFill_memOk p.side p.pa m v h0
    split <;> rename_i heq <;> rw [heq] at h1
    · exact h1
    · exact memOk_of_mem (enqueueWrite_mem _ _ _ _ _ _ _ _) (makeRoom_memOk _ _ h1)

theorem enterStore_memOk {s : State} (w : StoreW) (h : MemOk s) : MemOk (enterStore s w) := by
  have h0 : MemOk (noteWrite s w.place (some w.sid)) := memOk_of_mem (noteWrite_mem _ _ _) h
  unfold enterStore
  dsimp only
  split
  · exact memOk_of_mem (storeDone_mem _ _ _ _) (memPut_wf _ _ h0)
  · have h1 := sparseFill_memOk w.side w.pa w.mask w.gran h0
    split <;> rename_i heq <;> rw [heq] at h1
    · exact memOk_of_mem (storeDone_mem _ _ _ _) (memOk_of_mem (refuseLog_mem _ _ _) h1)
    · exact memOk_of_mem (enqueueWrite_mem _ _ _ _ _ _ _ _) (makeRoom_memOk _ _ h1)

theorem iter_memOk (n : Nat) (f : Nat → State → State) (hf : ∀ k s, MemOk s → MemOk (f k s)) {s : State} (h : MemOk s) :
    MemOk (iter n s f) := by
  induction n with
  | zero => exact h
  | succ k ih => exact hf k _ ih

theorem flushGran_memOk {s : State} (st : Strand) (g : Nat) (h : MemOk s) : MemOk (flushGran s st g) := by
  unfold flushGran
  dsimp only
  split
  · exact h
  · exact drainTo_memOk _ (foldl_memOk _ (fun _ _ h => enterStore_memOk _ h) _ h)

/-! ## The memory port -/

/-- The machine that an access of the memory port leaves. -/
def accState : Acc → State
  | .ok _ s => s
  | .trap _ s => s
  | .ask _ s => s

/-- The choice of what a read returns leaves memory as it is. -/
@[simp] theorem pickValue_mem (s : State) (st : Strand) (p : Place) (rmw : Bool) (f : View → Option Nat → Bool) (v : Granule) :
    (pickValue s st p rmw f v).2.mem = s.mem := by
  unfold pickValue
  split
  · split
    · rfl
    · dsimp only; split <;> rfl
  · rfl

/-- A read through the memory port keeps memory in its canonical form, whatever it answers. -/
theorem portRead_memOk {s : State} (core : Nat) (st : Strand) (x : Reader) (obj ogen off size : Nat) (h : MemOk s) :
    MemOk (accState (portRead s core st x obj ogen off size)) := by
  have ht := portPlace_memOk (x.ans == some .ok) core x.via (spaceOf s st) obj ogen off size h
  unfold portRead
  dsimp only
  generalize portPlace s (x.ans == some .ok) core x.via (spaceOf s st) obj ogen off size = r at ht ⊢
  obtain ⟨x, t⟩ := r
  dsimp only at *
  split
  · exact ht
  · exact ht
  · exact ht
  · exact ht
  · exact ht
  · rename_i p
    split
    · exact ht
    · split
      · show MemOk (if x.ans = some .error then refuseLog t obj off else t)
        split <;> exact ht
      · have hp := placeRead_memOk p (flushGran_memOk st (p.pa / 64) ht)
        split
        · exact memOk_of_mem (pickValue_mem _ _ _ _ _ _) (memOk_snd hp ‹_›)
        all_goals (have h2 := memOk_snd hp ‹_›; exact h2)

@[simp] theorem failStore_mem (s : State) (c : Nat) (f : FailedW) : (failStore s c f).mem = s.mem := modStrand_mem _ _ _

@[simp] theorem acceptStore_mem (s : State) (c : Nat) (j : Bool) (w : StoreW) : (acceptStore s c j w).mem = s.mem := by
  unfold acceptStore
  split
  · rfl
  · split
    · rfl
    · dsimp only; split <;> rfl

/-- A write through the memory port leaves memory as its translation left it: the bytes reach memory when the store is
performed (R398). -/
theorem portWrite_memOk {s : State} (core : Nat) (e : Engine) (via : Option Nat) (j : Bool) (idx obj ogen off : Nat)
    (l : List Byte) (h : MemOk s) : MemOk (portWrite s core e via j idx obj ogen off l).2 := by
  unfold portWrite
  split
  · exact h
  · rename_i st _
    have ht := portPlace_memOk false core via (spaceOf s st) obj ogen off l.length h
    dsimp only
    generalize portPlace s false core via (spaceOf s st) obj ogen off l.length = r at ht ⊢
    obtain ⟨x, t⟩ := r
    dsimp only at *
    have hf : ∀ (t' : State) (f : FailedW), t'.mem = t.mem → MemOk (failStore t' core f) := fun t' f e =>
      memOk_of_mem ((failStore_mem _ _ _).trans e) ht
    split
    · exact ht
    · exact ht
    · exact hf _ _ rfl
    · exact hf _ _ rfl
    · exact hf _ _ rfl
    · split
      · exact hf _ _ rfl
      · exact memOk_of_mem (acceptStore_mem _ _ _ _) ht

end Sys2Proof.Laws
end

