-- ==== Sys2Proof/Laws/Kept.lean ====
section
/-! SUPPORT. What an instruction's frame does to memory: a trap, a wait, a push and the end of a turn leave it as it
is, so an instruction keeps its canonical form wherever its body does. -/
namespace Sys2Proof.Laws
open Sys2Proof Sys2Proof.Machine Sys2Proof.Safety

@[simp] theorem modQuad_mem (s : State) (q : Nat) (f : Quad → Quad) : (modQuad s q f).mem = s.mem := rfl
@[simp] theorem setCrew_mem (s : State) (k : Nat) (c : Crew) : (setCrew s k c).mem = s.mem := rfl
@[simp] theorem modStream_mem (s : State) (c : Nat) (e : Engine) (f : Stream → Stream) :
    (modStream s c e f).mem = s.mem := modStrand_mem s c _
@[simp] theorem leaveCore_mem (s : State) (c : Nat) (st : Strand) : (leaveCore s c st).mem = s.mem := rfl
@[simp] theorem noteProgress_mem (s : State) (k : Nat) : (noteProgress s k).mem = s.mem := modCrew_mem s k _
@[simp] theorem leaveBarriers_mem (s : State) (c : Nat) : (leaveBarriers s c).mem = s.mem := by
  have h := congrArg (fun s : State => s.mem) (rest_leaveBarriers s c)
  exact h

@[simp] theorem leaveArray_mem (s : State) (c : Nat) : (leaveArray s c).mem = s.mem := by
  have he : (endLease s c).mem = s.mem := by
    unfold endLease; dsimp only; split
    · split <;> rfl
    · rfl
  unfold leaveArray holdPlanes holdRows
  dsimp only
  split <;> simp [he]

@[simp] theorem freezeCrew_mem (s : State) (k : Nat) : (freezeCrew s k).mem = s.mem := by
  unfold freezeCrew
  split
  · rfl
  · split
    · exact (foldl_keeps (fun s : State => s.mem) leaveArray leaveArray_mem _ _).trans rfl
    · rfl

/-- A trap leaves memory as it is (R75 to R77). -/
@[simp] theorem takeTrap_mem (s : State) (c : Nat) (e : Engine) (r : TrapRec) : (takeTrap s c e r).mem = s.mem := by
  unfold takeTrap; split <;> simp

@[simp] theorem trapNow_mem (s : State) (c : Nat) (e : Engine) (t : Trapped) (p m : Bool) :
    (trapNow s c e t p m).mem = s.mem := takeTrap_mem _ _ _ _

@[simp] theorem settleLaunch_mem (s : State) (n : Nat) : (settleLaunch s n).mem = s.mem := by
  unfold settleLaunch
  split
  · rfl
  · split
    · rfl
    · simp

@[simp] theorem endCrew_mem (s : State) (k : Nat) : (endCrew s k).mem = s.mem := by
  unfold endCrew
  split
  · rfl
  · dsimp only
    split
    · rw [settleLaunch_mem, modLaunch_mem]
      exact foldl_keeps (fun s : State => s.mem) (fun s (p : Nat × Strand) => leaveCore s p.1 p.2) (fun _ _ => rfl) _ _
    · rfl

@[simp] theorem settleEnd_mem (s : State) (c : Nat) : (settleEnd s c).mem = s.mem := by
  unfold settleEnd
  split
  · rfl
  · split <;> simp

@[simp] theorem settleRetire_mem (s : State) (c : Nat) : (settleRetire s c).mem = s.mem := by
  unfold settleRetire
  split
  · rfl
  · split <;> simp

/-- Pushes that may be performed and the end of a stream leave memory as it is. -/
@[simp] theorem settle_mem (s : State) (c : Nat) : (settle s c).mem = s.mem := by simp [settle]

@[simp] theorem finishSV_mem (s : State) (c : Nat) (e : Engine) (pat pc : BitVec 32) (a : AfterPush) :
    (finishSV s c e pat pc a).mem = s.mem := by simp [finishSV]

@[simp] theorem passMC_mem (s : State) (c : Nat) (e : Engine) (pc : BitVec 32) : (passMC s c e pc).mem = s.mem := by
  simp [passMC]

/-- The machine that a meaning's body leaves. -/
def effState : Eff → State
  | .fin s => s
  | .jump s _ => s
  | .resume s _ _ _ _ => s
  | .stored s => s
  | .after s _ => s
  | .trap s _ => s
  | .trapMid s _ => s
  | .wait s => s
  | .hold s => s

/-- The end of an instruction's turn leaves memory as its body left it. -/
@[simp] theorem closeEff_mem (c : Nat) (e : Engine) (pat : BitVec 32) (r : Eff) :
    (closeEff c e pat r).mem = (effState r).mem := by
  have done : ∀ s : State, (match strandAt s c with
      | some st => settle (noteProgress s st.crew) c
      | none => s).mem = s.mem := by intro s; split <;> simp
  cases r <;> first
    | exact (done _).trans (by simp [effState])
    | simp [closeEff, effState]

/-- The tk_pop of an instruction leaves memory as it is. -/
theorem popStep_mem {s : State} {c : Nat} {e : Engine} {st : Strand} {m : BitVec 32} :
    (∀ s1, popStep s c e st m = .error s1 → s1.mem = s.mem) ∧
    (∀ s1 st1, popStep s c e st m = .ok (s1, st1) → s1.mem = s.mem) := by
  refine ⟨fun s1 h => ?_, fun s1 st1 h => ?_⟩ <;> unfold popStep at h <;> dsimp only at h <;> repeat' split at h
  all_goals (cases h; try rfl)

/-- An instruction of S or V keeps memory in its canonical form where its body does. -/
theorem issuePre_memOk {s t : State} {e : Engine} {tk : Tk} {pre : State → Nat → Strand → Option Trapped}
    {f : State → Nat → Strand → Eff} (hf : ∀ s c st, MemOk s → MemOk (effState (f s c st))) (h : MemOk s)
    (hs : issuePre e tk pre f s = .next t) : MemOk t := by
  unfold issuePre at hs
  split at hs
  · cases hs
  · rename_i core st _
    split at hs
    · cases hs; exact memOk_of_mem (by simp) h
    · dsimp only at hs
      split at hs
      · cases hs; exact memOk_of_mem (by simp) h
      · split at hs
        · rename_i s1 hp; cases hs; exact memOk_of_mem (popStep_mem.1 _ hp) h
        · rename_i s1 st1 hp
          cases hs
          exact memOk_of_mem (closeEff_mem _ _ _ _) (hf _ _ _ (memOk_of_mem (popStep_mem.2 _ _ hp) h))

theorem issue_memOk {s t : State} {e : Engine} {tk : Tk} {f : State → Nat → Strand → Eff}
    (hf : ∀ s c st, MemOk s → MemOk (effState (f s c st))) (h : MemOk s) (hs : issue e tk f s = .next t) : MemOk t :=
  issuePre_memOk hf h hs

/-- A body that checks first keeps memory in its canonical form where what follows does. -/
theorem orTrap_memOk {α : Type} {s : State} {c : Chk α} {k : α → Eff} (h : MemOk s)
    (hk : ∀ a, c = .ok a → MemOk (effState (k a))) : MemOk (effState (orTrap s c k)) := by
  cases c with
  | ok a => exact hk a rfl
  | error t => exact h

/-- A body that reads through the memory port keeps memory in its canonical form where what follows does. -/
theorem withRead_memOk {s : State} (c : Nat) (e : Engine) (st : Strand) (rmw : Bool) (obj ogen off size : Nat)
    {k : List Byte → State → Eff} (h : MemOk s) (hk : ∀ l t, MemOk t → MemOk (effState (k l t))) :
    MemOk (effState (withRead s c e st rmw obj ogen off size k)) := by
  have hp := portRead_memOk c st { readerOf st e with rmw := rmw } obj ogen off size h
  unfold withRead
  generalize portRead s c st { readerOf st e with rmw := rmw } obj ogen off size = r at hp ⊢
  cases r with
  | ok l t => exact hk l t hp
  | trap x t => exact hp
  | ask p t =>
    have hp : MemOk t := hp
    show MemOk (effState (awaitCxl t c e p))
    unfold awaitCxl
    split
    · split
      · exact hp
      · exact memOk_of_mem (by simp [effState, accState, sendCxl]) hp
    · exact hp

/-- For instance, scalar arithmetic leaves memory as it is. -/
theorem execAdd_memOk {s t : State} {tk : Tk} {xd xa xb : XReg} (h : MemOk s) (hs : execAdd tk xd xa xb s = .next t) :
    MemOk t := by
  unfold execAdd alu2 at hs
  refine issue_memOk (fun s c st hm => ?_) h hs
  exact orTrap_memOk hm fun _ _ => memOk_of_mem rfl hm

end Sys2Proof.Laws
end

