-- ==== Sys2Proof/Laws/PerInstr.lean ====
section
/-! SUPPORT. Per-instruction lemmas: decoding the encoding of a well-formed instruction gives it back. -/
namespace Sys2Proof.Laws.RoundTrip
open Sys2Proof Sys2Proof.Machine Sys2Proof.Safety
set_option linter.unusedSimpArgs false
set_option Elab.async false

/-- A well-formed instruction is read back from its encoding. -/
def Statement (i : Instr) : Prop := i.wf = true → ReadsBack i

theorem arith (rm : BitVec 3) (sat : Bool) (ftz : BitVec 2) (t : Bool) (pred : PReg) (pneg : Bool) (pen : Bool) (fmt : BitVec 4) :
    Statement (.arith rm sat ftz t pred pneg pen fmt) := by
  intro h; refine ⟨_, rfl, ?_, ?_⟩ <;> (try simp [Instr.wf] at h) <;> simp [decodePrefix, decIf, wLS] <;> (try simp_all) <;>
    (intro hp; simpa [hp] using h.2)
theorem label (lbl : BitVec 10) :
    Statement (.label lbl) := by
  intro h; refine ⟨_, rfl, ?_, ?_⟩ <;> (try simp [Instr.wf] at h) <;> simp [decodePrefix, decIf, wLS] <;> (try simp_all)
theorem immx (upper : BitVec 26) :
    Statement (.immx upper) := by
  intro h; refine ⟨_, rfl, ?_, ?_⟩ <;> (try simp [Instr.wf] at h) <;> simp [decodePrefix, decIf, wLS] <;> (try simp_all)
theorem snop (tk : Tk) :
    Statement (.snop tk) := by
  intro h; refine .inl ⟨_, rfl, ?_, ?_, fun w2 => ?_⟩
  · rw [wLS_engWord _ _ _ _ (by simp)]; rfl
  · rw [wOP_engWord _ _ _ _ (by simp)]; rfl
  · show decodeS _ = _
    unfold decodeS; rw [wOP_engWord _ _ _ _ (by simp)]
    simp -zeta only [BitVec.toNat_ofNat, Nat.reducePow, Nat.reduceMod]
    simp [decIf, wTK, engWord]
theorem add (tk : Tk) (xd : XReg) (xa : XReg) (xb : XReg) :
    Statement (.add tk xd xa xb) := by
  intro h; refine .inl ⟨_, rfl, ?_, ?_, fun w2 => ?_⟩
  · rw [wLS_engWord _ _ _ _ (by simp)]; rfl
  · rw [wOP_engWord _ _ _ _ (by simp)]; rfl
  · show decodeS _ = _
    unfold decodeS; rw [wOP_engWord _ _ _ _ (by simp)]
    simp -zeta only [BitVec.toNat_ofNat, Nat.reducePow, Nat.reduceMod]
    simp [decIf, wTK, engWord]
theorem sub (tk : Tk) (xd : XReg) (xa : XReg) (xb : XReg) :
    Statement (.sub tk xd xa xb) := by
  intro h; refine .inl ⟨_, rfl, ?_, ?_, fun w2 => ?_⟩
  · rw [wLS_engWord _ _ _ _ (by simp)]; rfl
  · rw [wOP_engWord _ _ _ _ (by simp)]; rfl
  · show decodeS _ = _
    unfold decodeS; rw [wOP_engWord _ _ _ _ (by simp)]
    simp -zeta only [BitVec.toNat_ofNat, Nat.reducePow, Nat.reduceMod]
    simp [decIf, wTK, engWord]
theorem andR (tk : Tk) (xd : XReg) (xa : XReg) (xb : XReg) :
    Statement (.andR tk xd xa xb) := by
  intro h; refine .inl ⟨_, rfl, ?_, ?_, fun w2 => ?_⟩
  · rw [wLS_engWord _ _ _ _ (by simp)]; rfl
  · rw [wOP_engWord _ _ _ _ (by simp)]; rfl
  · show decodeS _ = _
    unfold decodeS; rw [wOP_engWord _ _ _ _ (by simp)]
    simp -zeta only [BitVec.toNat_ofNat, Nat.reducePow, Nat.reduceMod]
    simp [decIf, wTK, engWord]
theorem orR (tk : Tk) (xd : XReg) (xa : XReg) (xb : XReg) :
    Statement (.orR tk xd xa xb) := by
  intro h; refine .inl ⟨_, rfl, ?_, ?_, fun w2 => ?_⟩
  · rw [wLS_engWord _ _ _ _ (by simp)]; rfl
  · rw [wOP_engWord _ _ _ _ (by simp)]; rfl
  · show decodeS _ = _
    unfold decodeS; rw [wOP_engWord _ _ _ _ (by simp)]
    simp -zeta only [BitVec.toNat_ofNat, Nat.reducePow, Nat.reduceMod]
    simp [decIf, wTK, engWord]
theorem xorR (tk : Tk) (xd : XReg) (xa : XReg) (xb : XReg) :
    Statement (.xorR tk xd xa xb) := by
  intro h; refine .inl ⟨_, rfl, ?_, ?_, fun w2 => ?_⟩
  · rw [wLS_engWord _ _ _ _ (by simp)]; rfl
  · rw [wOP_engWord _ _ _ _ (by simp)]; rfl
  · show decodeS _ = _
    unfold decodeS; rw [wOP_engWord _ _ _ _ (by simp)]
    simp -zeta only [BitVec.toNat_ofNat, Nat.reducePow, Nat.reduceMod]
    simp [decIf, wTK, engWord]
theorem sll (tk : Tk) (xd : XReg) (xa : XReg) (xb : XReg) :
    Statement (.sll tk xd xa xb) := by
  intro h; refine .inl ⟨_, rfl, ?_, ?_, fun w2 => ?_⟩
  · rw [wLS_engWord _ _ _ _ (by simp)]; rfl
  · rw [wOP_engWord _ _ _ _ (by simp)]; rfl
  · show decodeS _ = _
    unfold decodeS; rw [wOP_engWord _ _ _ _ (by simp)]
    simp -zeta only [BitVec.toNat_ofNat, Nat.reducePow, Nat.reduceMod]
    simp [decIf, wTK, engWord]
theorem srl (tk : Tk) (xd : XReg) (xa : XReg) (xb : XReg) :
    Statement (.srl tk xd xa xb) := by
  intro h; refine .inl ⟨_, rfl, ?_, ?_, fun w2 => ?_⟩
  · rw [wLS_engWord _ _ _ _ (by simp)]; rfl
  · rw [wOP_engWord _ _ _ _ (by simp)]; rfl
  · show decodeS _ = _
    unfold decodeS; rw [wOP_engWord _ _ _ _ (by simp)]
    simp -zeta only [BitVec.toNat_ofNat, Nat.reducePow, Nat.reduceMod]
    simp [decIf, wTK, engWord]
theorem sra (tk : Tk) (xd : XReg) (xa : XReg) (xb : XReg) :
    Statement (.sra tk xd xa xb) := by
  intro h; refine .inl ⟨_, rfl, ?_, ?_, fun w2 => ?_⟩
  · rw [wLS_engWord _ _ _ _ (by simp)]; rfl
  · rw [wOP_engWord _ _ _ _ (by simp)]; rfl
  · show decodeS _ = _
    unfold decodeS; rw [wOP_engWord _ _ _ _ (by simp)]
    simp -zeta only [BitVec.toNat_ofNat, Nat.reducePow, Nat.reduceMod]
    simp [decIf, wTK, engWord]
theorem slt (tk : Tk) (xd : XReg) (xa : XReg) (xb : XReg) :
    Statement (.slt tk xd xa xb) := by
  intro h; refine .inl ⟨_, rfl, ?_, ?_, fun w2 => ?_⟩
  · rw [wLS_engWord _ _ _ _ (by simp)]; rfl
  · rw [wOP_engWord _ _ _ _ (by simp)]; rfl
  · show decodeS _ = _
    unfold decodeS; rw [wOP_engWord _ _ _ _ (by simp)]
    simp -zeta only [BitVec.toNat_ofNat, Nat.reducePow, Nat.reduceMod]
    simp [decIf, wTK, engWord]
theorem sltu (tk : Tk) (xd : XReg) (xa : XReg) (xb : XReg) :
    Statement (.sltu tk xd xa xb) := by
  intro h; refine .inl ⟨_, rfl, ?_, ?_, fun w2 => ?_⟩
  · rw [wLS_engWord _ _ _ _ (by simp)]; rfl
  · rw [wOP_engWord _ _ _ _ (by simp)]; rfl
  · show decodeS _ = _
    unfold decodeS; rw [wOP_engWord _ _ _ _ (by simp)]
    simp -zeta only [BitVec.toNat_ofNat, Nat.reducePow, Nat.reduceMod]
    simp [decIf, wTK, engWord]
theorem minR (tk : Tk) (xd : XReg) (xa : XReg) (xb : XReg) :
    Statement (.minR tk xd xa xb) := by
  intro h; refine .inl ⟨_, rfl, ?_, ?_, fun w2 => ?_⟩
  · rw [wLS_engWord _ _ _ _ (by simp)]; rfl
  · rw [wOP_engWord _ _ _ _ (by simp)]; rfl
  · show decodeS _ = _
    unfold decodeS; rw [wOP_engWord _ _ _ _ (by simp)]
    simp -zeta only [BitVec.toNat_ofNat, Nat.reducePow, Nat.reduceMod]
    simp [decIf, wTK, engWord]
theorem maxR (tk : Tk) (xd : XReg) (xa : XReg) (xb : XReg) :
    Statement (.maxR tk xd xa xb) := by
  intro h; refine .inl ⟨_, rfl, ?_, ?_, fun w2 => ?_⟩
  · rw [wLS_engWord _ _ _ _ (by simp)]; rfl
  · rw [wOP_engWord _ _ _ _ (by simp)]; rfl
  · show decodeS _ = _
    unfold decodeS; rw [wOP_engWord _ _ _ _ (by simp)]
    simp -zeta only [BitVec.toNat_ofNat, Nat.reducePow, Nat.reduceMod]
    simp [decIf, wTK, engWord]
theorem minu (tk : Tk) (xd : XReg) (xa : XReg) (xb : XReg) :
    Statement (.minu tk xd xa xb) := by
  intro h; refine .inl ⟨_, rfl, ?_, ?_, fun w2 => ?_⟩
  · rw [wLS_engWord _ _ _ _ (by simp)]; rfl
  · rw [wOP_engWord _ _ _ _ (by simp)]; rfl
  · show decodeS _ = _
    unfold decodeS; rw [wOP_engWord _ _ _ _ (by simp)]
    simp -zeta only [BitVec.toNat_ofNat, Nat.reducePow, Nat.reduceMod]
    simp [decIf, wTK, engWord]
theorem maxu (tk : Tk) (xd : XReg) (xa : XReg) (xb : XReg) :
    Statement (.maxu tk xd xa xb) := by
  intro h; refine .inl ⟨_, rfl, ?_, ?_, fun w2 => ?_⟩
  · rw [wLS_engWord _ _ _ _ (by simp)]; rfl
  · rw [wOP_engWord _ _ _ _ (by simp)]; rfl
  · show decodeS _ = _
    unfold decodeS; rw [wOP_engWord _ _ _ _ (by simp)]
    simp -zeta only [BitVec.toNat_ofNat, Nat.reducePow, Nat.reduceMod]
    simp [decIf, wTK, engWord]
theorem mul (tk : Tk) (xd : XReg) (xa : XReg) (xb : XReg) :
    Statement (.mul tk xd xa xb) := by
  intro h; refine .inl ⟨_, rfl, ?_, ?_, fun w2 => ?_⟩
  · rw [wLS_engWord _ _ _ _ (by simp)]; rfl
  · rw [wOP_engWord _ _ _ _ (by simp)]; rfl
  · show decodeS _ = _
    unfold decodeS; rw [wOP_engWord _ _ _ _ (by simp)]
    simp -zeta only [BitVec.toNat_ofNat, Nat.reducePow, Nat.reduceMod]
    simp [decIf, wTK, engWord]
theorem mulh (tk : Tk) (xd : XReg) (xa : XReg) (xb : XReg) :
    Statement (.mulh tk xd xa xb) := by
  intro h; refine .inl ⟨_, rfl, ?_, ?_, fun w2 => ?_⟩
  · rw [wLS_engWord _ _ _ _ (by simp)]; rfl
  · rw [wOP_engWord _ _ _ _ (by simp)]; rfl
  · show decodeS _ = _
    unfold decodeS; rw [wOP_engWord _ _ _ _ (by simp)]
    simp -zeta only [BitVec.toNat_ofNat, Nat.reducePow, Nat.reduceMod]
    simp [decIf, wTK, engWord]
theorem mulhu (tk : Tk) (xd : XReg) (xa : XReg) (xb : XReg) :
    Statement (.mulhu tk xd xa xb) := by
  intro h; refine .inl ⟨_, rfl, ?_, ?_, fun w2 => ?_⟩
  · rw [wLS_engWord _ _ _ _ (by simp)]; rfl
  · rw [wOP_engWord _ _ _ _ (by simp)]; rfl
  · show decodeS _ = _
    unfold decodeS; rw [wOP_engWord _ _ _ _ (by simp)]
    simp -zeta only [BitVec.toNat_ofNat, Nat.reducePow, Nat.reduceMod]
    simp [decIf, wTK, engWord]
theorem mulhsu (tk : Tk) (xd : XReg) (xa : XReg) (xb : XReg) :
    Statement (.mulhsu tk xd xa xb) := by
  intro h; refine .inl ⟨_, rfl, ?_, ?_, fun w2 => ?_⟩
  · rw [wLS_engWord _ _ _ _ (by simp)]; rfl
  · rw [wOP_engWord _ _ _ _ (by simp)]; rfl
  · show decodeS _ = _
    unfold decodeS; rw [wOP_engWord _ _ _ _ (by simp)]
    simp -zeta only [BitVec.toNat_ofNat, Nat.reducePow, Nat.reduceMod]
    simp [decIf, wTK, engWord]
theorem div (tk : Tk) (xd : XReg) (xa : XReg) (xb : XReg) :
    Statement (.div tk xd xa xb) := by
  intro h; refine .inl ⟨_, rfl, ?_, ?_, fun w2 => ?_⟩
  · rw [wLS_engWord _ _ _ _ (by simp)]; rfl
  · rw [wOP_engWord _ _ _ _ (by simp)]; rfl
  · show decodeS _ = _
    unfold decodeS; rw [wOP_engWord _ _ _ _ (by simp)]
    simp -zeta only [BitVec.toNat_ofNat, Nat.reducePow, Nat.reduceMod]
    simp [decIf, wTK, engWord]
theorem divu (tk : Tk) (xd : XReg) (xa : XReg) (xb : XReg) :
    Statement (.divu tk xd xa xb) := by
  intro h; refine .inl ⟨_, rfl, ?_, ?_, fun w2 => ?_⟩
  · rw [wLS_engWord _ _ _ _ (by simp)]; rfl
  · rw [wOP_engWord _ _ _ _ (by simp)]; rfl
  · show decodeS _ = _
    unfold decodeS; rw [wOP_engWord _ _ _ _ (by simp)]
    simp -zeta only [BitVec.toNat_ofNat, Nat.reducePow, Nat.reduceMod]
    simp [decIf, wTK, engWord]
theorem rem (tk : Tk) (xd : XReg) (xa : XReg) (xb : XReg) :
    Statement (.rem tk xd xa xb) := by
  intro h; refine .inl ⟨_, rfl, ?_, ?_, fun w2 => ?_⟩
  · rw [wLS_engWord _ _ _ _ (by simp)]; rfl
  · rw [wOP_engWord _ _ _ _ (by simp)]; rfl
  · show decodeS _ = _
    unfold decodeS; rw [wOP_engWord _ _ _ _ (by simp)]
    simp -zeta only [BitVec.toNat_ofNat, Nat.reducePow, Nat.reduceMod]
    simp [decIf, wTK, engWord]
theorem remu (tk : Tk) (xd : XReg) (xa : XReg) (xb : XReg) :
    Statement (.remu tk xd xa xb) := by
  intro h; refine .inl ⟨_, rfl, ?_, ?_, fun w2 => ?_⟩
  · rw [wLS_engWord _ _ _ _ (by simp)]; rfl
  · rw [wOP_engWord _ _ _ _ (by simp)]; rfl
  · show decodeS _ = _
    unfold decodeS; rw [wOP_engWord _ _ _ _ (by simp)]
    simp -zeta only [BitVec.toNat_ofNat, Nat.reducePow, Nat.reduceMod]
    simp [decIf, wTK, engWord]
theorem addi (tk : Tk) (xd : XReg) (xa : XReg) (imm : BitVec 10) :
    Statement (.addi tk xd xa imm) := by
  intro h; refine .inl ⟨_, rfl, ?_, ?_, fun w2 => ?_⟩
  · rw [wLS_engWord _ _ _ _ (by simp)]; rfl
  · rw [wOP_engWord _ _ _ _ (by simp)]; rfl
  · show decodeS _ = _
    unfold decodeS; rw [wOP_engWord _ _ _ _ (by simp)]
    simp -zeta only [BitVec.toNat_ofNat, Nat.reducePow, Nat.reduceMod]
    simp [decIf, wTK, engWord]
theorem andi (tk : Tk) (xd : XReg) (xa : XReg) (imm : BitVec 10) :
    Statement (.andi tk xd xa imm) := by
  intro h; refine .inl ⟨_, rfl, ?_, ?_, fun w2 => ?_⟩
  · rw [wLS_engWord _ _ _ _ (by simp)]; rfl
  · rw [wOP_engWord _ _ _ _ (by simp)]; rfl
  · show decodeS _ = _
    unfold decodeS; rw [wOP_engWord _ _ _ _ (by simp)]
    simp -zeta only [BitVec.toNat_ofNat, Nat.reducePow, Nat.reduceMod]
    simp [decIf, wTK, engWord]
theorem ori (tk : Tk) (xd : XReg) (xa : XReg) (imm : BitVec 10) :
    Statement (.ori tk xd xa imm) := by
  intro h; refine .inl ⟨_, rfl, ?_, ?_, fun w2 => ?_⟩
  · rw [wLS_engWord _ _ _ _ (by simp)]; rfl
  · rw [wOP_engWord _ _ _ _ (by simp)]; rfl
  · show decodeS _ = _
    unfold decodeS; rw [wOP_engWord _ _ _ _ (by simp)]
    simp -zeta only [BitVec.toNat_ofNat, Nat.reducePow, Nat.reduceMod]
    simp [decIf, wTK, engWord]
theorem xori (tk : Tk) (xd : XReg) (xa : XReg) (imm : BitVec 10) :
    Statement (.xori tk xd xa imm) := by
  intro h; refine .inl ⟨_, rfl, ?_, ?_, fun w2 => ?_⟩
  · rw [wLS_engWord _ _ _ _ (by simp)]; rfl
  · rw [wOP_engWord _ _ _ _ (by simp)]; rfl
  · show decodeS _ = _
    unfold decodeS; rw [wOP_engWord _ _ _ _ (by simp)]
    simp -zeta only [BitVec.toNat_ofNat, Nat.reducePow, Nat.reduceMod]
    simp [decIf, wTK, engWord]
theorem slli (tk : Tk) (xd : XReg) (xa : XReg) (n : BitVec 6) :
    Statement (.slli tk xd xa n) := by
  intro h; refine .inl ⟨_, rfl, ?_, ?_, fun w2 => ?_⟩
  · rw [wLS_engWord _ _ _ _ (by simp)]; rfl
  · rw [wOP_engWord _ _ _ _ (by simp)]; rfl
  · show decodeS _ = _
    unfold decodeS; rw [wOP_engWord _ _ _ _ (by simp)]
    simp -zeta only [BitVec.toNat_ofNat, Nat.reducePow, Nat.reduceMod]
    simp [decIf, wTK, engWord]
theorem srli (tk : Tk) (xd : XReg) (xa : XReg) (n : BitVec 6) :
    Statement (.srli tk xd xa n) := by
  intro h; refine .inl ⟨_, rfl, ?_, ?_, fun w2 => ?_⟩
  · rw [wLS_engWord _ _ _ _ (by simp)]; rfl
  · rw [wOP_engWord _ _ _ _ (by simp)]; rfl
  · show decodeS _ = _
    unfold decodeS; rw [wOP_engWord _ _ _ _ (by simp)]
    simp -zeta only [BitVec.toNat_ofNat, Nat.reducePow, Nat.reduceMod]
    simp [decIf, wTK, engWord]
theorem srai (tk : Tk) (xd : XReg) (xa : XReg) (n : BitVec 6) :
    Statement (.srai tk xd xa n) := by
  intro h; refine .inl ⟨_, rfl, ?_, ?_, fun w2 => ?_⟩
  · rw [wLS_engWord _ _ _ _ (by simp)]; rfl
  · rw [wOP_engWord _ _ _ _ (by simp)]; rfl
  · show decodeS _ = _
    unfold decodeS; rw [wOP_engWord _ _ _ _ (by simp)]
    simp -zeta only [BitVec.toNat_ofNat, Nat.reducePow, Nat.reduceMod]
    simp [decIf, wTK, engWord]
theorem slti (tk : Tk) (xd : XReg) (xa : XReg) (imm : BitVec 10) :
    Statement (.slti tk xd xa imm) := by
  intro h; refine .inl ⟨_, rfl, ?_, ?_, fun w2 => ?_⟩
  · rw [wLS_engWord _ _ _ _ (by simp)]; rfl
  · rw [wOP_engWord _ _ _ _ (by simp)]; rfl
  · show decodeS _ = _
    unfold decodeS; rw [wOP_engWord _ _ _ _ (by simp)]
    simp -zeta only [BitVec.toNat_ofNat, Nat.reducePow, Nat.reduceMod]
    simp [decIf, wTK, engWord]
theorem sltiu (tk : Tk) (xd : XReg) (xa : XReg) (imm : BitVec 10) :
    Statement (.sltiu tk xd xa imm) := by
  intro h; refine .inl ⟨_, rfl, ?_, ?_, fun w2 => ?_⟩
  · rw [wLS_engWord _ _ _ _ (by simp)]; rfl
  · rw [wOP_engWord _ _ _ _ (by simp)]; rfl
  · show decodeS _ = _
    unfold decodeS; rw [wOP_engWord _ _ _ _ (by simp)]
    simp -zeta only [BitVec.toNat_ofNat, Nat.reducePow, Nat.reduceMod]
    simp [decIf, wTK, engWord]
theorem lui (tk : Tk) (xd : XReg) (imm : BitVec 15) :
    Statement (.lui tk xd imm) := by
  intro h; refine .inl ⟨_, rfl, ?_, ?_, fun w2 => ?_⟩
  · rw [wLS_engWord _ _ _ _ (by simp)]; rfl
  · rw [wOP_engWord _ _ _ _ (by simp)]; rfl
  · show decodeS _ = _
    unfold decodeS; rw [wOP_engWord _ _ _ _ (by simp)]
    simp -zeta only [BitVec.toNat_ofNat, Nat.reducePow, Nat.reduceMod]
    simp [decIf, wTK, engWord]
theorem cinspBase (tk : Tk) (xd : XReg) (ca : CReg) :
    Statement (.cinspBase tk xd ca) := by
  intro h; refine .inl ⟨_, rfl, ?_, ?_, fun w2 => ?_⟩
  · rw [wLS_engWord _ _ _ _ (by simp)]; rfl
  · rw [wOP_engWord _ _ _ _ (by simp)]; rfl
  · show decodeS _ = _
    unfold decodeS; rw [wOP_engWord _ _ _ _ (by simp)]
    simp -zeta only [BitVec.toNat_ofNat, Nat.reducePow, Nat.reduceMod]
    simp [decIf, wTK, engWord]
theorem cinspLen (tk : Tk) (xd : XReg) (ca : CReg) :
    Statement (.cinspLen tk xd ca) := by
  intro h; refine .inl ⟨_, rfl, ?_, ?_, fun w2 => ?_⟩
  · rw [wLS_engWord _ _ _ _ (by simp)]; rfl
  · rw [wOP_engWord _ _ _ _ (by simp)]; rfl
  · show decodeS _ = _
    unfold decodeS; rw [wOP_engWord _ _ _ _ (by simp)]
    simp -zeta only [BitVec.toNat_ofNat, Nat.reducePow, Nat.reduceMod]
    simp [decIf, wTK, engWord]
theorem cinspRights (tk : Tk) (xd : XReg) (ca : CReg) :
    Statement (.cinspRights tk xd ca) := by
  intro h; refine .inl ⟨_, rfl, ?_, ?_, fun w2 => ?_⟩
  · rw [wLS_engWord _ _ _ _ (by simp)]; rfl
  · rw [wOP_engWord _ _ _ _ (by simp)]; rfl
  · show decodeS _ = _
    unfold decodeS; rw [wOP_engWord _ _ _ _ (by simp)]
    simp -zeta only [BitVec.toNat_ofNat, Nat.reducePow, Nat.reduceMod]
    simp [decIf, wTK, engWord]
theorem cinspObj (tk : Tk) (xd : XReg) (ca : CReg) :
    Statement (.cinspObj tk xd ca) := by
  intro h; refine .inl ⟨_, rfl, ?_, ?_, fun w2 => ?_⟩
  · rw [wLS_engWord _ _ _ _ (by simp)]; rfl
  · rw [wOP_engWord _ _ _ _ (by simp)]; rfl
  · show decodeS _ = _
    unfold decodeS; rw [wOP_engWord _ _ _ _ (by simp)]
    simp -zeta only [BitVec.toNat_ofNat, Nat.reducePow, Nat.reduceMod]
    simp [decIf, wTK, engWord]
theorem cinspGen (tk : Tk) (xd : XReg) (ca : CReg) :
    Statement (.cinspGen tk xd ca) := by
  intro h; refine .inl ⟨_, rfl, ?_, ?_, fun w2 => ?_⟩
  · rw [wLS_engWord _ _ _ _ (by simp)]; rfl
  · rw [wOP_engWord _ _ _ _ (by simp)]; rfl
  · show decodeS _ = _
    unfold decodeS; rw [wOP_engWord _ _ _ _ (by simp)]
    simp -zeta only [BitVec.toNat_ofNat, Nat.reducePow, Nat.reduceMod]
    simp [decIf, wTK, engWord]
theorem pgcommit (tk : Tk) (xd : XReg) (cn : CReg) (xo : XReg) :
    Statement (.pgcommit tk xd cn xo) := by
  intro h; refine .inl ⟨_, rfl, ?_, ?_, fun w2 => ?_⟩
  · rw [wLS_engWord _ _ _ _ (by simp)]; rfl
  · rw [wOP_engWord _ _ _ _ (by simp)]; rfl
  · show decodeS _ = _
    unfold decodeS; rw [wOP_engWord _ _ _ _ (by simp)]
    simp -zeta only [BitVec.toNat_ofNat, Nat.reducePow, Nat.reduceMod]
    simp [decIf, wTK, engWord]
theorem pgfree (tk : Tk) (xd : XReg) (cn : CReg) (xo : XReg) :
    Statement (.pgfree tk xd cn xo) := by
  intro h; refine .inl ⟨_, rfl, ?_, ?_, fun w2 => ?_⟩
  · rw [wLS_engWord _ _ _ _ (by simp)]; rfl
  · rw [wOP_engWord _ _ _ _ (by simp)]; rfl
  · show decodeS _ = _
    unfold decodeS; rw [wOP_engWord _ _ _ _ (by simp)]
    simp -zeta only [BitVec.toNat_ofNat, Nat.reducePow, Nat.reduceMod]
    simp [decIf, wTK, engWord]
theorem pgquery (tk : Tk) (xd : XReg) (cn : CReg) (xo : XReg) :
    Statement (.pgquery tk xd cn xo) := by
  intro h; refine .inl ⟨_, rfl, ?_, ?_, fun w2 => ?_⟩
  · rw [wLS_engWord _ _ _ _ (by simp)]; rfl
  · rw [wOP_engWord _ _ _ _ (by simp)]; rfl
  · show decodeS _ = _
    unfold decodeS; rw [wOP_engWord _ _ _ _ (by simp)]
    simp -zeta only [BitVec.toNat_ofNat, Nat.reducePow, Nat.reduceMod]
    simp [decIf, wTK, engWord]
theorem cwin (tk : Tk) (cd : CReg) (ca : CReg) (xa : XReg) (xb : XReg) :
    Statement (.cwin tk cd ca xa xb) := by
  intro h; refine .inl ⟨_, rfl, ?_, ?_, fun w2 => ?_⟩
  · rw [wLS_engWord _ _ _ _ (by simp)]; rfl
  · rw [wOP_engWord _ _ _ _ (by simp)]; rfl
  · show decodeS _ = _
    unfold decodeS; rw [wOP_engWord _ _ _ _ (by simp)]
    simp -zeta only [BitVec.toNat_ofNat, Nat.reducePow, Nat.reduceMod]
    simp [decIf, wTK, engWord]
theorem crt (tk : Tk) (cd : CReg) (ca : CReg) (xa : XReg) :
    Statement (.crt tk cd ca xa) := by
  intro h; refine .inl ⟨_, rfl, ?_, ?_, fun w2 => ?_⟩
  · rw [wLS_engWord _ _ _ _ (by simp)]; rfl
  · rw [wOP_engWord _ _ _ _ (by simp)]; rfl
  · show decodeS _ = _
    unfold decodeS; rw [wOP_engWord _ _ _ _ (by simp)]
    simp -zeta only [BitVec.toNat_ofNat, Nat.reducePow, Nat.reduceMod]
    simp [decIf, wTK, engWord]
theorem cmov (tk : Tk) (cd : CReg) (ca : CReg) :
    Statement (.cmov tk cd ca) := by
  intro h; refine .inl ⟨_, rfl, ?_, ?_, fun w2 => ?_⟩
  · rw [wLS_engWord _ _ _ _ (by simp)]; rfl
  · rw [wOP_engWord _ _ _ _ (by simp)]; rfl
  · show decodeS _ = _
    unfold decodeS; rw [wOP_engWord _ _ _ _ (by simp)]
    simp -zeta only [BitVec.toNat_ofNat, Nat.reducePow, Nat.reduceMod]
    simp [decIf, wTK, engWord]
theorem ldb (tk : Tk) (xd : XReg) (cn : CReg) (xo : XReg) (imm : BitVec 6) :
    Statement (.ldb tk xd cn xo imm) := by
  intro h; refine .inl ⟨_, rfl, ?_, ?_, fun w2 => ?_⟩
  · rw [wLS_engWord _ _ _ _ (by simp)]; rfl
  · rw [wOP_engWord _ _ _ _ (by simp)]; rfl
  · show decodeS _ = _
    unfold decodeS; rw [wOP_engWord _ _ _ _ (by simp)]
    simp -zeta only [BitVec.toNat_ofNat, Nat.reducePow, Nat.reduceMod]
    simp [decIf, wTK, engWord]
theorem ldbu (tk : Tk) (xd : XReg) (cn : CReg) (xo : XReg) (imm : BitVec 6) :
    Statement (.ldbu tk xd cn xo imm) := by
  intro h; refine .inl ⟨_, rfl, ?_, ?_, fun w2 => ?_⟩
  · rw [wLS_engWord _ _ _ _ (by simp)]; rfl
  · rw [wOP_engWord _ _ _ _ (by simp)]; rfl
  · show decodeS _ = _
    unfold decodeS; rw [wOP_engWord _ _ _ _ (by simp)]
    simp -zeta only [BitVec.toNat_ofNat, Nat.reducePow, Nat.reduceMod]
    simp [decIf, wTK, engWord]
theorem ldh (tk : Tk) (xd : XReg) (cn : CReg) (xo : XReg) (imm : BitVec 6) :
    Statement (.ldh tk xd cn xo imm) := by
  intro h; refine .inl ⟨_, rfl, ?_, ?_, fun w2 => ?_⟩
  · rw [wLS_engWord _ _ _ _ (by simp)]; rfl
  · rw [wOP_engWord _ _ _ _ (by simp)]; rfl
  · show decodeS _ = _
    unfold decodeS; rw [wOP_engWord _ _ _ _ (by simp)]
    simp -zeta only [BitVec.toNat_ofNat, Nat.reducePow, Nat.reduceMod]
    simp [decIf, wTK, engWord]
theorem ldhu (tk : Tk) (xd : XReg) (cn : CReg) (xo : XReg) (imm : BitVec 6) :
    Statement (.ldhu tk xd cn xo imm) := by
  intro h; refine .inl ⟨_, rfl, ?_, ?_, fun w2 => ?_⟩
  · rw [wLS_engWord _ _ _ _ (by simp)]; rfl
  · rw [wOP_engWord _ _ _ _ (by simp)]; rfl
  · show decodeS _ = _
    unfold decodeS; rw [wOP_engWord _ _ _ _ (by simp)]
    simp -zeta only [BitVec.toNat_ofNat, Nat.reducePow, Nat.reduceMod]
    simp [decIf, wTK, engWord]
theorem ldw (tk : Tk) (xd : XReg) (cn : CReg) (xo : XReg) (imm : BitVec 6) :
    Statement (.ldw tk xd cn xo imm) := by
  intro h; refine .inl ⟨_, rfl, ?_, ?_, fun w2 => ?_⟩
  · rw [wLS_engWord _ _ _ _ (by simp)]; rfl
  · rw [wOP_engWord _ _ _ _ (by simp)]; rfl
  · show decodeS _ = _
    unfold decodeS; rw [wOP_engWord _ _ _ _ (by simp)]
    simp -zeta only [BitVec.toNat_ofNat, Nat.reducePow, Nat.reduceMod]
    simp [decIf, wTK, engWord]
theorem ldwu (tk : Tk) (xd : XReg) (cn : CReg) (xo : XReg) (imm : BitVec 6) :
    Statement (.ldwu tk xd cn xo imm) := by
  intro h; refine .inl ⟨_, rfl, ?_, ?_, fun w2 => ?_⟩
  · rw [wLS_engWord _ _ _ _ (by simp)]; rfl
  · rw [wOP_engWord _ _ _ _ (by simp)]; rfl
  · show decodeS _ = _
    unfold decodeS; rw [wOP_engWord _ _ _ _ (by simp)]
    simp -zeta only [BitVec.toNat_ofNat, Nat.reducePow, Nat.reduceMod]
    simp [decIf, wTK, engWord]
theorem ldd (tk : Tk) (xd : XReg) (cn : CReg) (xo : XReg) (imm : BitVec 6) :
    Statement (.ldd tk xd cn xo imm) := by
  intro h; refine .inl ⟨_, rfl, ?_, ?_, fun w2 => ?_⟩
  · rw [wLS_engWord _ _ _ _ (by simp)]; rfl
  · rw [wOP_engWord _ _ _ _ (by simp)]; rfl
  · show decodeS _ = _
    unfold decodeS; rw [wOP_engWord _ _ _ _ (by simp)]
    simp -zeta only [BitVec.toNat_ofNat, Nat.reducePow, Nat.reduceMod]
    simp [decIf, wTK, engWord]
theorem stb (tk : Tk) (xs : XReg) (cn : CReg) (xo : XReg) (imm : BitVec 6) :
    Statement (.stb tk xs cn xo imm) := by
  intro h; refine .inl ⟨_, rfl, ?_, ?_, fun w2 => ?_⟩
  · rw [wLS_engWord _ _ _ _ (by simp)]; rfl
  · rw [wOP_engWord _ _ _ _ (by simp)]; rfl
  · show decodeS _ = _
    unfold decodeS; rw [wOP_engWord _ _ _ _ (by simp)]
    simp -zeta only [BitVec.toNat_ofNat, Nat.reducePow, Nat.reduceMod]
    simp [decIf, wTK, engWord]
theorem sth (tk : Tk) (xs : XReg) (cn : CReg) (xo : XReg) (imm : BitVec 6) :
    Statement (.sth tk xs cn xo imm) := by
  intro h; refine .inl ⟨_, rfl, ?_, ?_, fun w2 => ?_⟩
  · rw [wLS_engWord _ _ _ _ (by simp)]; rfl
  · rw [wOP_engWord _ _ _ _ (by simp)]; rfl
  · show decodeS _ = _
    unfold decodeS; rw [wOP_engWord _ _ _ _ (by simp)]
    simp -zeta only [BitVec.toNat_ofNat, Nat.reducePow, Nat.reduceMod]
    simp [decIf, wTK, engWord]
theorem stw (tk : Tk) (xs : XReg) (cn : CReg) (xo : XReg) (imm : BitVec 6) :
    Statement (.stw tk xs cn xo imm) := by
  intro h; refine .inl ⟨_, rfl, ?_, ?_, fun w2 => ?_⟩
  · rw [wLS_engWord _ _ _ _ (by simp)]; rfl
  · rw [wOP_engWord _ _ _ _ (by simp)]; rfl
  · show decodeS _ = _
    unfold decodeS; rw [wOP_engWord _ _ _ _ (by simp)]
    simp -zeta only [BitVec.toNat_ofNat, Nat.reducePow, Nat.reduceMod]
    simp [decIf, wTK, engWord]
theorem std (tk : Tk) (xs : XReg) (cn : CReg) (xo : XReg) (imm : BitVec 6) :
    Statement (.std tk xs cn xo imm) := by
  intro h; refine .inl ⟨_, rfl, ?_, ?_, fun w2 => ?_⟩
  · rw [wLS_engWord _ _ _ _ (by simp)]; rfl
  · rw [wOP_engWord _ _ _ _ (by simp)]; rfl
  · show decodeS _ = _
    unfold decodeS; rw [wOP_engWord _ _ _ _ (by simp)]
    simp -zeta only [BitVec.toNat_ofNat, Nat.reducePow, Nat.reduceMod]
    simp [decIf, wTK, engWord]
theorem spld (tk : Tk) (xd : XReg) (xa : XReg) (sz : BitVec 2) (sgn : Bool) (imm : BitVec 7) :
    Statement (.spld tk xd xa sz sgn imm) := by
  intro h; simp [Instr.wf, wfByp, wfScope] at h; refine .inl ⟨_, rfl, ?_, ?_, fun w2 => ?_⟩
  · rw [wLS_engWord _ _ _ _ (by simp)]; rfl
  · rw [wOP_engWord _ _ _ _ (by simp)]; rfl
  · show decodeS _ = _
    unfold decodeS; rw [wOP_engWord _ _ _ _ (by simp)]
    simp -zeta only [BitVec.toNat_ofNat, Nat.reducePow, Nat.reduceMod]
    simp [decIf, wTK, engWord] <;> (try simp_all) <;>
    (rintro rfl; simpa using h)
theorem spst (tk : Tk) (xs : XReg) (xa : XReg) (sz : BitVec 2) (imm : BitVec 7) :
    Statement (.spst tk xs xa sz imm) := by
  intro h; refine .inl ⟨_, rfl, ?_, ?_, fun w2 => ?_⟩
  · rw [wLS_engWord _ _ _ _ (by simp)]; rfl
  · rw [wOP_engWord _ _ _ _ (by simp)]; rfl
  · show decodeS _ = _
    unfold decodeS; rw [wOP_engWord _ _ _ _ (by simp)]
    simp -zeta only [BitVec.toNat_ofNat, Nat.reducePow, Nat.reduceMod]
    simp [decIf, wTK, engWord]
theorem rspld (tk : Tk) (xd : XReg) (xa : XReg) (sz : BitVec 2) (sgn : Bool) (imm : BitVec 7) :
    Statement (.rspld tk xd xa sz sgn imm) := by
  intro h; simp [Instr.wf, wfByp, wfScope] at h; refine .inl ⟨_, rfl, ?_, ?_, fun w2 => ?_⟩
  · rw [wLS_engWord _ _ _ _ (by simp)]; rfl
  · rw [wOP_engWord _ _ _ _ (by simp)]; rfl
  · show decodeS _ = _
    unfold decodeS; rw [wOP_engWord _ _ _ _ (by simp)]
    simp -zeta only [BitVec.toNat_ofNat, Nat.reducePow, Nat.reduceMod]
    simp [decIf, wTK, engWord] <;> (try simp_all) <;>
    (rintro rfl; simpa using h)
theorem rspst (tk : Tk) (xs : XReg) (xa : XReg) (sz : BitVec 2) (imm : BitVec 7) :
    Statement (.rspst tk xs xa sz imm) := by
  intro h; refine .inl ⟨_, rfl, ?_, ?_, fun w2 => ?_⟩
  · rw [wLS_engWord _ _ _ _ (by simp)]; rfl
  · rw [wOP_engWord _ _ _ _ (by simp)]; rfl
  · show decodeS _ = _
    unfold decodeS; rw [wOP_engWord _ _ _ _ (by simp)]
    simp -zeta only [BitVec.toNat_ofNat, Nat.reducePow, Nat.reduceMod]
    simp [decIf, wTK, engWord]
theorem amoadd (tk : Tk) (xd : XReg) (cn : CReg) (xa : XReg) (xb : XReg) (w : Bool) :
    Statement (.amoadd tk xd cn xa xb w) := by
  intro h; refine .inl ⟨_, rfl, ?_, ?_, fun w2 => ?_⟩
  · rw [wLS_engWord _ _ _ _ (by simp)]; rfl
  · rw [wOP_engWord _ _ _ _ (by simp)]; rfl
  · show decodeS _ = _
    unfold decodeS; rw [wOP_engWord _ _ _ _ (by simp)]
    simp -zeta only [BitVec.toNat_ofNat, Nat.reducePow, Nat.reduceMod]
    simp [decIf, wTK, engWord]
theorem amomin (tk : Tk) (xd : XReg) (cn : CReg) (xa : XReg) (xb : XReg) (w : Bool) :
    Statement (.amomin tk xd cn xa xb w) := by
  intro h; refine .inl ⟨_, rfl, ?_, ?_, fun w2 => ?_⟩
  · rw [wLS_engWord _ _ _ _ (by simp)]; rfl
  · rw [wOP_engWord _ _ _ _ (by simp)]; rfl
  · show decodeS _ = _
    unfold decodeS; rw [wOP_engWord _ _ _ _ (by simp)]
    simp -zeta only [BitVec.toNat_ofNat, Nat.reducePow, Nat.reduceMod]
    simp [decIf, wTK, engWord]
theorem amomax (tk : Tk) (xd : XReg) (cn : CReg) (xa : XReg) (xb : XReg) (w : Bool) :
    Statement (.amomax tk xd cn xa xb w) := by
  intro h; refine .inl ⟨_, rfl, ?_, ?_, fun w2 => ?_⟩
  · rw [wLS_engWord _ _ _ _ (by simp)]; rfl
  · rw [wOP_engWord _ _ _ _ (by simp)]; rfl
  · show decodeS _ = _
    unfold decodeS; rw [wOP_engWord _ _ _ _ (by simp)]
    simp -zeta only [BitVec.toNat_ofNat, Nat.reducePow, Nat.reduceMod]
    simp [decIf, wTK, engWord]
theorem amoand (tk : Tk) (xd : XReg) (cn : CReg) (xa : XReg) (xb : XReg) (w : Bool) :
    Statement (.amoand tk xd cn xa xb w) := by
  intro h; refine .inl ⟨_, rfl, ?_, ?_, fun w2 => ?_⟩
  · rw [wLS_engWord _ _ _ _ (by simp)]; rfl
  · rw [wOP_engWord _ _ _ _ (by simp)]; rfl
  · show decodeS _ = _
    unfold decodeS; rw [wOP_engWord _ _ _ _ (by simp)]
    simp -zeta only [BitVec.toNat_ofNat, Nat.reducePow, Nat.reduceMod]
    simp [decIf, wTK, engWord]
theorem amoor (tk : Tk) (xd : XReg) (cn : CReg) (xa : XReg) (xb : XReg) (w : Bool) :
    Statement (.amoor tk xd cn xa xb w) := by
  intro h; refine .inl ⟨_, rfl, ?_, ?_, fun w2 => ?_⟩
  · rw [wLS_engWord _ _ _ _ (by simp)]; rfl
  · rw [wOP_engWord _ _ _ _ (by simp)]; rfl
  · show decodeS _ = _
    unfold decodeS; rw [wOP_engWord _ _ _ _ (by simp)]
    simp -zeta only [BitVec.toNat_ofNat, Nat.reducePow, Nat.reduceMod]
    simp [decIf, wTK, engWord]
theorem amoxor (tk : Tk) (xd : XReg) (cn : CReg) (xa : XReg) (xb : XReg) (w : Bool) :
    Statement (.amoxor tk xd cn xa xb w) := by
  intro h; refine .inl ⟨_, rfl, ?_, ?_, fun w2 => ?_⟩
  · rw [wLS_engWord _ _ _ _ (by simp)]; rfl
  · rw [wOP_engWord _ _ _ _ (by simp)]; rfl
  · show decodeS _ = _
    unfold decodeS; rw [wOP_engWord _ _ _ _ (by simp)]
    simp -zeta only [BitVec.toNat_ofNat, Nat.reducePow, Nat.reduceMod]
    simp [decIf, wTK, engWord]
theorem amoswap (tk : Tk) (xd : XReg) (cn : CReg) (xa : XReg) (xb : XReg) (w : Bool) :
    Statement (.amoswap tk xd cn xa xb w) := by
  intro h; refine .inl ⟨_, rfl, ?_, ?_, fun w2 => ?_⟩
  · rw [wLS_engWord _ _ _ _ (by simp)]; rfl
  · rw [wOP_engWord _ _ _ _ (by simp)]; rfl
  · show decodeS _ = _
    unfold decodeS; rw [wOP_engWord _ _ _ _ (by simp)]
    simp -zeta only [BitVec.toNat_ofNat, Nat.reducePow, Nat.reduceMod]
    simp [decIf, wTK, engWord]
theorem amocas (tk : Tk) (xd : XReg) (cn : CReg) (xa : XReg) (xb : XReg) (w : Bool) :
    Statement (.amocas tk xd cn xa xb w) := by
  intro h; refine .inl ⟨_, rfl, ?_, ?_, fun w2 => ?_⟩
  · rw [wLS_engWord _ _ _ _ (by simp)]; rfl
  · rw [wOP_engWord _ _ _ _ (by simp)]; rfl
  · show decodeS _ = _
    unfold decodeS; rw [wOP_engWord _ _ _ _ (by simp)]
    simp -zeta only [BitVec.toNat_ofNat, Nat.reducePow, Nat.reduceMod]
    simp [decIf, wTK, engWord]
theorem spamoAdd (tk : Tk) (xd : XReg) (xa : XReg) (xb : XReg) (w : Bool) (cw : Bool) :
    Statement (.spamoAdd tk xd xa xb w cw) := by
  intro h; refine .inl ⟨_, rfl, ?_, ?_, fun w2 => ?_⟩
  · rw [wLS_engWord _ _ _ _ (by simp)]; rfl
  · rw [wOP_engWord _ _ _ _ (by simp)]; rfl
  · show decodeS _ = _
    unfold decodeS; rw [wOP_engWord _ _ _ _ (by simp)]
    simp -zeta only [BitVec.toNat_ofNat, Nat.reducePow, Nat.reduceMod]
    simp [decIf, wTK, engWord]
theorem spamoMin (tk : Tk) (xd : XReg) (xa : XReg) (xb : XReg) (w : Bool) (cw : Bool) :
    Statement (.spamoMin tk xd xa xb w cw) := by
  intro h; refine .inl ⟨_, rfl, ?_, ?_, fun w2 => ?_⟩
  · rw [wLS_engWord _ _ _ _ (by simp)]; rfl
  · rw [wOP_engWord _ _ _ _ (by simp)]; rfl
  · show decodeS _ = _
    unfold decodeS; rw [wOP_engWord _ _ _ _ (by simp)]
    simp -zeta only [BitVec.toNat_ofNat, Nat.reducePow, Nat.reduceMod]
    simp [decIf, wTK, engWord]
theorem spamoMax (tk : Tk) (xd : XReg) (xa : XReg) (xb : XReg) (w : Bool) (cw : Bool) :
    Statement (.spamoMax tk xd xa xb w cw) := by
  intro h; refine .inl ⟨_, rfl, ?_, ?_, fun w2 => ?_⟩
  · rw [wLS_engWord _ _ _ _ (by simp)]; rfl
  · rw [wOP_engWord _ _ _ _ (by simp)]; rfl
  · show decodeS _ = _
    unfold decodeS; rw [wOP_engWord _ _ _ _ (by simp)]
    simp -zeta only [BitVec.toNat_ofNat, Nat.reducePow, Nat.reduceMod]
    simp [decIf, wTK, engWord]
theorem spamoAnd (tk : Tk) (xd : XReg) (xa : XReg) (xb : XReg) (w : Bool) (cw : Bool) :
    Statement (.spamoAnd tk xd xa xb w cw) := by
  intro h; refine .inl ⟨_, rfl, ?_, ?_, fun w2 => ?_⟩
  · rw [wLS_engWord _ _ _ _ (by simp)]; rfl
  · rw [wOP_engWord _ _ _ _ (by simp)]; rfl
  · show decodeS _ = _
    unfold decodeS; rw [wOP_engWord _ _ _ _ (by simp)]
    simp -zeta only [BitVec.toNat_ofNat, Nat.reducePow, Nat.reduceMod]
    simp [decIf, wTK, engWord]
theorem spamoOr (tk : Tk) (xd : XReg) (xa : XReg) (xb : XReg) (w : Bool) (cw : Bool) :
    Statement (.spamoOr tk xd xa xb w cw) := by
  intro h; refine .inl ⟨_, rfl, ?_, ?_, fun w2 => ?_⟩
  · rw [wLS_engWord _ _ _ _ (by simp)]; rfl
  · rw [wOP_engWord _ _ _ _ (by simp)]; rfl
  · show decodeS _ = _
    unfold decodeS; rw [wOP_engWord _ _ _ _ (by simp)]
    simp -zeta only [BitVec.toNat_ofNat, Nat.reducePow, Nat.reduceMod]
    simp [decIf, wTK, engWord]
theorem spamoXor (tk : Tk) (xd : XReg) (xa : XReg) (xb : XReg) (w : Bool) (cw : Bool) :
    Statement (.spamoXor tk xd xa xb w cw) := by
  intro h; refine .inl ⟨_, rfl, ?_, ?_, fun w2 => ?_⟩
  · rw [wLS_engWord _ _ _ _ (by simp)]; rfl
  · rw [wOP_engWord _ _ _ _ (by simp)]; rfl
  · show decodeS _ = _
    unfold decodeS; rw [wOP_engWord _ _ _ _ (by simp)]
    simp -zeta only [BitVec.toNat_ofNat, Nat.reducePow, Nat.reduceMod]
    simp [decIf, wTK, engWord]
theorem spamoSwap (tk : Tk) (xd : XReg) (xa : XReg) (xb : XReg) (w : Bool) (cw : Bool) :
    Statement (.spamoSwap tk xd xa xb w cw) := by
  intro h; refine .inl ⟨_, rfl, ?_, ?_, fun w2 => ?_⟩
  · rw [wLS_engWord _ _ _ _ (by simp)]; rfl
  · rw [wOP_engWord _ _ _ _ (by simp)]; rfl
  · show decodeS _ = _
    unfold decodeS; rw [wOP_engWord _ _ _ _ (by simp)]
    simp -zeta only [BitVec.toNat_ofNat, Nat.reducePow, Nat.reduceMod]
    simp [decIf, wTK, engWord]
theorem spamoCas (tk : Tk) (xd : XReg) (xa : XReg) (xb : XReg) (w : Bool) (cw : Bool) :
    Statement (.spamoCas tk xd xa xb w cw) := by
  intro h; refine .inl ⟨_, rfl, ?_, ?_, fun w2 => ?_⟩
  · rw [wLS_engWord _ _ _ _ (by simp)]; rfl
  · rw [wOP_engWord _ _ _ _ (by simp)]; rfl
  · show decodeS _ = _
    unfold decodeS; rw [wOP_engWord _ _ _ _ (by simp)]
    simp -zeta only [BitVec.toNat_ofNat, Nat.reducePow, Nat.reduceMod]
    simp [decIf, wTK, engWord]
theorem beq (tk : Tk) (xa : XReg) (xb : XReg) (off : BitVec 10) :
    Statement (.beq tk xa xb off) := by
  intro h; refine .inl ⟨_, rfl, ?_, ?_, fun w2 => ?_⟩
  · rw [wLS_engWord _ _ _ _ (by simp)]; rfl
  · rw [wOP_engWord _ _ _ _ (by simp)]; rfl
  · show decodeS _ = _
    unfold decodeS; rw [wOP_engWord _ _ _ _ (by simp)]
    simp -zeta only [BitVec.toNat_ofNat, Nat.reducePow, Nat.reduceMod]
    simp [decIf, wTK, engWord]
theorem bne (tk : Tk) (xa : XReg) (xb : XReg) (off : BitVec 10) :
    Statement (.bne tk xa xb off) := by
  intro h; refine .inl ⟨_, rfl, ?_, ?_, fun w2 => ?_⟩
  · rw [wLS_engWord _ _ _ _ (by simp)]; rfl
  · rw [wOP_engWord _ _ _ _ (by simp)]; rfl
  · show decodeS _ = _
    unfold decodeS; rw [wOP_engWord _ _ _ _ (by simp)]
    simp -zeta only [BitVec.toNat_ofNat, Nat.reducePow, Nat.reduceMod]
    simp [decIf, wTK, engWord]
theorem blt (tk : Tk) (xa : XReg) (xb : XReg) (off : BitVec 10) :
    Statement (.blt tk xa xb off) := by
  intro h; refine .inl ⟨_, rfl, ?_, ?_, fun w2 => ?_⟩
  · rw [wLS_engWord _ _ _ _ (by simp)]; rfl
  · rw [wOP_engWord _ _ _ _ (by simp)]; rfl
  · show decodeS _ = _
    unfold decodeS; rw [wOP_engWord _ _ _ _ (by simp)]
    simp -zeta only [BitVec.toNat_ofNat, Nat.reducePow, Nat.reduceMod]
    simp [decIf, wTK, engWord]
theorem bge (tk : Tk) (xa : XReg) (xb : XReg) (off : BitVec 10) :
    Statement (.bge tk xa xb off) := by
  intro h; refine .inl ⟨_, rfl, ?_, ?_, fun w2 => ?_⟩
  · rw [wLS_engWord _ _ _ _ (by simp)]; rfl
  · rw [wOP_engWord _ _ _ _ (by simp)]; rfl
  · show decodeS _ = _
    unfold decodeS; rw [wOP_engWord _ _ _ _ (by simp)]
    simp -zeta only [BitVec.toNat_ofNat, Nat.reducePow, Nat.reduceMod]
    simp [decIf, wTK, engWord]
theorem bltu (tk : Tk) (xa : XReg) (xb : XReg) (off : BitVec 10) :
    Statement (.bltu tk xa xb off) := by
  intro h; refine .inl ⟨_, rfl, ?_, ?_, fun w2 => ?_⟩
  · rw [wLS_engWord _ _ _ _ (by simp)]; rfl
  · rw [wOP_engWord _ _ _ _ (by simp)]; rfl
  · show decodeS _ = _
    unfold decodeS; rw [wOP_engWord _ _ _ _ (by simp)]
    simp -zeta only [BitVec.toNat_ofNat, Nat.reducePow, Nat.reduceMod]
    simp [decIf, wTK, engWord]
theorem bgeu (tk : Tk) (xa : XReg) (xb : XReg) (off : BitVec 10) :
    Statement (.bgeu tk xa xb off) := by
  intro h; refine .inl ⟨_, rfl, ?_, ?_, fun w2 => ?_⟩
  · rw [wLS_engWord _ _ _ _ (by simp)]; rfl
  · rw [wOP_engWord _ _ _ _ (by simp)]; rfl
  · show decodeS _ = _
    unfold decodeS; rw [wOP_engWord _ _ _ _ (by simp)]
    simp -zeta only [BitVec.toNat_ofNat, Nat.reducePow, Nat.reduceMod]
    simp [decIf, wTK, engWord]
theorem jmp (tk : Tk) (off : BitVec 20) :
    Statement (.jmp tk off) := by
  intro h; refine .inl ⟨_, rfl, ?_, ?_, fun w2 => ?_⟩
  · rw [wLS_engWord _ _ _ _ (by simp)]; rfl
  · rw [wOP_engWord _ _ _ _ (by simp)]; rfl
  · show decodeS _ = _
    unfold decodeS; rw [wOP_engWord _ _ _ _ (by simp)]
    simp -zeta only [BitVec.toNat_ofNat, Nat.reducePow, Nat.reduceMod]
    simp [decIf, wTK, engWord]
theorem call (tk : Tk) (off : BitVec 20) :
    Statement (.call tk off) := by
  intro h; refine .inl ⟨_, rfl, ?_, ?_, fun w2 => ?_⟩
  · rw [wLS_engWord _ _ _ _ (by simp)]; rfl
  · rw [wOP_engWord _ _ _ _ (by simp)]; rfl
  · show decodeS _ = _
    unfold decodeS; rw [wOP_engWord _ _ _ _ (by simp)]
    simp -zeta only [BitVec.toNat_ofNat, Nat.reducePow, Nat.reduceMod]
    simp [decIf, wTK, engWord]
theorem jr (tk : Tk) (xa : XReg) :
    Statement (.jr tk xa) := by
  intro h; refine .inl ⟨_, rfl, ?_, ?_, fun w2 => ?_⟩
  · rw [wLS_engWord _ _ _ _ (by simp)]; rfl
  · rw [wOP_engWord _ _ _ _ (by simp)]; rfl
  · show decodeS _ = _
    unfold decodeS; rw [wOP_engWord _ _ _ _ (by simp)]
    simp -zeta only [BitVec.toNat_ofNat, Nat.reducePow, Nat.reduceMod]
    simp [decIf, wTK, engWord]
theorem callr (tk : Tk) (xa : XReg) :
    Statement (.callr tk xa) := by
  intro h; refine .inl ⟨_, rfl, ?_, ?_, fun w2 => ?_⟩
  · rw [wLS_engWord _ _ _ _ (by simp)]; rfl
  · rw [wOP_engWord _ _ _ _ (by simp)]; rfl
  · show decodeS _ = _
    unfold decodeS; rw [wOP_engWord _ _ _ _ (by simp)]
    simp -zeta only [BitVec.toNat_ofNat, Nat.reducePow, Nat.reduceMod]
    simp [decIf, wTK, engWord]
theorem tkpop (qmask : BitVec 16) :
    Statement (.tkpop qmask) := by
  intro h; simp [Instr.wf, wfByp, wfScope] at h; refine .inl ⟨_, rfl, ?_, ?_, fun w2 => ?_⟩
  · rw [wLS_engWord _ _ _ _ (by simp)]; rfl
  · rw [wOP_engWord _ _ _ _ (by simp)]; rfl
  · show decodeS _ = _
    unfold decodeS; rw [wOP_engWord _ _ _ _ (by simp)]
    simp -zeta only [BitVec.toNat_ofNat, Nat.reducePow, Nat.reduceMod]
    simp [decIf, wTK, engWord] <;> simp_all
theorem tkpush (qmask : BitVec 16) :
    Statement (.tkpush qmask) := by
  intro h; simp [Instr.wf, wfByp, wfScope] at h; refine .inl ⟨_, rfl, ?_, ?_, fun w2 => ?_⟩
  · rw [wLS_engWord _ _ _ _ (by simp)]; rfl
  · rw [wOP_engWord _ _ _ _ (by simp)]; rfl
  · show decodeS _ = _
    unfold decodeS; rw [wOP_engWord _ _ _ _ (by simp)]
    simp -zeta only [BitVec.toNat_ofNat, Nat.reducePow, Nat.reduceMod]
    simp [decIf, wTK, engWord] <;> simp_all
theorem tkwait (q : BitVec 4) (n : BitVec 4) :
    Statement (.tkwait q n) := by
  intro h; simp [Instr.wf, wfByp, wfScope] at h; refine .inl ⟨_, rfl, ?_, ?_, fun w2 => ?_⟩
  · rw [wLS_engWord _ _ _ _ (by simp)]; rfl
  · rw [wOP_engWord _ _ _ _ (by simp)]; rfl
  · show decodeS _ = _
    unfold decodeS; rw [wOP_engWord _ _ _ _ (by simp)]
    simp -zeta only [BitVec.toNat_ofNat, Nat.reducePow, Nat.reduceMod]
    simp [decIf, wTK, engWord] <;> (try simp_all) <;>
    (simpa [zeroBits_eq] using h)
theorem semsig (tk : Tk) (xd : XReg) (xa : XReg) (xb : XReg) :
    Statement (.semsig tk xd xa xb) := by
  intro h; refine .inl ⟨_, rfl, ?_, ?_, fun w2 => ?_⟩
  · rw [wLS_engWord _ _ _ _ (by simp)]; rfl
  · rw [wOP_engWord _ _ _ _ (by simp)]; rfl
  · show decodeS _ = _
    unfold decodeS; rw [wOP_engWord _ _ _ _ (by simp)]
    simp -zeta only [BitVec.toNat_ofNat, Nat.reducePow, Nat.reduceMod]
    simp [decIf, wTK, engWord]
theorem semwaitGe (tk : Tk) (xd : XReg) (xa : XReg) (xb : XReg) :
    Statement (.semwaitGe tk xd xa xb) := by
  intro h; refine .inl ⟨_, rfl, ?_, ?_, fun w2 => ?_⟩
  · rw [wLS_engWord _ _ _ _ (by simp)]; rfl
  · rw [wOP_engWord _ _ _ _ (by simp)]; rfl
  · show decodeS _ = _
    unfold decodeS; rw [wOP_engWord _ _ _ _ (by simp)]
    simp -zeta only [BitVec.toNat_ofNat, Nat.reducePow, Nat.reduceMod]
    simp [decIf, wTK, engWord]
theorem semwaitEq (tk : Tk) (xd : XReg) (xa : XReg) (xb : XReg) :
    Statement (.semwaitEq tk xd xa xb) := by
  intro h; refine .inl ⟨_, rfl, ?_, ?_, fun w2 => ?_⟩
  · rw [wLS_engWord _ _ _ _ (by simp)]; rfl
  · rw [wOP_engWord _ _ _ _ (by simp)]; rfl
  · show decodeS _ = _
    unfold decodeS; rw [wOP_engWord _ _ _ _ (by simp)]
    simp -zeta only [BitVec.toNat_ofNat, Nat.reducePow, Nat.reduceMod]
    simp [decIf, wTK, engWord]
theorem semwaitNe (tk : Tk) (xd : XReg) (xa : XReg) (xb : XReg) :
    Statement (.semwaitNe tk xd xa xb) := by
  intro h; refine .inl ⟨_, rfl, ?_, ?_, fun w2 => ?_⟩
  · rw [wLS_engWord _ _ _ _ (by simp)]; rfl
  · rw [wOP_engWord _ _ _ _ (by simp)]; rfl
  · show decodeS _ = _
    unfold decodeS; rw [wOP_engWord _ _ _ _ (by simp)]
    simp -zeta only [BitVec.toNat_ofNat, Nat.reducePow, Nat.reduceMod]
    simp [decIf, wTK, engWord]
theorem semrd (tk : Tk) (xd : XReg) (xa : XReg) :
    Statement (.semrd tk xd xa) := by
  intro h; refine .inl ⟨_, rfl, ?_, ?_, fun w2 => ?_⟩
  · rw [wLS_engWord _ _ _ _ (by simp)]; rfl
  · rw [wOP_engWord _ _ _ _ (by simp)]; rfl
  · show decodeS _ = _
    unfold decodeS; rw [wOP_engWord _ _ _ _ (by simp)]
    simp -zeta only [BitVec.toNat_ofNat, Nat.reducePow, Nat.reduceMod]
    simp [decIf, wTK, engWord]
theorem rbind (tk : Tk) (cn : CReg) (xa : XReg) (xb : XReg) (xs : XReg) :
    Statement (.rbind tk cn xa xb xs) := by
  intro h; refine .inl ⟨_, rfl, ?_, ?_, fun w2 => ?_⟩
  · rw [wLS_engWord _ _ _ _ (by simp)]; rfl
  · rw [wOP_engWord _ _ _ _ (by simp)]; rfl
  · show decodeS _ = _
    unfold decodeS; rw [wOP_engWord _ _ _ _ (by simp)]
    simp -zeta only [BitVec.toNat_ofNat, Nat.reducePow, Nat.reduceMod]
    simp [decIf, wTK, engWord]
theorem runbind (tk : Tk) (cn : CReg) (xa : XReg) (xb : XReg) (xs : XReg) :
    Statement (.runbind tk cn xa xb xs) := by
  intro h; refine .inl ⟨_, rfl, ?_, ?_, fun w2 => ?_⟩
  · rw [wLS_engWord _ _ _ _ (by simp)]; rfl
  · rw [wOP_engWord _ _ _ _ (by simp)]; rfl
  · show decodeS _ = _
    unfold decodeS; rw [wOP_engWord _ _ _ _ (by simp)]
    simp -zeta only [BitVec.toNat_ofNat, Nat.reducePow, Nat.reduceMod]
    simp [decIf, wTK, engWord]
theorem acq (tk : Tk) (xa : XReg) (scope : BitVec 3) :
    Statement (.acq tk xa scope) := by
  intro h; simp [Instr.wf, wfByp, wfScope] at h; refine .inl ⟨_, rfl, ?_, ?_, fun w2 => ?_⟩
  · rw [wLS_engWord _ _ _ _ (by simp)]; rfl
  · rw [wOP_engWord _ _ _ _ (by simp)]; rfl
  · show decodeS _ = _
    unfold decodeS; rw [wOP_engWord _ _ _ _ (by simp)]
    simp -zeta only [BitVec.toNat_ofNat, Nat.reducePow, Nat.reduceMod]
    simp [decIf, wTK, engWord] <;> simp_all
theorem rel (tk : Tk) (xd : XReg) (xa : XReg) (scope : BitVec 3) :
    Statement (.rel tk xd xa scope) := by
  intro h; simp [Instr.wf, wfByp, wfScope] at h; refine .inl ⟨_, rfl, ?_, ?_, fun w2 => ?_⟩
  · rw [wLS_engWord _ _ _ _ (by simp)]; rfl
  · rw [wOP_engWord _ _ _ _ (by simp)]; rfl
  · show decodeS _ = _
    unfold decodeS; rw [wOP_engWord _ _ _ _ (by simp)]
    simp -zeta only [BitVec.toNat_ofNat, Nat.reducePow, Nat.reduceMod]
    simp [decIf, wTK, engWord] <;> simp_all
theorem fence (tk : Tk) (xd : XReg) (scope : BitVec 3) :
    Statement (.fence tk xd scope) := by
  intro h; simp [Instr.wf, wfByp, wfScope] at h; refine .inl ⟨_, rfl, ?_, ?_, fun w2 => ?_⟩
  · rw [wLS_engWord _ _ _ _ (by simp)]; rfl
  · rw [wOP_engWord _ _ _ _ (by simp)]; rfl
  · show decodeS _ = _
    unfold decodeS; rw [wOP_engWord _ _ _ _ (by simp)]
    simp -zeta only [BitVec.toNat_ofNat, Nat.reducePow, Nat.reduceMod]
    simp [decIf, wTK, engWord] <;> simp_all
theorem barrive (tk : Tk) (group : BitVec 8) :
    Statement (.barrive tk group) := by
  intro h; refine .inl ⟨_, rfl, ?_, ?_, fun w2 => ?_⟩
  · rw [wLS_engWord _ _ _ _ (by simp)]; rfl
  · rw [wOP_engWord _ _ _ _ (by simp)]; rfl
  · show decodeS _ = _
    unfold decodeS; rw [wOP_engWord _ _ _ _ (by simp)]
    simp -zeta only [BitVec.toNat_ofNat, Nat.reducePow, Nat.reduceMod]
    simp [decIf, wTK, engWord]
theorem bwait (tk : Tk) (group : BitVec 8) :
    Statement (.bwait tk group) := by
  intro h; refine .inl ⟨_, rfl, ?_, ?_, fun w2 => ?_⟩
  · rw [wLS_engWord _ _ _ _ (by simp)]; rfl
  · rw [wOP_engWord _ _ _ _ (by simp)]; rfl
  · show decodeS _ = _
    unfold decodeS; rw [wOP_engWord _ _ _ _ (by simp)]
    simp -zeta only [BitVec.toNat_ofNat, Nat.reducePow, Nat.reduceMod]
    simp [decIf, wTK, engWord]
theorem cbar (tk : Tk) :
    Statement (.cbar tk) := by
  intro h; refine .inl ⟨_, rfl, ?_, ?_, fun w2 => ?_⟩
  · rw [wLS_engWord _ _ _ _ (by simp)]; rfl
  · rw [wOP_engWord _ _ _ _ (by simp)]; rfl
  · show decodeS _ = _
    unfold decodeS; rw [wOP_engWord _ _ _ _ (by simp)]
    simp -zeta only [BitVec.toNat_ofNat, Nat.reducePow, Nat.reduceMod]
    simp [decIf, wTK, engWord]
theorem srr (tk : Tk) (xd : XReg) (srn : BitVec 12) :
    Statement (.srr tk xd srn) := by
  intro h; simp [Instr.wf, wfByp, wfScope] at h; refine .inl ⟨_, rfl, ?_, ?_, fun w2 => ?_⟩
  · rw [wLS_engWord _ _ _ _ (by simp)]; rfl
  · rw [wOP_engWord _ _ _ _ (by simp)]; rfl
  · show decodeS _ = _
    unfold decodeS; rw [wOP_engWord _ _ _ _ (by simp)]
    simp -zeta only [BitVec.toNat_ofNat, Nat.reducePow, Nat.reduceMod]
    simp [decIf, wTK, engWord] <;> simp_all
theorem srw (tk : Tk) (xs : XReg) (srn : BitVec 12) :
    Statement (.srw tk xs srn) := by
  intro h; simp [Instr.wf, wfByp, wfScope] at h; refine .inl ⟨_, rfl, ?_, ?_, fun w2 => ?_⟩
  · rw [wLS_engWord _ _ _ _ (by simp)]; rfl
  · rw [wOP_engWord _ _ _ _ (by simp)]; rfl
  · show decodeS _ = _
    unfold decodeS; rw [wOP_engWord _ _ _ _ (by simp)]
    simp -zeta only [BitVec.toNat_ofNat, Nat.reducePow, Nat.reduceMod]
    simp [decIf, wTK, engWord] <;> simp_all
theorem safept (tk : Tk) (lm : BitVec 12) :
    Statement (.safept tk lm) := by
  intro h; refine .inl ⟨_, rfl, ?_, ?_, fun w2 => ?_⟩
  · rw [wLS_engWord _ _ _ _ (by simp)]; rfl
  · rw [wOP_engWord _ _ _ _ (by simp)]; rfl
  · show decodeS _ = _
    unfold decodeS; rw [wOP_engWord _ _ _ _ (by simp)]
    simp -zeta only [BitVec.toNat_ofNat, Nat.reducePow, Nat.reduceMod]
    simp [decIf, wTK, engWord]
theorem sEnd (tk : Tk) :
    Statement (.sEnd tk) := by
  intro h; refine .inl ⟨_, rfl, ?_, ?_, fun w2 => ?_⟩
  · rw [wLS_engWord _ _ _ _ (by simp)]; rfl
  · rw [wOP_engWord _ _ _ _ (by simp)]; rfl
  · show decodeS _ = _
    unfold decodeS; rw [wOP_engWord _ _ _ _ (by simp)]
    simp -zeta only [BitVec.toNat_ofNat, Nat.reducePow, Nat.reduceMod]
    simp [decIf, wTK, engWord]
theorem brk (tk : Tk) (code : BitVec 16) :
    Statement (.brk tk code) := by
  intro h; refine .inl ⟨_, rfl, ?_, ?_, fun w2 => ?_⟩
  · rw [wLS_engWord _ _ _ _ (by simp)]; rfl
  · rw [wOP_engWord _ _ _ _ (by simp)]; rfl
  · show decodeS _ = _
    unfold decodeS; rw [wOP_engWord _ _ _ _ (by simp)]
    simp -zeta only [BitVec.toNat_ofNat, Nat.reducePow, Nat.reduceMod]
    simp [decIf, wTK, engWord]
theorem trapu (tk : Tk) (code : BitVec 16) :
    Statement (.trapu tk code) := by
  intro h; refine .inl ⟨_, rfl, ?_, ?_, fun w2 => ?_⟩
  · rw [wLS_engWord _ _ _ _ (by simp)]; rfl
  · rw [wOP_engWord _ _ _ _ (by simp)]; rfl
  · show decodeS _ = _
    unfold decodeS; rw [wOP_engWord _ _ _ _ (by simp)]
    simp -zeta only [BitVec.toNat_ofNat, Nat.reducePow, Nat.reduceMod]
    simp [decIf, wTK, engWord]
theorem uiret (tk : Tk) :
    Statement (.uiret tk) := by
  intro h; refine .inl ⟨_, rfl, ?_, ?_, fun w2 => ?_⟩
  · rw [wLS_engWord _ _ _ _ (by simp)]; rfl
  · rw [wOP_engWord _ _ _ _ (by simp)]; rfl
  · show decodeS _ = _
    unfold decodeS; rw [wOP_engWord _ _ _ _ (by simp)]
    simp -zeta only [BitVec.toNat_ofNat, Nat.reducePow, Nat.reduceMod]
    simp [decIf, wTK, engWord]
theorem vnop (tk : Tk) :
    Statement (.vnop tk) := by
  intro h; refine .inl ⟨_, rfl, ?_, ?_, fun w2 => ?_⟩
  · rw [wLS_engWord _ _ _ _ (by simp)]; rfl
  · rw [wOP_engWord _ _ _ _ (by simp)]; rfl
  · show decodeV _ _ = _
    unfold decodeV; rw [wOP_engWord _ _ _ _ (by simp)]
    simp -zeta only [BitVec.toNat_ofNat, Nat.reducePow, Nat.reduceMod]
    simp [decIf, wTK, engWord]
theorem vadd (tk : Tk) (vd : VReg) (va : VReg) (vb : VReg) (bsel : BitVec 2) :
    Statement (.vadd tk vd va vb bsel) := by
  intro h; simp [Instr.wf, wfByp, wfScope] at h; refine .inl ⟨_, rfl, ?_, ?_, fun w2 => ?_⟩
  · rw [wLS_engWord _ _ _ _ (by simp)]; rfl
  · rw [wOP_engWord _ _ _ _ (by simp)]; rfl
  · show decodeV _ _ = _
    unfold decodeV; rw [wOP_engWord _ _ _ _ (by simp)]
    simp -zeta only [BitVec.toNat_ofNat, Nat.reducePow, Nat.reduceMod]
    simp [decIf, wTK, engWord] <;> simp_all
theorem vsub (tk : Tk) (vd : VReg) (va : VReg) (vb : VReg) (bsel : BitVec 2) :
    Statement (.vsub tk vd va vb bsel) := by
  intro h; simp [Instr.wf, wfByp, wfScope] at h; refine .inl ⟨_, rfl, ?_, ?_, fun w2 => ?_⟩
  · rw [wLS_engWord _ _ _ _ (by simp)]; rfl
  · rw [wOP_engWord _ _ _ _ (by simp)]; rfl
  · show decodeV _ _ = _
    unfold decodeV; rw [wOP_engWord _ _ _ _ (by simp)]
    simp -zeta only [BitVec.toNat_ofNat, Nat.reducePow, Nat.reduceMod]
    simp [decIf, wTK, engWord] <;> simp_all
theorem vmul (tk : Tk) (vd : VReg) (va : VReg) (vb : VReg) (bsel : BitVec 2) :
    Statement (.vmul tk vd va vb bsel) := by
  intro h; simp [Instr.wf, wfByp, wfScope] at h; refine .inl ⟨_, rfl, ?_, ?_, fun w2 => ?_⟩
  · rw [wLS_engWord _ _ _ _ (by simp)]; rfl
  · rw [wOP_engWord _ _ _ _ (by simp)]; rfl
  · show decodeV _ _ = _
    unfold decodeV; rw [wOP_engWord _ _ _ _ (by simp)]
    simp -zeta only [BitVec.toNat_ofNat, Nat.reducePow, Nat.reduceMod]
    simp [decIf, wTK, engWord] <;> simp_all
theorem vfma (tk : Tk) (vd : VReg) (va : VReg) (vb : VReg) (bsel : BitVec 2) (vc : VReg) :
    Statement (.vfma tk vd va vb bsel vc) := by
  intro h; simp [Instr.wf, wfByp, wfScope] at h; refine .inr ⟨_, _, rfl, ?_, ?_, ?_⟩
  · rw [wLS_engWord _ _ _ _ (by simp)]; rfl
  · rw [wOP_engWord _ _ _ _ (by simp)]; rfl
  · show decodeV _ _ = _
    unfold decodeV; rw [wOP_engWord _ _ _ _ (by simp)]
    simp -zeta only [BitVec.toNat_ofNat, Nat.reducePow, Nat.reduceMod]
    simp [decIf, wTK, engWord] <;> simp_all
theorem vmin (tk : Tk) (vd : VReg) (va : VReg) (vb : VReg) (bsel : BitVec 2) :
    Statement (.vmin tk vd va vb bsel) := by
  intro h; simp [Instr.wf, wfByp, wfScope] at h; refine .inl ⟨_, rfl, ?_, ?_, fun w2 => ?_⟩
  · rw [wLS_engWord _ _ _ _ (by simp)]; rfl
  · rw [wOP_engWord _ _ _ _ (by simp)]; rfl
  · show decodeV _ _ = _
    unfold decodeV; rw [wOP_engWord _ _ _ _ (by simp)]
    simp -zeta only [BitVec.toNat_ofNat, Nat.reducePow, Nat.reduceMod]
    simp [decIf, wTK, engWord] <;> simp_all
theorem vmax (tk : Tk) (vd : VReg) (va : VReg) (vb : VReg) (bsel : BitVec 2) :
    Statement (.vmax tk vd va vb bsel) := by
  intro h; simp [Instr.wf, wfByp, wfScope] at h; refine .inl ⟨_, rfl, ?_, ?_, fun w2 => ?_⟩
  · rw [wLS_engWord _ _ _ _ (by simp)]; rfl
  · rw [wOP_engWord _ _ _ _ (by simp)]; rfl
  · show decodeV _ _ = _
    unfold decodeV; rw [wOP_engWord _ _ _ _ (by simp)]
    simp -zeta only [BitVec.toNat_ofNat, Nat.reducePow, Nat.reduceMod]
    simp [decIf, wTK, engWord] <;> simp_all
theorem vabs (tk : Tk) (vd : VReg) (va : VReg) (byp : Bool) :
    Statement (.vabs tk vd va byp) := by
  intro h; simp [Instr.wf, wfByp, wfScope] at h; refine .inl ⟨_, rfl, ?_, ?_, fun w2 => ?_⟩
  · rw [wLS_engWord _ _ _ _ (by simp)]; rfl
  · rw [wOP_engWord _ _ _ _ (by simp)]; rfl
  · show decodeV _ _ = _
    unfold decodeV; rw [wOP_engWord _ _ _ _ (by simp)]
    simp -zeta only [BitVec.toNat_ofNat, Nat.reducePow, Nat.reduceMod]
    simp [decIf, wTK, engWord] <;> simp_all
theorem vneg (tk : Tk) (vd : VReg) (va : VReg) (byp : Bool) :
    Statement (.vneg tk vd va byp) := by
  intro h; simp [Instr.wf, wfByp, wfScope] at h; refine .inl ⟨_, rfl, ?_, ?_, fun w2 => ?_⟩
  · rw [wLS_engWord _ _ _ _ (by simp)]; rfl
  · rw [wOP_engWord _ _ _ _ (by simp)]; rfl
  · show decodeV _ _ = _
    unfold decodeV; rw [wOP_engWord _ _ _ _ (by simp)]
    simp -zeta only [BitVec.toNat_ofNat, Nat.reducePow, Nat.reduceMod]
    simp [decIf, wTK, engWord] <;> simp_all
theorem vand (tk : Tk) (vd : VReg) (va : VReg) (vb : VReg) (bsel : BitVec 2) :
    Statement (.vand tk vd va vb bsel) := by
  intro h; simp [Instr.wf, wfByp, wfScope] at h; refine .inl ⟨_, rfl, ?_, ?_, fun w2 => ?_⟩
  · rw [wLS_engWord _ _ _ _ (by simp)]; rfl
  · rw [wOP_engWord _ _ _ _ (by simp)]; rfl
  · show decodeV _ _ = _
    unfold decodeV; rw [wOP_engWord _ _ _ _ (by simp)]
    simp -zeta only [BitVec.toNat_ofNat, Nat.reducePow, Nat.reduceMod]
    simp [decIf, wTK, engWord] <;> simp_all
theorem vor (tk : Tk) (vd : VReg) (va : VReg) (vb : VReg) (bsel : BitVec 2) :
    Statement (.vor tk vd va vb bsel) := by
  intro h; simp [Instr.wf, wfByp, wfScope] at h; refine .inl ⟨_, rfl, ?_, ?_, fun w2 => ?_⟩
  · rw [wLS_engWord _ _ _ _ (by simp)]; rfl
  · rw [wOP_engWord _ _ _ _ (by simp)]; rfl
  · show decodeV _ _ = _
    unfold decodeV; rw [wOP_engWord _ _ _ _ (by simp)]
    simp -zeta only [BitVec.toNat_ofNat, Nat.reducePow, Nat.reduceMod]
    simp [decIf, wTK, engWord] <;> simp_all
theorem vxor (tk : Tk) (vd : VReg) (va : VReg) (vb : VReg) (bsel : BitVec 2) :
    Statement (.vxor tk vd va vb bsel) := by
  intro h; simp [Instr.wf, wfByp, wfScope] at h; refine .inl ⟨_, rfl, ?_, ?_, fun w2 => ?_⟩
  · rw [wLS_engWord _ _ _ _ (by simp)]; rfl
  · rw [wOP_engWord _ _ _ _ (by simp)]; rfl
  · show decodeV _ _ = _
    unfold decodeV; rw [wOP_engWord _ _ _ _ (by simp)]
    simp -zeta only [BitVec.toNat_ofNat, Nat.reducePow, Nat.reduceMod]
    simp [decIf, wTK, engWord] <;> simp_all
theorem vshiftL (tk : Tk) (vd : VReg) (va : VReg) (vb : VReg) :
    Statement (.vshiftL tk vd va vb) := by
  intro h; refine .inl ⟨_, rfl, ?_, ?_, fun w2 => ?_⟩
  · rw [wLS_engWord _ _ _ _ (by simp)]; rfl
  · rw [wOP_engWord _ _ _ _ (by simp)]; rfl
  · show decodeV _ _ = _
    unfold decodeV; rw [wOP_engWord _ _ _ _ (by simp)]
    simp -zeta only [BitVec.toNat_ofNat, Nat.reducePow, Nat.reduceMod]
    simp [decIf, wTK, engWord]
theorem vshiftR (tk : Tk) (vd : VReg) (va : VReg) (vb : VReg) :
    Statement (.vshiftR tk vd va vb) := by
  intro h; refine .inl ⟨_, rfl, ?_, ?_, fun w2 => ?_⟩
  · rw [wLS_engWord _ _ _ _ (by simp)]; rfl
  · rw [wOP_engWord _ _ _ _ (by simp)]; rfl
  · show decodeV _ _ = _
    unfold decodeV; rw [wOP_engWord _ _ _ _ (by simp)]
    simp -zeta only [BitVec.toNat_ofNat, Nat.reducePow, Nat.reduceMod]
    simp [decIf, wTK, engWord]
theorem vshiftA (tk : Tk) (vd : VReg) (va : VReg) (vb : VReg) :
    Statement (.vshiftA tk vd va vb) := by
  intro h; refine .inl ⟨_, rfl, ?_, ?_, fun w2 => ?_⟩
  · rw [wLS_engWord _ _ _ _ (by simp)]; rfl
  · rw [wOP_engWord _ _ _ _ (by simp)]; rfl
  · show decodeV _ _ = _
    unfold decodeV; rw [wOP_engWord _ _ _ _ (by simp)]
    simp -zeta only [BitVec.toNat_ofNat, Nat.reducePow, Nat.reduceMod]
    simp [decIf, wTK, engWord]
theorem vsel (tk : Tk) (vd : VReg) (va : VReg) (vb : VReg) (p : PReg) :
    Statement (.vsel tk vd va vb p) := by
  intro h; refine .inr ⟨_, _, rfl, ?_, ?_, ?_⟩
  · rw [wLS_engWord _ _ _ _ (by simp)]; rfl
  · rw [wOP_engWord _ _ _ _ (by simp)]; rfl
  · show decodeV _ _ = _
    unfold decodeV; rw [wOP_engWord _ _ _ _ (by simp)]
    simp -zeta only [BitVec.toNat_ofNat, Nat.reducePow, Nat.reduceMod]
    simp [decIf, wTK, engWord]
theorem vwmul (tk : Tk) (vd : VReg) (va : VReg) (vb : VReg) :
    Statement (.vwmul tk vd va vb) := by
  intro h; refine .inl ⟨_, rfl, ?_, ?_, fun w2 => ?_⟩
  · rw [wLS_engWord _ _ _ _ (by simp)]; rfl
  · rw [wOP_engWord _ _ _ _ (by simp)]; rfl
  · show decodeV _ _ = _
    unfold decodeV; rw [wOP_engWord _ _ _ _ (by simp)]
    simp -zeta only [BitVec.toNat_ofNat, Nat.reducePow, Nat.reduceMod]
    simp [decIf, wTK, engWord]
theorem vwadd (tk : Tk) (vd : VReg) (va : VReg) (vb : VReg) :
    Statement (.vwadd tk vd va vb) := by
  intro h; refine .inl ⟨_, rfl, ?_, ?_, fun w2 => ?_⟩
  · rw [wLS_engWord _ _ _ _ (by simp)]; rfl
  · rw [wOP_engWord _ _ _ _ (by simp)]; rfl
  · show decodeV _ _ = _
    unfold decodeV; rw [wOP_engWord _ _ _ _ (by simp)]
    simp -zeta only [BitVec.toNat_ofNat, Nat.reducePow, Nat.reduceMod]
    simp [decIf, wTK, engWord]
theorem vmov (tk : Tk) (vd : VReg) (va : VReg) (byp : Bool) :
    Statement (.vmov tk vd va byp) := by
  intro h; simp [Instr.wf, wfByp, wfScope] at h; refine .inl ⟨_, rfl, ?_, ?_, fun w2 => ?_⟩
  · rw [wLS_engWord _ _ _ _ (by simp)]; rfl
  · rw [wOP_engWord _ _ _ _ (by simp)]; rfl
  · show decodeV _ _ = _
    unfold decodeV; rw [wOP_engWord _ _ _ _ (by simp)]
    simp -zeta only [BitVec.toNat_ofNat, Nat.reducePow, Nat.reduceMod]
    simp [decIf, wTK, engWord] <;> simp_all
theorem vcmpEq (tk : Tk) (pd : PReg) (va : VReg) (vb : VReg) :
    Statement (.vcmpEq tk pd va vb) := by
  intro h; refine .inl ⟨_, rfl, ?_, ?_, fun w2 => ?_⟩
  · rw [wLS_engWord _ _ _ _ (by simp)]; rfl
  · rw [wOP_engWord _ _ _ _ (by simp)]; rfl
  · show decodeV _ _ = _
    unfold decodeV; rw [wOP_engWord _ _ _ _ (by simp)]
    simp -zeta only [BitVec.toNat_ofNat, Nat.reducePow, Nat.reduceMod]
    simp [decIf, wTK, engWord]
theorem vcmpLt (tk : Tk) (pd : PReg) (va : VReg) (vb : VReg) :
    Statement (.vcmpLt tk pd va vb) := by
  intro h; refine .inl ⟨_, rfl, ?_, ?_, fun w2 => ?_⟩
  · rw [wLS_engWord _ _ _ _ (by simp)]; rfl
  · rw [wOP_engWord _ _ _ _ (by simp)]; rfl
  · show decodeV _ _ = _
    unfold decodeV; rw [wOP_engWord _ _ _ _ (by simp)]
    simp -zeta only [BitVec.toNat_ofNat, Nat.reducePow, Nat.reduceMod]
    simp [decIf, wTK, engWord]
theorem vcmpLe (tk : Tk) (pd : PReg) (va : VReg) (vb : VReg) :
    Statement (.vcmpLe tk pd va vb) := by
  intro h; refine .inl ⟨_, rfl, ?_, ?_, fun w2 => ?_⟩
  · rw [wLS_engWord _ _ _ _ (by simp)]; rfl
  · rw [wOP_engWord _ _ _ _ (by simp)]; rfl
  · show decodeV _ _ = _
    unfold decodeV; rw [wOP_engWord _ _ _ _ (by simp)]
    simp -zeta only [BitVec.toNat_ofNat, Nat.reducePow, Nat.reduceMod]
    simp [decIf, wTK, engWord]
theorem vcmpNe (tk : Tk) (pd : PReg) (va : VReg) (vb : VReg) :
    Statement (.vcmpNe tk pd va vb) := by
  intro h; refine .inl ⟨_, rfl, ?_, ?_, fun w2 => ?_⟩
  · rw [wLS_engWord _ _ _ _ (by simp)]; rfl
  · rw [wOP_engWord _ _ _ _ (by simp)]; rfl
  · show decodeV _ _ = _
    unfold decodeV; rw [wOP_engWord _ _ _ _ (by simp)]
    simp -zeta only [BitVec.toNat_ofNat, Nat.reducePow, Nat.reduceMod]
    simp [decIf, wTK, engWord]
theorem pand (tk : Tk) (pd : PReg) (pa : PReg) (pb : PReg) :
    Statement (.pand tk pd pa pb) := by
  intro h; refine .inl ⟨_, rfl, ?_, ?_, fun w2 => ?_⟩
  · rw [wLS_engWord _ _ _ _ (by simp)]; rfl
  · rw [wOP_engWord _ _ _ _ (by simp)]; rfl
  · show decodeV _ _ = _
    unfold decodeV; rw [wOP_engWord _ _ _ _ (by simp)]
    simp -zeta only [BitVec.toNat_ofNat, Nat.reducePow, Nat.reduceMod]
    simp [decIf, wTK, engWord]
theorem por (tk : Tk) (pd : PReg) (pa : PReg) (pb : PReg) :
    Statement (.por tk pd pa pb) := by
  intro h; refine .inl ⟨_, rfl, ?_, ?_, fun w2 => ?_⟩
  · rw [wLS_engWord _ _ _ _ (by simp)]; rfl
  · rw [wOP_engWord _ _ _ _ (by simp)]; rfl
  · show decodeV _ _ = _
    unfold decodeV; rw [wOP_engWord _ _ _ _ (by simp)]
    simp -zeta only [BitVec.toNat_ofNat, Nat.reducePow, Nat.reduceMod]
    simp [decIf, wTK, engWord]
theorem pxor (tk : Tk) (pd : PReg) (pa : PReg) (pb : PReg) :
    Statement (.pxor tk pd pa pb) := by
  intro h; refine .inl ⟨_, rfl, ?_, ?_, fun w2 => ?_⟩
  · rw [wLS_engWord _ _ _ _ (by simp)]; rfl
  · rw [wOP_engWord _ _ _ _ (by simp)]; rfl
  · show decodeV _ _ = _
    unfold decodeV; rw [wOP_engWord _ _ _ _ (by simp)]
    simp -zeta only [BitVec.toNat_ofNat, Nat.reducePow, Nat.reduceMod]
    simp [decIf, wTK, engWord]
theorem pandn (tk : Tk) (pd : PReg) (pa : PReg) (pb : PReg) :
    Statement (.pandn tk pd pa pb) := by
  intro h; refine .inl ⟨_, rfl, ?_, ?_, fun w2 => ?_⟩
  · rw [wLS_engWord _ _ _ _ (by simp)]; rfl
  · rw [wOP_engWord _ _ _ _ (by simp)]; rfl
  · show decodeV _ _ = _
    unfold decodeV; rw [wOP_engWord _ _ _ _ (by simp)]
    simp -zeta only [BitVec.toNat_ofNat, Nat.reducePow, Nat.reduceMod]
    simp [decIf, wTK, engWord]
theorem pnot (tk : Tk) (pd : PReg) (pa : PReg) :
    Statement (.pnot tk pd pa) := by
  intro h; refine .inl ⟨_, rfl, ?_, ?_, fun w2 => ?_⟩
  · rw [wLS_engWord _ _ _ _ (by simp)]; rfl
  · rw [wOP_engWord _ _ _ _ (by simp)]; rfl
  · show decodeV _ _ = _
    unfold decodeV; rw [wOP_engWord _ _ _ _ (by simp)]
    simp -zeta only [BitVec.toNat_ofNat, Nat.reducePow, Nat.reduceMod]
    simp [decIf, wTK, engWord]
theorem pmov (tk : Tk) (pd : PReg) (pa : PReg) :
    Statement (.pmov tk pd pa) := by
  intro h; refine .inl ⟨_, rfl, ?_, ?_, fun w2 => ?_⟩
  · rw [wLS_engWord _ _ _ _ (by simp)]; rfl
  · rw [wOP_engWord _ _ _ _ (by simp)]; rfl
  · show decodeV _ _ = _
    unfold decodeV; rw [wOP_engWord _ _ _ _ (by simp)]
    simp -zeta only [BitVec.toNat_ofNat, Nat.reducePow, Nat.reduceMod]
    simp [decIf, wTK, engWord]
theorem pwhile (tk : Tk) (pd : PReg) (xa : XReg) (lsz : BitVec 2) :
    Statement (.pwhile tk pd xa lsz) := by
  intro h; refine .inl ⟨_, rfl, ?_, ?_, fun w2 => ?_⟩
  · rw [wLS_engWord _ _ _ _ (by simp)]; rfl
  · rw [wOP_engWord _ _ _ _ (by simp)]; rfl
  · show decodeV _ _ = _
    unfold decodeV; rw [wOP_engWord _ _ _ _ (by simp)]
    simp -zeta only [BitVec.toNat_ofNat, Nat.reducePow, Nat.reduceMod]
    simp [decIf, wTK, engWord]
theorem pcnt (tk : Tk) (pa : PReg) (xd : XReg) (lsz : BitVec 2) :
    Statement (.pcnt tk pa xd lsz) := by
  intro h; refine .inl ⟨_, rfl, ?_, ?_, fun w2 => ?_⟩
  · rw [wLS_engWord _ _ _ _ (by simp)]; rfl
  · rw [wOP_engWord _ _ _ _ (by simp)]; rfl
  · show decodeV _ _ = _
    unfold decodeV; rw [wOP_engWord _ _ _ _ (by simp)]
    simp -zeta only [BitVec.toNat_ofNat, Nat.reducePow, Nat.reduceMod]
    simp [decIf, wTK, engWord]
theorem vexp2 (tk : Tk) (vd : VReg) (va : VReg) (byp : Bool) :
    Statement (.vexp2 tk vd va byp) := by
  intro h; simp [Instr.wf, wfByp, wfScope] at h; refine .inl ⟨_, rfl, ?_, ?_, fun w2 => ?_⟩
  · rw [wLS_engWord _ _ _ _ (by simp)]; rfl
  · rw [wOP_engWord _ _ _ _ (by simp)]; rfl
  · show decodeV _ _ = _
    unfold decodeV; rw [wOP_engWord _ _ _ _ (by simp)]
    simp -zeta only [BitVec.toNat_ofNat, Nat.reducePow, Nat.reduceMod]
    simp [decIf, wTK, engWord] <;> simp_all
theorem vlog2 (tk : Tk) (vd : VReg) (va : VReg) (byp : Bool) :
    Statement (.vlog2 tk vd va byp) := by
  intro h; simp [Instr.wf, wfByp, wfScope] at h; refine .inl ⟨_, rfl, ?_, ?_, fun w2 => ?_⟩
  · rw [wLS_engWord _ _ _ _ (by simp)]; rfl
  · rw [wOP_engWord _ _ _ _ (by simp)]; rfl
  · show decodeV _ _ = _
    unfold decodeV; rw [wOP_engWord _ _ _ _ (by simp)]
    simp -zeta only [BitVec.toNat_ofNat, Nat.reducePow, Nat.reduceMod]
    simp [decIf, wTK, engWord] <;> simp_all
theorem vrecip (tk : Tk) (vd : VReg) (va : VReg) (byp : Bool) :
    Statement (.vrecip tk vd va byp) := by
  intro h; simp [Instr.wf, wfByp, wfScope] at h; refine .inl ⟨_, rfl, ?_, ?_, fun w2 => ?_⟩
  · rw [wLS_engWord _ _ _ _ (by simp)]; rfl
  · rw [wOP_engWord _ _ _ _ (by simp)]; rfl
  · show decodeV _ _ = _
    unfold decodeV; rw [wOP_engWord _ _ _ _ (by simp)]
    simp -zeta only [BitVec.toNat_ofNat, Nat.reducePow, Nat.reduceMod]
    simp [decIf, wTK, engWord] <;> simp_all
theorem vrsqrt (tk : Tk) (vd : VReg) (va : VReg) (byp : Bool) :
    Statement (.vrsqrt tk vd va byp) := by
  intro h; simp [Instr.wf, wfByp, wfScope] at h; refine .inl ⟨_, rfl, ?_, ?_, fun w2 => ?_⟩
  · rw [wLS_engWord _ _ _ _ (by simp)]; rfl
  · rw [wOP_engWord _ _ _ _ (by simp)]; rfl
  · show decodeV _ _ = _
    unfold decodeV; rw [wOP_engWord _ _ _ _ (by simp)]
    simp -zeta only [BitVec.toNat_ofNat, Nat.reducePow, Nat.reduceMod]
    simp [decIf, wTK, engWord] <;> simp_all
theorem vcvt (tk : Tk) (vd : VReg) (va : VReg) (tgt : BitVec 4) :
    Statement (.vcvt tk vd va tgt) := by
  intro h; simp [Instr.wf, wfByp, wfScope] at h; refine .inl ⟨_, rfl, ?_, ?_, fun w2 => ?_⟩
  · rw [wLS_engWord _ _ _ _ (by simp)]; rfl
  · rw [wOP_engWord _ _ _ _ (by simp)]; rfl
  · show decodeV _ _ = _
    unfold decodeV; rw [wOP_engWord _ _ _ _ (by simp)]
    simp -zeta only [BitVec.toNat_ofNat, Nat.reducePow, Nat.reduceMod]
    simp [decIf, wTK, engWord] <;> simp_all
theorem vcvtAmax (tk : Tk) (vd : VReg) (va : VReg) (tgt : BitVec 4) (n : BitVec 2) :
    Statement (.vcvtAmax tk vd va tgt n) := by
  intro h; simp [Instr.wf, wfByp, wfScope] at h; refine .inl ⟨_, rfl, ?_, ?_, fun w2 => ?_⟩
  · rw [wLS_engWord _ _ _ _ (by simp)]; rfl
  · rw [wOP_engWord _ _ _ _ (by simp)]; rfl
  · show decodeV _ _ = _
    unfold decodeV; rw [wOP_engWord _ _ _ _ (by simp)]
    simp -zeta only [BitVec.toNat_ofNat, Nat.reducePow, Nat.reduceMod]
    simp [decIf, wTK, engWord] <;> simp_all
theorem vcast (tk : Tk) (vd : VReg) (va : VReg) (tgt : BitVec 4) :
    Statement (.vcast tk vd va tgt) := by
  intro h; simp [Instr.wf, wfByp, wfScope] at h; refine .inl ⟨_, rfl, ?_, ?_, fun w2 => ?_⟩
  · rw [wLS_engWord _ _ _ _ (by simp)]; rfl
  · rw [wOP_engWord _ _ _ _ (by simp)]; rfl
  · show decodeV _ _ = _
    unfold decodeV; rw [wOP_engWord _ _ _ _ (by simp)]
    simp -zeta only [BitVec.toNat_ofNat, Nat.reducePow, Nat.reduceMod]
    simp [decIf, wTK, engWord] <;> simp_all
theorem vsplat (tk : Tk) (vd : VReg) (xa : XReg) (tag : BitVec 4) :
    Statement (.vsplat tk vd xa tag) := by
  intro h; simp [Instr.wf, wfByp, wfScope] at h; refine .inl ⟨_, rfl, ?_, ?_, fun w2 => ?_⟩
  · rw [wLS_engWord _ _ _ _ (by simp)]; rfl
  · rw [wOP_engWord _ _ _ _ (by simp)]; rfl
  · show decodeV _ _ = _
    unfold decodeV; rw [wOP_engWord _ _ _ _ (by simp)]
    simp -zeta only [BitVec.toNat_ofNat, Nat.reducePow, Nat.reduceMod]
    simp [decIf, wTK, engWord] <;> simp_all
theorem vext (tk : Tk) (va : VReg) (xd : XReg) (xb : XReg) :
    Statement (.vext tk va xd xb) := by
  intro h; refine .inl ⟨_, rfl, ?_, ?_, fun w2 => ?_⟩
  · rw [wLS_engWord _ _ _ _ (by simp)]; rfl
  · rw [wOP_engWord _ _ _ _ (by simp)]; rfl
  · show decodeV _ _ = _
    unfold decodeV; rw [wOP_engWord _ _ _ _ (by simp)]
    simp -zeta only [BitVec.toNat_ofNat, Nat.reducePow, Nat.reduceMod]
    simp [decIf, wTK, engWord]
theorem vins (tk : Tk) (vd : VReg) (xa : XReg) (xb : XReg) (tag : BitVec 4) :
    Statement (.vins tk vd xa xb tag) := by
  intro h; simp [Instr.wf, wfByp, wfScope] at h; refine .inl ⟨_, rfl, ?_, ?_, fun w2 => ?_⟩
  · rw [wLS_engWord _ _ _ _ (by simp)]; rfl
  · rw [wOP_engWord _ _ _ _ (by simp)]; rfl
  · show decodeV _ _ = _
    unfold decodeV; rw [wOP_engWord _ _ _ _ (by simp)]
    simp -zeta only [BitVec.toNat_ofNat, Nat.reducePow, Nat.reduceMod]
    simp [decIf, wTK, engWord] <;> simp_all
theorem viota (tk : Tk) (vd : VReg) (xa : XReg) (xb : XReg) (tag : BitVec 4) :
    Statement (.viota tk vd xa xb tag) := by
  intro h; simp [Instr.wf, wfByp, wfScope] at h; refine .inl ⟨_, rfl, ?_, ?_, fun w2 => ?_⟩
  · rw [wLS_engWord _ _ _ _ (by simp)]; rfl
  · rw [wOP_engWord _ _ _ _ (by simp)]; rfl
  · show decodeV _ _ = _
    unfold decodeV; rw [wOP_engWord _ _ _ _ (by simp)]
    simp -zeta only [BitVec.toNat_ofNat, Nat.reducePow, Nat.reduceMod]
    simp [decIf, wTK, engWord] <;> simp_all
theorem vredSum (tk : Tk) (vd : VReg) (va : VReg) (byp : Bool) :
    Statement (.vredSum tk vd va byp) := by
  intro h; simp [Instr.wf, wfByp, wfScope] at h; refine .inl ⟨_, rfl, ?_, ?_, fun w2 => ?_⟩
  · rw [wLS_engWord _ _ _ _ (by simp)]; rfl
  · rw [wOP_engWord _ _ _ _ (by simp)]; rfl
  · show decodeV _ _ = _
    unfold decodeV; rw [wOP_engWord _ _ _ _ (by simp)]
    simp -zeta only [BitVec.toNat_ofNat, Nat.reducePow, Nat.reduceMod]
    simp [decIf, wTK, engWord] <;> simp_all
theorem vredMax (tk : Tk) (vd : VReg) (va : VReg) (byp : Bool) :
    Statement (.vredMax tk vd va byp) := by
  intro h; simp [Instr.wf, wfByp, wfScope] at h; refine .inl ⟨_, rfl, ?_, ?_, fun w2 => ?_⟩
  · rw [wLS_engWord _ _ _ _ (by simp)]; rfl
  · rw [wOP_engWord _ _ _ _ (by simp)]; rfl
  · show decodeV _ _ = _
    unfold decodeV; rw [wOP_engWord _ _ _ _ (by simp)]
    simp -zeta only [BitVec.toNat_ofNat, Nat.reducePow, Nat.reduceMod]
    simp [decIf, wTK, engWord] <;> simp_all
theorem vredMin (tk : Tk) (vd : VReg) (va : VReg) (byp : Bool) :
    Statement (.vredMin tk vd va byp) := by
  intro h; simp [Instr.wf, wfByp, wfScope] at h; refine .inl ⟨_, rfl, ?_, ?_, fun w2 => ?_⟩
  · rw [wLS_engWord _ _ _ _ (by simp)]; rfl
  · rw [wOP_engWord _ _ _ _ (by simp)]; rfl
  · show decodeV _ _ = _
    unfold decodeV; rw [wOP_engWord _ _ _ _ (by simp)]
    simp -zeta only [BitVec.toNat_ofNat, Nat.reducePow, Nat.reduceMod]
    simp [decIf, wTK, engWord] <;> simp_all
theorem vredAmax (tk : Tk) (vd : VReg) (va : VReg) (byp : Bool) :
    Statement (.vredAmax tk vd va byp) := by
  intro h; simp [Instr.wf, wfByp, wfScope] at h; refine .inl ⟨_, rfl, ?_, ?_, fun w2 => ?_⟩
  · rw [wLS_engWord _ _ _ _ (by simp)]; rfl
  · rw [wOP_engWord _ _ _ _ (by simp)]; rfl
  · show decodeV _ _ = _
    unfold decodeV; rw [wOP_engWord _ _ _ _ (by simp)]
    simp -zeta only [BitVec.toNat_ofNat, Nat.reducePow, Nat.reduceMod]
    simp [decIf, wTK, engWord] <;> simp_all
theorem vscanSum (tk : Tk) (vd : VReg) (va : VReg) (byp : Bool) :
    Statement (.vscanSum tk vd va byp) := by
  intro h; simp [Instr.wf, wfByp, wfScope] at h; refine .inl ⟨_, rfl, ?_, ?_, fun w2 => ?_⟩
  · rw [wLS_engWord _ _ _ _ (by simp)]; rfl
  · rw [wOP_engWord _ _ _ _ (by simp)]; rfl
  · show decodeV _ _ = _
    unfold decodeV; rw [wOP_engWord _ _ _ _ (by simp)]
    simp -zeta only [BitVec.toNat_ofNat, Nat.reducePow, Nat.reduceMod]
    simp [decIf, wTK, engWord] <;> simp_all
theorem vscanMax (tk : Tk) (vd : VReg) (va : VReg) (byp : Bool) :
    Statement (.vscanMax tk vd va byp) := by
  intro h; simp [Instr.wf, wfByp, wfScope] at h; refine .inl ⟨_, rfl, ?_, ?_, fun w2 => ?_⟩
  · rw [wLS_engWord _ _ _ _ (by simp)]; rfl
  · rw [wOP_engWord _ _ _ _ (by simp)]; rfl
  · show decodeV _ _ = _
    unfold decodeV; rw [wOP_engWord _ _ _ _ (by simp)]
    simp -zeta only [BitVec.toNat_ofNat, Nat.reducePow, Nat.reduceMod]
    simp [decIf, wTK, engWord] <;> simp_all
theorem vperm (tk : Tk) (vd : VReg) (va : VReg) (vb : VReg) :
    Statement (.vperm tk vd va vb) := by
  intro h; refine .inl ⟨_, rfl, ?_, ?_, fun w2 => ?_⟩
  · rw [wLS_engWord _ _ _ _ (by simp)]; rfl
  · rw [wOP_engWord _ _ _ _ (by simp)]; rfl
  · show decodeV _ _ = _
    unfold decodeV; rw [wOP_engWord _ _ _ _ (by simp)]
    simp -zeta only [BitVec.toNat_ofNat, Nat.reducePow, Nat.reduceMod]
    simp [decIf, wTK, engWord]
theorem vslideUp (tk : Tk) (vd : VReg) (va : VReg) (vb : VReg) :
    Statement (.vslideUp tk vd va vb) := by
  intro h; refine .inl ⟨_, rfl, ?_, ?_, fun w2 => ?_⟩
  · rw [wLS_engWord _ _ _ _ (by simp)]; rfl
  · rw [wOP_engWord _ _ _ _ (by simp)]; rfl
  · show decodeV _ _ = _
    unfold decodeV; rw [wOP_engWord _ _ _ _ (by simp)]
    simp -zeta only [BitVec.toNat_ofNat, Nat.reducePow, Nat.reduceMod]
    simp [decIf, wTK, engWord]
theorem vslideDn (tk : Tk) (vd : VReg) (va : VReg) (vb : VReg) :
    Statement (.vslideDn tk vd va vb) := by
  intro h; refine .inl ⟨_, rfl, ?_, ?_, fun w2 => ?_⟩
  · rw [wLS_engWord _ _ _ _ (by simp)]; rfl
  · rw [wOP_engWord _ _ _ _ (by simp)]; rfl
  · show decodeV _ _ = _
    unfold decodeV; rw [wOP_engWord _ _ _ _ (by simp)]
    simp -zeta only [BitVec.toNat_ofNat, Nat.reducePow, Nat.reduceMod]
    simp [decIf, wTK, engWord]
theorem vzip (tk : Tk) (vd : VReg) (va : VReg) (vb : VReg) :
    Statement (.vzip tk vd va vb) := by
  intro h; refine .inl ⟨_, rfl, ?_, ?_, fun w2 => ?_⟩
  · rw [wLS_engWord _ _ _ _ (by simp)]; rfl
  · rw [wOP_engWord _ _ _ _ (by simp)]; rfl
  · show decodeV _ _ = _
    unfold decodeV; rw [wOP_engWord _ _ _ _ (by simp)]
    simp -zeta only [BitVec.toNat_ofNat, Nat.reducePow, Nat.reduceMod]
    simp [decIf, wTK, engWord]
theorem vunzip (tk : Tk) (vd : VReg) (va : VReg) (vb : VReg) :
    Statement (.vunzip tk vd va vb) := by
  intro h; refine .inl ⟨_, rfl, ?_, ?_, fun w2 => ?_⟩
  · rw [wLS_engWord _ _ _ _ (by simp)]; rfl
  · rw [wOP_engWord _ _ _ _ (by simp)]; rfl
  · show decodeV _ _ = _
    unfold decodeV; rw [wOP_engWord _ _ _ _ (by simp)]
    simp -zeta only [BitVec.toNat_ofNat, Nat.reducePow, Nat.reduceMod]
    simp [decIf, wTK, engWord]
theorem vrev (tk : Tk) (vd : VReg) (va : VReg) (byp : Bool) :
    Statement (.vrev tk vd va byp) := by
  intro h; simp [Instr.wf, wfByp, wfScope] at h; refine .inl ⟨_, rfl, ?_, ?_, fun w2 => ?_⟩
  · rw [wLS_engWord _ _ _ _ (by simp)]; rfl
  · rw [wOP_engWord _ _ _ _ (by simp)]; rfl
  · show decodeV _ _ = _
    unfold decodeV; rw [wOP_engWord _ _ _ _ (by simp)]
    simp -zeta only [BitVec.toNat_ofNat, Nat.reducePow, Nat.reduceMod]
    simp [decIf, wTK, engWord] <;> simp_all
theorem vchain (tk : Tk) (xa : XReg) (xb : XReg) :
    Statement (.vchain tk xa xb) := by
  intro h; refine .inl ⟨_, rfl, ?_, ?_, fun w2 => ?_⟩
  · rw [wLS_engWord _ _ _ _ (by simp)]; rfl
  · rw [wOP_engWord _ _ _ _ (by simp)]; rfl
  · show decodeV _ _ = _
    unfold decodeV; rw [wOP_engWord _ _ _ _ (by simp)]
    simp -zeta only [BitVec.toNat_ofNat, Nat.reducePow, Nat.reduceMod]
    simp [decIf, wTK, engWord]
theorem vld (tk : Tk) (vd : VReg) (cn : CReg) (xo : XReg) (esz : BitVec 2) (imm : BitVec 16) (tag : BitVec 4) :
    Statement (.vld tk vd cn xo esz imm tag) := by
  intro h; simp [Instr.wf, wfByp, wfScope] at h; refine .inr ⟨_, _, rfl, ?_, ?_, ?_⟩
  · rw [wLS_engWord _ _ _ _ (by simp)]; rfl
  · rw [wOP_engWord _ _ _ _ (by simp)]; rfl
  · show decodeV _ _ = _
    unfold decodeV; rw [wOP_engWord _ _ _ _ (by simp)]
    simp -zeta only [BitVec.toNat_ofNat, Nat.reducePow, Nat.reduceMod]
    simp [decIf, wTK, engWord] <;> simp_all
theorem vldS (tk : Tk) (vd : VReg) (cn : CReg) (xo : XReg) (esz : BitVec 2) (imm : BitVec 16) (tag : BitVec 4) (xs : XReg) :
    Statement (.vldS tk vd cn xo esz imm tag xs) := by
  intro h; simp [Instr.wf, wfByp, wfScope] at h; refine .inr ⟨_, _, rfl, ?_, ?_, ?_⟩
  · rw [wLS_engWord _ _ _ _ (by simp)]; rfl
  · rw [wOP_engWord _ _ _ _ (by simp)]; rfl
  · show decodeV _ _ = _
    unfold decodeV; rw [wOP_engWord _ _ _ _ (by simp)]
    simp -zeta only [BitVec.toNat_ofNat, Nat.reducePow, Nat.reduceMod]
    simp [decIf, wTK, engWord] <;> simp_all
theorem vldX (tk : Tk) (vd : VReg) (cn : CReg) (xo : XReg) (esz : BitVec 2) (imm : BitVec 16) (tag : BitVec 4) (vi : VReg) :
    Statement (.vldX tk vd cn xo esz imm tag vi) := by
  intro h; simp [Instr.wf, wfByp, wfScope] at h; refine .inr ⟨_, _, rfl, ?_, ?_, ?_⟩
  · rw [wLS_engWord _ _ _ _ (by simp)]; rfl
  · rw [wOP_engWord _ _ _ _ (by simp)]; rfl
  · show decodeV _ _ = _
    unfold decodeV; rw [wOP_engWord _ _ _ _ (by simp)]
    simp -zeta only [BitVec.toNat_ofNat, Nat.reducePow, Nat.reduceMod]
    simp [decIf, wTK, engWord] <;> simp_all
theorem vst (tk : Tk) (vs : VReg) (cn : CReg) (xo : XReg) (esz : BitVec 2) (imm : BitVec 16) :
    Statement (.vst tk vs cn xo esz imm) := by
  intro h; simp [Instr.wf, wfByp, wfScope] at h; refine .inr ⟨_, _, rfl, ?_, ?_, ?_⟩
  · rw [wLS_engWord _ _ _ _ (by simp)]; rfl
  · rw [wOP_engWord _ _ _ _ (by simp)]; rfl
  · show decodeV _ _ = _
    unfold decodeV; rw [wOP_engWord _ _ _ _ (by simp)]
    simp -zeta only [BitVec.toNat_ofNat, Nat.reducePow, Nat.reduceMod]
    simp [decIf, wTK, engWord] <;> simp_all
theorem vstS (tk : Tk) (vs : VReg) (cn : CReg) (xo : XReg) (esz : BitVec 2) (imm : BitVec 16) (xs : XReg) :
    Statement (.vstS tk vs cn xo esz imm xs) := by
  intro h; simp [Instr.wf, wfByp, wfScope] at h; refine .inr ⟨_, _, rfl, ?_, ?_, ?_⟩
  · rw [wLS_engWord _ _ _ _ (by simp)]; rfl
  · rw [wOP_engWord _ _ _ _ (by simp)]; rfl
  · show decodeV _ _ = _
    unfold decodeV; rw [wOP_engWord _ _ _ _ (by simp)]
    simp -zeta only [BitVec.toNat_ofNat, Nat.reducePow, Nat.reduceMod]
    simp [decIf, wTK, engWord] <;> simp_all
theorem vstX (tk : Tk) (vs : VReg) (cn : CReg) (xo : XReg) (esz : BitVec 2) (imm : BitVec 16) (vi : VReg) :
    Statement (.vstX tk vs cn xo esz imm vi) := by
  intro h; simp [Instr.wf, wfByp, wfScope] at h; refine .inr ⟨_, _, rfl, ?_, ?_, ?_⟩
  · rw [wLS_engWord _ _ _ _ (by simp)]; rfl
  · rw [wOP_engWord _ _ _ _ (by simp)]; rfl
  · show decodeV _ _ = _
    unfold decodeV; rw [wOP_engWord _ _ _ _ (by simp)]
    simp -zeta only [BitVec.toNat_ofNat, Nat.reducePow, Nat.reduceMod]
    simp [decIf, wTK, engWord] <;> simp_all
theorem vspld (tk : Tk) (vd : VReg) (xa : XReg) (tag : BitVec 4) (imm : BitVec 5) :
    Statement (.vspld tk vd xa tag imm) := by
  intro h; simp [Instr.wf, wfByp, wfScope] at h; refine .inl ⟨_, rfl, ?_, ?_, fun w2 => ?_⟩
  · rw [wLS_engWord _ _ _ _ (by simp)]; rfl
  · rw [wOP_engWord _ _ _ _ (by simp)]; rfl
  · show decodeV _ _ = _
    unfold decodeV; rw [wOP_engWord _ _ _ _ (by simp)]
    simp -zeta only [BitVec.toNat_ofNat, Nat.reducePow, Nat.reduceMod]
    simp [decIf, wTK, engWord] <;> simp_all
theorem vspst (tk : Tk) (vs : VReg) (xa : XReg) (imm : BitVec 5) :
    Statement (.vspst tk vs xa imm) := by
  intro h; refine .inl ⟨_, rfl, ?_, ?_, fun w2 => ?_⟩
  · rw [wLS_engWord _ _ _ _ (by simp)]; rfl
  · rw [wOP_engWord _ _ _ _ (by simp)]; rfl
  · show decodeV _ _ = _
    unfold decodeV; rw [wOP_engWord _ _ _ _ (by simp)]
    simp -zeta only [BitVec.toNat_ofNat, Nat.reducePow, Nat.reduceMod]
    simp [decIf, wTK, engWord]
theorem tld (tk : Tk) (t : TReg) (cn : CReg) (xo : XReg) (xs : XReg) (sp : Bool) (imm : BitVec 16) :
    Statement (.tld tk t cn xo xs sp imm) := by
  intro h; simp [Instr.wf] at h; refine .inr ⟨_, _, rfl, ?_, ?_, ?_⟩
  · rw [wLS_engWord _ _ _ _ (by simp)]; rfl
  · rw [wOP_engWord _ _ _ _ (by simp)]; rfl
  · show decodeV _ _ = _
    unfold decodeV; rw [wOP_engWord _ _ _ _ (by simp)]
    simp -zeta only [BitVec.toNat_ofNat, Nat.reducePow, Nat.reduceMod]
    simp [decIf, wTK, engWord]
    rintro rfl; simpa using h
theorem tst (tk : Tk) (t : TReg) (cn : CReg) (xo : XReg) (xs : XReg) (sp : Bool) (imm : BitVec 16) :
    Statement (.tst tk t cn xo xs sp imm) := by
  intro h; simp [Instr.wf] at h; refine .inr ⟨_, _, rfl, ?_, ?_, ?_⟩
  · rw [wLS_engWord _ _ _ _ (by simp)]; rfl
  · rw [wOP_engWord _ _ _ _ (by simp)]; rfl
  · show decodeV _ _ = _
    unfold decodeV; rw [wOP_engWord _ _ _ _ (by simp)]
    simp -zeta only [BitVec.toNat_ofNat, Nat.reducePow, Nat.reduceMod]
    simp [decIf, wTK, engWord]
    rintro rfl; simpa using h
theorem tcfg (tk : Tk) (t : TReg) (rows : BitVec 6) (cols : BitVec 6) (tag : BitVec 4) :
    Statement (.tcfg tk t rows cols tag) := by
  intro h; simp [Instr.wf, wfByp, wfScope] at h; refine .inl ⟨_, rfl, ?_, ?_, fun w2 => ?_⟩
  · rw [wLS_engWord _ _ _ _ (by simp)]; rfl
  · rw [wOP_engWord _ _ _ _ (by simp)]; rfl
  · show decodeV _ _ = _
    unfold decodeV; rw [wOP_engWord _ _ _ _ (by simp)]
    simp -zeta only [BitVec.toNat_ofNat, Nat.reducePow, Nat.reduceMod]
    simp [decIf, wTK, engWord] <;> simp_all
theorem tzero (tk : Tk) (t : TReg) :
    Statement (.tzero tk t) := by
  intro h; refine .inl ⟨_, rfl, ?_, ?_, fun w2 => ?_⟩
  · rw [wLS_engWord _ _ _ _ (by simp)]; rfl
  · rw [wOP_engWord _ _ _ _ (by simp)]; rfl
  · show decodeV _ _ = _
    unfold decodeV; rw [wOP_engWord _ _ _ _ (by simp)]
    simp -zeta only [BitVec.toNat_ofNat, Nat.reducePow, Nat.reduceMod]
    simp [decIf, wTK, engWord]
theorem trowW (tk : Tk) (v : VReg) (t : TReg) (idx : BitVec 6) :
    Statement (.trowW tk v t idx) := by
  intro h; refine .inl ⟨_, rfl, ?_, ?_, fun w2 => ?_⟩
  · rw [wLS_engWord _ _ _ _ (by simp)]; rfl
  · rw [wOP_engWord _ _ _ _ (by simp)]; rfl
  · show decodeV _ _ = _
    unfold decodeV; rw [wOP_engWord _ _ _ _ (by simp)]
    simp -zeta only [BitVec.toNat_ofNat, Nat.reducePow, Nat.reduceMod]
    simp [decIf, wTK, engWord]
theorem trowR (tk : Tk) (v : VReg) (t : TReg) (idx : BitVec 6) :
    Statement (.trowR tk v t idx) := by
  intro h; refine .inl ⟨_, rfl, ?_, ?_, fun w2 => ?_⟩
  · rw [wLS_engWord _ _ _ _ (by simp)]; rfl
  · rw [wOP_engWord _ _ _ _ (by simp)]; rfl
  · show decodeV _ _ = _
    unfold decodeV; rw [wOP_engWord _ _ _ _ (by simp)]
    simp -zeta only [BitVec.toNat_ofNat, Nat.reducePow, Nat.reduceMod]
    simp [decIf, wTK, engWord]
theorem tcolW (tk : Tk) (v : VReg) (t : TReg) (idx : BitVec 6) :
    Statement (.tcolW tk v t idx) := by
  intro h; refine .inl ⟨_, rfl, ?_, ?_, fun w2 => ?_⟩
  · rw [wLS_engWord _ _ _ _ (by simp)]; rfl
  · rw [wOP_engWord _ _ _ _ (by simp)]; rfl
  · show decodeV _ _ = _
    unfold decodeV; rw [wOP_engWord _ _ _ _ (by simp)]
    simp -zeta only [BitVec.toNat_ofNat, Nat.reducePow, Nat.reduceMod]
    simp [decIf, wTK, engWord]
theorem tcolR (tk : Tk) (v : VReg) (t : TReg) (idx : BitVec 6) :
    Statement (.tcolR tk v t idx) := by
  intro h; refine .inl ⟨_, rfl, ?_, ?_, fun w2 => ?_⟩
  · rw [wLS_engWord _ _ _ _ (by simp)]; rfl
  · rw [wOP_engWord _ _ _ _ (by simp)]; rfl
  · show decodeV _ _ = _
    unfold decodeV; rw [wOP_engWord _ _ _ _ (by simp)]
    simp -zeta only [BitVec.toNat_ofNat, Nat.reducePow, Nat.reduceMod]
    simp [decIf, wTK, engWord]
theorem vbrAny (tk : Tk) (p : PReg) (off : BitVec 13) :
    Statement (.vbrAny tk p off) := by
  intro h; refine .inl ⟨_, rfl, ?_, ?_, fun w2 => ?_⟩
  · rw [wLS_engWord _ _ _ _ (by simp)]; rfl
  · rw [wOP_engWord _ _ _ _ (by simp)]; rfl
  · show decodeV _ _ = _
    unfold decodeV; rw [wOP_engWord _ _ _ _ (by simp)]
    simp -zeta only [BitVec.toNat_ofNat, Nat.reducePow, Nat.reduceMod]
    simp [decIf, wTK, engWord]
theorem vbrAll (tk : Tk) (p : PReg) (off : BitVec 13) :
    Statement (.vbrAll tk p off) := by
  intro h; refine .inl ⟨_, rfl, ?_, ?_, fun w2 => ?_⟩
  · rw [wLS_engWord _ _ _ _ (by simp)]; rfl
  · rw [wOP_engWord _ _ _ _ (by simp)]; rfl
  · show decodeV _ _ = _
    unfold decodeV; rw [wOP_engWord _ _ _ _ (by simp)]
    simp -zeta only [BitVec.toNat_ofNat, Nat.reducePow, Nat.reduceMod]
    simp [decIf, wTK, engWord]
theorem vbrNone (tk : Tk) (p : PReg) (off : BitVec 13) :
    Statement (.vbrNone tk p off) := by
  intro h; refine .inl ⟨_, rfl, ?_, ?_, fun w2 => ?_⟩
  · rw [wLS_engWord _ _ _ _ (by simp)]; rfl
  · rw [wOP_engWord _ _ _ _ (by simp)]; rfl
  · show decodeV _ _ = _
    unfold decodeV; rw [wOP_engWord _ _ _ _ (by simp)]
    simp -zeta only [BitVec.toNat_ofNat, Nat.reducePow, Nat.reduceMod]
    simp [decIf, wTK, engWord]
theorem vjmp (tk : Tk) (off : BitVec 20) :
    Statement (.vjmp tk off) := by
  intro h; refine .inl ⟨_, rfl, ?_, ?_, fun w2 => ?_⟩
  · rw [wLS_engWord _ _ _ _ (by simp)]; rfl
  · rw [wOP_engWord _ _ _ _ (by simp)]; rfl
  · show decodeV _ _ = _
    unfold decodeV; rw [wOP_engWord _ _ _ _ (by simp)]
    simp -zeta only [BitVec.toNat_ofNat, Nat.reducePow, Nat.reduceMod]
    simp [decIf, wTK, engWord]
theorem vloop (tk : Tk) (off : BitVec 20) :
    Statement (.vloop tk off) := by
  intro h; refine .inl ⟨_, rfl, ?_, ?_, fun w2 => ?_⟩
  · rw [wLS_engWord _ _ _ _ (by simp)]; rfl
  · rw [wOP_engWord _ _ _ _ (by simp)]; rfl
  · show decodeV _ _ = _
    unfold decodeV; rw [wOP_engWord _ _ _ _ (by simp)]
    simp -zeta only [BitVec.toNat_ofNat, Nat.reducePow, Nat.reduceMod]
    simp [decIf, wTK, engWord]
theorem vend (tk : Tk) :
    Statement (.vend tk) := by
  intro h; refine .inl ⟨_, rfl, ?_, ?_, fun w2 => ?_⟩
  · rw [wLS_engWord _ _ _ _ (by simp)]; rfl
  · rw [wOP_engWord _ _ _ _ (by simp)]; rfl
  · show decodeV _ _ = _
    unfold decodeV; rw [wOP_engWord _ _ _ _ (by simp)]
    simp -zeta only [BitVec.toNat_ofNat, Nat.reducePow, Nat.reduceMod]
    simp [decIf, wTK, engWord]
theorem mnop (tk : Tk) :
    Statement (.mnop tk) := by
  intro h; refine .inl ⟨_, rfl, ?_, ?_, fun w2 => ?_⟩
  · rw [wLS_engWord _ _ _ _ (by simp)]; rfl
  · rw [wOP_engWord _ _ _ _ (by simp)]; rfl
  · show decodeM _ _ = _
    unfold decodeM; rw [wOP_engWord _ _ _ _ (by simp)]
    simp -zeta only [BitVec.toNat_ofNat, Nat.reducePow, Nat.reduceMod]
    simp [decIf, wTK, engWord]
theorem mlease (tk : Tk) (n : BitVec 9) :
    Statement (.mlease tk n) := by
  intro h; simp [Instr.wf, wfByp, wfScope] at h; refine .inl ⟨_, rfl, ?_, ?_, fun w2 => ?_⟩
  · rw [wLS_engWord _ _ _ _ (by simp)]; rfl
  · rw [wOP_engWord _ _ _ _ (by simp)]; rfl
  · show decodeM _ _ = _
    unfold decodeM; rw [wOP_engWord _ _ _ _ (by simp)]
    simp -zeta only [BitVec.toNat_ofNat, Nat.reducePow, Nat.reduceMod]
    simp [decIf, wTK, engWord] <;> simp_all
theorem munlease (tk : Tk) :
    Statement (.munlease tk) := by
  intro h; refine .inl ⟨_, rfl, ?_, ?_, fun w2 => ?_⟩
  · rw [wLS_engWord _ _ _ _ (by simp)]; rfl
  · rw [wOP_engWord _ _ _ _ (by simp)]; rfl
  · show decodeM _ _ = _
    unfold decodeM; rw [wOP_engWord _ _ _ _ (by simp)]
    simp -zeta only [BitVec.toNat_ofNat, Nat.reducePow, Nat.reduceMod]
    simp [decIf, wTK, engWord]
theorem mwload (tk : Tk) (cn : CReg) (xa : XReg) (pl : Bool) :
    Statement (.mwload tk cn xa pl) := by
  intro h; refine .inl ⟨_, rfl, ?_, ?_, fun w2 => ?_⟩
  · rw [wLS_engWord _ _ _ _ (by simp)]; rfl
  · rw [wOP_engWord _ _ _ _ (by simp)]; rfl
  · show decodeM _ _ = _
    unfold decodeM; rw [wOP_engWord _ _ _ _ (by simp)]
    simp -zeta only [BitVec.toNat_ofNat, Nat.reducePow, Nat.reduceMod]
    simp [decIf, wTK, engWord]
theorem mwloadm (tk : Tk) (fmt : BitVec 4) (xa : XReg) (pl : Bool) :
    Statement (.mwloadm tk fmt xa pl) := by
  intro h; simp [Instr.wf, wfByp, wfScope] at h; refine .inl ⟨_, rfl, ?_, ?_, fun w2 => ?_⟩
  · rw [wLS_engWord _ _ _ _ (by simp)]; rfl
  · rw [wOP_engWord _ _ _ _ (by simp)]; rfl
  · show decodeM _ _ = _
    unfold decodeM; rw [wOP_engWord _ _ _ _ (by simp)]
    simp -zeta only [BitVec.toNat_ofNat, Nat.reducePow, Nat.reduceMod]
    simp [decIf, wTK, engWord] <;> (try simp_all) <;>
    (intro a b c; rcases h with ((rfl | rfl) | rfl) | h <;> simp_all)
theorem mpswap (tk : Tk) :
    Statement (.mpswap tk) := by
  intro h; refine .inl ⟨_, rfl, ?_, ?_, fun w2 => ?_⟩
  · rw [wLS_engWord _ _ _ _ (by simp)]; rfl
  · rw [wOP_engWord _ _ _ _ (by simp)]; rfl
  · show decodeM _ _ = _
    unfold decodeM; rw [wOP_engWord _ _ _ _ (by simp)]
    simp -zeta only [BitVec.toNat_ofNat, Nat.reducePow, Nat.reduceMod]
    simp [decIf, wTK, engWord]
theorem mregion (tk : Tk) (rg : Rg) (xa : XReg) (xb : XReg) (trapPol : Bool) (slog : BitVec 3) (spill : BitVec 12) :
    Statement (.mregion tk rg xa xb trapPol slog spill) := by
  intro h; simp [Instr.wf, wfByp, wfScope] at h; refine .inr ⟨_, _, rfl, ?_, ?_, ?_⟩
  · rw [wLS_engWord _ _ _ _ (by simp)]; rfl
  · rw [wOP_engWord _ _ _ _ (by simp)]; rfl
  · show decodeM _ _ = _
    unfold decodeM; rw [wOP_engWord _ _ _ _ (by simp)]
    simp -zeta only [BitVec.toNat_ofNat, Nat.reducePow, Nat.reduceMod]
    simp [decIf, wTK, engWord] <;> (try simp_all) <;>
    (rintro rfl; simpa using h.2)
theorem mstream (tk : Tk) (rg : Rg) (xa : XReg) (map : Bool) (atag : BitVec 4) (rows : BitVec 7) (pl : Bool) (wtag : BitVec 4) :
    Statement (.mstream tk rg xa map atag rows pl wtag) := by
  intro h; simp [Instr.wf, wfByp, wfScope] at h; refine .inr ⟨_, _, rfl, ?_, ?_, ?_⟩
  · rw [wLS_engWord _ _ _ _ (by simp)]; rfl
  · rw [wOP_engWord _ _ _ _ (by simp)]; rfl
  · show decodeM _ _ = _
    unfold decodeM; rw [wOP_engWord _ _ _ _ (by simp)]
    simp -zeta only [BitVec.toNat_ofNat, Nat.reducePow, Nat.reduceMod]
    simp [decIf, wTK, engWord] <;> simp_all
theorem mbind (tk : Tk) (rg : Rg) (xa : XReg) (xb : XReg) :
    Statement (.mbind tk rg xa xb) := by
  intro h; refine .inl ⟨_, rfl, ?_, ?_, fun w2 => ?_⟩
  · rw [wLS_engWord _ _ _ _ (by simp)]; rfl
  · rw [wOP_engWord _ _ _ _ (by simp)]; rfl
  · show decodeM _ _ = _
    unfold decodeM; rw [wOP_engWord _ _ _ _ (by simp)]
    simp -zeta only [BitVec.toNat_ofNat, Nat.reducePow, Nat.reduceMod]
    simp [decIf, wTK, engWord]
theorem mrelease (tk : Tk) (rg : Rg) :
    Statement (.mrelease tk rg) := by
  intro h; refine .inl ⟨_, rfl, ?_, ?_, fun w2 => ?_⟩
  · rw [wLS_engWord _ _ _ _ (by simp)]; rfl
  · rw [wOP_engWord _ _ _ _ (by simp)]; rfl
  · show decodeM _ _ = _
    unfold decodeM; rw [wOP_engWord _ _ _ _ (by simp)]
    simp -zeta only [BitVec.toNat_ofNat, Nat.reducePow, Nat.reduceMod]
    simp [decIf, wTK, engWord]
theorem mreleaseOne (tk : Tk) (rg : Rg) (xa : XReg) :
    Statement (.mreleaseOne tk rg xa) := by
  intro h; refine .inl ⟨_, rfl, ?_, ?_, fun w2 => ?_⟩
  · rw [wLS_engWord _ _ _ _ (by simp)]; rfl
  · rw [wOP_engWord _ _ _ _ (by simp)]; rfl
  · show decodeM _ _ = _
    unfold decodeM; rw [wOP_engWord _ _ _ _ (by simp)]
    simp -zeta only [BitVec.toNat_ofNat, Nat.reducePow, Nat.reduceMod]
    simp [decIf, wTK, engWord]
theorem mdrain (tk : Tk) (rg : Rg) (xa : XReg) (xb : XReg) :
    Statement (.mdrain tk rg xa xb) := by
  intro h; refine .inl ⟨_, rfl, ?_, ?_, fun w2 => ?_⟩
  · rw [wLS_engWord _ _ _ _ (by simp)]; rfl
  · rw [wOP_engWord _ _ _ _ (by simp)]; rfl
  · show decodeM _ _ = _
    unfold decodeM; rw [wOP_engWord _ _ _ _ (by simp)]
    simp -zeta only [BitVec.toNat_ofNat, Nat.reducePow, Nat.reduceMod]
    simp [decIf, wTK, engWord]
theorem mdrainFree (tk : Tk) (rg : Rg) (xa : XReg) (xb : XReg) :
    Statement (.mdrainFree tk rg xa xb) := by
  intro h; refine .inl ⟨_, rfl, ?_, ?_, fun w2 => ?_⟩
  · rw [wLS_engWord _ _ _ _ (by simp)]; rfl
  · rw [wOP_engWord _ _ _ _ (by simp)]; rfl
  · show decodeM _ _ = _
    unfold decodeM; rw [wOP_engWord _ _ _ _ (by simp)]
    simp -zeta only [BitVec.toNat_ofNat, Nat.reducePow, Nat.reduceMod]
    simp [decIf, wTK, engWord]
theorem mswap (tk : Tk) (rg : Rg) (xa : XReg) :
    Statement (.mswap tk rg xa) := by
  intro h; refine .inl ⟨_, rfl, ?_, ?_, fun w2 => ?_⟩
  · rw [wLS_engWord _ _ _ _ (by simp)]; rfl
  · rw [wOP_engWord _ _ _ _ (by simp)]; rfl
  · show decodeM _ _ = _
    unfold decodeM; rw [wOP_engWord _ _ _ _ (by simp)]
    simp -zeta only [BitVec.toNat_ofNat, Nat.reducePow, Nat.reduceMod]
    simp [decIf, wTK, engWord]
theorem mevrd (tk : Tk) (xd : XReg) (rg : Rg) (kind : BitVec 3) (entry : BitVec 5) :
    Statement (.mevrd tk xd rg kind entry) := by
  intro h; simp [Instr.wf, wfByp, wfScope] at h; refine .inl ⟨_, rfl, ?_, ?_, fun w2 => ?_⟩
  · rw [wLS_engWord _ _ _ _ (by simp)]; rfl
  · rw [wOP_engWord _ _ _ _ (by simp)]; rfl
  · show decodeM _ _ = _
    unfold decodeM; rw [wOP_engWord _ _ _ _ (by simp)]
    simp -zeta only [BitVec.toNat_ofNat, Nat.reducePow, Nat.reduceMod]
    simp [decIf, wTK, engWord] <;> simp_all
theorem mevclr (tk : Tk) (rg : Rg) (kind : BitVec 3) (entry : BitVec 5) :
    Statement (.mevclr tk rg kind entry) := by
  intro h; simp [Instr.wf, wfByp, wfScope] at h; refine .inl ⟨_, rfl, ?_, ?_, fun w2 => ?_⟩
  · rw [wLS_engWord _ _ _ _ (by simp)]; rfl
  · rw [wOP_engWord _ _ _ _ (by simp)]; rfl
  · show decodeM _ _ = _
    unfold decodeM; rw [wOP_engWord _ _ _ _ (by simp)]
    simp -zeta only [BitVec.toNat_ofNat, Nat.reducePow, Nat.reduceMod]
    simp [decIf, wTK, engWord] <;> simp_all
theorem mrank (tk : Tk) (xa : XReg) (xb : XReg) (xc : XReg) (tag : BitVec 4) (t : BitVec 7) (e : BitVec 7) (k : BitVec 4) (ovx : BitVec 7) :
    Statement (.mrank tk xa xb xc tag t e k ovx) := by
  intro h; simp [Instr.wf, wfByp, wfScope] at h; refine .inr ⟨_, _, rfl, ?_, ?_, ?_⟩
  · rw [wLS_engWord _ _ _ _ (by simp)]; rfl
  · rw [wOP_engWord _ _ _ _ (by simp)]; rfl
  · show decodeM _ _ = _
    unfold decodeM; rw [wOP_engWord _ _ _ _ (by simp)]
    simp -zeta only [BitVec.toNat_ofNat, Nat.reducePow, Nat.reduceMod]
    simp [decIf, wTK, engWord] <;> (try simp_all) <;>
    (rcases h.1.1 with (rfl | rfl) | rfl <;> simp)
theorem mtopkLo (tk : Tk) (rg : Rg) (xa : XReg) (xb : XReg) (xc : XReg) :
    Statement (.mtopkLo tk rg xa xb xc) := by
  intro h; refine .inl ⟨_, rfl, ?_, ?_, fun w2 => ?_⟩
  · rw [wLS_engWord _ _ _ _ (by simp)]; rfl
  · rw [wOP_engWord _ _ _ _ (by simp)]; rfl
  · show decodeM _ _ = _
    unfold decodeM; rw [wOP_engWord _ _ _ _ (by simp)]
    simp -zeta only [BitVec.toNat_ofNat, Nat.reducePow, Nat.reduceMod]
    simp [decIf, wTK, engWord]
theorem mtopkHi (tk : Tk) (rg : Rg) (xa : XReg) (xb : XReg) (xc : XReg) :
    Statement (.mtopkHi tk rg xa xb xc) := by
  intro h; refine .inl ⟨_, rfl, ?_, ?_, fun w2 => ?_⟩
  · rw [wLS_engWord _ _ _ _ (by simp)]; rfl
  · rw [wOP_engWord _ _ _ _ (by simp)]; rfl
  · show decodeM _ _ = _
    unfold decodeM; rw [wOP_engWord _ _ _ _ (by simp)]
    simp -zeta only [BitVec.toNat_ofNat, Nat.reducePow, Nat.reduceMod]
    simp [decIf, wTK, engWord]
theorem mdist (tk : Tk) (rg : Rg) (xa : XReg) (xb : XReg) (pl : Bool) :
    Statement (.mdist tk rg xa xb pl) := by
  intro h; refine .inl ⟨_, rfl, ?_, ?_, fun w2 => ?_⟩
  · rw [wLS_engWord _ _ _ _ (by simp)]; rfl
  · rw [wOP_engWord _ _ _ _ (by simp)]; rfl
  · show decodeM _ _ = _
    unfold decodeM; rw [wOP_engWord _ _ _ _ (by simp)]
    simp -zeta only [BitVec.toNat_ofNat, Nat.reducePow, Nat.reduceMod]
    simp [decIf, wTK, engWord]
theorem mcntRd (tk : Tk) (xd : XReg) (sel : BitVec 9) :
    Statement (.mcntRd tk xd sel) := by
  intro h; simp [Instr.wf, wfByp, wfScope] at h; refine .inl ⟨_, rfl, ?_, ?_, fun w2 => ?_⟩
  · rw [wLS_engWord _ _ _ _ (by simp)]; rfl
  · rw [wOP_engWord _ _ _ _ (by simp)]; rfl
  · show decodeM _ _ = _
    unfold decodeM; rw [wOP_engWord _ _ _ _ (by simp)]
    simp -zeta only [BitVec.toNat_ofNat, Nat.reducePow, Nat.reduceMod]
    simp [decIf, wTK, engWord] <;> (try simp_all) <;>
    (intro hs; exact h.2 (BitVec.eq_of_toNat_eq hs))
theorem mcntClr (tk : Tk) (sel : BitVec 9) :
    Statement (.mcntClr tk sel) := by
  intro h; simp [Instr.wf, wfByp, wfScope] at h; refine .inl ⟨_, rfl, ?_, ?_, fun w2 => ?_⟩
  · rw [wLS_engWord _ _ _ _ (by simp)]; rfl
  · rw [wOP_engWord _ _ _ _ (by simp)]; rfl
  · show decodeM _ _ = _
    unfold decodeM; rw [wOP_engWord _ _ _ _ (by simp)]
    simp -zeta only [BitVec.toNat_ofNat, Nat.reducePow, Nat.reduceMod]
    simp [decIf, wTK, engWord] <;> simp_all
theorem mcplx (tk : Tk) (rg : Rg) (xa : XReg) (rows : BitVec 7) (pl : Bool) :
    Statement (.mcplx tk rg xa rows pl) := by
  intro h; refine .inr ⟨_, _, rfl, ?_, ?_, ?_⟩
  · rw [wLS_engWord _ _ _ _ (by simp)]; rfl
  · rw [wOP_engWord _ _ _ _ (by simp)]; rfl
  · show decodeM _ _ = _
    unfold decodeM; rw [wOP_engWord _ _ _ _ (by simp)]
    simp -zeta only [BitVec.toNat_ofNat, Nat.reducePow, Nat.reduceMod]
    simp [decIf, wTK, engWord]
theorem msave (tk : Tk) (cn : CReg) (xa : XReg) :
    Statement (.msave tk cn xa) := by
  intro h; refine .inl ⟨_, rfl, ?_, ?_, fun w2 => ?_⟩
  · rw [wLS_engWord _ _ _ _ (by simp)]; rfl
  · rw [wOP_engWord _ _ _ _ (by simp)]; rfl
  · show decodeM _ _ = _
    unfold decodeM; rw [wOP_engWord _ _ _ _ (by simp)]
    simp -zeta only [BitVec.toNat_ofNat, Nat.reducePow, Nat.reduceMod]
    simp [decIf, wTK, engWord]
theorem mrestore (tk : Tk) (cn : CReg) (xa : XReg) :
    Statement (.mrestore tk cn xa) := by
  intro h; refine .inl ⟨_, rfl, ?_, ?_, fun w2 => ?_⟩
  · rw [wLS_engWord _ _ _ _ (by simp)]; rfl
  · rw [wOP_engWord _ _ _ _ (by simp)]; rfl
  · show decodeM _ _ = _
    unfold decodeM; rw [wOP_engWord _ _ _ _ (by simp)]
    simp -zeta only [BitVec.toNat_ofNat, Nat.reducePow, Nat.reduceMod]
    simp [decIf, wTK, engWord]
theorem mloop (off : BitVec 20) :
    Statement (.mloop off) := by
  intro h; refine .inl ⟨_, rfl, ?_, ?_, fun w2 => ?_⟩
  · rw [wLS_engWord _ _ _ _ (by simp)]; rfl
  · rw [wOP_engWord _ _ _ _ (by simp)]; rfl
  · show decodeM _ _ = _
    unfold decodeM; rw [wOP_engWord _ _ _ _ (by simp)]
    simp -zeta only [BitVec.toNat_ofNat, Nat.reducePow, Nat.reduceMod]
    simp [decIf, wTK, engWord]
theorem mend (tk : Tk) :
    Statement (.mend tk) := by
  intro h; refine .inl ⟨_, rfl, ?_, ?_, fun w2 => ?_⟩
  · rw [wLS_engWord _ _ _ _ (by simp)]; rfl
  · rw [wOP_engWord _ _ _ _ (by simp)]; rfl
  · show decodeM _ _ = _
    unfold decodeM; rw [wOP_engWord _ _ _ _ (by simp)]
    simp -zeta only [BitVec.toNat_ofNat, Nat.reducePow, Nat.reduceMod]
    simp [decIf, wTK, engWord]
theorem cnop (tk : Tk) :
    Statement (.cnop tk) := by
  intro h; refine .inl ⟨_, rfl, ?_, ?_, fun w2 => ?_⟩
  · rw [wLS_engWord _ _ _ _ (by simp)]; rfl
  · rw [wOP_engWord _ _ _ _ (by simp)]; rfl
  · show decodeC _ _ = _
    unfold decodeC; rw [wOP_engWord _ _ _ _ (by simp)]
    simp -zeta only [BitVec.toNat_ofNat, Nat.reducePow, Nat.reduceMod]
    simp [decIf, wTK, engWord]
theorem cpy (tk : Tk) (cd : CReg) (cs : CReg) (xa : XReg) (xb : XReg) (ui : Bool) (xc : XReg) :
    Statement (.cpy tk cd cs xa xb ui xc) := by
  intro h; refine .inr ⟨_, _, rfl, ?_, ?_, ?_⟩
  · rw [wLS_engWord _ _ _ _ (by simp)]; rfl
  · rw [wOP_engWord _ _ _ _ (by simp)]; rfl
  · show decodeC _ _ = _
    unfold decodeC; rw [wOP_engWord _ _ _ _ (by simp)]
    simp -zeta only [BitVec.toNat_ofNat, Nat.reducePow, Nat.reduceMod]
    simp [decIf, wTK, engWord]
theorem cpy2d (tk : Tk) (cd : CReg) (cs : CReg) (xa : XReg) (xb : XReg) (ui : Bool) (xc : XReg) (xs : XReg) (rows : BitVec 10) (spd : Bool) (sps : Bool) :
    Statement (.cpy2d tk cd cs xa xb ui xc xs rows spd sps) := by
  intro h; simp [Instr.wf, wfByp, wfScope] at h; refine .inr ⟨_, _, rfl, ?_, ?_, ?_⟩
  · rw [wLS_engWord _ _ _ _ (by simp)]; rfl
  · rw [wOP_engWord _ _ _ _ (by simp)]; rfl
  · show decodeC _ _ = _
    unfold decodeC; rw [wOP_engWord _ _ _ _ (by simp)]
    simp -zeta only [BitVec.toNat_ofNat, Nat.reducePow, Nat.reduceMod]
    simp [decIf, wTK, engWord] <;> (try simp_all) <;>
    (cases spd <;> cases sps <;> simp_all)
theorem cpyCvt (tk : Tk) (cd : CReg) (cs : CReg) (xa : XReg) (xb : XReg) (ui : Bool) (xc : XReg) (dtag : BitVec 4) (stag : BitVec 4) (spd : Bool) (sps : Bool) :
    Statement (.cpyCvt tk cd cs xa xb ui xc dtag stag spd sps) := by
  intro h; simp [Instr.wf, wfByp, wfScope] at h; refine .inr ⟨_, _, rfl, ?_, ?_, ?_⟩
  · rw [wLS_engWord _ _ _ _ (by simp)]; rfl
  · rw [wOP_engWord _ _ _ _ (by simp)]; rfl
  · show decodeC _ _ = _
    unfold decodeC; rw [wOP_engWord _ _ _ _ (by simp)]
    simp -zeta only [BitVec.toNat_ofNat, Nat.reducePow, Nat.reduceMod]
    simp [decIf, wTK, engWord] <;> (try simp_all) <;>
    (cases spd <;> cases sps <;> simp_all)
theorem cpyin (tk : Tk) (cs : CReg) (xa : XReg) (xb : XReg) (ui : Bool) (xc : XReg) :
    Statement (.cpyin tk cs xa xb ui xc) := by
  intro h; refine .inr ⟨_, _, rfl, ?_, ?_, ?_⟩
  · rw [wLS_engWord _ _ _ _ (by simp)]; rfl
  · rw [wOP_engWord _ _ _ _ (by simp)]; rfl
  · show decodeC _ _ = _
    unfold decodeC; rw [wOP_engWord _ _ _ _ (by simp)]
    simp -zeta only [BitVec.toNat_ofNat, Nat.reducePow, Nat.reduceMod]
    simp [decIf, wTK, engWord]
theorem cpyout (tk : Tk) (cd : CReg) (xa : XReg) (xb : XReg) (ui : Bool) (xc : XReg) :
    Statement (.cpyout tk cd xa xb ui xc) := by
  intro h; refine .inr ⟨_, _, rfl, ?_, ?_, ?_⟩
  · rw [wLS_engWord _ _ _ _ (by simp)]; rfl
  · rw [wOP_engWord _ _ _ _ (by simp)]; rfl
  · show decodeC _ _ = _
    unfold decodeC; rw [wOP_engWord _ _ _ _ (by simp)]
    simp -zeta only [BitVec.toNat_ofNat, Nat.reducePow, Nat.reduceMod]
    simp [decIf, wTK, engWord]
theorem cpyaccRd (tk : Tk) (xa : XReg) (xb : XReg) (xc : XReg) (ui : Bool) :
    Statement (.cpyaccRd tk xa xb xc ui) := by
  intro h; refine .inl ⟨_, rfl, ?_, ?_, fun w2 => ?_⟩
  · rw [wLS_engWord _ _ _ _ (by simp)]; rfl
  · rw [wOP_engWord _ _ _ _ (by simp)]; rfl
  · show decodeC _ _ = _
    unfold decodeC; rw [wOP_engWord _ _ _ _ (by simp)]
    simp -zeta only [BitVec.toNat_ofNat, Nat.reducePow, Nat.reduceMod]
    simp [decIf, wTK, engWord]
theorem cpyaccWr (tk : Tk) (xa : XReg) (xb : XReg) (xc : XReg) (ui : Bool) :
    Statement (.cpyaccWr tk xa xb xc ui) := by
  intro h; refine .inl ⟨_, rfl, ?_, ?_, fun w2 => ?_⟩
  · rw [wLS_engWord _ _ _ _ (by simp)]; rfl
  · rw [wOP_engWord _ _ _ _ (by simp)]; rfl
  · show decodeC _ _ = _
    unfold decodeC; rw [wOP_engWord _ _ _ _ (by simp)]
    simp -zeta only [BitVec.toNat_ofNat, Nat.reducePow, Nat.reduceMod]
    simp [decIf, wTK, engWord]
theorem cfill (tk : Tk) (xa : XReg) (xb : XReg) (xc : XReg) (ui : Bool) :
    Statement (.cfill tk xa xb xc ui) := by
  intro h; refine .inl ⟨_, rfl, ?_, ?_, fun w2 => ?_⟩
  · rw [wLS_engWord _ _ _ _ (by simp)]; rfl
  · rw [wOP_engWord _ _ _ _ (by simp)]; rfl
  · show decodeC _ _ = _
    unfold decodeC; rw [wOP_engWord _ _ _ _ (by simp)]
    simp -zeta only [BitVec.toNat_ofNat, Nat.reducePow, Nat.reduceMod]
    simp [decIf, wTK, engWord]
theorem cfillCw (tk : Tk) (xa : XReg) (xb : XReg) (xc : XReg) (ui : Bool) :
    Statement (.cfillCw tk xa xb xc ui) := by
  intro h; refine .inl ⟨_, rfl, ?_, ?_, fun w2 => ?_⟩
  · rw [wLS_engWord _ _ _ _ (by simp)]; rfl
  · rw [wOP_engWord _ _ _ _ (by simp)]; rfl
  · show decodeC _ _ = _
    unfold decodeC; rw [wOP_engWord _ _ _ _ (by simp)]
    simp -zeta only [BitVec.toNat_ofNat, Nat.reducePow, Nat.reduceMod]
    simp [decIf, wTK, engWord]
theorem cgath (tk : Tk) (cs : CReg) (xa : XReg) (xb : XReg) (ui : Bool) (xc : XReg) (xs : XReg) (dtag : BitVec 4) (e : BitVec 7) :
    Statement (.cgath tk cs xa xb ui xc xs dtag e) := by
  intro h; simp [Instr.wf] at h; refine .inr ⟨_, _, rfl, ?_, ?_, ?_⟩
  · rw [wLS_engWord _ _ _ _ (by simp)]; rfl
  · rw [wOP_engWord _ _ _ _ (by simp)]; rfl
  · show decodeC _ _ = _
    unfold decodeC; rw [wOP_engWord _ _ _ _ (by simp)]
    simp -zeta only [BitVec.toNat_ofNat, Nat.reducePow, Nat.reduceMod]
    simpa [decIf, wTK, engWord] using h
theorem cscat (tk : Tk) (cd : CReg) (xa : XReg) (xb : XReg) (ui : Bool) (xc : XReg) (xs : XReg) (dtag : BitVec 4) (e : BitVec 7) :
    Statement (.cscat tk cd xa xb ui xc xs dtag e) := by
  intro h; simp [Instr.wf] at h; refine .inr ⟨_, _, rfl, ?_, ?_, ?_⟩
  · rw [wLS_engWord _ _ _ _ (by simp)]; rfl
  · rw [wOP_engWord _ _ _ _ (by simp)]; rfl
  · show decodeC _ _ = _
    unfold decodeC; rw [wOP_engWord _ _ _ _ (by simp)]
    simp -zeta only [BitVec.toNat_ofNat, Nat.reducePow, Nat.reduceMod]
    simpa [decIf, wTK, engWord] using h
theorem cnullZero (tk : Tk) (xa : XReg) (xb : XReg) (ui : Bool) :
    Statement (.cnullZero tk xa xb ui) := by
  intro h; refine .inl ⟨_, rfl, ?_, ?_, fun w2 => ?_⟩
  · rw [wLS_engWord _ _ _ _ (by simp)]; rfl
  · rw [wOP_engWord _ _ _ _ (by simp)]; rfl
  · show decodeC _ _ = _
    unfold decodeC; rw [wOP_engWord _ _ _ _ (by simp)]
    simp -zeta only [BitVec.toNat_ofNat, Nat.reducePow, Nat.reduceMod]
    simp [decIf, wTK, engWord]
theorem cnullId (tk : Tk) (xa : XReg) (xb : XReg) (xc : XReg) (ui : Bool) :
    Statement (.cnullId tk xa xb xc ui) := by
  intro h; refine .inl ⟨_, rfl, ?_, ?_, fun w2 => ?_⟩
  · rw [wLS_engWord _ _ _ _ (by simp)]; rfl
  · rw [wOP_engWord _ _ _ _ (by simp)]; rfl
  · show decodeC _ _ = _
    unfold decodeC; rw [wOP_engWord _ _ _ _ (by simp)]
    simp -zeta only [BitVec.toNat_ofNat, Nat.reducePow, Nat.reduceMod]
    simp [decIf, wTK, engWord]
theorem cnullConst (tk : Tk) (xa : XReg) (xb : XReg) (xc : XReg) (ui : Bool) :
    Statement (.cnullConst tk xa xb xc ui) := by
  intro h; refine .inl ⟨_, rfl, ?_, ?_, fun w2 => ?_⟩
  · rw [wLS_engWord _ _ _ _ (by simp)]; rfl
  · rw [wOP_engWord _ _ _ _ (by simp)]; rfl
  · show decodeC _ _ = _
    unfold decodeC; rw [wOP_engWord _ _ _ _ (by simp)]
    simp -zeta only [BitVec.toNat_ofNat, Nat.reducePow, Nat.reduceMod]
    simp [decIf, wTK, engWord]
theorem crcp (tk : Tk) (xa : XReg) (xb : XReg) (xc : XReg) (nq : BitVec 4) (ui : Bool) :
    Statement (.crcp tk xa xb xc nq ui) := by
  intro h; simp [Instr.wf, wfByp, wfScope] at h; refine .inl ⟨_, rfl, ?_, ?_, fun w2 => ?_⟩
  · rw [wLS_engWord _ _ _ _ (by simp)]; rfl
  · rw [wOP_engWord _ _ _ _ (by simp)]; rfl
  · show decodeC _ _ = _
    unfold decodeC; rw [wOP_engWord _ _ _ _ (by simp)]
    simp -zeta only [BitVec.toNat_ofNat, Nat.reducePow, Nat.reduceMod]
    simp [decIf, wTK, engWord] <;> simp_all
theorem carm (tk : Tk) (xa : XReg) (xb : XReg) (xc : XReg) (cn : CReg) :
    Statement (.carm tk xa xb xc cn) := by
  intro h; refine .inl ⟨_, rfl, ?_, ?_, fun w2 => ?_⟩
  · rw [wLS_engWord _ _ _ _ (by simp)]; rfl
  · rw [wOP_engWord _ _ _ _ (by simp)]; rfl
  · show decodeC _ _ = _
    unfold decodeC; rw [wOP_engWord _ _ _ _ (by simp)]
    simp -zeta only [BitVec.toNat_ofNat, Nat.reducePow, Nat.reduceMod]
    simp [decIf, wTK, engWord]
theorem cdisarm (tk : Tk) (xa : XReg) :
    Statement (.cdisarm tk xa) := by
  intro h; refine .inl ⟨_, rfl, ?_, ?_, fun w2 => ?_⟩
  · rw [wLS_engWord _ _ _ _ (by simp)]; rfl
  · rw [wOP_engWord _ _ _ _ (by simp)]; rfl
  · show decodeC _ _ = _
    unfold decodeC; rw [wOP_engWord _ _ _ _ (by simp)]
    simp -zeta only [BitVec.toNat_ofNat, Nat.reducePow, Nat.reduceMod]
    simp [decIf, wTK, engWord]
theorem cfence (tk : Tk) (scope : BitVec 4) :
    Statement (.cfence tk scope) := by
  intro h; simp [Instr.wf, wfByp, wfScope] at h; refine .inl ⟨_, rfl, ?_, ?_, fun w2 => ?_⟩
  · rw [wLS_engWord _ _ _ _ (by simp)]; rfl
  · rw [wOP_engWord _ _ _ _ (by simp)]; rfl
  · show decodeC _ _ = _
    unfold decodeC; rw [wOP_engWord _ _ _ _ (by simp)]
    simp -zeta only [BitVec.toNat_ofNat, Nat.reducePow, Nat.reduceMod]
    simp [decIf, wTK, engWord] <;> simp_all
theorem cwaitAll (tk : Tk) :
    Statement (.cwaitAll tk) := by
  intro h; refine .inl ⟨_, rfl, ?_, ?_, fun w2 => ?_⟩
  · rw [wLS_engWord _ _ _ _ (by simp)]; rfl
  · rw [wOP_engWord _ _ _ _ (by simp)]; rfl
  · show decodeC _ _ = _
    unfold decodeC; rw [wOP_engWord _ _ _ _ (by simp)]
    simp -zeta only [BitVec.toNat_ofNat, Nat.reducePow, Nat.reduceMod]
    simp [decIf, wTK, engWord]
theorem cwaitLe (tk : Tk) (xa : XReg) :
    Statement (.cwaitLe tk xa) := by
  intro h; refine .inl ⟨_, rfl, ?_, ?_, fun w2 => ?_⟩
  · rw [wLS_engWord _ _ _ _ (by simp)]; rfl
  · rw [wOP_engWord _ _ _ _ (by simp)]; rfl
  · show decodeC _ _ = _
    unfold decodeC; rw [wOP_engWord _ _ _ _ (by simp)]
    simp -zeta only [BitVec.toNat_ofNat, Nat.reducePow, Nat.reduceMod]
    simp [decIf, wTK, engWord]
theorem cloop (off : BitVec 20) :
    Statement (.cloop off) := by
  intro h; refine .inl ⟨_, rfl, ?_, ?_, fun w2 => ?_⟩
  · rw [wLS_engWord _ _ _ _ (by simp)]; rfl
  · rw [wOP_engWord _ _ _ _ (by simp)]; rfl
  · show decodeC _ _ = _
    unfold decodeC; rw [wOP_engWord _ _ _ _ (by simp)]
    simp -zeta only [BitVec.toNat_ofNat, Nat.reducePow, Nat.reduceMod]
    simp [decIf, wTK, engWord]
theorem cend (tk : Tk) :
    Statement (.cend tk) := by
  intro h; refine .inl ⟨_, rfl, ?_, ?_, fun w2 => ?_⟩
  · rw [wLS_engWord _ _ _ _ (by simp)]; rfl
  · rw [wOP_engWord _ _ _ _ (by simp)]; rfl
  · show decodeC _ _ = _
    unfold decodeC; rw [wOP_engWord _ _ _ _ (by simp)]
    simp -zeta only [BitVec.toNat_ofNat, Nat.reducePow, Nat.reduceMod]
    simp [decIf, wTK, engWord]
theorem nop (len : BitVec 8) :
    Statement (.nop len) := by
  intro h; refine ⟨.nop len, ?_, rfl⟩; simp [Instr.wf] at h; simp [encode, encLaunch, pktHead, words2, words4, decodePacket, packetLen, fmtIf, wordAt, pairAt, quadAt, launchOk, launchArgs, halves64, quarters] <;>
    (intro hl; exact h (BitVec.eq_of_toNat_eq hl))
theorem launch (a : LaunchArgs) :
    Statement (.launch a) := by
  intro h; refine ⟨.launch a, ?_, rfl⟩; simp [Instr.wf] at h; simp [encode, encLaunch, pktHead, words2, words4, decodePacket, packetLen, fmtIf, wordAt, pairAt, quadAt, launchOk, launchArgs, halves64, quarters]
theorem launchm (a : LaunchArgs) (mask : BitVec 128) :
    Statement (.launchm a mask) := by
  intro h; refine ⟨.launchm a mask, ?_, rfl⟩; simp [Instr.wf] at h; simp [encode, encLaunch, pktHead, words2, words4, decodePacket, packetLen, fmtIf, wordAt, pairAt, quadAt, launchOk, launchArgs, halves64, quarters] <;>
    (simpa [zeroBits_eq] using h)
theorem copyP (src : CapBits) (dst : CapBits) (len : BitVec 32) :
    Statement (.copyP src dst len) := by
  intro h; refine ⟨.copyP src dst len, ?_, rfl⟩; simp [Instr.wf] at h; simp [encode, encLaunch, pktHead, words2, words4, decodePacket, packetLen, fmtIf, wordAt, pairAt, quadAt, launchOk, launchArgs, halves64, quarters]
theorem semsigP (sem : BitVec 12) (add : BitVec 64) :
    Statement (.semsigP sem add) := by
  intro h; refine ⟨.semsigP sem add, ?_, rfl⟩; simp [Instr.wf] at h; simp [encode, encLaunch, pktHead, words2, words4, decodePacket, packetLen, fmtIf, wordAt, pairAt, quadAt, launchOk, launchArgs, halves64, quarters]
theorem semwaitP (cond : BitVec 2) (sem : BitVec 12) (value : BitVec 64) :
    Statement (.semwaitP cond sem value) := by
  intro h; refine ⟨.semwaitP cond sem value, ?_, rfl⟩; simp [Instr.wf] at h; simp [encode, encLaunch, pktHead, words2, words4, decodePacket, packetLen, fmtIf, wordAt, pairAt, quadAt, launchOk, launchArgs, halves64, quarters]
theorem qfence (qmask : BitVec 16) (id : BitVec 8) :
    Statement (.qfence qmask id) := by
  intro h; refine ⟨.qfence qmask id, ?_, rfl⟩; simp [Instr.wf] at h; simp [encode, encLaunch, pktHead, words2, words4, decodePacket, packetLen, fmtIf, wordAt, pairAt, quadAt, launchOk, launchArgs, halves64, quarters]
theorem jumpP (obj : BitVec 24) (gen : BitVec 16) (start : BitVec 16) :
    Statement (.jumpP obj gen start) := by
  intro h; refine ⟨.jumpP obj gen start, ?_, rfl⟩; simp [Instr.wf] at h; simp [encode, encLaunch, pktHead, words2, words4, decodePacket, packetLen, fmtIf, wordAt, pairAt, quadAt, launchOk, launchArgs, halves64, quarters]
theorem callP (obj : BitVec 24) (gen : BitVec 16) (start : BitVec 16) :
    Statement (.callP obj gen start) := by
  intro h; refine ⟨.callP obj gen start, ?_, rfl⟩; simp [Instr.wf] at h; simp [encode, encLaunch, pktHead, words2, words4, decodePacket, packetLen, fmtIf, wordAt, pairAt, quadAt, launchOk, launchArgs, halves64, quarters]
theorem returnP : Statement .returnP := by
  intro h; refine ⟨.returnP, ?_, rfl⟩; simp [Instr.wf] at h; simp [encode, encLaunch, pktHead, words2, words4, decodePacket, packetLen, fmtIf, wordAt, pairAt, quadAt, launchOk, launchArgs, halves64, quarters]
theorem irq (vec : BitVec 11) (cookie : BitVec 32) :
    Statement (.irq vec cookie) := by
  intro h; refine ⟨.irq vec cookie, ?_, rfl⟩; simp [Instr.wf] at h; simp [encode, encLaunch, pktHead, words2, words4, decodePacket, packetLen, fmtIf, wordAt, pairAt, quadAt, launchOk, launchArgs, halves64, quarters]
theorem frameBegin (t0 : BitVec 64) (sse : Bool) (ssem : BitVec 12) :
    Statement (.frameBegin t0 sse ssem) := by
  intro h; refine ⟨.frameBegin t0 sse ssem, ?_, rfl⟩; simp [Instr.wf] at h; simp [encode, encLaunch, pktHead, words2, words4, decodePacket, packetLen, fmtIf, wordAt, pairAt, quadAt, launchOk, launchArgs, halves64, quarters]
theorem frameEnd : Statement .frameEnd := by
  intro h; refine ⟨.frameEnd, ?_, rfl⟩; simp [Instr.wf] at h; simp [encode, encLaunch, pktHead, words2, words4, decodePacket, packetLen, fmtIf, wordAt, pairAt, quadAt, launchOk, launchArgs, halves64, quarters]
theorem releaseAt (t : BitVec 64) :
    Statement (.releaseAt t) := by
  intro h; refine ⟨.releaseAt t, ?_, rfl⟩; simp [Instr.wf] at h; simp [encode, encLaunch, pktHead, words2, words4, decodePacket, packetLen, fmtIf, wordAt, pairAt, quadAt, launchOk, launchArgs, halves64, quarters]
theorem itin (ctx : BitVec 8) (obj : BitVec 24) (gen : BitVec 16) (first : BitVec 32) :
    Statement (.itin ctx obj gen first) := by
  intro h; refine ⟨.itin ctx obj gen first, ?_, rfl⟩; simp [Instr.wf] at h; simp [encode, encLaunch, pktHead, words2, words4, decodePacket, packetLen, fmtIf, wordAt, pairAt, quadAt, launchOk, launchArgs, halves64, quarters] <;>
    (exact bits_above _ (by simpa [zeroBits_eq] using h))
theorem gather (rctx : BitVec 4) (obj : BitVec 24) (gen : BitVec 16) (batchN : BitVec 13) (deadline : BitVec 32) (sem : BitVec 12) :
    Statement (.gather rctx obj gen batchN deadline sem) := by
  intro h; refine ⟨.gather rctx obj gen batchN deadline sem, ?_, rfl⟩; simp [Instr.wf] at h; simp [encode, encLaunch, pktHead, words2, words4, decodePacket, packetLen, fmtIf, wordAt, pairAt, quadAt, launchOk, launchArgs, halves64, quarters]
theorem preempt (q : BitVec 4) (all : Bool) (hold : Bool) (plim : BitVec 32) :
    Statement (.preempt q all hold plim) := by
  intro h; refine ⟨.preempt q all hold plim, ?_, rfl⟩; simp [Instr.wf] at h; simp [encode, encLaunch, pktHead, words2, words4, decodePacket, packetLen, fmtIf, wordAt, pairAt, quadAt, launchOk, launchArgs, halves64, quarters] <;>
    (rintro rfl; simpa using h)
theorem setpri (q : BitVec 4) (ceil : BitVec 3) :
    Statement (.setpri q ceil) := by
  intro h; refine ⟨.setpri q ceil, ?_, rfl⟩; simp [Instr.wf] at h; simp [encode, encLaunch, pktHead, words2, words4, decodePacket, packetLen, fmtIf, wordAt, pairAt, quadAt, launchOk, launchArgs, halves64, quarters]
theorem otinv (space : BitVec 9) (all : Bool) (obj : BitVec 24) :
    Statement (.otinv space all obj) := by
  intro h; refine ⟨.otinv space all obj, ?_, rfl⟩; simp [Instr.wf] at h; simp [encode, encLaunch, pktHead, words2, words4, decodePacket, packetLen, fmtIf, wordAt, pairAt, quadAt, launchOk, launchArgs, halves64, quarters] <;>
    (exact h)
theorem move (a : MoveArgs) :
    Statement (.move a) := by
  obtain ⟨wclass, stier, dtier, mc, sobj, sgen, soff, dobj, dgen, len, doff, z, core, die, zoff, due⟩ := a
  intro h; simp [Instr.wf, wfMove] at h; obtain ⟨⟨⟨h1, h2⟩, h3⟩, h4⟩ := h
  have e2 : bits soff 0 6 = 0#6 := by simpa [zeroBits_eq] using h2
  by_cases hd : dtier = 3#2
  · subst hd
    simp at h4; subst h4
    refine ⟨rfl, .move ⟨wclass, stier, 3#2, mc, sobj, sgen, soff, dobj, dgen, len, _, z, core, die, zoff, due⟩, ?_, rfl⟩
    simp [encode, encMove, decodeEntry, resIf, wordAt, moveOk, moveArgs, halves40, bits_bits, h1, h3, e2]
  · simp [hd] at h4; obtain ⟨⟨⟨⟨h5, rfl⟩, rfl⟩, rfl⟩, rfl⟩ := h4
    have e5 : bits doff 0 6 = 0#6 := by simpa [zeroBits_eq] using h5
    refine ⟨rfl, .move ⟨wclass, stier, dtier, mc, sobj, sgen, soff, dobj, dgen, len, doff, _, _, _, _, due⟩, ?_, rfl⟩
    simp [encode, encMove, decodeEntry, resIf, wordAt, moveOk, moveArgs, halves40, bits_bits, h1, h3, e2, e5, hd]
theorem mcast (pmask : BitVec 16) (src : BitVec 4) (grp : BitVec 8) (epoch : BitVec 32) (ackto : BitVec 16) :
    Statement (.mcast pmask src grp epoch ackto) := by
  intro h; refine ⟨rfl, .mcast pmask src grp epoch ackto, ?_, rfl⟩; simp [Instr.wf] at h; simp [encode, encMove, decodeEntry, resIf, wordAt, moveOk, moveArgs, restZero, halves40]
theorem hint (tier : BitVec 2) (obj : BitVec 24) (gen : BitVec 16) (len : BitVec 16) (off : BitVec 40) (at_ : BitVec 24) :
    Statement (.hint tier obj gen len off at_) := by
  intro h; refine ⟨rfl, .hint tier obj gen len off at_, ?_, rfl⟩; simp [Instr.wf] at h; simp [encode, encMove, decodeEntry, resIf, wordAt, moveOk, moveArgs, restZero, halves40] <;>
    (exact h)
theorem waitw (wclass : BitVec 4) (n : BitVec 7) :
    Statement (.waitw wclass n) := by
  intro h; refine ⟨rfl, .waitw wclass n, ?_, rfl⟩; simp [Instr.wf] at h; simp [encode, encMove, decodeEntry, resIf, wordAt, moveOk, moveArgs, restZero, halves40] <;>
    (exact h)
theorem mark (sem : BitVec 12) (fen : Bool) (fsem : BitVec 12) (add : BitVec 32) :
    Statement (.mark sem fen fsem add) := by
  intro h; refine ⟨rfl, .mark sem fen fsem add, ?_, rfl⟩; simp [Instr.wf] at h; simp [encode, encMove, decodeEntry, resIf, wordAt, moveOk, moveArgs, restZero, halves40]
theorem repeatE (target : BitVec 11) (lvl : BitVec 2) (sadv : Bool) (dadv : Bool) (count : BitVec 16) (step : BitVec 16) (stride : BitVec 16) :
    Statement (.repeatE target lvl sadv dadv count step stride) := by
  intro h; refine ⟨rfl, .repeatE target lvl sadv dadv count step stride, ?_, rfl⟩; simp [Instr.wf] at h; simp [encode, encMove, decodeEntry, resIf, wordAt, moveOk, moveArgs, restZero, halves40] <;>
    (omega)
theorem gust (n : BitVec 7) (tick : BitVec 32) :
    Statement (.gust n tick) := by
  intro h; refine ⟨rfl, .gust n tick, ?_, rfl⟩; simp [Instr.wf] at h; simp [encode, encMove, decodeEntry, resIf, wordAt, moveOk, moveArgs, restZero, halves40] <;>
    (refine ⟨?_, h.2⟩; rintro rfl; simp at h)
theorem batch (rctx : BitVec 4) (rebase : Bool) (sem : BitVec 12) (sen : Bool) (tref : BitVec 32) :
    Statement (.batch rctx rebase sem sen tref) := by
  intro h; refine ⟨rfl, .batch rctx rebase sem sen tref, ?_, rfl⟩; simp [Instr.wf] at h; simp [encode, encMove, decodeEntry, resIf, wordAt, moveOk, moveArgs, restZero, halves40]
theorem itinEnd : Statement .itinEnd := by
  intro h; refine ⟨rfl, .itinEnd, ?_, rfl⟩; simp [Instr.wf] at h; simp [encode, encMove, decodeEntry, resIf, wordAt, moveOk, moveArgs, restZero, halves40]
theorem doorbell (die : Nat) (q : Nat) (tail : BitVec 32) :
    Statement (.doorbell die q tail) := by
  intro _; rfl
theorem qctlSkip (die : Nat) (q : Nat) :
    Statement (.qctlSkip die q) := by
  intro _; rfl
theorem qctlRetry (die : Nat) (q : Nat) :
    Statement (.qctlRetry die q) := by
  intro _; rfl
theorem qctlRun (die : Nat) (q : Nat) :
    Statement (.qctlRun die q) := by
  intro _; rfl
theorem qctlReset (die : Nat) (q : Nat) :
    Statement (.qctlReset die q) := by
  intro _; rfl
theorem cpEvict (die : Nat) (slot : Nat) :
    Statement (.cpEvict die slot) := by
  intro _; rfl
theorem cpResume (die : Nat) (slot : Nat) :
    Statement (.cpResume die slot) := by
  intro _; rfl
theorem tecStop (ctx : Nat) :
    Statement (.tecStop ctx) := by
  intro _; rfl
theorem clrLull (ctx : Nat) :
    Statement (.clrLull ctx) := by
  intro _; rfl
theorem rqcStop (rctx : Nat) :
    Statement (.rqcStop rctx) := by
  intro _; rfl
theorem restore (port : Nat) :
    Statement (.restore port) := by
  intro _; rfl
theorem rstCtlReset : Statement .rstCtlReset := by
  intro _; rfl
theorem pwrReqOn : Statement .pwrReqOn := by
  intro _; rfl
theorem pwrReqStandby : Statement .pwrReqStandby := by
  intro _; rfl
theorem pwrReqOff : Statement .pwrReqOff := by
  intro _; rfl
theorem fpPush (die : Nat) (value : BitVec 64) :
    Statement (.fpPush die value) := by
  intro _; rfl
theorem registerWrite (off : Nat) (value : BitVec 64) :
    Statement (.registerWrite off value) := by
  intro _; rfl
theorem powerOn : Statement .powerOn := by
  intro _; rfl
theorem perst : Statement .perst := by
  intro _; rfl
theorem bootPhase (o : BootOutcome) :
    Statement (.bootPhase o) := by
  intro _; rfl
theorem frameTick : Statement .frameTick := by
  intro _; rfl
theorem deadlineClose (rctx : Nat) :
    Statement (.deadlineClose rctx) := by
  intro _; rfl
theorem overrun (die : Nat) (launch : Nat) :
    Statement (.overrun die launch) := by
  intro _; rfl
theorem frameRelease (die : Nat) (launch : Nat) :
    Statement (.frameRelease die launch) := by
  intro _; rfl
theorem releaseTick (die : Nat) (q : Nat) :
    Statement (.releaseTick die q) := by
  intro _; rfl
theorem gustRelease (ctx : Nat) :
    Statement (.gustRelease ctx) := by
  intro _; rfl
theorem powerWindow (watts : Nat) :
    Statement (.powerWindow watts) := by
  intro _; rfl
theorem idleEnter : Statement .idleEnter := by
  intro _; rfl
theorem counterCommit : Statement .counterCommit := by
  intro _; rfl
theorem tokenDeadlock (core : Nat) :
    Statement (.tokenDeadlock core) := by
  intro _; rfl
theorem arrayGrant (quad : Nat) :
    Statement (.arrayGrant quad) := by
  intro _; rfl
theorem watchdogRun (die : Nat) (slot : Nat) :
    Statement (.watchdogRun die slot) := by
  intro _; rfl
theorem watchdogStall (die : Nat) (slot : Nat) :
    Statement (.watchdogStall die slot) := by
  intro _; rfl
theorem watchdogQueue (die : Nat) (q : Nat) :
    Statement (.watchdogQueue die q) := by
  intro _; rfl
theorem preemptOverdue (die : Nat) (slot : Nat) (cycles : Nat) :
    Statement (.preemptOverdue die slot cycles) := by
  intro _; rfl
theorem crewDispatch (die : Nat) :
    Statement (.crewDispatch die) := by
  intro _; rfl
theorem sweepDone (core : Nat) :
    Statement (.sweepDone core) := by
  intro _; rfl
theorem safePointSave (die : Nat) (slot : Nat) :
    Statement (.safePointSave die slot) := by
  intro _; rfl
theorem crewRestore (die : Nat) (slot : Nat) :
    Statement (.crewRestore die slot) := by
  intro _; rfl
theorem writeOut (o : HeldObj) :
    Statement (.writeOut o) := by
  intro _; rfl
theorem lineFill (die : Nat) (h : Handle) (line : Nat) :
    Statement (.lineFill die h line) := by
  intro _; rfl
theorem copyComplete (core : Nat) (slot : Nat) :
    Statement (.copyComplete core slot) := by
  intro _; rfl
theorem landingDone (ctx : Nat) :
    Statement (.landingDone ctx) := by
  intro _; rfl
theorem uiDelivery (core : Nat) :
    Statement (.uiDelivery core) := by
  intro _; rfl
theorem faultEntry (die : Nat) (slot : Nat) :
    Statement (.faultEntry die slot) := by
  intro _; rfl
theorem frameReturn (die : Nat) :
    Statement (.frameReturn die) := by
  intro _; rfl
theorem launchComplete (die : Nat) (launch : Nat) :
    Statement (.launchComplete die launch) := by
  intro _; rfl
theorem shardFlit (epoch : BitVec 32) (k : Nat) (granules : List (BitVec 512)) :
    Statement (.shardFlit epoch k granules) := by
  intro _; rfl
theorem ackFlit (epoch : BitVec 32) (k : Nat) (pkg : Nat) :
    Statement (.ackFlit epoch k pkg) := by
  intro _; rfl
theorem failureFlit (epoch : BitVec 32) (k : Nat) (status : Nat) :
    Statement (.failureFlit epoch k status) := by
  intro _; rfl
theorem removalFlit (epoch : BitVec 32) (pkg : Nat) :
    Statement (.removalFlit epoch pkg) := by
  intro _; rfl
theorem endOfStream (epoch : BitVec 32) :
    Statement (.endOfStream epoch) := by
  intro _; rfl
theorem acktoSource (ctx : Nat) (k : Nat) (pkg : Nat) :
    Statement (.acktoSource ctx k pkg) := by
  intro _; rfl
theorem acktoMember (ctx : Nat) :
    Statement (.acktoMember ctx) := by
  intro _; rfl
theorem completionTimeout (port : Nat) :
    Statement (.completionTimeout port) := by
  intro _; rfl
theorem cxlCompletion (port : Nat) (n : Nat) (r : CxlResult) :
    Statement (.cxlCompletion port n r) := by
  intro _; rfl
theorem hostReadTimeout (die : Nat) (q : Nat) :
    Statement (.hostReadTimeout die q) := by
  intro _; rfl
theorem flitReplay (l : Link) :
    Statement (.flitReplay l) := by
  intro _; rfl
theorem ovlanLinkDown (port : Nat) :
    Statement (.ovlanLinkDown port) := by
  intro _; rfl
theorem boundaryDown (b : Nat) :
    Statement (.boundaryDown b) := by
  intro _; rfl
theorem thermalFreeze (dev : Nat) (temp : BitVec 8) :
    Statement (.thermalFreeze dev temp) := by
  intro _; rfl
theorem thermalResume (temps : List (Nat × BitVec 8)) :
    Statement (.thermalResume temps) := by
  intro _; rfl
theorem mcWrite (ctrl : Nat) :
    Statement (.mcWrite ctrl) := by
  intro _; rfl
theorem mcRead (ctrl : Nat) (gran : Nat) (dom : BitVec 6) :
    Statement (.mcRead ctrl gran dom) := by
  intro _; rfl
theorem entryDrain (ctrl : Nat) :
    Statement (.entryDrain ctrl) := by
  intro _; rfl
theorem drainAge (ctrl : Nat) :
    Statement (.drainAge ctrl) := by
  intro _; rfl
theorem promoteC2 (ctrl : Nat) :
    Statement (.promoteC2 ctrl) := by
  intro _; rfl
theorem scrubRead (ctrl : Nat) (gran : Nat) :
    Statement (.scrubRead ctrl gran) := by
  intro _; rfl
theorem readCounter (counter : Nat) (inst : Nat) (bin : Nat) :
    Statement (.readCounter counter inst bin) := by
  intro _; rfl
theorem getCert (cert : Nat) (off : Nat) :
    Statement (.getCert cert off) := by
  intro _; rfl
theorem attest (nonce : BitVec 256) :
    Statement (.attest nonce) := by
  intro _; rfl
theorem getLog (first : Nat) (n : Nat) :
    Statement (.getLog first n) := by
  intro _; rfl
theorem debugRead (o : DebugObj) (g : BitVec 16) :
    Statement (.debugRead o g) := by
  intro _; rfl
theorem rawRead (o : DebugObj) :
    Statement (.rawRead o) := by
  intro _; rfl
theorem debugWrite (o : DebugObj) (off : Nat) (bytes : List Byte) :
    Statement (.debugWrite o off bytes) := by
  intro _; rfl
theorem fwStage (kind : Nat) (pa : Nat) :
    Statement (.fwStage kind pa) := by
  intro _; rfl
theorem fwCommit (kind : Nat) :
    Statement (.fwCommit kind) := by
  intro _; rfl
theorem setEndpointId (i3c : Bool) (id : BitVec 8) :
    Statement (.setEndpointId i3c id) := by
  intro _; rfl
theorem unknownCommand (cmd : BitVec 8) :
    Statement (.unknownCommand cmd) := by
  intro _; rfl
theorem linkRetrained (l : Link) :
    Statement (.linkRetrained l) := by
  intro _; rfl
theorem powerLoss : Statement .powerLoss := by
  intro _; rfl
theorem hostWindowAccess (wr : Bool) (pa : Nat) (dom : BitVec 6) (bytes : List Byte) (n : Nat) :
    Statement (.hostWindowAccess wr pa dom bytes n) := by
  intro _; rfl
theorem accessPerformed (core : Nat) :
    Statement (.accessPerformed core) := by
  intro _; rfl
theorem matrixFinish (core : Nat) :
    Statement (.matrixFinish core) := by
  intro _; rfl
theorem moveComplete (ctx : Nat) (idx : Nat) :
    Statement (.moveComplete ctx idx) := by
  intro _; rfl
theorem scrubWriteback (ctrl : Nat) :
    Statement (.scrubWriteback ctrl) := by
  intro _; rfl

end Sys2Proof.Laws.RoundTrip
end

