-- ==== Sys2Proof/Tests/Slice0.lean ====
section
/-! SUPPORT. Tests: what is ill-formed is refused, words of the spec decode, small steps, and a witness for each
statement's hypotheses. -/
namespace Sys2Proof.Tests
open Sys2Proof Sys2Proof.Machine Sys2Proof.Safety

set_option Elab.async false

/-! ## States -/

/-- Registers that a strand has written at its generation 1, from number `n` on. -/
def xsFrom (n : Nat) : List DWord → FMap XVal
  | [] => []
  | v :: r => (n, { gen := 1, val := v }) :: xsFrom (n + 1) r

/-- Such registers by number. -/
def xs (l : List (Nat × DWord)) : FMap XVal := l.map fun p => (p.1, { gen := 1, val := p.2 })

/-- A capability for all rights to an object's bytes. -/
def capOf (obj len : Nat) : CapBits :=
  setBits (setBits (setBits (setBits 0#128 40 40 (BitVec.ofNat 40 len)) 80 8 0xFF#8) 88 16 1#16) 104 24 (BitVec.ofNat 24 obj)

/-- An object table entry of 2^30 bytes of a kind, at a base, with a sidecar. -/
def entryOf (kind base side : Nat) : BitVec 256 :=
  setBits (setBits (setBits (setBits (setBits (setBits 0#256 0 1 1#1) 1 2 (BitVec.ofNat 2 kind)) 48 16 1#16)
    64 40 (BitVec.ofNat 40 (2 ^ 30))) 128 64 (BitVec.ofNat 64 base)) 192 64 (BitVec.ofNat 64 side)

/-- A strand whose stream `e` has done its tk_pop. -/
def strand (e : Engine) : Strand :=
  let st : Strand := { lineStrand e with cgen := 1 }
  setStream { st with
    r := { st.r with
      x := xsFrom 1 ([7, 0xFFFFFFFFFFFFFFF5, 104, 60, 3, 0, 0x400, 0x1000, 64, 512, 128, 0x2000, 1, 8192] ++
        [0x8000, 0x10000, 983040, 16, 1048568, 262136, 0x8000000000000000])
      c := [(0, { gen := 1, val := capOf 3 1048576 }), (4, { gen := 1, val := capOf 4 1048576 }),
        (5, { gen := 1, val := capOf 5 1048576 })]
      p := [(1, { gen := 1, val := 0x5555#1024 }), (2, { gen := 1, val := 0#1024 })]
      v := [(1, { gen := 1, fmt := 7, val := 0x40000000C0000000#4096 }), (2, { gen := 1, fmt := 7, val := 0x3F800000#4096 }),
        (3, { gen := 1, fmt := 7, val := 0#4096 }), (4, { gen := 1, fmt := 1, val := 0x7F80#4096 }),
        (5, { gen := 1, fmt := 8, val := 0x3F80#4096 })] } } e
    { streamOf st e with popped := true }

/-- A machine on whose core 0 the stream `e` of a strand acts. -/
def machine (e : Engine) (st : Strand) : State :=
  let s := placeLine State.reset e 0
  let tr := fun (obj : Nat) (e : BitVec 256) (pe : BitVec 64) =>
    ({ space := 0, obj := obj, page := 0, e := e, pe := pe } : Trans)
  { s with
    inForce := mapPut s.inForce 0 { spaceAt s 0 with v := true }
    mem := memPut (memPut s.mem 0x210000 (toBytes 8 (BitVec.ofNat 64 (78 * 8192 + 1)))) 0x200008
      (toBytes 8 (BitVec.ofNat 64 (79 * 8192 + 1)))
    strands := mapPut s.strands 0 st
    dies := mapPut s.dies 0 { dieAt s 0 with
      pool := [501, 502]
      sems := [(7, 3)]
      tc := [tr 3 (entryOf 0 0x300000000 0) 0, tr 4 (entryOf 2 0x200000 0x300000) 0,
        { tr 4 (entryOf 2 0x200000 0x300000) (BitVec.ofNat 64 (79 * 8192 + 1)) with page := 1 },
        tr 5 (entryOf 1 0x210000 0) (BitVec.ofNat 64 (78 * 8192 + 1))] }
    cur := .stream 0 e
    schedule := []
    grp := { s.grp with next := 4 } }

/-- Such a stream is poised: its tk_pop is done. -/
theorem poised (e : Engine) (st : Strand) (h : (streamOf st e).popped = true) (h2 : (streamOf st e).push = none)
    (h3 : (streamOf st e).pat = 0#32) : Poised (machine e st) 0 e 0#4 (machine e st) st := by
  refine ⟨rfl, ⟨st, rfl, ?_, ?_⟩, h2⟩
  · rw [show patOf st e 0#4 = 0#32 from (if_pos h).trans h3]
    cases e <;> decide
  · unfold popStep
    simp [h]

abbrev sS : Strand := strand .S
abbrev mS : State := machine .S sS

theorem poisedS : Poised mS 0 .S 0#4 mS sS := poised _ _ rfl rfl rfl

/-- Whether a check gives a value. -/
def gives {α : Type} [DecidableEq α] (a : Chk α) (v : α) : Bool :=
  match a with
  | .ok x => decide (x = v)
  | .error _ => false

theorem ok_of {α : Type} [DecidableEq α] {a : Chk α} {v : α} (h : gives a v = true) : a = .ok v := by
  cases a <;> simp_all [gives]

/-- The results of the partial operations that go on. -/
def excVal {ε α : Type} : Except ε α → Option α
  | .ok x => some x
  | .error _ => none
def accVal : Acc → Option (List Byte × State)
  | .ok l t => some (l, t)
  | _ => none
def readsVal : Reads → Option (List (List Byte) × State)
  | .ok l t => some (l, t)
  | _ => none
def cpVal : CpAcc → Option (List Byte × State)
  | .ok l t => some (l, t)
  | _ => none
def lresVal {α : Type} : LRes α → Option (α × State)
  | .ok l t => some (l, t)
  | _ => none
def finVal : Eff → Option State
  | .fin t => some t
  | _ => none
def storedVal : Eff → Option State
  | .stored t => some t
  | _ => none

/-- What an operation gives exists where a test of it, evaluated, holds. -/
theorem found {β γ : Type} (un : β → Option γ) (mk : γ → β) (inv : ∀ b c, un b = some c → b = mk c) {b : β} {p : γ → Bool}
    (h : (un b).any p = true) : ∃ c, b = mk c ∧ p c = true := by
  obtain ⟨c, hc, hp⟩ := (Option.any_eq_true _ _).1 h
  exact ⟨c, inv b c hc, hp⟩

theorem chk_ok {ε α : Type} {a : Except ε α} {p : α → Bool} (h : (excVal a).any p = true) : ∃ x, a = .ok x ∧ p x = true :=
  found excVal .ok (fun b c e => by cases b <;> simp_all [excVal]) h

theorem acc_ok {a : Acc} {p : List Byte → State → Bool} (h : (accVal a).any (fun c => p c.1 c.2) = true) :
    ∃ l t, a = .ok l t ∧ p l t = true := by
  obtain ⟨c, hc⟩ := found accVal (fun c => .ok c.1 c.2) (fun b c e => by cases b <;> simp_all [accVal] <;> simp [← e]) h
  exact ⟨c.1, c.2, hc⟩

theorem pair_ok {α ε : Type} {a : Except ε α × State} {p : α → State → Bool}
    (h : (excVal a.1).any (fun x => p x a.2) = true) : ∃ x t, a = (.ok x, t) ∧ p x t = true := by
  obtain ⟨x, hx, hp⟩ := chk_ok h
  exact ⟨x, a.2, Prod.ext hx rfl, hp⟩

theorem reads_ok {a : Reads} {p : List (List Byte) → State → Bool} (h : (readsVal a).any (fun c => p c.1 c.2) = true) :
    ∃ l t, a = .ok l t ∧ p l t = true := by
  obtain ⟨c, hc⟩ := found readsVal (fun c => .ok c.1 c.2) (fun b c e => by cases b <;> simp_all [readsVal] <;> simp [← e]) h
  exact ⟨c.1, c.2, hc⟩

theorem cp_ok {a : CpAcc} {p : List Byte → State → Bool} (h : (cpVal a).any (fun c => p c.1 c.2) = true) :
    ∃ l t, a = .ok l t ∧ p l t = true := by
  obtain ⟨c, hc⟩ := found cpVal (fun c => .ok c.1 c.2) (fun b c e => by cases b <;> simp_all [cpVal] <;> simp [← e]) h
  exact ⟨c.1, c.2, hc⟩

theorem lres_ok {α : Type} {a : LRes α} {p : α → State → Bool} (h : (lresVal a).any (fun c => p c.1 c.2) = true) :
    ∃ l t, a = .ok l t ∧ p l t = true := by
  obtain ⟨c, hc⟩ := found lresVal (fun c => .ok c.1 c.2) (fun b c e => by cases b <;> simp_all [lresVal] <;> simp [← e]) h
  exact ⟨c.1, c.2, hc⟩

theorem eff_fin {a : Eff} {p : State → Bool} (h : (finVal a).any p = true) : ∃ t, a = .fin t ∧ p t = true :=
  found finVal .fin (fun b c e => by cases b <;> simp_all [finVal]) h

theorem eff_stored {a : Eff} {p : State → Bool} (h : (storedVal a).any p = true) : ∃ t, a = .stored t ∧ p t = true :=
  found storedVal .stored (fun b c e => by cases b <;> simp_all [storedVal]) h

theorem opt_ok {α : Type} {a : Option α} {p : α → Bool} (h : a.any p = true) : ∃ x, a = some x ∧ p x = true :=
  found id some (fun _ _ e => e) h

/-- A strand stands on core 0. -/
def hasStrand (s : State) : Bool := (strandAt s 0).isSome

/-! ## Witnesses: the scalar stream -/

theorem witness_ScalarRegisterArithmetic : Poised mS 0 .S 0#4 mS sS ∧ readX sS .S 5#5 = .ok 3#64 ∧
    readX sS .S 2#5 = .ok 0xFFFFFFFFFFFFFFF5#64 := ⟨poisedS, rfl, rfl⟩

theorem witness_ScalarImmediates : Poised mS 0 .S 0#4 mS sS ∧ readX sS .S 21#5 = .ok 0x8000000000000000#64 :=
  ⟨poisedS, rfl⟩

theorem witness_CapabilityDerivation : Poised mS 0 .S 0#4 mS sS ∧ readC sS 0#4 = .ok (capOf 3 1048576) ∧
    readX sS .S 16#5 = .ok 0x10000#64 ∧ readX sS .S 17#5 = .ok 983040#64 ∧ hasRight (capOf 3 1048576) .d = true ∧
    0 ≤ (0x10000#64).toInt ∧ (0x10000#64).toInt + (983040#64).toNat ≤ capLen (capOf 3 1048576) :=
  ⟨poisedS, rfl, rfl, rfl, by decide +kernel, by decide +kernel, by decide +kernel⟩

theorem witness_LoadsAndStores_load : Poised mS 0 .S 0#4 mS sS ∧ readX sS .S 19#5 = .ok 1048568#64 ∧
    smAddr mS sS 0#4 1048568#64 0#6 8 .r = .ok (capOf 3 1048576, 1048568) ∧
    (∃ l s2, portRead mS 0 sS (readerOf sS .S) (capObj (capOf 3 1048576)) (capOgen (capOf 3 1048576)) 1048568 8 = .ok l s2 ∧
      hasStrand s2 = true) :=
  ⟨poisedS, rfl, ok_of (by decide +kernel), acc_ok (by decide +kernel)⟩

theorem witness_LoadsAndStores_store : Poised mS 0 .S 0#4 mS sS ∧ readX sS .S 5#5 = .ok 3#64 ∧
    readX sS .S 19#5 = .ok 1048568#64 ∧ smAddr mS sS 0#4 1048568#64 0#6 8 .w = .ok (capOf 3 1048576, 1048568) ∧
    (∃ u s2, portWrite (setStrand mS 0 (beginStore sS .S).2) 0 .S none false (beginStore sS .S).1 (capObj (capOf 3 1048576))
      (capOgen (capOf 3 1048576)) 1048568 (toBytes 8 3#64) = (.ok u, s2) ∧ hasStrand s2 = true) :=
  ⟨poisedS, rfl, rfl, ok_of (by decide +kernel), pair_ok (by decide +kernel)⟩

theorem witness_Scratchpad : Poised mS 0 .S 0#4 mS sS ∧ readX sS .S 20#5 = .ok 262136#64 ∧ readX sS .S 5#5 = .ok 3#64 ∧
    spCheck (spAddr mS 262136#64 0#7 8).toNat 8 = .ok 262136 ∧
    spRead mS 0 sS.cgen sS.gtrap 262136 8 = .ok (List.replicate 8 0#8) ∧
    cwCheck mS sS (spAddr mS 262136#64 0#7 8) 8 = .ok (0, 1#16, false, 262136) :=
  ⟨poisedS, rfl, rfl, ok_of (by decide +kernel), ok_of (by decide +kernel), ok_of (by decide +kernel)⟩

theorem witness_AtomicOperations_global : Poised mS 0 .S 0#4 mS sS ∧ readX sS .S 6#5 = .ok 0#64 ∧
    readX sS .S 2#5 = .ok 0xFFFFFFFFFFFFFFF5#64 ∧ readX sS .S 5#5 = .ok 3#64 ∧
    capCheck sS 0#4 0#64 8 .a = .ok (capOf 3 1048576, 0) ∧
    (∃ old s2, portRead mS 0 sS { readerOf sS .S with rmw := true } 3 1 0 8 = .ok old s2 ∧
      (match translateIn s2 true (dieOf 0) (spaceOf s2 sS) 3 1 0 8 with
      | (.ok pl, s3) => pl.zmask.isNone && (amoBytes .cas 8 old 0xFFFFFFFFFFFFFFF5#64 3#64).isNone &&
        (match amoBytes .cas 8 old 0xFFFFFFFFFFFFFFF5#64 0#64 with
         | some l =>
           let r := atomicWrite s3 sS.sid pl (maskOf (pl.pa % 64) l.length) (granPut 0#512 (pl.pa % 64) l)
           r.1 && hasStrand r.2
         | none => false)
      | _ => false) = true) :=
  ⟨poisedS, rfl, rfl, rfl, ok_of (by decide +kernel), acc_ok (by decide +kernel)⟩

theorem witness_AtomicOperations_scratchpad : Poised mS 0 .S 0#4 mS sS ∧ readX sS .S 20#5 = .ok 262136#64 ∧
    readX sS .S 5#5 = .ok 3#64 ∧ readX sS .S 6#5 = .ok 0#64 ∧ cwCheck mS sS 262136#64 8 = .ok (0, 1#16, false, 262136) ∧
    spCheck (262136#64).toNat 4 = .ok 262136 ∧ spRead mS 0 1#16 false 262136 8 = .ok (List.replicate 8 0#8) ∧
    amoBytes .cas 8 (List.replicate 8 0#8) 3#64 0#64 = some [3#8, 0, 0, 0, 0, 0, 0, 0] ∧
    amoBytes .cas 8 (List.replicate 8 0#8) 3#64 3#64 = none := by
  refine ⟨poisedS, rfl, rfl, rfl, ?_, ?_, ?_, ?_, ?_⟩ <;>
    first | decide +kernel | exact ok_of (by decide +kernel)

theorem witness_ScalarTransfers : Poised mS 0 .S 0#4 mS sS ∧ readX sS .S 4#5 = .ok 60#64 ∧ readX sS .S 5#5 = .ok 3#64 ∧
    checkRel mS sS .S 15#10 = .ok 60#32 ∧ checkRel mS sS .S 15#20 = .ok 60#32 ∧ checkTarget mS sS .S 60 = .ok 60#32 :=
  ⟨poisedS, rfl, rfl, ok_of (by decide +kernel), ok_of (by decide +kernel), ok_of (by decide +kernel)⟩

/-- A stream of S before its tk_pop: queue 4 holds a token, queue 8 fourteen; patterns 1 and 2. -/
def sTok : Strand :=
  { setStream sS .S { streamOf sS .S with popped := false } with
    toks := [(4, [{}]), (8, List.replicate 14 {}), (1, List.replicate 14 {})]
    sys := { sS.sys with tkp := [(1, 0x00020110), (2, 0x00001000)] } }

theorem calm_sTok : Calm sTok := ⟨rfl, rfl, rfl, fun e => by cases e <;> rfl⟩

theorem witness_Tokens : (machine .S sTok).cur = .stream 0 .S ∧ strandAt (machine .S sTok) 0 = some sTok ∧ Calm sTok ∧
    (streamOf sTok .S).tr = none ∧ (streamOf sTok .S).popped = false ∧ canPop sTok 0x0110#16 = true ∧
    canPush sTok 0x0002#16 = true ∧ (14#4).toNat ≤ tkCount sTok (8#4).toNat ∧ patternOk .S (patternOf sTok 1#4) = true ∧
    canPop sTok (popOf (patternOf sTok 1#4)) = true ∧ canPush sTok (pushOf (patternOf sTok 1#4)) = true ∧
    patternOk .S (patternOf sTok 2#4) = true ∧ canPop sTok (popOf (patternOf sTok 2#4)) = false := by
  refine ⟨rfl, rfl, calm_sTok, rfl, rfl, ?_, ?_, ?_, ?_, ?_, ?_, ?_, ?_⟩ <;> decide +kernel

/-- A stream of V, M or C before its tk_pop: pattern 1 pops queue `a` and pushes `b`; pattern 2 pops the empty queue `c`. -/
def sToks (e : Engine) (a b c : Nat) : Strand :=
  { setStream (strand e) e { streamOf (strand e) e with popped := false } with
    toks := [(a, [{}])]
    sys := { sS.sys with tkp := [(1, BitVec.ofNat 32 (2 ^ a + 2 ^ (16 + b))), (2, BitVec.ofNat 32 (2 ^ c))] } }

theorem witness_Tokens_engines : ∀ p ∈ [(Engine.V, 9, 4, 13), (.M, 6, 8, 2), (.C, 3, 12, 7)],
    let st := sToks p.1 p.2.1 p.2.2.1 p.2.2.2
    (machine p.1 st).cur = .stream 0 p.1 ∧ strandAt (machine p.1 st) 0 = some st ∧ Calm st ∧ (streamOf st p.1).tr = none ∧
    (streamOf st p.1).popped = false ∧ patternOk p.1 (patternOf st 1#4) = true ∧
    canPop st (popOf (patternOf st 1#4)) = true ∧ canPush st (pushOf (patternOf st 1#4)) = true ∧
    patternOk p.1 (patternOf st 2#4) = true ∧ canPop st (popOf (patternOf st 2#4)) = false ∧
    serialBusy st = false ∧ matsDone st = true ∧ slotFree st = true ∧ st.copies = [] := by
  intro p h
  simp only [List.mem_cons, List.not_mem_nil, or_false] at h
  rcases h with rfl | rfl | rfl <;>
    refine ⟨rfl, rfl, ⟨rfl, rfl, rfl, fun e => by cases e <;> rfl⟩, rfl, rfl, ?_, ?_, ?_, ?_, ?_, ?_, ?_, ?_, rfl⟩ <;>
      decide +kernel

theorem witness_SemaphoreInstructions : Poised mS 0 .S 0#4 mS sS ∧ readX sS .S 1#5 = .ok 7#64 ∧
    readX sS .S 5#5 = .ok 3#64 ∧ coveredPending sS .S 3 (boundIs 7#64) = false ∧ semOf mS (crewDie sS.crew) 7 = 3#64 ∧
    readX sS .S 9#5 = .ok 64#64 ∧ (semOf mS (crewDie sS.crew) 7).toNat < (64#64).toNat ∧
    semOf mS (crewDie sS.crew) 7 ≠ 64#64 :=
  ⟨poisedS, rfl, rfl, by decide +kernel, by decide +kernel, rfl, by decide +kernel, by decide +kernel⟩

theorem witness_Bindings : Poised mS 0 .S 0#4 mS sS ∧ readX sS .S 16#5 = .ok 0x10000#64 ∧
    readX sS .S 17#5 = .ok 983040#64 ∧ readX sS .S 1#5 = .ok 7#64 ∧
    bindRegion sS 0#4 0x10000#64 983040#64 = .ok (capOf 3 1048576, 0x10000) :=
  ⟨poisedS, rfl, rfl, rfl, ok_of (by decide +kernel)⟩

/-- A group of every crew of the launch at its first four ranks, and one live set. -/
def mGroup : State :=
  { mS with launches := mS.launches.map fun p => (p.1, { p.2 with
      groups := [(3, 0x8000FFFF00FF000000FF000000FF0000#128)]
      k := { p.2.k with live := [0, 1] } }) }

/-- The same with the strand in its crew's barrier. -/
def sBar : Strand := setStream sS .S { streamOf sS .S with arrived := true }

theorem poisedGroup : Poised mGroup 0 .S 0#4 mGroup sS :=
  ⟨rfl, ⟨sS, rfl, by decide +kernel, rfl⟩, rfl⟩

theorem witness_Synchronisation : Poised mGroup 0 .S 0#4 mGroup sS ∧ readX sS .S 1#5 = .ok 7#64 ∧
    coveredPending sS .S (4#3).toNat (boundIs (objName 7#64)) = false ∧
    coveredPending sS .S (groupScope mGroup sS (3#8).toNat) (fun _ => true) = false ∧
    (∃ c l, crewLaunch mGroup sS = some (c, l) ∧ groupHas (mapGet 0#128 l.groups 3) c.coord sS.rank = true) ∧
    arrivalOpen mGroup sS 3 = false :=
  ⟨poisedGroup, rfl, by decide +kernel, by decide +kernel, ⟨_, _, rfl, by decide +kernel⟩, by decide +kernel⟩

theorem witness_Synchronisation_barrier : Poised (machine .S sBar) 0 .S 0#4 (machine .S sBar) sBar ∧
    (∃ c l, crewLaunch (machine .S sBar) sBar = some (c, l) ∧ c.barArr.contains sBar.rank = false) ∧
    (streamOf sBar .S).arrived = true :=
  ⟨poised _ _ rfl rfl rfl, ⟨_, _, rfl, by decide +kernel⟩, rfl⟩

/-- A crew of two, whose other member has arrived, or stands on core 1 and has not. -/
def mCbar (arr : List Nat) : State :=
  { mS with
    crews := mS.crews.map fun p => (p.1, { p.2 with
      size := 2
      barArr := arr })
    strands := mapPut mS.strands 1 { sS with rank := 1 } }

theorem witness_Synchronisation_arrival : ∀ arr ∈ [[], [1]], Poised (mCbar arr) 0 .S 0#4 (mCbar arr) sS ∧
    (∃ c l, crewLaunch (mCbar arr) sS = some (c, l) ∧ c.size ≠ 0 ∧ c.barArr = arr ∧ c.barArr.contains sS.rank = false) ∧
    (streamOf sS .S).arrived = false ∧ coveredPending sS .S 1 (fun _ => true) = false ∧
    barrierMissing (mCbar arr) sS.crew (arr ++ [sS.rank]) = decide (arr = []) := by
  intro arr h
  simp only [List.mem_cons, List.not_mem_nil, or_false] at h
  rcases h with rfl | rfl <;>
    exact ⟨⟨rfl, ⟨sS, rfl, by decide +kernel, rfl⟩, rfl⟩, ⟨_, _, rfl, by decide, rfl, by decide +kernel⟩, rfl,
      by decide +kernel, by decide +kernel⟩

theorem witness_SystemRegisters : Poised mGroup 0 .S 0#4 mGroup sS ∧ (∃ c, crewAt mGroup sS.crew = some c ∧ c.size = 0) ∧
    readX sS .S 13#5 = .ok 1#64 ∧ readX sS .S 9#5 = .ok 64#64 ∧ readX sS .S 12#5 = .ok 0x2000#64 ∧
    (1#12).toNat < (liveOf mGroup sS).length ∧ preemptPending mGroup sS = false :=
  ⟨poisedGroup, ⟨_, rfl, rfl⟩, rfl, rfl, rfl, by decide +kernel, by decide +kernel⟩

/-- A supervisor's strand. -/
def sSup : Strand := { sS with super := true }

theorem witness_SystemRegisters_supervisor : Poised (machine .S sSup) 0 .S 0#4 (machine .S sSup) sSup ∧ sSup.super = true ∧
    (∃ c, crewAt (machine .S sSup) sSup.crew = some c ∧ c.space = 0) :=
  ⟨poised _ _ rfl rfl rfl, rfl, ⟨_, rfl, rfl⟩⟩

/-- The same crew asked to stop. -/
def mAsked : State := { mGroup with crews := mGroup.crews.map fun p => (p.1, { p.2 with preq := some 0 }) }

theorem witness_SystemRegisters_safePoint : Poised mAsked 0 .S 0#4 mAsked sS ∧ (1#12).toNat < (liveOf mAsked sS).length ∧
    preemptPending mAsked sS = true ∧ sS.sys.uistat.getLsbD 1 = false ∧ (streamOf sS .S).tr = none ∧
    canPush sS (pushOf (patOf sS .S 0#4)) = true := by
  refine ⟨⟨rfl, ⟨sS, rfl, ?_, rfl⟩, rfl⟩, ?_, ?_, ?_, rfl, ?_⟩ <;> decide +kernel

/-- A stream with UIVEC 4, UIEPC 8 and a UISTAT. -/
def sUi (stat : BitVec 32) : Strand :=
  { sS with sys := { sS.sys with uivec := 4, uiepc := 8, uistat := stat } }

theorem witness_UserTraps : ∀ stat ∈ [0#32, 2#32, 0x12#32], Poised (machine .S (sUi stat)) 0 .S 0#4 (machine .S (sUi stat)) (sUi stat) ∧
    (sUi stat).sys.uivec.extractLsb' 2 30 ≠ 0#30 ∧ (sUi stat).sys.uistat = stat ∧
    checkTarget (machine .S (sUi stat)) (sUi stat) .S (sUi stat).sys.uivec.toNat = .ok 4#32 ∧
    checkTarget (machine .S (sUi stat)) (sUi stat) .S (sUi stat).sys.uiepc.toNat = .ok 8#32 := by
  intro stat h
  simp only [List.mem_cons, List.not_mem_nil, or_false] at h
  rcases h with rfl | rfl | rfl <;>
    exact ⟨poised _ _ rfl rfl rfl, by decide +kernel, rfl, ok_of (by decide +kernel), ok_of (by decide +kernel)⟩

/-- A strand of two streams, of which `e` is poised. -/
def sTwo (e f : Engine) : Strand := setStream (strand e) f { streamOf (strand e) f with st := .issuing }

theorem witness_StreamEnds : ∀ p ∈ [(Engine.S, Engine.V), (.V, .S), (.M, .V), (.C, .M)],
    let st := sTwo p.1 p.2
    let s := machine p.1 st
    p.1 ≠ p.2 ∧ Poised s 0 p.1 0#4 s st ∧ (streamOf st p.2).st ≠ .ended ∧ (streamOf st p.2).push = none ∧
    (streamOf st p.1).tr = none ∧ st.copyPush = [] ∧ st.mats = [] ∧ canPush st (pushOf (patOf st p.1 0#4)) = true ∧
    needsXsync s st = false ∧ MatsDone s 0 := by
  intro p hp
  simp only [List.mem_cons, List.not_mem_nil, or_false] at hp
  rcases hp with rfl | rfl | rfl | rfl <;>
    exact ⟨by decide, poised _ _ rfl rfl rfl, by decide +kernel, rfl, rfl, rfl, rfl, by decide +kernel, by decide +kernel,
      ⟨_, rfl, by decide +kernel⟩⟩

/-- The same machine, in which writes of the first state words of object 4 and of its sidecar wait in their controllers. -/
def mPage : State :=
  { mS with wq := [(0x8000, { ctrl := 0, mask := BitVec.allOnes 64, val := BitVec.ofNat 512 ((79 * 8192 + 1) * 2 ^ 64), dom := 0 }),
      (0xC000, { ctrl := 0, mask := BitVec.allOnes 64, val := 0, dom := 0 })] }

theorem poisedPage : Poised mPage 0 .S 0#4 mPage sS := ⟨rfl, ⟨sS, rfl, by decide +kernel, rfl⟩, rfl⟩

theorem witness_PageInstructions : Poised mPage 0 .S 0#4 mPage sS ∧ readX sS .S 6#5 = .ok 0#64 ∧
    capCheck sS 4#4 0#64 8192 .w = .ok (capOf 4 1048576, 0) ∧ capCheck sS 0#4 0#64 8192 .r = .ok (capOf 3 1048576, 0) ∧
    (∃ i s2, pageLookup mPage 0 sS 4 1 0 = (.ok i, s2) ∧ (hasStrand s2 && oeKind i.e == 2 && !peC i.pe &&
      (dieAt s2 (oeLoc i.e)).pool == [501, 502] &&
      (let w1 := physWrite s2 (dieOf 0) (oeSide i.e + 64 * i.idx) (List.replicate 64 0#8)
       let w2 := physWrite w1.2 (dieOf 0) (oeBase i.e + 8 * i.idx) (toBytes 8 (BitVec.ofNat 64 (501 * 8192 + 1)))
       w1.1 && w2.1 && hasStrand w2.2)) = true) ∧
    (∃ i s2, pageLookup mPage 0 sS 3 1 0 = (.ok i, s2) ∧ (hasStrand s2 && oeKind i.e == 0) = true) ∧
    (∃ i s2, pageLookup mPage 0 sS 5 1 0 = (.ok i, s2) ∧ (hasStrand s2 && oeKind i.e == 1 && peC i.pe) = true) :=
  ⟨poisedPage, rfl, ok_of (by decide +kernel), ok_of (by decide +kernel), pair_ok (by decide +kernel),
    pair_ok (by decide +kernel), pair_ok (by decide +kernel)⟩

/-- The second page of object 4 is committed, and nothing of the strand writes it. -/
theorem witness_PageInstructions_committed : readX sS .S 14#5 = .ok 8192#64 ∧ 8192 % 8192 = 0 ∧
    capCheck sS 4#4 8192#64 8192 .w = .ok (capOf 4 1048576, 8192) ∧ capCheck sS 4#4 8192#64 8192 .r = .ok (capOf 4 1048576, 8192) ∧
    sS.stores = [] ∧
    (∃ i s2, pageLookup mPage 0 sS 4 1 8192 = (.ok i, s2) ∧ (hasStrand s2 && oeKind i.e == 2 && peC i.pe &&
      (physRead s2 (dieOf 0) (oeSide i.e + 64 * i.idx) 16).1.isSome &&
      (let w := physWrite s2 (dieOf 0) (oeBase i.e + 8 * i.idx) (toBytes 8 (i.pe &&& ~~~1#64))
       w.1 && hasStrand (dropPage w.2 (spaceOf s2 sS) 4 i.idx))) = true) :=
  ⟨rfl, rfl, ok_of (by decide +kernel), ok_of (by decide +kernel), rfl, pair_ok (by decide +kernel)⟩

/-! ## Witnesses: the vector stream -/

abbrev sV : Strand := strand .V
abbrev mV : State := machine .V sV

theorem poisedV : Poised mV 0 .V 0#4 mV sV := poised _ _ rfl rfl rfl

/-- What registers v1 to v5 hold. -/
def x1 : VSrc := { fmt := 7, val := 0x40000000C0000000#4096 }
def x2 : VSrc := { fmt := 7, val := 0x3F800000#4096 }
def x3 : VSrc := { fmt := 7, val := 0#4096 }
def x5 : VSrc := { fmt := 8, val := 0x3F80#4096 }
def x4 : VSrc := { fmt := 1, val := 0x7F80#4096 }

theorem witness_VectorArithmetic : Poised mV 0 .V 0#4 mV sV ∧ predOf mV sV = .ok none ∧
    readVs sV [(1#6, (0#2).getLsbD 0), (2#6, (0#2).getLsbD 1)] = .ok [x1, x2] ∧ arithFmt mV [x1, x2] famArith = .ok 7 ∧
    readVs sV [(1#6, (0#2).getLsbD 0), (2#6, (0#2).getLsbD 1), (3#6, false)] = .ok [x1, x2, x3] ∧
    arithFmt mV [x1, x2, x3] famArith = .ok 7 := by
  refine ⟨poisedV, ?_, ?_, ?_, ?_, ?_⟩ <;>
    first | decide +kernel | exact ok_of (by decide +kernel)

theorem witness_VectorUnary : Poised mV 0 .V 0#4 mV sV ∧ predOf mV sV = .ok none ∧ readVs sV [(1#6, false)] = .ok [x1] ∧
    arithFmt mV [x1] famArith = .ok 7 ∧ arithFmt mV [x1] famSeed = .ok 7 := by
  refine ⟨poisedV, ?_, ?_, ?_, ?_⟩ <;>
    first | decide +kernel | exact ok_of (by decide +kernel)

theorem witness_VectorWidening : Poised mV 0 .V 0#4 mV sV ∧ predOf mV sV = .ok none ∧
    readVs sV [(4#6, false), (4#6, false)] = .ok [x4, x4] ∧ arithFmt mV [x4, x4] famWide = .ok 1 ∧
    (4#6).toNat % (tagW (wideTag 1) / tagW 1) = 0 ∧ 1 < tagW (wideTag 1) / tagW 1 := by
  refine ⟨poisedV, ?_, ?_, ?_, ?_, ?_⟩ <;>
    first | decide +kernel | exact ok_of (by decide +kernel)

theorem witness_VectorLogic : Poised mV 0 .V 0#4 mV sV ∧ predOf mV sV = .ok none ∧
    readVs sV [(1#6, (0#2).getLsbD 0), (4#6, (0#2).getLsbD 1)] = .ok [x1, x4] ∧ readV sV 1#6 = .ok x1 ∧ readV sV 4#6 = .ok x4 ∧
    x1.fmt ≠ 15#4 ∧ readP sV 1#5 = .ok 0x5555#1024 ∧ agree [7, 7] = some 7 ∧ readV sV 2#6 = .ok x2 ∧
    readVs sV [(1#6, false)] = .ok [x1] := by
  refine ⟨poisedV, ?_, ?_, ?_, ?_, ?_, ?_, ?_, ?_, ?_⟩ <;>
    first | decide +kernel | exact ok_of (by decide +kernel)

theorem witness_VectorCompareAndCount : Poised mV 0 .V 0#4 mV sV ∧ predOf mV sV = .ok none ∧
    readVs sV [(1#6, false), (2#6, false)] = .ok [x1, x2] ∧ arithFmt mV [x1, x2] famArith = .ok 7 ∧
    readP sV 1#5 = .ok 0x5555#1024 ∧ readX sV .V 9#5 = .ok 64#64 := by
  refine ⟨poisedV, ?_, ?_, ?_, ?_, rfl⟩ <;>
    first | decide +kernel | exact ok_of (by decide +kernel)

/-- A strand with VLC and VEC. -/
def sLoop (vlc vec : BitVec 32) : Strand := { sV with sys := { sV.sys with vlc := vlc, vec := vec } }

theorem witness_VectorTransfers : ∀ c ∈ [(0#32, 0#32), (1, 0), (0, 1)],
    let st := sLoop c.1 c.2
    Poised (machine .V st) 0 .V 0#4 (machine .V st) st ∧ readP st 1#5 = .ok 0x5555#1024 ∧ readP st 2#5 = .ok 0#1024 ∧
    readP st 0#5 = .ok (BitVec.allOnes 1024) ∧ checkRel (machine .V st) st .V 15#13 = .ok 60#32 ∧
    checkRel (machine .V st) st .V 15#20 = .ok 60#32 ∧ st.sys.vlc = c.1 ∧ st.sys.vec = c.2 := by
  intro c h
  simp only [List.mem_cons, List.not_mem_nil, or_false] at h
  rcases h with rfl | rfl | rfl <;>
    exact ⟨poised _ _ rfl rfl rfl, ok_of (by decide +kernel), ok_of (by decide +kernel), ok_of (by decide +kernel),
      ok_of (by decide +kernel), ok_of (by decide +kernel), rfl, rfl⟩

theorem witness_VectorConversions : Poised mV 0 .V 0#4 mV sV ∧ predOf mV sV = .ok none ∧ readV sV 5#6 = .ok x5 ∧
    fmtOver mV = 0 ∧ cvtOk 8 7 = true ∧ 1 < tagW 7 / tagW 8 ∧ (8#6).toNat % (tagW 7 / tagW 8) = 0 ∧ cvtOk 7 8 = true ∧
    readV sV 1#6 = .ok x1 ∧ readX sV .V 1#5 = .ok 7#64 ∧ readX sV .V 11#5 = .ok 128#64 ∧
    (vecReg sV 1#6).fmt = 7#4 ∧ 4096 / tagW 7 ≤ (128#64).toNat ∧ (7#64).toNat < 4096 / tagW 7 := by
  refine ⟨poisedV, ?_, ?_, ?_, ?_, ?_, ?_, ?_, ?_, rfl, rfl, ?_, ?_, ?_⟩ <;>
    first | decide +kernel | exact ok_of (by decide +kernel)

theorem witness_ReductionsAndScans : Poised mV 0 .V 0#4 mV sV ∧ predOf mV sV = .ok none ∧ readVs sV [(1#6, false)] = .ok [x1] ∧
    arithFmt mV [x1] famArith = .ok 7 ∧ arithFmt mV [x1] famScan = .ok 7 ∧ ¬ 1 < 32 / tagW 7 ∧ famScan 8 = true ∧
    1 < 32 / tagW 8 ∧ (2#6).toNat % (32 / tagW 8) = 0 := by
  refine ⟨poisedV, ?_, ?_, ?_, ?_, ?_, ?_, ?_, ?_⟩ <;>
    first | decide +kernel | exact ok_of (by decide +kernel)

theorem witness_VectorPermutes : Poised mV 0 .V 0#4 mV sV ∧ predOf mV sV = .ok none ∧ readV sV 1#6 = .ok x1 ∧
    readV sV 2#6 = .ok x2 ∧ tagW x1.fmt.toNat = tagW x2.fmt.toNat ∧ readV sV 9#6 = .ok { fmt := 15, val := 0#4096 } := by
  refine ⟨poisedV, ?_, ?_, ?_, ?_, ?_⟩ <;>
    first | decide +kernel | exact ok_of (by decide +kernel)

/-- A machine whose prefix names p1, of which element 0 is the lowest active. -/
def mPred : State := { mV with pfx := { arith := some ⟨0#3, false, 0#2, false, 1#5, false, true, 0#4⟩ } }

theorem poisedPred : Poised mPred 0 .V 0#4 mPred sV := ⟨rfl, ⟨sV, rfl, by decide +kernel, rfl⟩, rfl⟩

theorem witness_VectorMemoryAndScratchpad_memory : Poised mPred 0 .V 0#4 mPred sV ∧ strandAt mPred 0 = some sV ∧
    (∀ m ∈ [VMode.contig, .strided 9#5, .indexed 3#6],
      (∃ r, vmPieces mPred sV 0#4 9#5 2#2 0#16 m .r = .ok r ∧ (match r with
        | (c, _, l) => (match readPieces mPred 0 sV (readerOf sV .V) (capObj c) (capOgen c) l with
          | .ok _ s2 => hasStrand s2 && !l.isEmpty
          | _ => false)) = true) ∧
      (∃ r, vmPieces mPred sV 0#4 9#5 2#2 0#16 m .w = .ok r ∧ (match r with
        | (c, _, l) => (match writePieces (setStrand mPred 0 (beginStore sV .V).2) 0 .V none (granAtomic m 4 l) (beginStore sV .V).1 (capObj c) (capOgen c)
            (l.map fun q => (q, toBytes 4 (x1.val >>> (8 * 4 * q.tag)))) with
          | (.ok _, s2) => hasStrand s2 && !l.isEmpty
          | _ => false)) = true)) := by
  refine ⟨poisedPred, rfl, ?_⟩
  intro m h
  simp only [List.mem_cons, List.not_mem_nil, or_false] at h
  rcases h with rfl | rfl | rfl <;> exact ⟨chk_ok (by decide +kernel), chk_ok (by decide +kernel)⟩

theorem witness_VectorMemoryAndScratchpad_scratchpad : Poised mPred 0 .V 0#4 mPred sV ∧
    (∃ p, predOf mPred sV = .ok (some p) ∧ (p == 0x5555#1024) = true) ∧
    readX sV .V 15#5 = .ok 0x8000#64 ∧ vspAddr 0x8000#64 0#5 = .ok 0x8000 ∧ vspAddr 261632#64 0#5 = .ok 261632 ∧
    (∃ b, spGrans mPred 0 sV.cgen sV.gtrap 0x8000 8 = .ok b ∧ (b.length == 512) = true) ∧ readV sV 1#6 = .ok x1 := by
  refine ⟨poisedPred, ?_, rfl, ok_of (by decide +kernel), ok_of (by decide +kernel), chk_ok (by decide +kernel),
    ok_of (by decide +kernel)⟩
  exact ⟨_, rfl, by decide +kernel⟩

/-- Scratchpad with a chain's descriptor at 0x400: one operation from 0x1000 into 0x3000, of a second source at 0x2000. -/
def mChain : State :=
  spWriteN 2 mV 0 1#16 0x400
    ([0x1000#32, 0x2000#32, 0x3000#32, 0x00000177#32, 0x00001001#32].flatMap (toBytes 4))

theorem poisedChain : Poised mChain 0 .V 0#4 mChain sV := ⟨rfl, ⟨sV, rfl, by decide +kernel, rfl⟩, rfl⟩

theorem witness_ChainsAndTiles_chain : Poised mChain 0 .V 0#4 mChain sV ∧ readX sV .V 7#5 = .ok 0x400#64 ∧
    readX sV .V 6#5 = .ok 0#64 ∧ readX sV .V 5#5 = .ok 3#64 ∧
    (∃ g, spGrans mChain 0 sV.cgen sV.gtrap 0x400 1 = .ok g ∧ (match chainDesc (ofBytes 512 g) with
      | .ok d => gives (chainCheck d 3) () && spReadable mChain 0 sV.cgen sV.gtrap d.src0 (elemBytes 3 (tagW d.fin)) &&
        d.usesSrc1 && spReadable mChain 0 sV.cgen sV.gtrap d.src1 (elemBytes 3 (tagW d.fin)) &&
        hasStrand (chainBlocks 1 d (settingsOf sV.sys.rmode d.rm d.sat d.ftz) 0 sV.cgen 3 0 mChain 0#4).1
      | .error _ => false) = true) :=
  ⟨poisedChain, rfl, rfl, rfl, chk_ok (by decide +kernel)⟩

/-- A strand whose tile 1 is configured with 8 rows of 16 elements of F32. -/
def sTile : Strand := { sV with sys := { sV.sys with tshape := [(1, 0x173C7#17)] } }
def shape1 : Shape := { rows := 8, cols := 16, tag := 7 }

theorem poisedTile : Poised (machine .V sTile) 0 .V 0#4 (machine .V sTile) sTile := poised _ _ rfl rfl rfl

theorem witness_ChainsAndTiles_tile : Poised (machine .V sTile) 0 .V 0#4 (machine .V sTile) sTile ∧
    strandAt (machine .V sTile) 0 = some sTile ∧ hasStrand (flushTiles (machine .V sTile) 0) = true ∧
    shapeOf sTile 1#3 = .ok shape1 ∧ readV sTile 1#6 = .ok x1 ∧ x1.fmt.toNat = shape1.tag ∧ shape1.rows ≤ (8#6).toNat ∧
    (7#6).toNat < shape1.rows ∧ (15#6).toNat < shape1.cols ∧ readTile sTile 1#3 = .ok 0#8192 ∧
    (∃ r, tileOps sTile 1#3 9#5 9#5 0#16 = .ok r ∧ (match r with
      | (sh, offs) => (match tileRowsSP sh offs with
          | .ok l => l.all fun a => spReadable (machine .V sTile) 0 sTile.cgen sTile.gtrap a (rowBytes sh)
          | .error _ => false) &&
        (match tileRows sTile 0#4 sh offs .r with
          | .ok (c, l) => (match readPieces (machine .V sTile) 0 sTile (readerOf sTile .V) (capObj c) (capOgen c)
              (rowPieces (rowBytes sh) l) with
            | .ok _ s2 => hasStrand s2
            | _ => false)
          | .error _ => false) &&
        (match tileRows sTile 0#4 sh offs .w with
          | .ok (c, l) => (match writePieces (setStrand (machine .V sTile) 0 (beginStore sTile .V).2) 0 .V none false (beginStore sTile .V).1
              (capObj c) (capOgen c) (((List.range l.length).zip l).flatMap fun p =>
                (pieces 18 p.1 p.2 (rowBytes sh)).map fun q =>
                  (q, ((tileRow sh 0#8192 p.1).drop (q.off - p.2)).take q.size)) with
            | (.ok _, s2) => hasStrand s2
            | _ => false)
          | .error _ => false)) = true) := by
  refine ⟨poisedTile, rfl, ?_, ?_, ?_, ?_, ?_, ?_, ?_, ?_, chk_ok (by decide +kernel)⟩ <;>
    first | decide +kernel | exact ok_of (by decide +kernel)

/-! ## Witnesses: the matrix stream -/

/-- A matrix strand with regions 1 (one slot, TRAP), 2 (two slots, SPILL) and 3 (one slot, TRAP). -/
def sM : Strand :=
  { strand .M with regions :=
    [(1, { base := 0, rows := 16, slog := 0, trapPol := true, spill := 0, dir := [(0, 0x8005#32)] }),
      (2, { base := 64, rows := 16, slog := 1, trapPol := false, spill := 0x8000 }),
      (3, { base := 128, rows := 32, slog := 0, trapPol := true, spill := 0 })] }

/-- The array of quad 0 leased to core 0. -/
def leased (s : State) : State := modQuad s 0 fun q => { q with lease := some { core := 0, run := 10, tick := 0 } }

def mM : State := leased (machine .M sM)

theorem poisedM : Poised mM 0 .M 0#4 mM sM := ⟨rfl, ⟨sM, rfl, by decide +kernel, rfl⟩, rfl⟩

/-- A machine of core 0 holds a lease that goes on, its strand runs, and nothing serial is under way. -/
theorem leased_of {s : State} {st : Strand} (h : strandAt s 0 = some st) (hl : holdsLease (expireLease s 0) 0 = true)
    (hp : (streamOf st .M).popped = true) (hf : crewFrozen s st = false) : Leased s 0 where
  lease := hl
  serial := ⟨st, h, .inl hp⟩
  awake := fun x hx => by rw [Option.some.inj (hx.symm.trans h)]; exact hf

theorem leasedM : Leased mM 0 := leased_of (st := sM) rfl (by decide +kernel) rfl (by decide +kernel)

theorem matsM : MatsDone mM 0 := ⟨sM, rfl, by decide +kernel⟩

/-- The strand arrived at mlease, and the one with MLC. -/
def sArr : Strand := setStream sM .M { streamOf sM .M with arrived := true }
def sMlc : Strand := { sM with sys := { sM.sys with mlc := 3 } }

theorem witness_MatrixControl : Poised mM 0 .M 0#4 mM sM ∧ strandAt mM 0 = some sM ∧ MatsDone mM 0 ∧
    (streamOf sM .M).arrived = false ∧ (streamOf sM .M).opnd = none ∧ sM.sys.mlc = 0#32 ∧ NoSerial mM 0 ∧
    holdsLease (requestArray (modStream (setLatch (endLease mM 0) 0 { base := 5 }) 0 .M fun x => { x with
      arrived := true }) 0 5) 0 = true :=
  ⟨poisedM, rfl, matsM, rfl, rfl, rfl, leasedM.serial, by decide +kernel⟩

theorem witness_MatrixControl_granted :
    let s := leased (machine .M sArr)
    Poised s 0 .M 0#4 s sArr ∧ MatsDone s 0 ∧ (streamOf sArr .M).arrived = true ∧ holdsLease s 0 = true :=
  ⟨⟨rfl, ⟨sArr, rfl, by decide +kernel, rfl⟩, rfl⟩, ⟨sArr, rfl, by decide +kernel⟩, rfl, by decide +kernel⟩

theorem witness_MatrixControl_loop : Poised (machine .M sMlc) 0 .M 0#4 (machine .M sMlc) sMlc ∧ sMlc.sys.mlc ≠ 0#32 ∧
    checkRel (machine .M sMlc) sMlc .M 15#20 = .ok 60#32 :=
  ⟨poised _ _ rfl rfl rfl, by decide +kernel, ok_of (by decide +kernel)⟩

theorem witness_RegionsAndCounters : Poised mM 0 .M 0#4 mM sM ∧ MatsDone mM 0 ∧ readX sM .M 10#5 = .ok 512#64 ∧
    readX sM .M 6#5 = .ok 0#64 ∧ readX sM .M 18#5 = .ok 16#64 ∧ regionBad mM 0 sM 5 512 16 1 0x8000 false = none ∧
    hasStrand (writeOutRows mM (quadOf 0) 512 32) = true ∧
    (∃ g, mapFind sM.regions 1 = some g ∧ (g.entries == 1 && findLabel g 5 == some 0 && findLabel g 0 == none) = true) :=
  ⟨poisedM, matsM, rfl, rfl, rfl, by decide +kernel, by decide +kernel, ⟨_, rfl, by decide +kernel⟩⟩

theorem witness_RegionsAndCounters_label : readX sM .M 5#5 = .ok 3#64 ∧ fieldOf (5#64) 0 10 = 5 ∧
    fieldOf (3#64) 0 10 = 3 := ⟨rfl, by decide +kernel, by decide +kernel⟩

/-- The strand at the last row of a plane, with weight scales. -/
def sRow : Strand := { sM with sys := { sM.sys with mrow := 127, bsgW := 9 } }
def mRow : State := leased (machine .M sRow)

/-- What an mwload of object 3 at 0x1000 has captured when it stands at that row. -/
def lRow : MLatch := { cap := capOf 3 1048576, base := 0x1000, en := true, row := 127 }

theorem witness_PlanesAndContexts : Poised mRow 0 .M 0#4 mRow sRow ∧ Leased mRow 0 ∧ readX sRow .M 8#5 = .ok 0x1000#64 ∧
    capCheck sRow 0#4 0x1000#64 (32768 + 512) .m = .ok (capOf 3 1048576, 0x1000) ∧ 0x1000 % 64 = 0 ∧
    (streamOf sRow .M).opnd = none ∧
    lRow = { cap := capOf 3 1048576, base := 0x1000, en := sRow.sys.bsgW.getLsbD 3, row := sRow.sys.mrow.toNat } ∧
    (∃ s2, loadRows (128 - lRow.row) mRow 0 sRow true (ansOf sRow .M) lRow = .fin s2 ∧ hasStrand s2 = true) ∧
    spReadable (loadView mRow sRow true).1 0 sRow.cgen sRow.gtrap 0x1000 (imageBytes 8 + 512) = true ∧
    0x1000 + (imageBytes 8 + 512) ≤ 262144 := by
  refine ⟨⟨rfl, ⟨sRow, rfl, ?_, rfl⟩, rfl⟩, leased_of (st := sRow) rfl ?_ rfl ?_, rfl, ok_of ?_, rfl, rfl, ?_,
    eff_fin ?_, ?_, ?_⟩ <;> decide +kernel

/-- R176: a load from scratchpad may go ahead of an unfinished drain, and not of an mstream on its plane. -/
theorem test_load_ahead :
    let o : OrdPush := { idx := 0, fin := false, mask := 0, know := {}, undo := [(64, { gen := 1, val := 5 })] }
    let p : OrdPush := { idx := 0, fin := false, mask := 0, know := {}, planes := planeBit true }
    passable true [o, p] = [o] ∧ passable false [o, p] = [o, p] ∧
    (mapGet {} (unspad mRow [o]).spad 64).val = 5 := by
  decide +kernel

/-- A matrix strand with no region, whose msave or mrestore of object 3 at 0x1000 stands at a unit. -/
def sImg (m : MLatch) : Strand :=
  let st := strand .M
  setStream st .M { streamOf st .M with opnd := some m }

/-- The tables of an image of no region. -/
def tabs0 : List Byte := [0x4D534156#32, 1#32].flatMap (toBytes 4) ++ List.replicate (50 * 64 - 8) 0#8

/-- An mrestore that has read all its tables, and an msave at the last of them. -/
def lTabs : MLatch := { cap := capOf 3 1048576, base := 0x1000, row := 50, tabs := tabs0 }
def lSave : MLatch := { cap := capOf 3 1048576, base := 0x1000, row := 49 }

theorem witness_PlanesAndContexts_restore :
    let s := leased (machine .M (sImg lTabs))
    Poised s 0 .M 0#4 s (sImg lTabs) ∧ Leased s 0 ∧ MatsDone s 0 ∧ readX (sImg lTabs) .M 8#5 = .ok 0x1000#64 ∧
    (streamOf (sImg lTabs) .M).opnd = some lTabs ∧
    (∃ s3, loadTabs (if lTabs.phase = 0 then 50 - lTabs.row else 0) s 0 (sImg lTabs) (ansOf (sImg lTabs) .M) lTabs = .fin s3 ∧
      hasStrand s3 = true) := by
  refine ⟨⟨rfl, ⟨_, rfl, ?_, rfl⟩, rfl⟩, leased_of (st := sImg lTabs) rfl ?_ rfl ?_, ⟨_, rfl, ?_⟩, rfl, rfl, eff_fin ?_⟩ <;>
    decide +kernel

theorem witness_PlanesAndContexts_save :
    let s := leased (machine .M (sImg lSave))
    Poised s 0 .M 0#4 s (sImg lSave) ∧ Leased s 0 ∧ MatsDone s 0 ∧ readX (sImg lSave) .M 8#5 = .ok 0x1000#64 ∧
    (streamOf (sImg lSave) .M).opnd = some lSave ∧
    (∃ s3, saveUnits 0 (beginStore (sImg lSave) .M).1 lSave ((imageUnits s 0 (sImg lSave)).filter (unitFrom lSave))
      (setStrand s 0 (beginStore (sImg lSave) .M).2) = .stored s3 ∧ hasStrand s3 = true) := by
  refine ⟨⟨rfl, ⟨_, rfl, ?_, rfl⟩, rfl⟩, leased_of (st := sImg lSave) rfl ?_ rfl ?_, ⟨_, rfl, ?_⟩, rfl, rfl,
    eff_stored ?_⟩ <;>
    decide +kernel

/-- One that captures its operands now. -/
theorem witness_PlanesAndContexts_capture : (streamOf sM .M).opnd = none ∧ readX sM .M 8#5 = .ok 0x1000#64 ∧
    capCheck sM 0#4 0x1000#64 0xA0000 .r = .ok (capOf 3 1048576, 0x1000) ∧
    capCheck sM 0#4 0x1000#64 0xA0000 .w = .ok (capOf 3 1048576, 0x1000) ∧ 0x1000 % 64 = 0 :=
  ⟨rfl, rfl, ok_of (by decide +kernel), ok_of (by decide +kernel), rfl⟩

theorem witness_StreamingAndDistances : Poised mM 0 .M 0#4 mM sM ∧ Leased mM 0 ∧ readX sM .M 8#5 = .ok 0x1000#64 ∧
    sM.gtrap = false ∧ streamPair 8 8 = true ∧
    spReadable mM 0 sM.cgen sM.gtrap (0x1000 + 16384 * 2) 256 = true ∧
    spReadable mM 0 sM.cgen sM.gtrap 0x1000 (16 * 128 * 2) = true ∧
    (∃ g, mapFind sM.regions 2 = some g ∧ (match mapRows g (List.range 16) with
      | .ok live => (match streamSlot mM 0 sM g (labelOf mM) live with
        | .ok x => (match x with
          | some (e, new) => new && hasStrand (streamRows 0 sM g 2#4 e (fun _ => []) [] (allocSlot mM 0 sM 2#4 g e (labelOf mM)))
          | none => false)
        | .error _ => false)
      | .error _ => false) = true) ∧
    readX sM .M 18#5 = .ok 16#64 ∧
    (∃ g, mapFind sM.regions 1 = some g ∧ (decide (16 ≤ g.rows) && g.slots == 1) = true) :=
  ⟨poisedM, leasedM, rfl, rfl, by decide, by decide +kernel, by decide +kernel, ⟨_, rfl, by decide +kernel⟩, rfl,
    ⟨_, rfl, by decide +kernel⟩⟩

theorem witness_DrainingAndSwap : Poised mM 0 .M 0#4 mM sM ∧ Leased mM 0 ∧ readX sM .M 8#5 = .ok 0x1000#64 ∧
    readX sM .M 6#5 = .ok 0#64 ∧ readX sM .M 13#5 = .ok 1#64 ∧ readX sM .M 11#5 = .ok 128#64 ∧
    (∃ g, mapFind sM.regions 1 = some g ∧ (g.trapPol && g.slots == 1 && entryV (g.entry 0) &&
      (List.range g.rows).all (fun r => rowReadable mM 0 sM (rowAt g 0 r) && rowReadable mM 0 sM (.acc (g.base + r))) &&
      decide (0x1000 + 768 * g.rows ≤ 262144) &&
      spReadable mM 0 sM.cgen sM.gtrap 0x1000 (256 + 512 * (g.rows * g.slots)) &&
      (swapBad g (spBytes mM 0 sM.cgen 0x1000 256)).isNone) = true) :=
  ⟨poisedM, leasedM, rfl, rfl, rfl, rfl, ⟨_, rfl, by decide +kernel⟩⟩

/-- Scratchpad with the policies of eight experts at 0x400, each 1, and a capacity of 127. -/
def mRank : State := spWriteN 2 mM 0 1#16 0x400 ([0x5555#32, 0, 0, 0, 0, 0, 0, 0, 127].flatMap (toBytes 4))

theorem witness_RoutingAndBinding_rank : Poised mRank 0 .M 0#4 mRank sM ∧ Leased mRank 0 ∧ readX sM .M 8#5 = .ok 0x1000#64 ∧
    readX sM .M 12#5 = .ok 0x2000#64 ∧ readX sM .M 7#5 = .ok 0x400#64 ∧
    spReadable mRank 0 sM.cgen sM.gtrap 0x1000 (8 * 8 * (tagW 8 / 8)) = true ∧
    spReadable mRank 0 sM.cgen sM.gtrap 0x400 64 = true ∧
    routeBad (ofBytes 512 (spBytes mRank 0 sM.cgen 0x400 64) : Granule) 7 = none ∧ 0x2000 + (0x1800 + 256 * 8) ≤ 262144 := by
  refine ⟨⟨rfl, ⟨sM, rfl, by decide +kernel, rfl⟩, rfl⟩,
    leased_of (st := sM) rfl (by decide +kernel) rfl (by decide +kernel), rfl, rfl, rfl, ?_, ?_, ?_, ?_⟩ <;> decide +kernel

/-- Scratchpad with a binding descriptor at 0x400 (destination region 3, F32 identity rows) and labels at 0x2000. -/
def mBind : State :=
  spWriteN 9 (spWriteN 2 mM 0 1#16 0x400 ([0x2000#32, 0x8000#32, 0x1000#32, 0x73#32].flatMap (toBytes 4))) 0 1#16 0x2000
    ((List.replicate 16 ([5#16] ++ List.replicate 15 0xFFFF#16)).flatMap fun l => l.flatMap (toBytes 2))

theorem witness_RoutingAndBinding_bind : Poised mBind 0 .M 0#4 mBind sM ∧ Leased mBind 0 ∧ readX sM .M 7#5 = .ok 0x400#64 ∧
    readX sM .M 12#5 = .ok 0x2000#64 ∧
    (∃ d, bindDesc (ofBytes 512 (spBytes mBind 0 sM.cgen 0x400 64)) = .ok d ∧
      (match mapFind sM.regions 1, mapFind sM.regions d.dreg with
       | some g, some dg => d.dreg != 1 && dg.slots == 1 && decide (g.rows ≤ dg.rows) && d.lt == 0x2000 &&
         (bindReads g (bindLabels mBind 0 sM d.lt g.rows)).all (rowReadable mBind 0 sM) &&
         (bindScratch d (bindLabels mBind 0 sM d.lt g.rows)).all fun p =>
           decide (p.1 + p.2 ≤ 262144) && spReadable mBind 0 sM.cgen sM.gtrap p.1 p.2
       | _, _ => false) = true) ∧
    spReadable mBind 0 sM.cgen sM.gtrap 0x400 64 = true ∧ spReadable mBind 0 sM.cgen sM.gtrap 0x2000 1024 = true :=
  ⟨⟨rfl, ⟨sM, rfl, by decide +kernel, rfl⟩, rfl⟩, leased_of (st := sM) rfl (by decide +kernel) rfl (by decide +kernel), rfl, rfl, chk_ok (by decide +kernel),
    by decide +kernel, by decide +kernel⟩

/-! ## Witnesses: the copy stream -/

/-- A copy strand with a region, whose x22 gives strides of 128 and 64, x23 a remote copy's length and counter. -/
def sC : Strand :=
  let st := strand .C
  { st with
    regions := [(1, { base := 0, rows := 16, slog := 0, trapPol := true, spill := 0 })]
    r := { st.r with x := st.r.x ++ xs [(22, 0x4000000080#64), (23, 0x800040#64)] } }

abbrev mC : State := machine .C sC

theorem poisedC : Poised mC 0 .C 0#4 mC sC := poised _ _ rfl rfl rfl

theorem slotC : SlotFree mC 0 := ⟨sC, rfl, .inl rfl⟩

/-- Whether a copy whose ends are known could be added, and leaves the strand on its core. -/
def addable (s : State) (op : CopyOp) : Bool := hasStrand (addCopy s 0 sC 0#32 false op)

theorem witness_CopiesOfRanges_linear : Poised mC 0 .C 0#4 mC sC ∧ SlotFree mC 0 ∧ readX sC .C 8#5 = .ok 0x1000#64 ∧
    readX sC .C 12#5 = .ok 0x2000#64 ∧ readX sC .C 9#5 = .ok 64#64 ∧
    (∃ src, endOf sC false 0#4 0x1000 64 .r = .ok src ∧ (src.offset % 64 == 0 && gives (boundC src 64) () &&
      gives (freshC mC 0 sC src 64) ()) = true) ∧
    (∃ dst, endOf sC false 0#4 0x2000 64 .w = .ok dst ∧ (dst.offset % 64 == 0 && gives (boundC dst 64) () &&
      addable mC (.lin dst dst 64)) = true) ∧
    (∃ src, endOf sC true 0#4 0x1000 64 .r = .ok src ∧ (src.offset % 64 == 0 && gives (boundC src 64) () &&
      gives (freshC mC 0 sC src 64) ()) = true) ∧
    (∃ dst, endOf sC true 0#4 0x2000 64 .w = .ok dst ∧ (dst.offset % 64 == 0 && gives (boundC dst 64) ()) = true) :=
  ⟨poisedC, slotC, rfl, rfl, rfl, chk_ok (by decide +kernel), chk_ok (by decide +kernel), chk_ok (by decide +kernel),
    chk_ok (by decide +kernel)⟩

theorem witness_CopiesOfRanges_rows : readX sC .C 22#5 = .ok 0x4000000080#64 ∧
    readCaps sC [(false, 0#4), (true, 0#4)] = .ok () ∧
    (bits (0x4000000080#64) 0 32 : BitVec 32).toNat % 64 = 0 ∧ (bits (0x4000000080#64) 32 32 : BitVec 32).toNat % 64 = 0 ∧
    (∃ l, (strideOffs 0x1000#64 (bits (0x4000000080#64) 0 32) 3).mapM (fun o => endOf sC false 0#4 o 64 .r) = .ok l ∧
      l.all (fun e => e.offset % 64 == 0 && gives (boundC e 64) () && gives (freshC mC 0 sC e 64) ()) = true) ∧
    (∃ m, (strideOffs 0x2000#64 (bits (0x4000000080#64) 32 32) 3).mapM (fun o => endOf sC true 0#4 o 64 .w) = .ok m ∧
      m.all (fun e => e.offset % 64 == 0 && gives (boundC e 64) ()) = true) :=
  ⟨rfl, ok_of (by decide +kernel), by decide +kernel, by decide +kernel, chk_ok (by decide +kernel),
    chk_ok (by decide +kernel)⟩

theorem witness_CopiesOfRanges_convert : readX sC .C 11#5 = .ok 128#64 ∧ (128#64).toNat % cvtUnit 8 7 = 0 ∧
    copyPair 8 7 = true ∧
    (∃ src, endOf sC false 0#4 0x1000 ((128 * copyBits 8 + 7) / 8) .r = .ok src ∧ (src.offset % 64 == 0 &&
      gives (boundC src ((128 * copyBits 8 + 7) / 8)) () && gives (freshC mC 0 sC src ((128 * copyBits 8 + 7) / 8)) ()) = true) ∧
    (∃ dst, endOf sC false 0#4 0x2000 ((128 * copyBits 7 + 7) / 8) .w = .ok dst ∧ (dst.offset % 64 == 0 &&
      gives (boundC dst ((128 * copyBits 7 + 7) / 8)) ()) = true) :=
  ⟨rfl, by decide +kernel, by decide +kernel, chk_ok (by decide +kernel), chk_ok (by decide +kernel)⟩

theorem witness_CopiesOfTheCoreAndByList_core : Poised mC 0 .C 0#4 mC sC ∧ SlotFree mC 0 ∧
    readX sC .C 8#5 = .ok 0x1000#64 ∧ readX sC .C 9#5 = .ok 64#64 ∧ readX sC .C 5#5 = .ok 3#64 ∧
    (∃ cr, crewAt mC sC.crew = some cr ∧ 0x1000 + 64 ≤ (cr.size + 1) * 262144) ∧
    readX sC .C 6#5 = .ok 0#64 ∧ readX sC .C 18#5 = .ok 16#64 ∧
    (∃ p, p ∈ sC.regions ∧ p.2.base ≤ 0 ∧ 0 + 16 ≤ p.2.base + p.2.rows * p.2.slots) ∧
    (∀ i, i < 16 → rowReadable mC 0 sC (.acc (0 + i)) = true) ∧
    spReadable mC 0 sC.cgen sC.gtrap 0x1000 (512 * 16) = true ∧
    readX sC .C 23#5 = .ok 0x800040#64 ∧ fieldOf (0x800040#64) 0 20 = 64 ∧ fieldOf (0x800040#64) 20 18 % 8 = 0 ∧
    zeroBits (0x800040#64) 38 26 = true ∧ spReadable mC 0 sC.cgen sC.gtrap 0x1000 64 = true := by
  refine ⟨poisedC, slotC, rfl, rfl, rfl, ⟨_, rfl, by decide +kernel⟩, rfl, rfl, ⟨_,
    by unfold sC; exact List.mem_singleton.mpr rfl, by decide, by decide⟩, ?_, ?_, rfl, ?_, ?_, ?_, ?_⟩ <;> decide +kernel

/-- Scratchpad with a list of three tokens at 0x2000. -/
def mList : State := spWriteN 5 mC 0 1#16 0x2000 ([3#16, 0, 2, 5].flatMap (toBytes 2) ++ List.replicate 248 0#8)

theorem witness_CopiesOfTheCoreAndByList_list : Poised mList 0 .C 0#4 mList sC ∧ SlotFree mList 0 ∧
    (∃ r, gathCheck mList 0 sC 0#4 16#5 15#5 12#5 10#5 8 0 .r = .ok r ∧
      (decide (r.2.2.1 + (128 * gathRow 8 + 256) ≤ 262144) && r.2.2.2.length == 3) = true) ∧
    (∃ r, gathCheck mList 0 sC 0#4 16#5 15#5 12#5 10#5 8 0 .w = .ok r ∧
      (decide (r.2.2.1 + r.2.2.2.length * gathRow 8 ≤ 262144) &&
        spReadable mList 0 sC.cgen sC.gtrap r.2.2.1 (r.2.2.2.length * gathRow 8)) = true) :=
  ⟨⟨rfl, ⟨sC, rfl, by decide +kernel, rfl⟩, rfl⟩, ⟨sC, rfl, .inl rfl⟩, chk_ok (by decide +kernel), chk_ok (by decide +kernel)⟩

theorem witness_CopiesOfTheCoreAndByList_null : readX sC .C 12#5 = .ok 0x2000#64 ∧ readX sC .C 16#5 = .ok 0x10000#64 ∧
    readX sC .C 15#5 = .ok 0x8000#64 ∧
    (∃ toks, listAt mList 0 sC 0x2000 = .ok toks ∧ (!toks.isEmpty && toks.all fun t =>
      decide (0x10000 + 512 * t + 512 ≤ 262144) && decide (0x8000 + 512 * t + 512 ≤ 262144) &&
        spReadable mList 0 sC.cgen sC.gtrap (0x8000 + 512 * t) 512) = true) ∧
    spReadable mList 0 sC.cgen sC.gtrap 0x8000 512 = true :=
  ⟨rfl, rfl, rfl, chk_ok (by decide +kernel), by decide +kernel⟩

theorem witness_CopyControl : Poised mC 0 .C 0#4 mC sC ∧ readX sC .C 5#5 = .ok 3#64 ∧ readX sC .C 9#5 = .ok 64#64 ∧
    readX sC .C 8#5 = .ok 0x1000#64 ∧ sC.copies = [] ∧ sC.copies.length ≤ 0 ∧ zeroBits (3#64) 4 60 = true ∧
    zoneBusy mC sC 3 = false ∧ readC sC 0#4 = .ok (capOf 3 1048576) ∧ hasRight (capOf 3 1048576) .l = true ∧
    zeroBits (3#64) 5 59 = true ∧ mapFind sC.zones (fieldOf (3#64) 0 4) = none ∧ sC.zones = [] ∧ sC.sys.clc = 0#32 := by
  refine ⟨poisedC, rfl, rfl, rfl, rfl, ?_, ?_, ?_, rfl, ?_, ?_, rfl, rfl, rfl⟩ <;> decide +kernel

/-- The strand with CLC. -/
def sClc : Strand := { sC with sys := { sC.sys with clc := 3 } }

theorem witness_CopyControl_loop : Poised (machine .C sClc) 0 .C 0#4 (machine .C sClc) sClc ∧ sClc.sys.clc ≠ 0#32 ∧
    checkRel (machine .C sClc) sClc .C 15#20 = .ok 60#32 :=
  ⟨poised _ _ rfl rfl rfl, by decide +kernel, ok_of (by decide +kernel)⟩

/-! ## Witnesses: packets, entries and the host's commands -/

/-- A running package whose queue 1 of die 0 is `x`. -/
def withQueue (x : Queue) : State := modDie { mS with cur := .queue 0 1 } 0 fun d => { d with queues := [(1, x)] }

def q0 : Queue := { en := true, base := 0x400000, size := 12, tail := 64 }

/-- The queue's packet has started. -/
abbrev begun (s : State) : Queue := startedQ s (Machine.queueAt s 0 1)

theorem witness_QueuePackets_simple :
    let s := withQueue q0
    s.cur = .queue 0 1 ∧ (Machine.queueAt s 0 1).started = false ∧ (begun s).joinId = none ∧
    semCond 1#2 (semOf (beginPacket s 0 1) 0 7) 3#64 = true ∧ (2#16).getLsbD 1 = true ∧
    (bitList 16 2#16).all [1].contains = true ∧ (dieAt (beginPacket s 0 1) 0).joins.find? (fun j => j.id == 5#8) = none ∧
    (begun s).stack.length < 4 ∧ (begun s).frame = none ∧ (((0#64).toNat : Int) ≤ queueClock (beginPacket s 0 1) (begun s)) ∧
    preemptTargets (beginPacket s 0 1) 0 [1] = [] ∧ transBusy (dropObj (beginPacket s 0 1) 9 3 false) 9 3 false = false := by
  refine ⟨rfl, ?_, ?_, ?_, ?_, ?_, ?_, ?_, ?_, ?_, ?_, ?_⟩ <;> decide +kernel

theorem witness_QueuePackets_join :
    let s := modDie (withQueue q0) 0 fun d => { d with joins := [{ id := 1, mask := 6, arrived := [2] }] }
    (6#16).getLsbD 1 = true ∧ (begun s).joinId = none ∧
    (∃ j, (dieAt (beginPacket s 0 1) 0).joins.find? (fun j => j.id == 1#8) = some j ∧ j.mask = 6#16 ∧ j.arrived ++ [1] = [2, 1]) ∧
    (bitList 16 6#16).all [2, 1].contains = true :=
  ⟨by decide, by decide +kernel, ⟨_, rfl, rfl, rfl⟩, by decide +kernel⟩

theorem witness_QueuePackets_stack :
    (begun (withQueue { q0 with stack := [(3, 1, 64)] })).stack = [(3, 1, 64)] ∧
    (begun (withQueue { q0 with stack := [(3, 1, 64), (4, 1, 0)] })).stack = [(3, 1, 64), (4, 1, 0)] ∧
    (31#11).toNat < ({ withQueue q0 with msixSize := 32 } : State).msixSize ∧
    (begun (withQueue { q0 with frame := some { t0 := 0, sse := false, ssem := 0 } })).frame ≠ none ∧
    (let s := withQueue { q0 with started := true }
     (Machine.queueAt s 0 1).started = true ∧ (begun s).targets.all (targetDone (beginPacket s 0 1)) = true) := by
  refine ⟨?_, ?_, ?_, ?_, ?_, ?_⟩ <;> decide +kernel

theorem witness_QueuePackets_copy : ∀ p ∈ [(0, none), (1, none), (1, some (List.replicate 64 5#8))],
    let s := withQueue { q0 with started := true, done := p.1, data := p.2 }
    let x := begun s
    x.data = p.2 ∧ (∃ l s3, cpRead (beginPacket s 0 1) 0 x.ans x.space 3 1 (64 * x.done) 64 = .ok l s3 ∧
      (cpVal (cpWrite s3 0 none x.space 3 1 (64 * x.done) (x.data.getD l))).any (fun c => c.1 == []) = true) ∧
    (p.1 = 0 → 64 * (x.done + 1) < (128#32).toNat) ∧ (p.1 = 1 → (128#32).toNat ≤ 64 * (x.done + 1)) := by
  intro p h
  simp only [List.mem_cons, List.not_mem_nil, or_false] at h
  rcases h with rfl | rfl | rfl <;> refine ⟨?_, cp_ok (by decide +kernel), ?_, ?_⟩ <;> decide +kernel

/-- The first step of a COPY passes its checks. -/
theorem witness_QueuePackets_copyFirst :
    (copyPre (beginPacket (withQueue q0) 0 1) 0 (begun (withQueue q0)) (capOf 3 1048576) (capOf 3 1048576) 128).1 = none := by
  decide +kernel

/-- A kernel of no code at object 3, and a launch of it. -/
def kernelHeader : List Byte := [0x4C534B48#32, 1, 192, 64, 0].flatMap (toBytes 4)
def args0 : LaunchArgs := { blankArgs with kobj := 3, kgen := 1, gx := 1 }
def mLaunch : State :=
  let s := withQueue q0
  { modDie s 0 fun d => { d with tc := [{ space := 0, obj := 3, page := 0, e := setBits (entryOf 0 0x300000000 0) 11 1 1#1, pe := 0 }] } with
    mem := memPut s.mem 0x300000000 kernelHeader }

theorem witness_LaunchPackets_launch : mLaunch.cur = .queue 0 1 ∧ ¬ (args0.swz ≠ 0#4 ∧ 2 ≤ args0.order.toNat) ∧
    ¬ (args0.gt = true ∧ args0.lxobj = 0#24) ∧
    (∃ k s2, readKernel (beginPacket mLaunch 0 1) 0 (begun mLaunch) args0 = .ok k s2 ∧
      (match readExt s2 0 (begun mLaunch) args0 with
       | .ok e _ => argsOk k (slotsOf args0 e.1) && groupsOk args0 false (groupsFrom e.2) && groupsOk args0 true (groupsFrom e.2)
       | _ => false) = true) ∧ maskAbsent (beginPacket mLaunch 0 1) 1#128 = false :=
  ⟨rfl, by decide +kernel, by decide +kernel, lres_ok (by decide +kernel), by decide +kernel⟩

/-- A package with a request gatherer whose context 1 may be active. -/
def mRqg (act : Bool) : State :=
  let s := withQueue q0
  { s with
    caps := { s.caps with rqg := true }
    rq := if act then [(1, { active := true, obj := 3, gen := 1 })] else []
    mem := memPut (memPut s.mem 0x300000000 (toBytes 64 (BitVec.ofNat 512 (6 * 2 ^ 64)))) 0x300000044 (toBytes 4 9#32) }

theorem witness_LaunchPackets_engines : (ctxAt (beginPacket (withQueue q0) 0 1) 63).active = false ∧
    (beginPacket (mRqg true) 0 1).caps.rqg = true ∧ 1 ≤ (4096#13).toNat ∧ (4096#13).toNat ≤ 4096 ∧
    (rqAt (beginPacket (mRqg true) 0 1) 1).active = true ∧ (rqAt (beginPacket (mRqg true) 0 1) 1).obj = 3 ∧
    (rqAt (beginPacket (mRqg true) 0 1) 1).gen = 1 ∧ (rqAt (beginPacket (mRqg false) 0 1) 1).active = false ∧
    (rqAt (beginPacket (mRqg false) 0 1) 1).asked = false ∧
    (∃ l s2, cpRead (beginPacket (mRqg false) 0 1) 0 (begun (mRqg false)).ans (begun (mRqg false)).space 3 1 0 64 = .ok l s2 ∧
      (ringHeader s2 0 (begun (mRqg false)).space 3 l).1.isSome = true) := by
  refine ⟨?_, rfl, ?_, ?_, ?_, ?_, ?_, ?_, ?_, cp_ok (by decide +kernel)⟩ <;> decide +kernel

/-- A package on which context 2 of the tier engine acts. -/
def withCtx (c : TeCtx) (rq : FMap RqCtx) : State := { mS with cur := .ctx 2, te := [(2, c)], rq := rq }
def ctx0 : TeCtx := { active := true, obj := 3, gen := 1, cidx := 5, cord := 9, order := 10, idx := 6 }
def move0 : MoveArgs :=
  { wclass := 2, stier := 0, dtier := 1, mc := false, sobj := 3, sgen := 1, soff := 0, dobj := 3, dgen := 1, len := 1
    doff := 4096, z := 0, core := 0, die := 0, zoff := 0, due := 100 }

theorem witness_ItineraryEntries_plain :
    let s := withCtx ctx0 []
    let c := ctxAt s 2
    s.cur = .ctx 2 ∧ openMoves c 2 < winOf c 2 ∧ c.mc = none ∧ openMoves c 3 ≤ (0#7).toNat ∧ c.arm.getLsbD 1 = false ∧
    effTick c 0 ≤ itinTick s c ∧ c.moves.all (fun m => m.status.isSome) = true ∧ c.marks = [] := by
  refine ⟨rfl, ?_, ?_, ?_, ?_, ?_, ?_, ?_⟩ <;> decide +kernel

/-- The package's own number is a member of every mask with all bits set. -/
theorem witness_ItineraryEntries_mcast : (0xFFFF#16).getLsbD (15#4).toNat = true ∧
    (0xFFFF#16).getLsbD Config.package.toNat = true ∧ ({ mS.caps with ovl := true } : Config.Caps).ovl = true := by
  refine ⟨by decide, ?_, rfl⟩
  generalize Config.package = p
  revert p
  decide

theorem witness_ItineraryEntries_repeat :
    (ctxAt (withCtx { ctx0 with arm := 8, rem := [(3, 2)] } []) 2).arm.getLsbD 3 = true ∧
    mapGet 0#16 (ctxAt (withCtx { ctx0 with arm := 8, rem := [(3, 2)] } []) 2).rem 3 ≠ 0#16 ∧
    (ctxAt (withCtx { ctx0 with arm := 8 } []) 2).arm.getLsbD 3 = true ∧
    mapGet 0#16 (ctxAt (withCtx { ctx0 with arm := 8 } []) 2).rem 3 = 0#16 := by
  refine ⟨?_, ?_, ?_, ?_⟩ <;> decide +kernel

theorem witness_ItineraryEntries_batch : ∀ n ∈ [1#32, 64#32],
    let s := { mRqg true with cur := .ctx 2, te := [(2, ctx0)], rq := [(1, { active := true, obj := 3, gen := 1, nb := n })] }
    let g := rqAt s 1
    s.caps.rqg = true ∧ g.active = true ∧ g.rels.length < (g.nb - (ctxAt s 2).bseen).toNat ∧ (g.nb - (ctxAt s 2).bseen).toNat ≤ 64 ∧
    (∃ l s2, batchSize s (ctxAt s 2) g (ctxAt s 2).bseen = .ok l s2 ∧ (l.length == 4) = true) := by
  intro n h
  simp only [List.mem_cons, List.not_mem_nil, or_false] at h
  rcases h with rfl | rfl <;>
    exact ⟨rfl, by decide +kernel, by decide +kernel, by decide +kernel, cp_ok (by decide +kernel)⟩

theorem witness_ItineraryEntries_hint :
    let e := setBits (entryOf 0 0x700000000 0) 5 2 2#2
    let s := modDie { withCtx ctx0 [] with ports := [(0, { state := 3, hintV := true })] } 0 fun d => { d with
      tc := [{ space := 0, obj := 7, page := 0, e := e, pe := 0 }] }
    (match hintPool s (ctxAt s 2) 7 1 1 0 0 with | .done _ .done => true | _ => false) = true := by decide +kernel

/-- A queue that has stopped. -/
def stopped : Queue := { q0 with stop := some .access }

theorem witness_QueueCommands :
    ready (withQueue q0) = true ∧ 0 < (withQueue q0).caps.dies.toNat ∧ (Machine.queueAt (withQueue q0) 0 1).en = true ∧
    zeroBits (4096#32) 0 2 = true ∧ (4096#32 - (Machine.queueAt (withQueue q0) 0 1).head).toNat ≤
      2 ^ (Machine.queueAt (withQueue q0) 0 1).size ∧
    queueIdle (Machine.queueAt (withQueue { q0 with tail := 0 }) 0 1) = true ∧
    ready (withQueue stopped) = true ∧ (Machine.queueAt (withQueue stopped) 0 1).stop ≠ none ∧
    ((Machine.queueAt (withQueue stopped) 0 1).tail - (Machine.queueAt (withQueue stopped) 0 1).head).toNat ≤
      2 ^ (Machine.queueAt (withQueue stopped) 0 1).size ∧
    (Machine.queueAt (withQueue { stopped with noPacket := true }) 0 1).noPacket = true ∧
    (Machine.queueAt (withQueue stopped) 0 1).noPacket = false ∧ (Machine.queueAt (withQueue stopped) 0 1).stack = [] := by
  refine ⟨?_, ?_, ?_, ?_, ?_, ?_, ?_, ?_, ?_, ?_, ?_, ?_⟩ <;> decide +kernel

/-- The header of the packet at the head has been read, or can be read. -/
theorem witness_QueueCommands_skip : ∀ hdr ∈ [none, some 0x01100000#32],
    let s := { withQueue { stopped with hdr := hdr } with mem := memPut mS.mem 0x400000 (toBytes 4 0x01100000#32) }
    let x := Machine.queueAt s 0 1
    x.hdr = hdr ∧ x.ahead = [] ∧
    (∃ l s2, queueWords s 0 x (queuePos s x) 1 = .ok l s2 ∧ ((ofBytes 32 l : BitVec 32) == 0x01100000#32) = true) ∧
    4 * max (fieldOf (0x01100000#32) 16 8) 1 ≤ (x.tail - x.head).toNat := by
  intro hdr h
  simp only [List.mem_cons, List.not_mem_nil, or_false] at h
  rcases h with rfl | rfl <;>
    exact ⟨by decide +kernel, by decide +kernel, cp_ok (p := fun l _ => (ofBytes 32 l : BitVec 32) == 0x01100000#32)
      (by decide +kernel), by decide +kernel⟩

/-! ## Witnesses: crews, cores, engines and the package -/

/-- The crew of the strand, changed; and its launch. -/
def withCrew (f : Crew → Crew) (l : Launch → Launch) (s : State) : State :=
  { s with
    crews := s.crews.map fun p => (p.1, f p.2)
    launches := s.launches.map fun p => (p.1, l p.2)
    frame := 100000 }

def frozen : State := withCrew (fun c => { c with st := .frozen }) id mS

theorem witness_HostCommands : ready frozen = true ∧
    (∃ c, crewAt frozen (crewKey 0 0) = some c ∧ c.st = .frozen ∧ c.entryDue = false) ∧ frozen.thermal = [] ∧
    (∃ c, crewAt (withCrew (fun c => { c with st := .suspended, full := true }) id mS) (crewKey 0 0) = some c ∧
      c.st = .suspended ∧ c.full = true) ∧
    (ctxAt (withCtx ctx0 []) 2).active = true ∧ (ctxAt (withCtx ctx0 []) 2).stopping = false ∧
    (let s : State := { mS with ports := [(0, { state := 2, trained := true })] }
     (portAt s 0).state = 2#3 ∧ (portAt s 0).trained = true) ∧
    (dieAt mS 0).pool.contains (fieldOf (0x8000#64) 13 39) = false := by
  refine ⟨?_, ⟨_, rfl, rfl, rfl⟩, rfl, ⟨_, rfl, rfl, rfl⟩, ?_, ?_, ⟨by decide +kernel, by decide +kernel⟩,
    ?_⟩ <;> decide +kernel

theorem witness_Bar0Registers : ready mS = true ∧ 300 ≤ fieldOf (300#64) 0 16 ∧
    fieldOf (2400#64) 0 16 ≤ mS.caps.variant.watts ∧ 3 < mS.caps.dies.toNat ∧
    fieldOf (0x80007#64) 0 16 ≤ fieldOf (0x80007#64) 16 16 ∧ (0x8100000000000000#64).getLsbD 63 = true ∧
    fieldOf (0x8100000000000000#64) 56 6 ≠ 0 := by
  refine ⟨?_, ?_, ?_, ?_, ?_, ?_, ?_⟩ <;> decide +kernel

/-- Before READY, and in STANDBY. -/
theorem witness_Bar0Registers_states : State.reset.phase ≠ 7#4 ∧ State.reset.pwrState ≠ 2#2 ∧
    ({ mS with pwrState := 2 } : State).off = false ∧ ({ mS with pwrState := 2 } : State).pwrState = 2#2 ∧
    0x100 ≤ 0xFFFF8 ∧ 0xFFFF8 < 0x100000 := ⟨by decide, by decide, rfl, rfl, by decide, by decide⟩

/-- A launch that dispatches, none of whose crews is placed. -/
def dispatching : State :=
  let s := withCrew id (fun l => { l with st := .dispatching }) mS
  { modDie s 0 fun d => { d with nslot := 8, saveBase := 0x1000000 } with
    crews := []
    strands := []
    cores := [] }

theorem witness_CrewEvents_dispatch : dispatching.thermal = [] ∧ ready dispatching = true ∧
    (match launchOrder dispatching 0 with
     | (m, l) :: r => (match firstFit (preemptFor dispatching m l) ((m, l) :: r) with
       | some (.fresh _, _) => true
       | _ => false)
     | [] => false) = true := ⟨rfl, by decide +kernel, by decide +kernel⟩

/-- The crew stands at its safe point, to be pre-empted. -/
def stopping : State :=
  let s := withCrew (fun c => { c with st := .stopping, preq := some 0 }) (fun l => { l with st := .dispatching }) mS
  { modDie s 0 fun d => { d with nslot := 8, saveBase := 0x1000000 } with
    strands := s.strands.map fun p => (p.1, { p.2 with safe := some 0 })
    cores := s.cores.map fun p => (p.1, { p.2 with sweep := [2, 3] }) }

theorem witness_CrewEvents_save : stopping.thermal = [] ∧ gangKeys stopping (crewKey 0 0) ≠ [] ∧
    (gangKeys stopping (crewKey 0 0)).all (crewSafe stopping) = true ∧ (mapGet {} stopping.cores 0).sweep = [2, 3] :=
  ⟨rfl, by decide +kernel, by decide +kernel, by decide +kernel⟩

/-- The crew has been saved, whole, and waits for a place. -/
def saved : State :=
  let s := withCrew (fun c => { c with st := .waiting, full := true, cores := [], saved := [(0, sS)] })
    (fun l => { l with st := .dispatching, next := [(0, 1)] }) mS
  { modDie s 0 fun d => { d with nslot := 8, saveBase := 0x1000000 } with
    strands := []
    cores := [] }

theorem witness_CrewEvents_restore : saved.thermal = [] ∧ ready saved = true ∧
    (match launchOrder saved 0 with
     | (m, l) :: r => (match firstFit (preemptFor saved m l) ((m, l) :: r) with
       | some (.saved j, _) => (gangKeys saved j).contains (crewKey 0 0)
       | _ => false)
     | [] => false) = true := ⟨by decide +kernel, by decide +kernel, by decide +kernel⟩

theorem witness_CrewEvents_reports :
    let s := withCrew (fun c => { c with preq := some 0 }) id mS
    (∃ c, crewAt s (crewKey 0 0) = some c ∧ (c.preq.isSome && onCores c && !c.dueRep && !c.runRep && !c.stallRep &&
      decide ((dieAt s 0).runlim.toNat ≤ s.frame.toNat - c.since) &&
      decide ((dieAt s 0).stall.toNat ≤ s.frame.toNat - c.progress)) = true) ∧
    crewSafe s (crewKey 0 0) = false ∧ (dieAt s 0).runlim.toNat ≠ 0 ∧ (dieAt s 0).stall.toNat ≠ 0 ∧ s.thermal = [] :=
  ⟨opt_ok (by decide +kernel), by decide +kernel, by decide +kernel, by decide +kernel, rfl⟩

theorem witness_CrewEvents_faultEntry :
    let s := modDie (withCrew (fun c => { c with st := .frozen, entryDue := true }) id mS) 0 fun d => { d with
      fqSize := 12
      fqBase := 0x500000
      queues := [(3, { started := true, wait := some (0, 1, 1) })] }
    (∃ c, crewAt s (crewKey 0 0) = some c ∧ (c.entryDue && c.st == .frozen &&
      decide (((dieAt s 0).fqTail - (dieAt s 0).fqHead).toNat + (wordsBytes (entryWords s (crewKey 0 0) c)).length ≤
        2 ^ (dieAt s 0).fqSize)) = true) ∧ crewQuiet s (crewKey 0 0) = true ∧
    (Machine.queueAt s 0 3).started = true ∧ (Machine.queueAt s 0 3).wait ≠ none ∧ (Machine.queueAt s 0 3).hold = false ∧
    (Machine.queueAt s 0 3).waitRep = false ∧
    (dieAt s 0).stall.toNat ≤ s.frame.toNat - (Machine.queueAt s 0 3).startTick := by
  refine ⟨opt_ok (by decide +kernel), ?_, ?_, ?_, ?_, ?_, ?_⟩ <;> decide +kernel

theorem witness_CrewEvents_launches :
    (let s := withCrew id (fun l => { l with st := .held }) mS
     ∃ l, mapFind s.launches 0 = some l ∧ (l.die == 0 && l.st == .held && releaseDue s l) = true) ∧
    (let s := withCrew id (fun l => { l with st := .running, q := 1, frame := true, args := { l.args with budget := 1 } })
       (withQueue { q0 with frame := some { t0 := 0, sse := false, ssem := 0 } })
     ∃ l, mapFind s.launches 0 = some l ∧ (overruns s l && l.episode.isNone) = true) ∧
    (let s := withCrew id (fun l => { l with st := .draining }) mS
     ∃ l, mapFind s.launches 0 = some l ∧ (l.st == .draining && l.stores == [] && l.failed == [] && l.episode.isNone &&
       !(Machine.queueAt s 0 l.q).launches.contains 0) = true) :=
  ⟨opt_ok (by decide +kernel), opt_ok (by decide +kernel), opt_ok (by decide +kernel)⟩

theorem witness_CrewEvents_release :
    let s : State := { withQueue { q0 with started := true } with
      mem := memPut mS.mem 0x400000 (toBytes 4 0x0D030000#32 ++ toBytes 8 100#64) }
    (Machine.queueAt s 0 1).started = true ∧
    (∃ l s1, queueWords s 0 (Machine.queueAt s 0 1) (queueHead (Machine.queueAt s 0 1)) 3 = .ok l s1 ∧
      (numAt l 3 1 == 0x0D) = true) := by
  refine ⟨by decide +kernel, ?_⟩
  exact cp_ok (p := fun l _ => numAt l 3 1 == 0x0D) (by decide +kernel)

/-- Strands to which something happens at core 0. -/
def sWait : Strand := setStream sS .S { streamOf sS .S with st := .tokenWait, waitSet := 2 }
def store0 : StoreW :=
  { sid := 0, seq := 0, stream := .S, idx := 0, pa := 0x300009000, bytes := [1, 2], dom := 0, tier := 0, loc := 0, obj := 3
    ogen := 1, off := 0x9000 }
def sBusy : Strand :=
  { sS with
    uipend := [3]
    sys := { sS.sys with uivec := 4, uistat := 1 }
    stores := [store0]
    storeSeq := 1
    mats := [{ idx := 0, fin := false, mask := 0, know := {} }] }
def sCopy : Strand :=
  { sC with
    copies := [{ slot := 2, idx := 0, op := .fill (.sp 0) 64 0, ui := true, moved := true, addr := 0, gaddr := 0, words := [] }]
    copyPush := [{ idx := 0, fin := false, mask := 0, know := {} }] }

theorem witness_CoreEvents_deadlock : strandAt (machine .S sWait) 0 = some sWait ∧
    (∃ c, crewAt (machine .S sWait) sWait.crew = some c ∧ c.st = .running) ∧ deadlocked sWait = true ∧
    [Engine.S, .V, .M, .C].find? (inTokenWait sWait) = some .S :=
  ⟨rfl, ⟨_, rfl, rfl⟩, by decide +kernel, by decide +kernel⟩

theorem witness_CoreEvents_grant :
    let s := modQuad mS 0 fun q => { q with waits := [(0, 30), (3, 7)] }
    (Machine.quadAt s 0).lease = none ∧ arrayBusy s 0 = false ∧ (nextGrant s 0).isSome = true :=
  ⟨by decide +kernel, by decide +kernel, by decide +kernel⟩

theorem witness_CoreEvents_delivery : strandAt (machine .S sBusy) 0 = some sBusy ∧ sBusy.uipend = 3 :: [] ∧
    uiEn sBusy = true ∧ uiAct sBusy = false ∧
    (let st := setStream sBusy .S { streamOf sBusy .S with popped := false }
     uiBoundary (machine .S st) st = true ∧ checkTarget (machine .S st) st .S st.sys.uivec.toNat = .ok 4#32) := by
  refine ⟨rfl, rfl, ?_, ?_, ?_, ?_⟩ <;>
    first | decide +kernel | exact ok_of (by decide +kernel)

theorem witness_CoreEvents_completions :
    (∃ s1, chooseOf (machine .S sBusy) (mayEnter (sBusy.stores.filter fun w => w.tier != 2#2)) = (some store0, s1)) ∧
    finishFirst (oldestStore { sBusy with stores := [] }) sBusy.mats ≠ sBusy.mats ∧
    (∃ c, sCopy.copies.find? (fun c => c.slot == 2) = some c ∧ sCopy.copies.find? (fun x => x.idx == c.idx) = some c ∧
      c.held = false ∧ c.moved = true ∧ copyPerformed sCopy c.idx = true ∧ uiRoom sCopy c = true) :=
  ⟨⟨_, rfl⟩, by decide +kernel, ⟨_, by unfold sCopy; rfl, rfl, rfl, rfl, by decide +kernel, by decide +kernel⟩⟩

theorem witness_CoreEvents_die :
    let h : Handle := { space := 0, obj := 3, gen := 1 }
    let s := modDie mS 0 fun d => { d with lineReq := [{ h := h, line := 7 }], freeing := [77] }
    (∃ q, (dieAt s 0).lineReq.find? (fun r => r.h == h && r.line == 7) = some q ∧ (match fillRead s 0 h 7 q.ans with
      | (.ok _, _) => true
      | _ => false) = true) ∧ (dieAt s 0).freeing.find? (fun f => !frameBusy s f) = some 77 :=
  ⟨by decide +kernel, by decide +kernel⟩

/-- Moves of context 2: its own, and those of a stream of package 0 or of another. -/
def str0 : Stream2 := { epoch := 7, pmask := 3, src := 0, grp := 0, ackto := 5, next := 4 }
def mv (a : MoveArgs) (x : Option Stream2) (member : Bool) : MoveSt :=
  { idx := 3, order := 3, a := a, due := 0, written := if member then 0 else 1, member := member, shard := 3, str := x
    units := if member then [{}] else [], started := 3, sent := if member then none else some 900, acks := [1] }
def withMove (m : MoveSt) : State := { withCtx { ctx0 with moves := [m], mc := m.str } [] with frame := 1000 }

theorem witness_TierEvents_gust :
    let s := withCtx { ctx0 with held := some [0x07000000#32, 3, 0, 0, 0, 0, 0, 0] } []
    (∃ ws, (ctxAt s 2).held = some ws ∧ (match decodeEntry (ctxAt s 2).cidx ws with
      | .ok (.gust _ tick) => decide (effTick (ctxAt s 2) tick.toNat ≤ itinTick s (ctxAt s 2))
      | _ => false) = true) := ⟨_, rfl, by decide +kernel⟩

theorem witness_TierEvents_moves :
    (let s := withMove (mv { move0 with dtier := 3 } none false)
     ∃ m, (ctxAt s 2).moves.find? (fun m => m.a.dtier == 3#2 && m.units.isEmpty && (m.status.isNone || m.token)) = some m ∧
       m.status.isNone = true) ∧
    (let s := withMove (mv move0 none false)
     ∃ m, (ctxAt s 2).moves.find? (fun m => m.idx == 3 && m.status.isNone && m.a.dtier != 3#2 && m.units.isEmpty) = some m ∧
       m.str.isNone = true) :=
  ⟨opt_ok (by decide +kernel), opt_ok (by decide +kernel)⟩

theorem witness_TierEvents_member :
    let s := withMove (mv move0 (some str0) true)
    s.cuts.contains 7#32 = false ∧ s.ends.contains 7#32 = false ∧ shardAt s 7#32 3 = none ∧
    (s.te.any fun c => c.2.moves.any fun m => waitsShard m 7#32 3) = true ∧
    (∃ m, (ctxAt s 2).moves.find? (fun m =>
        (m.str.map fun x => waitsShard m x.epoch m.shard && decide (m.started + x.ackto ≤ s.frame.toNat) &&
          (memberStep s 2 m x).isSome).getD false) = some m ∧ (m.str == some str0) = true) := by
  refine ⟨?_, ?_, ?_, ?_, opt_ok ?_⟩ <;> decide +kernel

/-- A context at which this package is the source of a stream has not numbered shard 4; one that has left it knows none. -/
theorem witness_TierEvents_acks : (∀ k ∈ [3, 4],
      let s := withCtx { ctx0 with mc := some { str0 with src := Config.package } } []
      notStarted s 7#32 k = decide (4 ≤ k) ∧ s.acked.contains (7#32, k, 1) = false) := by
  intro k h
  simp only [List.mem_cons, List.not_mem_nil, or_false] at h
  rcases h with rfl | rfl <;> refine ⟨?_, rfl⟩ <;>
    simp [notStarted, pendShards, withCtx, isHere, str0, Option.filter, ctx0]

/-- The source's time for an acknowledgement of another package passes. -/
theorem witness_TierEvents_source : ∃ pkg, pkg ≠ Config.package.toNat ∧
    (let s := withMove { mv move0 (some str0) false with acks := [pkg] }
     ∃ m, (ctxAt s 2).moves.find? (fun m => !m.member && m.shard == 3 && m.acks.contains pkg && pkg != Config.package.toNat &&
        (m.str.map fun x => (m.sent.map fun t => decide (t + x.ackto ≤ s.frame.toNat)).getD false).getD false) = some m ∧
      m.str = some str0) := by
  refine ⟨Config.package.toNat + 1, by omega,
    { mv move0 (some str0) false with acks := [Config.package.toNat + 1] }, ?_, rfl⟩
  show [({ mv move0 (some str0) false with acks := [Config.package.toNat + 1] } : MoveSt)].find? _ = some _
  rw [List.find?_cons_of_pos]
  simp [mv, str0, withMove]

/-- A ring whose open batch is due, and whose granules wait in their controller. -/
def mRing : State :=
  let e : WqEntry := { ctrl := 0, mask := BitVec.allOnes 64, val := 0, dom := 0 }
  { mS with
    frame := 1000
    wq := [(0xC000000, e), (0xC000001, e)]
    rq := [(2, { active := true, openV := true, openN := 3, openAt := 5, deadline := 10, obj := 3, gen := 1, sem := 7 })] }

theorem witness_TierEvents_deadline :
    let put := fun (t : State) (off : Nat) (ws : List Word) =>
      let g := rqAt t 2
      cpWrite t g.die g.ans g.space g.obj g.gen off (ws.flatMap (toBytes 4))
    let g := rqAt mRing 2
    g.active = true ∧ g.openV = true ∧ g.closing = [] ∧ g.deadline ≤ mRing.frame.toNat - g.openAt ∧
    (∃ l s2, put mRing (0x40 + 16 * (g.nb.toNat % 64)) [g.head, BitVec.ofNat 32 g.openN, mRing.frame.setWidth 32, 1#32] = .ok l s2 ∧
      (match put (spendRing s2 2) 0x04 [g.head + BitVec.ofNat 32 g.openN] with
       | .ok _ s3 => (match put (spendRing s3 2) 0x0C [g.nb + 1] with
         | .ok _ s4 => (rqAt (spendRing s4 2) 2).rels == [] && stillOpen (spendRing s4 2) (rqAt (spendRing s4 2) 2).cover == []
         | _ => false)
       | _ => false) = true) := by
  refine ⟨?_, ?_, ?_, ?_, cp_ok (by decide +kernel)⟩ <;> decide +kernel

/-! ## Witnesses: memory, power, security and the machine -/

/-- A running package with a controller, a port and a queued write. -/
def withMem (c : MemCtl) (p : CxlPort) : State := { mS with frame := 5000, ctls := [(0, c)], ports := [(0, p)] }
def wq0 : WqEntry := { ctrl := 0, mask := 3, val := 0x1234, dom := 0 }

theorem witness_MemoryAndLinks_store :
    let s := machine .S { sS with stores := [{ store0 with pa := 0 }], storeSeq := 1 }
    (∃ w s1, chooseOf s (storesFor s 0) = (some w, s1) ∧ w = { store0 with pa := 0 } ∧ wqFull s 0 (w.pa / 64) = false) ∧
    (ctlAt s 0).hot = false :=
  ⟨⟨_, _, rfl, rfl, by decide +kernel⟩, by decide +kernel⟩

theorem witness_MemoryAndLinks_controller :
    let s := { withMem { order := [0x240, 5], pend := [0x300, 7] } { state := 3, replays := 15, out := [(.stream 0 .S, 5)] } with
      wq := [(0x240, wq0)] }
    let c := ctlAt s 0
    (servable c 0 9 = true ∧ nextDrain c 0 = some 0x240 ∧ c.order.find? (fun g => !c.drain.contains (Config.channel 0 g)) = some 0x240) ∧
    (let s2 := withMem { pend := [0x300, 7] } {}
     (ctlAt s2 0).pend = 0x300 :: [7] ∧ wqFull s2 0 0x300 = false) ∧
    ((portAt s 0).out = (.stream 0 .S, 5) :: [] ∧ (portAt s 0).out[0]? = some (.stream 0 .S, 5) ∧
      overtakes s ((portAt s 0).out.take 0) (.stream 0 .S) = false ∧ (portAt s 0).state = 3#3) ∧
    ((portAt s 0).tmo.toNat ≤ s.frame.toNat - 5 ∧ portOut s 0 = false ∧ (portAt s 0).replays = 15) := by
  intro s c
  refine ⟨⟨?_, ?_, ?_⟩, ⟨?_, ?_⟩, ⟨?_, ?_, ?_, ?_⟩, ?_, ?_, ?_⟩ <;> decide +kernel

/-- A granule of its own device that the scrubber has not visited, and that takes no correction. -/
theorem witness_MemoryAndLinks_scrub :
    let n := Config.physCtrl (64 * 9)
    let s : State := { mS with ctls := [(n, {})], guards := [] }
    mayScrub s n 9 = true ∧ correctable s 9 = false ∧ (∃ v s2, devRead s n 9 none = (.ok v, s2)) := by
  refine ⟨?_, rfl, ⟨_, _, rfl⟩⟩
  have h : ready mS = true := by decide +kernel
  have hw : mS.wq = [] := by decide +kernel
  simpa [mayScrub, ctlAt, mapGet, mapFind, ready, hw] using h

theorem witness_MemoryAndLinks_links :
    let s : State := { withMem { hot := true, temp := 90, tres := 90 } { state := 1, trained := true } with
      thermal := [0]
      ovl := [(0, { training := true }), (1, { replays := 14 })]
      bnds := [(0, { training := true }), (1, { replays := 15 })]
      frame := 100000000 }
    (ctlAt s 0).hot = true ∧ s.thermal = [0] ∧ (ctlAt s 0).temp.toNat ≤ (ctlAt s 0).tres.toNat ∧
    (mapGet {} s.ovl 0 : LinkSt).training = true ∧ (mapGet {} s.bnds 0 : LinkSt).training = true ∧
    (mapGet {} s.ovl 1 : LinkSt) = { replays := 14 } ∧ (mapGet {} s.bnds 1 : LinkSt) = { replays := 15 } ∧
    (portAt s 0).state = 1#3 ∧ (portAt s 0).restored = false ∧ trainedOut (mapGet {} s.ovl 0) s.frame.toNat = true ∧
    trainedOut (mapGet {} s.bnds 0) s.frame.toNat = true := by
  refine ⟨?_, ?_, ?_, ?_, ?_, ?_, ?_, ?_, ?_, ?_, ?_⟩ <;> decide +kernel

theorem witness_MemoryAndLinks_rest :
    ready (withQueue q0) = true ∧ (Machine.queueAt (withQueue q0) 0 1).en = true ∧
    (Machine.queueAt (withQueue q0) 0 1).stop = none ∧
    (Machine.queueAt (withQueue q0) 0 1).head ≠ (Machine.queueAt (withQueue q0) 0 1).tail ∧
    hasDevice mS 0 = true ∧ (ctlAt mS 0).tcrit.toNat ≤ (105#8).toNat ∧ (ctlAt mS 0).hot = false ∧
    opaqueAt { mS with inForce := [] } 0x9000 70 = false ∧
    (windowRead 71 mS 0#6 0x300000000 70).1 = 0 := by
  refine ⟨?_, ?_, ?_, ?_, ?_, ?_, ?_, ?_, ?_⟩ <;> decide +kernel

theorem witness_BootAndPower : ({ State.reset with off := true } : State).off = true ∧
    ready mS = true ∧ mayStandby { mS with crews := [], launches := [], strands := [] } = true ∧
    (∀ p ∈ [0#4, 3, 4], let s : State := { State.reset with phase := p, off := false }
      s.off = false ∧ s.berr = 0#4 ∧ s.phase = p) ∧
    ({ mS with pwrState := 2 } : State).pwrState = 2#2 ∧
    (∀ d, d ∈ mS.dies → ∀ q, q ∈ d.2.queues → q.2.frame = none) ∧ (∀ r, (rqAt mS r).active = false) ∧
    (let s : State := { mS with winTicks := 1024, pwrCap := 2000, plvl := 2, frame := 100000 }
     ready s = true ∧ 1024 ≤ s.winTicks ∧ s.pwrCap.toNat < 2001 ∧ 2000 ≤ s.pwrCap.toNat ∧ s.plvl ≠ 3#2) ∧
    (let s : State := { mS with crews := [], launches := [], strands := [], frame := 100000 }
     ready s = true ∧ s.pwrState = 0#2 ∧ packageIdle s = true ∧ s.idleTicks.toNat ≤ s.frame.toNat - s.idleSeen) := by
  refine ⟨rfl, by decide +kernel, by decide +kernel, ?_, rfl, by decide +kernel, fun r => rfl, ?_, ?_⟩
  · intro p h
    exact ⟨rfl, rfl, rfl⟩
  · exact ⟨by decide +kernel, by decide, by decide, by decide, by decide⟩
  · exact ⟨by decide +kernel, by decide +kernel, by decide +kernel, by decide +kernel⟩

/-- STANDBY, the way back from it, port 0 in the list of those that did not train, and a level that can rise no more. -/
theorem witness_BootAndPower_standby :
    (∀ p ∈ [5#4, 6, 7], let s : State := { mS with pwrState := 2, phase := p }
      s.off = false ∧ s.pwrState = 2#2 ∧ s.phase = p ∧ s.berr = 0#4 ∧ s.tails = []) ∧
    ([3, 4] : List Nat).contains 0 = false ∧ ([3, 0] : List Nat).contains 0 = true ∧
    (let s : State := { mS with pwrState := 2, winTicks := 1024, pwrCap := 2000, plvl := 3, overWins := 7 }
     s.pwrState = 2#2 ∧ 1024 ≤ s.winTicks ∧ s.pwrCap.toNat < 2001 ∧ s.plvl = 3#2) := by
  refine ⟨fun p _ => ⟨rfl, rfl, rfl, rfl, rfl⟩, ?_, ?_, rfl, ?_, ?_, rfl⟩ <;> decide

theorem witness_BootAndPower_notIdle : ready mS = true ∧ mayStandby mS = false := ⟨by decide +kernel, by decide +kernel⟩

theorem witness_SecurityCommands : answers mS = true ∧ hasBin mS (1, 1, 500) = false ∧ hasBin mS (0, 0, 0) = true ∧
    isKind 77 = false ∧ isKind 1 = true ∧ mscCommands.contains 200 = false ∧
    mapFind ({ mS.msc with svn := [(1, 5)] } : Msc).svn 1 = some 5 ∧ mS.msc.log.length < 1024 ∧
    ready mS = true ∧ hasObj mS (.x 0 2) = true ∧ (debugObj mS (.x 0 2)).1 = 1#16 ∧ 0 < mS.caps.dies.toNat * coresPerDie := by
  refine ⟨?_, ?_, ?_, ?_, ?_, ?_, rfl, ?_, ?_, ?_, ?_, ?_⟩ <;> decide +kernel

theorem witness_SecurityCommands_raw :
    let s : State := { mS with
      spaces := [(0, { v := true, consent := true })]
      cores := mapMod {} mS.cores 0 fun c => { c with owner := some 0 }
      msc := { mS.msc with policy := 1 } }
    hasObj s (.x 0 2) = true ∧ coreSpace s (objKey (.x 0 2)).1 = some 0 ∧ (spaceReg s 0).consent = true ∧
    s.msc.policy.getLsbD 0 = true := by
  refine ⟨?_, ?_, ?_, ?_⟩ <;> decide +kernel

theorem witness_EncodingReadsBack : Instr.wf (.tcfg 0 0 15 15 7) = true ∧ Instr.wf (.tcfg 0 0 63 63 7) = false :=
  ⟨by decide +kernel, by decide +kernel⟩

/-- The word of sub x3, x4, x5 where the stream of core 0 fetches next. -/
def mFetch : State := State.withFetchWord State.reset 32 0x001190A1

theorem witness_StepRunsTheDecoded : mFetch.schedule = [.stream 0 .S] ∧
    (let s := { mFetch with schedule := [] }
     ∃ st, strandAt s 0 = some st ∧ (mayIssue s st .S && (match imageOf s st .S with
       | some (h, koff, len) =>
         let c := mapGet {} s.cores 0
         let pc := (streamOf st .S).pc.toNat
         (match scanGroup (len / 4 + 1) c h koff len pc [] with
          | .ok g => (match decodeGroup .S g (fetchWord c h koff len (g.addr + 4)) with
            | .ok pre i _ next => decide (pre = []) && decide (i = .sub 0#4 3#5 4#5 5#5) && next == pc + 4
            | _ => false)
          | _ => false)
       | none => false)) = true) :=
  ⟨by decide +kernel, opt_ok (by decide +kernel)⟩

theorem witness_StepRunsTheDecoded_event :
    (∃ t, exec .pwrReqOn { mS with schedule := [], cur := .none } = .next t) ∧
    ({ mS with schedule := [.event .pwrReqOn] } : State).schedule = .event .pwrReqOn :: [] :=
  ⟨⟨_, rfl⟩, rfl⟩

theorem witness_MemoryStaysCanonical : MemOk State.reset ∧ MemOk mS ∧ mS.mem ≠ [] :=
  ⟨by unfold MemOk; decide +kernel, by unfold MemOk; decide +kernel, by decide +kernel⟩

theorem witness_StoresReachMemory : ∀ e ∈ [wq0, { wq0 with mask := BitVec.allOnes 64 }],
    let s : State := { mS with ctls := [(0, { order := [0x240] })], wq := [(0x240, e)] }
    nextDrain (ctlAt s 0) 0 = some 0x240 ∧ (ctlAt s 0).waiting = [] ∧ mapFind s.wq 0x240 = some e ∧
    (∃ v s2, devRead (touchDev (dropEntry s 0x240 e) e.ctrl) e.ctrl 0x240 (some e.dom) = (.ok v, s2)) := by
  intro e h
  simp only [List.mem_cons, List.not_mem_nil, or_false] at h
  rcases h with rfl | rfl <;> exact ⟨by decide +kernel, rfl, rfl, ⟨_, _, rfl⟩⟩

/-- A store to POOL, of one write and of two that became one. -/
theorem witness_StoresReachMemory_pool : ∀ en ∈ [none, some 0x22#64],
    let w : StoreW := { store0 with pa := 0x9000, tier := 2, en := en }
    let s : State := { machine .S { sS with stores := [w] } with ports := [(0, { state := 3, out := [(.store 0 0, 5)] })] }
    (portAt s 0).out = (.store 0 0, 5) :: [] ∧ (portAt s 0).state = 3#3 ∧ findStore s 0 0 = some w ∧ w.tier = 2#2 := by
  intro en h
  simp only [List.mem_cons, List.not_mem_nil, or_false] at h
  rcases h with rfl | rfl <;> exact ⟨rfl, rfl, by decide +kernel, rfl⟩

theorem witness_SupervisorTrap : strandAt mS 0 = some sS ∧ (∃ c, crewAt mS sS.crew = some c ∧ c.st = .running) :=
  ⟨rfl, ⟨_, rfl, rfl⟩⟩

/-- A strand in which a stale read traps; one with a pattern that S may not use. -/
def sTrap : Strand := { sS with gtrap := true }
def sPat : Strand := { sTok with sys := { sTok.sys with tkp := [(3, 0x00000002)] } }
def mCrew : State := withCrew (fun c => { c with size := 3 }) id mS

theorem witness_InstructionTraps : Poised (machine .S sTrap) 0 .S 0#4 (machine .S sTrap) sTrap ∧
    (∃ t, readX sTrap .S 11#5 = .ok t) ∧ (∃ t, readX sTrap .S 22#5 = .error t) ∧
    Poised mS 0 .S 0#4 mS sS ∧ readX sS .S 2#5 = .ok 0xFFFFFFFFFFFFFFF5#64 ∧
    (∃ t, smAddr mS sS 0#4 0xFFFFFFFFFFFFFFF5#64 0#6 8 .r = .error t) ∧ sS.sys.uivec.extractLsb' 2 30 = 0#30 ∧
    sS.sys.uistat.getLsbD 1 = false ∧ Poised mCrew 0 .S 0#4 mCrew sS ∧ needsXsync mCrew sS = true ∧ sS.xsync = false ∧
    0x800 ≤ (0x800#12).toNat ∧ sS.super = false ∧ strandAt (machine .S sPat) 0 = some sPat ∧
    patternOk .S (patOf sPat .S 3#4) = false := by
  refine ⟨poised _ _ rfl rfl rfl, ⟨_, rfl⟩, ⟨_, rfl⟩, poisedS, rfl, ⟨_, rfl⟩, ?_, ?_, ⟨rfl, ⟨sS, rfl,
    by decide +kernel, rfl⟩, rfl⟩, ?_, rfl, ?_, rfl, ?_⟩ <;> decide +kernel

theorem witness_CapabilityCheck : readC sS 0#4 = .ok (capOf 3 1048576) ∧ hasRight (capOf 3 1048576) .w = true ∧
    0 ≤ (1048572#64).toInt ∧ (1048572#64).toInt + (4 : Nat) ≤ capLen (capOf 3 1048576) ∧
    (capLen (capOf 3 1048576) : Int) < (1048573#64).toInt + (4 : Nat) ∧ readC sS 7#4 = .ok 0#128 ∧
    hasRight 0#128 .w = false := by
  refine ⟨rfl, ?_, ?_, ?_, ?_, rfl, ?_⟩ <;> decide +kernel

theorem witness_HardwiredRegisters : (31#5 : XReg) ≠ 0#5 ∧ (31#5 : XReg) ≠ 1#5 ∧ rotP sV (31#5).toNat ≠ rotP sV (16#5).toNat :=
  ⟨by decide, by decide, by decide +kernel⟩

theorem witness_CapabilityInspection : Poised mS 0 .S 0#4 mS sS ∧ readC sS 0#4 = .ok (capOf 3 1048576) ∧
    sS.gtrap = false ∧ (mapGet {} sS.r.c 9 : CVal).gen ≠ sS.cgen ∧ (0x00B00500#32).toNat / 2 ^ 20 % 64 = 0x0B ∧
    5 ≤ (0x00B00500#32).toNat / 2 ^ 8 % 8 :=
  ⟨poisedS, rfl, rfl, by decide +kernel, by decide, by decide⟩

theorem witness_PredicateLogic : Poised mV 0 .V 0#4 mV sV ∧ readP sV 1#5 = .ok 0x5555#1024 ∧
    readP sV 0#5 = .ok (BitVec.allOnes 1024) ∧ (0x01100018#32).toNat / 2 ^ 20 % 64 = 0x11 ∧
    6 ≤ (0x01100018#32).toNat / 2 ^ 2 % 8 ∧ Instr.form (.immx 0) = .pfx := by
  refine ⟨poisedV, ?_, ?_, ?_, ?_, rfl⟩ <;>
    first | decide +kernel | exact ok_of (by decide +kernel)

/-! ## Ill-formed terms: each check refuses one -/

theorem test_wf_refuses_scalar : [
    Instr.arith 6 false 0 false 0 false false 0, .arith 0 false 3 false 0 false false 0, .arith 0 false 0 false 1 false false 0,
    .arith 0 false 0 false 0 true false 0, .spld 0 1 1 3 true 0, .rspld 0 1 1 3 true 0, .tkpop 0, .tkpop 2, .tkpush 0,
    .tkpush 1, .tkwait 1 0, .acq 0 1 6, .rel 0 1 1 7, .fence 0 1 6, .srr 0 1 0xFFF, .srw 0 1 0xFFF].all (fun i => !i.wf) = true := by
  decide +kernel

/-- R389: a space entry that the host has written comes into force with an OTINV of the whole space, and only then. -/
theorem test_otinv_brings_space_into_force :
    let e : Space := { v := true, kdom := 2#6, obt := 0x4000 }
    let s := { State.reset with spaces := [(3, e)] }
    spaceAt s 3 = {} ∧ spaceAt (invalidate s 3 7 false) 3 = {} ∧ spaceAt (invalidate s 3 0 true) 3 = e := by decide +kernel

theorem test_wf_refuses_vector : ([
    Instr.vadd 0 1 1 63 2, .vsub 0 1 63 1 1, .vmul 0 1 63 1 1, .vfma 0 1 63 1 1 1, .vmin 0 1 63 1 1, .vmax 0 1 63 1 1,
    .vand 0 1 63 1 1, .vor 0 1 63 1 1, .vxor 0 1 63 1 1, .vcvt 0 1 1 0, .vcvtAmax 0 1 1 15 0, .vcast 0 1 1 15,
    .vsplat 0 1 1 15, .vins 0 1 1 1 15, .viota 0 1 1 1 7].all (fun i => !i.wf) &&
    (([.vabs, .vneg, .vmov, .vexp2, .vlog2, .vrecip, .vrsqrt, .vrev] ++ [.vredSum, .vredMax, .vredMin, .vredAmax] ++
      [.vscanSum, .vscanMax] : List (Tk → VReg → VReg → Bool → Instr)).all fun f => !(f 0 1 63 true).wf)) = true := by
  decide +kernel

theorem test_wf_refuses_memory : [
    Instr.vld 0 1 1 0 3 0 7, .vld 0 1 1 0 0 0 15, .vldS 0 1 1 0 3 0 7 1, .vldX 0 1 1 0 0 0 15 1, .vst 0 1 1 0 3 0,
    .vstS 0 1 1 0 3 0 1, .vstX 0 1 1 0 3 0 1, .vspld 0 1 1 15 0, .tcfg 0 0 63 63 7, .tcfg 0 0 0 0 0].all (fun i => !i.wf) = true := by
  decide +kernel

theorem test_wf_refuses_matrix_copy : [
    Instr.mlease 0 257, .mwloadm 0 0 1 true, .mregion 0 0 1 1 true 5 0, .mregion 0 0 1 1 true 0 1, .mstream 0 0 1 true 0 0 true 0,
    .mevrd 0 1 0 2 0, .mevclr 0 0 3 0, .mrank 0 1 1 1 0 0 0 0 0, .mrank 0 1 1 1 7 0 0 1 0, .mrank 0 1 1 1 7 0 0 0 1,
    .mcntRd 0 1 0x1FF, .mcntClr 0 0x102, .cpy2d 0 1 0 1 1 false 1 1 0 true false, .cpy2d 0 0 1 1 1 false 1 1 0 false true,
    .cpyCvt 0 1 0 1 1 false 1 7 8 true false, .cpyCvt 0 0 0 1 1 false 1 15 7 false false, .crcp 0 1 1 1 5 false,
    .cfence 0 6].all (fun i => !i.wf) = true := by decide +kernel

theorem test_wf_refuses_rest : [
    Instr.nop 0, .launchm blankArgs (1#128 <<< 96), .itin 64 0 0 0, .preempt 1 true false 0, .otinv 0 true 1, .otinv 0 false 0,
    .move { move0 with stier := 3 }, .move { move0 with soff := 1 }, .move { move0 with len := 0 },
    .move { move0 with doff := 1 }, .move { move0 with z := 1 }, .move { move0 with dtier := 3 }, .hint 3 0 0 1 0 0,
    .hint 0 0 0 0 0 0, .waitw 0 65, .gust 0 0, .gust 65 0, .doorbell 4 0 0, .qctlSkip 0 16, .qctlRetry 4 0, .qctlRun 0 16,
    .qctlReset 4 0, .tecStop 64, .clrLull 64, .rqcStop 16, .restore 8].all (fun i => !i.wf) = true := by decide +kernel

/-! ## Words of the spec's listings -/

theorem test_decode_scalar : decodeEngine .S 0x001190A1 0 = .ok (.sub 0 3 4 5) ∧
    decodeEngine .S 0x0272918F 0 = .ok (.amocas 0 5 2 6 7 true) ∧ decodeEngine .S 0x00F31214 0 = .ok (.cwin 0 3 1 4 5) ∧
    decodeEngine .S 0x03C28007 0 = .ok (.srr 0 5 7) ∧ decodeEngine .S 0x03A28240 0 = .ok (.fence 0 5 4) ∧
    decodeEngine .S 0x00348028 0 = .ok (.addi 0 9 0 40) := ⟨rfl, rfl, rfl, rfl, rfl, rfl⟩

theorem test_decode_vector : decodeEngine .V 0x00704004 0 = .ok (.vabs 0 1 0 true) ∧
    decodeEngine .V 0x038079EE 0 = .ok (.tcfg 0 0 15 15 7) ∧ decodeEngine .V 0x43004402 0x7000 = .ok (.vld 0 1 1 0 2 0 7) ∧
    decodeEngine .V 0x43446428 0 = .ok (.tld 0 2 3 4 5 false 0) ∧ decodeEngine .V 0x03B50001 0 = .ok (.tcolR 0 20 0 0) ∧
    decodeEngine .V 0x02C21400 0 = .ok (.vchain 0 4 5) ∧ decodeEngine .V 0x01389403 0 = .ok (.pcnt 0 17 5 3) :=
  ⟨rfl, rfl, rfl, rfl, rfl, rfl, rfl⟩

theorem test_decode_matrix : decodeEngine .M 0x00110000 0 = .ok (.mlease 0 32) ∧
    decodeEngine .M 0x54909001 0x800008FF = .ok (.mstream 5 0 18 true 8 127 true 8) ∧
    decodeEngine .M 0x005A4001 0 = .ok (.mwloadm 0 10 8 true) ∧ decodeEngine .M 0x00B12001 0 = .ok (.mreleaseOne 0 1 4) ∧
    decodeEngine .M 0x00C24A80 0 = .ok (.mdrain 0 2 9 10) ∧ decodeEngine .M 0x00E28003 0 = .ok (.mevrd 0 5 0 0 3) ∧
    decodeEngine .M 0x01330003 0 = .ok (.mcntRd 0 6 3) ∧ decodeEngine .M 0x01216340 0 = .ok (.mdist 0 1 12 13 false) ∧
    decodeEngine .M 0x0111214C 0 = .ok (.mtopkLo 0 1 4 5 6) ∧
    decodeEngine .M 0x41802000 0x8000000F = .ok (.mcplx 0 0 4 15 false) := ⟨rfl, rfl, rfl, rfl, rfl, rfl, rfl, rfl, rfl, rfl⟩

theorem test_decode_copy : decodeEngine .C 0x01400006 0 = .ok (.cfence 0 3) ∧
    decodeEngine .C 0x01042546 0 = .ok (.carm 0 8 9 10 3) ∧ decodeEngine .C 0x00C214C9 0 = .ok (.crcp 0 4 5 6 4 true) ∧
    decodeEngine .C 0x40320214 0x302A0007 = .ok (.cpyCvt 0 2 0 4 5 false 6 10 7 false true) ∧
    decodeEngine .C 0x58801DC0 0xA1E00002 = .ok (.cgath 6 1 27 16 false 20 7 8 2) := ⟨rfl, rfl, rfl, rfl, rfl⟩

/-- OP values that no row of a stream has trap ILLEGAL_OPCODE. -/
theorem test_decode_unassigned : decodeEngine .S 0x01700000 0 = .opcode ∧ decodeEngine .M 0x03000000 0 = .opcode ∧
    decodeEngine .C 0x03000000 0 = .opcode := ⟨rfl, rfl, rfl⟩

theorem test_decode_packets : decodePacket true [0x06020005, 0] = .ok (.qfence 5 0) ∧
    decodePacket true [0x0A020003, 9] = .ok (.irq 3 9) ∧ decodePacket true [0x0D030000, 7, 0] = .ok (.releaseAt 7) ∧
    decodePacket true [0x10020022, 0] = .ok (.preempt 2 false true 0) ∧
    decodePacket true [0x0E040000, 0xE20, 0x10000, 0] = .ok (.itin 0 0xE20 1 0) ∧
    decodePacket true [0x0F060000, 0xE30, 0x10000, 8, 4, 0x15] = .ok (.gather 0 0xE30 1 8 4 0x15) :=
  ⟨rfl, rfl, rfl, rfl, rfl, rfl⟩

theorem test_decode_entries : decodeEntry 0 [0x05000000, 0x001F101E, 1, 0, 0, 0, 0, 0] = .ok (.mark 0x1E true 0x1F 1) ∧
    decodeEntry 9 [0x06000000, 0x0002C000, 0x00010004, 0, 0, 0, 0, 0] = .ok (.repeatE 0 0 true true 2 4 1) ∧
    decodeEntry 0 [0x0F000000, 0, 0, 0, 0, 0, 0, 0] = .ok .itinEnd ∧ decodeEntry 0 [0, 0, 0, 0, 0, 0, 0, 0] = .error .illegal :=
  ⟨rfl, rfl, rfl, rfl⟩

/-! ## One step each: results worked out by hand from the rules -/

/-- The strand of core 0 after an instruction. -/
def after1 (i : Instr) (s : State) : Option Strand :=
  match exec i s with
  | .next t => strandAt t 0
  | _ => none

/-- A scalar register after an instruction on `mS`. -/
def xOf (i : Instr) (n : Nat) : Option DWord := (after1 i mS).map fun st => (mapGet {} st.r.x n).val

/-- −11 + 512, 3 − 7, and 7 < −11 unsigned (R86). -/
theorem test_arith : xOf (.add 0 9 2 10) 9 = some 501 ∧ xOf (.sub 0 9 5 1) 9 = some 0xFFFFFFFFFFFFFFFC ∧
    xOf (.sltu 0 9 1 2) 9 = some 1 ∧ xOf (.slt 0 9 1 2) 9 = some 0 := by
  refine ⟨?_, ?_, ?_, ?_⟩ <;> decide +kernel

/-- A shift by 64 is a shift by 0; −11 shifted right by 3 is −2 (R86). -/
theorem test_shifts : xOf (.sll 0 10 5 9) 10 = some 3 ∧ xOf (.sra 0 10 2 5) 10 = some 0xFFFFFFFFFFFFFFFE ∧
    xOf (.srl 0 10 2 5) 10 = some 0x1FFFFFFFFFFFFFFE := by refine ⟨?_, ?_, ?_⟩ <;> decide +kernel

/-- −11 × 3 = −33; −11 / 3 = −3, remainder −2; division by 0 (R87, Table 5.2). -/
theorem test_products : xOf (.mul 0 9 2 5) 9 = some 0xFFFFFFFFFFFFFFDF ∧ xOf (.mulh 0 9 2 5) 9 = some 0xFFFFFFFFFFFFFFFF ∧
    xOf (.mulhu 0 9 2 5) 9 = some 2 ∧ xOf (.div 0 9 2 5) 9 = some 0xFFFFFFFFFFFFFFFD ∧
    xOf (.rem 0 9 2 5) 9 = some 0xFFFFFFFFFFFFFFFE ∧ xOf (.divu 0 9 5 6) 9 = some 0xFFFFFFFFFFFFFFFF ∧
    xOf (.remu 0 9 5 6) 9 = some 3 := by refine ⟨?_, ?_, ?_, ?_, ?_, ?_, ?_⟩ <;> decide +kernel

/-- The immediate −1, and an upper immediate whose sign reaches bit 63 (R88). -/
theorem test_immediates : xOf (.addi 0 9 5 0x3FF) 9 = some 2 ∧ xOf (.lui 0 9 0x4000) 9 = some 0xFFFFFFC000000000 ∧
    xOf (.slti 0 9 2 0x3F5) 9 = some 0 ∧ xOf (.srai 0 9 21 63) 9 = some 0xFFFFFFFFFFFFFFFF := by
  refine ⟨?_, ?_, ?_, ?_⟩ <;> decide +kernel

/-- x0 keeps reading as zero (R84). -/
theorem test_x0 : xOf (.add 0 0 5 5) 0 = some 0 := by decide +kernel

/-- A window of 64 bytes from 0x400: its base and length (R90); crt drops rights and always D. -/
theorem test_capabilities : (after1 (.cwin 0 1 0 7 9) mS).map (fun st =>
      let c := (mapGet {} st.r.c 1 : CVal).val
      (capBase c, capLen c, capObj c)) = some (0x400, 64, 3) ∧
    (after1 (.crt 0 1 0 1) mS).map (fun st => (mapGet {} st.r.c 1 : CVal).val.extractLsb' 80 8) = some 0x06 ∧
    xOf (.cinspLen 0 9 0) 9 = some 1048576 := by refine ⟨?_, ?_, ?_⟩ <;> decide +kernel

/-- Bytes 0x80 and 0x01 at offset 64 of object 3. -/
def mBytes : State := { mS with mem := memPut mS.mem 0x300000040 [0x80, 0x01] }

/-- A byte is sign-extended, a halfword is read with its low byte first (R92). -/
theorem test_loads : (after1 (.ldb 0 12 0 9 0) mBytes).map (fun st => (mapGet {} st.r.x 12).val) = some 0xFFFFFFFFFFFFFF80 ∧
    (after1 (.ldhu 0 12 0 9 0) mBytes).map (fun st => (mapGet {} st.r.x 12).val) = some 0x180 := by
  refine ⟨?_, ?_⟩ <;> decide +kernel

/-- A store stands in the strand until it is performed, with its bytes and place (R92, R398). -/
theorem test_store : (after1 (.sth 0 8 0 9 1) mS).map (fun st => st.stores.map fun w => (w.pa, w.bytes)) =
    some [(0x300000042, [0x00, 0x10])] := by decide +kernel

/-- A misaligned address traps DATA_MISALIGNED in the stream (R92). -/
theorem test_misaligned : (after1 (.ldw 0 12 0 1 0) mS).map (fun st => (streamOf st .S).tr.map (·.cause)) =
    some (some .dataMisaligned) := by decide +kernel

/-- Scratchpad: eight bytes stored at offset 0x400 (R83). -/
theorem test_scratchpad : (match exec (.spst 0 2 7 3 0) mS with
    | .next t => spBytes t 0 1 0x400 8
    | _ => []) = [0xF5, 0xFF, 0xFF, 0xFF, 0xFF, 0xFF, 0xFF, 0xFF] := by decide +kernel

/-- amoadd of 3 to 0x0180: the old value in xd, the new one in its granule's write (R96, R363). -/
theorem test_amo : (match exec (.amoadd 0 12 0 9 5 false) mBytes with
    | .next t => ((strandAt t 0).map fun st => (mapGet {} st.r.x 12).val,
        (mapFind t.wq 0xC000001).map fun e => granBytes e.val 0 4)
    | _ => (none, none)) = (some 0x180, some [0x83, 0x01, 0x00, 0x00]) := by decide +kernel

/-- The program counter after an instruction of a stream of `e`. -/
def pcOf (e : Engine) (i : Instr) (s : State) : Option (BitVec 32) := (after1 i s).map fun st => (streamOf st e).pc

/-- A branch goes to its own address plus 4 × offset where taken, else on (R97). -/
theorem test_branches : pcOf .S (.beq 0 5 5 3) mS = some 12 ∧ pcOf .S (.beq 0 5 1 3) mS = some 4 ∧
    pcOf .S (.blt 0 2 5 3) mS = some 12 ∧ pcOf .S (.bltu 0 2 5 3) mS = some 4 ∧ pcOf .S (.jr 0 4) mS = some 60 := by
  refine ⟨?_, ?_, ?_, ?_, ?_⟩ <;> decide +kernel

/-- A signal of semaphore 7 that holds 3 adds xb and gives the sum (R101). -/
theorem test_semaphore : (match exec (.semsig 0 9 1 10) mS with
    | .next t => (semOf t 0 7, (strandAt t 0).map fun st => (mapGet {} st.r.x 9).val)
    | _ => (0, none)) = (515, some 515) := by decide +kernel

/-- brk enters the handler at UIVEC, with UIEPC the address after and UISTAT its code, source 1 and ACT (R78). -/
theorem test_brk : (after1 (.brk 0 5) (machine .S (sUi 0))).map (fun st =>
    ((streamOf st .S).pc, st.sys.uiepc, st.sys.uistat)) = some (4, 4, 0x50006) := by decide +kernel

/-- Elements 0 and 1 of v6 after an instruction of the vector stream. -/
def vOf (i : Instr) : Option (BitVec 4 × Nat × Nat) :=
  (after1 i mV).map fun st =>
    let v := (mapGet {} st.r.v 6 : VVal)
    (v.fmt, v.val.toNat % 2 ^ 32, v.val.toNat / 2 ^ 32 % 2 ^ 32)

/-- −2 + 1 and 2 + 0; −2 × 1; |−2|; −2 and 2 with 1 and 0: the larger (R117, R118). -/
theorem test_vector : vOf (.vadd 0 6 1 2 0) = some (7, 0xBF800000, 0x40000000) ∧
    vOf (.vmul 0 6 1 2 0) = some (7, 0xC0000000, 0) ∧ vOf (.vabs 0 6 1 false) = some (7, 0x40000000, 0x40000000) ∧
    vOf (.vmax 0 6 1 2 0) = some (7, 0x3F800000, 0x40000000) := by refine ⟨?_, ?_, ?_, ?_⟩ <;> decide +kernel

/-- The sum of −2 and 2, rounded up from BF16, the two words turned round (R128, R132, R135). -/
theorem test_vector_moves : vOf (.vredSum 0 6 1 false) = some (7, 0, 0) ∧ vOf (.vcvt 0 6 5 7) = some (7, 0x3F800000, 0) ∧
    vOf (.vsplat 0 6 1 7) = some (7, 7, 7) ∧ vOf (.vslideDn 0 6 1 2) = some (7, 0x40000000, 0) := by
  refine ⟨?_, ?_, ?_, ?_⟩ <;> decide +kernel

/-- −2 < 1 in element 0 and not 2 < 0 in element 1; three elements of 16 bits below 3 (R124, R126). -/
theorem test_predicates : (after1 (.vcmpLt 0 3 1 2) mV).map (fun st => (mapGet {} st.r.p 3 : PVal).val) = some 0xFF ∧
    (after1 (.pwhile 0 3 5 2) mV).map (fun st => (mapGet {} st.r.p 3 : PVal).val) = some 0xFFF := by
  refine ⟨?_, ?_⟩ <;> decide +kernel

/-- The loop branch lowers VLC and goes back (R127). -/
theorem test_vloop : (after1 (.vloop 0 15) (machine .V (sLoop 3 1))).map (fun st =>
    ((streamOf st .V).pc, st.sys.vlc, st.sys.vec)) = some (60, 2, 1) := by decide +kernel

/-- A lease is granted at once where the array is free; a region of no rows is none (R180, R188). -/
theorem test_matrix : (match exec (.mlease 0 5) (machine .M sM) with
    | .next t => (Machine.quadAt t 0).lease.map fun l => (l.core, l.run)
    | _ => none) = some (0, 5) ∧
    (after1 (.mregion 0 1 6 6 true 0 0) mM).map (fun st => st.regions.map Prod.fst) = some [2, 3] := by
  refine ⟨?_, ?_⟩ <;> decide +kernel

/-- A fill of 64 bytes takes a slot of the copy engine (R255). -/
theorem test_copy : (after1 (.cfill 0 8 9 5 false) mC).map (fun st => st.copies.map fun c => c.op) =
    some [.fill (.sp 0x1000) 64 3] := by decide +kernel

/-- A queue's signal adds and the head passes its four words (R209, R213). -/
theorem test_packet : (match exec (.semsigP 7 5) (withQueue q0) with
    | .next t => (semOf t 0 7, (Machine.queueAt t 0 1).head)
    | _ => (0, 0)) = (8, 16) := by decide +kernel

/-- A REPEAT that arms its level jumps and counts (R343). -/
theorem test_repeat : (match exec (.repeatE 2 1 true true 3 4 1) (withCtx ctx0 []) with
    | .next t => ((ctxAt t 2).idx, mapGet 0 (ctxAt t 2).rem 1, (ctxAt t 2).arm)
    | _ => (0, 0, 0)) = (2, 2, 2) := by decide +kernel

/-- FRAME advances by one; a power cap below 300 W changes nothing (R5, R393). -/
theorem test_package : (match exec .frameTick mS with | .next t => t.frame | _ => 0) = 1 ∧
    (match exec (.registerWrite 0x28 299) mS with | .next t => t.pwrCap | _ => 0) = 2400 ∧
    (match exec (.registerWrite 0x28 300) mS with | .next t => t.pwrCap | _ => 0) = 300 := by
  refine ⟨?_, ?_, ?_⟩ <;> decide +kernel

/-- The step of a placed word runs it: x3 receives x4 − x5 of the reset registers (R21). -/
theorem test_step : (match step mFetch with
    | .next t => (strandAt t 0).map fun st => (streamOf st .S).pc
    | _ => none) = some 4 ∧ (mapGet {} sS.r.x 3).val = 104 := by refine ⟨?_, ?_⟩ <;> decide +kernel

end Sys2Proof.Tests
end

section
/-! The scalar engine (chapter 5): register arithmetic, the immediate forms and the inspection of capabilities. A body that
writes one x register is framed once, and each group of instructions reads that frame through its shared operation. -/
namespace Sys2Proof.Proofs.ScalarEngine
open Sys2Proof Sys2Proof.Machine Sys2Proof.Safety Sys2Proof.Laws

/-! ## The frame of a body that writes one x register -/

/-- The tk_pop changes a strand only: what IMMX, ARITH and LABEL have latched for the instruction stands. -/
theorem pfx_eq_of_poised {s s1 : State} {core : Nat} {e : Engine} {tk : Tk} {st : Strand} (h : Poised s core e tk s1 st) :
    s1.pfx = s.pfx := by
  obtain ⟨-, ⟨st0, hst0, -, hpop⟩, -⟩ := h
  obtain ⟨-, -, hrest, -⟩ := popStep_ok hst0 hpop
  have hpfx : (rest s1).pfx = (rest s).pfx := by rw [hrest]
  exact hpfx

theorem immOf_of_poised {s s1 : State} {core : Nat} {e : Engine} {tk : Tk} {st : Strand} {w : Nat}
    (h : Poised s core e tk s1 st) (imm : BitVec w) : immOf s1 imm = immOf s imm := by
  unfold immOf
  rw [pfx_eq_of_poised h]

/-- Replacing the strand on a core and finishing is finishing on the machine as it was, with that strand. -/
theorem finished_of_setStrand {s t : State} {core : Nat} {e : Engine} {st st' : Strand} {pc : BitVec 32}
    (h : Finished (setStrand s core st') core e st pc t) : Finished s core e st pc t :=
  finished_trans h (fun c hc => by rw [strandAt_setStrand, if_neg hc.symm]) (rest_setStrand s core st') rfl fun _ _ => rfl

section
variable {s s1 : State} {core : Nat} {tk : Tk} {st : Strand}

/-- An instruction whose body, on the machine after the tk_pop, computes `v` for xd. -/
theorem completes_of_finX {i : Instr} {e : Engine} {b : State → Nat → Strand → Eff} {xd : XReg} {v : DWord}
    (h : Poised s core e tk s1 st) (hi : exec i s = issue e tk b s) (hb : b s1 core st = finX s1 core e st xd v) :
    Completes i s s1 core e (writeX st e xd v) s1.grp.next := by
  obtain ⟨t, ht, hfin⟩ := issue_fin b h (fun _ => hb) (by rw [strandAt_setStrand, if_pos rfl])
  exact ⟨t, hi.trans ht, finished_of_setStrand hfin⟩

/-- The alu and mul groups (R86, R87). -/
theorem completes_of_alu2 {i : Instr} {f : DWord → DWord → DWord} {xd xa xb : XReg} {a b : DWord}
    (h : Poised s core .S tk s1 st) (ha : readX st .S xa = .ok a) (hb : readX st .S xb = .ok b)
    (hi : exec i s = alu2 f tk xd xa xb s) : Completes i s s1 core .S (writeX st .S xd (f a b)) s1.grp.next := by
  have hab : readX2 st .S xa xb = .ok (a, b) := by rw [readX2, ha, hb]; rfl
  exact completes_of_finX h hi (by rw [hab]; rfl)

/-- The immediate forms (R88): the second operand is the immediate, or IMMX and the immediate. -/
theorem completes_of_aluI {i : Instr} {f : DWord → DWord → DWord} {xd xa : XReg} {imm : BitVec 10} {a : DWord}
    (h : Poised s core .S tk s1 st) (ha : readX st .S xa = .ok a) (hi : exec i s = aluI f tk xd xa imm s) :
    Completes i s s1 core .S (writeX st .S xd (f a (imm64 s imm))) s1.grp.next := by
  have himm : imm64 s1 imm = imm64 s imm := congrArg i64 (immOf_of_poised h imm)
  exact completes_of_finX h hi (by rw [ha, orTrap, himm])

/-- The shift group by an immediate count (R88). -/
theorem completes_of_shiftI {i : Instr} {f : DWord → Nat → DWord} {xd xa : XReg} {n : BitVec 6} {a : DWord}
    (h : Poised s core .S tk s1 st) (ha : readX st .S xa = .ok a) (hi : exec i s = shiftI f tk xd xa n s) :
    Completes i s s1 core .S (writeX st .S xd (f a n.toNat)) s1.grp.next :=
  completes_of_finX h hi (by rw [ha, orTrap])

/-- The fields of a capability (R89). -/
theorem completes_of_cinsp {i : Instr} {f : CapBits → Nat} {xd : XReg} {ca : CReg} {c : CapBits}
    (h : Poised s core .S tk s1 st) (hc : readC st ca = .ok c) (hi : exec i s = cinsp f tk xd ca s) :
    Completes i s s1 core .S (writeX st .S xd (d64 (f c))) s1.grp.next :=
  completes_of_finX h hi (by rw [hc, orTrap])

end

/-! ## Values -/

theorem b64_decide (p : Prop) [Decidable p] : b64 (decide p) = if p then 1 else 0 := by
  by_cases hp : p <;> simp [b64, hp]

theorem d64_toNat {w : Nat} (x : BitVec w) : d64 x.toNat = x.setWidth 64 := BitVec.ofNat_toNat 64 x

theorem ofInt_two_pow (k : Nat) : BitVec.ofInt 64 (2 ^ k) = BitVec.twoPow 64 k := by
  have hcast : (2 : Int) ^ k = ((2 ^ k : Nat) : Int) := by norm_cast
  apply BitVec.eq_of_toNat_eq
  rw [hcast, BitVec.ofInt_natCast, BitVec.toNat_ofNat, BitVec.toNat_twoPow]

/-- An integer times a power of two, modulo 2^64, is its bits moved left. -/
theorem i64_mul_two_pow {w : Nat} (x : BitVec w) (k : Nat) : i64 (x.toInt * 2 ^ k) = x.signExtend 64 <<< k := by
  rw [i64, BitVec.ofInt_mul, ofInt_two_pow, BitVec.shiftLeft_eq_mul_twoPow, BitVec.signExtend]

/-- The immediate as bits: the field sign-extended, or under IMMX the 26 upper bits before it (R29). -/
theorem imm64_eq {w : Nat} (s : State) (imm : BitVec w) :
    imm64 s imm = match s.pfx.immx with
      | none => imm.signExtend 64
      | some u => (u ++ imm).signExtend 64 := by
  unfold imm64 immOf
  cases s.pfx.immx <;> rfl

/-- The same times 2^24, as lui takes it (R88). -/
theorem i64_immOf_mul {w : Nat} (s : State) (imm : BitVec w) :
    i64 (immOf s imm * 2 ^ 24) = match s.pfx.immx with
      | none => imm.signExtend 64 <<< 24
      | some u => (u ++ imm).signExtend 64 <<< 24 := by
  unfold immOf
  cases s.pfx.immx <;> exact i64_mul_two_pow _ 24

/-- A void register reads as the zero capability under ZERO (R67). -/
theorem readC_void {st : Strand} {ca : CReg} (hz : st.gtrap = false)
    (hv : (mapGet {} st.r.c ca.toNat : CVal).gen ≠ st.cgen) : readC st ca = .ok 0#128 := by
  rw [readC, tagRead, if_neg hv, hz]
  rfl

/-! ## Decoding -/

theorem fieldOf_eq_div_mod {n : Nat} (x : BitVec n) (lo k : Nat) : fieldOf x lo k = x.toNat / 2 ^ lo % 2 ^ k := by
  rw [fieldOf, BitVec.extractLsb'_toNat, Nat.shiftRight_eq_div_pow]

theorem fieldOf_zero_eq_mod {n : Nat} (x : BitVec n) (k : Nat) : fieldOf x 0 k = x.toNat % 2 ^ k := by
  rw [fieldOf_eq_div_mod, Nat.pow_zero, Nat.div_one]

theorem wOP_eq_div_mod (w : Word) : wOP w = w.toNat / 2 ^ 20 % 64 := fieldOf_eq_div_mod w 20 6

/-- The functions of the alu group are FN 0 to 13 (R86). -/
theorem decodeS_alu_unassigned {w : Word} (hop : wOP w = 0x01) (hfn : 14 ≤ fieldOf w 0 5) : decodeS w = .opcode := by
  obtain ⟨k, hk⟩ := Nat.exists_eq_add_of_le' hfn
  unfold decodeS
  rw [hop, hk]
  rfl

/-- The functions of the mul group are FN 0 to 7 (R87). -/
theorem decodeS_mul_unassigned {w : Word} (hop : wOP w = 0x02) (hfn : 8 ≤ fieldOf w 0 5) : decodeS w = .opcode := by
  obtain ⟨k, hk⟩ := Nat.exists_eq_add_of_le' hfn
  unfold decodeS
  rw [hop, hk]
  rfl

/-- The selectors of the shift group are 0 to 2 (R88). -/
theorem decodeS_shift_unassigned {w : Word} (hop : wOP w = 0x07) (hsel : 3 ≤ fieldOf w 6 4) : decodeS w = .opcode := by
  obtain ⟨k, hk⟩ := Nat.exists_eq_add_of_le' hsel
  unfold decodeS
  rw [hop, hk]
  rfl

/-- The fields that cinsp reads are 0 to 4 (R89). -/
theorem decodeS_cinsp_unassigned {w : Word} (hop : wOP w = 0x0B) (hf : 5 ≤ fieldOf w 8 3) : decodeS w = .opcode := by
  obtain ⟨k, hk⟩ := Nat.exists_eq_add_of_le' hf
  unfold decodeS
  rw [hop, hk]
  rfl

/-! ## The obligations -/

/-- Settles O1: every instruction of the two groups is its function on the two sources, framed once. -/
theorem scalarRegisterArithmetic : Obligations.ScalarRegisterArithmetic := by
  refine ⟨?alu, ?mul, ?aluDecode, ?mulDecode⟩
  case alu =>
    intro s s1 core tk st xd xa xb a b h ha hb done
    have run (i : Instr) (f : DWord → DWord → DWord) (hi : exec i s = alu2 f tk xd xa xb s) : done i (f a b) :=
      completes_of_alu2 h ha hb hi
    exact ⟨run _ (fun a b => a + b) rfl, run _ (fun a b => a - b) rfl, run _ (fun a b => a &&& b) rfl,
      run _ (fun a b => a ||| b) rfl, run _ (fun a b => a ^^^ b) rfl,
      run _ (fun a b => a <<< (b.toNat % 64)) rfl, run _ (fun a b => a >>> (b.toNat % 64)) rfl,
      run _ (fun a b => a.sshiftRight (b.toNat % 64)) rfl,
      by rw [← b64_decide]; exact run _ (fun a b => b64 (decide (a.toInt < b.toInt))) rfl,
      by rw [← b64_decide]; exact run _ (fun a b => b64 (decide (a.toNat < b.toNat))) rfl,
      run _ (fun a b => if a.toInt ≤ b.toInt then a else b) rfl,
      run _ (fun a b => if a.toInt ≤ b.toInt then b else a) rfl,
      run _ (fun a b => if a.toNat ≤ b.toNat then a else b) rfl,
      run _ (fun a b => if a.toNat ≤ b.toNat then b else a) rfl⟩
  case mul =>
    intro s s1 core tk st xd xa xb a b h ha hb done
    have run (i : Instr) (f : DWord → DWord → DWord) (hi : exec i s = alu2 f tk xd xa xb s) : done i (f a b) :=
      completes_of_alu2 h ha hb hi
    exact ⟨run _ (fun a b => a * b) rfl, run _ (fun a b => i64 (a.toInt * b.toInt / 2 ^ 64)) rfl,
      run _ (fun a b => d64 (a.toNat * b.toNat / 2 ^ 64)) rfl,
      run _ (fun a b => i64 (a.toInt * (b.toNat : Int) / 2 ^ 64)) rfl,
      run _ divS rfl, run _ divU rfl, run _ remS rfl, run _ remU rfl⟩
  case aluDecode =>
    intro w w2 hop hfn
    exact decodeS_alu_unassigned ((wOP_eq_div_mod w).trans hop)
      (Nat.le_trans hfn (Nat.le_of_eq (fieldOf_zero_eq_mod w 5).symm))
  case mulDecode =>
    intro w w2 hop hfn
    exact decodeS_mul_unassigned ((wOP_eq_div_mod w).trans hop)
      (Nat.le_trans hfn (Nat.le_of_eq (fieldOf_zero_eq_mod w 5).symm))

/-- Settles O2: the second operand is the immediate of R29, on the machine after the tk_pop as before it. -/
theorem scalarImmediates : Obligations.ScalarImmediates := by
  refine ⟨?forms, ?shiftDecode, fun _ => rfl⟩
  case forms =>
    intro s s1 core tk st xd xa imm n l a h ha done v u
    have hv : imm64 s imm = v := imm64_eq s imm
    have hu : i64 (immOf s1 l * 2 ^ 24) = u := by
      rw [immOf_of_poised h]
      exact i64_immOf_mul s l
    have run (i : Instr) (f : DWord → DWord → DWord) (hi : exec i s = aluI f tk xd xa imm s) : done i (f a v) :=
      hv ▸ completes_of_aluI h ha hi
    have shift (i : Instr) (f : DWord → Nat → DWord) (hi : exec i s = shiftI f tk xd xa n s) : done i (f a n.toNat) :=
      completes_of_shiftI h ha hi
    exact ⟨run _ (fun a b => a + b) rfl, run _ (fun a b => a &&& b) rfl, run _ (fun a b => a ||| b) rfl,
      run _ (fun a b => a ^^^ b) rfl,
      by rw [← b64_decide]; exact run _ (fun a b => b64 (decide (a.toInt < b.toInt))) rfl,
      by rw [← b64_decide]; exact run _ (fun a b => b64 (decide (a.toNat < b.toNat))) rfl,
      shift _ (fun a n => a <<< n) rfl, shift _ (fun a n => a >>> n) rfl, shift _ (fun a n => a.sshiftRight n) rfl,
      completes_of_finX h rfl (by rw [hu])⟩
  case shiftDecode =>
    intro w w2 hop hsel
    exact decodeS_shift_unassigned ((wOP_eq_div_mod w).trans hop)
      (Nat.le_trans hsel (Nat.le_of_eq (fieldOf_eq_div_mod w 6 4).symm))

/-- Settles O59: a field of the capability is the bits that Table 11.2 gives it, and no right is looked at. -/
theorem capabilityInspection : Obligations.CapabilityInspection := by
  refine ⟨?fields, fun _ _ => readC_void, ?decode⟩
  case fields =>
    intro s s1 core tk st xd ca c h hc done
    have run (i : Instr) (f : CapBits → Nat) (hi : exec i s = cinsp f tk xd ca s) : done i (d64 (f c)) :=
      completes_of_cinsp h hc hi
    exact ⟨d64_toNat _ ▸ run _ capBase rfl, d64_toNat _ ▸ run _ capLen rfl,
      d64_toNat _ ▸ run _ (fun c => (capRights c).toNat) rfl, d64_toNat _ ▸ run _ capObj rfl,
      d64_toNat _ ▸ run _ capOgen rfl⟩
  case decode =>
    intro w w2 hop hf
    exact decodeS_cinsp_unassigned ((wOP_eq_div_mod w).trans hop)
      (Nat.le_trans hf (Nat.le_of_eq (fieldOf_eq_div_mod w 8 3).symm))

end Sys2Proof.Proofs.ScalarEngine
end

section
/-! The vector engine (chapter 6): predicate logic. Every form is a function of the source predicates, bit by bit, and the
frame of a body that only replaces its strand carries it. -/
namespace Sys2Proof.Proofs.PredicateLogic
open Sys2Proof Sys2Proof.Machine Sys2Proof.Safety Sys2Proof.Laws Sys2Proof.Proofs.ScalarEngine

section
variable {s s1 : State} {core : Nat} {tk : Tk} {st : Strand}

/-- An instruction whose body, on the machine after the tk_pop, only replaces the strand, by `st'`. -/
theorem completes_of_setStrand {i : Instr} {e : Engine} {b : State → Nat → Strand → Eff} {st' : Strand}
    (h : Poised s core e tk s1 st) (hi : exec i s = issue e tk b s) (hb : b s1 core st = .fin (setStrand s1 core st')) :
    Completes i s s1 core e st' s1.grp.next := by
  obtain ⟨t, ht, hfin⟩ := issue_fin b h (fun _ => hb) (by rw [strandAt_setStrand, if_pos rfl])
  exact ⟨t, hi.trans ht, finished_of_setStrand hfin⟩

/-- The forms of two sources (R125). -/
theorem completes_of_pLogic {i : Instr} {f : PBits → PBits → PBits} {pd pa pb : PReg} {a b : PBits}
    (h : Poised s core .V tk s1 st) (ha : readP st pa = .ok a) (hb : readP st pb = .ok b)
    (hi : exec i s = pLogic f tk pd pa pb s) : Completes i s s1 core .V (writeP st pd (f a b)) s1.grp.next :=
  completes_of_setStrand h hi (by rw [ha, hb]; rfl)

/-- The forms of one source (R125). -/
theorem completes_of_pLogic1 {i : Instr} {f : PBits → PBits} {pd pa : PReg} {a : PBits}
    (h : Poised s core .V tk s1 st) (ha : readP st pa = .ok a) (hi : exec i s = pLogic1 f tk pd pa s) :
    Completes i s s1 core .V (writeP st pd (f a)) s1.grp.next :=
  completes_of_setStrand h hi (by rw [ha, orTrap])

end

/-- The functions of plogic are FN 0 to 5 (R125). -/
theorem decodeV_plogic_unassigned {w w2 : Word} (hop : wOP w = 0x11) (hfn : 6 ≤ fieldOf w 2 3) :
    decodeV w w2 = .opcode := by
  obtain ⟨k, hk⟩ := Nat.exists_eq_add_of_le' hfn
  unfold decodeV
  rw [hop, hk]
  rfl

/-- The class of Table 2.3 that accepts no prefix accepts none: neither LABEL, nor IMMX, nor ARITH of any fields. -/
theorem acceptsPrefix_none (p : Instr) : acceptsPrefix .none p = false := by
  unfold acceptsPrefix
  split <;> rfl

/-- Settles O60: each form is its bitwise function, framed once; OP 0x11 is of the class that accepts no prefix. -/
theorem predicateLogic : Obligations.PredicateLogic := by
  refine ⟨?forms, ?decode, fun p _ => acceptsPrefix_none p⟩
  case forms =>
    intro s s1 core tk st pd pa pb a b h ha hb done
    have run2 (i : Instr) (f : PBits → PBits → PBits) (hi : exec i s = pLogic f tk pd pa pb s) : done i (f a b) :=
      completes_of_pLogic h ha hb hi
    have run1 (i : Instr) (f : PBits → PBits) (hi : exec i s = pLogic1 f tk pd pa s) : done i (f a) :=
      completes_of_pLogic1 h ha hi
    exact ⟨run2 _ (fun a b => a &&& b) rfl, run2 _ (fun a b => a ||| b) rfl, run2 _ (fun a b => a ^^^ b) rfl,
      run2 _ (fun a b => a &&& ~~~b) rfl, run1 _ (fun a => ~~~a) rfl, run1 _ (fun a => a) rfl⟩
  case decode =>
    intro w w2 hop hfn
    exact decodeV_plogic_unassigned ((wOP_eq_div_mod w).trans hop)
      (Nat.le_trans hfn (Nat.le_of_eq (fieldOf_eq_div_mod w 2 3).symm))

end Sys2Proof.Proofs.PredicateLogic
end

section
/-! Reset. The machine lists nothing: each core, die, controller, port and queue reads as the default record of its
kind, whose fields the model writes once with the values of Tables 14.1, 14.5, 18.4, 18.6 and 18.7. -/
namespace Sys2Proof.Proofs.Reset
open Sys2Proof Sys2Proof.Machine Sys2Proof.Safety Sys2Proof.Laws

/-! ## What is read where nothing is listed -/

@[simp] theorem mapGet_nil {α : Type} (d : α) (k : Nat) : mapGet d ([] : FMap α) k = d := by
  rw [mapGet, mapFind_nil, Option.getD_none]

theorem core_reset (core : Nat) : mapGet {} State.reset.cores core = ({} : CoreSt) := mapGet_nil _ core

theorem dieAt_reset (die : Nat) : dieAt State.reset die = {} := mapGet_nil _ die

theorem ctlAt_reset (c : Nat) : ctlAt State.reset c = {} := mapGet_nil _ c

theorem portAt_reset (p : Nat) : portAt State.reset p = {} := mapGet_nil _ p

theorem queueAt_reset (die q : Nat) : queueAt State.reset die q = {} := by
  rw [queueAt, dieAt_reset]
  exact mapGet_nil _ q

/-- The package runs in phase 7 (R381), and reset leaves phase 0. -/
theorem ready_reset : ready State.reset = false := rfl

/-! ## The obligation -/

/-- Settles O52: the machine's own fields are those of `State.reset`, and every part reads as the default record of its
kind. -/
theorem resetState : Obligations.ResetState := by
  refine ⟨rfl, rfl, rfl, rfl, rfl, rfl, rfl, reset_memOk, ready_reset, ?cores, ?queues, ?dies, ?ctls, ?ports, rfl, rfl⟩
  case cores =>
    intro core
    exact congrArg CoreSt.gctr (core_reset core)
  case queues =>
    intro die q
    rw [queueAt_reset]
    exact ⟨rfl, rfl, rfl, rfl⟩
  case dies =>
    intro die
    rw [dieAt_reset]
    exact ⟨rfl, rfl, rfl, rfl, rfl, rfl⟩
  case ctls =>
    intro c
    rw [ctlAt_reset]
    exact ⟨rfl, rfl, rfl, rfl, rfl, rfl, rfl⟩
  case ports =>
    intro p
    exact congrArg CxlPort.tmo (portAt_reset p)

end Sys2Proof.Proofs.Reset
end

section
/-! Encoding (chapter 2): each constructor has its own lemma of the round trip; the obligation is all of them together. -/
namespace Sys2Proof.Proofs.Encoding
open Sys2Proof Sys2Proof.Machine Sys2Proof.Safety Sys2Proof.Laws

/-- Reading an instruction's own words gives it back, constructor by constructor. -/
theorem roundTrip : ∀ i : Instr, RoundTrip.Statement i
  | .arith .. => RoundTrip.arith _ _ _ _ _ _ _ _
  | .label .. => RoundTrip.label _
  | .immx .. => RoundTrip.immx _
  | .snop .. => RoundTrip.snop _
  | .add .. => RoundTrip.add _ _ _ _
  | .sub .. => RoundTrip.sub _ _ _ _
  | .andR .. => RoundTrip.andR _ _ _ _
  | .orR .. => RoundTrip.orR _ _ _ _
  | .xorR .. => RoundTrip.xorR _ _ _ _
  | .sll .. => RoundTrip.sll _ _ _ _
  | .srl .. => RoundTrip.srl _ _ _ _
  | .sra .. => RoundTrip.sra _ _ _ _
  | .slt .. => RoundTrip.slt _ _ _ _
  | .sltu .. => RoundTrip.sltu _ _ _ _
  | .minR .. => RoundTrip.minR _ _ _ _
  | .maxR .. => RoundTrip.maxR _ _ _ _
  | .minu .. => RoundTrip.minu _ _ _ _
  | .maxu .. => RoundTrip.maxu _ _ _ _
  | .mul .. => RoundTrip.mul _ _ _ _
  | .mulh .. => RoundTrip.mulh _ _ _ _
  | .mulhu .. => RoundTrip.mulhu _ _ _ _
  | .mulhsu .. => RoundTrip.mulhsu _ _ _ _
  | .div .. => RoundTrip.div _ _ _ _
  | .divu .. => RoundTrip.divu _ _ _ _
  | .rem .. => RoundTrip.rem _ _ _ _
  | .remu .. => RoundTrip.remu _ _ _ _
  | .addi .. => RoundTrip.addi _ _ _ _
  | .andi .. => RoundTrip.andi _ _ _ _
  | .ori .. => RoundTrip.ori _ _ _ _
  | .xori .. => RoundTrip.xori _ _ _ _
  | .slli .. => RoundTrip.slli _ _ _ _
  | .srli .. => RoundTrip.srli _ _ _ _
  | .srai .. => RoundTrip.srai _ _ _ _
  | .slti .. => RoundTrip.slti _ _ _ _
  | .sltiu .. => RoundTrip.sltiu _ _ _ _
  | .lui .. => RoundTrip.lui _ _ _
  | .cinspBase .. => RoundTrip.cinspBase _ _ _
  | .cinspLen .. => RoundTrip.cinspLen _ _ _
  | .cinspRights .. => RoundTrip.cinspRights _ _ _
  | .cinspObj .. => RoundTrip.cinspObj _ _ _
  | .cinspGen .. => RoundTrip.cinspGen _ _ _
  | .pgcommit .. => RoundTrip.pgcommit _ _ _ _
  | .pgfree .. => RoundTrip.pgfree _ _ _ _
  | .pgquery .. => RoundTrip.pgquery _ _ _ _
  | .cwin .. => RoundTrip.cwin _ _ _ _ _
  | .crt .. => RoundTrip.crt _ _ _ _
  | .cmov .. => RoundTrip.cmov _ _ _
  | .ldb .. => RoundTrip.ldb _ _ _ _ _
  | .ldbu .. => RoundTrip.ldbu _ _ _ _ _
  | .ldh .. => RoundTrip.ldh _ _ _ _ _
  | .ldhu .. => RoundTrip.ldhu _ _ _ _ _
  | .ldw .. => RoundTrip.ldw _ _ _ _ _
  | .ldwu .. => RoundTrip.ldwu _ _ _ _ _
  | .ldd .. => RoundTrip.ldd _ _ _ _ _
  | .stb .. => RoundTrip.stb _ _ _ _ _
  | .sth .. => RoundTrip.sth _ _ _ _ _
  | .stw .. => RoundTrip.stw _ _ _ _ _
  | .std .. => RoundTrip.std _ _ _ _ _
  | .spld .. => RoundTrip.spld _ _ _ _ _ _
  | .spst .. => RoundTrip.spst _ _ _ _ _
  | .rspld .. => RoundTrip.rspld _ _ _ _ _ _
  | .rspst .. => RoundTrip.rspst _ _ _ _ _
  | .amoadd .. => RoundTrip.amoadd _ _ _ _ _ _
  | .amomin .. => RoundTrip.amomin _ _ _ _ _ _
  | .amomax .. => RoundTrip.amomax _ _ _ _ _ _
  | .amoand .. => RoundTrip.amoand _ _ _ _ _ _
  | .amoor .. => RoundTrip.amoor _ _ _ _ _ _
  | .amoxor .. => RoundTrip.amoxor _ _ _ _ _ _
  | .amoswap .. => RoundTrip.amoswap _ _ _ _ _ _
  | .amocas .. => RoundTrip.amocas _ _ _ _ _ _
  | .spamoAdd .. => RoundTrip.spamoAdd _ _ _ _ _ _
  | .spamoMin .. => RoundTrip.spamoMin _ _ _ _ _ _
  | .spamoMax .. => RoundTrip.spamoMax _ _ _ _ _ _
  | .spamoAnd .. => RoundTrip.spamoAnd _ _ _ _ _ _
  | .spamoOr .. => RoundTrip.spamoOr _ _ _ _ _ _
  | .spamoXor .. => RoundTrip.spamoXor _ _ _ _ _ _
  | .spamoSwap .. => RoundTrip.spamoSwap _ _ _ _ _ _
  | .spamoCas .. => RoundTrip.spamoCas _ _ _ _ _ _
  | .beq .. => RoundTrip.beq _ _ _ _
  | .bne .. => RoundTrip.bne _ _ _ _
  | .blt .. => RoundTrip.blt _ _ _ _
  | .bge .. => RoundTrip.bge _ _ _ _
  | .bltu .. => RoundTrip.bltu _ _ _ _
  | .bgeu .. => RoundTrip.bgeu _ _ _ _
  | .jmp .. => RoundTrip.jmp _ _
  | .call .. => RoundTrip.call _ _
  | .jr .. => RoundTrip.jr _ _
  | .callr .. => RoundTrip.callr _ _
  | .tkpop .. => RoundTrip.tkpop _
  | .tkpush .. => RoundTrip.tkpush _
  | .tkwait .. => RoundTrip.tkwait _ _
  | .semsig .. => RoundTrip.semsig _ _ _ _
  | .semwaitGe .. => RoundTrip.semwaitGe _ _ _ _
  | .semwaitEq .. => RoundTrip.semwaitEq _ _ _ _
  | .semwaitNe .. => RoundTrip.semwaitNe _ _ _ _
  | .semrd .. => RoundTrip.semrd _ _ _
  | .rbind .. => RoundTrip.rbind _ _ _ _ _
  | .runbind .. => RoundTrip.runbind _ _ _ _ _
  | .acq .. => RoundTrip.acq _ _ _
  | .rel .. => RoundTrip.rel _ _ _ _
  | .fence .. => RoundTrip.fence _ _ _
  | .barrive .. => RoundTrip.barrive _ _
  | .bwait .. => RoundTrip.bwait _ _
  | .cbar .. => RoundTrip.cbar _
  | .srr .. => RoundTrip.srr _ _ _
  | .srw .. => RoundTrip.srw _ _ _
  | .safept .. => RoundTrip.safept _ _
  | .sEnd .. => RoundTrip.sEnd _
  | .brk .. => RoundTrip.brk _ _
  | .trapu .. => RoundTrip.trapu _ _
  | .uiret .. => RoundTrip.uiret _
  | .vnop .. => RoundTrip.vnop _
  | .vadd .. => RoundTrip.vadd _ _ _ _ _
  | .vsub .. => RoundTrip.vsub _ _ _ _ _
  | .vmul .. => RoundTrip.vmul _ _ _ _ _
  | .vfma .. => RoundTrip.vfma _ _ _ _ _ _
  | .vmin .. => RoundTrip.vmin _ _ _ _ _
  | .vmax .. => RoundTrip.vmax _ _ _ _ _
  | .vabs .. => RoundTrip.vabs _ _ _ _
  | .vneg .. => RoundTrip.vneg _ _ _ _
  | .vand .. => RoundTrip.vand _ _ _ _ _
  | .vor .. => RoundTrip.vor _ _ _ _ _
  | .vxor .. => RoundTrip.vxor _ _ _ _ _
  | .vshiftL .. => RoundTrip.vshiftL _ _ _ _
  | .vshiftR .. => RoundTrip.vshiftR _ _ _ _
  | .vshiftA .. => RoundTrip.vshiftA _ _ _ _
  | .vsel .. => RoundTrip.vsel _ _ _ _ _
  | .vwmul .. => RoundTrip.vwmul _ _ _ _
  | .vwadd .. => RoundTrip.vwadd _ _ _ _
  | .vmov .. => RoundTrip.vmov _ _ _ _
  | .vcmpEq .. => RoundTrip.vcmpEq _ _ _ _
  | .vcmpLt .. => RoundTrip.vcmpLt _ _ _ _
  | .vcmpLe .. => RoundTrip.vcmpLe _ _ _ _
  | .vcmpNe .. => RoundTrip.vcmpNe _ _ _ _
  | .pand .. => RoundTrip.pand _ _ _ _
  | .por .. => RoundTrip.por _ _ _ _
  | .pxor .. => RoundTrip.pxor _ _ _ _
  | .pandn .. => RoundTrip.pandn _ _ _ _
  | .pnot .. => RoundTrip.pnot _ _ _
  | .pmov .. => RoundTrip.pmov _ _ _
  | .pwhile .. => RoundTrip.pwhile _ _ _ _
  | .pcnt .. => RoundTrip.pcnt _ _ _ _
  | .vexp2 .. => RoundTrip.vexp2 _ _ _ _
  | .vlog2 .. => RoundTrip.vlog2 _ _ _ _
  | .vrecip .. => RoundTrip.vrecip _ _ _ _
  | .vrsqrt .. => RoundTrip.vrsqrt _ _ _ _
  | .vcvt .. => RoundTrip.vcvt _ _ _ _
  | .vcvtAmax .. => RoundTrip.vcvtAmax _ _ _ _ _
  | .vcast .. => RoundTrip.vcast _ _ _ _
  | .vsplat .. => RoundTrip.vsplat _ _ _ _
  | .vext .. => RoundTrip.vext _ _ _ _
  | .vins .. => RoundTrip.vins _ _ _ _ _
  | .viota .. => RoundTrip.viota _ _ _ _ _
  | .vredSum .. => RoundTrip.vredSum _ _ _ _
  | .vredMax .. => RoundTrip.vredMax _ _ _ _
  | .vredMin .. => RoundTrip.vredMin _ _ _ _
  | .vredAmax .. => RoundTrip.vredAmax _ _ _ _
  | .vscanSum .. => RoundTrip.vscanSum _ _ _ _
  | .vscanMax .. => RoundTrip.vscanMax _ _ _ _
  | .vperm .. => RoundTrip.vperm _ _ _ _
  | .vslideUp .. => RoundTrip.vslideUp _ _ _ _
  | .vslideDn .. => RoundTrip.vslideDn _ _ _ _
  | .vzip .. => RoundTrip.vzip _ _ _ _
  | .vunzip .. => RoundTrip.vunzip _ _ _ _
  | .vrev .. => RoundTrip.vrev _ _ _ _
  | .vchain .. => RoundTrip.vchain _ _ _
  | .vld .. => RoundTrip.vld _ _ _ _ _ _ _
  | .vldS .. => RoundTrip.vldS _ _ _ _ _ _ _ _
  | .vldX .. => RoundTrip.vldX _ _ _ _ _ _ _ _
  | .vst .. => RoundTrip.vst _ _ _ _ _ _
  | .vstS .. => RoundTrip.vstS _ _ _ _ _ _ _
  | .vstX .. => RoundTrip.vstX _ _ _ _ _ _ _
  | .vspld .. => RoundTrip.vspld _ _ _ _ _
  | .vspst .. => RoundTrip.vspst _ _ _ _
  | .tld .. => RoundTrip.tld _ _ _ _ _ _ _
  | .tst .. => RoundTrip.tst _ _ _ _ _ _ _
  | .tcfg .. => RoundTrip.tcfg _ _ _ _ _
  | .tzero .. => RoundTrip.tzero _ _
  | .trowW .. => RoundTrip.trowW _ _ _ _
  | .trowR .. => RoundTrip.trowR _ _ _ _
  | .tcolW .. => RoundTrip.tcolW _ _ _ _
  | .tcolR .. => RoundTrip.tcolR _ _ _ _
  | .vbrAny .. => RoundTrip.vbrAny _ _ _
  | .vbrAll .. => RoundTrip.vbrAll _ _ _
  | .vbrNone .. => RoundTrip.vbrNone _ _ _
  | .vjmp .. => RoundTrip.vjmp _ _
  | .vloop .. => RoundTrip.vloop _ _
  | .vend .. => RoundTrip.vend _
  | .mnop .. => RoundTrip.mnop _
  | .mlease .. => RoundTrip.mlease _ _
  | .munlease .. => RoundTrip.munlease _
  | .mwload .. => RoundTrip.mwload _ _ _ _
  | .mwloadm .. => RoundTrip.mwloadm _ _ _ _
  | .mpswap .. => RoundTrip.mpswap _
  | .mregion .. => RoundTrip.mregion _ _ _ _ _ _ _
  | .mstream .. => RoundTrip.mstream _ _ _ _ _ _ _ _
  | .mbind .. => RoundTrip.mbind _ _ _ _
  | .mrelease .. => RoundTrip.mrelease _ _
  | .mreleaseOne .. => RoundTrip.mreleaseOne _ _ _
  | .mdrain .. => RoundTrip.mdrain _ _ _ _
  | .mdrainFree .. => RoundTrip.mdrainFree _ _ _ _
  | .mswap .. => RoundTrip.mswap _ _ _
  | .mevrd .. => RoundTrip.mevrd _ _ _ _ _
  | .mevclr .. => RoundTrip.mevclr _ _ _ _
  | .mrank .. => RoundTrip.mrank _ _ _ _ _ _ _ _ _
  | .mtopkLo .. => RoundTrip.mtopkLo _ _ _ _ _
  | .mtopkHi .. => RoundTrip.mtopkHi _ _ _ _ _
  | .mdist .. => RoundTrip.mdist _ _ _ _ _
  | .mcntRd .. => RoundTrip.mcntRd _ _ _
  | .mcntClr .. => RoundTrip.mcntClr _ _
  | .mcplx .. => RoundTrip.mcplx _ _ _ _ _
  | .msave .. => RoundTrip.msave _ _ _
  | .mrestore .. => RoundTrip.mrestore _ _ _
  | .mloop .. => RoundTrip.mloop _
  | .mend .. => RoundTrip.mend _
  | .cnop .. => RoundTrip.cnop _
  | .cpy .. => RoundTrip.cpy _ _ _ _ _ _ _
  | .cpy2d .. => RoundTrip.cpy2d _ _ _ _ _ _ _ _ _ _ _
  | .cpyCvt .. => RoundTrip.cpyCvt _ _ _ _ _ _ _ _ _ _ _
  | .cpyin .. => RoundTrip.cpyin _ _ _ _ _ _
  | .cpyout .. => RoundTrip.cpyout _ _ _ _ _ _
  | .cpyaccRd .. => RoundTrip.cpyaccRd _ _ _ _ _
  | .cpyaccWr .. => RoundTrip.cpyaccWr _ _ _ _ _
  | .cfill .. => RoundTrip.cfill _ _ _ _ _
  | .cfillCw .. => RoundTrip.cfillCw _ _ _ _ _
  | .cgath .. => RoundTrip.cgath _ _ _ _ _ _ _ _ _
  | .cscat .. => RoundTrip.cscat _ _ _ _ _ _ _ _ _
  | .cnullZero .. => RoundTrip.cnullZero _ _ _ _
  | .cnullId .. => RoundTrip.cnullId _ _ _ _ _
  | .cnullConst .. => RoundTrip.cnullConst _ _ _ _ _
  | .crcp .. => RoundTrip.crcp _ _ _ _ _ _
  | .carm .. => RoundTrip.carm _ _ _ _ _
  | .cdisarm .. => RoundTrip.cdisarm _ _
  | .cfence .. => RoundTrip.cfence _ _
  | .cwaitAll .. => RoundTrip.cwaitAll _
  | .cwaitLe .. => RoundTrip.cwaitLe _ _
  | .cloop .. => RoundTrip.cloop _
  | .cend .. => RoundTrip.cend _
  | .nop .. => RoundTrip.nop _
  | .launch .. => RoundTrip.launch _
  | .launchm .. => RoundTrip.launchm _ _
  | .copyP .. => RoundTrip.copyP _ _ _
  | .semsigP .. => RoundTrip.semsigP _ _
  | .semwaitP .. => RoundTrip.semwaitP _ _ _
  | .qfence .. => RoundTrip.qfence _ _
  | .jumpP .. => RoundTrip.jumpP _ _ _
  | .callP .. => RoundTrip.callP _ _ _
  | .returnP .. => RoundTrip.returnP
  | .irq .. => RoundTrip.irq _ _
  | .frameBegin .. => RoundTrip.frameBegin _ _ _
  | .frameEnd .. => RoundTrip.frameEnd
  | .releaseAt .. => RoundTrip.releaseAt _
  | .itin .. => RoundTrip.itin _ _ _ _
  | .gather .. => RoundTrip.gather _ _ _ _ _ _
  | .preempt .. => RoundTrip.preempt _ _ _ _
  | .setpri .. => RoundTrip.setpri _ _
  | .otinv .. => RoundTrip.otinv _ _ _
  | .move .. => RoundTrip.move _
  | .mcast .. => RoundTrip.mcast _ _ _ _ _
  | .hint .. => RoundTrip.hint _ _ _ _ _ _
  | .waitw .. => RoundTrip.waitw _ _
  | .mark .. => RoundTrip.mark _ _ _ _
  | .repeatE .. => RoundTrip.repeatE _ _ _ _ _ _ _
  | .gust .. => RoundTrip.gust _ _
  | .batch .. => RoundTrip.batch _ _ _ _ _
  | .itinEnd .. => RoundTrip.itinEnd
  | .doorbell .. => RoundTrip.doorbell _ _ _
  | .qctlSkip .. => RoundTrip.qctlSkip _ _
  | .qctlRetry .. => RoundTrip.qctlRetry _ _
  | .qctlRun .. => RoundTrip.qctlRun _ _
  | .qctlReset .. => RoundTrip.qctlReset _ _
  | .cpEvict .. => RoundTrip.cpEvict _ _
  | .cpResume .. => RoundTrip.cpResume _ _
  | .tecStop .. => RoundTrip.tecStop _
  | .clrLull .. => RoundTrip.clrLull _
  | .rqcStop .. => RoundTrip.rqcStop _
  | .restore .. => RoundTrip.restore _
  | .rstCtlReset .. => RoundTrip.rstCtlReset
  | .pwrReqOn .. => RoundTrip.pwrReqOn
  | .pwrReqStandby .. => RoundTrip.pwrReqStandby
  | .pwrReqOff .. => RoundTrip.pwrReqOff
  | .fpPush .. => RoundTrip.fpPush _ _
  | .registerWrite .. => RoundTrip.registerWrite _ _
  | .powerOn .. => RoundTrip.powerOn
  | .perst .. => RoundTrip.perst
  | .bootPhase .. => RoundTrip.bootPhase _
  | .frameTick .. => RoundTrip.frameTick
  | .deadlineClose .. => RoundTrip.deadlineClose _
  | .overrun .. => RoundTrip.overrun _ _
  | .frameRelease .. => RoundTrip.frameRelease _ _
  | .releaseTick .. => RoundTrip.releaseTick _ _
  | .gustRelease .. => RoundTrip.gustRelease _
  | .powerWindow .. => RoundTrip.powerWindow _
  | .idleEnter .. => RoundTrip.idleEnter
  | .counterCommit .. => RoundTrip.counterCommit
  | .tokenDeadlock .. => RoundTrip.tokenDeadlock _
  | .arrayGrant .. => RoundTrip.arrayGrant _
  | .watchdogRun .. => RoundTrip.watchdogRun _ _
  | .watchdogStall .. => RoundTrip.watchdogStall _ _
  | .watchdogQueue .. => RoundTrip.watchdogQueue _ _
  | .preemptOverdue .. => RoundTrip.preemptOverdue _ _ _
  | .crewDispatch .. => RoundTrip.crewDispatch _
  | .sweepDone .. => RoundTrip.sweepDone _
  | .safePointSave .. => RoundTrip.safePointSave _ _
  | .crewRestore .. => RoundTrip.crewRestore _ _
  | .writeOut .. => RoundTrip.writeOut _
  | .lineFill .. => RoundTrip.lineFill _ _ _
  | .copyComplete .. => RoundTrip.copyComplete _ _
  | .landingDone .. => RoundTrip.landingDone _
  | .uiDelivery .. => RoundTrip.uiDelivery _
  | .faultEntry .. => RoundTrip.faultEntry _ _
  | .frameReturn .. => RoundTrip.frameReturn _
  | .launchComplete .. => RoundTrip.launchComplete _ _
  | .shardFlit .. => RoundTrip.shardFlit _ _ _
  | .ackFlit .. => RoundTrip.ackFlit _ _ _
  | .failureFlit .. => RoundTrip.failureFlit _ _ _
  | .removalFlit .. => RoundTrip.removalFlit _ _
  | .endOfStream .. => RoundTrip.endOfStream _
  | .acktoSource .. => RoundTrip.acktoSource _ _ _
  | .acktoMember .. => RoundTrip.acktoMember _
  | .completionTimeout .. => RoundTrip.completionTimeout _
  | .cxlCompletion .. => RoundTrip.cxlCompletion _ _ _
  | .hostReadTimeout .. => RoundTrip.hostReadTimeout _ _
  | .flitReplay .. => RoundTrip.flitReplay _
  | .ovlanLinkDown .. => RoundTrip.ovlanLinkDown _
  | .boundaryDown .. => RoundTrip.boundaryDown _
  | .thermalFreeze .. => RoundTrip.thermalFreeze _ _
  | .thermalResume .. => RoundTrip.thermalResume _
  | .mcWrite .. => RoundTrip.mcWrite _
  | .mcRead .. => RoundTrip.mcRead _ _ _
  | .entryDrain .. => RoundTrip.entryDrain _
  | .drainAge .. => RoundTrip.drainAge _
  | .promoteC2 .. => RoundTrip.promoteC2 _
  | .scrubRead .. => RoundTrip.scrubRead _ _
  | .readCounter .. => RoundTrip.readCounter _ _ _
  | .getCert .. => RoundTrip.getCert _ _
  | .attest .. => RoundTrip.attest _
  | .getLog .. => RoundTrip.getLog _ _
  | .debugRead .. => RoundTrip.debugRead _ _
  | .rawRead .. => RoundTrip.rawRead _
  | .debugWrite .. => RoundTrip.debugWrite _ _ _
  | .fwStage .. => RoundTrip.fwStage _ _
  | .fwCommit .. => RoundTrip.fwCommit _
  | .setEndpointId .. => RoundTrip.setEndpointId _ _
  | .unknownCommand .. => RoundTrip.unknownCommand _
  | .linkRetrained .. => RoundTrip.linkRetrained _
  | .powerLoss .. => RoundTrip.powerLoss
  | .hostWindowAccess .. => RoundTrip.hostWindowAccess _ _ _ _ _
  | .accessPerformed .. => RoundTrip.accessPerformed _
  | .matrixFinish .. => RoundTrip.matrixFinish _
  | .moveComplete .. => RoundTrip.moveComplete _ _
  | .scrubWriteback .. => RoundTrip.scrubWriteback _

/-- Settles O50: every constructor reads back where its fields are well formed. -/
theorem encodingReadsBack : Obligations.EncodingReadsBack := roundTrip

end Sys2Proof.Proofs.Encoding
end

section
/-! The machine as a whole and the register files: what a step runs, what the checks of a capability answer, and what a
read of a register gives after a write. -/
namespace Sys2Proof.Proofs.Foundations
open Sys2Proof Sys2Proof.Machine Sys2Proof.Safety Sys2Proof.Laws

/-! ## Decoding and prefixes -/

/-- Settles O14: each prefix writes its own latch and no other field. -/
theorem prefixLatch : Obligations.PrefixLatch :=
  fun _ _ _ _ _ _ _ _ _ _ _ => ⟨rfl, rfl, rfl⟩

/-- Settles O49: each word is closed, and its decoder evaluates on it. -/
theorem decodeWords : Obligations.DecodeWords := by
  refine ⟨?_, ?_, ?_, ?_, ?_, ?_, ?_, ?_, ?_, rfl, rfl⟩ <;> decide +kernel

/-! ## What a step runs -/

theorem step_of_scheduled {s : State} {t : Turn} {r : List Turn} (h : s.schedule = t :: r) :
    step s = runTurn { s with schedule := r } t := by
  rw [step, h]

/-- The turn of a stream whose next group is in its core's store and decodes: its follower is executed. -/
theorem streamTurn_of_decoded {s : State} {core : Nat} {e : Engine} {st : Strand} {h : Handle} {koff len : Nat} {g : Scan}
    {pre : List Instr} {i : Instr} {ws : List Word} {next : Nat} (hst : strandAt s core = some st)
    (hmay : mayIssue s st e = true) (himg : imageOf s st e = some (h, koff, len))
    (hscan : scanGroup (len / 4 + 1) (mapGet {} s.cores core) h koff len (streamOf st e).pc.toNat [] = .ok g)
    (hdec : decodeGroup e g (fetchWord (mapGet {} s.cores core) h koff len (g.addr + 4)) = .ok pre i ws next) :
    streamTurn s core e = closeTurn (exec i (prepareGroup (touchGroup s core h koff (streamOf st e).pc.toNat (next - 4)) core e
      (streamOf st e).pc.toNat g.addr next ws pre)) := by
  simp only [streamTurn, hst, hmay, himg, hscan, hdec, Bool.not_true, Bool.false_eq_true, if_false]

theorem eventTurn_of_next {s t : State} {i : Instr} (hi : isTick i = false) (h : exec i { s with cur := .none } = .next t) :
    eventTurn s i = closeTurn (.next t) := by
  simp only [eventTurn, hi, Bool.false_eq_true, if_false, h]

/-- The advance of FRAME is the one event that a device in self-refresh does not hold (R367). -/
theorem eventTurn_of_tick {s t : State} {i : Instr} (hi : isTick i = true) (h : exec i { s with cur := .none } = .next t) :
    eventTurn s i = closeTurn (.next { t with stall := false }) := by
  cases i <;> simp only [isTick, Bool.false_eq_true] at hi
  case frameTick =>
    have hx : execFrameTick { s with cur := .none } = .next t := h
    simp only [eventTurn, isTick, if_true, tickTurn, hx, andThen]

theorem execPacket_eq_exec (p : Packet) (s : State) : execPacket p s = exec p.instr s := by cases p <;> rfl

theorem execEntry_eq_exec (e : Entry) (s : State) : execEntry e s = exec e.instr s := by cases e <;> rfl

/-- Settles O51: the turn of the party scheduled, by the kind of the turn. -/
theorem stepRunsTheDecoded : Obligations.StepRunsTheDecoded := by
  refine ⟨?stream, ?event, execPacket_eq_exec, execEntry_eq_exec⟩
  case stream =>
    intro s core e r st h koff len g pre i ws next hs s1 c pc hst hmay himg hscan hdec
    rw [step_of_scheduled hs]
    exact congrArg (holdHot s1) (streamTurn_of_decoded hst hmay himg hscan hdec)
  case event =>
    intro s i r t hs s1 hx
    rw [step_of_scheduled hs]
    refine ⟨fun hi => congrArg (holdHot s1) (eventTurn_of_next hi hx), fun hi => ?_⟩
    exact (congrArg (holdHot s1) (eventTurn_of_tick hi hx)).trans rfl

/-! ## Capabilities -/

/-- cap_check on a register that reads: the checks of its window (R46). -/
theorem capCheck_of_read {st : Strand} {cn : CReg} {off : DWord} {size : Nat} {rt : Right} {c : CapBits}
    (h : readC st cn = .ok c) :
    capCheck st cn off size rt = (capWindow c cn.toNat off.toInt size rt).map fun a => (c, a) := by
  rw [capCheck, h]
  cases hw : capWindow c cn.toNat off.toInt size rt <;> simp [bind, Except.bind, hw, Except.map]

/-- Settles O57: the right is tested first; a window within the bound starts at an offset that is not negative. -/
theorem capabilityCheck : Obligations.CapabilityCheck := by
  intro st cn off size rt c h n
  simp only [capCheck_of_read h, capWindow]
  refine ⟨fun hr => ?_, fun hr hb => ?_, fun hr h0 hb => ?_⟩
  · rw [hr]; rfl
  · simp [hr, hb, trapWith, Except.map, n]
  · have hin : ¬(off.toInt < 0 ∨ (capLen c : Int) < off.toInt + size) := by omega
    have hnat : off.toInt.toNat = off.toNat := by
      have h := BitVec.toInt_eq_toNat_cond off
      have hlt := off.isLt
      split at h <;> omega
    simp [hr, hin, Except.map, hnat]

/-! ## Register files -/

/-- A current value reads as it stands, whatever the mode (R46). -/
@[simp] theorem tagRead_current {α : Type} (b : Bool) (g : Gen) (v z : α) : tagRead b g g v z = .ok v := if_pos rfl

theorem readX_zero (st : Strand) (e : Engine) : readX st e 0#5 = .ok 0#64 := if_pos rfl
theorem writeX_zero (st : Strand) (e : Engine) (v : DWord) : writeX st e 0#5 v = st := if_pos rfl
theorem readP_zero (st : Strand) : readP st 0#5 = .ok (BitVec.allOnes 1024) := if_pos rfl
theorem writeP_zero (st : Strand) (b : PBits) : writeP st 0#5 b = st := if_pos rfl

/-- The value that an x register's name means: in the scalar stream's handler x24 to x31 are the shadow bank (R78). -/
def xReg (st : Strand) (e : Engine) (n : Nat) : XVal :=
  if shadowOn st e n then mapGet {} st.r.sx n else mapGet {} st.r.x n

theorem readX_eq (st : Strand) (e : Engine) {x : XReg} (hx : x ≠ 0#5) :
    readX st e x = tagRead st.gtrap st.cgen (xReg st e x.toNat).gen (xReg st e x.toNat).val 0#64 := if_neg hx

/-- A write of an x register leaves everything but the register files. -/
theorem writeX_regs (st : Strand) (e : Engine) (x : XReg) (v : DWord) : ∃ r, writeX st e x v = { st with r := r } := by
  unfold writeX
  split
  · exact ⟨st.r, rfl⟩
  · split <;> exact ⟨_, rfl⟩

@[simp] theorem writeX_sys (st : Strand) (e : Engine) (x : XReg) (v : DWord) : (writeX st e x v).sys = st.sys := by
  obtain ⟨r, h⟩ := writeX_regs st e x v
  rw [h]

@[simp] theorem writeX_gtrap (st : Strand) (e : Engine) (x : XReg) (v : DWord) : (writeX st e x v).gtrap = st.gtrap := by
  obtain ⟨r, h⟩ := writeX_regs st e x v
  rw [h]

@[simp] theorem writeX_cgen (st : Strand) (e : Engine) (x : XReg) (v : DWord) : (writeX st e x v).cgen = st.cgen := by
  obtain ⟨r, h⟩ := writeX_regs st e x v
  rw [h]

/-- What a write of an x register changes of what the names mean: each name means one register of its bank. -/
theorem xReg_writeX (st : Strand) (e : Engine) {x : XReg} (n : Nat) (v : DWord) (hx : x ≠ 0#5) :
    xReg (writeX st e x v) e n = if x.toNat = n then { gen := st.cgen, val := v } else xReg st e n := by
  have hs : shadowOn (writeX st e x v) e n = shadowOn st e n := by rw [shadowOn, writeX_sys]; rfl
  rw [xReg, hs, writeX, if_neg hx]
  by_cases hn : x.toNat = n
  · subst hn
    cases h : shadowOn st e x.toNat <;> simp
  · cases h : shadowOn st e x.toNat <;> simp [hn, xReg]

/-- A read of an x register after a write of one (R64, R78). -/
theorem readX_writeX (st : Strand) (e : Engine) {x : XReg} (y : XReg) (v : DWord) (hx : x ≠ 0#5) :
    readX (writeX st e x v) e y = if x = y then .ok v else readX st e y := by
  by_cases hy : y = 0#5
  · subst hy; rw [if_neg hx, readX_zero, readX_zero]
  · rw [readX_eq _ e hy, readX_eq _ e hy, writeX_gtrap, writeX_cgen, xReg_writeX st e _ v hx]
    by_cases hxy : x = y
    · rw [if_pos (congrArg BitVec.toNat hxy), if_pos hxy, tagRead_current]
    · rw [if_neg (mt BitVec.toNat_inj.1 hxy), if_neg hxy]

/-- A read of a predicate after a write of one, by the registers that their names mean (R20, R64). -/
theorem readP_writeP (st : Strand) {p : PReg} (q : PReg) (b : PBits) (hp : p ≠ 0#5) :
    readP (writeP st p b) q = if q = 0#5 then .ok (BitVec.allOnes 1024)
      else if rotP st p.toNat = rotP st q.toNat then .ok b else readP st q := by
  have hr : ∀ n, rotP (writeP st p b) n = rotP st n := fun n => by rw [writeP, if_neg hp]; rfl
  by_cases hq : q = 0#5
  · rw [if_pos hq, readP, if_pos hq]
  · rw [if_neg hq, readP, if_neg hq, hr, writeP, if_neg hp]
    by_cases hpq : rotP st p.toNat = rotP st q.toNat <;> simp [hpq, readP, hq]

/-- Settles O58: x0 and p0 are tests of their own; any other register reads by the map that a write sets. -/
theorem hardwiredRegisters : Obligations.HardwiredRegisters := by
  intro st e v b x y p q
  refine ⟨readX_zero st e, writeX_zero st e v, readP_zero st, writeP_zero st b, fun hx => ?_, fun hxy => ?_, fun hp => ?_,
    fun hpq => ?_⟩
  · rw [readX_writeX st e x v hx, if_pos rfl]
  · by_cases hx : x = 0#5
    · rw [hx, writeX_zero]
    · rw [readX_writeX st e y v hx, if_neg hxy]
  · rw [readP_writeP st p b hp, if_neg hp, if_pos rfl]
  · by_cases hp : p = 0#5
    · rw [hp, writeP_zero]
    · rw [readP_writeP st q b hp, if_neg hpq]
      split
      · rename_i hq; rw [hq, readP_zero]
      · rfl

end Sys2Proof.Proofs.Foundations
end

section
/-! The frame of an instruction (R46): what its turn leaves, by the answer of its body. Each lemma takes the body's answer on
the machine after the tk_pop and gives the whole turn; the engines' statements are read through them. -/
namespace Sys2Proof.Proofs.Turns
open Sys2Proof Sys2Proof.Machine Sys2Proof.Safety Sys2Proof.Laws Sys2Proof.Proofs.ScalarEngine

/-! ## Checks -/

theorem orTrap_ok {α : Type} {s : State} {c : Chk α} {k : α → Eff} {a : α} (h : c = .ok a) : orTrap s c k = k a := by
  rw [h, orTrap]

theorem orTrap_error {α : Type} {s : State} {c : Chk α} {k : α → Eff} {t : Trapped} (h : c = .error t) :
    orTrap s c k = .trap s t := by
  rw [h, orTrap]

theorem bind_of_ok {ε α β : Type} {x : Except ε α} {f : α → Except ε β} {a : α} (h : x = .ok a) : (x >>= f) = f a := by
  rw [h]; rfl

theorem bind_of_error {ε α β : Type} {x : Except ε α} {f : α → Except ε β} {t : ε} (h : x = .error t) :
    (x >>= f) = .error t := by
  rw [h]; rfl

theorem readX2_of_ok {st : Strand} {e : Engine} {xa xb : XReg} {a b : DWord} (ha : readX st e xa = .ok a)
    (hb : readX st e xb = .ok b) : readX2 st e xa xb = .ok (a, b) := by
  rw [readX2, bind_of_ok ha, bind_of_ok hb]

/-! ## The turn of an instruction -/

section
variable {s s1 s2 : State} {core : Nat} {e : Engine} {tk : Tk} {st st2 : Strand} {i : Instr}
variable {b : State → Nat → Strand → Eff}

/-- The strand of a poised stream stands on its core after the tk_pop. -/
theorem strandAt_of_poised (h : Poised s core e tk s1 st) : strandAt s1 core = some st := by
  obtain ⟨-, ⟨st0, hst0, -, hpop⟩, -⟩ := h
  exact (popStep_ok hst0 hpop).1

/-- The crews and launches of a poised stream's machine are those before its tk_pop. -/
theorem crews_of_poised (h : Poised s core e tk s1 st) : s1.crews = s.crews ∧ s1.launches = s.launches := by
  obtain ⟨-, ⟨st0, hst0, -, hpop⟩, -⟩ := h
  obtain ⟨-, -, -, hcrews, hlaunches, -⟩ := popStep_ok hst0 hpop
  exact ⟨hcrews, hlaunches⟩

/-- The pattern of a poised instruction is that which its strand keeps after the tk_pop. -/
theorem patOf_of_poised (h : Poised s core e tk s1 st) :
    ∃ st0, strandAt s core = some st0 ∧ patOf st0 e tk = patOf st e tk ∧ body st = body st0 := by
  obtain ⟨-, ⟨st0, hst0, -, hpop⟩, -⟩ := h
  refine ⟨st0, hst0, ?_, (popStep_ok hst0 hpop).2.1⟩
  unfold popStep at hpop
  dsimp only at hpop
  split at hpop
  · cases hpop; rfl
  · split at hpop
    · generalize hx : ({ streamOf (popSet st0 e (popOf (patOf st0 e tk))) e with
        popped := true, pat := patOf st0 e tk, st := .issuing } : Stream) = x at hpop
      have hst := (Prod.mk.inj (Except.ok.inj hpop)).2
      have hun := (streamOf_settlePushes (setStream (popSet st0 e (popOf (patOf st0 e tk))) e x) e).1
      rw [hst, streamOf_setStream, if_pos rfl, ← hx] at hun
      have hpopped : (streamOf st e).popped = true := unpushed_popped hun
      have hpat : (streamOf st e).pat = patOf st0 e tk := congrArg Stream.pat hun
      rw [patOf.eq_1 st, hpopped, if_pos rfl, hpat]
    · cases hpop

/-- A poised instruction runs its body on the machine after its tk_pop. -/
theorem exec_of_poised (h : Poised s core e tk s1 st) (hi : exec i s = issue e tk b s) :
    exec i s = .next (closeEff core e (patOf st e tk) (b s1 core st)) := by
  obtain ⟨st0, hst0, hpat, -⟩ := patOf_of_poised h
  obtain ⟨hcur, ⟨st', hst', hok, hpop⟩, -⟩ := h
  cases hst0.symm.trans hst'
  rw [hi, issue, issuePre, actor_of hcur hst0]
  dsimp only
  rw [hok, Bool.not_true, if_neg Bool.false_ne_true, hpop, hpat]

theorem completes_of_fin (h : Poised s core e tk s1 st) (hi : exec i s = issue e tk b s) (hb : b s1 core st = .fin s2)
    (h2 : strandAt s2 core = some st2) : Completes i s s2 core e st2 s2.grp.next := by
  obtain ⟨t, ht, hfin⟩ := issue_fin b h (fun _ => hb) h2
  exact ⟨t, hi.trans ht, hfin⟩

/-- A body that ends with a change to its strand: the frame is that of the machine before the change. -/
theorem completes_of_mod {f : Strand → Strand} (h : Poised s core e tk s1 st) (hi : exec i s = issue e tk b s)
    (hb : b s1 core st = .fin (modStrand s2 core f)) (h2 : strandAt s2 core = some st2) :
    Completes i s s2 core e (f st2) s2.grp.next := by
  rw [modStrand_some f h2] at hb
  obtain ⟨t, ht, hfin⟩ := issue_fin b h (fun _ => hb) (by rw [strandAt_setStrand, if_pos rfl])
  exact ⟨t, hi.trans ht, finished_of_setStrand hfin⟩

/-- A body that only replaces its strand. -/
theorem completes_of_set {st' : Strand} (h : Poised s core e tk s1 st) (hi : exec i s = issue e tk b s)
    (hb : b s1 core st = .fin (setStrand s2 core st')) : Completes i s s2 core e st' s2.grp.next := by
  obtain ⟨t, ht, hfin⟩ := issue_fin b h (fun _ => hb) (by rw [strandAt_setStrand, if_pos rfl])
  exact ⟨t, hi.trans ht, finished_of_setStrand hfin⟩

theorem completes_of_stored (h : Poised s core e tk s1 st) (hi : exec i s = issue e tk b s) (hb : b s1 core st = .stored s2)
    (h2 : strandAt s2 core = some st2) : Completes i s s2 core e st2 s2.grp.next := by
  exact ⟨_, exec_of_poised h hi, hb ▸ closeEff_stored _ h2⟩

theorem completes_of_jump {t : BitVec 32} (h : Poised s core e tk s1 st) (hi : exec i s = issue e tk b s)
    (hb : b s1 core st = .jump s2 t) (h2 : strandAt s2 core = some st2) : Completes i s s2 core e st2 t := by
  exact ⟨_, exec_of_poised h hi, hb ▸ closeEff_jump _ t h2⟩

/-- The frame over a machine with another strand on the core is the frame over the machine. -/
theorem completes_of_over {st' : Strand} {pc : BitVec 32} (h : Completes i s (setStrand s2 core st') core e st pc) :
    Completes i s s2 core e st pc := by
  obtain ⟨t, ht, hfin⟩ := h
  exact ⟨t, ht, finished_of_setStrand hfin⟩

/-- A taken transfer that also replaces its strand. -/
theorem completes_of_jumpSet {t : BitVec 32} {st' : Strand} (h : Poised s core e tk s1 st)
    (hi : exec i s = issue e tk b s) (hb : b s1 core st = .jump (setStrand s2 core st') t) :
    Completes i s s2 core e st' t :=
  completes_of_over (completes_of_jump h hi hb (by rw [strandAt_setStrand, if_pos rfl]))

end

/-! ## Reads of an instruction -/

/-- A read that the memory port answers: the body goes on with its bytes (R92). -/
theorem withRead_ok {s s2 : State} {core : Nat} {e : Engine} {st : Strand} {rmw : Bool} {obj ogen off size : Nat}
    {k : List Byte → State → Eff} {l : List Byte}
    (h : portRead s core st { readerOf st e with rmw := rmw } obj ogen off size = .ok l s2) :
    withRead s core e st rmw obj ogen off size k = k l s2 := by
  rw [withRead, h]

end Sys2Proof.Proofs.Turns
end

section
/-! The scalar engine's capabilities, accesses, atomics and transfers (R90, R92 to R98). -/
namespace Sys2Proof.Proofs.ScalarAccesses
open Sys2Proof Sys2Proof.Machine Sys2Proof.Safety Sys2Proof.Laws Sys2Proof.Proofs.ScalarEngine
  Sys2Proof.Proofs.Foundations Sys2Proof.Proofs.Turns

/-! ## Capabilities derived from others (R90) -/

theorem capCheck_ok {st : Strand} {cn : CReg} {off : DWord} {size : Nat} {rt : Right} {c : CapBits} (h : readC st cn = .ok c)
    (hr : hasRight c rt = true) (h0 : 0 ≤ off.toInt) (hb : off.toInt + size ≤ capLen c) :
    capCheck st cn off size rt = .ok (c, capBase c + off.toNat) :=
  (capabilityCheck st cn off size rt c h).2.2 hr h0 hb

/-- Settles O3: a window under the bound passes cap_check, and the zero window does of every capability with D. -/
theorem capabilityDerivation : Obligations.CapabilityDerivation := by
  intro s s1 core tk st xa xb cd ca c a b h hc ha hb done
  refine ⟨completes_of_set h rfl (orTrap_ok hc), fun hd => ⟨?crt, fun h0 hl => ?cwin⟩⟩
  case crt =>
    have hz := capCheck_ok (off := 0#64) (size := 0) hc hd (by decide) (by simp)
    exact completes_of_set h rfl (orTrap_ok (by rw [bind_of_ok ha, bind_of_ok hz]; rfl))
  case cwin =>
    have hw := capCheck_ok hc hd h0 hl
    exact completes_of_set h rfl (orTrap_ok (by rw [bind_of_ok (readX2_of_ok ha hb)]; dsimp only; rw [bind_of_ok hw]))

/-! ## Loads and stores (R83, R92, R94) -/

section
variable {s s1 s2 : State} {core : Nat} {tk : Tk} {st st2 : Strand} {i : Instr}

theorem completes_of_loadSM {xd xo : XReg} {cn : CReg} {imm : BitVec 6} {size : Nat} {sgn : Bool} {o : DWord} {c : CapBits}
    {a : Nat} {l : List Byte} (h : Poised s core .S tk s1 st) (hi : exec i s = loadSM tk xd cn xo imm size sgn s)
    (ho : readX st .S xo = .ok o) (ha : smAddr s1 st cn o imm size .r = .ok (c, a))
    (hl : portRead s1 core st (readerOf st .S) (capObj c) (capOgen c) a size = .ok l s2) (h2 : strandAt s2 core = some st2) :
    Completes i s s2 core .S (writeX st2 .S xd (extend sgn size l)) s2.grp.next :=
  completes_of_mod (f := fun st => writeX st .S xd (extend sgn size l)) h hi
    (by rw [bind_of_ok ho, orTrap_ok ha]; exact withRead_ok hl) h2

theorem completes_of_storeSM {xs xo : XReg} {cn : CReg} {imm : BitVec 6} {size : Nat} {v o : DWord} {c : CapBits} {a : Nat}
    (h : Poised s core .S tk s1 st) (hi : exec i s = storeSM tk xs cn xo imm size s) (hv : readX st .S xs = .ok v)
    (ho : readX st .S xo = .ok o) (ha : smAddr s1 st cn o imm size .w = .ok (c, a))
    (hw : portWrite (setStrand s1 core (beginStore st .S).2) core .S none false (beginStore st .S).1 (capObj c) (capOgen c) a
      (toBytes size v) = (.ok (), s2)) (h2 : strandAt s2 core = some st2) :
    Completes i s s2 core .S st2 s2.grp.next :=
  completes_of_stored h hi (by
    rw [bind_of_ok hv, bind_of_ok ho, bind_of_ok ha, orTrap_ok rfl]; dsimp only; rw [hw]) h2

end

/-- Settles O4: the two shared operations, at each size and extension. -/
theorem loadsAndStores : Obligations.LoadsAndStores := by
  refine ⟨?loads, ?stores⟩
  case loads =>
    intro s s1 s2 core tk st st2 xd xo cn imm o c a l h ho h2 load
    have run (i : Instr) (size : Nat) (sgn : Bool) (hi : exec i s = loadSM tk xd cn xo imm size sgn s) : load i size sgn :=
      fun ha hl => completes_of_loadSM h hi ho ha hl h2
    exact ⟨run _ 1 true rfl, run _ 1 false rfl, run _ 2 true rfl, run _ 2 false rfl, run _ 4 true rfl, run _ 4 false rfl,
      run _ 8 false rfl⟩
  case stores =>
    intro s s1 s2 core tk st st2 xs xo cn imm v o c a h hv ho h2 store
    have run (i : Instr) (size : Nat) (hi : exec i s = storeSM tk xs cn xo imm size s) : store i size :=
      fun ha hw => completes_of_storeSM h hi hv ho ha hw h2
    exact ⟨run _ 1 rfl, run _ 2 rfl, run _ 4 rfl, run _ 8 rfl⟩

/-- An access of the crew window clears XSYNC of its strand (R94, R108). -/
theorem clearXsync_some {s : State} {core : Nat} {st : Strand} (h : strandAt s core = some st) :
    clearXsync s core = setStrand s core { st with xsync := false } := modStrand_some _ h

/-- Settles O5: the strand's own scratchpad, and the crew window, whose access clears XSYNC. -/
theorem scratchpad : Obligations.Scratchpad := by
  intro s s1 core tk st xd xa sz sgn imm v a l o w h ha n addr
  have hst := strandAt_of_poised h
  refine ⟨fun ho => ⟨fun hl => ?spld, fun hv => ?spst⟩, fun hw => ⟨fun hl => ?rspld, fun hv => ?rspst⟩⟩
  case spld => exact completes_of_set h rfl (orTrap_ok ((bind_of_ok ha).trans ((bind_of_ok ho).trans hl)))
  case spst =>
    exact completes_of_fin (s2 := spWrite s1 core st.cgen o (toBytes n v)) h rfl
      (orTrap_ok (a := (v, o)) ((bind_of_ok hv).trans ((bind_of_ok ha).trans (bind_of_ok ho)))) hst
  case rspld =>
    exact completes_of_set h rfl ((orTrap_ok ((bind_of_ok ha).trans hw)).trans (orTrap_ok hl))
  case rspst =>
    have hbody := (bind_of_ok (f := fun v => do
      let a ← readX st .S xa
      let w ← cwCheck s1 st (spAddr s1 a imm n) n
      .ok (v, w)) hv).trans ((bind_of_ok ha).trans (bind_of_ok hw))
    refine completes_of_set (s2 := spWrite s1 w.1 w.2.1 w.2.2.2 (toBytes n v)) h rfl ((orTrap_ok hbody).trans ?_)
    rw [clearXsync_some hst]
    rfl

/-! ## Atomics (R95, R96) -/

/-- Only cas looks at its comparand. -/
theorem amoBytes_cmp {k : AmoKind} (hk : k ≠ .cas) (n : Nat) (old : List Byte) (b c d : DWord) :
    amoBytes k n old b c = amoBytes k n old b d := by
  cases k <;> first | rfl | exact absurd rfl hk

/-- The comparand of an atomic: read for cas alone. -/
theorem comparand_of_ne {k : AmoKind} (hk : k ≠ .cas) (st : Strand) (xd : XReg) :
    (if k = .cas then readX st .S xd else .ok 0#64) = .ok 0#64 := if_neg hk

section
variable {s s1 s2 s3 : State} {core : Nat} {tk : Tk} {st : Strand} {i : Instr} {k : AmoKind} {xd xa xb : XReg} {w : Bool}
variable {a b c : DWord} {old : List Byte}

/-- The body of an atomic on global memory, its checks passed: what its read gives and where it writes (R96). -/
theorem amoMem_body {cn : CReg} {cap : CapBits} {p : Nat} {pl : Place} (h : Poised s core .S tk s1 st)
    (hi : exec i s = amoMem k tk xd cn xa xb w s) (ha : readX st .S xa = .ok a) (hb : readX st .S xb = .ok b)
    (hc : (if k = .cas then readX st .S xd else .ok 0#64) = .ok c)
    (hp : capCheck st cn a (wSize w) .a = .ok (cap, p)) (hal : p % wSize w = 0)
    (hr : portRead s1 core st { readerOf st .S with rmw := true } (capObj cap) (capOgen cap) p (wSize w) = .ok old s2)
    (ht : translateIn s2 true (dieOf core) (spaceOf s2 st) (capObj cap) (capOgen cap) p (wSize w) = (.ok pl, s3))
    (hz : pl.zmask = none) {s4 : State} {st4 : Strand} (h4 : strandAt s4 core = some st4)
    (hw : amoBytes k (wSize w) old b c = none ∧ s4 = s3 ∨ ∃ l, amoBytes k (wSize w) old b c = some l ∧
      atomicWrite s3 st.sid pl (maskOf (pl.pa % 64) l.length) (granPut 0#512 (pl.pa % 64) l) = (true, s4)) :
    Completes i s s4 core .S (writeX st4 .S xd (extend true (wSize w) old)) s4.grp.next := by
  have hck : checkAligned p (wSize w) = .ok () := if_pos hal
  refine completes_of_mod (f := fun st => writeX st .S xd (extend true (wSize w) old)) h hi ?_ h4
  rw [bind_of_ok ha, bind_of_ok hb, bind_of_ok hc, bind_of_ok hp, bind_of_ok hck, orTrap_ok rfl]
  dsimp only
  rw [withRead_ok hr, ht]
  dsimp only
  rw [hz]
  rcases hw with ⟨hn, rfl⟩ | ⟨l, hl, hw⟩
  · rw [hn]; rfl
  · rw [hl]; dsimp only; rw [hw]; rfl

/-- The place of an atomic on scratchpad or the crew window: the core, the generation and mode, the offset there (R95). -/
def spamoPlace (s : State) (core : Nat) (st : Strand) (a : DWord) (w cw : Bool) : Chk (Nat × Gen × Bool × Nat) :=
  if cw then cwCheck s st a (wSize w)
  else do
    let o ← spCheck a.toNat (wSize w)
    .ok (core, st.cgen, st.gtrap, o)

/-- The machine after an atomic's write of scratchpad; a cas that fails writes nothing. -/
def spamoPut (s : State) (z : Nat × Gen × Bool × Nat) : Option (List Byte) → State
  | some l => spWrite s z.1 z.2.1 z.2.2.2 l
  | none => s

theorem strandAt_spamoPut (s : State) (z : Nat × Gen × Bool × Nat) (r : Option (List Byte)) (c : Nat) :
    strandAt (spamoPut s z r) c = strandAt s c := by cases r <;> rfl

theorem grp_spamoPut (s : State) (z : Nat × Gen × Bool × Nat) (r : Option (List Byte)) :
    (spamoPut s z r).grp = s.grp := by cases r <;> rfl

theorem spamoPut_setStrand (s : State) (c : Nat) (st : Strand) (z : Nat × Gen × Bool × Nat) (r : Option (List Byte)) :
    spamoPut (setStrand s c st) z r = setStrand (spamoPut s z r) c st := by cases r <;> rfl

/-- The strand after an atomic on scratchpad, which leaves XSYNC, or on the crew window, which clears it (R95, R108). -/
def spamoStrand (st : Strand) (cw : Bool) : Strand := { st with xsync := st.xsync && !cw }

/-- The machine on which such an atomic reads and writes: it differs from `s1` in XSYNC alone. -/
theorem spamo_access (hst : strandAt s1 core = some st) (cw : Bool) (z : Nat × Gen × Bool × Nat) :
    ∃ s0, (if cw then clearXsync s1 core else s1) = s0 ∧ strandAt s0 core = some (spamoStrand st cw) ∧
      (∀ n, spRead s0 z.1 z.2.1 z.2.2.1 z.2.2.2 n = spRead s1 z.1 z.2.1 z.2.2.1 z.2.2.2 n) ∧
      ∀ r st' pc, Completes i s (spamoPut s0 z r) core .S st' pc → Completes i s (spamoPut s1 z r) core .S st' pc := by
  cases cw
  · have hx : spamoStrand st false = st := by rw [spamoStrand, Bool.not_false, Bool.and_true]
    exact ⟨s1, rfl, hst.trans (congrArg some hx.symm), fun _ => rfl, fun _ _ _ h => h⟩
  · have hx : spamoStrand st true = { st with xsync := false } := by rw [spamoStrand, Bool.not_true, Bool.and_false]
    refine ⟨setStrand s1 core { st with xsync := false }, clearXsync_some hst, ?_, fun _ => rfl, fun r st' pc h => ?_⟩
    · rw [strandAt_setStrand, if_pos rfl, hx]
    · rw [spamoPut_setStrand] at h
      exact completes_of_over h

/-- The body of an atomic on scratchpad or the crew window, its checks passed (R95). -/
theorem amoSP_body {cw : Bool} {z : Nat × Gen × Bool × Nat} (h : Poised s core .S tk s1 st)
    (hi : exec i s = amoSP k tk xd xa xb w cw s) (ha : readX st .S xa = .ok a) (hb : readX st .S xb = .ok b)
    (hc : (if k = .cas then readX st .S xd else .ok 0#64) = .ok c) (hz : spamoPlace s1 core st a w cw = .ok z)
    (hr : spRead s1 z.1 z.2.1 z.2.2.1 z.2.2.2 (wSize w) = .ok old) :
    Completes i s (spamoPut s1 z (amoBytes k (wSize w) old b c)) core .S
      (writeX (spamoStrand st cw) .S xd (extend true (wSize w) old)) s1.grp.next := by
  obtain ⟨s0, hs0, hst0, hread, hover⟩ := spamo_access (i := i) (s := s) (strandAt_of_poised h) cw z
  have hgrp : (spamoPut s0 z (amoBytes k (wSize w) old b c)).grp = s1.grp := by
    rw [grp_spamoPut, ← hs0]
    cases cw
    · rfl
    · exact modStrand_grp _ _ _
  rw [← hgrp]
  refine hover _ _ _ (completes_of_mod (f := fun st => writeX st .S xd (extend true (wSize w) old)) h hi ?_
    ((strandAt_spamoPut _ _ _ _).trans hst0))
  unfold spamoPlace at hz
  rw [bind_of_ok ha, bind_of_ok hb, bind_of_ok hc, bind_of_ok hz, orTrap_ok rfl]
  dsimp only
  rw [hs0, orTrap_ok ((hread _).trans hr)]
  cases amoBytes k (wSize w) old b c <;> rfl

end

/-- Settles O6: each kind is the shared operation; only cas reads its comparand, and only it may write nothing. -/
theorem atomicOperations : Obligations.AtomicOperations := by
  refine ⟨?global, ?scratchpad⟩
  case global =>
    intro s s1 s2 s3 core tk st xd xa xb cn w a b d c p pl old h ha hb n hp hal hr ht hz o amo
    have run (i : Instr) (k : AmoKind) (hk : k ≠ .cas) (hi : exec i s = amoMem k tk xd cn xa xb w s) : amo i k :=
      fun l s4 st4 hl hw h4 => amoMem_body h hi ha hb (comparand_of_ne hk st xd) hp hal hr ht hz h4
        (.inr ⟨l, (amoBytes_cmp hk n old b 0#64 d).trans hl, hw⟩)
    exact ⟨run _ .add (by decide) rfl, run _ .min (by decide) rfl, run _ .max (by decide) rfl, run _ .band (by decide) rfl,
      run _ .bor (by decide) rfl, run _ .xor (by decide) rfl, run _ .swap (by decide) rfl, fun hd =>
      ⟨fun l s4 st4 hl hw h4 => amoMem_body h rfl ha hb ((if_pos rfl).trans hd) hp hal hr ht hz h4 (.inr ⟨l, hl, hw⟩),
        fun hn st3 h3 => amoMem_body h rfl ha hb ((if_pos rfl).trans hd) hp hal hr ht hz h3 (.inl ⟨hn, rfl⟩)⟩⟩
  case scratchpad =>
    intro s s1 core tk st xd xa xb w cw a b d z old h ha hb n hz hr o st' amo
    have hplace : spamoPlace s1 core st a w cw = .ok z := by
      cases cw
      · obtain ⟨hoff, hz⟩ := hz
        exact (bind_of_ok hoff).trans (congrArg Except.ok hz.symm)
      · exact hz
    have run (i : Instr) (k : AmoKind) (hk : k ≠ .cas) (hi : exec i s = amoSP k tk xd xa xb w cw s) : amo i k := fun l hl => by
      have hdone := amoSP_body h hi ha hb (comparand_of_ne hk st xd) hplace hr
      rw [amoBytes_cmp hk _ old b 0#64 d, show amoBytes k (wSize w) old b d = some l from hl] at hdone
      exact hdone
    refine ⟨run _ .add (by decide) rfl, run _ .min (by decide) rfl, run _ .max (by decide) rfl, run _ .band (by decide) rfl,
      run _ .bor (by decide) rfl, run _ .xor (by decide) rfl, run _ .swap (by decide) rfl, fun hd => ?_⟩
    have hcas := amoSP_body (i := .spamoCas tk xd xa xb w cw) h rfl ha hb ((if_pos rfl).trans hd) hplace hr
    refine ⟨fun l hl => ?_, fun hn => ?_⟩
    · rw [show amoBytes .cas (wSize w) old b d = some l from hl] at hcas
      exact hcas
    · rw [show amoBytes .cas (wSize w) old b d = none from hn] at hcas
      exact hcas

/-! ## Control transfers (R97, R98) -/

section
variable {s s1 : State} {core : Nat} {tk : Tk} {st : Strand} {i : Instr} {xa xb : XReg} {a b : DWord}

/-- A branch goes to its checked target where its condition holds, and falls through where it does not (R50, R97). -/
theorem completes_of_branch {c : DWord → DWord → Bool} {off : BitVec 10} {t : BitVec 32} (h : Poised s core .S tk s1 st)
    (hi : exec i s = branch c tk xa xb off s) (ha : readX st .S xa = .ok a) (hb : readX st .S xb = .ok b) :
    (c a b = true → checkRel s1 st .S off = .ok t → Completes i s s1 core .S st t) ∧
    (c a b = false → Completes i s s1 core .S st s1.grp.next) := by
  have hst := strandAt_of_poised h
  have hab := readX2_of_ok ha hb
  refine ⟨fun hc ht => completes_of_jump h hi ((orTrap_ok hab).trans ?_) hst,
    fun hc => completes_of_fin h hi ((orTrap_ok hab).trans ?_) hst⟩ <;> dsimp only <;> rw [hc]
  · exact orTrap_ok ht
  · rfl

end

/-- Settles O7: each branch by its condition, each jump and call by its checked target. -/
theorem scalarTransfers : Obligations.ScalarTransfers := by
  intro s s1 core tk st xa xb a b off joff t jt rt h ha hb br link
  have hst := strandAt_of_poised h
  have run (i : Instr) (p : Prop) [Decidable p] (c : DWord → DWord → Bool) (hp : c a b = decide p)
      (hi : exec i s = branch c tk xa xb off s) : br i p := by
    obtain ⟨taken, falls⟩ := completes_of_branch (t := t) h hi ha hb
    exact ⟨fun hc => taken (hp.trans (decide_eq_true hc)), fun hc => falls (hp.trans (decide_eq_false hc))⟩
  refine ⟨run _ (a = b) (fun a b => a == b) rfl rfl, run _ (a ≠ b) (fun a b => a != b) (by by_cases hab : a = b <;> simp [hab]) rfl,
    run _ _ (fun a b => decide (a.toInt < b.toInt)) rfl rfl, run _ _ (fun a b => decide (b.toInt ≤ a.toInt)) rfl rfl,
    run _ _ (fun a b => decide (a.toNat < b.toNat)) rfl rfl, run _ _ (fun a b => decide (b.toNat ≤ a.toNat)) rfl rfl,
    fun ht => ⟨?jmp, ?call⟩, fun ht => ⟨?jr, ?callr⟩⟩
  case jmp => exact completes_of_jump h rfl (orTrap_ok ht) hst
  case call => exact completes_of_jumpSet h rfl (orTrap_ok ht)
  case jr => exact completes_of_jump h rfl (orTrap_ok ((bind_of_ok ha).trans ht)) hst
  case callr => exact completes_of_jumpSet h rfl (orTrap_ok ((bind_of_ok ha).trans ht))

end Sys2Proof.Proofs.ScalarAccesses
end

section
/-! The frames of the matrix and copy streams (R46, R176, R247): an instruction that issues passes its stream on and leaves its
push in the stream's order. -/
namespace Sys2Proof.Proofs.ArrayTurns
open Sys2Proof Sys2Proof.Machine Sys2Proof.Safety Sys2Proof.Laws Sys2Proof.Proofs.Turns

/-! ## Passing on -/

/-- A change to a strand that leaves its body and its streams: a push put into an order. -/
structure Queues (f : Strand → Strand) : Prop where
  body : ∀ st, body (f st) = body st
  ss : ∀ st, (f st).ss = st.ss

section
variable {s : State} {core : Nat} {e : Engine} {st : Strand} {f : Strand → Strand}

/-- The stream of an instruction of M or C that has issued. -/
def passed (x : Stream) (pc : BitVec 32) : Stream :=
  { x with
    pc := pc
    st := .issuing
    popped := false
    arrived := false
    asked := false
    ans := none
    opnd := none }

theorem passMC_some (pc : BitVec 32) (h : strandAt s core = some st) :
    passMC s core e pc = setStrand s core (setStream st e (passed (streamOf st e) pc)) := by
  rw [passMC, modStream, modStrand_some _ h]
  rfl

/-- What settling leaves of a machine whose stream has passed on. -/
theorem finished_of_settle {s' : State} {st1 : Strand} {pc : BitVec 32} (h1 : strandAt s' core = some st1)
    (hbody : body st1 = body st)
    (hx : ∀ g, streamOf st1 g = if e = g then passed (streamOf st e) pc else streamOf st g)
    (ho : ∀ c, c ≠ core → strandAt s' c = strandAt s c) (hr : rest s' = rest s)
    (hidle : (streamOf st e).push = none) (k : Nat) :
    Finished s core e st pc (settle (noteProgress s' k) core) := by
  have he : streamOf st1 e = passed (streamOf st e) pc := by rw [hx, if_pos rfl]
  have halive : Alive st1 e := by
    refine ⟨?_, fun p hp => ?_⟩
    · rw [he]; exact fun h => SState.noConfusion h
    · rw [he] at hp
      have hp' : (streamOf st e).push = some p := hp
      rw [hidle] at hp'
      cases hp'
  have hstrand : strandAt (noteProgress s' k) core = some st1 := (strandAt_strands (strands_noteProgress _ _) _).trans h1
  have hfin := settle_finished hstrand halive (by rw [he]; rfl)
  rw [show (streamOf st1 e).pc = pc by rw [he]; rfl] at hfin
  refine finished_trans hfin (fun c hc => ?_) ?_ hbody fun g hg => by rw [hx, if_neg hg.symm]
  · rw [strandAt_strands (strands_noteProgress _ _), ho c hc]
  · rw [rest_noteProgress, hr]

theorem strandAt_passMC (pc : BitVec 32) (h : strandAt s core = some st) :
    strandAt (passMC s core e pc) core = some (setStream st e (passed (streamOf st e) pc)) := by
  rw [passMC_some pc h, strandAt_setStrand, if_pos rfl]

/-- What passing on and settling leave (R46). -/
theorem finished_of_pass (h : strandAt s core = some st) (hidle : (streamOf st e).push = none) (pc : BitVec 32) (k : Nat) :
    Finished s core e st pc (settle (noteProgress (passMC s core e pc) k) core) := by
  refine finished_of_settle (st := st) (strandAt_passMC pc h) rfl (fun g => streamOf_setStream _ _ _ _) (fun c hc => ?_) ?_ hidle k
  · rw [passMC_some pc h, strandAt_setStrand, if_neg hc.symm]
  · rw [passMC_some pc h, rest_setStrand]

/-- What passing on, queueing a push and settling leave (R46, R177). -/
theorem finished_of_queue (hf : Queues f) (h : strandAt s core = some st) (hidle : (streamOf st e).push = none)
    (pc : BitVec 32) :
    ∃ st3, strandAt (modStrand (passMC s core e pc) core f) core = some st3 ∧
      ∀ k, Finished s core e st pc (settle (noteProgress (modStrand (passMC s core e pc) core f) k) core) := by
  have hst : strandAt (modStrand (passMC s core e pc) core f) core = some (f (setStream st e (passed (streamOf st e) pc))) := by
    rw [strandAt_modStrand, if_pos rfl, strandAt_passMC pc h, Option.map_some]
  refine ⟨_, hst, finished_of_settle hst (hf.body _) (fun g => ?_) (fun c hc => ?_) ?_ hidle⟩
  · rw [streamOf_ss (hf.ss _), streamOf_setStream]
  · rw [strandAt_modStrand, if_neg hc.symm, passMC_some pc h, strandAt_setStrand, if_neg hc.symm]
  · rw [rest_modStrand, passMC_some pc h, rest_setStrand]

end

/-! ## The matrix stream -/

/-- The push of a matrix instruction as its stream's order holds it, with the scratchpad that it has overwritten (R176, R177). -/
def pushM (s0 s : State) (core : Nat) (pat : BitVec 32) (c : MClass) (need : Nat) (st : Strand) : OrdPush :=
  { idx := 0, fin := !c.onArray, mask := pushOf pat, know := (streamOf st .M).know, need := need
    serial := c == .serial, loads := c == .load, planes := c.planes, pops := popOf pat != 0#16
    undo := if c.onArray then spadOver s0 s core else [], addr := s.grp.addr, gaddr := s.grp.gaddr, words := s.grp.words }

/-- The push of a matrix instruction, put into its stream's order. -/
def queueM (s0 s : State) (core : Nat) (pat : BitVec 32) (c : MClass) (need : Nat) (st : Strand) : Strand :=
  { st with mats := st.mats ++ [pushM s0 s core pat c need st] }

theorem queues_queueM (s0 s : State) (core : Nat) (pat : BitVec 32) (c : MClass) (need : Nat) :
    Queues (queueM s0 s core pat c need) := ⟨fun _ => rfl, fun _ => rfl⟩

theorem passM_eq (s0 s : State) (core : Nat) (pat pc : BitVec 32) (c : MClass) (need : Nat) :
    passM s0 s core pat pc c need = modStrand (passMC s core .M pc) core (queueM s0 s core pat c need) := rfl

/-- The lease of a quad and a strand stand in different fields. -/
theorem spendLease_setStrand (s : State) (c d : Nat) (st : Strand) :
    spendLease (setStrand s d st) c = setStrand (spendLease s c) d st := by
  have hq : Machine.quadAt (setStrand s d st) (quadOf c) = Machine.quadAt s (quadOf c) := rfl
  unfold spendLease
  rw [hq]
  split
  · split <;> rfl
  · rfl

@[simp] theorem spendLease_strands (s : State) (core : Nat) : (spendLease s core).strands = s.strands := by
  unfold spendLease
  split
  · split <;> rfl
  · rfl

@[simp] theorem spendLease_grp (s : State) (core : Nat) : (spendLease s core).grp = s.grp := by
  unfold spendLease
  split
  · split <;> rfl
  · rfl

/-- What an array instruction spends of its lease; the control forms spend nothing (R180). -/
def spent (c : MClass) (s : State) (core : Nat) : State := if c.onArray then spendLease s core else s

theorem spent_strands (c : MClass) (s : State) (core : Nat) : (spent c s core).strands = s.strands := by
  unfold spent
  split
  · exact spendLease_strands s core
  · rfl

theorem spent_modStrand (c : MClass) (s : State) (core d : Nat) (f : Strand → Strand) :
    spent c (modStrand s d f) core = modStrand (spent c s core) d f := by
  cases h : strandAt s d with
  | none => rw [modStrand_none f h, modStrand_none f ((strandAt_strands (spent_strands c s core) d).trans h)]
  | some st =>
    rw [modStrand_some f h, modStrand_some f ((strandAt_strands (spent_strands c s core) d).trans h)]
    unfold spent
    split
    · exact spendLease_setStrand s core d (f st)
    · rfl

theorem spent_passMC (c : MClass) (s : State) (core : Nat) (e : Engine) (pc : BitVec 32) :
    spent c (passMC s core e pc) core = passMC (spent c s core) core e pc := spent_modStrand c s core core _

section
variable {s s0 s1 s2 : State} {core : Nat} {tk : Tk} {st st2 : Strand} {i : Instr} {pat : BitVec 32} {c : MClass}

/-- A matrix instruction's stream passed on, its push queued and its lease spent: what settling then leaves. -/
theorem passM_finished (d : MClass) (s0 : State) (pat pc : BitVec 32) (c : MClass) (need : Nat)
    (h2 : strandAt s2 core = some st2) (hidle : (streamOf st2 .M).push = none) :
    ∃ st3, strandAt (spent d (passM s0 s2 core pat pc c need) core) core = some st3 ∧
      ∀ k, Finished (spent d s2 core) core .M st2 pc
        (settle (noteProgress (spent d (passM s0 s2 core pat pc c need) core) k) core) := by
  have h2' : strandAt (spent d s2 core) core = some st2 := (strandAt_strands (spent_strands d s2 core) core).trans h2
  rw [passM_eq, spent_modStrand, spent_passMC]
  exact finished_of_queue (queues_queueM s0 s2 core pat c need) h2' hidle pc

/-- The end of a matrix instruction's turn, its crew not Frozen while it was in flight. -/
theorem closeM_fin (h2 : strandAt s2 core = some st2) (hidle : (streamOf st2 .M).push = none) :
    Finished (spent c s2 core) core .M st2 s2.grp.next (closeM s0 core pat c false (.fin s2)) := by
  obtain ⟨st3, hst3, hfin⟩ := passM_finished c s0 pat s2.grp.next c 0 h2 hidle
  unfold spent at hst3 hfin
  unfold closeM
  dsimp only
  rw [hst3]
  dsimp only
  rw [Bool.and_false, if_neg Bool.false_ne_true]
  exact hfin _

theorem closeM_jump {t : BitVec 32} (h2 : strandAt s2 core = some st2) (hidle : (streamOf st2 .M).push = none) :
    Finished s2 core .M st2 t (closeM s0 core pat c false (.jump s2 t)) := by
  obtain ⟨st3, hst3, hfin⟩ := passM_finished .free s0 pat t c 0 h2 hidle
  have hst3 : strandAt (passM s0 s2 core pat t c 0) core = some st3 := hst3
  unfold closeM
  dsimp only
  rw [hst3]
  dsimp only
  rw [Bool.and_false, if_neg Bool.false_ne_true]
  exact hfin _

/-- An array instruction whose body hands stores to the port (R177): it finishes once they are performed. -/
theorem closeM_stored (h2 : strandAt s2 core = some st2) (hidle : (streamOf st2 .M).push = none) :
    Finished (spent c s2 core) core .M st2 s2.grp.next (closeM s0 core pat c false (.stored s2)) := by
  obtain ⟨st3, hst3, hfin⟩ := passM_finished c s0 pat s2.grp.next c st2.storeSeq h2 hidle
  unfold spent at hst3 hfin
  unfold closeM
  dsimp only
  rw [h2]
  dsimp only
  rw [hst3]
  dsimp only
  rw [Bool.and_false, if_neg Bool.false_ne_true]
  exact hfin _

/-! ## Where a matrix instruction starts (R176) -/

/-- What a class waits for before its tk_pop: no unfinished serial instruction, and, of a control or serial instruction, none
unfinished at all. -/
structure Starts (c : MClass) (s : State) (core : Nat) : Prop where
  serial : NoSerial s core
  done : c = .ctl ∨ c = .serial → ∃ st, strandAt s core = some st ∧ ((streamOf st .M).popped = true ∨ matsDone st = true)

theorem starts_of_noSerial (h : NoSerial s core) (hc : ¬(c = .ctl ∨ c = .serial)) : Starts c s core :=
  ⟨h, fun h => absurd h hc⟩

theorem starts_of_matsDone (h : MatsDone s core) (c : MClass) : Starts c s core := by
  obtain ⟨st, hst, hdone⟩ := h
  have hserial : serialBusy st = false := by
    unfold serialBusy
    unfold matsDone at hdone
    rw [List.any_eq_false]
    intro o ho
    simp [List.all_eq_true.1 hdone o ho]
  exact ⟨⟨st, hst, .inr hserial⟩, fun _ => ⟨st, hst, .inr hdone⟩⟩

theorem actor_of_poised {e : Engine} (h : Poised s core e tk s1 st) : ∃ st0, strandAt s core = some st0 ∧
    actor s e = some (core, st0) ∧ patternOk e (patOf st0 e tk) = true ∧
    popStep s core e st0 (patOf st0 e tk) = .ok (s1, st) := by
  obtain ⟨hcur, ⟨st0, hst0, hpat, hpop⟩, -⟩ := h
  exact ⟨st0, hst0, actor_of hcur hst0, hpat, hpop⟩

/-- A matrix instruction that may start runs its body on the machine after its tk_pop. -/
theorem runM_of_poised {b : State → Nat → Strand → Eff} {st0 : Strand} (hst0 : strandAt s core = some st0)
    (hpop : popStep s core .M st0 (patOf st0 .M tk) = .ok (s1, st)) (hs : Starts c s core) :
    runM core tk c b s st0 = .next (closeM s1 core (patOf st0 .M tk) c (crewFrozen s st0) (b s1 core st)) := by
  obtain ⟨st', hst', hserial⟩ := hs.serial
  cases hst0.symm.trans hst'
  have hgate : (!(streamOf st0 .M).popped && (serialBusy st0 || (decide (c = .ctl ∨ c = .serial) && !matsDone st0))) = false := by
    cases hp : (streamOf st0 .M).popped
    · have hbusy : serialBusy st0 = false := hserial.resolve_left (by rw [hp]; exact Bool.false_ne_true)
      rw [hbusy]
      by_cases hc : c = .ctl ∨ c = .serial
      · obtain ⟨st'', hst'', hdone⟩ := hs.done hc
        cases hst0.symm.trans hst''
        rw [hdone.resolve_left (by rw [hp]; exact Bool.false_ne_true)]
        simp
      · simp [hc]
    · rfl
  unfold runM
  dsimp only
  rw [hgate, if_neg Bool.false_ne_true, hpop]

end

/-! ## Control forms -/

section
variable {s s1 s2 : State} {core : Nat} {tk : Tk} {st st2 : Strand} {i : Instr} {b : State → Nat → Strand → Eff}

theorem closeM_free_frozen (s0 : State) (core : Nat) (pat : BitVec 32) {c : MClass} (hc : c.onArray = false) (f : Bool)
    (r : Eff) : closeM s0 core pat c f r = closeM s0 core pat c false r := by
  unfold closeM
  simp only [hc, Bool.false_and]

/-- A form that does not use the array (mnop, mloop; the control instructions): its turn by its body's answer. -/
theorem exec_of_free {c : MClass} (hc : c.onArray = false) (h : Poised s core .M tk s1 st) (hs : Starts c s core)
    (hi : exec i s = Machine.decodeM tk (fun _ => none) (fun s core st => runM core tk c b s st) s) :
    exec i s = .next (closeM s1 core (patOf st .M tk) c false (b s1 core st)) := by
  obtain ⟨st', hst', heq, -⟩ := patOf_of_poised h
  obtain ⟨st0, hst0, hact, hpat, hpop⟩ := actor_of_poised h
  cases hst0.symm.trans hst'
  rw [hi, Machine.decodeM, hact]
  dsimp only
  rw [if_pos hpat, runM_of_poised hst0 hpop hs, closeM_free_frozen _ _ _ hc, heq]

theorem spent_of_free {c : MClass} (hc : c.onArray = false) (s : State) (core : Nat) : spent c s core = s := by
  rw [spent, hc, if_neg Bool.false_ne_true]

theorem completes_of_freeFin {c : MClass} (hc : c.onArray = false) (h : Poised s core .M tk s1 st) (hs : Starts c s core)
    (hi : exec i s = Machine.decodeM tk (fun _ => none) (fun s core st => runM core tk c b s st) s)
    (hb : b s1 core st = .fin s2) (h2 : strandAt s2 core = some st2) (hidle : (streamOf st2 .M).push = none) :
    Completes i s s2 core .M st2 s2.grp.next := by
  have ht := exec_of_free hc h hs hi
  have hfin := closeM_fin (s0 := s1) (pat := patOf st .M tk) (c := c) h2 hidle
  rw [spent_of_free hc] at hfin
  exact ⟨_, ht, hb ▸ hfin⟩

theorem completes_of_freeJump {c : MClass} {t : BitVec 32} (hc : c.onArray = false) (h : Poised s core .M tk s1 st)
    (hs : Starts c s core) (hi : exec i s = Machine.decodeM tk (fun _ => none) (fun s core st => runM core tk c b s st) s)
    (hb : b s1 core st = .jump s2 t) (h2 : strandAt s2 core = some st2) (hidle : (streamOf st2 .M).push = none) :
    Completes i s s2 core .M st2 t := by
  have ht := exec_of_free hc h hs hi
  exact ⟨_, ht, hb ▸ closeM_jump h2 hidle⟩

/-! ## Array forms (R180) -/

/-- A lease that has not run out stands as it was. -/
theorem expireLease_of_holds (h : holdsLease (expireLease s core) core = true) : expireLease s core = s := by
  unfold expireLease at h ⊢
  split
  · rename_i l hl
    split
    · rename_i hexp
      exfalso
      rw [hl] at h
      simp only [hexp, and_self, if_true, endLease, hl] at h
      simp [holdsLease] at h
    · rfl
  · rfl

/-- An array instruction under a lease, no serial instruction in its way, its crew not Frozen: its turn by its body's
answer. -/
theorem exec_of_leased {c : MClass} {pre : Strand → Option Trapped} (h : Poised s core .M tk s1 st) (hl : Leased s core)
    (hs : Starts c s core) (hpre : ∀ st, strandAt s core = some st → pre st = none) (hi : exec i s = issueOn c pre tk b s) :
    ∃ pat, exec i s = .next (closeM s1 core pat c false (b s1 core st)) := by
  obtain ⟨st0, hst0, hact, hpat, hpop⟩ := actor_of_poised h
  have hexp := expireLease_of_holds hl.lease
  have hholds : holdsLease s core = true := hexp ▸ hl.lease
  have hrun := runM_of_poised (b := b) hst0 hpop hs
  rw [hl.awake st0 hst0] at hrun
  refine ⟨patOf st0 .M tk, ?_⟩
  rw [hi, issueOn, Machine.decodeM, hact]
  dsimp only
  rw [hpre st0 hst0]
  dsimp only
  rw [if_pos hpat, hexp, ite_self, hholds, if_pos rfl, hholds, if_pos rfl, hst0]
  dsimp only
  rw [hrun, ite_self]

/-- An array instruction that finishes: it spends one instruction of its lease (R180). -/
theorem completes_of_leasedFin {c : MClass} (hc : c.onArray = true) {pre : Strand → Option Trapped}
    (h : Poised s core .M tk s1 st) (hl : Leased s core) (hs : Starts c s core)
    (hpre : ∀ st, strandAt s core = some st → pre st = none) (hi : exec i s = issueOn c pre tk b s)
    (hb : b s1 core st = .fin s2) (h2 : strandAt s2 core = some st2) (hidle : (streamOf st2 .M).push = none) :
    Completes i s (spendLease s2 core) core .M st2 s2.grp.next := by
  obtain ⟨pat, ht⟩ := exec_of_leased h hl hs hpre hi
  have hfin := closeM_fin (s0 := s1) (pat := pat) (c := c) h2 hidle
  rw [spent, hc, if_pos rfl] at hfin
  exact ⟨_, ht, hb ▸ hfin⟩

theorem completes_of_leasedStored {c : MClass} (hc : c.onArray = true) {pre : Strand → Option Trapped}
    (h : Poised s core .M tk s1 st) (hl : Leased s core) (hs : Starts c s core)
    (hpre : ∀ st, strandAt s core = some st → pre st = none) (hi : exec i s = issueOn c pre tk b s)
    (hb : b s1 core st = .stored s2) (h2 : strandAt s2 core = some st2) (hidle : (streamOf st2 .M).push = none) :
    Completes i s (spendLease s2 core) core .M st2 s2.grp.next := by
  obtain ⟨pat, ht⟩ := exec_of_leased h hl hs hpre hi
  have hfin := closeM_stored (s0 := s1) (pat := pat) (c := c) h2 hidle
  rw [spent, hc, if_pos rfl] at hfin
  exact ⟨_, ht, hb ▸ hfin⟩

end

/-! ## The copy stream -/

/-- The push of a control instruction of the copy stream as its order holds it (R250). -/
def pushC (s : State) (pat : BitVec 32) (st : Strand) : OrdPush :=
  { idx := 0, fin := true, mask := pushOf pat, know := (streamOf st .C).know, addr := s.grp.addr
    gaddr := s.grp.gaddr, words := s.grp.words }

/-- The push of a control instruction of the copy stream, put into its order. -/
def queueC (s : State) (pat : BitVec 32) (st : Strand) : Strand := { st with copyPush := st.copyPush ++ [pushC s pat st] }

theorem queues_queueC (s : State) (pat : BitVec 32) : Queues (queueC s pat) := ⟨fun _ => rfl, fun _ => rfl⟩

section
variable {s s1 s2 : State} {core : Nat} {tk : Tk} {st st2 : Strand} {i : Instr} {pat : BitVec 32}
variable {b : BitVec 32 → State → Nat → Strand → Eff}

/-- A copy stream's turn that goes on at `pc`, its push queued or standing in the order already. -/
theorem closeC_passes (control : Bool) (pc : BitVec 32) (h2 : strandAt s2 core = some st2)
    (hidle : (streamOf st2 .C).push = none) :
    let s3 := passMC s2 core .C pc
    let t := if control then modStrand s3 core (queueC s3 pat) else s3
    ∃ st3, strandAt t core = some st3 ∧ ∀ k, Finished s2 core .C st2 pc (settle (noteProgress t k) core) := by
  cases control
  · exact ⟨_, strandAt_passMC pc h2, finished_of_pass h2 hidle pc⟩
  · exact finished_of_queue (queues_queueC _ pat) h2 hidle pc

theorem closeC_fin (control : Bool) (h2 : strandAt s2 core = some st2) (hidle : (streamOf st2 .C).push = none) :
    Finished s2 core .C st2 s2.grp.next (closeC core pat control (.fin s2)) := by
  obtain ⟨st3, hst3, hfin⟩ := closeC_passes (pat := pat) control s2.grp.next h2 hidle
  unfold queueC pushC at hst3 hfin
  unfold closeC
  dsimp only
  rw [hst3]
  exact hfin _

theorem closeC_jump (control : Bool) {t : BitVec 32} (h2 : strandAt s2 core = some st2)
    (hidle : (streamOf st2 .C).push = none) : Finished s2 core .C st2 t (closeC core pat control (.jump s2 t)) := by
  obtain ⟨st3, hst3, hfin⟩ := closeC_passes (pat := pat) control t h2 hidle
  unfold queueC pushC at hst3 hfin
  unfold closeC
  dsimp only
  rw [hst3]
  exact hfin _

/-- A copy stream instruction whose gate is open runs its body on the machine after its tk_pop. -/
theorem exec_of_issueC {control : Bool} {gate : Strand → Bool} (h : Poised s core .C tk s1 st)
    (hgate : ∃ st0, strandAt s core = some st0 ∧ ((streamOf st0 .C).popped = true ∨ gate st0 = true))
    (hi : exec i s = issueC control gate tk b s) :
    exec i s = .next (closeC core (patOf st .C tk) control (b (patOf st .C tk) s1 core st)) := by
  obtain ⟨st0, hst0, hact, hpat, hpop⟩ := actor_of_poised h
  obtain ⟨st1, hst1, heq, -⟩ := patOf_of_poised h
  cases hst1.symm.trans hst0
  obtain ⟨st', hst', hopen⟩ := hgate
  cases hst0.symm.trans hst'
  have hg : (!(streamOf st0 .C).popped && !gate st0) = false := by
    rcases hopen with h | h <;> simp [h]
  rw [← heq, hi, issueC, hact]
  dsimp only
  rw [hpat, Bool.not_true, if_neg Bool.false_ne_true, hg, if_neg Bool.false_ne_true, hpop]

end

end Sys2Proof.Proofs.ArrayTurns
end

section
/-! Tokens (R46, R62, R99): how many tokens each queue holds after a pop, after a push, and after a whole turn of a strand
none of whose pushes waits. -/
namespace Sys2Proof.Proofs.Tokens
open Sys2Proof Sys2Proof.Machine Sys2Proof.Safety Sys2Proof.Laws Sys2Proof.Proofs.Turns Sys2Proof.Proofs.ArrayTurns

/-! ## Sets of queues -/

theorem nodup_bitList {w : Nat} (n : Nat) (m : BitVec w) : (bitList n m).Nodup := List.nodup_range.filter _

theorem mem_bitList {w : Nat} {n : Nat} {m : BitVec w} {k : Nat} : k ∈ bitList n m ↔ k < n ∧ m.getLsbD k = true := by
  rw [bitList, List.mem_filter, List.mem_range]

/-- A queue of a set is named once. -/
theorem count_bitList {w : Nat} (n : Nat) (m : BitVec w) {k : Nat} (hk : k < n) :
    (bitList n m).count k = if m.getLsbD k then 1 else 0 := by
  rw [(nodup_bitList n m).count]
  simp [mem_bitList, hk]

theorem bitList_zero (n w : Nat) : bitList n (0#w) = [] := by
  rw [bitList, List.filter_eq_nil_iff]
  simp

/-! ## Pops and pushes -/

theorem tkCount_congr {a b : Strand} (h : a.toks = b.toks) (k : Nat) : tkCount a k = tkCount b k := by
  rw [tkCount, tkCount, h]

theorem canPush_congr {a b : Strand} (h : a.toks = b.toks) (m : BitVec 16) : canPush a m = canPush b m := by
  unfold canPush
  simp only [tkCount_congr h]

theorem tkCount_setStream (st : Strand) (e : Engine) (x : Stream) (k : Nat) : tkCount (setStream st e x) k = tkCount st k :=
  rfl

theorem tkCount_pop1 {st : Strand} {q : Nat} (h : 1 ≤ tkCount st q) (k : Nat) :
    tkCount (pop1 st q).1 k + (if q = k then 1 else 0) = tkCount st k := by
  unfold pop1 tkCount at *
  cases hq : mapGet [] st.toks q with
  | nil => rw [hq] at h; simp at h
  | cons t r =>
    by_cases hk : q = k
    · subst hk; simp [hq]
    · simp [hk]

/-- One step of a tk_pop: the stream is ordered after the push of the token that it takes (R274). -/
def popEach (e : Engine) (st : Strand) (q : Nat) : Strand :=
  let r := pop1 st q
  let x := streamOf r.1 e
  setStream r.1 e { x with know := x.know.join r.2 }

theorem popSet_eq (st : Strand) (e : Engine) (m : BitVec 16) : popSet st e m = (bitList 16 m).foldl (popEach e) st := rfl

theorem tkCount_popEach (e : Engine) {st : Strand} {q : Nat} (h : 1 ≤ tkCount st q) (k : Nat) :
    tkCount (popEach e st q) k + (if q = k then 1 else 0) = tkCount st k := tkCount_pop1 h k

/-- A pop of queues that each hold a token takes one of each. -/
theorem tkCount_foldl_popEach (e : Engine) (l : List Nat) (hl : l.Nodup) (st : Strand) (h : ∀ q ∈ l, 1 ≤ tkCount st q)
    (k : Nat) : tkCount (l.foldl (popEach e) st) k + l.count k = tkCount st k := by
  induction l generalizing st with
  | nil => rfl
  | cons q r ih =>
    obtain ⟨hq, hr⟩ := List.nodup_cons.1 hl
    have hone := tkCount_popEach e (h q (by simp))
    have hrest := ih hr (popEach e st q) fun p hp => by
      have hne : q ≠ p := fun heq => hq (heq ▸ hp)
      have hp' := hone p
      rw [if_neg hne] at hp'
      have := h p (List.mem_cons_of_mem q hp)
      omega
    have hk := hone k
    rw [List.foldl_cons, List.count_cons, ← hk, ← hrest]
    by_cases hqk : q = k <;> simp [hqk]
    omega

theorem tkCount_popSet {st : Strand} (e : Engine) {m : BitVec 16} (h : canPop st m = true) {k : Nat} (hk : k < 16) :
    tkCount (popSet st e m) k + (if m.getLsbD k then 1 else 0) = tkCount st k := by
  rw [popSet_eq, ← count_bitList 16 m hk]
  refine tkCount_foldl_popEach e _ (nodup_bitList 16 m) st (fun q hq => ?_) k
  simpa using List.all_eq_true.1 h q hq

/-- A push changes the tokens alone. -/
theorem pushSet_eq (st : Strand) (m : BitVec 16) (k : Know) :
    pushSet st m k = { st with toks := (bitList 16 m).foldl (fun t q => mapMod [] t q (· ++ [k])) st.toks } := by
  unfold pushSet
  generalize bitList 16 m = l
  induction l generalizing st with
  | nil => rfl
  | cons q r ih => exact ih _

theorem length_foldl_push (l : List Nat) (t : FMap (List Know)) (w : Know) (k : Nat) :
    (mapGet [] (l.foldl (fun t q => mapMod [] t q (· ++ [w])) t) k).length = (mapGet [] t k).length + l.count k := by
  induction l generalizing t with
  | nil => rfl
  | cons q r ih =>
    rw [List.foldl_cons, ih, mapGet_mod, List.count_cons]
    by_cases hq : q = k <;> simp [hq]
    omega

theorem tkCount_pushSet (st : Strand) (m : BitVec 16) (w : Know) {k : Nat} (hk : k < 16) :
    tkCount (pushSet st m w) k = tkCount st k + if m.getLsbD k then 1 else 0 := by
  rw [tkCount, pushSet_eq, length_foldl_push, count_bitList 16 m hk]
  rfl

theorem pushSet_zero (st : Strand) (w : Know) : pushSet st 0#16 w = st := by
  rw [pushSet, bitList_zero]
  rfl

theorem canPush_zero (st : Strand) : canPush st 0#16 = true := by
  rw [canPush, bitList_zero]
  rfl

/-- What has room before tokens are taken has room after. -/
theorem canPush_of_le {a b : Strand} {m : BitVec 16} (h : canPush b m = true) (hle : ∀ k, k < 16 → tkCount a k ≤ tkCount b k) :
    canPush a m = true := by
  rw [canPush, List.all_eq_true] at h ⊢
  intro q hq
  have hb := h q hq
  have hk := hle q (mem_bitList.1 hq).1
  simp only [decide_eq_true_eq] at hb ⊢
  omega

/-! ## A strand none of whose pushes waits -/

theorem tryPush_none {st : Strand} {e : Engine} (h : (streamOf st e).push = none) : tryPush st e = st := by
  unfold tryPush
  dsimp only
  rw [h]

theorem tryPush_streams {st : Strand} (h : ∀ e, (streamOf st e).push = none) :
    tryPush (tryPush (tryPush (tryPush st .S) .V) .M) .C = st := by
  rw [tryPush_none (h .S), tryPush_none (h .V), tryPush_none (h .M), tryPush_none (h .C)]

/-- Nothing that a calm strand has queued is left to settle. -/
theorem settlePushes_calm {st : Strand} (h : Calm st) : settlePushes st = st := by
  obtain ⟨hcopies, hmats, hext, hpush⟩ := h
  unfold settlePushes
  simp only [hcopies, hmats, hext, flushOrd, flushExt]
  have hsame : { st with copyPush := [], mats := [], ext := [] } = st := by
    cases st
    simp_all
  rw [hsame]
  exact tryPush_streams hpush

theorem calm_setStream {st : Strand} {e : Engine} {x : Stream} (h : Calm st) (hx : x.push = none) : Calm (setStream st e x) :=
  ⟨h.copies, h.mats, h.ext, fun f => by
    rw [streamOf_setStream]
    split
    · exact hx
    · exact h.push f⟩

theorem pop1_toks (st : Strand) (q : Nat) : ∃ t, (pop1 st q).1 = { st with toks := t } := by
  unfold pop1
  split
  · exact ⟨st.toks, rfl⟩
  · exact ⟨_, rfl⟩

/-- A pop changes the tokens, and of the streams the order of its own. -/
theorem popEach_keeps (e : Engine) (st : Strand) (q : Nat) :
    (Calm st → Calm (popEach e st q)) ∧ (streamOf (popEach e st q) e).tr = (streamOf st e).tr ∧
      ∀ f, f ≠ e → streamOf (popEach e st q) f = streamOf st f := by
  obtain ⟨t, ht⟩ := pop1_toks st q
  have hs : ∀ f, streamOf (pop1 st q).1 f = streamOf st f := fun f => streamOf_ss (by rw [ht]) f
  unfold popEach
  dsimp only
  refine ⟨fun h => calm_setStream ?_ ?_, ?_, fun f hf => ?_⟩
  · rw [ht]; exact ⟨h.copies, h.mats, h.ext, h.push⟩
  · exact (congrArg Stream.push (hs e)).trans (h.push e)
  · rw [streamOf_setStream, if_pos rfl, hs e]
  · rw [streamOf_setStream, if_neg hf.symm, hs]

theorem popSet_keeps (e : Engine) (st : Strand) (m : BitVec 16) :
    (Calm st → Calm (popSet st e m)) ∧ (streamOf (popSet st e m) e).tr = (streamOf st e).tr ∧
      ∀ f, f ≠ e → streamOf (popSet st e m) f = streamOf st f := by
  rw [popSet_eq]
  generalize bitList 16 m = l
  induction l generalizing st with
  | nil => exact ⟨id, rfl, fun _ _ => rfl⟩
  | cons q r ih =>
    obtain ⟨hcalm, htr, hother⟩ := popEach_keeps e st q
    obtain ⟨hcalm', htr', hother'⟩ := ih (popEach e st q)
    exact ⟨fun h => hcalm' (hcalm h), htr'.trans htr, fun f hf => (hother' f hf).trans (hother f hf)⟩

/-- A tk_pop of a calm strand: its tokens are taken, and nothing else of it changes but its stream's own fields (R46). -/
theorem popStep_calm {s : State} {core : Nat} {e : Engine} {st : Strand} {pat : BitVec 32} (hst : strandAt s core = some st)
    (hcalm : Calm st) (hpop : (streamOf st e).popped = false) (hcan : canPop st (popOf pat) = true) :
    ∃ st1, popStep s core e st pat = .ok (setStrand s core st1, st1) ∧ Calm st1 ∧
      (streamOf st1 e).tr = (streamOf st e).tr ∧
      (∀ k, k < 16 → tkCount st1 k + (if (popOf pat).getLsbD k then 1 else 0) = tkCount st k) ∧
      ∀ t pc, Finished (setStrand s core st1) core e st1 pc t → Finished s core e st pc t := by
  obtain ⟨hc, htr, hother⟩ := popSet_keeps e st (popOf pat)
  have hcalm1 : Calm (setStream (popSet st e (popOf pat)) e
      { streamOf (popSet st e (popOf pat)) e with popped := true, pat := pat, st := .issuing }) :=
    calm_setStream (hc hcalm) ((hc hcalm).push e)
  have hstep := show popStep s core e st pat = .ok (setStrand s core (setStream (popSet st e (popOf pat)) e
      { streamOf (popSet st e (popOf pat)) e with popped := true, pat := pat, st := .issuing }), _) by
    unfold popStep
    dsimp only
    rw [hpop, if_neg Bool.false_ne_true, if_pos hcan, settlePushes_calm hcalm1]
  refine ⟨_, hstep, hcalm1, ?_, fun k hk => tkCount_popSet e hcan hk, fun t pc hfin => ?_⟩
  · rw [streamOf_setStream, if_pos rfl]; exact htr
  · obtain ⟨-, hbody, hrest, -, -, hstrands⟩ := popStep_ok hst hstep
    exact finished_trans hfin hstrands hrest hbody fun f hf => by rw [streamOf_setStream, if_neg hf.symm, hother f hf]

/-! ## Turns of a calm strand -/

theorem streamOf_gone (st : Strand) (g : Bool) (e : Engine) : streamOf { st with gone := g } e = streamOf st e :=
  streamOf_ss rfl e

theorem body_gone (st : Strand) (g : Bool) : body { st with gone := g } = body st := rfl

/-- Settling a strand one of whose streams goes on settles its pushes, and marks that its scalar stream has ended. -/
theorem strandAt_settle {s : State} {core : Nat} {e : Engine} {st : Strand} (h : strandAt s core = some st)
    (hlive : (streamOf (settlePushes st) e).st ≠ .ended) :
    ∃ g, strandAt (settle s core) core = some { settlePushes st with gone := g } := by
  unfold settle
  rw [modStrand_some _ h]
  generalize settlePushes st = st1 at hlive ⊢
  have hend : ∃ g, strandAt (settleEnd (setStrand s core st1) core) core = some { st1 with gone := g } := by
    unfold settleEnd
    rw [strandAt_setStrand, if_pos rfl]
    dsimp only
    split
    · refine ⟨true, ?_⟩
      rw [strandAt_strands (strands_leaveBarriers _ _), strandAt_setStrand, if_pos rfl]
    · exact ⟨st1.gone, by rw [strandAt_setStrand, if_pos rfl]⟩
  obtain ⟨g, hg⟩ := hend
  refine ⟨g, ?_⟩
  have hstays : mayRetire { st1 with gone := g } = false := mayRetire_alive (streamOf_gone st1 g e ▸ hlive)
  unfold settleRetire
  rw [hg]
  dsimp only
  rw [hstays, Bool.false_and, if_neg Bool.false_ne_true]
  exact hg

/-- What the turn of an instruction of a calm strand does to its tokens: its push set gets one each. -/
def Pushes (st : Strand) (e : Engine) (m : BitVec 16) (t : State) (core : Nat) : Prop :=
  ∃ st', strandAt t core = some st' ∧ (streamOf st' e).push = none ∧
    ∀ k, k < 16 → tkCount st' k = tkCount st k + if m.getLsbD k then 1 else 0

section
variable {s : State} {core : Nat} {e : Engine} {st : Strand} {pat : BitVec 32}

/-- The push of a calm strand's instruction is performed at once where its queues have room (R46). -/
theorem tryPush_calm {st1 : Strand} {p : PushWait} (hp : (streamOf st1 e).push = some p) (hafter : p.after = .go)
    (htr : (streamOf st1 e).tr = none) (hord : ordOf st1 e = []) (hcan : canPush st1 p.mask = true) :
    tryPush st1 e = setStream (pushSet st1 p.mask p.know) e { streamOf st1 e with push := none, st := .issuing } := by
  unfold tryPush
  dsimp only
  rw [hp]
  dsimp only
  rw [htr, hord, if_neg (by simp), if_pos hcan, hafter]
  simp

theorem ordOf_calm (h : Calm st) (e : Engine) : ordOf st e = [] := by
  cases e
  · rfl
  · rfl
  · exact h.mats
  · exact h.copies

/-- The turn of an instruction of S or V that goes on. -/
theorem pushes_closeEff (h : strandAt s core = some st) (hcalm : Calm st) (htr : (streamOf st e).tr = none)
    (hcan : canPush st (pushOf pat) = true) : Pushes st e (pushOf pat) (closeEff core e pat (.fin s)) core := by
  generalize hm : pushOf pat = m at hcan ⊢
  have hfin : ∃ st1, strandAt (finishSV s core e pat s.grp.next .go) core = some st1 ∧ Calm st1 ∧
      (streamOf st1 e).st ≠ .ended ∧ ∀ k, k < 16 → tkCount st1 k = tkCount st k + if m.getLsbD k then 1 else 0 := by
    unfold finishSV
    rw [modStrand_some _ h, modStrand_some _ (by rw [strandAt_setStrand, if_pos rfl]), strandAt_setStrand, if_pos rfl, hm]
    dsimp only
    generalize hx : ({ streamOf st e with
      pc := s.grp.next, st := .issuing, popped := false, arrived := false, asked := false, ans := none, opnd := none
      push := some { mask := m, know := (streamOf st e).know, addr := s.grp.addr, gaddr := s.grp.gaddr, words := s.grp.words
                     after := .go } } : Stream) = x
    have hxe : streamOf (setStream st e x) e = x := by rw [streamOf_setStream, if_pos rfl]
    have hord : ordOf (setStream st e x) e = [] := (by cases e <;> rfl : ordOf (setStream st e x) e = ordOf st e).trans
      (ordOf_calm hcalm e)
    have hpush := tryPush_calm (st1 := setStream st e x) (e := e)
      (p := { mask := m, know := (streamOf st e).know, addr := s.grp.addr, gaddr := s.grp.gaddr, words := s.grp.words
              after := .go }) (by rw [hxe, ← hx]) rfl (by rw [hxe, ← hx]; exact htr) hord hcan
    refine ⟨_, rfl, ?_, ?_, fun k hk => ?_⟩
    · rw [hpush, pushSet_eq]
      refine ⟨hcalm.copies, hcalm.mats, hcalm.ext, fun f => ?_⟩
      rw [streamOf_setStream]
      split
      · rfl
      · rename_i hf
        exact (congrArg Stream.push ((streamOf_setStream st e f x).trans (if_neg hf))).trans (hcalm.push f)
    · rw [hpush, streamOf_setStream, if_pos rfl]
      exact fun h => SState.noConfusion h
    · rw [hpush, tkCount_setStream, tkCount_pushSet _ _ _ hk]
      rfl
  obtain ⟨st1, h1, hcalm1, hlive, hcount⟩ := hfin
  have hprog : strandAt (noteProgress (finishSV s core e pat s.grp.next .go) st1.crew) core = some st1 :=
    (strandAt_strands (strands_noteProgress _ _) core).trans h1
  obtain ⟨g, hg⟩ := strandAt_settle (e := e) hprog (by rw [settlePushes_calm hcalm1]; exact hlive)
  rw [settlePushes_calm hcalm1] at hg
  unfold closeEff
  dsimp only
  rw [h1]
  exact ⟨_, hg, hcalm1.push e, hcount⟩

/-- Settling a strand whose queued pushes are all performed, and no stream's own push waits. -/
theorem settlePushes_flushed {st1 a b : Strand} (ha : flushOrd { st1 with copyPush := [] } st1.copyPush = (a, []))
    (hb : flushOrd { a with copyPush := [], mats := [] } a.mats = (b, [])) (hext : b.ext = [])
    (hpush : ∀ e, (streamOf b e).push = none) : settlePushes st1 = { b with mats := [], ext := [] } := by
  unfold settlePushes
  rw [ha]
  dsimp only
  rw [hb]
  dsimp only
  rw [hext, flushExt]
  exact tryPush_streams (st := { b with mats := [], ext := [] }) hpush

theorem flushOrd_one {st1 : Strand} {o : OrdPush} (hfin : o.fin = true) (hcan : canPush st1 o.mask = true) :
    flushOrd st1 [o] = (pushSet st1 o.mask o.know, []) := by
  rw [flushOrd, hfin, hcan, Bool.and_self, if_pos rfl, flushOrd]

/-- The one finished push of an order is performed where its queues have room (R177, R250). -/
theorem settlePushes_queued {st1 : Strand} {o : OrdPush} (hext : st1.ext = [])
    (hq : st1.copyPush = [] ∧ st1.mats = [o] ∨ st1.copyPush = [o] ∧ st1.mats = []) (hfin : o.fin = true)
    (hpush : ∀ e, (streamOf st1 e).push = none) (hcan : canPush st1 o.mask = true) :
    settlePushes st1 = { pushSet st1 o.mask o.know with copyPush := [], mats := [], ext := [] } := by
  rcases hq with ⟨hc, hm⟩ | ⟨hc, hm⟩
  · rw [settlePushes_flushed (st1 := st1) (a := { st1 with copyPush := [] })
      (b := pushSet { st1 with copyPush := [], mats := [] } o.mask o.know) (by rw [hc]; rfl)
      (by rw [show ({ st1 with copyPush := [] } : Strand).mats = [o] from hm]; exact flushOrd_one hfin hcan)
      (by rw [pushSet_eq]; exact hext) (fun e => by rw [streamOf_ss (ss_pushSet _ _ _)]; exact hpush e),
      pushSet_eq, pushSet_eq]
  · rw [settlePushes_flushed (st1 := st1) (a := pushSet { st1 with copyPush := [] } o.mask o.know)
      (b := { pushSet { st1 with copyPush := [] } o.mask o.know with copyPush := [], mats := [] })
      (by rw [hc]; exact flushOrd_one hfin hcan)
      (by rw [pushSet_eq, show ({ st1 with copyPush := [], toks := _ } : Strand).mats = [] from hm]; rfl)
      (by rw [pushSet_eq]; exact hext) (fun e => by rw [pushSet_eq]; exact hpush e),
      pushSet_eq, pushSet_eq]

/-- The strand of M or C that a turn has passed on, its push queued, settles to a calm one with the push performed. -/
theorem pushes_queued {s' : State} {st1 : Strand} {o : OrdPush} {pc : BitVec 32} {k : Nat} (hcalm : Calm st)
    (h1 : strandAt s' core = some st1) (hs : ∀ f, streamOf st1 f = if e = f then passed (streamOf st e) pc else streamOf st f)
    (htoks : st1.toks = st.toks) (hext : st1.ext = [])
    (hq : st1.copyPush = [] ∧ st1.mats = [o] ∨ st1.copyPush = [o] ∧ st1.mats = []) (hfin : o.fin = true)
    (hcan : canPush st o.mask = true) : Pushes st e o.mask (settle (noteProgress s' k) core) core := by
  have hpush : ∀ f, (streamOf st1 f).push = none := fun f => by
    rw [hs]
    split
    · exact hcalm.push e
    · exact hcalm.push f
  have hset := settlePushes_queued hext hq hfin hpush ((canPush_congr htoks _).trans hcan)
  have hss : (settlePushes st1).ss = st1.ss := by rw [hset, pushSet_eq]
  have he : streamOf (settlePushes st1) e = passed (streamOf st e) pc := by
    rw [streamOf_ss hss, hs, if_pos rfl]
  have hlive : (streamOf (settlePushes st1) e).st ≠ .ended := by
    rw [he]
    exact fun h => SState.noConfusion h
  obtain ⟨g, hg⟩ := strandAt_settle (s := noteProgress s' k) (e := e)
    ((strandAt_strands (strands_noteProgress _ _) core).trans h1) hlive
  refine ⟨_, hg, ?_, fun q hqlt => ?_⟩
  · exact (congrArg Stream.push ((streamOf_gone _ g e).trans he)).trans (hcalm.push e)
  · rw [← tkCount_congr htoks, ← tkCount_pushSet st1 o.mask o.know hqlt]
    exact tkCount_congr (by rw [hset]) q

theorem append_one_of_nil {α : Type} {l : List α} (h : l = []) (o : α) : l ++ [o] = [o] := by rw [h, List.nil_append]

/-- A strand one of whose streams has passed on: its tokens and queued pushes stand. -/
theorem calm_passed {x : Strand} {pc : BitVec 32} (hx : setStream st e (passed (streamOf st e) pc) = x) (hcalm : Calm st) :
    (∀ f, streamOf x f = if e = f then passed (streamOf st e) pc else streamOf st f) ∧ x.toks = st.toks ∧ x.ext = [] ∧
      x.mats = [] ∧ x.copyPush = [] := by
  subst hx
  exact ⟨fun f => streamOf_setStream st e f _, rfl, hcalm.ext, hcalm.mats, hcalm.copies⟩

/-- The turn of mnop (R206). -/
theorem pushes_closeM (s0 : State) (h : strandAt s core = some st) (hcalm : Calm st)
    (hcan : canPush st (pushOf pat) = true) : Pushes st .M (pushOf pat) (closeM s0 core pat .free false (.fin s)) core := by
  generalize hx : setStream st .M (passed (streamOf st .M) s.grp.next) = x
  obtain ⟨hs, htoks, hext, hmats, hcopies⟩ := calm_passed hx hcalm
  have h1 : strandAt (passM s0 s core pat s.grp.next .free 0) core = some (queueM s0 s core pat .free 0 x) := by
    rw [passM_eq, strandAt_modStrand, if_pos rfl, strandAt_passMC _ h, Option.map_some, hx]
  have hno : MClass.free.onArray = false := rfl
  unfold closeM
  dsimp only
  rw [hno, if_neg Bool.false_ne_true, h1]
  dsimp only
  rw [Bool.false_and, if_neg Bool.false_ne_true]
  generalize passM s0 s core pat s.grp.next .free 0 = s' at h1 ⊢
  exact pushes_queued (o := pushM s0 s core pat .free 0 x) hcalm h1 hs htoks hext
    (.inl ⟨hcopies, append_one_of_nil hmats _⟩) rfl hcan

/-- The turn of cnop (R265). -/
theorem pushes_closeC (h : strandAt s core = some st) (hcalm : Calm st) (hcan : canPush st (pushOf pat) = true) :
    Pushes st .C (pushOf pat) (closeC core pat true (.fin s)) core := by
  generalize hx : setStream st .C (passed (streamOf st .C) s.grp.next) = x
  obtain ⟨hs, htoks, hext, hmats, hcopies⟩ := calm_passed hx hcalm
  have h1 : strandAt (modStrand (passMC s core .C s.grp.next) core (queueC (passMC s core .C s.grp.next) pat)) core =
      some (queueC (passMC s core .C s.grp.next) pat x) := by
    rw [strandAt_modStrand, if_pos rfl, strandAt_passMC _ h, Option.map_some, hx]
  have hclose : closeC core pat true (.fin s) = settle (noteProgress
      (modStrand (passMC s core .C s.grp.next) core (queueC (passMC s core .C s.grp.next) pat))
      (queueC (passMC s core .C s.grp.next) pat x).crew) core := by
    have h1' := h1
    unfold queueC pushC at h1'
    unfold closeC
    dsimp only
    rw [if_pos rfl, h1']
    rfl
  rw [hclose]
  generalize passMC s core .C s.grp.next = s3 at h1 ⊢
  generalize modStrand s3 core (queueC s3 pat) = s' at h1 ⊢
  exact pushes_queued (o := pushC s3 pat x) hcalm h1 hs htoks hext (.inr ⟨append_one_of_nil hcopies _, hmats⟩) rfl hcan

end

/-! ## The obligation -/

theorem popOf_append (m : BitVec 16) : popOf (0#16 ++ m) = m := by
  show (0#16 ++ m : BitVec (16 + 16)).extractLsb' 0 16 = m
  apply BitVec.eq_of_getLsbD_eq
  intro i hi
  simp only [BitVec.getLsbD_extractLsb', BitVec.getLsbD_append]
  simp [hi]

theorem pushOf_append (m : BitVec 16) : pushOf (m ++ 0#16) = m := by
  show (m ++ 0#16 : BitVec (16 + 16)).extractLsb' 16 16 = m
  apply BitVec.eq_of_getLsbD_eq
  intro i hi
  simp only [BitVec.getLsbD_extractLsb', BitVec.getLsbD_append]
  simp [hi]

theorem pushOf_zero : pushOf 0#32 = 0#16 := rfl

section
variable {s : State} {core : Nat} {e : Engine} {st : Strand} {tk : Tk} {i : Instr}

/-- The scalar token instructions (R99): what each moves. -/
theorem scalarTokens {m : BitVec 16} {q n : BitVec 4} (hcur : s.cur = .stream core .S) (hst : strandAt s core = some st)
    (hcalm : Calm st) (htr : (streamOf st .S).tr = none) (hpop : (streamOf st .S).popped = false) :
    (canPop st m = true → ∃ t st', exec (.tkpop m) s = .next t ∧ Finished s core .S st s.grp.next t ∧
      strandAt t core = some st' ∧ ∀ k, k < 16 → tkCount st' k + (if m.getLsbD k then 1 else 0) = tkCount st k) ∧
    (canPush st m = true → ∃ t st', exec (.tkpush m) s = .next t ∧ Finished s core .S st s.grp.next t ∧
      strandAt t core = some st' ∧ ∀ k, k < 16 → tkCount st' k = tkCount st k + (if m.getLsbD k then 1 else 0)) ∧
    (n.toNat ≤ tkCount st q.toNat → ∃ t st', exec (.tkwait q n) s = .next t ∧ Finished s core .S st s.grp.next t ∧
      strandAt t core = some st' ∧ ∀ k, k < 16 → tkCount st' k = tkCount st k) := by
  have hact := actor_of hcur hst
  refine ⟨fun hcan => ?pop, fun hcan => ?push, fun hn => ?wait⟩
  case pop =>
    obtain ⟨st1, hstep, hcalm1, htr1, hcount, hback⟩ := popStep_calm (pat := 0#16 ++ m) hst hcalm hpop
      (by rw [popOf_append]; exact hcan)
    have h1 : strandAt (setStrand s core st1) core = some st1 := by rw [strandAt_setStrand, if_pos rfl]
    obtain ⟨st', hst', -, hc⟩ := pushes_closeEff (pat := 0#32) h1 hcalm1 (htr1.trans htr) (canPush_zero st1)
    refine ⟨_, st', ?_, hback _ _ (closeEff_fin 0#32 h1), hst', fun k hk => ?_⟩
    · show execTkpop m s = _
      rw [execTkpop, hact]
      dsimp only
      rw [hstep]
    · have hk1 := hcount k hk
      have hk2 := hc k hk
      rw [popOf_append] at hk1
      rw [pushOf_zero] at hk2
      simp only [BitVec.getLsbD_zero, Bool.false_eq_true, if_false] at hk2
      omega
  case push =>
    have hcan' : canPush st (pushOf (m ++ 0#16)) = true := by rw [pushOf_append]; exact hcan
    obtain ⟨st', hst', -, hc⟩ := pushes_closeEff hst hcalm htr hcan'
    rw [pushOf_append] at hc
    refine ⟨_, st', ?_, closeEff_fin _ hst, hst', hc⟩
    show execTkpush m s = _
    rw [execTkpush, hact]
  case wait =>
    obtain ⟨st', hst', -, hc⟩ := pushes_closeEff (pat := 0#32) hst hcalm htr (canPush_zero st)
    refine ⟨_, st', ?_, closeEff_fin 0#32 hst, hst', fun k hk => ?_⟩
    · show execTkwait q n s = _
      rw [execTkwait, hact]
      exact if_pos hn
    · have hk2 := hc k hk
      rw [pushOf_zero] at hk2
      simpa using hk2

/-- A no-operation of a stream under a pattern: the tokens of its pop set are taken and those of its push set put, once. -/
theorem nop_moves (hst : strandAt s core = some st) (hcalm : Calm st) (hcur : s.cur = .stream core e)
    (htr : (streamOf st e).tr = none) (hpop : (streamOf st e).popped = false)
    (hok : patternOk e (patternOf st tk) = true) (hcan : canPop st (popOf (patternOf st tk)) = true)
    (hroom : canPush st (pushOf (patternOf st tk)) = true)
    (hi : (e, i) ∈ [(Engine.S, .snop tk), (.V, .vnop tk), (.M, .mnop tk), (.C, .cnop tk)]) :
    ∃ t st', exec i s = .next t ∧ Finished s core e st s.grp.next t ∧ strandAt t core = some st' ∧
      (streamOf st' e).push = none ∧
      ∀ k, k < 16 → tkCount st' k + (if (popOf (patternOf st tk)).getLsbD k then 1 else 0) =
        tkCount st k + (if (pushOf (patternOf st tk)).getLsbD k then 1 else 0) := by
  have hpat : patOf st e tk = patternOf st tk := by rw [patOf, hpop, if_neg Bool.false_ne_true]
  have hact := actor_of hcur hst
  obtain ⟨st1, hstep, hcalm1, htr1, hcount, hback⟩ := popStep_calm (pat := patternOf st tk) hst hcalm hpop hcan
  have h1 : strandAt (setStrand s core st1) core = some st1 := by rw [strandAt_setStrand, if_pos rfl]
  have hroom1 : canPush st1 (pushOf (patternOf st tk)) = true :=
    canPush_of_le hroom fun k hk => by have := hcount k hk; omega
  have hpoised : Poised s core e tk (setStrand s core st1) st1 :=
    ⟨hcur, ⟨st, hst, by rw [hpat]; exact hok, by rw [hpat]; exact hstep⟩, hcalm1.push e⟩
  have hserial : serialBusy st = false := by rw [serialBusy, hcalm.mats]; rfl
  have hturn : ∃ t, exec i s = .next t ∧ Finished (setStrand s core st1) core e st1 s.grp.next t ∧
      Pushes st1 e (pushOf (patternOf st tk)) t core := by
    simp only [List.mem_cons, List.not_mem_nil, or_false, Prod.mk.injEq] at hi
    rcases hi with ⟨rfl, rfl⟩ | ⟨rfl, rfl⟩ | ⟨rfl, rfl⟩ | ⟨rfl, rfl⟩
    case inl | inr.inl =>
      refine ⟨closeEff core _ (patternOf st tk) (.fin (setStrand s core st1)), ?_, closeEff_fin _ h1,
        pushes_closeEff h1 hcalm1 (htr1.trans htr) hroom1⟩
      show issue _ tk (fun s _ _ => .fin s) s = _
      unfold issue issuePre
      rw [hact]
      dsimp only
      rw [hpat, hok, Bool.not_true, if_neg Bool.false_ne_true, hstep]
    case inr.inr.inl =>
      refine ⟨closeM (setStrand s core st1) core (patternOf st tk) .free false (.fin (setStrand s core st1)), ?_,
        closeM_fin (c := .free) h1 (hcalm1.push .M), pushes_closeM _ h1 hcalm1 hroom1⟩
      have hrun := runM_of_poised (c := .free) (b := fun s _ _ => .fin s) hst (hpat.symm ▸ hstep)
        (starts_of_noSerial ⟨st, hst, .inr hserial⟩ (by simp))
      show Machine.decodeM tk (fun _ => none) (fun s core st => runM core tk .free (fun s _ _ => .fin s) s st) s = _
      rw [Machine.decodeM, hact]
      dsimp only
      rw [hpat, if_pos hok, hrun, hpat, closeM_free_frozen _ _ _ rfl]
    case inr.inr.inr =>
      refine ⟨closeC core (patternOf st tk) true (.fin (setStrand s core st1)), ?_,
        closeC_fin true h1 (hcalm1.push .C), pushes_closeC h1 hcalm1 hroom1⟩
      show issueC true (fun _ => true) tk (fun _ s _ _ => .fin s) s = _
      rw [issueC, hact]
      dsimp only
      rw [hpat, hok, Bool.not_true, if_neg Bool.false_ne_true, Bool.and_false, if_neg Bool.false_ne_true, hstep]
  obtain ⟨t, ht, hfin, st', hst', hnone, hc⟩ := hturn
  refine ⟨t, st', ht, hback _ _ hfin, hst', hnone, fun k hk => ?_⟩
  have hk1 := hcount k hk
  have hk2 := hc k hk
  omega

/-! ## Waiting -/

/-- What an instruction leaves whose tk_pop waits (R46, R62). -/
def Waits (s : State) (core : Nat) (e : Engine) (st : Strand) (i : Instr) : Prop :=
  ∃ t st', exec i s = .next t ∧ strandAt t core = some st' ∧ body st' = body st ∧ st'.toks = st.toks ∧
    (streamOf st' e).st = .tokenWait ∧ (streamOf st' e).pc = (streamOf st e).pc ∧ rest t = rest s

theorem waits_of_exec {m : BitVec 16} {n : BitVec 4} {ws : List Word}
    (h : exec i s = .next (setStrand s core (tokenWait st e m n ws))) : Waits s core e st i := by
  refine ⟨_, tokenWait st e m n ws, h, by rw [strandAt_setStrand, if_pos rfl], rfl, rfl, ?_, ?_, rfl⟩ <;>
    rw [tokenWait, streamOf_setStream, if_pos rfl]

/-- The hypotheses under which an instruction of a pattern waits in its tk_pop: one of the queues it pops is empty. -/
structure Starved (s : State) (core : Nat) (e : Engine) (st : Strand) (tk : Tk) : Prop where
  act : actor s e = some (core, st)
  popped : (streamOf st e).popped = false
  pat : patOf st e tk = patternOf st tk
  ok : patternOk e (patternOf st tk) = true
  step : popStep s core e st (patternOf st tk) =
    .error (setStrand s core (tokenWait st e (popOf (patternOf st tk)) 1 s.grp.words))

theorem starved_of (hcur : s.cur = .stream core e) (hst : strandAt s core = some st)
    (hpop : (streamOf st e).popped = false) (hok : patternOk e (patternOf st tk) = true)
    (hcan : canPop st (popOf (patternOf st tk)) = false) : Starved s core e st tk := by
  refine ⟨actor_of hcur hst, hpop, by rw [patOf, hpop, if_neg Bool.false_ne_true], hok, ?_⟩
  unfold popStep
  dsimp only
  rw [hpop, if_neg Bool.false_ne_true, hcan, if_neg Bool.false_ne_true]

theorem waits_of_issue {b : State → Nat → Strand → Eff} (h : Starved s core e st tk) (hi : exec i s = issue e tk b s) :
    Waits s core e st i := by
  refine waits_of_exec (m := popOf (patternOf st tk)) (n := 1) (ws := s.grp.words) (hi.trans ?_)
  unfold issue issuePre
  rw [h.act]
  dsimp only
  rw [h.pat, h.ok, Bool.not_true, if_neg Bool.false_ne_true, h.step]

/-- A matrix instruction of a form without the array, where nothing keeps it from its tk_pop (R176). -/
theorem waits_of_matrix {c : MClass} {b : State → Nat → Strand → Eff} (h : Starved s core .M st tk)
    (hserial : serialBusy st = false) (hc : c = .ctl ∨ c = .serial → matsDone st = true)
    (hi : exec i s = Machine.decodeM tk (fun _ => none) (fun s core st => runM core tk c b s st) s) :
    Waits s core .M st i := by
  have hgate : (!(streamOf st .M).popped && (serialBusy st || (decide (c = .ctl ∨ c = .serial) && !matsDone st))) = false := by
    rw [hserial]
    by_cases hcs : c = .ctl ∨ c = .serial
    · simp [hc hcs]
    · simp [hcs]
  refine waits_of_exec (m := popOf (patternOf st tk)) (n := 1) (ws := s.grp.words) (hi.trans ?_)
  rw [Machine.decodeM, h.act]
  dsimp only
  rw [h.pat, if_pos h.ok, runM, hgate, if_neg Bool.false_ne_true, h.pat, h.step]

theorem waits_of_copy {control : Bool} {gate : Strand → Bool} {b : BitVec 32 → State → Nat → Strand → Eff}
    (h : Starved s core .C st tk) (hgate : gate st = true) (hi : exec i s = issueC control gate tk b s) :
    Waits s core .C st i := by
  refine waits_of_exec (m := popOf (patternOf st tk)) (n := 1) (ws := s.grp.words) (hi.trans ?_)
  rw [issueC, h.act]
  dsimp only
  rw [h.pat, h.ok, Bool.not_true, if_neg Bool.false_ne_true, hgate, Bool.not_true, Bool.and_false,
    if_neg Bool.false_ne_true, h.step]

theorem waits_of_issueCopy {ui : Bool} {check : State → Nat → Strand → Chk CopyOp} (h : Starved s core .C st tk)
    (hfree : slotFree st = true) (hi : exec i s = issueCopy tk ui check s) : Waits s core .C st i :=
  waits_of_copy h hfree hi

theorem waits_of_controlC {b : State → Nat → Strand → Eff} (h : Starved s core .C st tk) (hi : exec i s = controlC tk b s) :
    Waits s core .C st i :=
  waits_of_copy h rfl hi

end

/-- Settles O8: the scalar token instructions, the no-operations under a pattern, and the frame that waits in its tk_pop. -/
theorem tokens : Obligations.Tokens := by
  refine ⟨?scalar, ?nops, ?waits⟩
  case scalar =>
    intro s core st m q n hcur hst hcalm htr hpop
    exact scalarTokens hcur hst hcalm htr hpop
  case nops =>
    intro s core st tk e i hi hcur hst hcalm htr hpop hok hcan hroom
    exact nop_moves hst hcalm hcur htr hpop hok hcan hroom hi
  case waits =>
    intro s core st tk e xd xa xb xo cd cn v va vb pd imm off sc bs sz bi tag byp ui rg sel fsc hcur hst hpop hok hcan waits
    have hs := starved_of hcur hst hpop hok hcan
    refine ⟨?S, ?V, ?M, ?C⟩
    case S =>
      rintro rfl
      exact ⟨waits_of_issue hs rfl, waits_of_issue hs rfl, waits_of_issue hs rfl, waits_of_issue hs rfl,
        waits_of_issue hs rfl, waits_of_issue hs rfl, waits_of_issue hs rfl, waits_of_issue hs rfl,
        waits_of_issue hs rfl, waits_of_issue hs rfl⟩
    case V =>
      rintro rfl
      exact ⟨waits_of_issue hs rfl, waits_of_issue hs rfl, waits_of_issue hs rfl, waits_of_issue hs rfl,
        waits_of_issue hs rfl, waits_of_issue hs rfl, waits_of_issue hs rfl⟩
    case M =>
      rintro rfl hserial
      exact ⟨waits_of_matrix (c := .free) hs hserial (by simp) rfl, fun hdone =>
        ⟨waits_of_matrix (c := .ctl) hs hserial (fun _ => hdone) rfl,
          waits_of_matrix (c := .ctl) hs hserial (fun _ => hdone) rfl,
          waits_of_matrix (c := .ctl) hs hserial (fun _ => hdone) rfl⟩⟩
    case C =>
      rintro rfl
      exact ⟨waits_of_controlC hs rfl, waits_of_controlC hs rfl,
        fun hfree => ⟨waits_of_issueCopy hs hfree rfl, waits_of_issueCopy hs hfree rfl⟩,
        fun _ => ⟨waits_of_controlC hs rfl, waits_of_controlC hs rfl⟩⟩

end Sys2Proof.Proofs.Tokens
end

section
/-! Semaphores and bindings (R101, R102, R213), the wait of an instruction after its tk_pop, and a crew barrier that completes
although the list of strands names a member that has not arrived (R107). -/
namespace Sys2Proof.Proofs.Semaphores
open Sys2Proof Sys2Proof.Machine Sys2Proof.Safety Sys2Proof.Laws Sys2Proof.Proofs.ScalarEngine Sys2Proof.Proofs.Turns
  Sys2Proof.Proofs.Tokens

/-! ## Waiting after the tk_pop (R46) -/

theorem streamOf_tryPush_of_ne (st : Strand) {e f : Engine} (h : e ≠ f) : streamOf (tryPush st e) f = streamOf st f := by
  unfold tryPush
  dsimp only
  split
  · rfl
  · split
    · rfl
    · split
      · have hss := streamOf_ss (ss_pushSet st (‹PushWait›).mask (‹PushWait›).know) f
        split
        · exact (streamOf_ss rfl f).trans ((streamOf_setStream _ e f _).trans ((if_neg h).trans hss))
        · exact (streamOf_setStream _ e f _).trans ((if_neg h).trans hss)
      · rw [streamOf_setStream, if_neg h]

theorem streamOf_tryPush_idle {st : Strand} (e : Engine) {f : Engine} (h : (streamOf st f).push = none) :
    streamOf (tryPush st e) f = streamOf st f := by
  by_cases he : e = f
  · rw [tryPush_none (he ▸ h)]
  · exact streamOf_tryPush_of_ne st he

/-- Settling pushes leaves a stream that waits to push nothing. -/
theorem streamOf_settlePushes_idle {st : Strand} {f : Engine} (h : (streamOf st f).push = none) :
    streamOf (settlePushes st) f = streamOf st f := by
  obtain ⟨b, hb, hss, -⟩ := settlePushes_split st
  have hs : streamOf b f = streamOf st f := streamOf_ss hss f
  have next (e : Engine) {a : Strand} (ha : streamOf a f = streamOf st f) : streamOf (tryPush a e) f = streamOf st f :=
    (streamOf_tryPush_idle e (ha ▸ h)).trans ha
  rw [hb]
  exact next .C (next .M (next .V (next .S hs)))

/-- Settling a strand whose scalar stream goes on settles its pushes and nothing else. -/
theorem settle_scalar {s : State} {core : Nat} {st : Strand} (h : strandAt s core = some st)
    (hlive : (streamOf (settlePushes st) .S).st ≠ .ended) : settle s core = setStrand s core (settlePushes st) := by
  unfold settle
  rw [modStrand_some _ h]
  generalize settlePushes st = st1 at hlive ⊢
  have hst : strandAt (setStrand s core st1) core = some st1 := by rw [strandAt_setStrand, if_pos rfl]
  have hend : settleEnd (setStrand s core st1) core = setStrand s core st1 := by
    unfold settleEnd
    rw [hst]
    dsimp only
    rw [beq_eq_false_iff_ne.2 hlive, Bool.false_and, if_neg Bool.false_ne_true]
  rw [hend]
  unfold settleRetire
  rw [hst]
  dsimp only
  rw [mayRetire_alive hlive, Bool.false_and, if_neg Bool.false_ne_true]

section
variable {s s1 s2 : State} {core : Nat} {tk : Tk} {st st2 : Strand} {i : Instr} {b : State → Nat → Strand → Eff}

/-- An instruction of the scalar stream that waits after its tk_pop stays in Sync wait. -/
theorem syncWait_of_wait (h : Poised s core .S tk s1 st) (hi : exec i s = issue .S tk b s) (hb : b s1 core st = .wait s2)
    (h2 : strandAt s2 core = some st2) (hidle : (streamOf st2 .S).push = none) :
    ∃ t st', exec i s = .next t ∧ strandAt t core = some st' ∧ body st' = body st2 ∧ (streamOf st' .S).st = .syncWait ∧
      rest t = rest s2 := by
  have ht := exec_of_poised h hi
  have hx : ∃ x, setStream st2 .S { streamOf st2 .S with st := .syncWait } = x ∧ body x = body st2 ∧
      (streamOf x .S).st = .syncWait ∧ (streamOf x .S).push = none :=
    ⟨_, rfl, rfl, by rw [streamOf_setStream, if_pos rfl], by rw [streamOf_setStream, if_pos rfl]; exact hidle⟩
  obtain ⟨x, hxe, hbody, hwait, hpush⟩ := hx
  have hset := streamOf_settlePushes_idle hpush
  have hclose : closeEff core .S (patOf st .S tk) (b s1 core st) = setStrand (setStrand s2 core x) core (settlePushes x) := by
    rw [hb, ← hxe]
    unfold closeEff
    dsimp only
    rw [modStream, modStrand_some _ h2, hxe]
    exact settle_scalar (by rw [strandAt_setStrand, if_pos rfl]) (by rw [hset, hwait]; exact SState.noConfusion)
  refine ⟨_, settlePushes x, ht, ?_, (body_settlePushes x).trans hbody, by rw [hset, hwait], ?_⟩
  · rw [hclose, strandAt_setStrand, if_pos rfl]
  · rw [hclose, rest_setStrand, rest_setStrand]

end

/-! ## Semaphores -/

theorem semOf_semPut (s : State) (die sem : Nat) (v : BitVec 64) : semOf (semPut s die sem v) die sem = v := by
  rw [semOf, semPut, dieAt_modDie, if_pos rfl]
  dsimp only
  rw [mapGet_set, if_pos rfl]

theorem strandAt_semPut (s : State) (die sem : Nat) (v : BitVec 64) (c : Nat) :
    strandAt (semPut s die sem v) c = strandAt s c := rfl

/-- The semaphore that a register names is its low 12 bits. -/
theorem semaphore_eq_mod (a : DWord) : fieldOf a 0 12 = a.toNat % 4096 := fieldOf_zero_eq_mod a 12

section
variable {s s1 : State} {core : Nat} {tk : Tk} {st : Strand} {i : Instr} {xd xa xb : XReg} {a b : DWord} {c : BitVec 2}

/-- A semaphore wait whose condition holds gives the value; the strand's later reads bound to the semaphore follow it. -/
theorem completes_of_semwait (h : Poised s core .S tk s1 st) (hi : exec i s = semwait c tk xd xa xb s)
    (ha : readX st .S xa = .ok a) (hb : readX st .S xb = .ok b)
    (hc : semCond c (semOf s1 (crewDie st.crew) (a.toNat % 4096)) b = true) :
    Completes i s s1 core .S (writeX (follow s1 st 3 (some (BitVec.ofNat 64 (a.toNat % 4096)))) .S xd
      (semOf s1 (crewDie st.crew) (a.toNat % 4096))) s1.grp.next :=
  completes_of_set h hi (by
    rw [orTrap_ok (readX2_of_ok ha hb)]
    dsimp only
    rw [semaphore_eq_mod, hc, if_pos rfl]
    rfl)

/-- One whose condition does not hold stays in Sync wait. -/
theorem waits_of_semwait (h : Poised s core .S tk s1 st) (hi : exec i s = semwait c tk xd xa xb s)
    (ha : readX st .S xa = .ok a) (hb : readX st .S xb = .ok b)
    (hc : semCond c (semOf s1 (crewDie st.crew) (a.toNat % 4096)) b = false) :
    ∃ t st', exec i s = .next t ∧ strandAt t core = some st' ∧ body st' = body st ∧ (streamOf st' .S).st = .syncWait ∧
      rest t = rest s1 :=
  syncWait_of_wait h hi (s2 := s1) (by
    rw [orTrap_ok (readX2_of_ok ha hb)]
    dsimp only
    rw [semaphore_eq_mod, hc, if_neg Bool.false_ne_true]) (strandAt_of_poised h) h.idle

/-- A signal adds to the semaphore and gives the sum. -/
theorem completes_of_semsig (h : Poised s core .S tk s1 st) (ha : readX st .S xa = .ok a) (hb : readX st .S xb = .ok b)
    (hcov : coveredPending st .S 3 (boundIs (BitVec.ofNat 64 (a.toNat % 4096))) = false) {v : DWord}
    (hv : semOf s1 (crewDie st.crew) (a.toNat % 4096) + b = v) :
    Completes (.semsig tk xd xa xb) s (semPut s1 (crewDie st.crew) (a.toNat % 4096) v) core .S (writeX st .S xd v)
      s1.grp.next := by
  refine completes_of_mod (s2 := semPut s1 (crewDie st.crew) (a.toNat % 4096) v) (f := fun st => writeX st .S xd v) h rfl ?_
    ((strandAt_semPut _ _ _ _ _).trans (strandAt_of_poised h))
  rw [orTrap_ok (readX2_of_ok ha hb)]
  dsimp only
  rw [semaphore_eq_mod, show coveredPending st .S 3 (boundIs (d64 (a.toNat % 4096))) = false from hcov,
    if_neg Bool.false_ne_true]
  unfold semAdd
  rw [hv, semOf_semPut]

end

/-- Settles O9: the sum is read back from the semaphore it is put into; each wait by its condition. -/
theorem semaphoreInstructions : Obligations.SemaphoreInstructions := by
  refine ⟨?done, ?waits⟩
  case done =>
    intro s s1 core tk st xd xa xb a b h ha hb die n v st1 done
    have wait (i : Instr) (c : BitVec 2) (hi : exec i s = semwait c tk xd xa xb s) (hc : semCond c v b = true) : done i :=
      completes_of_semwait h hi ha hb hc
    refine ⟨fun hcov => completes_of_semsig h ha hb hcov rfl, fun hle => wait _ 0#2 rfl (decide_eq_true hle),
      fun heq => wait _ 1#2 rfl (beq_iff_eq.2 heq), fun hne => wait _ 2#2 rfl (bne_iff_ne.2 hne), ?_⟩
    exact completes_of_finX h rfl ((orTrap_ok ha).trans (by rw [semaphore_eq_mod]))
  case waits =>
    intro s s1 core tk st xd xa xb a b h ha hb v waits
    have wait (i : Instr) (c : BitVec 2) (hi : exec i s = semwait c tk xd xa xb s) (hc : semCond c v b = false) : waits i :=
      waits_of_semwait h hi ha hb hc
    exact ⟨fun hlt => wait _ 0#2 rfl (decide_eq_false (Nat.not_le.2 hlt)),
      fun hne => wait _ 1#2 rfl (beq_eq_false_iff_ne.2 hne), fun heq => wait _ 2#2 rfl (bne_eq_false_iff_eq.2 heq)⟩

/-! ## Bindings -/

/-- Settles O10: both read the region of the binding; one puts it before the others, one leaves the others. -/
theorem bindings : Obligations.Bindings := by
  intro s s1 core tk st cn xa xb xs a b n c w h ha hb hn hr others new
  have hab := readX2_of_ok ha hb
  refine ⟨completes_of_set h rfl (orTrap_ok (a := (c, w, b.toNat, n)) ?_),
    completes_of_set h rfl (orTrap_ok (a := (c, w, b.toNat)) ?_)⟩ <;>
    rw [bind_of_ok hab] <;> dsimp only <;> rw [bind_of_ok hn, bind_of_ok hr]

/-! ## A crew barrier over a list that names a core twice

`Synchronisation` quantifies over every machine, and nothing in it asks that the list of strands names a core once. Where it names
one twice, the member behind the first is missing from the barrier until the first is written, which drops it from the list. -/

/-- A strand of rank 0 that arrives at the barrier. -/
def arriving : Strand := { crew := 0, ss := [(Engine.S.num, { popped := true })] }

/-- A member of rank 1 that has not arrived. -/
def absent : Strand := { crew := 0, rank := 1 }

/-- The crew of both. -/
def crowdedCrew : Crew := { launch := 0, space := 0, handle := lineHandle, size := 1 }

/-- Its launch. -/
def crowdedLaunch : Launch := { die := 0, q := 0, off := 0, args := blankArgs }

/-- A machine whose list of strands names core 0 twice. -/
def crowded : State :=
  { State.reset with
    cur := .stream 0 .S
    strands := [(0, arriving), (0, absent)]
    crews := [(0, crowdedCrew)]
    launches := [(0, crowdedLaunch)] }

theorem crowded_poised : Poised crowded 0 .S 0#4 crowded arriving :=
  ⟨rfl, ⟨arriving, rfl, by decide, rfl⟩, rfl⟩

/-- Whether an outcome leaves the scalar stream of core 0 in Sync wait. -/
def inSyncWait : Out → Bool
  | .next t => (strandAt t 0).any fun st => (streamOf st .S).st == .syncWait
  | _ => false

/-- The arrival completes the barrier: nobody waits for the member that was missing. -/
theorem crowded_cbar : inSyncWait (exec (.cbar 0#4) crowded) = false := by decide +kernel

/-- Refutes O11: in `crowded` a member of the crew is missing, and the strand that arrives does not wait for it. -/
theorem not_synchronisation : ¬ Obligations.Synchronisation := by
  intro h
  have hcbar := (h.2 crowded crowded 0 0#4 arriving 0#8 crowdedCrew crowdedLaunch crowded_poised rfl).2
  obtain ⟨t, st', c', ht, hst', -, hwait, -⟩ := (hcbar.2 (by decide) rfl rfl rfl).1 (by decide)
  have hin : inSyncWait (exec (.cbar 0#4) crowded) = true := by rw [ht, inSyncWait, hst', Option.any_some, hwait]; rfl
  rw [crowded_cbar] at hin
  cases hin

end Sys2Proof.Proofs.Semaphores
end

section
/-! Ends of streams, user-level traps, pages, and a safe point that another stream's push overtakes (R61, R78, R109 to R112,
R206, R265). -/
namespace Sys2Proof.Proofs.StrandControl
open Sys2Proof Sys2Proof.Machine Sys2Proof.Safety Sys2Proof.Laws Sys2Proof.Proofs.ScalarEngine
  Sys2Proof.Proofs.ScalarAccesses Sys2Proof.Proofs.Turns Sys2Proof.Proofs.ArrayTurns Sys2Proof.Proofs.Tokens
  Sys2Proof.Proofs.Semaphores

/-! ## The end of a stream -/

section
variable {s s1 s2 : State} {core : Nat} {e f : Engine} {tk : Tk} {st : Strand} {i : Instr} {pat : BitVec 32}

/-- A push that nothing keeps from its turn, of an instruction that ends its stream. -/
theorem tryPush_stop {st1 : Strand} {p : PushWait} (hp : (streamOf st1 e).push = some p) (hafter : p.after = .stop)
    (htr : (streamOf st1 e).tr = none) (hord : ordOf st1 e = []) (hcan : canPush st1 p.mask = true) :
    tryPush st1 e = setStream (pushSet st1 p.mask p.know) e { streamOf st1 e with push := none, st := .ended } := by
  unfold tryPush
  dsimp only
  rw [hp]
  dsimp only
  rw [htr, hord, if_neg (by simp), if_pos hcan, hafter]
  simp

/-- What an instruction leaves that ends its stream. -/
def Ends (t : State) (core : Nat) (e : Engine) (st : Strand) (pc : BitVec 32) : Prop :=
  ∃ st', strandAt t core = some st' ∧ body st' = body st ∧ (streamOf st' e).st = .ended ∧ (streamOf st' e).pc = pc

/-- The turn of an instruction that ends its stream where another one goes on. -/
theorem ends_of_stop (hef : e ≠ f) (h : strandAt s core = some st) (hlive : (streamOf st f).st ≠ .ended)
    (hidle : (streamOf st f).push = none) (htr : (streamOf st e).tr = none) (hord : ordOf st e = [])
    (hcan : canPush st (pushOf pat) = true) : Ends (closeEff core e pat (.after s .stop)) core e st s.grp.next := by
  have hfin : ∃ x, ((streamOf x e).st = .ended ∧ (streamOf x e).pc = s.grp.next ∧ (streamOf x e).push = none) ∧
      streamOf x f = streamOf st f ∧ body x = body st ∧
      strandAt (finishSV s core e pat s.grp.next .stop) core = some x := by
    unfold finishSV
    rw [modStrand_some _ h, modStrand_some _ (by rw [strandAt_setStrand, if_pos rfl]), strandAt_setStrand, if_pos rfl]
    dsimp only
    generalize hx : ({ streamOf st e with
      pc := s.grp.next, st := .issuing, popped := false, arrived := false, asked := false, ans := none, opnd := none
      push := some { mask := pushOf pat, know := (streamOf st e).know, addr := s.grp.addr, gaddr := s.grp.gaddr
                     words := s.grp.words, after := .stop } } : Stream) = x
    have hxe : streamOf (setStream st e x) e = x := by rw [streamOf_setStream, if_pos rfl]
    have hpush := tryPush_stop (st1 := setStream st e x) (e := e)
      (p := { mask := pushOf pat, know := (streamOf st e).know, addr := s.grp.addr, gaddr := s.grp.gaddr, words := s.grp.words
              after := .stop }) (by rw [hxe, ← hx]) rfl (by rw [hxe, ← hx]; exact htr)
      ((by cases e <;> rfl : ordOf (setStream st e x) e = ordOf st e).trans hord) hcan
    have hpc : x.pc = s.grp.next := by rw [← hx]
    refine ⟨_, ?_, ?_, ?_, rfl⟩
    · rw [hpush, streamOf_setStream, if_pos rfl, hxe]
      exact ⟨rfl, hpc, rfl⟩
    · rw [streamOf_tryPush_of_ne _ hef, streamOf_setStream, if_neg hef]
    · rw [body_tryPush, body_setStream]
  obtain ⟨x, ⟨hended, hpc, hnone⟩, hxf, hbody, hst⟩ := hfin
  have hse : streamOf (settlePushes x) e = streamOf x e := streamOf_settlePushes_idle hnone
  have hsf : streamOf (settlePushes x) f = streamOf st f :=
    (streamOf_settlePushes_idle ((congrArg Stream.push hxf).trans hidle)).trans hxf
  unfold closeEff
  dsimp only
  rw [hst]
  dsimp only
  generalize finishSV s core e pat s.grp.next .stop = s' at hst ⊢
  obtain ⟨g, hg⟩ := strandAt_settle (s := noteProgress s' x.crew) (e := f)
    ((strandAt_strands (strands_noteProgress _ _) core).trans hst) (by rw [hsf]; exact hlive)
  refine ⟨_, hg, (body_gone _ g).trans ((body_settlePushes x).trans hbody), ?_, ?_⟩ <;> rw [streamOf_gone, hse]
  · exact hended
  · exact hpc

theorem strandAt_endLease (s : State) (core c : Nat) : strandAt (endLease s core) c = strandAt s c := by
  unfold endLease
  dsimp only
  split
  · split <;> rfl
  · rfl

theorem grp_endLease (s : State) (core : Nat) : (endLease s core).grp = s.grp := by
  unfold endLease
  dsimp only
  split
  · split <;> rfl
  · rfl

end

/-- Settles O15: each of the four ends is the turn of a stream that stops. -/
theorem streamEnds : Obligations.StreamEnds := by
  intro s s1 core tk st e f hef h hlive hidle htr hcopies hmats hcan ends
  have hst := strandAt_of_poised h
  have hord : ordOf st e = [] := by
    cases e with
    | S | V => rfl
    | M => exact hmats
    | C => exact hcopies
  have halts (s2 : State) (h2 : strandAt s2 core = some st) :
      Ends (closeEff core e (patOf st e tk) (.after s2 .stop)) core e st s2.grp.next :=
    ends_of_stop hef h2 hlive hidle htr hord hcan
  refine ⟨?scalar, ?vector, ?matrix, ?copy⟩
  case scalar =>
    rintro rfl hx
    have hbody : (needsXsync s1 st && !st.xsync) = false := by rcases hx with hx | hx <;> simp [hx]
    obtain ⟨st', hend⟩ := halts s1 hst
    exact ⟨_, st', (exec_of_poised h rfl).trans (by rw [hbody, if_neg Bool.false_ne_true]), hend⟩
  case vector =>
    rintro rfl
    obtain ⟨st', hend⟩ := halts s1 hst
    exact ⟨_, st', exec_of_poised h rfl, hend⟩
  case matrix =>
    rintro rfl hdone
    obtain ⟨st', hend⟩ := halts (endLease s1 core) ((strandAt_endLease _ _ _).trans hst)
    rw [grp_endLease] at hend
    exact ⟨_, st', exec_of_free (c := .ctl) rfl h (starts_of_matsDone hdone _) rfl, hend⟩
  case copy =>
    rintro rfl
    obtain ⟨st', hend⟩ := halts s1 hst
    obtain ⟨st0, hst0, -⟩ := patOf_of_poised h
    exact ⟨_, st', exec_of_issueC (control := true) (gate := fun _ => true) (b := fun _ s _ _ => .after s .stop) h
      ⟨st0, hst0, .inr rfl⟩ rfl, hend⟩

/-! ## User-level traps -/

section
variable {s s1 s2 : State} {core : Nat} {tk : Tk} {st st2 : Strand} {i : Instr}

/-- UISTAT at the entry of a user trap: ID is the code, EN is kept (Table 3.9). -/
theorem uiEnter_eq (old : BitVec 32) (code : BitVec 16) (src : Nat) : uiEnter old code.toNat src false =
    BitVec.ofNat 32 (code.toNat * 65536 + src * 4 + 2 + old.toNat % 2) := by
  have hcode : code.toNat % 65536 = code.toNat := Nat.mod_eq_of_lt code.isLt
  have hen : (if old.getLsbD 0 then 1 else 0) = old.toNat % 2 := by
    rw [BitVec.getLsbD, Nat.testBit_zero]
    have := Nat.mod_two_eq_zero_or_one old.toNat
    rcases this with h | h <;> rw [h] <;> rfl
  rw [uiEnter, hcode, hen]
  simp

/-- brk and trapu enter the handler where one is set and none runs. -/
theorem completes_of_userTrap {c : Cause} {src : Nat} {code : BitVec 16} {t : BitVec 32} (h : Poised s core .S tk s1 st)
    (hi : exec i s = userTrap c src tk code s) (hact : st.sys.uistat.getLsbD 1 = false)
    (hvec : st.sys.uivec.extractLsb' 2 30 ≠ 0#30) (ht : checkTarget s1 st .S st.sys.uivec.toNat = .ok t) :
    Completes i s s1 core .S (uiDeliver st s1.grp.next code.toNat src false false) t := by
  have hcond : ¬(uiAct st = true ∨ bits st.sys.uivec 2 30 = 0#30) := by
    rintro (h | h)
    · rw [uiAct, hact] at h; cases h
    · exact hvec h
  exact completes_of_jumpSet h hi ((if_neg hcond).trans (orTrap_ok ht))

/-- The turn of uiret: its stream stands at the return address, its tk_pop done or not as RPOP says (R78). -/
theorem closeEff_resume (pat t r : BitVec 32) (p a : Bool) (h : strandAt s core = some st) :
    ∃ st', strandAt (closeEff core .S pat (.resume s t p a r)) core = some st' ∧ body st' = body st ∧
      (streamOf st' .S).pc = t ∧ (streamOf st' .S).popped = p ∧
      (∀ f, f ≠ .S → unpushed (streamOf st' f) = unpushed (streamOf st f)) ∧
      (∀ c, c ≠ core → strandAt (closeEff core .S pat (.resume s t p a r)) c = strandAt s c) ∧
      rest (closeEff core .S pat (.resume s t p a r)) = rest s := by
  obtain ⟨st1, h1, hbody, hpc, -, halive, hothers, hrest, hstreams⟩ := finishSV_go (e := .S) pat t h
  unfold closeEff
  dsimp only
  generalize finishSV s core .S pat t .go = s' at *
  have hmod : modStream s' core .S (fun x => { x with popped := p, arrived := a, pat := r }) =
      setStrand s' core (setStream st1 .S { streamOf st1 .S with popped := p, arrived := a, pat := r }) :=
    modStrand_some _ h1
  rw [hmod]
  generalize hx : setStream st1 .S { streamOf st1 .S with popped := p, arrived := a, pat := r } = x
  have hxs : streamOf x .S = { streamOf st1 .S with popped := p, arrived := a, pat := r } := by
    rw [← hx, streamOf_setStream, if_pos rfl]
  have hxa : Alive x .S := by unfold Alive; rw [hxs]; exact halive
  have hst : strandAt (setStrand s' core x) core = some x := by rw [strandAt_setStrand, if_pos rfl]
  rw [hst]
  dsimp only
  obtain ⟨hun, hkeep⟩ := streamOf_settlePushes x .S
  rw [settle_scalar ((strandAt_strands (strands_noteProgress _ _) core).trans hst) (hkeep hxa).1]
  refine ⟨settlePushes x, by rw [strandAt_setStrand, if_pos rfl], ?_, ?_, ?_, fun f hf => ?_, fun c hc => ?_, ?_⟩
  · rw [body_settlePushes, ← hx, body_setStream, hbody]
  · rw [unpushed_pc hun, hxs]; exact hpc
  · rw [unpushed_popped hun, hxs]
  · rw [(streamOf_settlePushes x f).1, ← hx, streamOf_setStream, if_neg hf.symm, hstreams f hf]
  · rw [strandAt_setStrand, if_neg hc.symm, strandAt_strands (strands_noteProgress _ _), strandAt_setStrand, if_neg hc.symm,
      hothers c hc]
  · rw [rest_setStrand, rest_noteProgress, rest_setStrand, hrest]

/-- uiret leaves the handler to UIEPC, with ACT and RPOP clear; where RPOP was set its stream's tk_pop is done. -/
theorem exec_uiret {t : BitVec 32} (h : Poised s core .S tk s1 st) (hact : st.sys.uistat.getLsbD 1 = true)
    (ht : checkTarget s1 st .S st.sys.uiepc.toNat = .ok t) :
    ∃ t' st', exec (.uiret tk) s = .next t' ∧ strandAt t' core = some st' ∧
      body st' = body { st with sys := { st.sys with uistat := uiLeave st.sys.uistat } } ∧ (streamOf st' .S).pc = t ∧
      (streamOf st' .S).popped = st.sys.uistat.getLsbD 4 ∧
      (∀ f, f ≠ .S → unpushed (streamOf st' f) = unpushed (streamOf st f)) ∧
      (∀ c, c ≠ core → strandAt t' c = strandAt s1 c) ∧ rest t' = rest s1 := by
  obtain ⟨st', hst', hbody, hpc, hpopped, hstreams, hothers, hrest⟩ := closeEff_resume (patOf st .S tk) t st.uiPat
    (st.sys.uistat.getLsbD 4) (st.sys.uistat.getLsbD 4 && st.uiArrived)
    (s := setStrand s1 core { st with sys := { st.sys with uistat := uiLeave st.sys.uistat } }) (core := core)
    (by rw [strandAt_setStrand, if_pos rfl])
  have hexec := exec_of_poised (i := .uiret tk) h rfl
  dsimp only at hexec
  rw [uiAct, hact, Bool.not_true, if_neg Bool.false_ne_true, orTrap_ok ht] at hexec
  exact ⟨_, st', hexec, hst', hbody, hpc, hpopped, hstreams,
    fun c hc => by rw [hothers c hc, strandAt_setStrand, if_neg hc.symm], hrest⟩

end

/-- Settles O13: the two traps are one operation; uiret resumes its stream with the tk_pop that RPOP names. -/
theorem userTraps : Obligations.UserTraps := by
  intro s s1 core tk st code t h
  refine ⟨fun hact hvec ht => ?enter, fun hact hrpop ht => ?leave, fun hact hrpop ht => ?leavePopped⟩
  case enter =>
    intro enter
    have trap (i : Instr) (c : Cause) (src : Nat) (hi : exec i s = userTrap c src tk code s) :
        Completes i s s1 core .S (enter src) t := by
      have hdone := completes_of_userTrap h hi hact hvec ht
      unfold uiDeliver at hdone
      rw [uiEnter_eq] at hdone
      exact hdone
    exact ⟨trap _ .brk 1 rfl, trap _ .trapu 2 rfl⟩
  case leave =>
    obtain ⟨t', st', hexec, hst', hbody, hpc, hpopped, hstreams, hothers, hrest⟩ := exec_uiret h hact ht
    exact ⟨t', hexec, ⟨st', hst', hbody, hpc, hpopped.trans hrpop, hstreams⟩, hothers, hrest⟩
  case leavePopped =>
    obtain ⟨t', st', hexec, hst', hbody, hpc, hpopped, -, -, hrest⟩ := exec_uiret h hact ht
    exact ⟨t', st', hexec, hst', hrest, hbody, hpc, hpopped.trans hrpop⟩

/-! ## Pages -/

section
variable {s s1 s2 s3 : State} {core : Nat} {tk : Tk} {st st2 st3 : Strand} {x : Instr} {xd xo : XReg} {cn : CReg}
variable {o : DWord} {c : CapBits} {a : Nat} {i : PageInfo} {rt : Right}
variable {k : State → Nat → Strand → CapBits → Nat → PageInfo → Eff}

/-- What a page instruction's checks and its translation give. -/
structure PageFound (s1 : State) (core : Nat) (st : Strand) (cn : CReg) (xo : XReg) (rt : Right) (c : CapBits) (a : Nat)
    (i : PageInfo) (s2 : State) : Prop where
  checks : (do
    let o ← readX st .S xo
    let p ← capCheck st cn o 8192 rt
    checkAligned p.2 8192
    .ok p) = .ok (c, a)
  found : pageLookup s1 core st (capObj c) (capOgen c) a = (.ok i, s2)

theorem pageFound_of (ho : readX st .S xo = .ok o) (hc : capCheck st cn o 8192 rt = .ok (c, a)) (ha : a % 8192 = 0)
    (hp : pageLookup s1 core st (capObj c) (capOgen c) a = (.ok i, s2)) : PageFound s1 core st cn xo rt c a i s2 :=
  ⟨(bind_of_ok ho).trans ((bind_of_ok hc).trans (bind_of_ok (if_pos ha))), hp⟩

/-- A page instruction whose page is found, by what its operation answers. -/
theorem completes_of_page {v : Nat} (h : Poised s core .S tk s1 st) (hi : exec x s = pageOp tk cn xo rt s k)
    (hf : PageFound s1 core st cn xo rt c a i s2) (hk : k s2 core st c a i = pageRes s3 core xd v)
    (h3 : strandAt s3 core = some st3) : Completes x s s3 core .S (writeX st3 .S xd (d64 v)) s3.grp.next := by
  refine completes_of_mod (f := fun st => writeX st .S xd (d64 v)) h hi ?_ h3
  rw [orTrap_ok hf.checks]
  dsimp only
  rw [hf.found]
  exact hk

end

/-- Settles O16: each answer is that of the operation on the page found. -/
theorem pageInstructions : Obligations.PageInstructions := by
  intro s s1 s2 core tk st st2 xd xo cn o c a i h ho checked done
  have found {rt : Right} (hc : checked rt) : PageFound s1 core st cn xo rt c a i s2 ∧ strandAt s2 core = some st2 := by
    obtain ⟨hcap, ha, hp, h2⟩ := hc
    exact ⟨pageFound_of ho hcap ha hp, h2⟩
  refine ⟨fun hc hkind => ⟨?commitDense, ?freeDense⟩, fun hc hkind hpe => ?commitAgain, fun hc hkind hpe => ⟨?freeAgain, ?commit⟩,
    fun hc hkind hpe hpool => ?commitEmpty, fun hc hkind hpe hst => ?free, fun hc hkind => ?queryDense,
    fun hc hkind => ?queryPaged, fun l s3 st3 hc hkind hl h3 => ?querySparse⟩
  case commitDense =>
    exact completes_of_page (v := 2) h (execPgcommit.eq_1 tk xd cn xo s) (found hc).1 (if_pos hkind) (found hc).2
  case freeDense =>
    exact completes_of_page (v := 2) h (execPgfree.eq_1 tk xd cn xo s) (found hc).1 (if_pos hkind) (found hc).2
  case commitAgain =>
    exact completes_of_page (v := 1) h (execPgcommit.eq_1 tk xd cn xo s) (found hc).1 ((if_neg (Classical.not_not.2 hkind)).trans (if_pos hpe)) (found hc).2
  case freeAgain =>
    refine completes_of_page (v := 1) h (execPgfree.eq_1 tk xd cn xo s) (found hc).1 ((if_neg (Classical.not_not.2 hkind)).trans ?_) (found hc).2
    rw [hpe]; rfl
  case commit =>
    intro f r st3 hpool w1 w2 h1 h2 h3
    refine completes_of_page (v := 0) (s3 := modDie w2.2 (oeLoc i.e) fun d => { d with pool := r }) (st3 := st3) h (execPgcommit.eq_1 tk xd cn xo s)
      (found hc).1 ?_ h3
    have h2' : (physWrite w1.2 (dieOf core) (oeBase i.e + 8 * i.idx) (toBytes 8 (d64 (f * 8192 + 1)))).1 = true := h2
    rw [if_neg (Classical.not_not.2 hkind), hpe, if_neg Bool.false_ne_true, hpool]
    dsimp only
    rw [h1, Bool.not_true, if_neg Bool.false_ne_true, h2', if_pos rfl]
    rfl
  case commitEmpty =>
    refine completes_of_page (v := 3) h (execPgcommit.eq_1 tk xd cn xo s) (found hc).1 ?_ (found hc).2
    rw [if_neg (Classical.not_not.2 hkind), hpe, if_neg Bool.false_ne_true, hpool]
  case free =>
    intro w s3 hw st3 h3
    have hnone : st.stores.any (fun w => w.obj == capObj c && decide (a ≤ w.off ∧ w.off < a + 8192) &&
        decide (w.idx ≤ (streamOf st .S).know.of w.stream)) = false := by
      rw [List.any_eq_false]
      intro w hmem hcov
      simp only [Bool.and_eq_true, decide_eq_true_eq, beq_iff_eq] at hcov
      obtain ⟨⟨hobj, hlo, hhi⟩, hidx⟩ := hcov
      have := hst w hmem hobj hlo hhi
      omega
    refine completes_of_page (v := 0) (s3 := s3) h (execPgfree.eq_1 tk xd cn xo s) (found hc).1 ?_ h3
    rw [if_neg (Classical.not_not.2 hkind), hpe, Bool.not_true, if_neg Bool.false_ne_true, hnone, if_neg Bool.false_ne_true]
    exact if_pos hw
  case queryDense =>
    refine completes_of_page (v := 1) h (execPgquery.eq_1 tk xd cn xo s) (found hc).1 ?_ (found hc).2
    dsimp only
    rw [hkind]
    rfl
  case queryPaged =>
    have hv : (if peC i.pe then 1 else 0 : DWord) = d64 (if peC i.pe then 1 else 0) := by cases peC i.pe <;> rfl
    rw [hv]
    refine completes_of_page h (execPgquery.eq_1 tk xd cn xo s) (found hc).1 ?_ (found hc).2
    dsimp only
    rw [hkind]
    rfl
  case querySparse =>
    refine completes_of_page h (execPgquery.eq_1 tk xd cn xo s) (found hc).1 ?_ h3
    dsimp only
    rw [hkind]
    show (match physRead s2 (dieOf core) (oeSide i.e + 64 * i.idx) 16 with
      | (some l, s1) => pageRes s1 core xd _
      | (none, s1) => pageRefused s1 core st c a) = _
    rw [hl]

/-! ## A safe point that another stream's push overtakes

`SystemRegisters` quantifies over every strand, and nothing in it keeps the strand's other streams from a push that marks a safe
point. Such a push is performed as safept settles the strand, and its mark replaces that of safept. -/

/-- A strand whose vector stream waits with a push that marks the live mask 7. -/
def overtaken : Strand :=
  { crew := 0
    ss := [(Engine.S.num, { popped := true }),
      (Engine.V.num, { push := some { mask := 0, know := {}, addr := 0, gaddr := 0, words := [], after := .safe 7 } })] }

/-- A machine that wants its crew pre-empted, and whose kernel has one live mask. -/
def overtakenAt : State :=
  { State.reset with
    cur := .stream 0 .S
    strands := [(0, overtaken)]
    crews := [(0, { crowdedCrew with preq := some 0 })]
    launches := [(0, { crowdedLaunch with k := { live := [0] } })] }

theorem overtakenAt_poised : Poised overtakenAt 0 .S 0#4 overtakenAt overtaken :=
  ⟨rfl, ⟨overtaken, rfl, by decide, rfl⟩, rfl⟩

/-- The safe point at which an outcome leaves the strand of core 0. -/
def safeMark : Out → Option Nat
  | .next t => (strandAt t 0).bind Strand.safe
  | _ => none

theorem overtaken_safept : safeMark (exec (.safept 0#4 0#12) overtakenAt) = some 7 := by decide +kernel

/-- Refutes O12: in `overtakenAt` safept names the live mask 0, and the strand stands at its safe point under mask 7. -/
theorem not_systemRegisters : ¬ Obligations.SystemRegisters := by
  intro h
  have hsafe := (h overtakenAt overtakenAt 0 0#4 overtaken 0#5 0#12 0#64 0 overtakenAt_poised).2.2 (by decide)
  obtain ⟨t, st', ht, -, hst', hmark⟩ := hsafe.2 rfl rfl rfl rfl
  have hzero : safeMark (exec (.safept 0#4 0#12) overtakenAt) = some 0 := by rw [ht, safeMark, hst', Option.bind_some, hmark]; rfl
  rw [overtaken_safept] at hzero
  cases hzero

end Sys2Proof.Proofs.StrandControl
end

section
/-! Traps (R46, R73, R75 to R77, R267): what a scalar instruction traps on, and the record of a copy that has issued. -/
namespace Sys2Proof.Proofs.Traps
open Sys2Proof Sys2Proof.Machine Sys2Proof.Safety Sys2Proof.Laws Sys2Proof.Proofs.Turns

/-! ## A trap of a body -/

section
variable {s s1 : State} {core : Nat} {e : Engine} {tk : Tk} {st : Strand} {i : Instr} {b : State → Nat → Strand → Eff}
variable {t : Trapped}

/-- An instruction whose body traps leaves the record of its trap and nothing of its own (R75). -/
theorem exec_of_trap (h : Poised s core e tk s1 st) (hi : exec i s = issue e tk b s) (hb : b s1 core st = .trap s1 t) :
    exec i s = .next (settle (trapNow s1 core e t true false) core) := by
  rw [exec_of_poised h hi, hb]
  rfl

/-- A decode check that fails: the trap is taken before the tk_pop. -/
theorem exec_of_refusal {pre : State → Nat → Strand → Option Trapped} (hcur : s.cur = .stream core e)
    (hst : strandAt s core = some st) (hi : exec i s = issuePre e tk pre b s) (hp : pre s core st = some t) :
    exec i s = .next (settle (trapNow s core e t false false) core) := by
  rw [hi, issuePre, actor_of hcur hst]
  dsimp only
  rw [hp]

/-- A pattern that the stream may not use (row 13 of Table 2.2). -/
theorem exec_of_badPattern (hcur : s.cur = .stream core e) (hst : strandAt s core = some st) (hi : exec i s = issue e tk b s)
    (hp : patternOk e (patOf st e tk) = false) :
    exec i s = .next (settle (trapNow s core e { cause := .tokenPattern } false false) core) := by
  rw [hi, issue, issuePre, actor_of hcur hst]
  dsimp only
  rw [hp, Bool.not_false, if_pos rfl]

end

section
variable {s s1 : State} {core : Nat} {tk : Tk} {st : Strand} {i : Instr} {t : Trapped} {xd xo : XReg} {cn : CReg}
variable {imm : BitVec 6} {o v : DWord} {size : Nat} {sgn : Bool}

theorem traps_of_loadSM (h : Poised s core .S tk s1 st) (hi : exec i s = loadSM tk xd cn xo imm size sgn s)
    (ho : readX st .S xo = .ok o) (ha : smAddr s1 st cn o imm size .r = .error t) :
    exec i s = .next (settle (trapNow s1 core .S t true false) core) :=
  exec_of_trap h hi (orTrap_error ((bind_of_ok ho).trans ha))

theorem traps_of_storeSM (h : Poised s core .S tk s1 st) (hi : exec i s = storeSM tk xd cn xo imm size s)
    (hv : readX st .S xd = .ok v) (ho : readX st .S xo = .ok o) (ha : smAddr s1 st cn o imm size .w = .error t) :
    exec i s = .next (settle (trapNow s1 core .S t true false) core) :=
  exec_of_trap h hi (orTrap_error ((bind_of_ok hv).trans ((bind_of_ok ho).trans (bind_of_error ha))))

theorem traps_of_userTrap {c : Cause} {src : Nat} {code : BitVec 16} (h : Poised s core .S tk s1 st)
    (hi : exec i s = userTrap c src tk code s)
    (hno : st.sys.uistat.getLsbD 1 = true ∨ st.sys.uivec.extractLsb' 2 30 = 0#30) :
    exec i s = .next (settle (trapNow s1 core .S { cause := c, detail := code } true false) core) :=
  exec_of_trap h hi (if_pos hno)

end

/-- Settles O56: the source, the address, the handler and the barrier are checks of a body; the register of the supervisor's
and the pattern are checked before the tk_pop. -/
theorem instructionTraps : Obligations.InstructionTraps := by
  intro s s1 core tk st xd xa xb cn imm srn code o t
  refine ⟨fun h => ?body, fun hcur hst => ?decode⟩
  case body =>
    intro traps
    refine ⟨fun ha => ⟨?add, ?jr, ?ldd⟩, fun ho => ⟨fun ha => ⟨?ldw, ?ldwu⟩, fun ha => ?lddAddr, fun v ha hv => ?std⟩,
      fun hno => ⟨traps_of_userTrap h rfl hno, traps_of_userTrap h rfl hno⟩, fun hact => ?uiret, fun hneeds hx => ?exit⟩
    case add => exact exec_of_trap h rfl (orTrap_error (bind_of_error ha))
    case jr => exact exec_of_trap h rfl (orTrap_error (bind_of_error ha))
    case ldd => exact exec_of_trap h rfl (orTrap_error (bind_of_error ha))
    case ldw => exact traps_of_loadSM h rfl ho ha
    case ldwu => exact traps_of_loadSM h rfl ho ha
    case lddAddr => exact traps_of_loadSM h rfl ho ha
    case std => exact traps_of_storeSM h rfl hv ho ha
    case uiret => exact exec_of_trap h rfl (if_pos (by rw [uiAct, hact]; rfl))
    case exit => exact exec_of_trap h rfl (if_pos (by rw [hneeds, hx]; rfl))
  case decode =>
    intro refused
    refine ⟨fun hsrn hsuper => ?supervisor, fun hpat => ⟨exec_of_badPattern hcur hst rfl hpat, exec_of_badPattern hcur hst rfl hpat⟩⟩
    have hpre : srnPre srn s core st = some { cause := .supervisorOnly } := if_pos ⟨hsrn, hsuper⟩
    exact ⟨exec_of_refusal hcur hst rfl hpre, exec_of_refusal hcur hst rfl hpre⟩

/-! ## The record of a copy

`SupervisorTrap` states where the stream stands of every record; that of a copy which has issued leaves the copy stream at its own
next instruction (R267), wherever the copy's group is. -/

/-- The record of a copy issued from the group at 8. -/
def copyRecord : TrapRec := { cause := .capBound, mid := true, addr := 8, gaddr := 8 }

/-- A strand at address 0 of its copy stream. -/
def copying : Strand := { crew := 0 }

/-- A running crew of one such strand. -/
def copyingAt : State :=
  { State.reset with
    strands := [(0, copying)]
    crews := [(0, { launch := 0, space := 0, handle := lineHandle, size := 0 })] }

/-- The stream stays at address 0. -/
theorem copying_pc : (strandAt (takeTrap copyingAt 0 .C copyRecord) 0).map (fun st => (streamOf st .C).pc) = some 0#32 := by
  decide +kernel

/-- Refutes O55: in `copyingAt` the record names the group at 8, and the copy stream stays at 0. -/
theorem not_supervisorTrap : ¬ Obligations.SupervisorTrap := by
  intro h
  obtain ⟨⟨st', hst', -, -, hpc⟩, -⟩ := h copyingAt 0 .C copyRecord copying _ rfl rfl rfl
  have hstays := copying_pc
  rw [hst', Option.map_some, hpc] at hstays
  exact absurd hstays (by decide)

end Sys2Proof.Proofs.Traps
end

section
/-! The vector engine on registers (R113 to R135): every instruction whose body computes one strand from its checked sources, by
its family. -/
namespace Sys2Proof.Proofs.VectorRegisters
open Sys2Proof Sys2Proof.Machine Sys2Proof.Safety Sys2Proof.Laws Sys2Proof.Proofs.ScalarEngine Sys2Proof.Proofs.Turns

section
variable {s s1 : State} {core : Nat} {tk : Tk} {st : Strand} {i : Instr} {vd va vb : VReg} {p : Option PBits} {t : Nat}
variable {l : List VSrc} {x y : VSrc}

/-! ## Arithmetic (R113 to R120) -/

/-- The elements of width `w` of up to three sources; one that is missing is the first. -/
def operands (w : Nat) (l : List VSrc) : List Nat × List Nat × List Nat :=
  let e := l.map fun v => vElems w v.val
  (e.getD 0 [], e.getD 1 (e.getD 0 []), e.getD 2 (e.getD 0 []))

theorem operands_one (w : Nat) (x : VSrc) : operands w [x] = (vElems w x.val, vElems w x.val, vElems w x.val) := rfl
theorem operands_two (w : Nat) (x y : VSrc) : operands w [x, y] = (vElems w x.val, vElems w y.val, vElems w x.val) := rfl
theorem operands_three (w : Nat) (x y z : VSrc) :
    operands w [x, y, z] = (vElems w x.val, vElems w y.val, vElems w z.val) := rfl

/-- The element-wise frame: one result for each active element, in the agreed format. -/
theorem completes_of_vecOp {srcs : List (VReg × Bool)} {ok : Nat → Bool} {op : Nat → RSet → Nat → Nat → Nat → Rnd}
    {a b c : List Nat} (h : Poised s core .V tk s1 st) (hi : exec i s = vecOp tk vd srcs ok op s)
    (hl : readVs st srcs = .ok l) (hp : predOf s1 st = .ok p) (hf : arithFmt s1 l ok = .ok t)
    (habc : operands (tagW t) l = (a, b, c)) {r : List Nat × Events}
    (hr : mapElems p (tagW t) (op t (settings s1 st)) 0 a b c = r) :
    Completes i s s1 core .V (raise (putV s1 st vd t (tagW t) (tagW t) (4096 / tagW t) p r.1) r.2) s1.grp.next := by
  have ha := congrArg Prod.fst habc
  have hb := congrArg (fun z => z.2.1) habc
  have hc := congrArg (fun z => z.2.2) habc
  rw [operands] at ha hb hc
  dsimp only at ha hb hc
  refine completes_of_set h hi ((orTrap_ok (a := (l, p, t))
    ((bind_of_ok hl).trans ((bind_of_ok hp).trans (bind_of_ok hf)))).trans ?_)
  dsimp only
  rw [hb, hc, ha, hr]

end

/-- Settles O17: six operations on exact values in the element-wise frame. -/
theorem vectorArithmetic : Obligations.VectorArithmetic := by
  intro s s1 core tk st vd va vb vc bs x y z p t h hp srcs k w done
  refine ⟨fun hl hf => ?two, fun hl hf => ?fma⟩
  case fma =>
    have hi : exec (.vfma tk vd va vb bs vc) s = vecOp tk vd (srcs ++ [(vc, false)]) famArith
      (fun t z => arith3 t z (exFma z.rm)) s := rfl
    exact completes_of_vecOp h hi hl hp hf (operands_three _ x y z) rfl
  have run (i : Instr) (f : RMode → Ex → Ex → Ex × Bool) (hi : exec i s = vec2 f tk vd va vb bs s) :
      done i (arith3 t k fun a b _ => f k.rm a b) x.val :=
    completes_of_vecOp h hi hl hp hf (operands_two _ x y) rfl
  exact ⟨run _ exAdd rfl, run _ (fun rm a b => exAdd rm a (exNeg b)) rfl, run _ (fun _ a b => exMul a b) rfl,
    run _ (fun _ a b => (exPick false a b, false)) rfl, run _ (fun _ a b => (exPick true a b, false)) rfl⟩

/-- Settles O18: the sign operations and the seeds in the element-wise frame. -/
theorem vectorUnary : Obligations.VectorUnary := by
  intro s s1 core tk st vd va byp x p t h hp hl w done
  have run (i : Instr) (ok : Nat → Bool) (f : Nat → RSet → Nat → Rnd) (hf : arithFmt s1 [x] ok = .ok t)
      (hi : exec i s = vecOp tk vd [(va, byp)] ok (fun t z a _ _ => f t z a) s) : done i (f t (settings s1 st)) :=
    completes_of_vecOp h hi hl hp hf (operands_one _ x) rfl
  exact ⟨fun hf => ⟨run _ _ (signOp false) hf rfl, run _ _ (signOp true) hf rfl⟩,
    fun hf => ⟨run _ _ (seedOf .exp2) hf rfl, run _ _ (seedOf .log2) hf rfl, run _ _ (seedOf .recip) hf rfl,
      run _ _ (seedOf .rsqrt) hf rfl⟩⟩

/-- Settles O19: vd passes the check of its multiple, and the results fill k registers. -/
theorem vectorWidening : Obligations.VectorWidening := by
  intro s s1 core tk st vd va vb x y p t h hp hl hf u k hk z v done
  have run (i : Instr) (f : RMode → Ex → Ex → Ex × Bool) (hi : exec i s = vecWide f tk vd va vb s) : done i (f z.rm) :=
    completes_of_set h hi (orTrap_ok (a := ([x, y], p, t, k))
      ((bind_of_ok hl).trans ((bind_of_ok hp).trans ((bind_of_ok hf).trans (bind_of_ok (if_pos hk))))))
  exact ⟨run _ (fun _ a b => exMul a b) rfl, run _ exAdd rfl⟩

/-! ## Logic, shifts, selection and moves (R121 to R123) -/

section
variable {s s1 : State} {core : Nat} {tk : Tk} {st : Strand} {i : Instr} {vd va vb : VReg} {p : Option PBits} {x y : VSrc}

/-- A shift whose sources agree in width (R122). -/
theorem completes_of_vecShift {f : Nat → Nat → Nat → Nat} (h : Poised s core .V tk s1 st)
    (hi : exec i s = vecShift f tk vd va vb s) (hx : readV st va = .ok x) (hy : readV st vb = .ok y)
    (hp : predOf s1 st = .ok p) (hvoid : x.fmt ≠ 15#4) (hw : y.fmt = 15#4 ∨ tagW y.fmt.toNat = tagW x.fmt.toNat) :
    let w := tagW x.fmt.toNat
    Completes i s s1 core .V (putWhole s1 st vd x.fmt.toNat w p
      (vPack w ((vElems w x.val).zipWith (fun e n => f w e (n % w)) (vElems w y.val)))) s1.grp.next := by
  have hok : ¬(x.fmt = 15#4 ∨ (y.fmt ≠ 15#4 ∧ tagW y.fmt.toNat ≠ tagW x.fmt.toNat)) := by
    rintro (h | ⟨h1, h2⟩)
    · exact hvoid h
    · exact hw.elim h1 h2
  exact completes_of_set h hi (orTrap_ok (a := (x, y, p))
    ((bind_of_ok hx).trans ((bind_of_ok hy).trans ((bind_of_ok hp).trans (if_neg hok)))))

end

/-- Settles O20: the three families, and vsel by the bits of its predicate. -/
theorem vectorLogic : Obligations.VectorLogic := by
  intro s s1 core tk st vd va vb bs byp pr x y p q t h hp put a b
  refine ⟨fun hl => ?logic, fun hx hy => ⟨fun hvoid hw => ?shifts, fun hq ht => ?select⟩, fun hl => ?moves⟩
  case logic =>
    intro u tag
    have run (i : Instr) (f : VBits → VBits → VBits) (hi : exec i s = vecLogic f tk vd va vb bs s) :
        put i tag (tagW u) (f x.val y.val) :=
      completes_of_set h hi (orTrap_ok (a := ([x, y], p)) ((bind_of_ok hl).trans (bind_of_ok hp)))
    exact ⟨run _ (fun a b => a &&& b) rfl, run _ (fun a b => a ||| b) rfl, run _ (fun a b => a ^^^ b) rfl⟩
  case shifts =>
    exact ⟨completes_of_vecShift (f := fun w x n => x <<< n % 2 ^ w) h rfl hx hy hp hvoid hw,
      completes_of_vecShift (f := fun _ x n => x >>> n) h rfl hx hy hp hvoid hw,
      completes_of_vecShift (f := fun w x n => wrapInt w (intVal true w x / 2 ^ n)) h rfl hx hy hp hvoid hw⟩
  case select =>
    refine completes_of_set h rfl (orTrap_ok (a := (x, y, q, p, t)) ?_)
    rw [bind_of_ok hx, bind_of_ok hy, bind_of_ok hq, bind_of_ok hp, ht]
  case moves =>
    have run (i : Instr) (f : Nat → List Nat → List Nat) (hi : exec i s = vecMove f tk vd va byp s) :
        put i (tagOr s1 st vd p a 15) (tagW (tagOr s1 st vd p a 15)) (vPack (tagW (tagOr s1 st vd p a 15))
          (f (4096 / tagW (tagOr s1 st vd p a 15)) (vElems (tagW (tagOr s1 st vd p a 15)) x.val))) :=
      completes_of_set h hi (orTrap_ok (a := ([x], p)) ((bind_of_ok hl).trans (bind_of_ok hp)))
    exact ⟨run _ (fun _ l => l) rfl, run _ (fun _ l => l.reverse) rfl⟩

/-! ## Comparisons, predicates and transfers (R124, R126, R127) -/

/-- Settles O21: a comparison packs its results into a predicate; the count and its inverse. -/
theorem vectorCompareAndCount : Obligations.VectorCompareAndCount := by
  refine ⟨?compare, ?count⟩
  case compare =>
    intro s s1 core tk st pd va vb x y p t h hp hl hf v w done
    have run (i : Instr) (c : Cmp) (hi : exec i s = vecCmp c tk pd va vb s) : done i c :=
      completes_of_set h hi (orTrap_ok (a := ([x, y], p, t)) ((bind_of_ok hl).trans ((bind_of_ok hp).trans (bind_of_ok hf))))
    exact ⟨run _ .eq rfl, run _ .lt rfl, run _ .le rfl, run _ .ne rfl⟩
  case count =>
    intro s s1 core tk st pd pa xr sz a n h ha hn w
    exact ⟨completes_of_set h rfl (orTrap_ok hn), completes_of_finX h rfl (orTrap_ok ha)⟩

/-- Settles O22: a branch by its predicate; the loop branch by the first counter that is not 0. -/
theorem vectorTransfers : Obligations.VectorTransfers := by
  intro s s1 core tk st pr b off joff t jt h hb branch
  have hst := strandAt_of_poised h
  have run (i : Instr) (taken : Prop) (c : PBits → Bool) (hc : c b = true ↔ taken)
      (hi : exec i s = vecBranch c tk pr off s) : branch i taken := by
    refine ⟨fun hyes ht => completes_of_jump h hi ((orTrap_ok hb).trans ?_) hst,
      fun hno => completes_of_fin h hi ((orTrap_ok hb).trans ?_) hst⟩
    · rw [if_pos (hc.2 hyes)]
      exact orTrap_ok ht
    · rw [if_neg (fun h => hno (hc.1 h))]
  refine ⟨run _ _ (fun b => b != 0#1024) bne_iff_ne rfl, run _ _ (fun b => b == BitVec.allOnes 1024) beq_iff_eq rfl,
    run _ _ (fun b => b == 0#1024) beq_iff_eq rfl, completes_of_fin h rfl rfl hst,
    fun ht => ⟨completes_of_jump h rfl (orTrap_ok ht) hst, fun hvlc => ?body, fun hvlc hvec => ?epilogue⟩,
    fun hvlc hvec => ?falls⟩
  case body => exact completes_of_jumpSet h rfl ((if_pos hvlc).trans (orTrap_ok ht))
  case epilogue =>
    exact completes_of_jumpSet h rfl ((if_neg (Classical.not_not.2 hvlc)).trans ((if_pos hvec).trans (orTrap_ok ht)))
  case falls => exact completes_of_fin h rfl ((if_neg (Classical.not_not.2 hvlc)).trans (if_neg (Classical.not_not.2 hvec))) hst

end Sys2Proof.Proofs.VectorRegisters
end

section
/-! Conversions, moves between scalars and vectors, reductions, scans and permutes (R18, R128 to R135). -/
namespace Sys2Proof.Proofs.VectorConverting
open Sys2Proof Sys2Proof.Machine Sys2Proof.Safety Sys2Proof.Laws Sys2Proof.Proofs.ScalarEngine Sys2Proof.Proofs.Turns

section
variable {s s1 : State} {core : Nat} {tk : Tk} {st : Strand} {i : Instr} {vd va vb : VReg} {p : Option PBits}
variable {x y : VSrc} {t : Nat}

/-! ## Conversions -/

/-- Where a conversion puts its results: in `k` registers where the target is wider. -/
def cvtPut (s1 : State) (st : Strand) (vd : VReg) (f t : Nat) (p : Option PBits) (n : Nat) (l : List Nat) : Strand :=
  let k := tagW t / tagW f
  if 1 < k then putWide s1 st vd k t (tagW f) (tagW t) p l else putV s1 st vd t (tagW f) (tagW t) n p l

/-- The merge of the largest magnitude, for vcvt.amax (R129). -/
def cvtMerge (st : Strand) (m : BitVec 32 × Bool) : Option (BitVec 2) → Strand
  | some n => mergeAmax st n.toNat m
  | none => st

/-- The checks of a conversion: its source format has one to the target, and vd is a multiple where it is wider. -/
theorem cvtChecks (hx : readV st va = .ok x) (hp : predOf s1 st = .ok p) (hok : cvtOk x.fmt.toNat t = true)
    (hk : 1 < tagW t / tagW x.fmt.toNat → vd.toNat % (tagW t / tagW x.fmt.toNat) = 0) :
    (do
      let a ← readV st va
      let p ← predOf s1 st
      let f ← cvtSrc a t
      let k := tagW t / tagW f
      if 1 < k then checkWide vd k
      .ok (a, p, f, k)) = (.ok (x, p, x.fmt.toNat, tagW t / tagW x.fmt.toNat) : Chk (VSrc × Option PBits × Nat × Nat)) := by
  have hsrc : cvtSrc x t = .ok x.fmt.toNat := if_pos hok
  rw [bind_of_ok hx, bind_of_ok hp, bind_of_ok hsrc]
  dsimp only
  by_cases h1 : 1 < tagW t / tagW x.fmt.toNat
  · rw [if_pos h1, bind_of_ok (show checkWide vd (tagW t / tagW x.fmt.toNat) = .ok () from if_pos (hk h1))]
  · rw [if_neg h1]

theorem completes_of_vecCvt {amax : Option (BitVec 2)} {tgt : BitVec 4} (h : Poised s core .V tk s1 st)
    (hi : exec i s = vecCvt amax tk vd va tgt s) (hx : readV st va = .ok x) (hp : predOf s1 st = .ok p)
    (ht : (if fmtOver s1 ≠ 0 then fmtOver s1 else tgt.toNat) = t) (hok : cvtOk x.fmt.toNat t = true)
    (hk : 1 < tagW t / tagW x.fmt.toNat → vd.toNat % (tagW t / tagW x.fmt.toNat) = 0) {r : List Nat × Events} {l : List Nat}
    (hl : vElems (tagW x.fmt.toNat) x.val = l)
    (hr : mapElems p (tagW x.fmt.toNat) (fun e _ _ => convert x.fmt.toNat t (settings s1 st) e) 0 l l l = r) :
    Completes i s s1 core .V (raise (cvtMerge (cvtPut s1 st vd x.fmt.toNat t p l.length r.1) (amaxOf x.fmt.toNat p l) amax) r.2)
      s1.grp.next := by
  refine completes_of_set h hi ?_
  dsimp only
  rw [ht, orTrap_ok (cvtChecks hx hp hok hk)]
  dsimp only
  rw [hl, hr]
  cases amax <;> rfl

/-! ## Scalars and vectors -/

theorem completes_of_vins {xa xb : XReg} {tag : BitVec 4} {a b : DWord} (h : Poised s core .V tk s1 st)
    (hp : predOf s1 st = .ok p) (ha : readX st .V xa = .ok a) (hb : readX st .V xb = .ok b)
    (htag : transient s1 = true ∨ (vecReg st vd).gen ≠ st.cgen ∨ (vecReg st vd).fmt = tag) :
    let w := tagW tag.toNat
    let at_ := fun (v : Nat) => if isActive p w b.toNat then BitVec.ofNat 4096 (v <<< (b.toNat * w)) else 0#4096
    (4096 / w ≤ b.toNat → Completes (.vins tk vd xa xb tag) s s1 core .V st s1.grp.next) ∧
    (b.toNat < 4096 / w → Completes (.vins tk vd xa xb tag) s s1 core .V
      (writeV s1 st (rotV st vd.toNat) tag.toNat (at_ (a.toNat % 2 ^ w)) (at_ (2 ^ w - 1)) true) s1.grp.next) := by
  have hok : ¬(transient s1 = false ∧ (vecReg st vd).gen = st.cgen ∧ (vecReg st vd).fmt ≠ tag) := by
    rintro ⟨h1, h2, h3⟩
    rcases htag with ht | ht | ht
    · rw [h1] at ht; cases ht
    · exact ht h2
    · exact h3 ht
  intro w at_
  refine ⟨fun hout => completes_of_fin h rfl ?_ (strandAt_of_poised h), fun hin => completes_of_set h rfl ?_⟩ <;>
    refine (orTrap_ok (a := (a, b, p)) ((bind_of_ok (readX2_of_ok ha hb)).trans ((bind_of_ok hp).trans (if_neg hok)))).trans ?_
  · exact if_pos hout
  · exact if_neg (Nat.not_le.2 hin)

/-! ## Permutes -/

/-- An element of a register by its index: 0 past the last. -/
theorem getD_vElems (w : Nat) (x : VBits) (i : Nat) :
    (vElems w x).getD i 0 = if i < 4096 / w then x.toNat >>> (i * w) % 2 ^ w else 0 := by
  unfold vElems
  by_cases h : i < 4096 / w
  · simp [h]
  · simp [h]

theorem completes_of_vecPerm2 {f : Nat → List Nat → List Nat → List Nat} (h : Poised s core .V tk s1 st)
    (hi : exec i s = vecPerm2 f tk vd va vb s) (hp : predOf s1 st = .ok p) (hx : readV st va = .ok x) (hy : readV st vb = .ok y)
    (hw : x.fmt = 15#4 ∨ y.fmt = 15#4 ∨ tagW x.fmt.toNat = tagW y.fmt.toNat)
    (ht : tagOr s1 st vd p x.fmt.toNat y.fmt.toNat = t) :
    Completes i s s1 core .V (putWhole s1 st vd t (tagW t) p
      (vPack (tagW t) (f (4096 / tagW t) (vElems (tagW t) x.val) (vElems (tagW t) y.val)))) s1.grp.next := by
  have hok : ¬(x.fmt ≠ 15#4 ∧ y.fmt ≠ 15#4 ∧ tagW x.fmt.toNat ≠ tagW y.fmt.toNat) := by
    rintro ⟨h1, h2, h3⟩
    exact hw.elim h1 fun hw => hw.elim h2 h3
  refine completes_of_set h hi ((orTrap_ok (a := (x, y, p))
    ((bind_of_ok hx).trans ((bind_of_ok hy).trans ((bind_of_ok hp).trans (if_neg hok))))).trans ?_)
  dsimp only
  rw [ht]

end

/-- Settles O23: the two conversions are one frame; vins by its index. -/
theorem vectorConversions : Obligations.VectorConversions := by
  intro s s1 core tk st vd va xa xb tag n x p a b h hp put w
  refine ⟨fun hx => ⟨?cast, ?convert, ?extract⟩, fun ha hb => ⟨?splat, ?iota, ?insert⟩⟩
  case cast => exact completes_of_set h rfl (orTrap_ok (a := (x, p)) ((bind_of_ok hx).trans (bind_of_ok hp)))
  case convert =>
    intro t f k hok hk l r st1
    have run (i : Instr) (amax : Option (BitVec 2)) (hi : exec i s = vecCvt amax tk vd va tag s) :
        Completes i s s1 core .V (raise (cvtMerge st1 (amaxOf f p l) amax) r.2) s1.grp.next :=
      completes_of_vecCvt (t := t) (l := l) (r := r) h hi hx hp rfl hok hk rfl rfl
    exact ⟨run _ none rfl, run _ (some n) rfl⟩
  case extract =>
    intro hb e
    exact completes_of_finX h rfl (orTrap_ok (a := (x, b)) ((bind_of_ok hx).trans (bind_of_ok hb)))
  case splat => exact completes_of_set h rfl (orTrap_ok (a := (a, p)) ((bind_of_ok ha).trans (bind_of_ok hp)))
  case iota =>
    exact completes_of_set h rfl (orTrap_ok (a := (a, b, p)) ((bind_of_ok (readX2_of_ok ha hb)).trans (bind_of_ok hp)))
  case insert => exact completes_of_vins h hp ha hb

/-- Settles O24: the four reductions are one frame; the two scans. -/
theorem reductionsAndScans : Obligations.ReductionsAndScans := by
  intro s s1 core tk st vd va byp x p t h hp hl z w e red
  refine ⟨fun hf => ?arith, fun hf hk => ?sum⟩
  case arith =>
    have run (i : Instr) (k : Red) (hi : exec i s = vecRed k tk vd va byp s) : red i k :=
      completes_of_set h hi (orTrap_ok (a := ([x], p, t)) ((bind_of_ok hl).trans ((bind_of_ok hp).trans (bind_of_ok hf))))
    refine ⟨run _ .sum rfl, run _ .max rfl, run _ .min rfl, run _ .amax rfl, ?_⟩
    intro r
    refine completes_of_set h rfl ((orTrap_ok (a := ([x], p, t))
      ((bind_of_ok hl).trans ((bind_of_ok hp).trans (bind_of_ok hf)))).trans ?_)
    dsimp only
    rw [List.length_map]
  case sum =>
    intro flt leaf r tag st1
    refine completes_of_set h rfl (orTrap_ok (a := ([x], p, t, 32 / w)) ?_)
    rw [bind_of_ok hl, bind_of_ok hp, bind_of_ok hf]
    by_cases h1 : 1 < 32 / tagW t
    · dsimp only
      rw [if_pos h1, bind_of_ok (show checkWide vd (32 / tagW t) = .ok () from if_pos (hk h1))]
    · dsimp only
      rw [if_neg h1]

/-- Settles O25: vperm takes the element at each index; the other four are one frame. -/
theorem vectorPermutes : Obligations.VectorPermutes := by
  intro s s1 core tk st vd va vb x y p h hp hx hy
  refine ⟨?perm, fun hw => ?two⟩
  case perm =>
    intro t w
    refine completes_of_set h rfl ((orTrap_ok (a := (x, y, p))
      ((bind_of_ok hx).trans ((bind_of_ok hy).trans (bind_of_ok hp)))).trans ?_)
    dsimp only
    simp only [getD_vElems]
    rfl
  case two =>
    intro t w n a b put
    have run (i : Instr) (f : Nat → List Nat → List Nat → List Nat) (hi : exec i s = vecPerm2 f tk vd va vb s) :
        put i (f n a b) := completes_of_vecPerm2 h hi hp hx hy hw rfl
    exact ⟨run _ (fun n a b => b.getD (n - 1) 0 :: a.take (n - 1)) rfl, run _ (fun _ a b => a.drop 1 ++ [b.headD 0]) rfl,
      run _ (fun n a b => interleave (a.take (n / 2)) (b.take (n / 2))) rfl, run _ (fun _ a b => evens a ++ evens b) rfl⟩

end Sys2Proof.Proofs.VectorConverting
end

section
/-! Stale scratchpad under the tag lns6 (R152): vspld and tld read it as the LNS6 zero, where `VectorMemoryAndScratchpad` and
`ChainsAndTiles` say bytes of zero. -/
namespace Sys2Proof.Proofs.StaleScratchpad
open Sys2Proof Sys2Proof.Machine Sys2Proof.Safety

/-- Whether a check gives a value. -/
def answers {α : Type} [DecidableEq α] (c : Chk α) (v : α) : Bool :=
  match c with
  | .ok x => x == v
  | .error _ => false

theorem ok_of_answers {α : Type} [DecidableEq α] {c : Chk α} {v : α} (h : answers c v = true) : c = .ok v := by
  cases c with
  | ok x => rw [eq_of_beq h]
  | error t => cases h

/-! ## A register loaded from stale scratchpad -/

/-- A strand whose scratchpad nothing has written, with tile 0 of one lns6 element. -/
def unwritten : Strand :=
  { crew := 0
    sys := { tshape := [(0, 1#1 ++ 12#4 ++ 0#6 ++ 0#6)] }
    ss := [(Engine.V.num, { popped := true })] }

/-- A machine on whose core 0 the vector stream of such a strand acts. -/
def unwrittenAt : State :=
  { State.reset with
    cur := .stream 0 .V
    strands := [(0, unwritten)] }

theorem unwrittenAt_poised : Poised unwrittenAt 0 .V 0#4 unwrittenAt unwritten :=
  ⟨rfl, ⟨unwritten, rfl, by decide, rfl⟩, rfl⟩

/-- The first byte of v0 and of tile 0 of a strand. -/
def firstBytes (st : Strand) : Byte × Byte :=
  ((mapGet {} st.r.v 0 : VVal).val.extractLsb' 0 8, (mapGet {} st.r.t 0 : TVal).val.extractLsb' 0 8)

/-- The same of the strand on core 0 of an outcome. -/
def firstBytesOf : Out → Option (Byte × Byte)
  | .next t => (strandAt t 0).map firstBytes
  | _ => none

theorem firstBytes_body (st : Strand) : firstBytes (body st) = firstBytes st := rfl

/-- Where an instruction completes, the bytes are those of the strand that it completes with. -/
theorem firstBytes_of_completes {i : Instr} {s s1 : State} {st : Strand} {pc : BitVec 32}
    (h : Completes i s s1 0 .V st pc) : firstBytesOf (exec i s) = some (firstBytes st) := by
  obtain ⟨t, ht, ⟨⟨st', hst', hbody, -⟩, -, -⟩⟩ := h
  rw [ht, firstBytesOf, hst', Option.map_some, ← firstBytes_body st', hbody, firstBytes_body]

/-- vspld under lns6 reads stale scratchpad as the LNS6 zero. -/
theorem unwritten_vspld : firstBytesOf (exec (.vspld 0#4 0#6 0#5 12#4 0#5) unwrittenAt) = some (0x10#8, 0#8) := by
  decide +kernel

/-- Refutes O26: vspld under lns6 reads unwritten scratchpad as bytes 0x10, not as the bytes 0 that the claim writes. -/
theorem not_vectorMemoryAndScratchpad : ¬ Obligations.VectorMemoryAndScratchpad := by
  intro h
  have hload := (h.2 unwrittenAt unwrittenAt 0 0#4 unwritten 0#6 0#5 12#4 0#5 0#64 0 none { fmt := 0#4, val := 0 }
    (List.replicate 512 0#8) unwrittenAt_poised rfl rfl (ok_of_answers (by decide +kernel))).1
    (ok_of_answers (by decide +kernel))
  have hbytes := firstBytes_of_completes hload
  rw [unwritten_vspld] at hbytes
  exact absurd hbytes (by decide +kernel)

/-! ## A tile loaded from stale scratchpad -/

/-- tld of tile 0, of one lns6 element, reads stale scratchpad as the LNS6 zero. -/
theorem unwritten_tld : firstBytesOf (exec (.tld 0#4 0#3 0#4 0#5 0#5 true 0#16) unwrittenAt) = some (0#8, 0x10#8) := by
  decide +kernel

/-- Refutes O27: tld of an lns6 tile reads unwritten scratchpad as bytes 0x10, not as the bytes 0 that the claim writes. -/
theorem not_chainsAndTiles : ¬ Obligations.ChainsAndTiles := by
  intro h
  have htile := (h.2 unwrittenAt unwrittenAt unwrittenAt 0 0#4 unwritten unwritten 0#3 0#6 0#6 0#4 0#6 0#6
    { rows := 1, cols := 1, tag := 12 } { fmt := 0#4, val := 0 } 0 0#4 0#5 0#5 0#16 [0#64] 0 [0] [] unwrittenAt_poised rfl).2.2
  have hload := (htile rfl).1 rfl |>.1 rfl
  have hbytes := firstBytes_of_completes hload
  rw [unwritten_tld] at hbytes
  exact absurd hbytes (by decide +kernel)

end Sys2Proof.Proofs.StaleScratchpad
end

section
/-! What the memory port does to the strands (R93, R361 to R364, R398): it performs stores that wait, and leaves them otherwise as
they are. -/
namespace Sys2Proof.Proofs.StrandsAtThePort
open Sys2Proof Sys2Proof.Machine Sys2Proof.Safety Sys2Proof.Laws

/-! ## Operations that leave the strands, the contexts and the gatherer -/

/-- What a read or a write of memory leaves but for the stores that it performs: the strands, the tier engine's contexts and the
gatherer's. -/
structure Untouched (s t : State) : Prop where
  strands : t.strands = s.strands
  te : t.te = s.te
  rq : t.rq = s.rq

theorem Untouched.trans {a b c : State} (h : Untouched a b) (k : Untouched b c) : Untouched a c :=
  ⟨k.strands.trans h.strands, k.te.trans h.te, k.rq.trans h.rq⟩

theorem untouched_modCtl (s : State) (c : Nat) (f : MemCtl → MemCtl) : Untouched s (modCtl s c f) := ⟨rfl, rfl, rfl⟩

theorem untouched_mscCount (s : State) (k : CounterKey) (n : Nat) : Untouched s (mscCount s k n) := ⟨rfl, rfl, rfl⟩

theorem untouched_logEvent (s : State) (a b : Nat) : Untouched s (logEvent s a b) := ⟨rfl, rfl, rfl⟩

theorem untouched_countUe (s : State) (c g : Nat) : Untouched s (countUe s c g) :=
  ((untouched_modCtl s c _).trans (untouched_mscCount _ _ _)).trans (untouched_logEvent _ _ _)

theorem untouched_countInt (s : State) (c g : Nat) : Untouched s (countInt s c g) :=
  ((untouched_modCtl s c _).trans (untouched_mscCount _ _ _)).trans (untouched_logEvent _ _ _)

theorem untouched_countCe (s : State) (c : Nat) : Untouched s (countCe s c) :=
  (untouched_modCtl s c _).trans (untouched_mscCount _ _ _)

theorem untouched_yieldScrub (s : State) (c : Nat) : Untouched s (yieldScrub s c) :=
  (untouched_modCtl s c _).trans (untouched_mscCount _ _ _)

theorem untouched_devRead (s : State) (c g : Nat) (d : Option (BitVec 6)) : Untouched s (devRead s c g d).2 := by
  unfold devRead
  dsimp only
  split
  · exact ⟨rfl, rfl, rfl⟩
  · split
    · exact untouched_countUe s c g
    · split
      · exact untouched_countUe s c g
      · split
        · dsimp only
          split
          · exact untouched_countCe s c
          · exact ⟨rfl, rfl, rfl⟩
        · exact untouched_countInt s c g

theorem untouched_cancelPend (s : State) (c g : Nat) : Untouched s (cancelPend s c g) := by
  unfold cancelPend
  split
  · exact (untouched_modCtl s c _).trans (untouched_yieldScrub _ c)
  · exact ⟨rfl, rfl, rfl⟩

/-- A write queue is no part of what stays untouched. -/
theorem untouched_wq (s : State) (l : FMap WqEntry) : Untouched s { s with wq := l } := ⟨rfl, rfl, rfl⟩

theorem untouched_enqueueWrite (s : State) (c g : Nat) (m : BitVec 64) (v : Granule) (p : Bool) (d : BitVec 6)
    (w : List (Nat × Nat)) : Untouched s (enqueueWrite s c g m v p d w) := by
  have h := untouched_cancelPend s c g
  unfold enqueueWrite
  generalize cancelPend s c g = t at h ⊢
  dsimp only
  split
  · split
    · exact (h.trans (untouched_yieldScrub t c)).trans (untouched_wq _ _)
    · exact h.trans (untouched_wq _ _)
  · exact (h.trans (untouched_wq _ _)).trans (untouched_modCtl _ c _)

theorem untouched_tcInsert (s : State) (die space obj off : Nat) (e : BitVec 256) (pe : BitVec 64) (side : Option Granule) :
    Untouched s (tcInsert s die space obj off e pe side) := by
  unfold tcInsert; split <;> exact ⟨rfl, rfl, rfl⟩

theorem untouched_noteWrite (s : State) (p : Place) (w : Option Nat) : Untouched s (noteWrite s p w) := by
  unfold noteWrite; split <;> exact ⟨rfl, rfl, rfl⟩

theorem untouched_pickValue (s : State) (st : Strand) (p : Place) (rmw : Bool) (f : View → Option Nat → Bool) (v : Granule) :
    Untouched s (pickValue s st p rmw f v).2 := by
  unfold pickValue
  split
  · split
    · exact ⟨rfl, rfl, rfl⟩
    · dsimp only; split <;> exact ⟨rfl, rfl, rfl⟩
  · exact ⟨rfl, rfl, rfl⟩

/-- The machine after an access of a command processor. -/
def cpState : CpAcc → State
  | .ok _ t => t
  | .fail t => t
  | .ask _ t => t

/-! ## What stores that are performed keep -/

/-- A property of the strands and the contexts that a store's completion keeps. -/
structure Enduring (P : State → Prop) : Prop where
  frame : ∀ {s t : State}, P s → Untouched s t → P t
  done : ∀ {s : State} (sid seq : Nat) (fail : Option Nat), P s → P (storeDone s sid seq fail)

section
variable {P : State → Prop} (hP : Enduring P) {s : State}
include hP

theorem keeps_ackAll (l : List (Nat × Nat)) (f : Option Nat) (h : P s) : P (ackAll s l f) := by
  induction l generalizing s with
  | nil => exact h
  | cons w r ih => exact ih (hP.done _ _ _ h)

omit hP in
theorem keeps_foldl {α : Type} (f : State → α → State) (hf : ∀ s a, P s → P (f s a)) (l : List α) (h : P s) :
    P (l.foldl f s) := by
  induction l generalizing s with
  | nil => exact h
  | cons a r ih => exact ih (hf s a h)

theorem keeps_drainEntry (g : Nat) (h : P s) : P (drainEntry s g) := by
  unfold drainEntry
  split
  · exact h
  · rename_i e _
    dsimp only
    split
    · exact keeps_ackAll hP _ _ (hP.frame h ⟨rfl, rfl, rfl⟩)
    · have hd := untouched_devRead (touchDev (dropEntry s g e) e.ctrl) e.ctrl g (some e.dom)
      split <;> rename_i heq <;> rw [heq] at hd <;> exact keeps_ackAll hP _ _ (hP.frame h ⟨hd.strands, hd.te, hd.rq⟩)

theorem keeps_drainEntries (l : List Nat) (h : P s) : P (l.foldl drainEntry s) :=
  keeps_foldl _ (fun _ _ h => keeps_drainEntry hP _ h) l h

theorem keeps_drainTo (g : Nat) (h : P s) : P (drainTo s g) := by
  unfold drainTo
  split
  · exact h
  · exact keeps_drainEntry hP _ (keeps_drainEntries hP _ h)

theorem keeps_serveC1 (n : Nat) (c g : Nat) (h : P s) : P (serveC1 n s c g) := by
  induction n generalizing s with
  | zero => exact h
  | succ n ih =>
    unfold serveC1
    dsimp only
    split
    · split
      · exact h
      · exact ih (keeps_drainEntry hP _ h)
    · exact h

theorem keeps_makeRoom (c g : Nat) (h : P s) : P (makeRoom s c g) := by
  unfold makeRoom
  split
  · split
    · exact hP.frame h ⟨rfl, rfl, rfl⟩
    · exact keeps_drainEntries hP _ h
  · exact h

theorem keeps_granRead (c g : Nat) (d : BitVec 6) (h : P s) : P (granRead s c g d).2 := by
  have h0 : P (serveC1 wqDepth (touchDev s c) c g) := keeps_serveC1 hP _ _ _ (hP.frame h ⟨rfl, rfl, rfl⟩)
  unfold granRead
  dsimp only
  split
  · split
    · exact h0
    · exact hP.frame (keeps_drainTo hP _ h0) (untouched_devRead _ _ _ _)
  · exact hP.frame h0 (untouched_devRead _ _ _ _)

theorem keeps_granWrite (c g : Nat) (m : BitVec 64) (v : Granule) (p : Bool) (d : BitVec 6) (h : P s) :
    P (granWrite s c g m v p d).2 := by
  have h1 : P (enqueueWrite (makeRoom (touchDev s c) c g) c g m v p d []) :=
    hP.frame (keeps_makeRoom hP c g (hP.frame (t := touchDev s c) h ⟨rfl, rfl, rfl⟩)) (untouched_enqueueWrite _ _ _ _ _ _ _ _)
  unfold granWrite
  dsimp only
  generalize enqueueWrite (makeRoom (touchDev s c) c g) c g m v p d [] = s1 at h1 ⊢
  split
  · exact h1
  · split
    · exact h1
    · split <;> exact keeps_drainEntry hP _ (keeps_drainEntries hP _ h1)

theorem keeps_physRead (d a n : Nat) (h : P s) : P (physRead s d a n).2 := by
  have hg := keeps_granRead hP (Config.physCtrl a) (a / 64) 0#6 h
  unfold physRead
  split
  · exact h
  · split <;> rename_i heq <;> rw [heq] at hg <;> exact hg

theorem keeps_physWrite (d a : Nat) (l : List Byte) (h : P s) : P (physWrite s d a l).2 := by
  have hg := keeps_granWrite hP (Config.physCtrl a) (a / 64) (maskOf (a % 64) l.length) (granPut 0#512 (a % 64) l) false 0#6 h
  unfold physWrite
  dsimp only
  split
  · exact h
  · split <;> rename_i heq <;> rw [heq] at hg <;> exact hg

omit hP in
theorem keeps_snd {α : Type} {r : α × State} {a : α} {t : State} (h : P r.2) (e : r = (a, t)) : P t := by
  rw [e] at h; exact h

theorem keeps_physWriteAll (l : List (List Byte)) (d a : Nat) (h : P s) : P (physWriteAll s d a l).2 := by
  induction l generalizing s a with
  | nil => exact h
  | cons x r ih => exact ih _ (keeps_physWrite hP d a x h)

theorem keeps_physReadAll (n : Nat) (d a : Nat) (h : P s) : P (physReadAll s d a n).2 := by
  induction n generalizing s a with
  | zero => exact h
  | succ k ih =>
    have hg := keeps_physRead hP d a 64 h
    unfold physReadAll
    split <;> rename_i heq <;> rw [heq] at hg
    · split <;> exact keeps_snd (ih _ hg) ‹_›
    · exact hg

/-! ### Translation -/

theorem keeps_readObt (die space obj : Nat) (h : P s) : P (readObt s die space obj).2 := by
  unfold readObt
  dsimp only
  split
  · exact h
  · split <;> exact keeps_snd (keeps_physRead hP _ _ _ h) ‹_›

theorem keeps_lookup (die space obj off : Nat) (h : P s) : P (lookup s die space obj off).2 := by
  unfold lookup
  split
  · exact h
  · split <;> exact keeps_snd (keeps_readObt hP _ _ _ h) ‹_›

theorem keeps_pageEntry (die : Nat) (e : BitVec 256) (off : Nat) (pe : Option (BitVec 64)) (h : P s) :
    P (pageEntry s die e off pe).2 := by
  unfold pageEntry
  split
  · exact h
  · split <;> exact keeps_snd (keeps_physRead hP _ _ _ h) ‹_›

theorem keeps_sideLine (die space obj off : Nat) (e : BitVec 256) (h : P s) : P (sideLine s die space obj off e).2 := by
  unfold sideLine
  split
  · exact h
  · split <;> exact keeps_snd (keeps_physRead hP _ _ _ h) ‹_›

omit hP in
theorem keeps_ite {α : Type} {c : Prop} [Decidable c] {a b : α × State} (ha : P a.2) (hb : P b.2) :
    P (if c then a else b).2 := by split <;> assumption

theorem keeps_translatePage (die space obj off : Nat) (e : BitVec 256) (pe : BitVec 64) (h : P s) :
    P (translatePage s die space obj off e pe).2 := by
  have ht := fun (t : State) (f : BitVec 64) (g : Option Granule) (ht : P t) =>
    hP.frame ht (untouched_tcInsert t die space obj off e f g)
  unfold translatePage
  refine keeps_ite h (keeps_ite h (keeps_ite (ht _ _ _ h) (keeps_ite h ?_)))
  have h2 := keeps_sideLine hP die space obj off e h
  split <;> rename_i heq <;> rw [heq] at h2
  · exact h2
  · exact ht _ _ _ h2

theorem keeps_translateIn (done : Bool) (die space obj ogen off size : Nat) (h : P s) :
    P (translateIn s done die space obj ogen off size).2 := by
  unfold translateIn
  refine keeps_ite h ?_
  have h1 := keeps_lookup hP die space obj off h
  generalize lookup s die space obj off = r at h1 ⊢
  obtain ⟨_ | ⟨e, pe⟩, s1⟩ := r
  · exact h1
  · refine keeps_ite h1 (keeps_ite h1 (keeps_ite h1 (keeps_ite h1
      (keeps_ite (hP.frame h1 (untouched_tcInsert _ _ _ _ _ _ _ _)) ?_))))
    have h2 := keeps_pageEntry hP die e off pe h1
    generalize pageEntry s1 die e off pe = q at h2 ⊢
    obtain ⟨_ | p, s2⟩ := q
    · exact h2
    · exact keeps_translatePage hP _ _ _ _ _ _ h2

theorem keeps_advanceQueue (core q : Nat) (t : Trans) (space obj ogen off : Nat) (h : P s) :
    P (advanceQueue s core q t space obj ogen off) := by
  unfold advanceQueue
  dsimp only
  split
  · exact h
  · split
    · exact hP.frame h ⟨rfl, rfl, rfl⟩
    · have h2 := keeps_translateIn hP false (dieOf core) space obj ogen t.pageEnd 1 h
      unfold nextTrans
      dsimp only
      split <;> exact hP.frame h2 ⟨rfl, rfl, rfl⟩

theorem keeps_portPlace (done : Bool) (core : Nat) (via : Option Nat) (space obj ogen off size : Nat) (h : P s) :
    P (portPlace s done core via space obj ogen off size).2 := by
  unfold portPlace
  split
  · exact keeps_translateIn hP _ _ _ _ _ _ _ h
  · unfold queuePlace
    dsimp only
    split
    · rename_i t _
      have h2 := keeps_translateIn hP done (dieOf core) space obj ogen off size
        (hP.frame (t := setTc s (dieOf core) [t]) h ⟨rfl, rfl, rfl⟩)
      exact keeps_advanceQueue hP _ _ _ _ _ _ _ (hP.frame h2 ⟨rfl, rfl, rfl⟩)
    · have h2 := keeps_translateIn hP done (dieOf core) space obj ogen off size h
      split
      · exact keeps_advanceQueue hP _ _ _ _ _ _ _ h2
      · exact h2

/-! ### Places -/

theorem keeps_granReads (n : Nat) (c g : Nat) (d : BitVec 6) (h : P s) : P (granReads s c g n d).2 := by
  induction n generalizing s g with
  | zero => exact h
  | succ k ih =>
    unfold granReads
    split
    · have h1 := keeps_snd (keeps_granRead hP _ _ _ h) ‹_›
      split <;> exact keeps_snd (ih _ h1) ‹_›
    · exact keeps_snd (keeps_granRead hP _ _ _ h) ‹_›

theorem keeps_placeRead (p : Place) (h : P s) : P (placeRead s p).2 := by
  have lift : ∀ r : MemRes × State, P r.2 → P (match r with
      | (.ok v, s1) => (PlRes.ok v, s1)
      | (.poison, s1) => (PlRes.poison, s1)
      | (.integrity, s1) => (PlRes.integrity, s1)).2 := by
    rintro ⟨r, t⟩ ht; cases r <;> exact ht
  unfold placeRead
  dsimp only
  split
  · split
    · exact h
    · split
      · exact keeps_snd (keeps_granReads hP _ _ _ _ h) ‹_›
      · exact keeps_snd (keeps_granReads hP _ _ _ _ h) ‹_›
      · have h1 := keeps_snd (keeps_granReads hP _ _ _ _ h) ‹_›
        split <;> exact h1
  · split
    · exact h
    · split
      · exact lift _ (keeps_granRead hP _ _ _ h)
      · split
        · have h1 := keeps_snd (keeps_granRead hP _ _ _ h) ‹_›
          split
          · exact lift _ (keeps_granRead hP _ _ _ h1)
          · exact h1
        · exact keeps_snd (keeps_granRead hP _ _ _ h) ‹_›

theorem keeps_sparseFill (side : Option Nat) (pa : Nat) (m : BitVec 64) (v : Granule) (h : P s) :
    P (sparseFill s side pa m v).2 := by
  unfold sparseFill
  split
  · exact h
  · split
    · exact h
    · dsimp only
      split
      · have h1 := keeps_snd (keeps_granRead hP _ _ _ h) ‹_›
        split
        · exact h1
        · exact keeps_granWrite hP _ _ _ _ _ _ h1
      · exact keeps_snd (keeps_granRead hP _ _ _ h) ‹_›

theorem keeps_enterStore (w : StoreW) (h : P s) : P (enterStore s w) := by
  have h0 : P (noteWrite s w.place (some w.sid)) := hP.frame h (untouched_noteWrite _ _ _)
  unfold enterStore
  dsimp only
  split
  · exact hP.done _ _ _ (hP.frame h0 ⟨rfl, rfl, rfl⟩)
  · have h1 := keeps_sparseFill hP w.side w.pa w.mask w.gran h0
    split <;> rename_i heq <;> rw [heq] at h1
    · exact hP.done _ _ _ (hP.frame h1 ⟨rfl, rfl, rfl⟩)
    · exact hP.frame (keeps_makeRoom hP _ _ h1) (untouched_enqueueWrite _ _ _ _ _ _ _ _)

theorem keeps_flushGran (st : Strand) (g : Nat) (h : P s) : P (flushGran s st g) := by
  unfold flushGran
  dsimp only
  split
  · exact h
  · exact keeps_drainTo hP _ (keeps_foldl _ (fun _ _ h => keeps_enterStore hP _ h) _ h)

theorem keeps_portRead (core : Nat) (st : Strand) (x : Reader) (obj ogen off size : Nat) (h : P s) :
    P (accState (portRead s core st x obj ogen off size)) := by
  have ht := keeps_portPlace hP (x.ans == some .ok) core x.via (spaceOf s st) obj ogen off size h
  unfold portRead
  dsimp only
  generalize portPlace s (x.ans == some .ok) core x.via (spaceOf s st) obj ogen off size = r at ht ⊢
  obtain ⟨x, t⟩ := r
  dsimp only at *
  split
  · exact ht
  · exact ht
  · exact hP.frame ht ⟨rfl, rfl, rfl⟩
  · exact ht
  · exact hP.frame ht ⟨rfl, rfl, rfl⟩
  · rename_i p
    split
    · exact ht
    · split
      · show P (if x.ans = some .error then refuseLog t obj off else t)
        split
        · exact hP.frame ht ⟨rfl, rfl, rfl⟩
        · exact ht
      · have hp := keeps_placeRead hP p (keeps_flushGran hP st (p.pa / 64) ht)
        split
        · exact hP.frame (keeps_snd hp ‹_›) (untouched_pickValue _ _ _ _ _ _)
        all_goals
          have h2 := keeps_snd hp ‹_›
          exact hP.frame h2 ⟨rfl, rfl, rfl⟩

/-! ### Reads and writes of command processors (R227) -/

theorem keeps_putPlace (p : Place) (m : BitVec 64) (v : Granule) (q : Bool) (h : P s) : P (putPlace s p m v q).2 := by
  unfold putPlace
  split
  · exact h
  · split
    · cases q <;> exact hP.frame h ⟨rfl, rfl, rfl⟩
    · split
      · exact keeps_snd (keeps_sparseFill hP _ _ _ _ h) ‹_›
      · exact keeps_granWrite hP _ _ _ _ _ _ (keeps_snd (keeps_sparseFill hP _ _ _ _ h) ‹_›)

theorem keeps_placeWrite (p : Place) (m : BitVec 64) (v : Granule) (q : Bool) (h : P s) : P (placeWrite s p m v q).2 :=
  keeps_putPlace hP p m v q (hP.frame h (untouched_noteWrite s p none))

theorem keeps_cpRead (die : Nat) (ans : Option CxlResult) (space obj gen off n : Nat) (h : P s) :
    P (cpState (cpRead s die ans space obj gen off n)) := by
  have ht := keeps_translateIn hP (ans == some .ok) die space obj gen off n h
  unfold cpRead
  generalize translateIn s (ans == some .ok) die space obj gen off n = r at ht ⊢
  obtain ⟨x, t⟩ := r
  dsimp only at *
  split
  · rename_i p
    split
    · exact ht
    · split
      · exact ht
      · have hp := keeps_placeRead hP p ht
        generalize placeRead t p = q at hp ⊢
        obtain ⟨v, t2⟩ := q
        cases v with
        | refused => exact hP.frame hp ⟨rfl, rfl, rfl⟩
        | _ => exact hp
  · exact hP.frame ht ⟨rfl, rfl, rfl⟩
  · exact hP.frame ht ⟨rfl, rfl, rfl⟩
  · exact ht

theorem keeps_cpWrite (die : Nat) (ans : Option CxlResult) (space obj gen off : Nat) (l : List Byte) (h : P s) :
    P (cpState (cpWrite s die ans space obj gen off l)) := by
  have ht := keeps_translateIn hP (ans == some .ok) die space obj gen off l.length h
  unfold cpWrite
  generalize translateIn s (ans == some .ok) die space obj gen off l.length = r at ht ⊢
  obtain ⟨x, t⟩ := r
  dsimp only at *
  split
  · rename_i p
    split
    · exact ht
    · split
      · exact ht
      · have hp := keeps_placeWrite hP p (maskOf (p.pa % 64) l.length) (granPut 0#512 (p.pa % 64) l) false ht
        split <;> rename_i heq <;> rw [heq] at hp
        · exact hp
        · exact hP.frame hp ⟨rfl, rfl, rfl⟩
        · exact hp
  · exact hP.frame ht ⟨rfl, rfl, rfl⟩
  · exact hP.frame ht ⟨rfl, rfl, rfl⟩
  · exact ht

end

/-! ## What no access changes -/

/-- No access changes the tier engine's contexts or the gatherer's. -/
theorem enduring_units (s : State) : Enduring fun t => t.te = s.te ∧ t.rq = s.rq where
  frame h hst := ⟨hst.te.trans h.1, hst.rq.trans h.2⟩
  done _ _ _ h := h

end Sys2Proof.Proofs.StrandsAtThePort
end

section
/-! What the array's operations keep of a machine (R180 to R188, R203 to R205): a property of its strands, or of its memory, that
the memory port and a change to a strand keep. -/
namespace Sys2Proof.Proofs.ArrayState
open Sys2Proof Sys2Proof.Machine Sys2Proof.Safety Sys2Proof.Laws Sys2Proof.Proofs.StrandsAtThePort Sys2Proof.Proofs.Semaphores

/-- Two strands whose streams wait with the same pushes. -/
def SamePush (a b : Strand) : Prop := ∀ e, (streamOf b e).push = (streamOf a e).push

theorem samePush_of_ss {a b : Strand} (h : b.ss = a.ss) : SamePush a b := fun e => by rw [streamOf_ss h]

theorem samePush_setStream (st : Strand) {e : Engine} {x : Stream} (h : x.push = (streamOf st e).push) :
    SamePush st (setStream st e x) := fun f => by
  rw [streamOf_setStream]
  by_cases he : e = f
  · subst he; rw [if_pos rfl]; exact h
  · rw [if_neg he]

/-- A property of the machine that the memory port keeps, and that a change to a strand keeps where the strand keeps `A`. -/
structure Upheld (A : Strand → Prop) (P : State → Prop) : Prop where
  same : ∀ {a b : Strand}, A a → SamePush a b → A b
  frame : ∀ {s t : State}, P s → t.strands = s.strands → t.mem = s.mem → P t
  strand : ∀ {s : State} (c : Nat) (f : Strand → Strand), P s → (∀ a, A a → A (f a)) → P (modStrand s c f)
  put : ∀ {s : State} (c : Nat) (st : Strand), P s → A st → P (setStrand s c st)
  owner : ∀ {s : State} (o : Owner) (f : Strand → Strand), P s → (∀ a, A a → A (f a)) → P (modOwner s o f)
  read : ∀ {s : State} (d a n : Nat), P s → P (physRead s d a n).2
  write : ∀ {s : State} (d a : Nat) (l : List Byte), P s → P (physWrite s d a l).2
  readAll : ∀ {s : State} (d a n : Nat), P s → P (physReadAll s d a n).2
  writeAll : ∀ {s : State} (d a : Nat) (l : List (List Byte)), P s → P (physWriteAll s d a l).2
  portRead : ∀ {s : State} (core : Nat) (st : Strand) (x : Reader) (obj ogen off size : Nat), P s →
    P (accState (portRead s core st x obj ogen off size))
  portWrite : ∀ {s : State} (core : Nat) (e : Engine) (via : Option Nat) (j : Bool) (idx obj ogen off : Nat) (l : List Byte),
    P s → P (portWrite s core e via j idx obj ogen off l).2

/-! ## A stream that waits with no push -/

/-- No push of the stream `e` of the strand on `core` waits. -/
def IdleAt (e : Engine) (core : Nat) (s : State) : Prop := ∀ st, strandAt s core = some st → (streamOf st e).push = none

section
variable {e : Engine} {core : Nat} {s t : State}

theorem idleAt_of_strands (h : IdleAt e core s) (ht : t.strands = s.strands) : IdleAt e core t :=
  fun st hst => h st ((strandAt_strands ht.symm core).trans hst)

theorem idleAt_setStrand (c : Nat) {st : Strand} (h : IdleAt e core s) (hst : (streamOf st e).push = none) :
    IdleAt e core (setStrand s c st) := fun st' h' => by
  rw [strandAt_setStrand] at h'
  split at h'
  · cases h'; exact hst
  · exact h st' h'

theorem idleAt_modStrand (c : Nat) {f : Strand → Strand} (h : IdleAt e core s)
    (hf : ∀ a, (streamOf a e).push = none → (streamOf (f a) e).push = none) : IdleAt e core (modStrand s c f) := fun st' h' => by
  rw [strandAt_modStrand] at h'
  split at h'
  · rename_i hc
    subst hc
    obtain ⟨st, hst, rfl⟩ := Option.map_eq_some_iff.1 h'
    exact hf st (h st hst)
  · exact h st' h'

/-- What is found in a map whose values have been changed. -/
theorem mapFind_map {α : Type} (m : FMap α) (f : Nat × α → Nat × α) (hf : ∀ p, (f p).1 = p.1) (k : Nat) {v : α}
    (h : mapFind (m.map f) k = some v) : ∃ w, mapFind m k = some w ∧ v = (f (k, w)).2 := by
  induction m with
  | nil => cases h
  | cons p r ih =>
    rw [List.map_cons, mapFind_cons] at h
    rw [mapFind_cons]
    rw [hf p] at h
    split at h
    · rename_i hk
      rw [if_pos hk]
      refine ⟨p.2, rfl, ?_⟩
      cases h
      rw [← hk]
    · rename_i hk
      rw [if_neg hk]
      exact ih h

theorem idleAt_mapStrands {f : Nat × Strand → Nat × Strand} (h : IdleAt e core s) (ht : t.strands = s.strands.map f)
    (hkey : ∀ p, (f p).1 = p.1) (hf : ∀ p, (streamOf p.2 e).push = none → (streamOf (f p).2 e).push = none) :
    IdleAt e core t := fun st' h' => by
  unfold strandAt at h'
  rw [ht] at h'
  obtain ⟨st, hst, rfl⟩ := mapFind_map s.strands f hkey core h'
  exact hf _ (h st hst)

theorem enduring_idleAt (e : Engine) (core : Nat) : Enduring (IdleAt e core) where
  frame h hst := idleAt_of_strands h hst.strands
  done sid seq fail h := by
    refine idleAt_mapStrands h rfl (fun p => ?_) fun p hp => ?_
    · dsimp only; split <;> rfl
    · dsimp only
      split
      · rw [streamOf_settlePushes_idle (f := e)]
        · exact hp
        · exact hp
      · exact hp

theorem idleAt_failStore (c : Nat) (f : FailedW) (h : IdleAt e core s) : IdleAt e core (failStore s c f) :=
  idleAt_modStrand (s := { s with nfail := s.nfail + 1 }) c (idleAt_of_strands h rfl) fun _ ha => ha

theorem idleAt_acceptStore (c : Nat) (j : Bool) (w : StoreW) (h : IdleAt e core s) : IdleAt e core (acceptStore s c j w) := by
  by_cases hc : c = core
  · subst hc
    unfold acceptStore
    split
    · exact h
    · rename_i st hst
      have hidle := h st hst
      split
      · exact idleAt_setStrand _ h hidle
      · dsimp only
        split
        · exact idleAt_of_strands (idleAt_setStrand (st := { st with
            stores := st.stores ++ [w]
            storeSeq := st.storeSeq + 1 }) c h hidle) rfl
        · exact idleAt_setStrand _ h hidle
  · have hne : ∀ st, IdleAt e core (setStrand s c st) := fun st st' h' => by
      rw [strandAt_setStrand, if_neg hc] at h'
      exact h st' h'
    unfold acceptStore
    split
    · exact h
    · rename_i st hst
      split
      · exact hne _
      · dsimp only
        split
        · exact idleAt_of_strands (hne { st with
            stores := st.stores ++ [w]
            storeSeq := st.storeSeq + 1 }) rfl
        · exact hne _

theorem idleAt_portWrite (c : Nat) (e' : Engine) (via : Option Nat) (j : Bool) (idx obj ogen off : Nat) (l : List Byte)
    (h : IdleAt e core s) : IdleAt e core (portWrite s c e' via j idx obj ogen off l).2 := by
  unfold portWrite
  split
  · exact h
  · rename_i st _
    have ht := keeps_portPlace (enduring_idleAt e core) false c via (spaceOf s st) obj ogen off l.length h
    dsimp only
    generalize portPlace s false c via (spaceOf s st) obj ogen off l.length = r at ht ⊢
    obtain ⟨x, t⟩ := r
    dsimp only at *
    split
    · exact ht
    · exact ht
    · exact idleAt_failStore _ _ (idleAt_of_strands ht rfl)
    · exact idleAt_failStore _ _ ht
    · exact idleAt_failStore _ _ (idleAt_of_strands ht rfl)
    · split
      · exact idleAt_failStore _ _ (idleAt_of_strands ht rfl)
      · exact idleAt_acceptStore _ _ _ ht

end

theorem upheld_idleAt (e : Engine) (core : Nat) : Upheld (fun st => (streamOf st e).push = none) (IdleAt e core) where
  same h hab := (hab e).trans h
  frame h hst _ := idleAt_of_strands h hst
  strand c _ h hf := idleAt_modStrand c h hf
  put c _ h hst := idleAt_setStrand c h hst
  owner o f h hf := idleAt_mapStrands h rfl (fun p => by split <;> rfl) fun p hp => by
    split
    · exact hf _ hp
    · exact hp
  read d a n h := keeps_physRead (enduring_idleAt e core) d a n h
  write d a l h := keeps_physWrite (enduring_idleAt e core) d a l h
  readAll d a n h := keeps_physReadAll (enduring_idleAt e core) n d a h
  writeAll d a l h := keeps_physWriteAll (enduring_idleAt e core) l d a h
  portRead c st x obj ogen off size h := keeps_portRead (enduring_idleAt e core) c st x obj ogen off size h
  portWrite c e' via j idx obj ogen off l h := idleAt_portWrite c e' via j idx obj ogen off l h

/-- Memory in its canonical form. -/
theorem upheld_memOk : Upheld (fun _ => True) MemOk where
  same _ _ := trivial
  frame h _ hm := memOk_of_mem hm h
  strand c f h _ := memOk_of_mem (modStrand_mem _ c f) h
  put _ _ h _ := memOk_of_mem rfl h
  owner _ _ h _ := memOk_of_mem rfl h
  read d a n h := physRead_memOk d a n h
  write d a l h := physWrite_memOk d a l h
  readAll d a n h := physReadAll_memOk n d a h
  writeAll d a l h := physWriteAll_memOk l d a h
  portRead c st x obj ogen off size h := portRead_memOk c st x obj ogen off size h
  portWrite c e via j idx obj ogen off l h := portWrite_memOk c e via j idx obj ogen off l h

/-! ## The array -/

section
variable {A : Strand → Prop} {P : State → Prop} (hP : Upheld A P) {s : State}
include hP

/-- A change to a strand that leaves its streams. -/
theorem upheld_modStrand (c : Nat) {f : Strand → Strand} (h : P s) (hf : ∀ a, (f a).ss = a.ss) : P (modStrand s c f) :=
  hP.strand c f h fun _ ha => hP.same ha (samePush_of_ss (hf _))

theorem upheld_modOwner (o : Owner) {f : Strand → Strand} (h : P s) (hf : ∀ a, (f a).ss = a.ss) : P (modOwner s o f) :=
  hP.owner o f h fun _ ha => hP.same ha (samePush_of_ss (hf _))

/-- A change to a stream that leaves its push. -/
theorem upheld_modStream (c : Nat) (e : Engine) {f : Stream → Stream} (h : P s) (hf : ∀ x, (f x).push = x.push) :
    P (modStream s c e f) :=
  hP.strand c _ h fun a ha => hP.same ha (samePush_setStream a (hf _))

theorem upheld_modQuad (q : Nat) (f : Quad → Quad) (h : P s) : P (modQuad s q f) := hP.frame h rfl rfl

theorem upheld_modCrew (k : Nat) (f : Crew → Crew) (h : P s) : P (modCrew s k f) := by
  refine hP.frame h ?_ (modCrew_mem _ _ _)
  unfold modCrew; split <;> rfl

omit hP in
theorem upheld_iter {α : Type} {Q : α → Prop} (n : Nat) {x : α} (f : Nat → α → α) (h : Q x) (hf : ∀ k x, Q x → Q (f k x)) :
    Q (iter n x f) := by
  induction n with
  | zero => exact h
  | succ k ih => exact hf k _ ih

omit hP in
theorem upheld_foldl {α β : Type} {Q : α → Prop} (l : List β) {x : α} (f : α → β → α) (h : Q x) (hf : ∀ x b, Q x → Q (f x b)) :
    Q (l.foldl f x) := by
  induction l generalizing x with
  | nil => exact h
  | cons a r ih => exact ih (hf x a h)

omit hP in
theorem upheld_snd {α : Type} {r : α × State} {a : α} {t : State} (h : P r.2) (e : r = (a, t)) : P t := by
  rw [e] at h; exact h

theorem upheld_spWriteN (n c : Nat) (g : Gen) (o : Nat) (l : List Byte) (h : P s) : P (spWriteN n s c g o l) := by
  induction n generalizing s o l with
  | zero => exact h
  | succ k ih =>
    unfold spWriteN
    split
    · exact h
    · exact ih _ _ (hP.frame h rfl rfl)

/-! ### Held planes and rows -/

theorem upheld_clearBit (d a k : Nat) (h : P s) : P (clearBit s d a k) := by
  have h1 := hP.read d a 1 h
  unfold clearBit
  split <;> rename_i heq <;> rw [heq] at h1
  · exact hP.write _ _ _ h1
  · exact h1

theorem upheld_markLost (d : Nat) (o : Owner) (x : HeldObj) (h : P s) : P (markLost s d o x) := by
  unfold markLost
  dsimp only
  split
  · exact hP.write _ _ _ h
  · exact upheld_clearBit hP _ _ _ h
  · exact upheld_clearBit hP _ _ _ h

omit hP in
theorem sendMsi_keeps (s : State) (v : Nat) : (sendMsi s v).strands = s.strands ∧ (sendMsi s v).mem = s.mem := by
  unfold sendMsi
  split <;> exact ⟨rfl, rfl⟩

omit hP in
theorem report_keeps (s : State) (die kind slot q detail obj off : Nat) :
    (report s die kind slot q detail obj off).strands = s.strands ∧
      (report s die kind slot q detail obj off).mem = s.mem := by
  unfold report
  dsimp only
  split
  · exact ⟨rfl, rfl⟩
  · split
    · exact sendMsi_keeps _ _
    · exact ⟨rfl, rfl⟩

theorem upheld_report (die kind slot q detail obj off : Nat) (h : P s) : P (report s die kind slot q detail obj off) :=
  hP.frame h (report_keeps _ _ _ _ _ _ _ _).1 (report_keeps _ _ _ _ _ _ _ _).2

theorem upheld_loseObj (o : Owner) (x : HeldObj) (d : Nat) (h : P s) : P (loseObj s o x d) :=
  upheld_report hP _ _ _ _ _ _ _ (upheld_modCrew hP _ _ h)

theorem upheld_physBlock (d a : Nat) (l : List Byte) (h : P s) : P (physBlock s d a l).2 := hP.writeAll _ _ _ h

theorem upheld_writeOutPlane (q : Nat) (b : Bool) (h : P s) : P (writeOutPlane s q b) := by
  unfold writeOutPlane
  dsimp only
  split
  · exact h
  · have h1 := fun f => upheld_modQuad hP q f h
    split
    · exact upheld_modOwner hP _ (h1 _) fun _ => rfl
    · split
      · exact upheld_modOwner hP _ (upheld_physBlock hP _ _ _ (upheld_physBlock hP _ _ _ (h1 _))) fun _ => rfl
      · exact upheld_loseObj hP _ _ _ (upheld_markLost hP _ _ _
          (upheld_modQuad hP _ _ (upheld_physBlock hP _ _ _ (upheld_physBlock hP _ _ _ (h1 _)))))

theorem upheld_writeOutRow (q r : Nat) (h : P s) : P (writeOutRow s q r) := by
  unfold writeOutRow
  dsimp only
  split
  · exact h
  · have h1 := fun f => upheld_modQuad hP q f h
    split
    · exact h1 _
    · split
      · exact upheld_physBlock hP _ _ _ (h1 _)
      · exact upheld_loseObj hP _ _ _ (upheld_markLost hP _ _ _ (upheld_modQuad hP _ _ (upheld_physBlock hP _ _ _ (h1 _))))

theorem upheld_writeOutRows (q b n : Nat) (h : P s) : P (writeOutRows s q b n) :=
  upheld_iter n _ h fun _ _ => upheld_writeOutRow hP _ _

theorem upheld_readPlane (d : Nat) (o : Owner) (n : Nat) (h : P s) : P (readPlane s d o n).2 := by
  unfold readPlane
  dsimp only
  split <;> exact hP.readAll _ _ _ (hP.readAll _ _ _ h)

theorem upheld_reloadPlane (core : Nat) (st : Strand) (b : Bool) (h : P s) : P (reloadPlane s core st b) := by
  have h1 : P (match mapFind st.planes (planeNum b) with
      | some p => (some p, s)
      | none => readPlane s (dieOf core) (ownerOf st) (planeNum b)).2 := by
    split
    · exact h
    · exact upheld_readPlane hP _ _ _ h
  unfold reloadPlane
  dsimp only
  split
  · have h2 := upheld_modStrand hP core (f := fun st => clearPlaneOut st (planeNum b)) h1 fun _ => rfl
    split
    · exact upheld_modQuad hP _ _ h2
    · exact h2
  · exact h

/-! ### Grants -/

theorem upheld_grantPlane (core : Nat) (st : Strand) (b : Bool) (h : P s) : P (grantPlane s core st b) := by
  unfold grantPlane
  dsimp only
  split
  · exact upheld_modStrand hP core (upheld_modQuad hP _ _ h) fun _ => rfl
  · exact upheld_reloadPlane hP _ _ _ (upheld_modQuad hP _ _ (upheld_writeOutPlane hP _ _ h))

theorem upheld_grantTo (core run : Nat) (h : P s) : P (grantTo s core run) := by
  unfold grantTo
  dsimp only
  split
  · exact h
  · exact upheld_grantPlane hP _ _ _ (upheld_grantPlane hP _ _ _ (upheld_modQuad hP _ _ h))

theorem upheld_requestArray (core run : Nat) (h : P s) : P (requestArray s core run) := by
  unfold requestArray
  dsimp only
  split
  · exact h
  · split
    · exact upheld_grantTo hP _ _ h
    · exact upheld_modQuad hP _ _ h

theorem upheld_endLease (core : Nat) (h : P s) : P (endLease s core) := by
  unfold endLease
  dsimp only
  split
  · split
    · exact upheld_modQuad hP _ _ h
    · exact h
  · exact h

theorem upheld_setLatch (core : Nat) (m : MLatch) (h : P s) : P (setLatch s core m) :=
  upheld_modStream hP core .M h fun _ => rfl

theorem upheld_setProgress (core ph row : Nat) (h : P s) : P (setProgress s core ph row) :=
  upheld_modStrand hP core h fun _ => rfl

/-! ### Reads and writes of many pieces -/

/-- The machine that reads of several pieces leave. -/
def readsState : Reads → State
  | .ok _ s => s
  | .trap _ s => s
  | .ask _ s => s

theorem upheld_readPieces (core : Nat) (st : Strand) (x : Reader) (obj ogen : Nat) (l : List Piece) (h : P s) :
    P (readsState (readPieces s core st x obj ogen l)) := by
  induction l generalizing s with
  | nil => exact h
  | cons p r ih =>
    have h1 := hP.portRead core st x obj ogen p.off p.size h
    unfold readPieces
    cases heq : portRead s core st x obj ogen p.off p.size with
    | trap t s1 => rw [heq] at h1; exact h1
    | ask q s1 => rw [heq] at h1; exact h1
    | ok b s1 =>
      rw [heq] at h1
      have h2 := ih (s := s1) h1
      dsimp only
      cases heq2 : readPieces s1 core st x obj ogen r <;> rw [heq2] at h2 <;> exact h2

theorem upheld_writePieces (core : Nat) (e : Engine) (via : Option Nat) (j : Bool) (idx obj ogen : Nat)
    (l : List (Piece × List Byte)) (h : P s) : P (writePieces s core e via j idx obj ogen l).2 := by
  induction l generalizing s with
  | nil => exact h
  | cons p r ih =>
    have h1 := hP.portWrite core e via j idx obj ogen p.1.off p.2 h
    unfold writePieces
    split <;> rename_i heq <;> rw [heq] at h1
    · exact h1
    · exact ih h1

theorem upheld_awaitCxl (core : Nat) (e : Engine) (p : Option Nat) (h : P s) : P (effState (awaitCxl s core e p)) := by
  unfold awaitCxl
  split
  · split
    · exact h
    · exact hP.frame (upheld_modStream hP core e (f := fun x => { x with asked := true }) h fun _ => rfl) rfl rfl
  · exact h

theorem upheld_spendAns (core : Nat) (e : Engine) (h : P s) : P (spendAns s core e) :=
  upheld_modStream hP core e h fun _ => rfl

theorem upheld_readUnit (core : Nat) (st : Strand) (ans : Option CxlResult) (m : MLatch) (l : List Piece)
    {k : List Byte → State → Eff} (h : P s) (hk : ∀ b t, P t → P (effState (k b t))) :
    P (effState (readUnit s core st ans m l k)) := by
  have h1 := upheld_readPieces hP core st { know := (streamOf st .M).know, via := some (6 + m.phase % 2), ans := ans }
    (capObj m.cap) (capOgen m.cap) l h
  unfold readUnit
  split <;> rename_i heq <;> rw [heq] at h1
  · refine hk _ _ ?_
    split
    · exact upheld_spendAns hP _ _ h1
    · exact h1
  · exact upheld_setProgress hP _ _ _ (upheld_setLatch hP _ _ h1)
  · exact upheld_awaitCxl hP _ _ _ (upheld_setLatch hP _ _ h1)

/-! ### Planes, rows, regions -/

theorem upheld_writePlane (core : Nat) (st : Strand) (b : Bool) (f : Plane → Plane) (h : P s) :
    P (writePlane s core st b f) := upheld_modQuad hP _ _ h

theorem upheld_planeRow (core : Nat) (st : Strand) (b : Bool) (k : Nat) (v : BitVec 2048) (h : P s) :
    P (planeRow s core st b k v) := upheld_writePlane hP _ _ _ _ h

theorem upheld_putAcc (core : Nat) (st : Strand) (r : Nat) (v : VBits) (h : P s) : P (putAcc s core st r v) :=
  upheld_modQuad hP _ _ h

theorem upheld_putRow (core : Nat) (st : Strand) (x : RowAt) (v : VBits) (h : P s) : P (putRow s core st x v) := by
  unfold putRow
  split
  · exact upheld_putAcc hP _ _ _ _ h
  · exact upheld_spWriteN hP _ _ _ _ _ h

theorem upheld_raiseSlot (core : Nat) (rg : Rg) (e : Nat) (ev : Events) (h : P s) : P (raiseSlot s core rg e ev) :=
  upheld_modStrand hP core h fun _ => by split <;> rfl

theorem upheld_validEntry0 (core : Nat) (rg : Rg) (h : P s) : P (validEntry0 s core rg) :=
  upheld_modStrand hP core h fun _ => by split <;> rfl

theorem upheld_allocSlot (core : Nat) (st : Strand) (rg : Rg) (g : Region) (e label : Nat) (h : P s) :
    P (allocSlot s core st rg g e label) := by
  unfold allocSlot
  dsimp only
  split
  · exact upheld_iter _ _ (upheld_modStrand hP core h fun _ => rfl) fun _ _ => upheld_putRow hP _ _ _ _
  · exact upheld_iter _ _ (upheld_spWriteN hP _ _ _ _ _ (upheld_modStrand hP core h fun _ => rfl))
      fun _ _ => upheld_putRow hP _ _ _ _

theorem upheld_streamRows (core : Nat) (st : Strand) (g : Region) (rg : Rg) (e : Nat) (sums : Nat → List (List Ex))
    (l : List (Nat × Nat)) (h : P s) : P (streamRows core st g rg e sums l s) := by
  induction l generalizing s with
  | nil => exact h
  | cons p r ih => exact ih (upheld_raiseSlot hP _ _ _ _ (upheld_putRow hP _ _ _ _ h))

theorem upheld_chooseOf {α : Type} (l : List α) (h : P s) : P (chooseOf s l).2 := by
  unfold chooseOf
  split
  · exact h
  · exact h
  · exact hP.frame h rfl rfl

theorem upheld_loadView (st : Strand) (b : Bool) (h : P s) : P (loadView s st b).2 := upheld_chooseOf hP _ h

/-! ### Loads of planes and contexts -/

theorem upheld_loadRows (fuel : Nat) (core : Nat) (st : Strand) (b : Bool) (ans : Option CxlResult) (m : MLatch) (h : P s) :
    P (effState (loadRows fuel s core st b ans m)) := by
  induction fuel generalizing s ans m with
  | zero =>
    unfold loadRows
    split
    · exact upheld_readUnit hP core st ans m _ h fun _ _ ht => upheld_setProgress hP _ _ _ (upheld_writePlane hP _ _ _ _ ht)
    · exact upheld_setProgress hP _ _ _ (upheld_writePlane hP _ _ _ _ h)
  | succ f ih =>
    unfold loadRows
    exact upheld_readUnit hP core st ans m _ h fun _ _ ht => ih _ _ (upheld_planeRow hP _ _ _ _ _ ht)

theorem upheld_saveUnits (core idx : Nat) (m : MLatch) (l : List Unit_) (h : P s) :
    P (effState (saveUnits core idx m l s)) := by
  induction l generalizing s with
  | nil => exact upheld_setProgress hP _ _ _ h
  | cons u r ih =>
    have h1 := upheld_writePieces hP core .M none false idx (capObj m.cap) (capOgen m.cap)
      (u.parts.flatMap fun p => cutPieces (m.base + p.1) p.2) h
    unfold saveUnits
    split <;> rename_i heq <;> rw [heq] at h1
    · exact ih h1
    · exact upheld_setProgress hP _ _ _ (upheld_setLatch hP _ _ h1)

theorem upheld_loadUnits (core : Nat) (st : Strand) (ans : Option CxlResult) (m : MLatch) (l : List (Nat × Nat)) (h : P s) :
    P (effState (loadUnits core st ans m l s)) := by
  induction l generalizing s ans with
  | nil => exact upheld_setProgress hP _ _ _ h
  | cons u r ih =>
    unfold loadUnits
    dsimp only
    split
    · exact upheld_readUnit hP core st ans _ _ h fun _ _ ht => ih _ (upheld_putAcc hP _ _ _ _ ht)
    · refine upheld_readUnit hP core st ans _ _ h fun _ _ ht => ih _ ?_
      split
      · exact upheld_writePlane hP _ _ _ _ (upheld_planeRow hP _ _ _ _ _ ht)
      · exact upheld_planeRow hP _ _ _ _ _ ht

theorem upheld_voidContext (core : Nat) (st : Strand) (h : P s) : P (voidContext s core st) :=
  upheld_modQuad hP _ _ (upheld_foldl _ _ h fun _ _ ht => upheld_modQuad hP _ _ (upheld_writeOutRow hP _ _ ht))

theorem upheld_restoreRest (core : Nat) {st : Strand} (ans : Option CxlResult) (m : MLatch) (h : P s) (hst : A st) :
    P (effState (restoreRest s core st ans m)) := by
  unfold restoreRest
  dsimp only
  split
  · split
    · exact h
    · exact upheld_loadUnits hP _ _ _ _ _ (upheld_voidContext hP _ _ (hP.put core _ h (hP.same hst (samePush_of_ss rfl))))
  · exact upheld_loadUnits hP _ _ _ _ _ h

theorem upheld_loadTabs (fuel : Nat) (core : Nat) {st : Strand} (ans : Option CxlResult) (m : MLatch) (h : P s) (hst : A st) :
    P (effState (loadTabs fuel s core st ans m)) := by
  induction fuel generalizing s ans m with
  | zero => exact upheld_restoreRest hP core ans m h hst
  | succ f ih =>
    unfold loadTabs
    exact upheld_readUnit hP core st ans m _ h fun _ _ ht => ih _ _ ht

end

end Sys2Proof.Proofs.ArrayState
end

section
/-! The matrix stream's control forms, regions, planes and contexts (R180, R184, R185, R188, R193, R196, R199, R203 to R206). -/
namespace Sys2Proof.Proofs.MatrixControl
open Sys2Proof Sys2Proof.Machine Sys2Proof.Safety Sys2Proof.Laws Sys2Proof.Proofs.Turns Sys2Proof.Proofs.ArrayTurns
  Sys2Proof.Proofs.ArrayState Sys2Proof.Proofs.ScalarEngine

/-! ## Frames -/

section
variable {s s1 s2 : State} {core : Nat} {tk : Tk} {st st2 : Strand} {i : Instr} {b : State → Nat → Strand → Eff}

/-- The stream of an instruction whose tk_pop is done waits with no push. -/
theorem idleAt_of_poised {e : Engine} (h : Poised s core e tk s1 st) : IdleAt e core s1 := fun st' h' => by
  cases (strandAt_of_poised h).symm.trans h'
  exact h.idle

/-- A control instruction that finishes. -/
theorem completes_of_ctl (h : Poised s core .M tk s1 st) (hd : MatsDone s core) (hi : exec i s = issueCtl tk b s)
    (hb : b s1 core st = .fin s2) (hidle : IdleAt .M core s2) (h2 : strandAt s2 core = some st2) :
    Completes i s s2 core .M st2 s2.grp.next :=
  completes_of_freeFin (c := .ctl) rfl h (starts_of_matsDone hd _) hi hb h2 (hidle st2 h2)

/-- A control instruction that only changes its strand. -/
theorem completes_of_ctlSet {st' : Strand} (h : Poised s core .M tk s1 st) (hd : MatsDone s core)
    (hi : exec i s = issueCtl tk b s) (hb : b s1 core st = .fin (setStrand s1 core st')) (hss : st'.ss = st.ss) :
    Completes i s s1 core .M st' s1.grp.next :=
  completes_of_over (completes_of_ctl h hd hi hb
    (idleAt_setStrand core (idleAt_of_poised h) (by rw [streamOf_ss hss]; exact h.idle)) (by simp))

/-- The same of a strand that is changed where it stands. -/
theorem completes_of_ctlMod {f : Strand → Strand} (h : Poised s core .M tk s1 st) (hd : MatsDone s core)
    (hi : exec i s = issueCtl tk b s) (hb : b s1 core st = .fin (modStrand s1 core f)) (hss : (f st).ss = st.ss) :
    Completes i s s1 core .M (f st) s1.grp.next :=
  completes_of_ctlSet h hd hi (hb.trans (congrArg Eff.fin (modStrand_some f (strandAt_of_poised h)))) hss

end

/-! ## R180, R206 -/

section
variable {s s1 : State} {core : Nat} {tk : Tk} {st : Strand}

theorem mnop_done (h : Poised s core .M tk s1 st) (hs : NoSerial s core) {st2 : Strand} (h2 : strandAt s1 core = some st2) :
    Completes (.mnop tk) s s1 core .M st2 s1.grp.next :=
  completes_of_freeFin (c := .free) (b := fun s _ _ => .fin s) rfl h (starts_of_noSerial hs (by simp)) rfl rfl h2
    (idleAt_of_poised h st2 h2)

theorem munlease_done (h : Poised s core .M tk s1 st) (hd : MatsDone s core) {st2 : Strand}
    (h2 : strandAt (endLease s1 core) core = some st2) :
    Completes (.munlease tk) s (endLease s1 core) core .M st2 s1.grp.next := by
  rw [← StrandControl.grp_endLease s1 core]
  exact completes_of_ctl (b := fun s core _ => .fin (endLease s core)) h hd rfl rfl
    (upheld_endLease (upheld_idleAt .M core) core (idleAt_of_poised h)) h2

/-- What mlease leaves where it stands granted. -/
theorem mlease_granted (h : Poised s core .M tk s1 st) (hd : MatsDone s core) {n : BitVec 9} {s2 : State}
    (hgrant : (if (streamOf st .M).arrived then s1
      else
        let run := match (streamOf st .M).opnd with
          | some m => m.base
          | none => if n = 0#9 then st.sys.leaseRun.toNat else n.toNat
        requestArray (modStream (setLatch (endLease s1 core) core { base := run }) core .M fun x =>
          { x with arrived := true }) core run) = s2)
    (hholds : holdsLease s2 core = true) {st2 : Strand} (h2 : strandAt s2 core = some st2) :
    Completes (.mlease tk n) s s2 core .M st2 s2.grp.next := by
  have hup := upheld_idleAt .M core
  have hidle : IdleAt .M core s2 := by
    rw [← hgrant]
    split
    · exact idleAt_of_poised h
    · exact upheld_requestArray hup _ _ (upheld_modStream hup core .M
        (upheld_setLatch hup _ _ (upheld_endLease hup _ (idleAt_of_poised h))) fun _ => rfl)
  exact completes_of_ctl h hd rfl
    ((congrArg (fun s => if holdsLease s core then Eff.fin s else Eff.wait s) hgrant).trans (if_pos hholds)) hidle h2

theorem mloop_over (h : Poised s core .M 0#4 s1 st) (hs : NoSerial s core) (off : BitVec 20) (hz : st.sys.mlc = 0#32)
    {st2 : Strand} (h2 : strandAt s1 core = some st2) : Completes (.mloop off) s s1 core .M st2 s1.grp.next :=
  completes_of_freeFin (c := .free) rfl h (starts_of_noSerial hs (by simp)) rfl (if_pos hz) h2 (idleAt_of_poised h st2 h2)

theorem mloop_taken (h : Poised s core .M 0#4 s1 st) (hs : NoSerial s core) {off : BitVec 20} {p : BitVec 32}
    (hz : st.sys.mlc ≠ 0#32) (hp : checkRel s1 st .M off = .ok p) {st2 : Strand}
    (h2 : strandAt (modStrand s1 core fun st => { st with sys := { st.sys with mlc := st.sys.mlc - 1 } }) core = some st2) :
    Completes (.mloop off) s
      (modStrand s1 core fun st => { st with sys := { st.sys with mlc := st.sys.mlc - 1 } }) core .M st2 p :=
  completes_of_freeJump (c := .free) rfl h (starts_of_noSerial hs (by simp)) rfl ((if_neg hz).trans (orTrap_ok hp)) h2
    (upheld_modStrand (f := fun st => { st with sys := { st.sys with mlc := st.sys.mlc - 1 } }) (upheld_idleAt .M core) core
      (idleAt_of_poised h) (fun _ => rfl) st2 h2)

end

/-- Settles O28: each form's body, run on the machine after the tk_pop, ends the turn. -/
theorem matrixControl : Obligations.MatrixControl := by
  intro s s1 core tk st n off p
  refine ⟨fun h => ⟨fun hs _ => mnop_done h hs, fun hd _ h2 => ?_, fun hd harr hholds _ h2 => ?_, fun hd harr hop => ?_⟩,
    fun h hs => ⟨fun hz _ => mloop_over h hs off hz, fun hz hp _ => mloop_taken h hs hz hp⟩⟩
  · exact munlease_done h hd h2
  · exact mlease_granted h hd (by rw [harr]; rfl) hholds h2
  · intro run s2 hholds st2 h2
    exact mlease_granted h hd (by rw [harr, hop]; rfl) hholds h2

end Sys2Proof.Proofs.MatrixControl
end

section
/-! Regions of the accumulator store and expert counters (R188, R193, R196, R199). -/
namespace Sys2Proof.Proofs.Regions
open Sys2Proof Sys2Proof.Machine Sys2Proof.Safety Sys2Proof.Laws Sys2Proof.Proofs.Turns Sys2Proof.Proofs.ArrayTurns
  Sys2Proof.Proofs.ArrayState Sys2Proof.Proofs.MatrixControl

theorem ss_writeX (st : Strand) (e : Engine) (r : XReg) (d : DWord) : (writeX st e r d).ss = st.ss := by
  unfold writeX
  split
  · rfl
  · split <;> rfl

theorem needRegion_ok {st : Strand} {rg : Rg} {g : Region} (h : mapFind st.regions rg.toNat = some g) :
    needRegion st rg = .ok g := by rw [needRegion, h]

section
variable {s s1 : State} {core : Nat} {tk : Tk} {st : Strand} {i : Instr} {rg : Rg} {g g1 : Region}

/-- A control instruction whose checks give a new state of its region. -/
theorem completes_of_putRegion {b : State → Nat → Strand → Chk Region} (h : Poised s core .M tk s1 st) (hd : MatsDone s core)
    (hi : exec i s = issueCtl tk (fun s core st => orTrap s (b s core st) fun g1 =>
      .fin (modStrand s core fun st => putRegion st rg g1)) s)
    (hb : b s1 core st = .ok g1) : Completes i s s1 core .M (putRegion st rg g1) s1.grp.next :=
  completes_of_ctlMod (f := fun st => putRegion st rg g1) h hd hi (orTrap_ok hb) rfl

/-- A control instruction on a configured region (R193, R196). -/
theorem completes_of_regionCtl {f : Strand → Region → Chk Region} (h : Poised s core .M tk s1 st) (hd : MatsDone s core)
    (hi : exec i s = regionCtl tk rg f s) (hg : mapFind st.regions rg.toNat = some g) (hf : f st g = .ok g1) :
    Completes i s s1 core .M (putRegion st rg g1) s1.grp.next :=
  completes_of_putRegion h hd (hi.trans (regionCtl.eq_1 tk rg f s)) ((bind_of_ok (needRegion_ok hg)).trans hf)

theorem mregion_erased {xa xb : XReg} {pol : Bool} {slog : BitVec 3} {spill : BitVec 12} {a b : DWord}
    (h : Poised s core .M tk s1 st) (hd : MatsDone s core) (ha : readX st .M xa = .ok a) (hb : readX st .M xb = .ok b)
    (hz : b = 0#64) : Completes (.mregion tk rg xa xb pol slog spill) s s1 core .M
      { st with regions := mapErase st.regions rg.toNat } s1.grp.next := by
  subst hz
  refine completes_of_ctlMod (f := fun st => { st with regions := mapErase st.regions rg.toNat }) h hd rfl
    ((orTrap_ok (a := (a.toNat, 0)) ?_).trans (if_pos rfl)) rfl
  exact (bind_of_ok (readX2_of_ok ha hb)).trans rfl

theorem mregion_configured {xa xb : XReg} {pol : Bool} {slog : BitVec 3} {spill : BitVec 12} {a b : DWord}
    (h : Poised s core .M tk s1 st) (hd : MatsDone s core) (ha : readX st .M xa = .ok a) (hb : readX st .M xb = .ok b)
    (hz : b ≠ 0#64)
    (hgood : regionBad s1 core st rg.toNat a.toNat b.toNat slog.toNat (spill.toNat * 64) pol = none) {st2 : Strand}
    (h2 : strandAt (writeOutRows s1 (quadOf core) a.toNat (b.toNat * 2 ^ slog.toNat)) core = some st2) :
    let s2 := writeOutRows s1 (quadOf core) a.toNat (b.toNat * 2 ^ slog.toNat)
    Completes (.mregion tk rg xa xb pol slog spill) s s2 core .M
      (putRegion st2 rg { base := a.toNat, rows := b.toNat, slog := slog.toNat, trapPol := pol
                          spill := spill.toNat * 64 }) s2.grp.next := by
  intro s2
  have hup := upheld_idleAt .M core
  have hne : b.toNat ≠ 0 := fun h0 => hz (BitVec.eq_of_toNat_eq (by rw [h0]; rfl))
  have hidle : IdleAt .M core s2 := upheld_writeOutRows hup _ _ _ (idleAt_of_poised h)
  have hchk : (readX2 st .M xa xb >>= fun p => match (if p.2 = 0#64 then none
        else regionBad s1 core st rg.toNat p.1.toNat p.2.toNat slog.toNat (spill.toNat * 64) pol) with
      | some d => trapWith .reservedField d
      | none => .ok (p.1.toNat, p.2.toNat)) = .ok (a.toNat, b.toNat) := by
    rw [bind_of_ok (readX2_of_ok ha hb)]
    dsimp only
    rw [if_neg hz, hgood]
  exact completes_of_over (completes_of_ctl h hd rfl
    ((orTrap_ok hchk).trans ((if_neg hne).trans (congrArg Eff.fin
      (modStrand_some (s := s2) (fun st => putRegion st rg _) h2))))
    (idleAt_setStrand core hidle (hidle st2 h2)) (by rw [strandAt_setStrand, if_pos rfl]))

/-! ## Events (R196) -/

theorem completes_of_mevrd {kind : BitVec 3} {entry : BitVec 5} {xd : XReg} (h : Poised s core .M tk s1 st)
    (hd : MatsDone s core) (hg : mapFind st.regions rg.toNat = some g)
    (hk : entryOk g kind.toNat entry.toNat = .ok ()) :
    Completes (.mevrd tk xd rg kind entry) s s1 core .M
      (writeX st .M xd ((if kind = 0#3 then g.entry entry.toNat else g.status).setWidth 64)) s1.grp.next := by
  refine completes_of_ctlSet h hd rfl ((orTrap_ok (a := g) ?_).trans rfl) (ss_writeX st .M xd _)
  exact (bind_of_ok (needRegion_ok hg)).trans ((bind_of_ok hk).trans rfl)

theorem entryOk_entry {kind entry : Nat} (h : kind = 0 → entry < g.entries) : entryOk g kind entry = .ok () := by
  unfold entryOk needM
  rw [if_pos]
  by_cases hk : kind = 0
  · simp [h hk]
  · simp [hk]

theorem releases (h : Poised s core .M tk s1 st) (hd : MatsDone s core) (hg : mapFind st.regions rg.toNat = some g)
    {xa : XReg} {a : DWord} (ha : readX st .M xa = .ok a) (hr : (match findLabel g (fieldOf a 0 10) with
      | some e => freeEntry g e
      | none => g) = g1) : Completes (.mreleaseOne tk rg xa) s s1 core .M (putRegion st rg g1) s1.grp.next :=
  completes_of_putRegion h hd rfl ((bind_of_ok ha).trans ((bind_of_ok (needRegion_ok hg)).trans (congrArg Except.ok hr)))

/-! ## Expert counters (R199) -/

theorem completes_of_mcntRd {sel : BitVec 9} {xd : XReg} {v : DWord} (h : Poised s core .M tk s1 st) (hd : MatsDone s core)
    (hv : (if sel.toNat < 128 then (mapGet 0#16 st.cnt sel.toNat).setWidth 64
      else if sel = 0x100#9 then st.hsum.setWidth 64
      else d64 ((if st.cntSat then 1 else 0) + if st.hsumSat then 2 else 0)) = v) :
    Completes (.mcntRd tk xd sel) s s1 core .M (writeX st .M xd v) s1.grp.next :=
  completes_of_ctlSet h hd rfl (by rw [hv]; rfl) (ss_writeX st .M xd v)

theorem completes_of_mcntClr {sel : BitVec 9} {st' : Strand} (h : Poised s core .M tk s1 st) (hd : MatsDone s core)
    (hss : st'.ss = st.ss)
    (hst : (if sel.toNat < 128 then { st with cnt := mapErase st.cnt sel.toNat }
      else if sel = 0x100#9 then { st with
        hsum := 0
        hsumSat := false }
      else if sel = 0x101#9 then { st with cntSat := false }
      else { st with
        cnt := []
        hsum := 0
        cntSat := false
        hsumSat := false }) = st') : Completes (.mcntClr tk sel) s s1 core .M st' s1.grp.next :=
  completes_of_ctlSet h hd rfl (congrArg (fun st' => Eff.fin (setStrand s1 core st')) hst) hss

end

/-- Settles O29: each instruction's checks give the region, or the counters, that its rule names. -/
theorem regionsAndCounters : Obligations.RegionsAndCounters := by
  refine ⟨?regions, ?counters⟩
  case regions =>
    intro s s1 core tk st rg xa xb xd pol slog spill kind entry a b g h hd ha hb doneR
    refine ⟨mregion_erased h hd ha hb, fun hz hgood _ h2 => mregion_configured h hd ha hb hz hgood h2, fun hg => ?_⟩
    refine ⟨completes_of_regionCtl h hd rfl hg rfl, fun e he => releases h hd hg ha (by rw [he]),
      fun he => releases h hd hg ha (by rw [he]), fun hk hlt => ?_, fun hk => ?_, fun hk => ?_⟩ <;> subst hk
    · have hok := entryOk_entry (g := g) (kind := 0) (entry := entry.toNat) fun _ => hlt
      exact ⟨completes_of_mevrd (kind := 0#3) h hd hg hok,
        completes_of_regionCtl h hd rfl hg ((bind_of_ok hok).trans rfl)⟩
    · have hok := entryOk_entry (g := g) (kind := 1) (entry := entry.toNat) fun h => absurd h (by decide)
      exact ⟨completes_of_mevrd (kind := 1#3) h hd hg hok,
        completes_of_regionCtl h hd rfl hg ((bind_of_ok hok).trans rfl)⟩
    · have hok := entryOk_entry (g := g) (kind := 2) (entry := entry.toNat) fun h => absurd h (by decide)
      exact completes_of_regionCtl h hd rfl hg ((bind_of_ok hok).trans rfl)
  case counters =>
    intro s s1 core tk st xd sel h hd rd clr
    refine ⟨fun hlt => ?_, fun hsel => ?_, fun hsel => ?_, fun hsel => ?_⟩
    · exact ⟨completes_of_mcntRd h hd (if_pos hlt), completes_of_mcntClr h hd rfl (if_pos hlt)⟩
    all_goals subst hsel
    · exact ⟨completes_of_mcntRd h hd rfl, completes_of_mcntClr h hd rfl rfl⟩
    · exact ⟨completes_of_mcntRd h hd rfl, completes_of_mcntClr h hd rfl rfl⟩
    · exact completes_of_mcntClr h hd rfl rfl

end Sys2Proof.Proofs.Regions
end

section
/-! Weight planes and the matrix context (R184, R185, R203, R205). -/
namespace Sys2Proof.Proofs.PlanesAndImages
open Sys2Proof Sys2Proof.Machine Sys2Proof.Safety Sys2Proof.Laws Sys2Proof.Proofs.Turns Sys2Proof.Proofs.ArrayTurns
  Sys2Proof.Proofs.ArrayState Sys2Proof.Proofs.MatrixControl

/-! ## Frames -/

section
variable {s s1 s2 : State} {core : Nat} {tk : Tk} {st st2 : Strand} {i : Instr} {b : State → Nat → Strand → Eff}

/-- An array instruction that is not serial and that finishes. -/
theorem completes_of_array {c : MClass} (hc : c.onArray = true) (hns : ¬(c = .ctl ∨ c = .serial))
    (h : Poised s core .M tk s1 st) (hl : Leased s core)
    (hi : exec i s = issueOn c (fun _ => none) tk b s) (hb : b s1 core st = .fin s2) (hidle : IdleAt .M core s2)
    (h2 : strandAt s2 core = some st2) : Completes i s (spendLease s2 core) core .M st2 s2.grp.next :=
  completes_of_leasedFin hc h hl (starts_of_noSerial hl.serial hns) (fun _ _ => rfl) hi hb h2 (hidle st2 h2)

theorem completes_of_load (h : Poised s core .M tk s1 st) (hl : Leased s core) (hi : exec i s = issueLoad tk b s)
    (hb : b s1 core st = .fin s2) (hidle : IdleAt .M core s2) (h2 : strandAt s2 core = some st2) :
    Completes i s (spendLease s2 core) core .M st2 s2.grp.next :=
  completes_of_array (c := .load) rfl (by simp) h hl hi hb hidle h2

theorem completes_of_pipe {p : BitVec 2} (h : Poised s core .M tk s1 st) (hl : Leased s core)
    (hi : exec i s = issuePipe p tk b s) (hb : b s1 core st = .fin s2) (hidle : IdleAt .M core s2)
    (h2 : strandAt s2 core = some st2) : Completes i s (spendLease s2 core) core .M st2 s2.grp.next :=
  completes_of_array (c := .pipe p) rfl (by simp) h hl hi hb hidle h2

end

/-! ## Checks of ranges -/

theorem numX_ok {st : Strand} {xa : XReg} {a : DWord} (h : readX st .M xa = .ok a) : numX st xa = .ok a.toNat :=
  (bind_of_ok h).trans rfl

theorem spIn_ok {o n : Nat} (h : o + n ≤ 262144) : spIn o n = .ok () := if_neg (by omega)

theorem spAligned_ok {o k : Nat} (h : o % k = 0) : spAligned o k = .ok () := if_neg (by omega)

theorem spFresh_ok {s : State} {core : Nat} {st : Strand} {o n : Nat}
    (h : spReadable s core st.cgen st.gtrap o n = true) : spFresh s core st o n = .ok () := if_pos h

theorem rowsFresh_ok {s : State} {core : Nat} {st : Strand} {l : List RowAt} (h : ∀ x ∈ l, rowReadable s core st x = true) :
    rowsFresh s core st l = .ok () := if_pos (List.all_eq_true.2 h)

theorem needM_ok {b : Bool} {d : Nat} (h : b = true) : needM b d = .ok () := if_pos h

/-- What an instruction has captured, or captures now. -/
theorem captured_ok {st : Strand} {c : Chk MLatch} {m : MLatch}
    (h : (streamOf st .M).opnd = some m ∨ ((streamOf st .M).opnd = none ∧ c = .ok m)) : captured st c = .ok m := by
  unfold captured
  rcases h with h | ⟨h, hc⟩
  · rw [h]
  · rw [h]; exact hc

/-! ## Planes (R184, R185) -/

section
variable {s s1 s2 : State} {core : Nat} {tk : Tk} {st st2 : Strand} {cn : CReg} {xa : XReg} {pl : Bool} {a : DWord}

theorem idleAt_fin {r : Eff} {e : Engine} (hr : r = .fin s2) (h : IdleAt e core (effState r)) : IdleAt e core s2 := by
  rw [hr] at h; exact h

theorem mwload_done {m : MLatch} {c : CapBits} {base : Nat} (h : Poised s core .M tk s1 st) (hl : Leased s core)
    (ha : readX st .M xa = .ok a)
    (hm : let en := st.sys.bsgW.getLsbD 3
      (streamOf st .M).opnd = some m ∨ ((streamOf st .M).opnd = none ∧
        capCheck st cn a (32768 + if en then 512 else 0) .m = .ok (c, base) ∧
        base % 64 = 0 ∧ m = { cap := c, base := base, en := en, row := st.sys.mrow.toNat }))
    (hr : loadRows (128 - m.row) s1 core st pl (ansOf st .M) m = .fin s2) (h2 : strandAt s2 core = some st2) :
    Completes (.mwload tk cn xa pl) s (spendLease s2 core) core .M st2 s2.grp.next := by
  have hidle := idleAt_fin hr
    (upheld_loadRows (upheld_idleAt .M core) (128 - m.row) core st pl (ansOf st .M) m (idleAt_of_poised h))
  refine completes_of_load h hl rfl ((orTrap_ok (captured_ok ?_)).trans hr) hidle h2
  refine hm.imp_right fun ⟨hnone, hcap, halign, hm⟩ => ⟨hnone, ?_⟩
  rw [hm]
  exact (bind_of_ok ha).trans ((bind_of_ok hcap).trans ((bind_of_ok (spAligned_ok halign)).trans rfl))

theorem mwloadm_done {fmt : BitVec 4} (h : Poised s core .M tk s1 st) (hl : Leased s core) (ha : readX st .M xa = .ok a)
    (halign : a.toNat % 64 = 0)
    (hin : a.toNat + (imageBytes fmt.toNat + if st.sys.bsgW.getLsbD 3 then 512 else 0) ≤ 262144)
    (hfresh : spReadable (loadView s1 st pl).1 core st.cgen st.gtrap a.toNat
      (imageBytes fmt.toNat + if st.sys.bsgW.getLsbD 3 then 512 else 0) = true) :
    let v := loadView s1 st pl
    let s2 := iter 128 v.2 fun k s2 => planeRow s2 core st pl k (spImageRow v.1 core st fmt.toNat a.toNat k)
    let sc := if st.sys.bsgW.getLsbD 3 then
        ofBytes 4096 (spFill v.1 core st.cgen 0#8 (a.toNat + imageBytes fmt.toNat) 512) else unitScales
    let s3 := writePlane s2 core st pl fun p => { p with scales := sc }
    ∀ st2, strandAt s3 core = some st2 →
      Completes (.mwloadm tk fmt xa pl) s (spendLease s3 core) core .M st2 s3.grp.next := by
  intro v s2 sc s3 st2 h2
  have hup := upheld_idleAt .M core
  have hidle : IdleAt .M core s3 := upheld_writePlane hup _ _ _ _
    (upheld_iter _ _ (upheld_loadView hup _ _ (idleAt_of_poised h)) fun _ _ => upheld_planeRow hup _ _ _ _ _)
  refine completes_of_load h hl rfl ((orTrap_ok (a := a.toNat) ?_).trans rfl) hidle h2
  exact (bind_of_ok (numX_ok ha)).trans ((bind_of_ok (spAligned_ok halign)).trans ((bind_of_ok (spIn_ok hin)).trans
    ((bind_of_ok (spFresh_ok hfresh)).trans rfl)))

theorem mpswap_done (h : Poised s core .M tk s1 st) (hl : Leased s core) :
    let s2 := modQuad s1 (quadOf core) fun q => { q with
      pa := { q.pb with dirty := true }
      pb := { q.pa with dirty := true } }
    ∀ st2, strandAt s2 core = some st2 → Completes (.mpswap tk) s (spendLease s2 core) core .M st2 s2.grp.next := by
  intro s2 st2 h2
  exact completes_of_pipe (b := fun s core _ => .fin (modQuad s (quadOf core) fun q => { q with
      pa := { q.pb with dirty := true }
      pb := { q.pa with dirty := true } })) h hl rfl rfl
    (upheld_modQuad (upheld_idleAt .M core) _ _ (idleAt_of_poised h)) h2

/-! ## The image of a context (R203, R205) -/

/-- The operands of an image that has been captured, or whose checks pass. -/
theorem imageLatch_captured {m : MLatch} {c : CapBits} {base : Nat} {rt : Right} (ha : readX st .M xa = .ok a)
    (hm : (streamOf st .M).opnd = some m ∨ ((streamOf st .M).opnd = none ∧
      capCheck st cn a 0xA0000 rt = .ok (c, base) ∧ base % 64 = 0 ∧ m = { cap := c, base := base })) :
    captured st (imageLatch st cn xa rt) = .ok m := by
  refine captured_ok (hm.imp_right fun ⟨hnone, hcap, halign, hm⟩ => ⟨hnone, ?_⟩)
  rw [hm]
  exact (bind_of_ok ha).trans ((bind_of_ok hcap).trans ((bind_of_ok (spAligned_ok halign)).trans rfl))

theorem mrestore_done {m : MLatch} (h : Poised s core .M tk s1 st) (hl : Leased s core) (hd : MatsDone s core)
    (hm : captured st (imageLatch st cn xa .r) = .ok m)
    (hr : loadTabs (if m.phase = 0 then 50 - m.row else 0) s1 core st (ansOf st .M) m = .fin s2)
    (h2 : strandAt s2 core = some st2) :
    Completes (.mrestore tk cn xa) s (spendLease s2 core) core .M st2 s2.grp.next := by
  have hidle := idleAt_fin hr
    (upheld_loadTabs (upheld_idleAt .M core) _ core (ansOf st .M) m (idleAt_of_poised h) h.idle)
  exact completes_of_leasedFin (c := .serial) rfl h hl (starts_of_matsDone hd _) (fun _ _ => rfl) rfl
    ((orTrap_ok hm).trans hr) h2 (hidle st2 h2)

theorem beginStore_push (st : Strand) (e : Engine) (f : Engine) :
    (streamOf (beginStore st e).2 f).push = (streamOf st f).push :=
  samePush_setStream st (by rfl) f

theorem msave_done {m : MLatch} (h : Poised s core .M tk s1 st) (hl : Leased s core) (hd : MatsDone s core)
    (hm : captured st (imageLatch st cn xa .w) = .ok m)
    (hr : saveUnits core (beginStore st .M).1 m ((imageUnits s1 core st).filter (unitFrom m))
      (setStrand s1 core (beginStore st .M).2) = .stored s2)
    (h2 : strandAt s2 core = some st2) :
    Completes (.msave tk cn xa) s (spendLease s2 core) core .M st2 s2.grp.next := by
  have hidle : IdleAt .M core s2 := by
    have := upheld_saveUnits (upheld_idleAt .M core) core (beginStore st .M).1 m ((imageUnits s1 core st).filter (unitFrom m))
      (idleAt_setStrand core (idleAt_of_poised h) ((beginStore_push st .M .M).trans h.idle))
    rw [hr] at this
    exact this
  exact completes_of_leasedStored (c := .serial) rfl h hl (starts_of_matsDone hd _) (fun _ _ => rfl) rfl
    ((orTrap_ok hm).trans hr) h2 (hidle st2 h2)

end

/-- Settles O30: each instruction's checks pass, and the plane or the image is moved by its units. -/
theorem planesAndContexts : Obligations.PlanesAndContexts := by
  refine ⟨?planes, ?contexts⟩
  case planes =>
    intro s s1 core tk st cn xa pl fmt a c base h hl ha
    refine ⟨fun m s2 hm hr st2 h2 => mwload_done h hl ha hm hr h2, fun halign hin hfresh => mwloadm_done h hl ha halign hin hfresh,
      mpswap_done h hl⟩
  case contexts =>
    intro s s1 s3 core tk st st3 cn xa a c base m h hl hd ha h3
    exact ⟨fun hm hr => msave_done h hl hd (imageLatch_captured ha hm) hr h3,
      fun hm hr => mrestore_done h hl hd (imageLatch_captured ha hm) hr h3⟩

end Sys2Proof.Proofs.PlanesAndImages
end

section
/-! Rows of tiles multiplied by a plane, and squared distances (R173, R189 to R191, R200, R202). -/
namespace Sys2Proof.Proofs.Streaming
open Sys2Proof Sys2Proof.Machine Sys2Proof.Safety Sys2Proof.Laws Sys2Proof.Proofs.Turns Sys2Proof.Proofs.ArrayTurns
  Sys2Proof.Proofs.ArrayState Sys2Proof.Proofs.MatrixControl Sys2Proof.Proofs.PlanesAndImages Sys2Proof.Proofs.Regions

section
variable {s s1 s2 : State} {core : Nat} {tk : Tk} {st st2 : Strand} {xa xb : XReg} {pl : Bool} {a n : DWord} {rg : Rg} {g : Region}

/-- A range in bounds and current. -/
def Fresh (s1 : State) (core : Nat) (st : Strand) (o n : Nat) : Prop :=
  o + n ≤ 262144 ∧ spReadable s1 core st.cgen st.gtrap o n = true

/-- A check that is made under a condition, then what follows. -/
theorem ite_pass {α : Type} {c : Prop} [Decidable c] {x r : Chk α} {k : Unit → Chk α} (hk : k () = r)
    (hx : c → k () = r → x = r) : (if c then x else .ok () >>= k) = r := by
  by_cases h : c
  · rw [if_pos h]; exact hx h hk
  · rw [if_neg h]; exact hk

/-- A plane that may be read under the strand's mode (R182). -/
theorem planeFresh_ok {α : Type} {r : Chk α} {k : Unit → Chk α}
    (h : st.gtrap = true → planeCur (planeOf (Machine.quadAt s1 (quadOf core)) pl) core st = true) (hk : k () = r) :
    (if st.gtrap && !planeCur (planeOf (Machine.quadAt s1 (quadOf core)) pl) core st then trapOf .staleRead >>= k
      else .ok () >>= k) = r := by
  refine ite_pass hk fun hc _ => ?_
  rw [Bool.and_eq_true, Bool.not_eq_true'] at hc
  rw [h hc.1] at hc
  cases hc.2

/-! ## Rows of a tile (R173, R190) -/

/-- The rows of a tile summed into the slot that a stream has found, allocated first where it is new; none where every row is
discarded. -/
def streamInto (s1 : State) (core : Nat) (st : Strand) (rg : Rg) (g : Region) (live : List (Nat × Nat)) (label : Nat)
    (f : Nat → List (List Ex)) : Option (Nat × Bool) → State
  | none => s1
  | some (e, new) => streamRows core st g rg e f live (if new then allocSlot s1 core st rg g e label else s1)

theorem idleAt_streamInto (h : IdleAt .M core s1) (live : List (Nat × Nat)) (label : Nat) (f : Nat → List (List Ex))
    (x : Option (Nat × Bool)) : IdleAt .M core (streamInto s1 core st rg g live label f x) := by
  have hup := upheld_idleAt .M core
  unfold streamInto
  split
  · exact h
  · refine upheld_streamRows hup _ _ _ _ _ _ _ ?_
    split
    · exact upheld_allocSlot hup _ _ _ _ _ _ h
    · exact h

theorem mcplx_done {rows : BitVec 7} {live : List (Nat × Nat)} {x : Option (Nat × Bool)} (h : Poised s core .M tk s1 st)
    (hl : Leased s core) (ha : readX st .M xa = .ok a) (hg : mapFind st.regions rg.toNat = some g)
    (hpl : st.gtrap = true → planeCur (planeOf (Machine.quadAt s1 (quadOf core)) pl) core st = true)
    (hsuper : st.super = true) (hpolicy : s.msc.policy.getLsbD 1 = true)
    (hfresh : Fresh s1 core st a.toNat ((rows.toNat + 1) * 256)) (hlive : mapRows g (List.range (rows.toNat + 1)) = .ok live)
    (hx : streamSlot s1 core st g 0 live = .ok x) :
    let s2 := streamInto s1 core st rg g live 0 (fun i =>
        cplxSums (planeElems s1 core st pl 8) (unpack 16 128 (spBytes s1 core st.cgen (a.toNat + 256 * i) 256))) x
    ∀ st2, strandAt s2 core = some st2 →
      Completes (.mcplx tk rg xa rows pl) s (spendLease s2 core) core .M st2 s2.grp.next := by
  intro s2 st2 h2
  have hpre : ∀ st', strandAt s core = some st' → superPre s st' = none := fun st' h' => by
    obtain ⟨st0, hst0, -, hbody⟩ := patOf_of_poised h
    cases hst0.symm.trans h'
    have hs : (body st').super = (body st).super := congrArg Strand.super hbody.symm
    have hs : st'.super = st.super := hs
    rw [superPre, hs, hsuper, hpolicy]
    rfl
  refine completes_of_leasedFin (c := .pipe (planeBit pl)) (pre := superPre s) rfl h hl
    (starts_of_noSerial hl.serial (by simp)) hpre rfl ((orTrap_ok (a := (a.toNat, g, live, x)) ?_).trans ?_) h2
    (idleAt_streamInto (idleAt_of_poised h) live 0 _ x st2 h2)
  · exact (bind_of_ok (numX_ok ha)).trans ((bind_of_ok (needRegion_ok hg)).trans ((bind_of_ok hlive).trans
      ((bind_of_ok (spIn_ok hfresh.1)).trans ((bind_of_ok (spFresh_ok hfresh.2)).trans
      (planeFresh_ok hpl ((bind_of_ok hx).trans rfl))))))
  · cases x <;> rfl

theorem mstream_done {map : Bool} {at_ : BitVec 4} {rows : BitVec 7} {wt : BitVec 4} {live : List (Nat × Nat)}
    {x : Option (Nat × Bool)} (h : Poised s core .M tk s1 st)
    (hl : Leased s core) (ha : readX st .M xa = .ok a) (hg : mapFind st.regions rg.toNat = some g)
    (hpl : st.gtrap = true → planeCur (planeOf (Machine.quadAt s1 (quadOf core)) pl) core st = true) :
    let sz := tagW at_.toNat / 8
    let mp := a.toNat + 16384 * sz
    let ea := st.sys.bsgA.getLsbD 3 && at_ != 3#4 && at_ != 4#4
    let n := rows.toNat + 1
    (map = true → Fresh s1 core st mp 256) → Fresh s1 core st a.toNat (n * 128 * sz) →
    (ea = true → Fresh s1 core st (mp + 256) 512) →
    mapRows g (if map then (unpack 16 128 (spBytes s1 core st.cgen mp 256)).take n else List.range n) = .ok live →
    streamSlot s1 core st g (labelOf s1) live = .ok x →
    let z : ArrayIn :=
      { at_ := at_.toNat
        wt := wt.toNat
        plane := planeElems s1 core st pl wt.toNat
        sa := if ea then some ((spBytes s1 core st.cgen (mp + 256) 512).map BitVec.toNat) else none
        sw := if st.sys.bsgW.getLsbD 3 then some (planeScales s1 core st pl) else none
        ga := fieldOf st.sys.bsgA 0 3
        gw := fieldOf st.sys.bsgW 0 3 }
    let row := fun (i : Nat) => unpack (8 * sz) 128
      (spFill s1 core st.cgen (if at_ = 12#4 then 0x10#8 else 0#8) (a.toNat + i * 128 * sz) (128 * sz))
    let s2 := streamInto s1 core st rg g live (labelOf s1) (fun i => groupSums z i (row i)) x
    ∀ st2, strandAt s2 core = some st2 →
      Completes (.mstream tk rg xa map at_ rows pl wt) s (spendLease s2 core) core .M st2 s2.grp.next := by
  intro sz mp ea n hmap htile hscale hlive hx z row s2 st2 h2
  refine completes_of_pipe (p := planeBit pl) h hl rfl ((orTrap_ok (a := (a.toNat, g, live, x)) ?_).trans ?_)
    (idleAt_streamInto (idleAt_of_poised h) live (labelOf s1) _ x) h2
  · refine (bind_of_ok (numX_ok ha)).trans ?_
    refine ite_pass ((bind_of_ok (needRegion_ok hg)).trans ?_) fun hm hk =>
      (bind_of_ok (spIn_ok (hmap hm).1)).trans ((bind_of_ok (spFresh_ok (hmap hm).2)).trans hk)
    refine (bind_of_ok hlive).trans ((bind_of_ok (spIn_ok htile.1)).trans (ite_pass ?_ fun hea hk =>
      (bind_of_ok (spIn_ok (hscale hea).1)).trans hk))
    exact (bind_of_ok (spFresh_ok htile.2)).trans (ite_pass (planeFresh_ok hpl ((bind_of_ok hx).trans rfl)) fun hea hk =>
      (bind_of_ok (spFresh_ok (hscale hea).2)).trans hk)
  · cases x <;> rfl

/-! ## Distances (R200) -/

theorem mdist_done (h : Poised s core .M tk s1 st) (hl : Leased s core) (ha : readX st .M xa = .ok a)
    (hn : readX st .M xb = .ok n) (hg : mapFind st.regions rg.toNat = some g) (h1 : 1 ≤ n.toNat) (h128 : n.toNat ≤ 128)
    (hrows : n.toNat ≤ g.rows) (hslots : g.slots = 1) (hfresh : Fresh s1 core st a.toNat (256 * n.toNat))
    (hpl : st.gtrap = true → planeCur (planeOf (Machine.quadAt s1 (quadOf core)) pl) core st = true) :
    let s2 := iter n.toNat (validEntry0 s1 core rg) fun r s2 =>
      let x := accRowAdd (List.replicate 128 0)
        (distSums (planeElems s1 core st pl 8) (unpack 16 128 (spBytes s1 core st.cgen (a.toNat + 256 * r) 256)))
      raiseSlot (putRow s2 core st (rowAt g 0 r) (vPack 32 x.1)) core rg 0 x.2
    ∀ st2, strandAt s2 core = some st2 →
      Completes (.mdist tk rg xa xb pl) s (spendLease s2 core) core .M st2 s2.grp.next := by
  intro s2 st2 h2
  have hup := upheld_idleAt .M core
  have hidle : IdleAt .M core s2 := upheld_iter _ _ (upheld_validEntry0 hup _ _ (idleAt_of_poised h))
    fun _ _ hs => upheld_raiseSlot hup _ _ _ _ (upheld_putRow hup _ _ _ _ hs)
  refine completes_of_pipe (p := planeBit pl) h hl rfl ((orTrap_ok (a := (a.toNat, n.toNat, g)) ?_).trans rfl) hidle h2
  have hcount : (decide (1 ≤ n.toNat) && decide (n.toNat ≤ 128) && decide (n.toNat ≤ g.rows)) = true := by
    simp [h1, h128, hrows]
  exact (bind_of_ok (numX_ok ha)).trans ((bind_of_ok (numX_ok hn)).trans ((bind_of_ok (needRegion_ok hg)).trans
    ((bind_of_ok (needM_ok hcount)).trans ((bind_of_ok (needM_ok (beq_iff_eq.2 hslots))).trans
    ((bind_of_ok (spIn_ok hfresh.1)).trans ((bind_of_ok (spFresh_ok hfresh.2)).trans
    (planeFresh_ok hpl rfl)))))))

end

/-- Settles O31: the checks pass, and the sums go into the slot that the stream finds; where every row is discarded there is
none. -/
theorem streamingAndDistances : Obligations.StreamingAndDistances := by
  refine ⟨?rows, ?distances⟩
  case rows =>
    intro s s1 core tk st rg xa map at_ rows pl wt a g live x h hl ha hg hpl done n fresh sums
    have hsums : ∀ label f, sums label f = streamInto s1 core st rg g live label f x := fun label f => by
      cases x <;> rfl
    refine ⟨fun hmap htile hscale hlive hx => ?_, fun hsuper hpolicy hfresh hlive hx => ?_⟩
    · intro z row
      rw [hsums]
      exact mstream_done h hl ha hg hpl hmap htile hscale hlive hx
    · rw [hsums]
      exact mcplx_done h hl ha hg hpl hsuper hpolicy hfresh hlive hx
  case distances =>
    intro s s1 core tk st rg xa xb pl a n g h hl ha hn hg h1 h128 hrows hslots hin hfresh hpl
    exact mdist_done h hl ha hn hg h1 h128 hrows hslots ⟨hin, hfresh⟩ hpl

end Sys2Proof.Proofs.Streaming
end

section
/-! Draining entries, the top columns of rows, and the exchange of a region with its image (R193 to R195, R201). -/
namespace Sys2Proof.Proofs.Draining
open Sys2Proof Sys2Proof.Machine Sys2Proof.Safety Sys2Proof.Laws Sys2Proof.Proofs.Turns Sys2Proof.Proofs.ArrayTurns
  Sys2Proof.Proofs.ArrayState Sys2Proof.Proofs.MatrixControl Sys2Proof.Proofs.PlanesAndImages Sys2Proof.Proofs.Regions
  Sys2Proof.Proofs.Streaming

section
variable {s s1 s2 : State} {core : Nat} {tk : Tk} {st st2 : Strand} {xa xb xc : XReg} {a b c : DWord} {rg : Rg} {g : Region}

/-- A check of every row of a list of row numbers. -/
theorem rowsFresh_range {f : Nat → RowAt} {n : Nat} (h : ∀ r, r < n → rowReadable s core st (f r) = true) :
    rowsFresh s core st ((List.range n).map f) = .ok () :=
  rowsFresh_ok fun x hx => by
    obtain ⟨r, hr, rfl⟩ := List.mem_map.1 hx
    exact h r (List.mem_range.1 hr)

/-- A drained entry's rows and status granule, in scratchpad (R194). -/
def drained (s1 : State) (core : Nat) (st : Strand) (g : Region) (a e : Nat) : State :=
  let s2 := iter g.rows s1 fun r s2 =>
    let v := if entryV (g.entry e) then getRow s1 core st (rowAt g e r) else 0#4096
    spWriteN 9 s2 core st.cgen (a + 512 * r) (toBytes 512 v)
  spWriteN 2 s2 core st.cgen (a + 512 * g.rows) (toBytes 4 (g.entry e) ++ toBytes 4 g.status ++ List.replicate 56 0#8)

theorem drain_done {i : Instr} {free : Bool} (hi : exec i s = drain free tk rg xa xb s) (h : Poised s core .M tk s1 st)
    (hl : Leased s core) (ha : readX st .M xa = .ok a) (hb : readX st .M xb = .ok b)
    (hg : mapFind st.regions rg.toNat = some g) (halign : a.toNat % 64 = 0) (he : b.toNat < g.entries)
    (hin : a.toNat + (512 * g.rows + 64) ≤ 262144)
    (hrows : entryV (g.entry b.toNat) = true → ∀ r, r < g.rows → rowReadable s1 core st (rowAt g b.toNat r) = true)
    (hs2 : s2 = if free then modStrand (drained s1 core st g a.toNat b.toNat) core fun st =>
      putRegion st rg (freeEntry g b.toNat) else drained s1 core st g a.toNat b.toNat)
    (h2 : strandAt s2 core = some st2) : Completes i s (spendLease s2 core) core .M st2 s2.grp.next := by
  have hup := upheld_idleAt .M core
  have hidle : IdleAt .M core s2 := by
    have hd : IdleAt .M core (drained s1 core st g a.toNat b.toNat) := upheld_spWriteN hup _ _ _ _ _
      (upheld_iter _ _ (idleAt_of_poised h) fun _ _ => upheld_spWriteN hup _ _ _ _ _)
    rw [hs2]
    split
    · exact upheld_modStrand hup core hd fun _ => rfl
    · exact hd
  refine completes_of_pipe (p := 0#2) h hl (hi.trans (drain.eq_1 free tk rg xa xb s))
    ((orTrap_ok (a := (a.toNat, b.toNat, g)) ?_).trans (congrArg Eff.fin hs2.symm)) hidle h2
  refine (bind_of_ok (numX_ok ha)).trans ((bind_of_ok (numX_ok hb)).trans ((bind_of_ok (needRegion_ok hg)).trans
    ((bind_of_ok (needM_ok (decide_eq_true he))).trans ((bind_of_ok (spAligned_ok halign)).trans
    ((bind_of_ok (spIn_ok hin)).trans ?_)))))
  exact ite_pass rfl fun hv hk => (bind_of_ok (rowsFresh_range (hrows hv))).trans hk

/-- R201. -/
theorem topk_done {i : Instr} {hi : Bool} (hexec : exec i s = topk hi tk rg xa xb xc s) (h : Poised s core .M tk s1 st)
    (hl : Leased s core) (ha : readX st .M xa = .ok a) (hb : readX st .M xb = .ok b) (hc : readX st .M xc = .ok c)
    (hg : mapFind st.regions rg.toNat = some g) (halign : a.toNat % 64 = 0) (hslots : g.slots = 1)
    (hcols : 1 ≤ b.toNat ∧ b.toNat ≤ c.toNat ∧ c.toNat ≤ 128) (hin : a.toNat + 768 * g.rows ≤ 262144)
    (hrows : ∀ r, r < g.rows → rowReadable s1 core st (rowAt g 0 r) = true) :
    let s2 := iter g.rows s1 fun r s2 => spWriteN 13 s2 core st.cgen (a.toNat + 768 * r)
      (topRow hi b.toNat c.toNat (rowElems (getRow s1 core st (rowAt g 0 r))))
    ∀ st2, strandAt s2 core = some st2 → Completes i s (spendLease s2 core) core .M st2 s2.grp.next := by
  intro s2 st2 h2
  have hup := upheld_idleAt .M core
  obtain ⟨h1, hkn, hn⟩ := hcols
  refine completes_of_pipe (p := 0#2) h hl (hexec.trans (topk.eq_1 hi tk rg xa xb xc s))
    ((orTrap_ok (a := (a.toNat, b.toNat, c.toNat, g)) ?_).trans rfl)
    (upheld_iter _ _ (idleAt_of_poised h) fun _ _ => upheld_spWriteN hup _ _ _ _ _) h2
  have hcount : (decide (1 ≤ b.toNat) && decide (b.toNat ≤ c.toNat) && decide (c.toNat ≤ 128)) = true := by
    simp [h1, hkn, hn]
  exact (bind_of_ok (numX_ok ha)).trans ((bind_of_ok (numX_ok hb)).trans ((bind_of_ok (numX_ok hc)).trans
    ((bind_of_ok (needRegion_ok hg)).trans ((bind_of_ok (needM_ok (beq_iff_eq.2 hslots))).trans
    ((bind_of_ok (needM_ok hcount)).trans ((bind_of_ok (spAligned_ok halign)).trans ((bind_of_ok (spIn_ok hin)).trans
    ((bind_of_ok (rowsFresh_range hrows)).trans rfl))))))))

/-- R195. -/
theorem mswap_done (h : Poised s core .M tk s1 st) (hl : Leased s core) (ha : readX st .M xa = .ok a)
    (halign : a.toNat % 64 = 0) (hg : mapFind st.regions rg.toNat = some g) (htrap : g.trapPol = true)
    (hfresh : Fresh s1 core st a.toNat (256 + 512 * (g.rows * g.slots)))
    (hgood : swapBad g (spBytes s1 core st.cgen a.toNat 256) = none)
    (hrows : ∀ r, r < g.rows * g.slots → rowReadable s1 core st (.acc (g.base + r)) = true) :
    let h := spBytes s1 core st.cgen a.toNat 256
    let s2 := iter (g.rows * g.slots) (spWriteN 5 (modStrand s1 core fun st => putRegion st rg (swapIn g h)) core st.cgen
      a.toNat (swapHeader g)) fun r s2 =>
        let o := a.toNat + 256 + 512 * r
        putAcc (spWriteN 9 s2 core st.cgen o (toBytes 512 (accRow s1 core st (g.base + r)))) core st (g.base + r)
          (spRow s1 core st o)
    ∀ st2, strandAt s2 core = some st2 →
      Completes (.mswap tk rg xa) s (spendLease s2 core) core .M st2 s2.grp.next := by
  intro hd s2 st2 h2
  have hup := upheld_idleAt .M core
  have hidle : IdleAt .M core s2 := upheld_iter _ _
    (upheld_spWriteN hup _ _ _ _ _ (upheld_modStrand hup core (f := fun st => putRegion st rg (swapIn g hd))
      (idleAt_of_poised h) fun _ => rfl))
    fun _ _ hs => upheld_putAcc hup _ _ _ _ (upheld_spWriteN hup _ _ _ _ _ hs)
  refine completes_of_pipe (p := 0#2) h hl rfl ((orTrap_ok (a := (a.toNat, g, hd)) ?_).trans rfl) hidle h2
  refine (bind_of_ok (numX_ok ha)).trans ((bind_of_ok (spAligned_ok halign)).trans ((bind_of_ok (needRegion_ok hg)).trans
    ((bind_of_ok (spIn_ok hfresh.1)).trans ((bind_of_ok (spFresh_ok hfresh.2)).trans
    ((bind_of_ok (needM_ok htrap)).trans ?_)))))
  dsimp only
  rw [hgood]
  exact (bind_of_ok (rowsFresh_range hrows)).trans rfl

end

/-- Settles O32: the checks pass, and the rows are written where each rule names them. -/
theorem drainingAndSwap : Obligations.DrainingAndSwap := by
  refine ⟨?out, ?swap⟩
  case out =>
    intro s s1 core tk st rg xa xb xc a b c g h hl ha hb hc hg halign done e
    refine ⟨fun he hin hrows => ?_, fun hslots h1 hkn hn hin hrows => ?_⟩
    · intro s2 s3
      exact ⟨fun st2 => drain_done (free := false) rfl h hl ha hb hg halign he hin hrows rfl,
        fun st2 => drain_done (free := true) rfl h hl ha hb hg halign he hin hrows rfl⟩
    · intro top
      exact ⟨topk_done rfl h hl ha hb hc hg halign hslots ⟨h1, hkn, hn⟩ hin hrows,
        topk_done rfl h hl ha hb hc hg halign hslots ⟨h1, hkn, hn⟩ hin hrows⟩
  case swap =>
    intro s s1 core tk st rg xa a g h hl ha halign hg htrap n hin hfresh hgood hrows
    exact mswap_done h hl ha halign hg htrap ⟨hin, hfresh⟩ hgood hrows

end Sys2Proof.Proofs.Draining
end

section
/-! Routing of tokens to experts and binding of their rows (R171, R172, R174, R192, R197). -/
namespace Sys2Proof.Proofs.RoutingBinding
open Sys2Proof Sys2Proof.Machine Sys2Proof.Safety Sys2Proof.Laws Sys2Proof.Proofs.Turns Sys2Proof.Proofs.ArrayTurns
  Sys2Proof.Proofs.ArrayState Sys2Proof.Proofs.MatrixControl Sys2Proof.Proofs.PlanesAndImages Sys2Proof.Proofs.Regions
  Sys2Proof.Proofs.Streaming

theorem forM_ok {ε α : Type} {l : List α} {f : α → Except ε Unit} (h : ∀ x ∈ l, f x = .ok ()) : l.forM f = .ok () := by
  induction l with
  | nil => rfl
  | cons x r ih =>
    exact (bind_of_ok (h x List.mem_cons_self)).trans (ih fun y hy => h y (List.mem_cons_of_mem x hy))

section
variable {s s1 s2 : State} {core : Nat} {tk : Tk} {st st2 : Strand} {xa xb xc : XReg} {a b c : DWord} {rg : Rg} {g : Region}

/-- An array instruction whose last step changes its strand only. -/
theorem completes_of_pipeMod {i : Instr} {p : BitVec 2} {body : State → Nat → Strand → Eff} {f : Strand → Strand}
    (h : Poised s core .M tk s1 st) (hl : Leased s core) (hi : exec i s = issuePipe p tk body s)
    (hb : body s1 core st = .fin (modStrand s2 core f)) (hidle : IdleAt .M core s2) (hf : (f st2).ss = st2.ss)
    (h2 : strandAt s2 core = some st2) : Completes i s (spendLease s2 core) core .M (f st2) s2.grp.next := by
  have hidle' : IdleAt .M core (setStrand s2 core (f st2)) :=
    idleAt_setStrand core hidle (by rw [streamOf_ss hf]; exact hidle st2 h2)
  have hdone := completes_of_pipe (st2 := f st2) h hl hi (hb.trans (congrArg Eff.fin (modStrand_some f h2))) hidle'
    (by rw [strandAt_setStrand, if_pos rfl])
  rw [spendLease_setStrand] at hdone
  exact completes_of_over hdone

/-! ## Routing (R171, R172, R197) -/

/-- The label rows, mask rows and lists of a routing, in scratchpad. -/
def routed (s1 : State) (core : Nat) (st : Strand) (b ne : Nat) (r : List (List Nat) × List (BitVec 128) × Machine.Routing) :
    State :=
  let pad := fun (n : Nat) (l : List Nat) => packBytes 16 (l ++ List.replicate (n - l.length) 0)
  let s2 := spWriteN 66 s1 core st.cgen b (r.1.flatMap (pad 16))
  let s3 := spWriteN 34 s2 core st.cgen (b + 0x1000) (r.2.1.flatMap (toBytes 16))
  iter ne s3 fun i s =>
    let l := mapGet [] r.2.2.lists i
    spWriteN 5 s core st.cgen (b + 0x1800 + 256 * i) (pad 128 (l.length :: l))

theorem idleAt_routed (h : IdleAt .M core s1) (b ne : Nat) (r : List (List Nat) × List (BitVec 128) × Machine.Routing) :
    IdleAt .M core (routed s1 core st b ne r) := by
  have hup := upheld_idleAt .M core
  exact upheld_iter _ _ (upheld_spWriteN hup _ _ _ _ _ (upheld_spWriteN hup _ _ _ _ _ h))
    fun _ _ => upheld_spWriteN hup _ _ _ _ _

/-- A structure at a multiple of 64, in bounds and current. -/
def Granules (s1 : State) (core : Nat) (st : Strand) (o n : Nat) : Prop := o % 64 = 0 ∧ Fresh s1 core st o n

theorem mrank_done {tag : BitVec 4} {t e : BitVec 7} {k : BitVec 4} {ovx : BitVec 7} (h : Poised s core .M tk s1 st)
    (hl : Leased s core) (ha : readX st .M xa = .ok a) (hb : readX st .M xb = .ok b) (hc : readX st .M xc = .ok c) :
    let nt := t.toNat + 1
    let ne := e.toNat + 1
    let w := tagW tag.toNat
    let size := nt * ne * (w / 8)
    let g : Granule := ofBytes 512 (spBytes s1 core st.cgen c.toNat 64)
    Granules s1 core st a.toNat size → Granules s1 core st c.toNat 64 → routeBad g ovx.toNat = none → b.toNat % 64 = 0 →
    b.toNat + (0x1800 + 256 * ne) ≤ 262144 →
    let sc := (unpack w (nt * ne) (spBytes s1 core st.cgen a.toNat size)).map (valOf tag.toNat)
    let rows := (List.range nt).map fun i => (i, (sc.drop (i * ne)).take ne)
    let z : Machine.Routing := { cnt := st.cnt, hsum := st.hsum, cntSat := st.cntSat, hsumSat := st.hsumSat }
    let r := routeAll (fun x => fieldOf g (2 * x) 2) (fieldOf g 256 16) ovx.toNat (k.toNat + 1) rows z
    let s4 := routed s1 core st b.toNat ne r
    ∀ st2, strandAt s4 core = some st2 →
      Completes (.mrank tk xa xb xc tag t e k ovx) s (spendLease s4 core) core .M
        { st2 with
          cnt := r.2.2.cnt
          hsum := r.2.2.hsum
          cntSat := r.2.2.cntSat
          hsumSat := r.2.2.hsumSat } s4.grp.next := by
  intro nt ne w size g hscores htable hgood halign hin sc rows z r s4 st2 h2
  refine completes_of_pipeMod (p := 0#2) (s2 := s4) (st2 := st2) (f := fun st => { st with
      cnt := r.2.2.cnt
      hsum := r.2.2.hsum
      cntSat := r.2.2.cntSat
      hsumSat := r.2.2.hsumSat }) h hl rfl ((orTrap_ok (a := (a.toNat, b.toNat, g)) ?_).trans rfl)
    (idleAt_routed (idleAt_of_poised h) _ _ _) rfl h2
  refine (bind_of_ok (numX_ok ha)).trans ((bind_of_ok (numX_ok hb)).trans ((bind_of_ok (numX_ok hc)).trans
    ((bind_of_ok (spAligned_ok hscores.1)).trans ((bind_of_ok (spIn_ok hscores.2.1)).trans
    ((bind_of_ok (spFresh_ok hscores.2.2)).trans ((bind_of_ok (spAligned_ok htable.1)).trans
    ((bind_of_ok (spIn_ok htable.2.1)).trans ((bind_of_ok (spFresh_ok htable.2.2)).trans ?_))))))))
  dsimp only
  rw [hgood]
  exact (bind_of_ok (spAligned_ok halign)).trans ((bind_of_ok (spIn_ok hin)).trans rfl)

/-! ## Binding (R174, R192) -/

/-- A region's status with BIND_MISS. -/
def markMiss (rg : Rg) (st : Strand) : Strand :=
  match mapFind st.regions rg.toNat with
  | some x => putRegion st rg { x with status := x.status ||| 0x10#32 }
  | none => st

/-- The rows of a destination region that a binding writes (R174). -/
def bound (s1 : State) (core : Nat) (st : Strand) (rg dr : Rg) (g dg : Region) (d : BindDesc) (coef : Nat)
    (l : List (List LabelEnt)) : State :=
  ((List.range l.length).zip l).foldl (fun s2 p =>
    let r := bindRow s1 core st g d coef p.1 p.2
    let s3 := raiseSlot (putRow s2 core st (rowAt dg 0 p.1) (vPack 32 r.1)) core dr 0 r.2.1
    if r.2.2 then modStrand s3 core (markMiss rg) else s3) (validEntry0 s1 core dr)

theorem idleAt_bound (h : IdleAt .M core s1) (rg dr : Rg) (g dg : Region) (d : BindDesc) (coef : Nat)
    (l : List (List LabelEnt)) : IdleAt .M core (bound s1 core st rg dr g dg d coef l) := by
  have hup := upheld_idleAt .M core
  refine upheld_foldl _ _ (upheld_validEntry0 hup _ _ h) fun s2 p hs => ?_
  have h3 := upheld_raiseSlot hup core dr 0 (bindRow s1 core st g d coef p.1 p.2).2.1
    (upheld_putRow hup core st (rowAt dg 0 p.1) (vPack 32 (bindRow s1 core st g d coef p.1 p.2).1) hs)
  dsimp only
  split
  · exact upheld_modStrand hup core h3 fun _ => by unfold markMiss; split <;> rfl
  · exact h3

theorem mbind_done {d : BindDesc} {dg : Region} (h : Poised s core .M tk s1 st) (hl : Leased s core)
    (ha : readX st .M xa = .ok a) (hb : readX st .M xb = .ok b) (hg : mapFind st.regions rg.toNat = some g)
    (hdesc : bindDesc (ofBytes 512 (spBytes s1 core st.cgen a.toNat 64)) = .ok d)
    (hdg : mapFind st.regions d.dreg = some dg) (hne : d.dreg ≠ rg.toNat) (hslots : dg.slots = 1) (hle : g.rows ≤ dg.rows)
    (hfd : Fresh s1 core st a.toNat 64) (hft : Fresh s1 core st d.lt (32 * g.rows)) (halign : b.toNat % 4 = 0)
    (hfc : Fresh s1 core st b.toNat (64 * g.rows))
    (hreads : ∀ p, p ∈ bindScratch d (bindLabels s1 core st d.lt g.rows) → Fresh s1 core st p.1 p.2)
    (hrows : (bindReads g (bindLabels s1 core st d.lt g.rows)).all (rowReadable s1 core st) = true) :
    let s2 := bound s1 core st rg (BitVec.ofNat 4 d.dreg) g dg d b.toNat (bindLabels s1 core st d.lt g.rows)
    ∀ st2, strandAt s2 core = some st2 → Completes (.mbind tk rg xa xb) s (spendLease s2 core) core .M st2 s2.grp.next := by
  intro s2 st2 h2
  refine completes_of_pipe (p := 0#2) h hl rfl
    ((orTrap_ok (a := (b.toNat, g, dg, d, bindLabels s1 core st d.lt g.rows)) ?_).trans rfl)
    (idleAt_bound (idleAt_of_poised h) _ _ _ _ _ _ _) h2
  refine (bind_of_ok (numX_ok ha)).trans ((bind_of_ok (numX_ok hb)).trans ((bind_of_ok (spIn_ok hfd.1)).trans
    ((bind_of_ok (spFresh_ok hfd.2)).trans ((bind_of_ok (needRegion_ok hg)).trans ?_))))
  rw [hdesc]
  dsimp only
  rw [hdg]
  have hdest : (d.dreg != rg.toNat && dg.slots == 1 && decide (g.rows ≤ dg.rows)) = true := by simp [hne, hslots, hle]
  exact (bind_of_ok (needM_ok hdest)).trans ((bind_of_ok (spIn_ok hft.1)).trans ((bind_of_ok (spFresh_ok hft.2)).trans
    ((bind_of_ok (spAligned_ok halign)).trans ((bind_of_ok (spIn_ok hfc.1)).trans ((bind_of_ok (spFresh_ok hfc.2)).trans
    ((bind_of_ok (forM_ok fun p hp => spIn_ok (hreads p hp).1)).trans
    ((bind_of_ok (forM_ok fun p hp => spFresh_ok (hreads p hp).2)).trans ((bind_of_ok (if_pos hrows)).trans rfl))))))))

end

/-- Settles O33: the checks pass, and the rows, the counters and the statuses are those of the rules. -/
theorem routingAndBinding : Obligations.RoutingAndBinding := by
  refine ⟨?routing, ?binding⟩
  case routing =>
    intro s s1 core tk st xa xb xc tag t e k ovx a b c h hl ha hb hc nt ne w size fresh g hscores htable hgood halign hin
    exact mrank_done h hl ha hb hc hscores htable hgood halign hin
  case binding =>
    intro s s1 core tk st rg xa xb a b g dg d h hl ha hb hg hdesc hdg hne hslots hle fresh l hfd hft halign hfc hreads hrows
    exact mbind_done h hl ha hb hg hdesc hdg hne hslots hle hfd hft halign hfc hreads hrows

end Sys2Proof.Proofs.RoutingBinding
end

section
/-! The copy stream: copies that issue, landing zones, fences and the loop (R175, R248, R252 to R265). -/
namespace Sys2Proof.Proofs.CopyStream
open Sys2Proof Sys2Proof.Machine Sys2Proof.Safety Sys2Proof.Laws Sys2Proof.Proofs.Turns Sys2Proof.Proofs.ArrayTurns
  Sys2Proof.Proofs.ArrayState Sys2Proof.Proofs.MatrixControl Sys2Proof.Proofs.PlanesAndImages Sys2Proof.Proofs.Streaming
  Sys2Proof.Proofs.Draining Sys2Proof.Proofs.RoutingBinding

/-! ## Frames -/

section
variable {s s1 s2 : State} {core : Nat} {tk : Tk} {st st2 : Strand} {i : Instr} {ui : Bool} {op : CopyOp}
  {check : State → Nat → Strand → Chk CopyOp}

theorem idleAt_finishCopy (c : CopyRec) (h : IdleAt .C core s1) : IdleAt .C core (finishCopy s1 core c) :=
  upheld_modStrand (upheld_idleAt .C core) core h fun _ => by
    dsimp only
    split
    · split <;> rfl
    · rfl

theorem finishCopy_grp (s : State) (core : Nat) (c : CopyRec) : (finishCopy s core c).grp = s.grp := modStrand_grp s core _

/-- The strand of a copy that has issued. -/
def copying (s : State) (st : Strand) (pat : BitVec 32) (ui : Bool) (op : CopyOp) : Strand :=
  let b := beginStore st .C
  let k := (streamOf b.2 .C).know
  let g := s.grp
  { b.2 with
    sys := { b.2.sys with seq := b.2.sys.seq + 1 }
    copies := b.2.copies ++ [{ slot := nextSlot st, idx := b.1, op := op, ui := ui, know := k, addr := g.addr, gaddr := g.gaddr
                               words := g.words }]
    copyPush := b.2.copyPush ++
      [{ idx := b.1, fin := false, mask := pushOf pat, know := k, addr := g.addr, gaddr := g.gaddr, words := g.words }] }

theorem copying_idle (s : State) (pat : BitVec 32) (ui : Bool) (op : CopyOp) (h : (streamOf st .C).push = none) :
    (streamOf (copying s st pat ui op) .C).push = none := (beginStore_push st .C .C).trans h

theorem addCopy_keeps (pat : BitVec 32) (ui : Bool) (op : CopyOp) (h : IdleAt .C core s1) (hst : (streamOf st .C).push = none) :
    IdleAt .C core (addCopy s1 core st pat ui op) ∧ (addCopy s1 core st pat ui op).grp = s1.grp := by
  have hset : IdleAt .C core (setStrand s1 core (copying s1 st pat ui op)) :=
    idleAt_setStrand core h (copying_idle s1 pat ui op hst)
  unfold addCopy
  dsimp only
  split
  · exact ⟨idleAt_finishCopy _ hset, finishCopy_grp _ _ _⟩
  · exact ⟨hset, rfl⟩

/-- A copy whose checks pass issues (R248). -/
theorem completes_of_issueCopy (h : Poised s core .C tk s1 st) (hs : SlotFree s core) (hi : exec i s = issueCopy tk ui check s)
    (hc : check s1 core st = .ok op) :
    let s2 := addCopy s1 core st (patOf st .C tk) ui op
    ∀ st2, strandAt s2 core = some st2 → Completes i s s2 core .C st2 s1.grp.next := by
  intro s2 st2 h2
  obtain ⟨hidle, hgrp⟩ := addCopy_keeps (patOf st .C tk) ui op (idleAt_of_poised h) h.idle
  have ht := exec_of_issueC h hs hi
  rw [orTrap_ok hc] at ht
  exact ⟨_, ht, hgrp ▸ closeC_fin false h2 (hidle st2 h2)⟩

end

/-! ## Checks -/

section
variable {s s1 : State} {core : Nat} {st : Strand}

theorem numC_ok {xa : XReg} {a : DWord} (h : readX st .C xa = .ok a) : numC st xa = .ok a.toNat := (bind_of_ok h).trans rfl

theorem alignC_ok {l : List Nat} (h : ∀ x ∈ l, x % 64 = 0) : alignC l = .ok () :=
  if_pos (List.all_eq_true.2 fun x hx => beq_iff_eq.2 (h x hx))

/-- A capability that an end was checked under has been read. -/
theorem readC_of_endOf {sp : Bool} {cn : CReg} {off n : Nat} {rt : Right} {e : CEnd} (h : endOf st sp cn off n rt = .ok e) :
    sp = true ∨ ∃ c, readC st cn = .ok c := by
  cases sp
  · refine Or.inr ?_
    unfold endOf at h
    cases hc : readC st cn with
    | ok c => exact ⟨c, rfl⟩
    | error t =>
      rw [if_neg Bool.false_ne_true, bind_of_error hc] at h
      cases h
  · exact Or.inl rfl

theorem readCaps_ok {l : List (Bool × CReg)} (h : ∀ p ∈ l, p.1 = true ∨ ∃ c, readC st p.2 = .ok c) : readCaps st l = .ok () := by
  induction l with
  | nil => rfl
  | cons p r ih =>
    have hr := ih fun q hq => h q (List.mem_cons_of_mem p hq)
    unfold readCaps
    rcases h p List.mem_cons_self with hp | ⟨c, hc⟩
    · rw [hp]; exact hr
    · split
      · exact hr
      · exact (bind_of_ok hc).trans hr

theorem readCaps_of_ends {sps spd : Bool} {cs cd : CReg} {a b n m : Nat} {rt rt' : Right} {src dst : CEnd}
    (hsrc : endOf st sps cs a n rt = .ok src) (hdst : endOf st spd cd b m rt' = .ok dst) :
    readCaps st [(sps, cs), (spd, cd)] = .ok () :=
  readCaps_ok fun p hp => by
    rcases List.mem_cons.1 hp with rfl | hp
    · exact readC_of_endOf hsrc
    · rw [List.mem_singleton.1 hp]
      exact readC_of_endOf hdst

end

/-! ## Linear, strided and converting copies (R252 to R254) -/

section
variable {s s1 : State} {core : Nat} {tk : Tk} {st : Strand} {xa xb xc xs : XReg} {ui : Bool} {a b n d : DWord} {src dst : CEnd}

/-- The ends of a linear copy pass their checks. -/
structure EndsPass (s1 : State) (core : Nat) (st : Strand) (sps spd : Bool) (cs cd : CReg) (a b n : Nat) (src dst : CEnd) :
    Prop where
  srcEnd : endOf st sps cs a n .r = .ok src
  dstEnd : endOf st spd cd b n .w = .ok dst
  aligned : ∀ x ∈ [src.offset, dst.offset, n], x % 64 = 0
  srcIn : boundC src n = .ok ()
  dstIn : boundC dst n = .ok ()
  fresh : freshC s1 core st src n = .ok ()

theorem linear_done {i : Instr} {sps spd : Bool} {cs cd : CReg} (h : Poised s core .C tk s1 st) (hs : SlotFree s core)
    (ha : readX st .C xa = .ok a) (hb : readX st .C xb = .ok b) (hn : readX st .C xc = .ok n)
    (hi : exec i s = linear tk sps spd cs cd xa xb ui xc s)
    (he : EndsPass s1 core st sps spd cs cd a.toNat b.toNat n.toNat src dst) :
    let s2 := addCopy s1 core st (patOf st .C tk) ui (.lin src dst n.toNat)
    ∀ st2, strandAt s2 core = some st2 → Completes i s s2 core .C st2 s1.grp.next :=
  completes_of_issueCopy h hs (hi.trans (linear.eq_1 tk sps spd cs cd xa xb ui xc s))
    ((bind_of_ok (numC_ok ha)).trans ((bind_of_ok (numC_ok hb)).trans ((bind_of_ok (numC_ok hn)).trans
      ((bind_of_ok (readCaps_of_ends he.srcEnd he.dstEnd)).trans ((bind_of_ok he.srcEnd).trans ((bind_of_ok he.dstEnd).trans
      ((bind_of_ok (alignC_ok he.aligned)).trans ((bind_of_ok he.srcIn).trans ((bind_of_ok he.dstIn).trans
      ((bind_of_ok he.fresh).trans rfl))))))))))

theorem cpy2d_done {sps spd : Bool} {cs cd : CReg} {rows : BitVec 10} {ss ds : BitVec 32} {l m : List CEnd}
    (h : Poised s core .C tk s1 st) (hs : SlotFree s core) (ha : readX st .C xa = .ok a) (hb : readX st .C xb = .ok b)
    (hn : readX st .C xc = .ok n) (hd : readX st .C xs = .ok d) (hss : bits d 0 32 = ss) (hds : bits d 32 32 = ds)
    (hcaps : readCaps st [(sps, cs), (spd, cd)] = .ok ())
    (hl : (strideOffs a ss (rows.toNat + 1)).mapM (fun o => endOf st sps cs o n.toNat .r) = .ok l)
    (hm : (strideOffs b ds (rows.toNat + 1)).mapM (fun o => endOf st spd cd o n.toNat .w) = .ok m)
    (haligned : ∀ x ∈ n.toNat :: ss.toNat :: ds.toNat :: (l ++ m).map CEnd.offset, x % 64 = 0)
    (hin : ∀ e, e ∈ l ++ m → boundC e n.toNat = .ok ()) (hfresh : ∀ e, e ∈ l → freshC s1 core st e n.toNat = .ok ()) :
    let s2 := addCopy s1 core st (patOf st .C tk) ui
      (.rows (l.headD (.sp 0)) (m.headD (.sp 0)) n.toNat ss.toInt ds.toInt (rows.toNat + 1))
    ∀ st2, strandAt s2 core = some st2 →
      Completes (.cpy2d tk cd cs xa xb ui xc xs rows spd sps) s s2 core .C st2 s1.grp.next := by
  subst hss hds
  exact completes_of_issueCopy h hs rfl
    ((bind_of_ok (readX2_of_ok ha hb)).trans ((bind_of_ok (numC_ok hn)).trans ((bind_of_ok hd).trans
      ((bind_of_ok hcaps).trans ((bind_of_ok hl).trans ((bind_of_ok hm).trans ((bind_of_ok (alignC_ok haligned)).trans
      ((bind_of_ok (forM_ok hin)).trans ((bind_of_ok (forM_ok hfresh)).trans rfl)))))))))

theorem cpyCvt_done {sps spd : Bool} {cs cd : CReg} {sf df : BitVec 4} (h : Poised s core .C tk s1 st) (hs : SlotFree s core)
    (ha : readX st .C xa = .ok a) (hb : readX st .C xb = .ok b) (hn : readX st .C xc = .ok n) :
    let ns := (n.toNat * copyBits sf.toNat + 7) / 8
    let nd := (n.toNat * copyBits df.toNat + 7) / 8
    endOf st sps cs a.toNat ns .r = .ok src → endOf st spd cd b.toNat nd .w = .ok dst →
    (∀ x ∈ [src.offset, dst.offset], x % 64 = 0) → n.toNat % cvtUnit sf.toNat df.toNat = 0 →
    boundC src ns = .ok () → boundC dst nd = .ok () → freshC s1 core st src ns = .ok () →
    let z := settings s1 st
    let s2 := addCopy s1 core st (patOf st .C tk) ui (.cvt src dst n.toNat sf.toNat df.toNat z.rm z.sat z.ftz)
    ∀ st2, strandAt s2 core = some st2 →
      Completes (.cpyCvt tk cd cs xa xb ui xc df sf spd sps) s s2 core .C st2 s1.grp.next := by
  intro ns nd hsrc hdst haligned hunit hsin hdin hfresh z
  refine completes_of_issueCopy h hs rfl ((bind_of_ok (numC_ok ha)).trans ((bind_of_ok (numC_ok hb)).trans
    ((bind_of_ok (numC_ok hn)).trans ((bind_of_ok (readCaps_of_ends hsrc hdst)).trans ((bind_of_ok hsrc).trans
    ((bind_of_ok hdst).trans ((bind_of_ok (alignC_ok haligned)).trans ?_)))))))
  exact (if_pos hunit).trans ((bind_of_ok rfl).trans ((bind_of_ok hsin).trans ((bind_of_ok hdin).trans
    ((bind_of_ok hfresh).trans rfl))))

end

/-- Settles O34: the ends pass their checks, so the copy issues. -/
theorem copiesOfRanges : Obligations.CopiesOfRanges := by
  intro s s1 core tk st cd cs xa xb xc xs ui sps spd rows df sf a b n d src dst h hs ha hb hn hd done ends
  have lin : ∀ {i : Instr} {sps spd : Bool} {cs cd : CReg}, exec i s = linear tk sps spd cs cd xa xb ui xc s →
      ends sps spd cs cd → done i (.lin src dst n.toNat) :=
    fun hi ⟨hsrc, hdst, hsa, hda, hna, hsin, hdin, hf⟩ => linear_done h hs ha hb hn hi
      ⟨hsrc, hdst, by simp [hsa, hda, hna], hsin, hdin, hf⟩
  refine ⟨lin rfl, lin rfl, lin rfl, ?strided, ?converting⟩
  case strided =>
    intro ss ds k l m hcaps hl hm hna hsa hda hoff hin hfresh
    refine cpy2d_done h hs ha hb hn hd rfl rfl hcaps hl hm (fun x hx => ?_) hin hfresh
    rcases List.mem_cons.1 hx with rfl | hx
    · exact hna
    rcases List.mem_cons.1 hx with rfl | hx
    · exact hsa
    rcases List.mem_cons.1 hx with rfl | hx
    · exact hda
    obtain ⟨e, he, rfl⟩ := List.mem_map.1 hx
    exact hoff e he
  case converting =>
    intro ns nd hsrc hdst hsa hda hunit hsin hdin hf
    exact cpyCvt_done h hs ha hb hn hsrc hdst (by simp [hsa, hda]) hunit hsin hdin hf

end Sys2Proof.Proofs.CopyStream
end

section
/-! Copies of the core and by list (R175, R255 to R259), and the copy stream's control forms (R261 to R265). -/
namespace Sys2Proof.Proofs.CopiesAndZones
open Sys2Proof Sys2Proof.Machine Sys2Proof.Safety Sys2Proof.Laws Sys2Proof.Proofs.Turns Sys2Proof.Proofs.ArrayTurns
  Sys2Proof.Proofs.ArrayState Sys2Proof.Proofs.MatrixControl Sys2Proof.Proofs.PlanesAndImages Sys2Proof.Proofs.Streaming
  Sys2Proof.Proofs.Draining Sys2Proof.Proofs.RoutingBinding Sys2Proof.Proofs.CopyStream

section
variable {s s1 : State} {core : Nat} {tk : Tk} {st : Strand} {xa xb xc xs : XReg} {ui : Bool} {a b c : DWord}

/-- A copy whose checks pass issues and its stream goes on. -/
def Issues (i : Instr) (s s1 : State) (core : Nat) (tk : Tk) (st : Strand) (ui : Bool) (op : CopyOp) : Prop :=
  let s2 := addCopy s1 core st (patOf st .C tk) ui op
  ∀ st2, strandAt s2 core = some st2 → Completes i s s2 core .C st2 s1.grp.next

/-! ## Fills, accumulator copies, remote copies (R255, R256, R259) -/

theorem crewIn_ok {cr : Crew} {o n : Nat} (hcr : crewAt s1 st.crew = some cr) (h : o + n ≤ (cr.size + 1) * 262144) :
    crewIn s1 st o n = .ok () := by
  rw [crewIn, hcr]
  exact if_neg (by omega)

theorem cfill_done (h : Poised s core .C tk s1 st) (hs : SlotFree s core) (ha : readX st .C xa = .ok a)
    (hb : readX st .C xb = .ok b) (hc : readX st .C xc = .ok c) (hal : ∀ x ∈ [a.toNat, b.toNat], x % 64 = 0)
    (hin : a.toNat + b.toNat ≤ 262144) : Issues (.cfill tk xa xb xc ui) s s1 core tk st ui (.fill (.sp a.toNat) b.toNat c) :=
  completes_of_issueCopy h hs rfl ((bind_of_ok (numC_ok ha)).trans ((bind_of_ok (numC_ok hb)).trans ((bind_of_ok hc).trans
    ((bind_of_ok (alignC_ok hal)).trans ((bind_of_ok (spIn_ok hin)).trans rfl)))))

theorem cfillCw_done {cr : Crew} (h : Poised s core .C tk s1 st) (hs : SlotFree s core) (ha : readX st .C xa = .ok a)
    (hb : readX st .C xb = .ok b) (hc : readX st .C xc = .ok c) (hcr : crewAt s1 st.crew = some cr)
    (hal : ∀ x ∈ [a.toNat, b.toNat], x % 64 = 0) (hin : a.toNat + b.toNat ≤ (cr.size + 1) * 262144) :
    Issues (.cfillCw tk xa xb xc ui) s s1 core tk st ui (.fill (.cw a.toNat) b.toNat c) :=
  completes_of_issueCopy h hs rfl ((bind_of_ok (numC_ok ha)).trans ((bind_of_ok (numC_ok hb)).trans ((bind_of_ok hc).trans
    ((bind_of_ok (alignC_ok hal)).trans ((bind_of_ok (crewIn_ok hcr hin)).trans rfl)))))

theorem accCheck_ok (ha : readX st .C xa = .ok a) (hb : readX st .C xb = .ok b) (hc : readX st .C xc = .ok c)
    (h1 : 1 ≤ c.toNat) (h1024 : c.toNat ≤ 1024)
    (hrg : ∃ p, p ∈ st.regions ∧ p.2.base ≤ b.toNat ∧ b.toNat + c.toNat ≤ p.2.base + p.2.rows * p.2.slots)
    (hal : a.toNat % 64 = 0) (hin : a.toNat + 512 * c.toNat ≤ 262144) :
    accCheck st xa xb xc = .ok (a.toNat, b.toNat, c.toNat) := by
  obtain ⟨p, hp, hlo, hhi⟩ := hrg
  have hcount : (decide (1 ≤ c.toNat) && decide (c.toNat ≤ 1024)) = true := by simp [h1, h1024]
  have hregion : (st.regions.any fun p => decide (p.2.base ≤ b.toNat) &&
      decide (b.toNat + c.toNat ≤ p.2.base + p.2.rows * p.2.slots)) = true :=
    List.any_eq_true.2 ⟨p, hp, by simp [hlo, hhi]⟩
  exact (bind_of_ok (numC_ok ha)).trans ((bind_of_ok (numC_ok hb)).trans ((bind_of_ok (numC_ok hc)).trans
    ((bind_of_ok (needM_ok hcount)).trans ((bind_of_ok (needM_ok hregion)).trans
    ((bind_of_ok (alignC_ok (by simp [hal]))).trans ((bind_of_ok (spIn_ok hin)).trans rfl))))))

theorem cpyaccRd_done {x r n : Nat} (h : Poised s core .C tk s1 st) (hs : SlotFree s core)
    (hc : accCheck st xa xb xc = .ok (x, r, n)) (hrows : ∀ i, i < n → rowReadable s1 core st (.acc (r + i)) = true) :
    Issues (.cpyaccRd tk xa xb xc ui) s s1 core tk st ui (.accRd x r n) :=
  completes_of_issueCopy h hs rfl ((bind_of_ok hc).trans ((bind_of_ok (rowsFresh_range hrows)).trans rfl))

theorem cpyaccWr_done {x r n : Nat} (h : Poised s core .C tk s1 st) (hs : SlotFree s core)
    (hc : accCheck st xa xb xc = .ok (x, r, n)) (hfresh : spReadable s1 core st.cgen st.gtrap x (512 * n) = true) :
    Issues (.cpyaccWr tk xa xb xc ui) s s1 core tk st ui (.accWr x r n) :=
  completes_of_issueCopy h hs rfl ((bind_of_ok hc).trans ((bind_of_ok (spFresh_ok hfresh)).trans rfl))

theorem crcp_done {cr : Crew} {nq : BitVec 4} (h : Poised s core .C tk s1 st) (hs : SlotFree s core)
    (ha : readX st .C xa = .ok a) (hb : readX st .C xb = .ok b) (hc : readX st .C xc = .ok c)
    (hcr : crewAt s1 st.crew = some cr) (hz : zeroBits c 38 26 = true) (hlen : fieldOf c 0 20 ≤ 262144)
    (hal : ∀ x ∈ [a.toNat, b.toNat, fieldOf c 0 20], x % 64 = 0) (hctr : fieldOf c 20 18 % 8 = 0)
    (hfresh : Fresh s1 core st a.toNat (fieldOf c 0 20)) (hto : b.toNat + fieldOf c 0 20 ≤ (cr.size + 1) * 262144) :
    Issues (.crcp tk xa xb xc nq ui) s s1 core tk st ui (.rcp a.toNat b.toNat (fieldOf c 0 20) (fieldOf c 20 18) nq) := by
  have hword : (zeroBits c 38 26 && decide (fieldOf c 0 20 ≤ 262144)) = true := by
    rw [hz, decide_eq_true hlen]; rfl
  refine completes_of_issueCopy h hs rfl ((bind_of_ok (numC_ok ha)).trans ((bind_of_ok (numC_ok hb)).trans
    ((bind_of_ok hc).trans ((bind_of_ok (needM_ok hword)).trans ((bind_of_ok (alignC_ok hal)).trans ?_)))))
  exact (if_pos hctr).trans ((bind_of_ok rfl).trans ((bind_of_ok (spIn_ok hfresh.1)).trans
    ((bind_of_ok (crewIn_ok hcr hto)).trans ((bind_of_ok (spFresh_ok hfresh.2)).trans rfl))))

/-! ## Gathers, scatters, null experts (R175, R257, R258) -/

theorem cgath_done {cn : CReg} {fmt : BitVec 4} {e : BitVec 7} {cap : CapBits} {rows toks : List Nat} {t : Nat}
    (h : Poised s core .C tk s1 st) (hs : SlotFree s core)
    (hc : gathCheck s1 core st cn xa xb xc xs fmt.toNat e.toNat .r = .ok (cap, rows, t, toks))
    (hin : t + (128 * gathRow fmt.toNat + 256) ≤ 262144) :
    Issues (.cgath tk cn xa xb ui xc xs fmt e) s s1 core tk st ui (.gath cap rows t fmt.toNat toks) :=
  completes_of_issueCopy h hs rfl ((bind_of_ok hc).trans ((bind_of_ok (spIn_ok hin)).trans rfl))

theorem cscat_done {cn : CReg} {fmt : BitVec 4} {e : BitVec 7} {cap : CapBits} {rows toks : List Nat} {t : Nat}
    (h : Poised s core .C tk s1 st) (hs : SlotFree s core)
    (hc : gathCheck s1 core st cn xa xb xc xs fmt.toNat e.toNat .w = .ok (cap, rows, t, toks))
    (hfresh : Fresh s1 core st t (toks.length * gathRow fmt.toNat)) :
    Issues (.cscat tk cn xa xb ui xc xs fmt e) s s1 core tk st ui (.scat cap rows t fmt.toNat) :=
  completes_of_issueCopy h hs rfl ((bind_of_ok hc).trans ((bind_of_ok (spIn_ok hfresh.1)).trans
    ((bind_of_ok (spFresh_ok hfresh.2)).trans rfl)))

/-- The rows that a null copy reads: each token's under the identity, one under a constant (R258). -/
def nullSrc (kind src : Nat) (toks : List Nat) : List Nat :=
  if kind = 1 then toks.map fun t => src + 512 * t else if kind = 2 ∧ toks ≠ [] then [src] else []

theorem nullCopy_done {i : Instr} {kind : Nat} {toks : List Nat} (hi : exec i s = nullCopy kind tk xa xb xc ui s)
    (h : Poised s core .C tk s1 st) (hs : SlotFree s core) (ha : readX st .C xa = .ok a) (hb : readX st .C xb = .ok b)
    (hc : readX st .C xc = .ok c) (hlist : listAt s1 core st a.toNat = .ok toks)
    (hal : ∀ x ∈ [b.toNat, c.toNat], x % 64 = 0) (hbin : b.toNat ≤ 262144) (hcin : c.toNat ≤ 262144)
    (hout : ∀ t, t ∈ toks → b.toNat + 512 * t + 512 ≤ 262144)
    (hsrc : ∀ o, o ∈ nullSrc kind c.toNat toks → Fresh s1 core st o 512) :
    Issues i s s1 core tk st ui (.null kind c.toNat b.toNat toks) := by
  refine completes_of_issueCopy h hs (hi.trans (nullCopy.eq_1 kind tk xa xb xc ui s)) ((bind_of_ok (numC_ok ha)).trans
    ((bind_of_ok (numC_ok hb)).trans ((bind_of_ok (numC_ok hc)).trans ((bind_of_ok hlist).trans
    ((bind_of_ok (alignC_ok hal)).trans (ite_pass ?_ fun _ hk => (bind_of_ok (spIn_ok hbin)).trans ?_))))))
  · refine (bind_of_ok (forM_ok fun o ho => ?_)).trans ((bind_of_ok (forM_ok fun o ho => spIn_ok (hsrc o ho).1)).trans
      ((bind_of_ok (forM_ok fun o ho => spFresh_ok (hsrc o ho).2)).trans rfl))
    obtain ⟨t, ht, rfl⟩ := List.mem_map.1 ho
    exact spIn_ok (hout t ht)
  · split
    · exact hk
    · exact (bind_of_ok (spIn_ok hcin)).trans hk

end

/-- Settles O35: the checks of each copy pass, so it issues. -/
theorem copiesOfTheCoreAndByList : Obligations.CopiesOfTheCoreAndByList := by
  refine ⟨?core, ?list⟩
  case core =>
    intro s s1 core tk st xa xb xc nq ui a b c cr h hs ha hb hc hcr done top
    refine ⟨fun hal hbl hin => cfill_done h hs ha hb hc (by simp [hal, hbl]) hin,
      fun hal hbl hin => cfillCw_done h hs ha hb hc hcr (by simp [hal, hbl]) hin, ?acc, ?remote⟩
    case acc =>
      intro r n h1 h1024 hrg hal hin
      have hck := accCheck_ok ha hb hc h1 h1024 hrg hal hin
      exact ⟨cpyaccRd_done h hs hck, cpyaccWr_done h hs hck⟩
    case remote =>
      intro len ctr hz hlen hal hbl hll hctr hin hto hfresh
      exact crcp_done h hs ha hb hc hcr hz hlen (List.forall_mem_cons.2 ⟨hal, by simp only [List.forall_mem_cons]; exact ⟨hbl, hll, by simp⟩⟩) hctr ⟨hin, hfresh⟩ hto
  case list =>
    intro s s1 core tk st cn xa xb xc xs ui fmt e c b rows toks x y z h hs done row
    refine ⟨cgath_done h hs, fun hck hin hfresh => cscat_done h hs hck ⟨hin, hfresh⟩, fun hx hy hlist hal hyin hout => ?_⟩
    have hzero : readX st .C 0#5 = .ok 0#64 := rfl
    refine ⟨nullCopy_done (kind := 0) (c := 0#64) rfl h hs hx hy hzero hlist (by simp [hal]) hyin (by decide) hout
        fun o ho => absurd ho (by simp [nullSrc]), fun hz hzal hzin => ⟨fun hid => ?_, fun hconst => ?_⟩⟩
    · refine nullCopy_done (kind := 1) rfl h hs hx hy hz hlist (by simp [hal, hzal]) hyin hzin hout fun o ho => ?_
      obtain ⟨t, ht, rfl⟩ := List.mem_map.1 ho
      exact hid t ht
    · refine nullCopy_done (kind := 2) rfl h hs hx hy hz hlist (by simp [hal, hzal]) hyin hzin hout fun o ho => ?_
      unfold nullSrc at ho
      rw [if_neg (by decide)] at ho
      split at ho
      · rename_i hne
        rw [List.mem_singleton.1 ho]
        exact hconst hne.2
      · cases ho

/-! ## Control forms (R261 to R265) -/

section
variable {s s1 : State} {core : Nat} {tk : Tk} {st : Strand} {i : Instr} {b : State → Nat → Strand → Eff}

theorem closeC_of_control (h : Poised s core .C tk s1 st) (hi : exec i s = controlC tk b s) :
    exec i s = .next (closeC core (patOf st .C tk) true (b s1 core st)) := by
  obtain ⟨st0, hst0, -⟩ := actor_of_poised h
  exact exec_of_issueC (gate := fun _ => true) (b := fun _ => b) h ⟨st0, hst0, .inr rfl⟩ hi

/-- A control instruction that changes its strand only. -/
theorem completes_of_control {st' : Strand} (h : Poised s core .C tk s1 st) (hi : exec i s = controlC tk b s)
    (hb : b s1 core st = .fin (setStrand s1 core st')) (hss : st'.ss = st.ss) :
    Completes i s s1 core .C st' s1.grp.next := by
  have ht := closeC_of_control h hi
  rw [hb] at ht
  exact completes_of_over ⟨_, ht, closeC_fin true (by rw [strandAt_setStrand, if_pos rfl])
    (by rw [streamOf_ss hss]; exact h.idle)⟩

/-- A control instruction that changes nothing. -/
theorem completes_of_controlNop (h : Poised s core .C tk s1 st) (hi : exec i s = controlC tk b s)
    (hb : b s1 core st = .fin s1) : Completes i s s1 core .C st s1.grp.next := by
  have ht := closeC_of_control h hi
  rw [hb] at ht
  exact ⟨_, ht, closeC_fin true (strandAt_of_poised h) h.idle⟩

theorem cloop_taken {off : BitVec 20} {p : BitVec 32} (h : Poised s core .C 0#4 s1 st) (hz : st.sys.clc ≠ 0#32)
    (hp : checkRel s1 st .C off = .ok p) :
    Completes (.cloop off) s s1 core .C { st with sys := { st.sys with clc := st.sys.clc - 1 } } p := by
  have ht := closeC_of_control (i := .cloop off) h rfl
  dsimp only at ht
  rw [if_neg hz, orTrap_ok hp, modStrand_some _ (strandAt_of_poised h)] at ht
  exact completes_of_over ⟨_, ht, closeC_jump true (by rw [strandAt_setStrand, if_pos rfl]) h.idle⟩

variable {xa xb xc : XReg} {x y w : DWord}

theorem cdisarm_done (h : Poised s core .C tk s1 st) (hx : readX st .C xa = .ok x) (hz : zeroBits x 4 60 = true)
    (hbusy : zoneBusy s1 st x.toNat = false) :
    Completes (.cdisarm tk xa) s s1 core .C { st with zones := mapErase st.zones x.toNat } s1.grp.next := by
  refine completes_of_control h rfl ((orTrap_ok (a := x.toNat) ?_).trans (if_neg (by simp [hbusy]))) rfl
  exact (bind_of_ok hx).trans ((bind_of_ok (needM_ok hz)).trans rfl)

theorem carm_done {cn : CReg} {cap : CapBits} (h : Poised s core .C tk s1 st) (hx : readX st .C xa = .ok x)
    (hy : readX st .C xb = .ok y) (hw : readX st .C xc = .ok w) (hcap : readC st cn = .ok cap)
    (hright : hasRight cap .l = true) (hlen : y ≠ 0#64) (hz : zeroBits w 5 59 = true)
    (hfree : mapFind st.zones (fieldOf w 0 4) = none)
    (hapart : ∀ q, q ∈ st.zones → rangesMeet x.toNat y.toNat q.2.off q.2.len = false)
    (hal : ∀ n ∈ [x.toNat, y.toNat], n % 64 = 0) (hin : x.toNat + y.toNat ≤ 262144) :
    Completes (.carm tk xa xb xc cn) s s1 core .C
      { st with zones := mapPut st.zones (fieldOf w 0 4) { obj := capObj cap, ogen := capOgen cap, off := x.toNat
                                                           len := y.toNat, ec := w.getLsbD 4 } } s1.grp.next := by
  have hne : (y.toNat != 0 && zeroBits w 5 59) = true := by
    rw [hz, Bool.and_true, bne_iff_ne]
    exact fun h0 => hlen (BitVec.eq_of_toNat_eq (by rw [h0]; rfl))
  have hzone : ((mapFind st.zones (fieldOf w 0 4)).isNone &&
      !st.zones.any fun p => rangesMeet x.toNat y.toNat p.2.off p.2.len) = true := by
    rw [hfree, List.any_eq_false.2 fun q hq => by rw [hapart q hq]; exact Bool.false_ne_true]
    rfl
  have hwin : ∃ v, capWindow cap cn.toNat 0 0 .l = .ok v := by
    refine ⟨capBase cap + (0 : Int).toNat, ?_⟩
    rw [capWindow, hright, Bool.not_true, if_neg Bool.false_ne_true, if_neg (by omega)]
  obtain ⟨v, hv⟩ := hwin
  refine completes_of_control h rfl ((orTrap_ok (a := (fieldOf w 0 4, ({ obj := capObj cap, ogen := capOgen cap
                                                                         off := x.toNat, len := y.toNat
                                                                         ec := w.getLsbD 4 } : Zone))) ?_).trans rfl) rfl
  exact (bind_of_ok (numC_ok hx)).trans ((bind_of_ok (numC_ok hy)).trans ((bind_of_ok hw).trans ((bind_of_ok hcap).trans
    ((bind_of_ok (needM_ok hne)).trans ((bind_of_ok (needM_ok hzone)).trans ((bind_of_ok hv).trans
    ((bind_of_ok (alignC_ok hal)).trans ((bind_of_ok (spIn_ok hin)).trans rfl))))))))

end

/-- Settles O36: each form's condition holds, so its turn ends. -/
theorem copyControl : Obligations.CopyControl := by
  intro s s1 core tk st xa xb xc cn sc off a b c cap p done
  refine ⟨fun h ha hb hc => ⟨completes_of_controlNop (i := .cnop tk) h rfl rfl, fun hnone => ?_, fun hle => ?_,
      fun hz hbusy => cdisarm_done h ha hz hbusy, ?_⟩,
    fun h => ⟨fun hz => ?_, fun hz hp => cloop_taken h hz hp⟩⟩
  · have hempty : st.copies.isEmpty = true := by rw [hnone]; rfl
    exact ⟨completes_of_controlNop (i := .cfence tk sc) h rfl (if_pos hempty),
      completes_of_controlNop (i := .cwaitAll tk) h rfl (if_pos hempty)⟩
  · exact completes_of_controlNop (i := .cwaitLe tk xa) h rfl ((orTrap_ok (numC_ok ha)).trans (if_pos hle))
  · intro z hcap hright hlen hz hfree hapart hal hbl hin
    exact carm_done h ha hb hc hcap hright hlen hz hfree hapart (by simp [hal, hbl]) hin
  · exact completes_of_controlNop (i := .cloop off) h rfl (if_pos hz)

end Sys2Proof.Proofs.CopiesAndZones
end

section
/-! Where a queue's packet completes, the header that its head has read is forgotten (R209, R289): the statements of the packets say
that it stands. -/
namespace Sys2Proof.Proofs.PacketHeaders
open Sys2Proof Sys2Proof.Machine Sys2Proof.Safety

/-- A machine whose queue 0 of die 0 has read the header of the packet at its head and runs it. -/
def headRead : State :=
  { State.reset with
    cur := .queue 0 0
    dies := [(0, { queues := [(0, { hdr := some 0x01100000#32 })] })] }

/-- The header that queue 0 of die 0 holds after an outcome. -/
def headerOf : Out → Option (Option Word)
  | .next t => some (Machine.queueAt t 0 0).hdr
  | _ => none

/-- A packet that completes as `PacketDone` says leaves the header that its effect has left. -/
theorem headerOf_packetDone {i : Instr} {s s2 : State} {n : Nat} (h : PacketDone i s 0 0 s2 n) :
    headerOf (exec i s) = headerOf (.next (modQueue s2 0 0 fun x => { passBehind (clearPacket x) n with prevLaunch := some false })) :=
  congrArg headerOf h

theorem headRead_nop : headerOf (exec (.nop 1#8) headRead) = some none := by decide +kernel

theorem headRead_itin : headerOf (exec (.itin 0#8 0#24 0#16 0#32) headRead) = some none := by decide +kernel

/-- Refutes O37: NOP forgets the header that its queue has read, and PacketDone keeps it. -/
theorem not_queuePackets : ¬ Obligations.QueuePackets := by
  intro h
  obtain ⟨hnop, -⟩ := h headRead 0 0 rfl
  have hdone := (headRead_nop.symm.trans (headerOf_packetDone (hnop 1#8)))
  revert hdone
  decide +kernel

/-- Refutes O38: ITIN forgets the header that its queue has read, and PacketDone keeps it. -/
theorem not_launchPackets : ¬ Obligations.LaunchPackets := by
  intro h
  obtain ⟨-, hitin, -⟩ := h headRead 0 0 rfl
  have hdone := headRead_itin.symm.trans (headerOf_packetDone (hitin 0#8 0#24 0#16 0#32 (by decide +kernel)))
  revert hdone
  decide +kernel

end Sys2Proof.Proofs.PacketHeaders
end

section
/-! The entries of an itinerary (R331, R332, R338, R341, R343 to R349): each one's condition, and how its consideration ends. -/
namespace Sys2Proof.Proofs.Entries
open Sys2Proof Sys2Proof.Machine Sys2Proof.Safety Sys2Proof.Laws Sys2Proof.Proofs.StrandsAtThePort

section
variable {s s2 : State} {n : Nat} {i : Instr} {body : State → Nat → TeCtx → EEff} {e : EEff} {st : Status}

/-- An entry's turn by its meaning's answer. -/
theorem exec_of_entry (hcur : s.cur = .ctx n) (hi : exec i s = runEntry body s) (hb : body s n (ctxAt s n) = e) :
    exec i s = .next (closeEntry n e) := by
  rw [hi, runEntry, hcur]
  exact congrArg (fun e => Host.Outcome.next (closeEntry n e)) hb

/-- An entry that completes, neither ILLEGAL nor RESERVED. -/
theorem entryDone_of (hcur : s.cur = .ctx n) (hi : exec i s = runEntry body s) (hb : body s n (ctxAt s n) = .done s2 st)
    (hst : ¬(st = .illegal ∨ st = .reserved)) : EntryDone i s n s2 st :=
  (exec_of_entry hcur hi hb).trans (congrArg Host.Outcome.next (if_neg hst))

/-- A change of a context depends on what the context is. -/
theorem modCtx_congr {f g : TeCtx → TeCtx} (h : f (ctxAt s n) = g (ctxAt s n)) : modCtx s n f = modCtx s n g :=
  congrArg (fun c => { s with te := mapSet {} s.te n c }) h

theorem move_started {a : MoveArgs} (hcur : s.cur = .ctx n) (hmc : a.mc = true → (ctxAt s n).mc ≠ none)
    (hwin : openMoves (ctxAt s n) a.wclass.toNat < winOf (ctxAt s n) a.wclass.toNat) :
    exec (.move a) s = .next (passEntry (startMove s n (ctxAt s n) a) n) := by
  refine exec_of_entry (i := .move a) (e := .started (startMove s n (ctxAt s n) a)) hcur (Eq.refl (execMove a s)) ?_
  refine (if_neg ?_).trans (if_neg (Nat.not_le.2 hwin))
  rw [Bool.and_eq_true, Option.isNone_iff_eq_none]
  exact fun h => hmc h.1 h.2

theorem leaveStream_none (h : (ctxAt s n).mc = none) : leaveStream s n = s := by
  unfold leaveStream
  rw [h]

theorem mcast_done {pmask : BitVec 16} {src : BitVec 4} {grp : BitVec 8} {epoch : BitVec 32} {ackto : BitVec 16}
    (hcur : s.cur = .ctx n) (hsrc : pmask.getLsbD src.toNat = true) (hhere : pmask.getLsbD Config.package.toNat = true)
    (hovl : s.caps.ovl = true) (hmc : (ctxAt s n).mc = none) :
    EntryDone (.mcast pmask src grp epoch ackto) s n
      (modCtx s n fun c => { c with
        mc := some { epoch := epoch, pmask := pmask, src := src, grp := grp
                     ackto := if ackto = 0#16 then 4096 else ackto.toNat }
        left := c.left.filter fun e => e.1 != epoch }) .done := by
  refine entryDone_of hcur (Eq.refl (execMcast pmask src grp epoch ackto s)) ?_ (by simp)
  refine (if_neg (by simp [hsrc, hhere])).trans ?_
  dsimp only
  rw [leaveStream_none hmc]
  exact congrArg (EEff.done _) (if_pos hovl)

theorem hint_done {tier : BitVec 2} {obj : BitVec 24} {gen len : BitVec 16} {off : BitVec 40} {at_ : BitVec 24}
    (hcur : s.cur = .ctx n) (ht : tier ≠ 2#2)
    (hst : (if tier = 3#2 then Status.reserved else if tier = 1#2 ∧ s.bulkSize = 0 then .absent else .done) = st)
    (hok : ¬(st = .illegal ∨ st = .reserved)) : EntryDone (.hint tier obj gen len off at_) s n s st := by
  refine entryDone_of hcur (Eq.refl (execHint tier obj gen len off at_ s)) ?_ hok
  exact (if_neg ht).trans (congrArg (EEff.done s) hst)

theorem hint_pool {tier : BitVec 2} {obj : BitVec 24} {gen len : BitVec 16} {off : BitVec 40} {at_ : BitVec 24}
    (hcur : s.cur = .ctx n) (ht : tier = 2#2)
    (hp : hintPool s (ctxAt s n) obj.toNat gen.toNat len.toNat off at_.toNat = .done s2 .done) :
    EntryDone (.hint tier obj gen len off at_) s n s2 .done := by
  refine entryDone_of hcur (Eq.refl (execHint tier obj gen len off at_ s)) ?_ (by simp)
  exact (if_pos ht).trans hp

theorem waitw_done {cls : BitVec 4} {k : BitVec 7} (hcur : s.cur = .ctx n)
    (hle : openMoves (ctxAt s n) cls.toNat ≤ k.toNat) : EntryDone (.waitw cls k) s n s .done := by
  refine entryDone_of hcur (Eq.refl (execWaitw cls k s)) ?_ (by simp)
  exact if_pos hle

theorem gust_done {k : BitVec 7} {tick : BitVec 32} (hcur : s.cur = .ctx n)
    (hdue : effTick (ctxAt s n) tick.toNat ≤ itinTick s (ctxAt s n)) :
    EntryDone (.gust k tick) s n (modCtx s n fun c => { c with gust := k.toNat + 1 }) .done := by
  refine entryDone_of hcur (Eq.refl (execGust k tick s)) ?_ (by simp)
  exact if_pos hdue

/-- A mark stands among the context's marks, and the ends of the moves before it are then seen. -/
theorem mark_stands {sem fsem : BitVec 12} {fen : Bool} {add : BitVec 32} (hcur : s.cur = .ctx n) :
    exec (.mark sem fen fsem add) s = .next (passEntry (settleMarks ((ctxAt s n).marks.length + 1) (modCtx s n fun c => { c with
      marks := c.marks ++ [{ idx := c.cidx, order := c.cord, sem := sem.toNat, fen := fen, fsem := fsem.toNat
                             add := add }] }) n) n) := by
  refine (exec_of_entry (i := .mark sem fen fsem add) (e := .started (settleMarks ((ctxAt s n).marks.length + 1)
    (modCtx s n fun c => { c with
      marks := c.marks ++ [{ idx := (ctxAt s n).cidx, order := (ctxAt s n).cord, sem := sem.toNat, fen := fen
                             fsem := fsem.toNat, add := add }] }) n)) hcur (Eq.refl (execMark sem fen fsem add s)) rfl).trans ?_
  exact congrArg (fun t => Host.Outcome.next (passEntry (settleMarks ((ctxAt s n).marks.length + 1) t n) n)) (modCtx_congr rfl)


theorem itinEnd_ends (hcur : s.cur = .ctx n) (hmoves : (ctxAt s n).moves.all (fun m => m.status.isSome) = true)
    (hmarks : (ctxAt s n).marks = []) :
    exec .itinEnd s = .next (modCtx (entryStatus (leaveStream s n) n (ctxAt s n).cidx (ctxAt s n).cord .done 0) n
      fun c => { c with
        held := none
        active := false
        stopping := false }) := by
  refine exec_of_entry (i := .itinEnd) (e := .finish s) hcur (Eq.refl (execItinEnd s)) ?_
  refine if_pos ?_
  rw [hmoves, hmarks]
  rfl

/-! ## REPEAT (R346) -/

/-- A REPEAT of count zero that is not armed passes. -/
theorem repeat_passes {target : BitVec 11} {lvl : BitVec 2} {sadv dadv : Bool} {count step stride : BitVec 16}
    (hcur : s.cur = .ctx n) (harm : (ctxAt s n).arm.getLsbD lvl.toNat = false) (hcount : count = 0#16) :
    EntryDone (.repeatE target lvl sadv dadv count step stride) s n s .done := by
  refine entryDone_of hcur (Eq.refl (execRepeatE target lvl sadv dadv count step stride s)) ?_ (by simp)
  refine if_pos ?_
  rw [harm, hcount]
  rfl

/-- A REPEAT whose loop is to be run again, or has run out. -/
theorem repeat_runs {target : BitVec 11} {lvl : BitVec 2} {sadv dadv : Bool} {count step stride : BitVec 16}
    (hcur : s.cur = .ctx n) (hrun : (ctxAt s n).arm.getLsbD lvl.toNat = true ∨ count ≠ 0#16) :
    let c := ctxAt s n
    let l := lvl.toNat
    let rem := if c.arm.getLsbD l then mapGet 0#16 c.rem l else count
    let one : Int := stride.toInt * 65536
    exec (.repeatE target lvl sadv dadv count step stride) s = .next (closeEntry n (if rem ≠ 0#16 then
        .jump (modCtx s n fun c => addStride { c with
          arm := c.arm ||| (1#4 <<< l)
          rem := mapSet 0#16 c.rem l (rem - 1)
          dofs := c.dofs + step.setWidth 32 } sadv dadv one) target.toNat
      else
        .done (modCtx s n fun c => addStride { c with
          arm := c.arm &&& ~~~(1#4 <<< l)
          rem := mapSet 0#16 c.rem l 0#16
          dofs := c.dofs - count.setWidth 32 * step.setWidth 32 } sadv dadv (-(one * count.toNat))) .done)) := by
  intro c l rem one
  refine exec_of_entry hcur (Eq.refl (execRepeatE target lvl sadv dadv count step stride s)) ?_
  refine if_neg ?_
  rw [Bool.and_eq_true, Bool.not_eq_true', beq_iff_eq]
  rintro ⟨harm, hcount⟩
  rcases hrun with h | h
  · rw [harm] at h; cases h
  · exact h hcount

/-! ## BATCH (R348) -/

/-- Reading a batch's size changes no context. -/
theorem batchSize_te {c : TeCtx} {g : RqCtx} {b : BitVec 32} {l : List Byte} (h : batchSize s c g b = .ok l s2) :
    s2.te = s.te := by
  have hk := keeps_cpRead (enduring_units s) g.die c.ans g.space g.obj g.gen (0x44 + 16 * (b.toNat % 64)) 4 ⟨rfl, rfl⟩
  rw [show cpRead s g.die c.ans g.space g.obj g.gen (0x44 + 16 * (b.toNat % 64)) 4 = .ok l s2 from h] at hk
  exact hk.1

/-- Spending an answer leaves the context's start. -/
theorem spendEntry_t0 {u : State} (h : u.te = s.te) : (ctxAt (spendEntry u n) n).t0 = (ctxAt s n).t0 := by
  simp [spendEntry, ctxAt, modCtx, h]

/-- A batch that the context has seen: its count, and its tick as the base. -/
theorem batch_done {r : BitVec 4} {rebase sen : Bool} {sem : BitVec 12} {tref : BitVec 32} {l : List Byte}
    (hcur : s.cur = .ctx n) (hrqg : s.caps.rqg = true) (hact : (rqAt s r.toNat).active = true)
    (hlt : (rqAt s r.toNat).rels.length < ((rqAt s r.toNat).nb - (ctxAt s n).bseen).toNat)
    (hle : ((rqAt s r.toNat).nb - (ctxAt s n).bseen).toNat ≤ 64)
    (hread : (if sen then batchSize s (ctxAt s n) (rqAt s r.toNat) (ctxAt s n).bseen else .ok [] s) = .ok l s2) :
    let c := ctxAt s n
    let k : BitVec 32 := ofBytes 32 l
    EntryDone (.batch r rebase sem sen tref) s n
      (modCtx (spendEntry (if sen then semAdd s2 c.die sem.toNat (k.setWidth 64) else s2) n) n fun x => { x with
        bseen := x.bseen + 1
        tbase := if rebase then BitVec.ofInt 32 (itinTick s c) - tref else x.tbase }) .done := by
  intro c k
  refine entryDone_of hcur (Eq.refl (execBatch r rebase sem sen tref s)) ?_ (by simp)
  refine (if_neg (by simp [hrqg])).trans ((if_neg (by simp [hact])).trans
    ((if_neg (by omega)).trans ((if_neg (Nat.not_lt.2 hle)).trans ?_)))
  rw [hread]
  refine congrArg (EEff.done · Status.done) (modCtx_congr ?_)
  have hte : s2.te = s.te := by
    cases sen with
    | false => rw [show s = s2 from congrArg cpState hread]
    | true => exact batchSize_te hread
  have htick : itinTick s (ctxAt (spendEntry (if sen then semAdd s2 (ctxAt s n).die sem.toNat
      ((ofBytes 32 l : BitVec 32).setWidth 64) else s2) n) n) = itinTick s (ctxAt s n) := by
    cases sen <;> exact congrArg (fun k : Nat => (s.frame.toNat : Int) - k) (spendEntry_t0 hte)
  rw [htick]

end

/-- Settles O39: each entry's condition picks the answer of its meaning, and its consideration ends as that answer says. -/
theorem itineraryEntries : Obligations.ItineraryEntries := by
  intro s n hcur c
  refine ⟨fun a hmc hwin => move_started hcur hmc hwin,
    fun pmask src grp epoch ackto hsrc hhere hovl hmc => mcast_done hcur hsrc hhere hovl hmc,
    fun tier obj gen len off at_ s2 => ⟨fun ht => ?_, fun ht hz => ?_, fun ht hp => ?_⟩,
    fun cls k hle => waitw_done hcur hle,
    fun sem fen fsem add => mark_stands hcur, ?rep,
    fun k tick hdue => gust_done hcur hdue, ?batch,
    fun hmoves hmarks => itinEnd_ends hcur hmoves hmarks⟩
  · rcases ht with rfl | ⟨rfl, hne⟩
    · exact hint_done hcur (by decide) rfl (by simp)
    · exact hint_done hcur (by decide) (by simp [hne]) (by simp)
  · subst ht
    exact hint_done hcur (by decide) (by simp [hz]) (by simp)
  · exact hint_pool hcur ht hp
  case rep =>
    intro target lvl sadv dadv count step stride l armed rem one i
    refine ⟨fun harm hcount => ?_, fun hrun hrem => ?_, fun harm hrem => ?_⟩
    · exact repeat_passes hcur harm hcount
    · exact (repeat_runs hcur hrun).trans (congrArg (fun e => Host.Outcome.next (closeEntry n e)) (if_pos hrem))
    · exact (repeat_runs hcur (Or.inl harm)).trans
        (congrArg (fun e => Host.Outcome.next (closeEntry n e)) (if_neg (Classical.not_not.2 hrem)))
  case batch =>
    intro r rebase sem tref l s2 g ahead seen hrqg hact hlt hle
    exact ⟨batch_done (sen := false) (l := []) hcur hrqg hact hlt hle rfl,
      fun hread => batch_done (sen := true) hcur hrqg hact hlt hle hread⟩

end Sys2Proof.Proofs.Entries
end

section
/-! What the host writes: tails, queue commands (R288, R289) and the commands of crews, contexts and ports. -/
namespace Sys2Proof.Proofs.HostWrites
open Sys2Proof Sys2Proof.Machine Sys2Proof.Safety Sys2Proof.Laws

/-! ## Tails (R288) -/

section
variable {s : State} {die q : Nat} {x : Queue}

/-- A tail that is a multiple of 4 and lies within the ring leaves its queue as it is. -/
theorem checkTail_ok (hx : Machine.queueAt s die q = x) (hz : zeroBits x.tail 0 2 = true)
    (hr : (x.tail - x.head).toNat ≤ 2 ^ x.size) : checkTail s die q = s := by
  subst hx
  refine if_neg ?_
  rw [hz]
  simpa using hr

theorem writeTail_ok {tail : BitVec 32} (hx : Machine.queueAt s die q = x) (hen : x.en = true)
    (h : x.stop ≠ none ∨ (zeroBits tail 0 2 = true ∧ (tail - x.head).toNat ≤ 2 ^ x.size)) :
    writeTail s die q tail = modQueue s die q fun x => { x with tail := tail } := by
  subst hx
  refine (if_neg (by simp [hen])).trans ?_
  cases hs : (Machine.queueAt s die q).stop with
  | some c => exact if_pos rfl
  | none =>
    obtain h | ⟨hz, hr⟩ := h
    · exact absurd hs h
    · refine (if_neg (by simp)).trans ((if_neg (by rw [hz]; decide)).trans ?_)
      exact checkTail_ok (x := { Machine.queueAt s die q with tail := tail }) (by simp) hz hr

theorem ready_iff : ready s = true ↔ s.phase = 7#4 ∧ s.off = false ∧ s.pwrState ≠ 2#2 := by
  simp [ready, and_assoc]

theorem ringDoorbell_ready {tail : BitVec 32} (hready : ready s = true) (hd : die < s.caps.dies.toNat) (hq : q < 16) :
    ringDoorbell s die q tail = writeTail { s with
      pwrState := 0#2
      idleSeen := s.frame.toNat } die q tail := by
  obtain ⟨hphase, hoff, hpwr⟩ := ready_iff.1 hready
  refine (if_neg (by simp [hoff])).trans ((if_neg hpwr).trans (if_neg ?_))
  rintro (h | h | h)
  · exact h hphase
  · omega
  · omega

/-! ## The commands of a queue (R289, R302) -/

theorem retryQueue_ok (hs : (Machine.queueAt s die q).stop ≠ none) (hz : zeroBits (Machine.queueAt s die q).tail 0 2 = true)
    (hr : ((Machine.queueAt s die q).tail - (Machine.queueAt s die q).head).toNat ≤ 2 ^ (Machine.queueAt s die q).size) :
    retryQueue s die q = modQueue s die q fun x => { x with
      stop := none
      noPacket := false } := by
  refine (if_neg (by simpa using hs)).trans ?_
  exact checkTail_ok (x := { Machine.queueAt s die q with stop := none, noPacket := false }) (by simp) hz hr

theorem skipQueue_noPacket (hs : (Machine.queueAt s die q).stop ≠ none) (hn : (Machine.queueAt s die q).noPacket = true)
    (hz : zeroBits (Machine.queueAt s die q).tail 0 2 = true)
    (hr : ((Machine.queueAt s die q).tail - (Machine.queueAt s die q).head).toNat ≤ 2 ^ (Machine.queueAt s die q).size) :
    skipQueue s die q = modQueue s die q fun x => { x with
      stop := none
      noPacket := false } := by
  refine (if_neg (by simpa using hs)).trans ((if_pos hn).trans ?_)
  exact checkTail_ok (x := { Machine.queueAt s die q with stop := none, noPacket := false }) (by simp) hz hr

theorem leaveJoin_queue : Machine.queueAt (leaveJoin s die q) die q = Machine.queueAt s die q := by
  unfold leaveJoin
  split
  · rfl
  · simp [Machine.queueAt]

theorem leaveJoin_rest : rest { leaveJoin s die q with dies := s.dies } = rest s := by
  unfold leaveJoin
  split <;> rfl

theorem resetQueue_stands (h : queueIdle (Machine.queueAt s die q) = true ∨ (Machine.queueAt s die q).stop ≠ none) :
    resetQueue s die q = modQueue (leaveJoin s die q) die q fun x => { clearPacket x with
      head := 0
      tail := 0
      stack := []
      stop := none
      noPacket := false
      ahead := []
      hdr := none
      skip := 0
      prevLaunch := none } := by
  refine if_pos ?_
  rw [Bool.or_eq_true]
  exact h.imp_right fun h => by simpa [Option.isSome_iff_ne_none] using h

/-- The header of a stopped packet, as the queue has read it or as it stands in the ring. -/
theorem stoppedHeader_eq {h : Word} (hh : x.hdr = some h ∨ x.hdr = none ∧ ∃ l s2,
    queueWords s die x (queuePos s x) 1 = .ok l s2 ∧ h = ofBytes 32 l) : stoppedHeader s die x = h := by
  unfold stoppedHeader
  rcases hh with hh | ⟨hh, l, s2, hw, rfl⟩
  · rw [hh]
  · rw [hh, hw]

/-- The words of a packet that the tail covers, at depth 0 with nothing ahead. -/
theorem wordsReady_covered {n : Nat} (hstack : x.stack = []) (hahead : x.ahead = []) (hn : 4 * n ≤ (x.tail - x.head).toNat) :
    wordsReady s x n = n := by
  have hroom : roomOf s x = (x.tail - x.head).toNat := by simp [roomOf, hahead]
  unfold wordsReady
  rw [hstack, hroom]
  dsimp only
  omega

/-- A skipped packet whose words are all there is passed at once. -/
theorem passSkip_all (hx : Machine.queueAt s die q = x) (hstack : x.stack = []) (hahead : x.ahead = []) (hpos : x.skip ≠ 0)
    (hn : 4 * x.skip ≤ (x.tail - x.head).toNat) : Machine.queueAt (passSkip s die q) die q =
      { x with
        head := x.head + BitVec.ofNat 32 (4 * x.skip)
        skip := 0 } := by
  unfold passSkip
  dsimp only
  rw [hx, wordsReady_covered hstack hahead hn]
  simp [hx, hpos, passBehind, passWords, hstack, hahead]

/-- Passing words that the tail covers brings the head nearer to the tail. -/
theorem toNat_sub_passed {a b : BitVec 32} {k : Nat} (h : k ≤ (a - b).toNat) :
    (a - (b + BitVec.ofNat 32 k)).toNat ≤ (a - b).toNat := by
  have hk : k < 2 ^ 32 := Nat.lt_of_le_of_lt h (a - b).isLt
  have : a - (b + BitVec.ofNat 32 k) = (a - b) - BitVec.ofNat 32 k := by bv_omega
  rw [this, BitVec.toNat_sub_of_le]
  · exact Nat.sub_le _ _
  · rw [BitVec.le_def, BitVec.toNat_ofNat, Nat.mod_eq_of_lt hk]
    exact h

/-- What SKIP does to a queue's own state before it passes the packet's words. -/
def skipping (h : Word) (x : Queue) : Queue :=
  { x with
    stop := none
    noPacket := false
    skip := max (fieldOf h 16 8) 1
    hdr := none
    prevLaunch := some (fieldOf h 24 8 == 1 || fieldOf h 24 8 == 2) }

theorem modQueue_modQueue (f g : Queue → Queue) :
    Machine.queueAt (modQueue (modQueue s die q f) die q g) die q = g (f (Machine.queueAt s die q)) := by simp

theorem skipQueue_packet {h : Word} (hx : Machine.queueAt s die q = x) (hs : x.stop ≠ none) (hn : x.noPacket = false)
    (hstack : x.stack = []) (hahead : x.ahead = []) (hz : zeroBits x.tail 0 2 = true)
    (hr : (x.tail - x.head).toNat ≤ 2 ^ x.size)
    (hh : x.hdr = some h ∨ x.hdr = none ∧ ∃ l s2, queueWords s die x (queuePos s x) 1 = .ok l s2 ∧ h = ofBytes 32 l)
    (hcov : 4 * max (fieldOf h 16 8) 1 ≤ (x.tail - x.head).toNat) :
    Machine.queueAt (skipQueue s die q) die q = { skipping h x with
      head := x.head + BitVec.ofNat 32 (4 * max (fieldOf h 16 8) 1)
      skip := 0 } := by
  subst hx
  have hpass := passSkip_all (x := skipping h (Machine.queueAt s die q))
    (modQueue_modQueue (fun x => { x with stop := none, noPacket := false }) fun x => { x with
      skip := max (fieldOf h 16 8) 1
      hdr := none
      prevLaunch := some (fieldOf h 24 8 == 1 || fieldOf h 24 8 == 2) })
    hstack hahead (Nat.ne_of_gt (Nat.lt_of_lt_of_le Nat.one_pos (Nat.le_max_right _ 1))) hcov
  have hcheck := checkTail_ok hpass hz (Nat.le_trans (toNat_sub_passed hcov) hr)
  refine (congrArg (Machine.queueAt · die q) ?_).trans hpass
  refine (if_neg (by simpa using hs)).trans ((if_neg (by rw [hn]; decide)).trans ?_)
  rw [stoppedHeader_eq hh]
  exact hcheck

end

/-- Settles O40: a tail that is in order leaves its queue unstopped, and so do SKIP and RETRY; a skipped packet's words, all
covered by the tail, are passed at once. -/
theorem queueCommands : Obligations.QueueCommands := by
  intro s die q tail hready x go inRing
  have on : ∀ f : State → State, (Host.Outcome.next (if ready s then f s else s) : Out) = .next (f s) :=
    fun f => congrArg _ (if_pos hready)
  refine ⟨fun hd hq hen h => ?bell, fun hs hz hr => ?retry, on fun s => runQueue s die q, fun h => ?reset,
    fun hs hn hz hr => ?skip, fun h hs hn hstack hahead hz hr hh =>
      fun hcov => ⟨_, on fun s => skipQueue s die q, skipQueue_packet (x := x) rfl hs hn hstack hahead hz hr hh hcov⟩⟩
  case bell =>
    exact congrArg Host.Outcome.next ((ringDoorbell_ready hready hd hq).trans (writeTail_ok (x := x) rfl hen h))
  case retry => exact (on fun s => retryQueue s die q).trans (congrArg _ (retryQueue_ok hs hz hr))
  case reset =>
    refine ⟨_, (on fun s => resetQueue s die q).trans (congrArg _ (resetQueue_stands h)), leaveJoin_rest, ?_⟩
    rw [queueAt_modQueue, if_pos rfl, leaveJoin_queue]
    exact ⟨rfl, rfl, rfl, rfl, rfl, rfl, rfl, rfl, rfl, rfl⟩
  case skip => exact (on fun s => skipQueue s die q).trans (congrArg _ (skipQueue_noPacket hs hn hz hr))

end Sys2Proof.Proofs.HostWrites
end

section
/-! Where a context that stops has held back a shard of its stream, it acknowledges and drops the shard as it leaves the stream,
before what it holds back is forgotten (R349, R352): the statement of TEC_STOP forgets that first. -/
namespace Sys2Proof.Proofs.StoppedMembers
open Sys2Proof Sys2Proof.Machine Sys2Proof.Safety

section
variable {s : State} {n : Nat}

theorem sendFlit_shards (d : Nat) (m : OutMsg) : (sendFlit s d m).shards = s.shards := by
  unfold sendFlit
  dsimp only
  split
  · rfl
  · split <;> rfl

theorem forgetStream_shards (e : BitVec 32) : (forgetStream s e).shards = s.shards := by
  unfold forgetStream
  split <;> rfl

theorem sendAll_shards {α : Type} (d : Nat) (m : α → OutMsg) (l : List α) :
    (l.foldl (fun s a => toPackage s d (m a)) s).shards = s.shards := by
  induction l generalizing s with
  | nil => rfl
  | cons a l ih => exact ih.trans (sendFlit_shards _ _)

/-- The shards that a member still holds once its context has left the stream. -/
theorem leaveStream_shards {x : Stream2} (hmc : (ctxAt s n).mc = some x) (hovl : s.caps.ovl = true)
    (hsrc : isHere x.src = false) :
    (leaveStream s n).shards = s.shards.filter fun h =>
      !(h.epoch == x.epoch && (decide (x.next ≤ h.k) || (pendShards (ctxAt s n)).contains h.k)) := by
  unfold leaveStream
  rw [hmc]
  dsimp only
  rw [if_neg (by simp [hovl]), if_neg (by simp [hsrc]), forgetStream_shards, sendAll_shards]
  rfl

end

/-- The stream of another package, whose shard 0 the member has been sent. -/
def joined : Stream2 := { epoch := 0#32, pmask := 0#16, src := Config.package + 1#4, grp := 0#8, ackto := 0, next := 1 }

theorem joined_src : isHere joined.src = false := by
  simp [isHere, joined]

/-- A context that follows the stream and holds back the landing of its shard 0. -/
def holdsBack : TeCtx :=
  { active := true
    mc := some joined
    pend := [{ idx := 0, order := 0, ws := [], shard := some 0 }] }

/-- A running machine whose context 0 holds the shard back. -/
def memberWaits : State :=
  { State.reset with
    phase := 7#4
    caps := { State.reset.caps with ovl := true }
    te := [(0, holdsBack)]
    shards := [{ epoch := 0#32, k := 0, data := [] }] }

/-- How many shards an outcome's machine holds. -/
def shardsOf : Out → Nat
  | .next t => t.shards.length
  | _ => 0

/-- What a stop forgets of its context. -/
def stopped (c : TeCtx) : TeCtx :=
  { c with
    stopping := true
    cause := 4
    gust := 0
    held := c.held.filter fun ws => !isMove ws
    pend := [] }

theorem stop_drops : shardsOf (exec (.tecStop 0) memberWaits) = 0 := by
  have h : (leaveStream memberWaits 0).shards = [] := leaveStream_shards (x := joined) rfl rfl joined_src
  exact congrArg List.length h

theorem forgotten_stays : (leaveStream (modCtx memberWaits 0 stopped) 0).shards.length = 1 := by
  rw [leaveStream_shards (x := joined) rfl rfl joined_src]
  rfl

/-- Refutes O41: a member that stops while it holds a shard back drops the shard; forgotten first, the shard would stay. -/
theorem not_hostCommands : ¬ Obligations.HostCommands := by
  intro h
  obtain ⟨-, -, -, hstop, -⟩ := h memberWaits 0 0 0 (by decide +kernel)
  have hleft : 0 = 1 := stop_drops.symm.trans ((congrArg shardsOf (hstop rfl rfl)).trans forgotten_stays)
  cases hleft

end Sys2Proof.Proofs.StoppedMembers
end

section
/-! The registers of BAR 0 at their offsets (R288, R381, R388 to R390, R393). -/
namespace Sys2Proof.Proofs.RegisterMap
open Sys2Proof Sys2Proof.Machine Sys2Proof.Safety Sys2Proof.Laws Sys2Proof.Proofs.HostWrites

section
variable {s : State} {die q n off o r : Nat} {v : BitVec 64}

/-! ## A running package -/

theorem registerWrite_ready (hready : ready s = true) : exec (.registerWrite off v) s = .next (writeBar0 s off v) :=
  congrArg Host.Outcome.next (if_pos hready)

theorem readBar0_ready (hready : ready s = true) : readBar0 s off = readRegs s off := by
  obtain ⟨hphase, -, hpwr⟩ := ready_iff.1 hready
  exact (if_neg (by simp [hphase])).trans (if_neg hpwr)

theorem registerWrite_asleep (hphase : s.phase ≠ 7#4) (hpwr : s.pwrState ≠ 2#2) : exec (.registerWrite off v) s = .next s := by
  refine congrArg Host.Outcome.next ((if_neg ?_).trans (if_neg fun h => hpwr h.2))
  exact fun h => hphase (ready_iff.1 h).1

/-! ## A die's megabyte -/

/-- The block of a die holds the offsets of its megabyte. -/
theorem dieBlock_place (hdie : die < 4) (ho : o < 0x100000) (f : Nat → Nat → α) :
    f ((0x100000 * (die + 1) + o - 0x100000) / 0x100000) ((0x100000 * (die + 1) + o) % 0x100000) = f die o := by
  rw [show (0x100000 * (die + 1) + o - 0x100000) / 0x100000 = die by omega,
    show (0x100000 * (die + 1) + o) % 0x100000 = o by omega]

theorem writeBar0_die (hdie : die < 4) (ho : o < 0x100000) :
    writeBar0 s (0x100000 * (die + 1) + o) v = writeDieBlock s die o v :=
  (if_neg (by omega)).trans ((if_pos (by omega)).trans (dieBlock_place hdie ho fun d o => writeDieBlock s d o v))

theorem readRegs_die (hdie : die < 4) (ho : o < 0x100000) :
    readRegs s (0x100000 * (die + 1) + o) = readDieBlock s die o :=
  (if_neg (by omega)).trans ((if_pos (by omega)).trans (dieBlock_place hdie ho fun d o => readDieBlock s d o))

section
variable (hdie : die < s.caps.dies.toNat)
include hdie

theorem writeDieBlock_cp (ho : o < 0x100) (hevict : o ≠ 0x38) (hresume : o ≠ 0x40) :
    writeDieBlock s die o v = writeCpReg s die o v :=
  (if_neg (Nat.not_le.2 hdie)).trans ((if_neg hevict).trans ((if_neg hresume).trans (if_pos ho)))

theorem writeDieBlock_queue (hq : q < 16) (hr : r < 0x40) :
    writeDieBlock s die (0x1000 + 0x40 * q + r) v = writeQueueReg s die q r v := by
  refine (if_neg (Nat.not_le.2 hdie)).trans ((if_neg (by omega)).trans ((if_neg (by omega)).trans
    ((if_neg (by omega)).trans ((if_pos (by omega)).trans ?_))))
  rw [show (0x1000 + 0x40 * q + r - 0x1000) / 0x40 = q by omega, show (0x1000 + 0x40 * q + r) % 0x40 = r by omega]

theorem writeDieBlock_die (ho : o < 0x100) : writeDieBlock s die (0x40000 + o) v = writeDieReg s die o v := by
  refine (if_neg (Nat.not_le.2 hdie)).trans ((if_neg (by omega)).trans ((if_neg (by omega)).trans
    ((if_neg (by omega)).trans ((if_neg (by omega)).trans ((if_pos (by omega)).trans ?_)))))
  rw [Nat.add_sub_cancel_left]

theorem readDieBlock_cp (ho : o < 0x100) : readDieBlock s die o = readCpReg (dieAt s die) o :=
  (if_neg (Nat.not_le.2 hdie)).trans (if_pos ho)

theorem readDieBlock_queue (hq : q < 16) (hr : r < 0x40) :
    readDieBlock s die (0x1000 + 0x40 * q + r) = readQueueReg s (Machine.queueAt s die q) r := by
  refine (if_neg (Nat.not_le.2 hdie)).trans ((if_neg (by omega)).trans ((if_pos (by omega)).trans ?_))
  rw [show (0x1000 + 0x40 * q + r - 0x1000) / 0x40 = q by omega, show (0x1000 + 0x40 * q + r) % 0x40 = r by omega]

theorem readDieBlock_die (ho : o < 0x100) : readDieBlock s die (0x40000 + o) = readDieReg (dieAt s die) o := by
  refine (if_neg (Nat.not_le.2 hdie)).trans ((if_neg (by omega)).trans ((if_neg (by omega)).trans ((if_pos (by omega)).trans ?_)))
  rw [Nat.add_sub_cancel_left]

end

/-! ## The blocks above the dies -/

theorem writeBar0_te (hn : n < 64) (hr : r < 0x80) : writeBar0 s (0x501000 + 0x80 * n + r) v = writeTeReg s n r v := by
  refine (if_neg (by omega)).trans ((if_neg (by omega)).trans ((if_pos (by omega)).trans ((if_pos (by omega)).trans ?_)))
  rw [show (0x501000 + 0x80 * n + r - 0x500000 - 0x1000) / 0x80 = n by omega,
    show (0x501000 + 0x80 * n + r - 0x500000) % 0x80 = r by omega]

theorem readRegs_te (hn : n < 64) (hr : r < 0x80) : readRegs s (0x501000 + 0x80 * n + r) = readTeReg (ctxAt s n) r := by
  refine (if_neg (by omega)).trans ((if_neg (by omega)).trans ((if_pos (by omega)).trans ((if_neg (by omega)).trans
    ((if_pos (by omega)).trans ?_))))
  rw [show (0x501000 + 0x80 * n + r - 0x500000 - 0x1000) / 0x80 = n by omega,
    show (0x501000 + 0x80 * n + r - 0x500000) % 0x80 = r by omega]

theorem writeBar0_space (hn : n < 512) : writeBar0 s (0x510000 + 8 * n) v = writeSpace s n v := by
  refine (if_neg (by omega)).trans ((if_neg (by omega)).trans ((if_neg (by omega)).trans ((if_pos (by omega)).trans ?_)))
  rw [show (0x510000 + 8 * n - 0x510000) / 8 = n by omega]

theorem writeBar0_msix (hn : n < 4096) : writeBar0 s (0x530000 + 8 * n) v = writeMsix s n v := by
  refine (if_neg (by omega)).trans ((if_neg (by omega)).trans ((if_neg (by omega)).trans ((if_neg (by omega)).trans
    ((if_neg (by omega)).trans ((if_neg (by omega)).trans ((if_pos (by omega)).trans ?_))))))
  rw [show (0x530000 + 8 * n - 0x530000) / 8 = n by omega]

theorem readRegs_msix (hn : n < 4096) : readRegs s (0x530000 + 8 * n) = msixWord s n := by
  refine (if_neg (by omega)).trans ((if_neg (by omega)).trans ((if_neg (by omega)).trans ((if_neg (by omega)).trans
    ((if_neg (by omega)).trans ((if_neg (by omega)).trans ((if_pos (by omega)).trans ?_))))))
  rw [show (0x530000 + 8 * n - 0x530000) / 8 = n by omega]

theorem readRegs_pba (hn : n < 32) : readRegs s (0x538000 + 8 * n) = mapGet 0#64 s.pba n := by
  refine (if_neg (by omega)).trans ((if_neg (by omega)).trans ((if_neg (by omega)).trans ((if_neg (by omega)).trans
    ((if_neg (by omega)).trans ((if_neg (by omega)).trans ((if_neg (by omega)).trans ((if_pos (by omega)).trans ?_)))))))
  rw [show (0x538000 + 8 * n - 0x538000) / 8 = n by omega]

/-- Below the dies and above the MSI-X table nothing takes a write. -/
theorem writeBar0_none (h : (0x100 ≤ off ∧ off < 0x100000) ∨ 0x538000 ≤ off) : writeBar0 s off v = s :=
  (if_neg (by omega)).trans ((if_neg (by omega)).trans ((if_neg (by omega)).trans ((if_neg (by omega)).trans
    ((if_neg (by omega)).trans ((if_neg (by omega)).trans (if_neg (by omega)))))))

theorem readRegs_none (h : (0x100 ≤ off ∧ off < 0x100000) ∨ 0x538100 ≤ off) : readRegs s off = 0#64 :=
  (if_neg (by omega)).trans ((if_neg (by omega)).trans ((if_neg (by omega)).trans ((if_neg (by omega)).trans
    ((if_neg (by omega)).trans ((if_neg (by omega)).trans ((if_neg (by omega)).trans (if_neg (by omega))))))))

/-! ## The package block, a tail in STANDBY -/

theorem writeBar0_package (ho : off < 0x100) : writeBar0 s off v = writePackageReg s off v := if_pos ho

theorem readRegs_package (ho : off < 0x100) : readRegs s off = readPackageReg s off := if_pos ho

theorem tailAt_queue (hdie : die < 4) (hq : q < 16) : tailAt (0x100000 * (die + 1) + 0x1010 + 0x40 * q) = some (die, q) := by
  unfold tailAt
  dsimp only
  rw [if_pos (by omega), show (0x100000 * (die + 1) + 0x1010 + 0x40 * q - 0x100000) / 0x100000 = die by omega,
    show ((0x100000 * (die + 1) + 0x1010 + 0x40 * q - 0x100000) % 0x100000 - 0x1000) / 0x40 = q by omega]

theorem registerWrite_standby (hoff : s.off = false) (hpwr : s.pwrState = 2#2) (hdie : die < 4) (hq : q < 16) :
    exec (.registerWrite (0x100000 * (die + 1) + 0x1010 + 0x40 * q) v) s =
      .next { s with tails := s.tails ++ [(die, q, v.setWidth 32)] } := by
  refine congrArg Host.Outcome.next ((if_neg ?_).trans ((if_pos ⟨hoff, hpwr⟩).trans ?_))
  · exact fun h => (ready_iff.1 h).2.2 hpwr
  · rw [writeStandby, tailAt_queue hdie hq]
    exact (if_neg (by simp [hoff])).trans (if_pos hpwr)

/-! ## What the statement names -/

section
variable (hready : ready s = true)
include hready

theorem write_package (ho : off < 0x100) : exec (.registerWrite off v) s = .next (writePackageReg s off v) :=
  (registerWrite_ready hready).trans (congrArg _ (writeBar0_package ho))

theorem write_queue (hdie : die < s.caps.dies.toNat) (hdie4 : die < 4) (hq : q < 16) (hr : r < 0x40)
    (hoff : off = 0x100000 * (die + 1) + (0x1000 + 0x40 * q + r)) :
    exec (.registerWrite off v) s = .next (writeQueueReg s die q r v) := by
  rw [hoff, registerWrite_ready hready, writeBar0_die hdie4 (by omega), writeDieBlock_queue hdie hq hr]

theorem write_cp (hdie : die < s.caps.dies.toNat) (hdie4 : die < 4) (ho : o < 0x100) (hevict : o ≠ 0x38)
    (hresume : o ≠ 0x40) :
    exec (.registerWrite (0x100000 * (die + 1) + o) v) s = .next (writeCpReg s die o v) := by
  rw [registerWrite_ready hready, writeBar0_die hdie4 (by omega), writeDieBlock_cp hdie ho hevict hresume]

theorem write_die (hdie : die < s.caps.dies.toNat) (hdie4 : die < 4) (ho : o < 0x100) :
    exec (.registerWrite (0x100000 * (die + 1) + (0x40000 + o)) v) s = .next (writeDieReg s die o v) := by
  rw [registerWrite_ready hready, writeBar0_die hdie4 (by omega), writeDieBlock_die hdie ho]

theorem read_cp (hdie : die < s.caps.dies.toNat) (hdie4 : die < 4) (ho : o < 0x100) :
    readBar0 s (0x100000 * (die + 1) + o) = readCpReg (dieAt s die) o := by
  rw [readBar0_ready hready, readRegs_die hdie4 (by omega), readDieBlock_cp hdie ho]

theorem read_die (hdie : die < s.caps.dies.toNat) (hdie4 : die < 4) (ho : o < 0x100) :
    readBar0 s (0x100000 * (die + 1) + (0x40000 + o)) = readDieReg (dieAt s die) o := by
  rw [readBar0_ready hready, readRegs_die hdie4 (by omega), readDieBlock_die hdie ho]

theorem read_queue (hdie : die < s.caps.dies.toNat) (hdie4 : die < 4) (hq : q < 16) (hr : r < 0x40)
    (hoff : off = 0x100000 * (die + 1) + (0x1000 + 0x40 * q + r)) :
    readBar0 s off = readQueueReg s (Machine.queueAt s die q) r := by
  rw [hoff, readBar0_ready hready, readRegs_die hdie4 (by omega), readDieBlock_queue hdie hq hr]

theorem read_te (hn : n < 64) : readBar0 s (0x501048 + 0x80 * n) = 0#64 := by
  rw [show 0x501048 + 0x80 * n = 0x501000 + 0x80 * n + 0x48 by omega, readBar0_ready hready, readRegs_te hn (by omega)]
  rfl

theorem write_cap (hlow : 300 ≤ fieldOf v 0 16) (hhigh : fieldOf v 0 16 ≤ s.caps.variant.watts) :
    exec (.registerWrite 0x28 v) s = .next { s with pwrCap := bits v 0 16 } :=
  (write_package hready (by decide)).trans (congrArg Host.Outcome.next (if_neg (by omega)))

theorem write_lateness (hn : n < 64) (hle : fieldOf v 0 16 ≤ fieldOf v 16 16) :
    exec (.registerWrite (0x501000 + 0x80 * n) v) s = .next (modCtx s n fun c => { c with
      lateHi := bits v 16 16
      lateLo := bits v 0 16 }) := by
  rw [registerWrite_ready hready]
  exact congrArg Host.Outcome.next ((writeBar0_te (r := 0) hn (by decide)).trans (if_neg (Nat.not_lt.2 hle)))

theorem write_space (hn : n < 512) (hk : v.getLsbD 63 = true → fieldOf v 56 6 ≠ 0) :
    exec (.registerWrite (0x510000 + 8 * n) v) s = .next { s with
      spaces := mapSet {} s.spaces n { v := v.getLsbD 63, consent := v.getLsbD 62, kdom := bits v 56 6, obt := fieldOf v 6 46 * 64 } } := by
  rw [registerWrite_ready hready, writeBar0_space hn]
  exact congrArg Host.Outcome.next (if_neg fun h => hk h.1 h.2)

theorem write_msix (hn : n < 4096) :
    exec (.registerWrite (0x530000 + 8 * n) v) s = .next (writeMsix s n v) := by
  rw [registerWrite_ready hready, writeBar0_msix hn]

theorem write_none (h : (0x100 ≤ off ∧ off < 0x100000) ∨ 0x538000 ≤ off) : exec (.registerWrite off v) s = .next s := by
  rw [registerWrite_ready hready, writeBar0_none h]

end

theorem writeMsix_eq : writeMsix s n v = if msixPending { s with msix := mapSet (msixReset n) s.msix n v } (n / 2) = true ∧
      msixMasked { s with msix := mapSet (msixReset n) s.msix n v } (n / 2) = false
    then emit (setPending { s with msix := mapSet (msixReset n) s.msix n v } (n / 2) false) (.msi (n / 2))
    else { s with msix := mapSet (msixReset n) s.msix n v } := by
  unfold writeMsix
  simp only [Bool.and_eq_true, Bool.not_eq_true']

theorem setWidth_cap (x : BitVec 16) : 0#48 ++ x = x.setWidth 64 := by
  refine BitVec.eq_of_toNat_eq ((BitVec.toNat_append 0#48 x).trans ?_)
  rw [BitVec.toNat_setWidth, Nat.mod_eq_of_lt (Nat.lt_trans x.isLt (by decide))]
  simp

theorem read_cap (hready : ready s = true) : readBar0 s 0x28 = s.pwrCap.setWidth 64 :=
  ((readBar0_ready hready).trans (readRegs_package (by decide))).trans (setWidth_cap s.pwrCap)

theorem read_reset (hready : ready s = true) : readBar0 s 0x10 = 0#64 :=
  (readBar0_ready hready).trans (readRegs_package (by decide))

/-- What the registers of a die read as. -/
theorem read_dies (hready : ready s = true) (hdie : die < s.caps.dies.toNat) (hdie4 : die < 4) :
    readBar0 s (0x100000 * (die + 1) + 0x38) = 0#64 ∧ readBar0 s (0x100000 * (die + 1) + 0x40) = 0#64 ∧
      readBar0 s (0x100000 * (die + 1) + 0x40020) = 0#64 ∧
      readBar0 s (0x100000 * (die + 1) + 0x40010) = (dieAt s die).fqHead.setWidth 64 :=
  ⟨read_cp hready hdie hdie4 (by decide), read_cp hready hdie hdie4 (by decide),
    read_die (o := 0x20) hready hdie hdie4 (by decide), read_die (o := 0x10) hready hdie hdie4 (by decide)⟩

theorem addrWord_base (a : Nat) : addrWord a 0 = d64 (a / 64 % 2 ^ 46 * 64) := by rw [addrWord, Nat.add_zero]

/-- What the registers of a queue read as. -/
theorem read_queues (hready : ready s = true) (hdie : die < s.caps.dies.toNat) (hdie4 : die < 4) (hq : q < 16) :
    readBar0 s (0x100000 * (die + 1) + 0x1000 + 0x40 * q) = d64 ((Machine.queueAt s die q).base / 64 % 2 ^ 46 * 64) ∧
      readBar0 s (0x100000 * (die + 1) + 0x1000 + 0x40 * q + 0x10) = (Machine.queueAt s die q).tail.setWidth 64 ∧
      readBar0 s (0x100000 * (die + 1) + 0x1000 + 0x40 * q + 0x18) = (Machine.queueAt s die q).head.setWidth 64 ∧
      readBar0 s (0x100000 * (die + 1) + 0x1000 + 0x40 * q + 0x30) = 0#64 ∧
      readBar0 s (0x100000 * (die + 1) + 0x1000 + 0x40 * q + 0x38) = (Machine.queueAt s die q).cookie.setWidth 64 :=
  ⟨(read_queue (r := 0) hready hdie hdie4 hq (by decide) (by omega)).trans (addrWord_base _),
    read_queue (r := 0x10) hready hdie hdie4 hq (by decide) (by omega),
    read_queue (r := 0x18) hready hdie hdie4 hq (by decide) (by omega),
    read_queue (r := 0x30) hready hdie hdie4 hq (by decide) (by omega),
    read_queue (r := 0x38) hready hdie hdie4 hq (by decide) (by omega)⟩

end

/-- Settles O42: each offset lies in one block of the map, and its register takes the write or gives the read. -/
theorem bar0Registers : Obligations.Bar0Registers := by
  refine ⟨fun s off v hphase hpwr => registerWrite_asleep hphase hpwr,
    fun s die q v hoff hpwr hdie hq => registerWrite_standby hoff hpwr hdie hq,
    fun s off hready h => ⟨(readBar0_ready hready).trans (readRegs_none h), fun v => write_none hready (by omega)⟩,
    fun s hready => ?reads, fun s v hready => ?writes⟩
  case reads =>
    exact ⟨read_reset hready, read_cap hready, fun n hn => (readBar0_ready hready).trans (readRegs_msix hn),
      fun n hn => (readBar0_ready hready).trans (readRegs_pba hn), fun n hn => read_te hready hn, fun die hdie hdie4 =>
      let ⟨hevict, hresume, hpush, hhead⟩ := read_dies hready hdie hdie4
      ⟨hevict, hresume, hpush, hhead, fun q hq => read_queues hready hdie hdie4 hq⟩⟩
  case writes =>
    refine ⟨fun c hc hlow hhigh => write_cap hready (hc ▸ hlow) (hc ▸ hhigh), write_package hready (by decide),
      fun die q hdie hdie4 hq => ?queue, fun die hdie hdie4 => ?die, fun n hn hle => write_lateness hready hn hle,
      fun n hn hk => write_space hready hn hk,
      fun n hn => (write_msix hready hn).trans (congrArg Host.Outcome.next writeMsix_eq),
      fun n hn => write_none hready (by omega)⟩
    case queue =>
      exact ⟨write_queue (r := 0) hready hdie hdie4 hq (by decide) (by omega),
        write_queue (r := 8) hready hdie hdie4 hq (by decide) (by omega),
        write_queue (r := 0x10) hready hdie hdie4 hq (by decide) (by omega)⟩
    case die =>
      exact ⟨write_cp (o := 0) hready hdie hdie4 (by decide) (by decide) (by decide),
        write_cp (o := 0x10) hready hdie hdie4 (by decide) (by decide) (by decide),
        write_die (o := 0x10) hready hdie hdie4 (by decide), write_die (o := 0x20) hready hdie hdie4 (by decide)⟩

end Sys2Proof.Proofs.RegisterMap
end

section
/-! The events of crews and of the command processors (R299, R308, R317, R320, R321, R325). -/
namespace Sys2Proof.Proofs.CrewEvents
open Sys2Proof Sys2Proof.Machine Sys2Proof.Safety Sys2Proof.Laws

section
variable {s s2 : State} {die slot core n : Nat} {c : Crew}

/-! ## Placing and saving crews -/

theorem chooseCrew_first {m : Nat} {l : Launch} {r : List (Nat × Launch)} (hcool : s.thermal = []) (hready : ready s = true)
    (horder : launchOrder s die = (m, l) :: r) :
    chooseCrew s die = (preemptFor s m l, firstFit (preemptFor s m l) (launchOrder s die)) := by
  refine (if_neg (by simp [hcool, hready])).trans ?_
  rw [horder]

theorem crewDispatch_places {m : Nat} {l : Launch} {r : List (Nat × Launch)} {j : Nat} (hcool : s.thermal = [])
    (hready : ready s = true) (horder : launchOrder s die = (m, l) :: r)
    (hfit : firstFit (preemptFor s m l) (launchOrder s die) = some (.fresh j, s2)) :
    exec (.crewDispatch die) s = .next s2 := by
  show execCrewDispatch die s = _
  rw [execCrewDispatch, chooseCrew_first hcool hready horder, hfit]

theorem crewRestore_places {m : Nat} {l : Launch} {r : List (Nat × Launch)} {j : Nat} (hcool : s.thermal = [])
    (hready : ready s = true) (horder : launchOrder s die = (m, l) :: r)
    (hfit : firstFit (preemptFor s m l) (launchOrder s die) = some (.saved j, s2))
    (hj : (gangKeys s j).contains (crewKey die slot) = true) : exec (.crewRestore die slot) s = .next s2 := by
  show execCrewRestore die slot s = _
  rw [execCrewRestore, chooseCrew_first hcool hready horder, hfit]
  exact congrArg Host.Outcome.next (if_pos hj)

theorem savePoint_saves {k : Nat} (hcool : s.thermal = []) (hgang : gangKeys s k ≠ [])
    (hsafe : (gangKeys s k).all (crewSafe s) = true) :
    savePoint s k = (gangKeys s k).foldl (fun s k => saveCrew s false k) s :=
  if_pos (by simp only [hcool, hsafe, List.isEmpty_nil, Bool.true_and, Bool.and_true, Bool.not_eq_true', List.isEmpty_eq_false_iff,
    ne_eq, hgang, not_false_eq_true])

theorem sweepDone_clears {q : Nat} {r : List Nat} (h : (mapGet {} s.cores core).sweep = q :: r) :
    exec (.sweepDone core) s = .next { sweepTags (sweepHeld s core q) core q with
      cores := mapMod {} (sweepTags (sweepHeld s core q) core q).cores core fun c => { c with sweep := r } } := by
  show execSweepDone core s = _
  rw [execSweepDone, h]

/-! ## Reports of a crew (R317, R320) -/

section
variable (hc : crewAt s (crewKey die slot) = some c)
include hc

theorem preemptOverdue_reports {m : Nat} (hreq : c.preq ≠ none) (hon : onCores c = true) (hrep : c.dueRep = false)
    (hlim : c.plim ≤ m) (hsafe : crewSafe s (crewKey die slot) = false) :
    exec (.preemptOverdue die slot m) s = .next (Machine.report (modCrew s (crewKey die slot) fun c => { c with dueRep := true })
      die 2 slot (crewQueue s c) (min m (2 ^ 32 - 1)) 0 0) := by
  show execPreemptOverdue die slot m s = _
  simp only [execPreemptOverdue, hc]
  exact if_pos ⟨Option.isSome_iff_ne_none.2 hreq, hon, hrep, hlim, hsafe⟩

theorem watchdogRun_reports (hon : onCores c = true) (hrep : c.runRep = false) (hlim : (dieAt s die).runlim.toNat ≠ 0)
    (hran : (dieAt s die).runlim.toNat ≤ s.frame.toNat - c.since) :
    exec (.watchdogRun die slot) s = .next (Machine.report (modCrew s (crewKey die slot) fun c => { c with runRep := true })
      die 3 slot (crewQueue s c) 0 0 0) := by
  show execWatchdogRun die slot s = _
  simp only [execWatchdogRun, hc]
  exact if_pos ⟨hon, hrep, hlim, hran⟩

theorem watchdogStall_reports (hcool : s.thermal = []) (hon : onCores c = true) (hrep : c.stallRep = false)
    (hlim : (dieAt s die).stall.toNat ≠ 0) (hran : (dieAt s die).stall.toNat ≤ s.frame.toNat - c.progress) :
    exec (.watchdogStall die slot) s = .next (Machine.report (modCrew s (crewKey die slot) fun c => { c with stallRep := true })
      die 3 slot (crewQueue s c) 1 0 0) := by
  show execWatchdogStall die slot s = _
  simp only [execWatchdogStall, hc]
  exact if_pos ⟨hcool, hon, hrep, hlim, hran⟩

/-- The entry of a freeze, as its die's fault queue takes it. -/
def entryWritten (s : State) (die k : Nat) (c : Crew) : State :=
  let b := wordsBytes (entryWords s k c)
  modCrew (modDie (ringWrite s die (dieAt s die).fqBase (dieAt s die).fqSize (dieAt s die).fqTail.toNat
    (chunks 32 (b.length / 32 + 1) b)) die fun d => { d with fqTail := d.fqTail + BitVec.ofNat 32 b.length }) k
    fun c => { c with entryDue := false }

theorem faultEntry_writes (hdue : c.entryDue = true) (hst : c.st = .frozen) (hquiet : crewQuiet s (crewKey die slot) = true)
    (hroom : ((dieAt s die).fqTail - (dieAt s die).fqHead).toNat + (wordsBytes (entryWords s (crewKey die slot) c)).length ≤
      2 ^ (dieAt s die).fqSize) (hres : c.resume = false) :
    exec (.faultEntry die slot) s = .next (entryWritten s die (crewKey die slot) c) := by
  show execFaultEntry die slot s = _
  simp only [execFaultEntry, hc]
  refine (if_pos ⟨hdue, .inl hst, hquiet, hroom⟩).trans (congrArg Host.Outcome.next (if_neg ?_))
  rw [hres]
  simp

end

theorem watchdogQueue_reports (hstart : (Machine.queueAt s die n).started = true)
    (hwait : (Machine.queueAt s die n).wait ≠ none ∨ (Machine.queueAt s die n).joinId ≠ none)
    (hhold : (Machine.queueAt s die n).hold = false) (hframe : (Machine.queueAt s die n).frame = none)
    (hrep : (Machine.queueAt s die n).waitRep = false) (hlim : (dieAt s die).stall.toNat ≠ 0)
    (hran : (dieAt s die).stall.toNat ≤ s.frame.toNat - (Machine.queueAt s die n).startTick) :
    exec (.watchdogQueue die n) s =
      .next (Machine.report (modQueue s die n fun x => { x with waitRep := true }) die 3 0 n 2 0 0) :=
  if_pos ⟨hstart, hwait.imp Option.isSome_iff_ne_none.2 Option.isSome_iff_ne_none.2, hhold, hframe, hrep, hlim, hran⟩

/-! ## Launches (R299, R309) -/

theorem modLaunch_queueAt (f : Launch → Launch) (q : Nat) :
    Machine.queueAt (modLaunch s n f) die q = Machine.queueAt s die q := by
  unfold modLaunch
  split <;> rfl

/-- A launch's own update changes the launches alone. -/
theorem modLaunch_rest (f : Launch → Launch) (g : FMap Launch → FMap Launch) :
    { modLaunch s n f with launches := g (modLaunch s n f).launches } = { s with launches := g (modLaunch s n f).launches } := by
  unfold modLaunch
  split <;> rfl

section
variable {l : Launch} (hl : mapFind s.launches n = some l) (hdie : l.die = die)
include hl hdie

theorem frameRelease_dispatches (hst : l.st = .held) (hdue : releaseDue s l = true) :
    exec (.frameRelease die n) s = .next (modLaunch s n fun l => { l with st := .dispatching }) := by
  show execFrameRelease die n s = _
  simp only [execFrameRelease, releaseLaunch, hl]
  exact congrArg Host.Outcome.next ((if_pos hdie).trans (if_pos ⟨hst, hdue⟩))

theorem overrun_begins (hover : overruns s l = true) (hep : l.episode = none) :
    exec (.overrun die n) s = .next (modLaunch s n fun l => { l with episode := some 0 }) := by
  show execOverrun die n s = _
  simp only [execOverrun, hl]
  exact congrArg Host.Outcome.next (if_pos ⟨hdie, hover, hep⟩)

theorem launchComplete_ends (hst : l.st = .draining) (hstores : l.stores = []) (hfail : l.failed = []) (hep : l.episode = none)
    (hgone : (Machine.queueAt s die l.q).launches.contains n = false) :
    exec (.launchComplete die n) s = .next { s with
      launches := mapErase (modLaunch s n fun l => { l with st := .complete }).launches n } := by
  have hdone : completeLaunch s n = { s with
      launches := mapErase (modLaunch s n fun l => { l with st := .complete }).launches n } := by
    unfold completeLaunch
    rw [hl]
    refine (if_pos ⟨hst, hstores⟩).trans ?_
    rw [hfail, hep]
    refine (if_neg ?_).trans ?_
    · rw [hdie]
      show ¬ (Machine.queueAt (modLaunch s n _) die l.q).launches.contains n = true
      rw [modLaunch_queueAt, hgone]
      simp
    · exact modLaunch_rest (fun l => { l with st := .complete }) fun m => mapErase m n
  show execLaunchComplete die n s = _
  simp only [execLaunchComplete, hl]
  exact congrArg Host.Outcome.next ((if_pos hdie).trans hdone)

end

/-- RELEASE_TICK takes the turn of the RELEASE_AT that has started. -/
theorem releaseTick_acts {l : List Byte} {s1 : State} (hstart : (Machine.queueAt s die n).started = true)
    (hw : queueWords s die (Machine.queueAt s die n) (queueHead (Machine.queueAt s die n)) 3 = .ok l s1)
    (hop : numAt l 3 1 = 0x0D) :
    ∃ t, exec (.releaseAt (ofBytes 64 (l.drop 4))) { s1 with cur := .queue die n } = .next t ∧
      exec (.releaseTick die n) s = .next { t with cur := .none } := by
  refine ⟨_, rfl, ?_⟩
  show execReleaseTick die n s = _
  simp only [execReleaseTick, hstart, hw]
  exact if_pos hop

end

/-- Settles O43: each event acts on the crew, queue or launch that its condition names. -/
theorem crewEvents : Obligations.CrewEvents := by
  intro s s2 die slot core n k order
  refine ⟨fun m l r c hcool hready horder hfit => crewDispatch_places hcool hready horder hfit,
    fun m l r j hcool hready horder hfit hj => crewRestore_places hcool hready horder hfit hj,
    fun hcool hgang hsafe => congrArg (fun t => Host.Outcome.next (evictReady t k)) (savePoint_saves hcool hgang hsafe),
    fun q r h => sweepDone_clears h, ⟨rfl, rfl, rfl, rfl⟩, fun c hc => ?crew, ?queue, fun l hl hdie => ?launch,
    fun l s1 hstart hw hop => releaseTick_acts hstart hw hop⟩
  case crew =>
    exact ⟨fun m hreq hon hrep hlim hsafe => preemptOverdue_reports hc hreq hon hrep hlim hsafe,
      fun hon hrep hlim hran => watchdogRun_reports hc hon hrep hlim hran,
      fun hcool hon hrep hlim hran => watchdogStall_reports hc hcool hon hrep hlim hran,
      fun hdue hst hquiet hroom hres => faultEntry_writes hc hdue hst hquiet hroom hres⟩
  case queue => exact fun hstart hwait hhold hframe hrep hlim hran => watchdogQueue_reports hstart hwait hhold hframe hrep hlim hran
  case launch =>
    exact ⟨fun hst hdue => frameRelease_dispatches hl hdie hst hdue, fun hover hep => overrun_begins hl hdie hover hep,
      fun hst hstores hfail hep hgone => launchComplete_ends hl hdie hst hstores hfail hep hgone⟩

end Sys2Proof.Proofs.CrewEvents
end

section
/-! What happens at a core of its own accord (R51, R63, R78, R177, R181, R234, R250). -/
namespace Sys2Proof.Proofs.CoreEvents
open Sys2Proof Sys2Proof.Machine Sys2Proof.Safety Sys2Proof.Laws

section
variable {s s1 s2 : State} {core n : Nat} {st : Strand}

section
variable (hst : strandAt s core = some st)
include hst

theorem tokenDeadlock_traps {c : Crew} {e : Engine} (hc : crewAt s st.crew = some c) (hlive : c.st = .running ∨ c.st = .stopping)
    (hdead : deadlocked st = true) (he : [Engine.S, .V, .M, .C].find? (inTokenWait st) = some e) :
    exec (.tokenDeadlock core) s = .next (takeTrap s core e (deadlockRec st e)) := by
  show execTokenDeadlock core s = _
  simp only [execTokenDeadlock, hst, hc, he]
  refine if_pos ?_
  rw [hdead, Bool.and_true]
  simpa using hlive

theorem uiDelivery_enters {u : Nat} {r : List Nat} {p : BitVec 32} (hpend : st.uipend = u :: r) (hen : uiEn st = true)
    (hact : uiAct st = false) (hb : uiBoundary s st = true) (hp : checkTarget s st .S st.sys.uivec.toNat = .ok p) :
    exec (.uiDelivery core) s = .next (setStrand s core (setStream
      { uiDeliver st (streamOf st .S).pc u 0 (streamOf st .S).popped (streamOf st .S).arrived with uipend := r } .S
      { streamOf st .S with
        pc := p
        st := .issuing
        popped := false
        arrived := false
        want := none })) := by
  show execUiDelivery core s = _
  simp only [execUiDelivery, hst, hpend, hp]
  exact if_pos (by rw [hen, hact, hb]; rfl)

theorem accessPerformed_settles {w : StoreW} (hw : chooseOf s (mayEnter (st.stores.filter fun w => w.tier != 2#2)) = (some w, s1)) :
    exec (.accessPerformed core) s = .next (settle (performStore s1 w) core) := by
  show execAccessPerformed core s = _
  simp only [execAccessPerformed, hst, hw]

theorem matrixFinish_finishes (hm : finishFirst (oldestStore st) st.mats ≠ st.mats) :
    exec (.matrixFinish core) s =
      .next (settle (noteProgress (setStrand s core { st with mats := finishFirst (oldestStore st) st.mats }) st.crew) core) := by
  show execMatrixFinish core s = _
  simp only [execMatrixFinish, hst]
  exact if_neg hm

/-- A copy whose units have all moved and are performed completes. -/
theorem copyComplete_finishes {c : CopyRec} (hslot : st.copies.find? (fun c => c.slot == n) = some c)
    (hidx : st.copies.find? (fun x => x.idx == c.idx) = some c) (hheld : c.held = false) (hmoved : c.moved = true)
    (hperf : copyPerformed st c.idx = true) (hroom : uiRoom st c = true) :
    exec (.copyComplete core n) s = .next (settle (finishCopy (noteProgress s st.crew) core c) core) := by
  show execCopyComplete core n s = _
  simp only [execCopyComplete, hst, Option.bind_some, hslot]
  refine congrArg Host.Outcome.next ?_
  unfold copyStep
  simp only [hst, hidx, hheld, hmoved, hperf, hroom, Bool.false_eq_true, if_false, if_true, Bool.and_self, Bool.true_eq_false,
    false_and]

end

theorem arrayGrant_grants {c : Nat} (hlease : (Machine.quadAt s n).lease = none) (hbusy : arrayBusy s n = false)
    (hnext : nextGrant s n = some c) :
    exec (.arrayGrant n) s = .next (grantTo s (4 * n + c) (mapGet 0 (Machine.quadAt s n).waits c)) := by
  refine congrArg Host.Outcome.next ?_
  unfold arrayGrant
  simp only [hlease, hbusy, hnext, Option.isSome_none, Bool.or_self, Bool.false_eq_true, if_false]

/-- A line that the die has asked for is no longer asked for. -/
def lineTaken (s : State) (die : Nat) (h : Handle) (line : Nat) : State :=
  modDie s die fun d => { d with lineReq := d.lineReq.filter fun r => !(r.h == h && r.line == line) }

theorem lineFill_installs {die line : Nat} {h : Handle} {r : LineReq} {g : Granule}
    (hr : (dieAt s die).lineReq.find? (fun r => r.h == h && r.line == line) = some r)
    (hg : fillRead (lineTaken s die h line) die h line r.ans = (.ok g, s2)) :
    exec (.lineFill die h line) s = .next { s2 with
      cores := (coresOfHandle s die h).foldl (fun m c => mapMod {} m c fun c => installLine c h line g) s2.cores } := by
  show execLineFill die h line s = _
  unfold lineTaken at hg
  simp only [execLineFill, hr, hg]

theorem frameReturn_returns {f : Nat} (hf : (dieAt s n).freeing.find? (fun f => !frameBusy s f) = some f) :
    exec (.frameReturn n) s = .next (modDie { s with old := s.old.filter fun o => o.gran / 128 != f } n fun d => { d with
      freeing := d.freeing.erase f
      pool := d.pool ++ [f] }) := by
  show execFrameReturn n s = _
  simp only [execFrameReturn, hf]

end

/-- Settles O44: each event acts once its own condition holds. -/
theorem coreEvents : Obligations.CoreEvents := by
  intro s core n st hst
  exact ⟨fun c e hc hlive hdead he => tokenDeadlock_traps hst hc hlive hdead he,
    fun c hlease hbusy hnext => arrayGrant_grants hlease hbusy hnext,
    fun u r p hpend hen hact hb hp => uiDelivery_enters hst hpend hen hact hb hp,
    fun w s1 hw => accessPerformed_settles hst hw,
    fun hm => matrixFinish_finishes hst hm,
    fun c hslot hidx hheld hmoved hperf hroom => copyComplete_finishes hst hslot hidx hheld hmoved hperf hroom,
    fun die h line r g s2 hr hg => lineFill_installs hr hg,
    fun f hf => frameReturn_returns hf⟩

end Sys2Proof.Proofs.CoreEvents
end

section
/-! Events of the tier engine, of the gatherer and of Ovlan Link (R332 to R334, R341, R347, R352). -/
namespace Sys2Proof.Proofs.TierEvents
open Sys2Proof Sys2Proof.Machine Sys2Proof.Safety Sys2Proof.Laws Sys2Proof.Proofs.Semaphores

section
variable {s : State} {n k pkg : Nat} {epoch : BitVec 32} {m : MoveSt}

/-! ## Gusts and moves -/

/-- GUST_RELEASE considers the GUST that has started. -/
theorem gustRelease_acts {ws : List Word} {g : BitVec 7} {tick : BitVec 32} (hheld : (ctxAt s n).held = some ws)
    (hdec : decodeEntry (ctxAt s n).cidx ws = .ok (.gust g tick)) :
    ∃ t, exec (.gust g tick) { s with cur := .ctx n } = .next t ∧ exec (.gustRelease n) s = .next { t with cur := .none } := by
  refine ⟨_, rfl, ?_⟩
  show execGustRelease n s = _
  simp only [execGustRelease, hheld, hdec]
  rfl

/-- A move whose units are all written ends by its destination. -/
theorem moveStep_written (hst : m.status = none) (hunits : m.units.isEmpty = true) : moveStep s n m = finishMove s n m := by
  unfold moveStep
  rw [hst, List.isEmpty_iff.1 hunits]
  rfl

theorem landingDone_finishes (hm : (ctxAt s n).moves.find? (fun m => m.a.dtier == 3#2 && m.units.isEmpty &&
    (m.status.isNone || m.token)) = some m) (hst : m.status = none) :
    exec (.landingDone n) s = .next (finishLanding s n m) := by
  have hp := List.find?_some hm
  simp only [Bool.and_eq_true, beq_iff_eq] at hp
  obtain ⟨⟨htier, hunits⟩, -⟩ := hp
  show execLandingDone n s = _
  simp only [execLandingDone, hm]
  rw [moveStep_written hst hunits]
  exact congrArg Host.Outcome.next (if_pos htier)

theorem moveComplete_completes (hm : (ctxAt s n).moves.find? (fun m => m.idx == k && m.status.isNone && m.a.dtier != 3#2 &&
    m.units.isEmpty) = some m) : exec (.moveComplete n k) s = .next (completeMove s n m.order .done) := by
  have hp := List.find?_some hm
  simp only [Bool.and_eq_true, bne_iff_ne, ne_eq] at hp
  obtain ⟨⟨-, htier⟩, -⟩ := hp
  show execMoveComplete n k s = _
  simp only [execMoveComplete, hm]
  exact congrArg Host.Outcome.next (if_neg htier)

/-! ## The close of a batch (R334) -/

/-- A write of the ring that is accepted. -/
def RingPut (t : State) (n off : Nat) (ws : List Word) (u : State) : Prop :=
  ∃ l, cpWrite t (rqAt t n).die (rqAt t n).ans (rqAt t n).space (rqAt t n).obj (rqAt t n).gen off (ws.flatMap (toBytes 4)) = .ok l u

theorem putRing_cons {t u : State} {off : Nat} {ws : List Word} {rest : List (Nat × List Word)} (h : RingPut t n off ws u) :
    putRing t n ((off, ws) :: rest) = putRing (spendRing u n) n rest := by
  obtain ⟨l, h⟩ := h
  simp only [putRing, h]

theorem rqAt_semAdd (r die sem : Nat) (v : BitVec 64) : rqAt (semAdd s die sem v) r = rqAt s r := rfl

theorem semOf_semAdd (die sem : Nat) (v : BitVec 64) : semOf (semAdd s die sem v) die sem = semOf s die sem + v :=
  semOf_semPut s die sem _

theorem stillOpen_nil : stillOpen s [] = [] := rfl

/-- A close with no release under way and nothing covered releases at once. -/
theorem finishClose_releases {x : RqCtx} (hx : rqAt s n = x) (hrels : x.rels = []) (hopen : stillOpen s x.cover = []) :
    semOf (finishClose s n) x.die x.sem = semOf s x.die x.sem + d64 x.openN ∧ rqAt (finishClose s n) n = { x with
      closing := []
      openV := false
      openN := 0
      head := x.head + BitVec.ofNat 32 x.openN
      nb := x.nb + 1 } := by
  subst hx
  have hrel : ∀ t : State, (rqAt t n).rels = [((rqAt s n).die, (rqAt s n).sem, (rqAt s n).openN, [])] →
      settleRels 1 t n = semAdd (modRq t n fun g => { g with rels := [] }) (rqAt s n).die (rqAt s n).sem
        (d64 (rqAt s n).openN) := fun t ht => by
    unfold settleRels
    rw [ht]
    exact (if_pos stillOpen_nil).trans (by unfold settleRels; rfl)
  have hone : finishClose s n = settleRels 1 (modRq s n fun g => { g with
      closing := []
      openV := false
      openN := 0
      head := g.head + BitVec.ofNat 32 g.openN
      nb := g.nb + 1
      rels := g.rels ++ [(g.die, g.sem, g.openN, stillOpen s g.cover)] }) n := by
    rw [finishClose, hrels]
    rfl
  rw [hone, hrel _ (by simp [hrels, hopen])]
  refine ⟨semOf_semAdd _ _ _, ?_⟩
  rw [rqAt_semAdd]
  simp [hrels]

theorem deadlineClose_closes {s2 s3 s4 : State} (hact : (rqAt s n).active = true) (hopenV : (rqAt s n).openV = true)
    (hclosing : (rqAt s n).closing = []) (hdue : (rqAt s n).deadline ≤ s.frame.toNat - (rqAt s n).openAt)
    (hlog : RingPut s n (0x40 + 16 * ((rqAt s n).nb.toNat % 64))
      [(rqAt s n).head, BitVec.ofNat 32 (rqAt s n).openN, s.frame.setWidth 32, 1#32] s2)
    (hhead : RingPut (spendRing s2 n) n 0x04 [(rqAt s n).head + BitVec.ofNat 32 (rqAt s n).openN] s3)
    (hnb : RingPut (spendRing s3 n) n 0x0C [(rqAt s n).nb + 1] s4) :
    exec (.deadlineClose n) s = .next (finishClose (spendRing s4 n) n) := by
  refine congrArg Host.Outcome.next ((if_pos ⟨hact, hopenV, hclosing, hdue⟩).trans ?_)
  unfold closeBatch
  exact (putRing_cons hlog).trans ((putRing_cons hhead).trans (putRing_cons hnb))

/-! ## Flits of other packages (R332, R352) -/

section
variable (hcut : s.cuts.contains epoch = false)
include hcut

/-- A shard that a move waits for, and of which nothing has come, is held. -/
theorem arriveShard_held {h : Shard} (hepoch : h.epoch = epoch) (hk : h.k = k)
    (hwait : (s.te.any fun c => c.2.moves.any fun m => waitsShard m epoch k) = true) (hnone : shardAt s epoch k = none) :
    arriveShard s h = { s with shards := s.shards ++ [h] } := by
  subst hepoch hk
  unfold arriveShard
  simp only [hcut, hwait, if_true, Bool.false_eq_true, if_false, holdShard, hnone]

theorem removalFlit_cuts : exec (.removalFlit epoch Config.package.toNat) s =
    .next (forgetStream (settleMembers { s with cuts := s.cuts ++ [epoch] }) epoch) :=
  if_pos ⟨rfl, hcut⟩

end

theorem endOfStream_ends (h : s.ends.contains epoch = false) : exec (.endOfStream epoch) s =
    .next (forgetStream (settleMembers { s with ends := s.ends ++ [epoch] }) epoch) :=
  if_neg (by rw [h]; decide)

theorem ackFlit_drops (h : notStarted s epoch k = false) : exec (.ackFlit epoch k pkg) s = .next (dropAck s epoch pkg (some k)) :=
  congrArg Host.Outcome.next (if_neg (by rw [h]; decide))

theorem ackFlit_keeps (h : notStarted s epoch k = true) (hnew : s.acked.contains (epoch, k, pkg) = false) :
    exec (.ackFlit epoch k pkg) s = .next { s with acked := s.acked ++ [(epoch, k, pkg)] } :=
  congrArg Host.Outcome.next ((if_pos h).trans (if_neg (by rw [hnew]; decide)))

theorem acktoSource_removes {x : Stream2} (hm : (ctxAt s n).moves.find? (fun m => !m.member && m.shard == k && m.acks.contains pkg &&
      pkg != Config.package.toNat && (m.str.map fun x => (m.sent.map fun t => decide (t + x.ackto ≤ s.frame.toNat)).getD
        false).getD false) = some m) (hx : m.str = some x) :
    exec (.acktoSource n k pkg) s = .next (toPackage (modCtx
      (dropAck (logEvent s 6 (pkg * 2 ^ 32 + x.epoch.toNat)) x.epoch pkg none) n fun c => { c with
        mc := c.mc.map fun y => if y.epoch = x.epoch then { y with pmask := y.pmask &&& ~~~(1#16 <<< pkg) } else y })
      pkg (.removal pkg x.epoch)) := by
  show execAcktoSource n k pkg s = _
  simp only [execAcktoSource, hm, hx]

theorem acktoMember_cuts {x : Stream2} (hm : (ctxAt s n).moves.find? (fun m =>
      (m.str.map fun x => waitsShard m x.epoch m.shard && decide (m.started + x.ackto ≤ s.frame.toNat) &&
        (memberStep s n m x).isSome).getD false) = some m) (hx : m.str = some x) (hcut : s.cuts.contains x.epoch = false) :
    exec (.acktoMember n) s =
      .next (forgetStream (settleMembers { s with cuts := s.cuts ++ [x.epoch] }) x.epoch) := by
  show execAcktoMember n s = _
  simp only [execAcktoMember, hm, hx, hcut, Bool.false_eq_true, if_false]

end

/-- Settles O45: each event acts on the move, batch or stream that its condition names. -/
theorem tierEvents : Obligations.TierEvents := by
  intro s n k pkg epoch
  refine ⟨fun ws g tick hheld hdec _ => gustRelease_acts hheld hdec, fun m hm hst => landingDone_finishes hm hst,
    fun m hm => moveComplete_completes hm, ?close, fun hcut hwait hnone => ?shard, fun h => ackFlit_drops h,
    fun h hnew => ackFlit_keeps h hnew, fun hcut => removalFlit_cuts hcut, fun h => endOfStream_ends h,
    fun m x hm hx => acktoSource_removes hm hx, fun m x hm hx hcut => acktoMember_cuts hm hx hcut⟩
  case close =>
    intro s2 s3 s4 g puts hact hopenV hclosing hdue hlog hhead hnb t x hrels hopen
    exact ⟨_, deadlineClose_closes hact hopenV hclosing hdue hlog hhead hnb, finishClose_releases (s := t) rfl hrels hopen⟩
  case shard =>
    exact ⟨fun l => congrArg Host.Outcome.next (arriveShard_held hcut rfl rfl hwait hnone),
      congrArg (fun t => Host.Outcome.next (settleMembers t)) (arriveShard_held hcut rfl rfl hwait hnone)⟩

end Sys2Proof.Proofs.TierEvents
end

section
/-! Controllers, the scrubber, the thermal freeze, CXL ports and links (R356, R361 to R375). -/
namespace Sys2Proof.Proofs.MemoryLinks
open Sys2Proof Sys2Proof.Machine Sys2Proof.Safety Sys2Proof.Laws

section
variable {s s1 s2 : State} {n g : Nat}

/-! ## Controllers (R361 to R364) -/

theorem mcWrite_enters {w : StoreW} (hw : chooseOf s (storesFor s n) = (some w, s1)) (hcool : (ctlAt s n).hot = false)
    (hroom : wqFull s n (w.pa / 64) = false) : exec (.mcWrite n) s = .next (enterStore s1 w) := by
  show execMcWrite n s = _
  simp only [execMcWrite, hw]
  exact congrArg Host.Outcome.next (if_neg (by simp [hcool, hroom]))

theorem mcRead_serves {d : BitVec 6} (h : servable (ctlAt s n) n g = true) :
    exec (.mcRead n g d) s = .next (granRead s n g d).2 := if_pos h

theorem mcRead_waits {d : BitVec 6} (h : servable (ctlAt s n) n g = false) :
    exec (.mcRead n g d) s = .next (modCtl s n fun c => { c with waiting := c.waiting ++ [(g, d, 3)] }) :=
  if_neg (by rw [h]; decide)

theorem entryDrain_drains {h : Nat} (hn : nextDrain (ctlAt s n) n = some h) :
    exec (.entryDrain n) s = .next (serveWaiting (drainEntry s h) n) := by
  show execEntryDrain n s = _
  rw [execEntryDrain, hn]
  rfl

theorem drainAge_drains {h : Nat} (hf : (ctlAt s n).order.find? (fun g => !(ctlAt s n).drain.contains (Config.channel n g)) = some h) :
    exec (.drainAge n) s = .next (modCtl s n fun c => enterDrain c (Config.channel n h)) := by
  show execDrainAge n s = _
  simp only [execDrainAge, hf]

/-! ## The scrubber (R365, R366) -/

/-- A change of a controller depends on what the controller is. -/
theorem modCtl_congr {f h : MemCtl → MemCtl} (e : f (ctlAt s n) = h (ctlAt s n)) : modCtl s n f = modCtl s n h :=
  congrArg (fun c => { s with ctls := mapSet {} s.ctls n c }) e

theorem scrubRead_reads {v : Granule} (hmay : mayScrub s n g = true) (hread : devRead s n g none = (.ok v, s2)) :
    exec (.scrubRead n g) s = .next (modCtl s2 n fun c =>
      scrubbed (if correctable s g && !c.pend.contains g then { c with pend := c.pend ++ [g] } else c) n g) := by
  refine (if_pos hmay).trans ?_
  rw [hread]
  simp only [Bool.and_true]

theorem scrubRead_passes {v : Granule} (hmay : mayScrub s n g = true) (hread : devRead s n g none = (.ok v, s2))
    (hfix : correctable s g = false) : exec (.scrubRead n g) s = .next (modCtl s2 n fun c => scrubbed c n g) := by
  refine (scrubRead_reads hmay hread).trans (congrArg Host.Outcome.next (modCtl_congr ?_))
  rw [hfix]
  rfl

theorem scrubRead_corrects {v : Granule} (hmay : mayScrub s n g = true) (hread : devRead s n g none = (.ok v, s2))
    (hfix : correctable s g = true) (hnew : (ctlAt s2 n).pend.contains g = false) :
    exec (.scrubRead n g) s = .next (modCtl s2 n fun c => scrubbed { c with pend := c.pend ++ [g] } n g) := by
  refine (scrubRead_reads hmay hread).trans (congrArg Host.Outcome.next (modCtl_congr ?_))
  rw [hfix, hnew]
  rfl

theorem enterDrain_pend (c : MemCtl) (ch : Nat) : (enterDrain c ch).pend = c.pend ∧ (enterDrain c ch).order = c.order := by
  unfold enterDrain
  split <;> exact ⟨rfl, rfl⟩

theorem scrubWriteback_enters {r : List Nat} (hpend : (ctlAt s n).pend = g :: r) (hroom : wqFull s n g = false) :
    ∃ t, exec (.scrubWriteback n) s = .next t ∧ (ctlAt t n).pend = r ∧ (ctlAt t n).order = (ctlAt s n).order ++ [g] ∧
      mapFind t.wq g = some (scrubEntry s n g) ∧ t.mem = s.mem := by
  have hexec : exec (.scrubWriteback n) s = .next (modCtl { s with wq := mapPut s.wq g (scrubEntry s n g) } n fun c =>
      if 48 ≤ (chanOrder { c with pend := r, order := c.order ++ [g] } n g).length
      then enterDrain { c with pend := r, order := c.order ++ [g] } (Config.channel n g)
      else { c with pend := r, order := c.order ++ [g] }) := by
    show execScrubWriteback n s = _
    simp only [execScrubWriteback, hpend, hroom, Bool.false_eq_true, if_false]
  refine ⟨_, hexec, ?_⟩
  rw [ctlAt_modCtl, if_pos rfl]
  have hwq : mapFind (mapPut s.wq g (scrubEntry s n g)) g = some (scrubEntry s n g) := by rw [mapFind_put, if_pos rfl]
  split
  · exact ⟨(enterDrain_pend _ _).1, (enterDrain_pend _ _).2, hwq, rfl⟩
  · exact ⟨rfl, rfl, hwq, rfl⟩

/-! ## Ports and links (R356, R370 to R375) -/

theorem cxlCompletion_answers {a : Asker} {x k : Nat} {r : CxlResult} (hout : (portAt s n).out[k]? = some (a, x))
    (hst : (portAt s n).state = 3#3 ∨ (portAt s n).state = 4#3) (hover : overtakes s ((portAt s n).out.take k) a = false) :
    exec (.cxlCompletion n k r) s = .next (answer (modPort s n fun x => { x with out := x.out.eraseIdx k }) a r) := by
  show execCxlCompletion n k r s = _
  simp only [execCxlCompletion, hout]
  exact if_pos ⟨hst, hover⟩

theorem completionTimeout_isolates {a : Asker} {t : Nat} {rest : List (Asker × Nat)} (hout : (portAt s n).out = (a, t) :: rest)
    (htmo : (portAt s n).tmo.toNat ≤ s.frame.toNat - t) (hin : portOut s n = false) :
    exec (.completionTimeout n) s = .next (isolatePort s n) := by
  show execCompletionTimeout n s = _
  simp only [execCompletionTimeout, hout]
  exact if_pos ⟨htmo, hin⟩

theorem hostReadTimeout_stops (hready : ready s = true) (hen : (Machine.queueAt s n g).en = true)
    (hstop : (Machine.queueAt s n g).stop = none) (hne : (Machine.queueAt s n g).head ≠ (Machine.queueAt s n g).tail) :
    exec (.hostReadTimeout n g) s = .next (stopQueue s n g .access false) :=
  if_pos ⟨hready, hen, by rw [hstop]; rfl, .inl hne⟩

theorem replayLink_counts {x : LinkSt} {now : Nat} (hdown : x.down = false) (htrain : x.training = false)
    (hfew : x.replays < 15) : replayLink x now = ({ x with replays := x.replays + 1 }, false) :=
  (if_neg (by simp [hdown, htrain])).trans (if_pos hfew)

theorem replayLink_retrains {x : LinkSt} {now : Nat} (hdown : x.down = false) (htrain : x.training = false)
    (hmany : x.replays = 15) : replayLink x now = ({ x with
      replays := 0
      training := true
      since := now
      retrains := x.retrains + 1 }, true) :=
  (if_neg (by simp [hdown, htrain])).trans (if_neg (by omega))

theorem flitReplay_counts (hdown : (mapGet {} s.ovl n : LinkSt).down = false)
    (htrain : (mapGet {} s.ovl n : LinkSt).training = false) (hfew : (mapGet {} s.ovl n : LinkSt).replays < 15) :
    exec (.flitReplay (.ovlan n)) s = .next { s with
      ovl := mapSet {} s.ovl n { (mapGet {} s.ovl n : LinkSt) with replays := (mapGet {} s.ovl n : LinkSt).replays + 1 } } := by
  show execFlitReplay (.ovlan n) s = _
  simp only [execFlitReplay, replayLink_counts hdown htrain hfew]
  rfl

theorem flitReplay_retrains (hdown : (mapGet {} s.bnds n : LinkSt).down = false)
    (htrain : (mapGet {} s.bnds n : LinkSt).training = false) (hmany : (mapGet {} s.bnds n : LinkSt).replays = 15) :
    ∃ t, exec (.flitReplay (.boundary n)) s = .next t ∧ mapGet {} t.bnds n = { (mapGet {} s.bnds n : LinkSt) with
      replays := 0
      training := true
      since := s.frame.toNat
      retrains := (mapGet {} s.bnds n : LinkSt).retrains + 1 } := by
  refine ⟨_, rfl, ?_⟩
  rw [replayLink_retrains hdown htrain hmany]
  exact (mapGet_set _ _ _ _ _).trans (if_pos rfl)

theorem portAt_countRetrain (l : Link) (yes : Bool) : portAt (countRetrain s l yes) n = portAt s n := by
  unfold countRetrain
  split <;> rfl

theorem replayPort_retrains {x : CxlPort} (hst : x.state = 3#3) (hmany : x.replays = 15) :
    (replayPort x).1.state = 1#3 ∧ (replayPort x).1.replays = 0 := by
  unfold replayPort
  rw [if_neg (by simp [hst]), if_neg (by omega)]
  exact ⟨rfl, rfl⟩

theorem portTrained_carries {x : CxlPort} (hst : x.state = 1#3) (hres : x.restored = false) :
    (portTrained x).1.state = 3#3 := by
  unfold portTrained
  rw [if_pos hst]
  exact if_neg (by simp [hres])

theorem flitReplay_port (hst : (portAt s n).state = 3#3) (hmany : (portAt s n).replays = 15) :
    ∃ t, exec (.flitReplay (.cxl n)) s = .next t ∧ (portAt t n).state = 1#3 ∧ (portAt t n).replays = 0 := by
  refine ⟨_, rfl, ?_⟩
  rw [portAt_countRetrain, portAt_modPort, if_pos rfl]
  exact replayPort_retrains hst hmany

theorem linkRetrained_port (hst : (portAt s n).state = 1#3) (hres : (portAt s n).restored = false) :
    ∃ t, exec (.linkRetrained (.cxl n)) s = .next t ∧ (portAt t n).state = 3#3 := by
  refine ⟨_, rfl, ?_⟩
  rw [portAt_countRetrain, portAt_modPort, if_pos rfl]
  exact portTrained_carries hst hres

/-! ## The thermal freeze and the host's windows (R366 to R368, R239) -/

theorem thermalFreeze_heats {t : BitVec 8} (hready : ready s = true) (hdev : hasDevice s n = true)
    (hcrit : (ctlAt s n).tcrit.toNat ≤ t.toNat) (hcool : (ctlAt s n).hot = false) :
    exec (.thermalFreeze n t) s = .next (heat (modCtl s n fun c => { c with temp := t }) n) := by
  refine (if_neg (by simp [hready, hdev])).trans (congrArg Host.Outcome.next (if_pos ?_))
  rw [ctlAt_modCtl, if_pos rfl]
  exact ⟨hcrit, hcool⟩

theorem thermalResume_resumes (hhot : s.thermal = [n]) (hcool : (ctlAt s n).temp.toNat ≤ (ctlAt s n).tres.toNat) :
    exec (.thermalResume []) s = .next ((coolDevice { s with thermal := [] } n).crews.foldl (fun s p => coolCrew s p.1)
      (coolDevice { s with thermal := [] } n)) := by
  show execThermalResume [] s = _
  simp only [execThermalResume, List.filter_nil, setTemps, List.foldl_nil, hhot]
  exact if_neg (by simp [hcool])

theorem hostWindow_writes {pa m : Nat} {d : BitVec 6} {b : List Byte} (hready : ready s = true) :
    exec (.hostWindowAccess true pa d b m) s = .next (windowWrite (b.length + 1) s d pa b) :=
  (if_neg (by simp [hready])).trans (if_pos rfl)

theorem hostWindow_reads {pa m : Nat} {d : BitVec 6} {b l : List Byte} (hready : ready s = true)
    (hclear : opaqueAt s pa m = false) (hread : windowRead (m + 1) s d pa m = (0, l, s2)) :
    exec (.hostWindowAccess false pa d b m) s = .next (emit s2 (.cpl 0 l)) := by
  refine (if_neg (by simp [hready])).trans ((if_neg (by decide)).trans ((if_neg (by simp [hclear])).trans ?_))
  rw [hread]
  rfl

end

/-- Settles O46: each event acts once its own condition holds. -/
theorem memoryAndLinks : Obligations.MemoryAndLinks := by
  intro s n g c
  exact ⟨fun w s1 hw hcool hroom => mcWrite_enters hw hcool hroom, fun d h => mcRead_serves h, fun d h => mcRead_waits h,
    fun h hn => entryDrain_drains hn, fun h hf => drainAge_drains hf, rfl,
    fun hmay v s2 hread => ⟨fun hfix => scrubRead_passes hmay hread hfix, fun hfix hnew => scrubRead_corrects hmay hread hfix hnew⟩,
    fun r hpend hroom => scrubWriteback_enters hpend hroom,
    fun a x k r hout hst hover => cxlCompletion_answers hout hst hover,
    fun a t rest hout htmo hin => completionTimeout_isolates hout htmo hin,
    fun hready hen hstop hne => hostReadTimeout_stops hready hen hstop hne,
    fun hdown htrain hfew => flitReplay_counts hdown htrain hfew,
    fun hdown htrain hmany => flitReplay_retrains hdown htrain hmany,
    fun hst hmany => flitReplay_port hst hmany, fun h => congrArg Host.Outcome.next (if_pos h),
    fun h => congrArg Host.Outcome.next (if_pos h), fun hst hres => linkRetrained_port hst hres, fun h => if_pos h,
    fun h => if_pos h, fun t hready hdev hcrit hcool => thermalFreeze_heats hready hdev hcrit hcool,
    fun hhot hcool => thermalResume_resumes hhot hcool,
    fun pa d b m hready => ⟨hostWindow_writes hready, fun hclear l s2 hread => hostWindow_reads hready hclear hread⟩⟩

end Sys2Proof.Proofs.MemoryLinks
end

section
/-! Resets, boot phases, the advance of FRAME and power (R5, R378, R380, R381, R392 to R394). -/
namespace Sys2Proof.Proofs.BootPower
open Sys2Proof Sys2Proof.Machine Sys2Proof.Safety Sys2Proof.Laws Sys2Proof.Proofs.HostWrites Sys2Proof.Proofs.TierEvents

section
variable {s : State} {w : Nat}

/-! ## Resets and requests (R380, R392, R393) -/

theorem powerOn_resets (h : s.off = true) : exec .powerOn s = .next { afterReset s with off := false } :=
  congrArg Host.Outcome.next (if_pos h)

theorem resetPackage_on (h : s.off = false) : resetPackage s = afterReset (commitCounters s) := if_neg (by simp [h])

theorem rstCtl_resets (h : ready s = true) : exec .rstCtlReset s = .next (afterReset (commitCounters s)) :=
  congrArg Host.Outcome.next ((if_pos (ready_iff.1 h).1).trans (resetPackage_on (ready_iff.1 h).2.1))

theorem requestOn_ready (h : ready s = true) : exec .pwrReqOn s = .next { s with pwrResult := 1#2 } := by
  obtain ⟨hphase, hoff, hpwr⟩ := ready_iff.1 h
  exact congrArg Host.Outcome.next ((if_neg (by simp [hoff])).trans ((if_neg hpwr).trans (if_pos hphase)))

theorem requestOn_standby (hoff : s.off = false) (hpwr : s.pwrState = 2#2) (hphase : s.phase = 7#4) :
    exec .pwrReqOn s = .next { s with phase := 5#4 } :=
  congrArg Host.Outcome.next ((if_neg (by simp [hoff])).trans ((if_pos hpwr).trans (if_pos hphase)))

theorem requestOff_ready (h : ready s = true) :
    exec .pwrReqOff s = .next { afterReset (commitCounters s) with off := true } := by
  obtain ⟨hphase, hoff, -⟩ := ready_iff.1 h
  exact congrArg Host.Outcome.next ((if_neg (by simp [hoff])).trans (if_pos (.inl hphase)))

theorem requestStandby_refused (h : ready s = true) (hmay : mayStandby s = false) :
    exec .pwrReqStandby s = .next { s with pwrResult := 2#2 } :=
  congrArg Host.Outcome.next ((if_neg (by simp [h])).trans (if_pos (by simp [hmay])))

theorem requestStandby_granted (h : ready s = true) (hmay : mayStandby s = true) :
    ∃ t, exec .pwrReqStandby s = .next t ∧ t.pwrState = 2#2 ∧ t.pwrResult = 1#2 :=
  ⟨_, congrArg Host.Outcome.next ((if_neg (by simp [h])).trans (if_neg (by simp [hmay]))), rfl, rfl⟩

/-! ## Boot phases (R381) -/

section
variable (hoff : s.off = false) (hberr : s.berr = 0#4)
include hoff hberr

theorem bootPhase_steps (o : BootOutcome) : exec (.bootPhase o) s = .next (bootStep s o) :=
  congrArg Host.Outcome.next (if_neg (by simp [hoff, hberr]))

omit hoff hberr in
theorem bootNext_from {p : BitVec 4} (hphase : s.phase = p) : bootNext s = { s with phase := p + 1 } :=
  congrArg (fun p => { s with phase := p + 1 }) hphase

theorem bootPhase_start (hphase : s.phase = 0#4) : exec (.bootPhase .pass) s = .next { s with phase := 1#4 } := by
  rw [bootPhase_steps hoff hberr]
  unfold bootStep
  rw [hphase]
  exact congrArg Host.Outcome.next (bootNext_from hphase)

theorem bootPhase_stacks (hphase : s.phase = 3#4) : exec (.bootPhase .pass) s = .next { s with phase := 4#4 } := by
  rw [bootPhase_steps hoff hberr]
  unfold bootStep
  rw [hphase]
  exact congrArg Host.Outcome.next (bootNext_from hphase)

omit hoff hberr in
/-- Devices that are left out are logged, and nothing else. -/
theorem logAll_eq (l : List Nat) (t : State) : l.foldl (fun s d => logEvent s 19 d) t =
    { t with msc := { t.msc with events := t.msc.events ++ l.map fun d => (19, d) } } := by
  induction l generalizing t with
  | nil => simp
  | cons d l ih =>
    rw [List.foldl_cons, ih]
    simp [logEvent]

theorem bootPhase_bulk (n : Nat) (l : List Nat) (hphase : s.phase = 4#4) :
    ∃ t, exec (.bootPhase (.bulk n l)) s = .next t ∧ t.phase = 5#4 ∧ t.bulkSize = min n s.caps.mounted.toNat ∧
      t.msc.events = s.msc.events ++ l.map fun d => (19, d) := by
  have hstep : bootStep s (.bulk n l) = bootNext { s with
      bulkSize := min n s.caps.mounted.toNat
      msc := { s.msc with events := s.msc.events ++ l.map fun d => (19, d) } } := by
    unfold bootStep
    rw [hphase]
    exact congrArg bootNext (logAll_eq l _)
  refine ⟨_, (bootPhase_steps hoff hberr _).trans (congrArg _ hstep), ?_, rfl, rfl⟩
  show s.phase + 1 = 5#4
  rw [hphase]
  rfl

theorem bootPhase_noPorts (c o : List Nat) (b : List (Nat × Nat)) (hphase : s.phase = 5#4) (hc : c.contains 0 = true) :
    exec (.bootPhase (.ports c o b)) s = .next { s with
      berr := 6#4
      bdetail := 0x20#8 } := by
  have hstep : bootStep s (.ports c o b) = bootFail s 6 0x20 := by
    unfold bootStep
    rw [hphase]
    exact if_pos hc
  exact (bootPhase_steps hoff hberr _).trans (congrArg _ hstep)

end

/-- What training the links leaves of a package. -/
def untrained (s : State) : BitVec 4 × BitVec 2 × BitVec 64 × Config.Caps := (s.phase, s.pwrState, s.frame, s.caps)

theorem bootPorts_untrained (n : Nat) (c o : List Nat) (b : List (Nat × Nat)) : untrained (bootPorts n s c o b) = untrained s := by
  unfold bootPorts
  dsimp only
  split
  · refine (foldl_keeps untrained _ ?_ _ _).trans (foldl_keeps untrained _ ?_ _ _)
    · intro t p
      split <;> rfl
    · intro t p
      split <;> rfl
  · refine foldl_keeps untrained _ ?_ _ _
    intro t p
    split <;> rfl

theorem bootPhase_ports (c o : List Nat) (b : List (Nat × Nat)) (hoff : s.off = false) (hpwr : s.pwrState = 2#2)
    (hberr : s.berr = 0#4) (hphase : s.phase = 5#4) (hc : c.contains 0 = false) :
    ∃ t, exec (.bootPhase (.ports c o b)) s = .next t ∧ t.phase = 6#4 ∧ t.pwrState = 2#2 ∧ t.frame = s.frame ∧
      t.caps = s.caps := by
  have hstep : bootStep s (.ports c o b) = bootNext (bootBounds (bootPorts s.caps.cxlPorts.toNat s c o b)) := by
    unfold bootStep
    rw [hphase]
    exact if_neg (by simpa using hc)
  have hp := bootPorts_untrained (s := s) s.caps.cxlPorts.toNat c o b
  simp only [untrained, Prod.mk.injEq] at hp
  obtain ⟨kphase, kpwr, kframe, kcaps⟩ := hp
  refine ⟨_, (bootPhase_steps hoff hberr _).trans (congrArg _ hstep), ?_, kpwr.trans hpwr, kframe, kcaps⟩
  show (bootPorts s.caps.cxlPorts.toNat s c o b).phase + 1 = 6#4
  rw [kphase, hphase]
  rfl

/-- READY begins again after STANDBY. -/
theorem bootPhase_wakes (hoff : s.off = false) (hpwr : s.pwrState = 2#2) (hberr : s.berr = 0#4) (hphase : s.phase = 6#4)
    (htails : s.tails = []) :
    ∃ t, exec (.bootPhase .pass) s = .next t ∧ t.phase = 7#4 ∧ t.pwrState = 0#2 ∧ t.pwrResult = 1#2 ∧ t.frame = s.frame ∧
      t.caps = s.caps ∧ t.mem = s.mem ∧ ∀ core, (mapGet {} t.cores core).gctr = 0#16 := by
  have hstep : bootStep s .pass = leaveStandby (voidCores s) := by
    unfold bootStep
    rw [hphase]
    exact if_pos hpwr
  have hleave : leaveStandby (voidCores s) = { voidCores s with
      phase := 7#4
      pwrState := 0#2
      pwrResult := 1#2
      idleSeen := s.frame.toNat
      tails := []
      dies := (voidCores s).dies.map fun d => (d.1, { d.2 with sems := [] }) } := by
    unfold leaveStandby
    rw [show (voidCores s).tails = [] from htails]
    rfl
  exact ⟨_, (bootPhase_steps hoff hberr _).trans (congrArg _ (hstep.trans hleave)), rfl, rfl, rfl, rfl, rfl, rfl, fun _ => rfl⟩

/-! ## The advance of FRAME (R5) -/

/-- What the MSC's counting leaves of a package. -/
def uncounted (s : State) : BitVec 64 × Nat × FMap Strand × Memory := (s.frame, s.winTicks, s.strands, s.mem)

theorem countTemps_uncounted : uncounted (countTemps s) = uncounted s := by
  unfold countTemps
  refine (foldl_keeps uncounted _ ?_ _ _).trans (foldl_keeps uncounted _ ?_ _ _)
  · exact fun _ _ => rfl
  · exact fun _ _ => rfl

theorem mscTick_uncounted : uncounted (mscTick s) = uncounted s := by
  unfold mscTick
  dsimp only
  split
  · refine countTemps_uncounted.trans ?_
    split <;> rfl
  · split <;> rfl

theorem frameTick_standby (hoff : s.off = false) (hpwr : s.pwrState = 2#2) :
    ∃ t, exec .frameTick s = .next t ∧ t.frame = s.frame + 1 ∧ t.winTicks = s.winTicks + 1 ∧ t.strands = s.strands ∧
      t.mem = s.mem := by
  have h := mscTick_uncounted (s := { s with
    frame := s.frame + 1
    winTicks := s.winTicks + 1 })
  simp only [uncounted, Prod.mk.injEq] at h
  exact ⟨_, congrArg Host.Outcome.next ((if_neg (by simp [hoff])).trans (if_pos hpwr)), h⟩

/-- No frame is open: none slips. -/
theorem slipAll_closed (t : State) (h : ∀ d, d ∈ s.dies → ∀ q, q ∈ d.2.queues → q.2.frame = none) : slipAll s t = t := by
  have hq : ∀ (die : Nat) (l : FMap Queue) (t : State), (∀ q ∈ l, q.2.frame = none) →
      l.foldl (fun t q => if q.2.frame.isSome then slipQueue s t die q.1 else t) t = t := fun die l => by
    induction l with
    | nil => exact fun t _ => rfl
    | cons q l ih =>
      intro t hl
      rw [List.foldl_cons, if_neg (by simp [hl q List.mem_cons_self])]
      exact ih t fun x hx => hl x (List.mem_cons_of_mem q hx)
  have hd : ∀ (l : FMap Die) (t : State), (∀ d ∈ l, ∀ q ∈ d.2.queues, q.2.frame = none) →
      l.foldl (fun t d => d.2.queues.foldl (fun t q => if q.2.frame.isSome then slipQueue s t d.1 q.1 else t) t) t = t := fun l => by
    induction l with
    | nil => exact fun t _ => rfl
    | cons d l ih =>
      intro t hl
      rw [List.foldl_cons, hq d.1 d.2.queues t (hl d List.mem_cons_self)]
      exact ih t fun x hx => hl x (List.mem_cons_of_mem d hx)
  exact hd s.dies t h

/-- The gatherer is at rest under a FRAME. -/
def GatherIdle (f : BitVec 64) (t : State) : Prop := t.frame = f ∧ ∀ r, (rqAt t r).active = false

theorem settleRels_idle {f : BitVec 64} (fuel : Nat) {t : State} (r : Nat) (h : GatherIdle f t) :
    GatherIdle f (settleRels fuel t r) := by
  induction fuel generalizing t with
  | zero => unfold settleRels; exact h
  | succ k ih =>
    unfold settleRels
    cases hr : (rqAt t r).rels with
    | nil => exact h
    | cons x l =>
      dsimp only
      split
      · refine ih ⟨h.1, fun r' => ?_⟩
        rw [rqAt_semAdd, rqAt_modRq]
        split
        · exact h.2 r
        · exact h.2 r'
      · exact h

theorem rqFrame_idle {f : BitVec 64} {t : State} (r : Nat) (h : GatherIdle f (settleRels (rqAt t r).rels.length t r)) :
    rqFrame t r = settleRels (rqAt t r).rels.length t r := by
  unfold rqFrame
  dsimp only
  rw [h.2 r]
  rfl

theorem rqTurn_idle {f : BitVec 64} {t : State} (r : Nat) (h : GatherIdle f t) : GatherIdle f (rqTurn t r) := by
  have hs : GatherIdle f (settleRels (rqAt t r).rels.length { t with stall := false } r) := settleRels_idle _ r h
  have hframe : rqFrame { t with stall := false } r = settleRels (rqAt t r).rels.length { t with stall := false } r :=
    rqFrame_idle r hs
  unfold rqTurn
  rw [hframe]
  dsimp only
  split
  · exact settleRels_idle _ r h
  · exact hs

theorem rqTurns_idle {f : BitVec 64} (l : FMap RqCtx) {t : State} (h : GatherIdle f t) :
    GatherIdle f (l.foldl (fun s g => rqTurn s g.1) t) := by
  induction l generalizing t with
  | nil => exact h
  | cons g l ih => exact ih (rqTurn_idle g.1 h)

theorem frameTick_ready (hready : ready s = true) (hframes : ∀ d, d ∈ s.dies → ∀ q, q ∈ d.2.queues → q.2.frame = none)
    (hidle : ∀ r, (rqAt s r).active = false) : ∃ t, exec .frameTick s = .next t ∧ t.frame = s.frame + 1 := by
  obtain ⟨hphase, hoff, hpwr⟩ := ready_iff.1 hready
  refine ⟨_, congrArg Host.Outcome.next ((if_neg (by simp [hoff])).trans ((if_neg hpwr).trans (if_pos hphase))), ?_⟩
  unfold tickOn
  dsimp only
  rw [slipAll_closed _ hframes]
  have hstart : GatherIdle (s.frame + 1) { s with
      frame := s.frame + 1
      winTicks := s.winTicks + 1
      idleSeen := if packageIdle s then s.idleSeen else (s.frame + 1).toNat } := ⟨rfl, hidle⟩
  exact (congrArg Prod.fst mscTick_uncounted).trans (rqTurns_idle s.rq hstart).1

/-! ## Power (R392, R394) -/

/-- What the end of a window records. -/
def windowEnd (s : State) (w above : Nat) (lvl : BitVec 2) : State :=
  { s with
    winTicks := 0
    pwrInput := BitVec.ofNat 32 w
    plvl := lvl
    overWins := above }

section
variable (hon : ready s = true ∨ s.pwrState = 2#2) (hticks : 1024 ≤ s.winTicks)
include hon hticks

/-- A window ends, with its power level and the windows in a row above the cap. -/
theorem powerWindow_ends {above : Nat} {lvl : BitVec 2}
    (habove : (if s.pwrCap.toNat < w ∧ s.plvl = 3#2 then s.overWins + 1 else 0) = above)
    (hlvl : nextLevel s.plvl w s.pwrCap.toNat = lvl) :
    exec (.powerWindow w) s = .next (if above = 8 then logEvent (windowEnd s w above lvl) 18 w else windowEnd s w above lvl) := by
  subst habove hlvl
  refine if_neg ?_
  have : decide (s.winTicks < 1024) = false := by simpa using hticks
  rcases hon with h | h <;> simp [h, this]

theorem powerWindow_raises (hcap : s.pwrCap.toNat < w) (hlvl : s.plvl ≠ 3#2) :
    exec (.powerWindow w) s = .next (windowEnd s w 0 (s.plvl + 1)) :=
  (powerWindow_ends hon hticks (if_neg fun h => hlvl h.2) ((if_pos hcap).trans (if_neg hlvl))).trans
    (congrArg Host.Outcome.next (if_neg (by decide)))

theorem powerWindow_over (hcap : s.pwrCap.toNat < w) (hlvl : s.plvl = 3#2) :
    exec (.powerWindow w) s = .next (if s.overWins = 7 then logEvent (windowEnd s w (s.overWins + 1) s.plvl) 18 w
      else windowEnd s w (s.overWins + 1) s.plvl) := by
  refine (powerWindow_ends hon hticks (if_pos ⟨hcap, hlvl⟩) ((if_pos hcap).trans (if_pos hlvl))).trans ?_
  by_cases h : s.overWins = 7
  · rw [if_pos h, if_pos (by omega)]
  · rw [if_neg h, if_neg (by omega)]

omit hon hticks in
theorem nextLevel_under (hcap : w ≤ s.pwrCap.toNat) : nextLevel s.plvl w s.pwrCap.toNat =
    if 20 * w < 19 * s.pwrCap.toNat ∧ s.plvl ≠ 0#2 then s.plvl - 1 else s.plvl := by
  rw [nextLevel, if_neg (Nat.not_lt.2 hcap)]
  by_cases hlow : 20 * w < 19 * s.pwrCap.toNat <;> by_cases hz : s.plvl = 0#2 <;> simp [hlow, hz]

theorem powerWindow_under (hcap : w ≤ s.pwrCap.toNat) : exec (.powerWindow w) s =
    .next (windowEnd s w 0 (if 20 * w < 19 * s.pwrCap.toNat ∧ s.plvl ≠ 0#2 then s.plvl - 1 else s.plvl)) :=
  (powerWindow_ends hon hticks (if_neg fun h => Nat.not_lt.2 hcap h.1) (nextLevel_under hcap)).trans
    (congrArg Host.Outcome.next (if_neg (by decide)))

end

theorem idleEnter_idles (hready : ready s = true) (hon : s.pwrState = 0#2) (hidle : packageIdle s = true)
    (hticks : s.idleTicks.toNat ≤ s.frame.toNat - s.idleSeen) : exec .idleEnter s = .next { s with pwrState := 1#2 } :=
  congrArg Host.Outcome.next (if_pos ⟨hready, hon, hidle, hticks⟩)

theorem counterCommit_commits (hoff : s.off = false) :
    exec .counterCommit s = .next (commitCounters (mscCount s (0, 0, 0) 1)) :=
  congrArg Host.Outcome.next (if_neg (by simp [hoff]))

end

/-- Settles O47: each reset, phase, tick and window acts on the package as its state says. -/
theorem bootAndPower : Obligations.BootAndPower := by
  intro s w
  exact ⟨powerOn_resets, fun hoff => congrArg Host.Outcome.next (resetPackage_on hoff), rfl,
    fun hready => ⟨rstCtl_resets hready, requestOn_ready hready, requestOff_ready hready,
      fun hmay => requestStandby_refused hready hmay, fun hmay => requestStandby_granted hready hmay⟩,
    fun hoff hberr => ⟨fun hphase => bootPhase_start hoff hberr hphase, fun hphase => bootPhase_stacks hoff hberr hphase,
      fun n l hphase => bootPhase_bulk hoff hberr n l hphase⟩,
    fun hoff hpwr hphase => requestOn_standby hoff hpwr hphase,
    fun hoff hpwr hberr => ⟨fun c o b hphase hc => bootPhase_ports c o b hoff hpwr hberr hphase hc,
      fun hphase htails => bootPhase_wakes hoff hpwr hberr hphase htails⟩,
    fun c o b hoff hberr hphase hc => bootPhase_noPorts hoff hberr c o b hphase hc,
    fun hoff hpwr => frameTick_standby hoff hpwr,
    fun hready hframes hidle => frameTick_ready hready hframes hidle,
    fun hon hticks hcap hlvl => powerWindow_raises hon hticks hcap hlvl,
    fun hon hticks hcap hlvl => powerWindow_over hon hticks hcap hlvl,
    fun hon hticks hcap => powerWindow_under hon hticks hcap,
    fun hready hon hidle hticks => idleEnter_idles hready hon hidle hticks, fun hoff => counterCommit_commits hoff⟩

end Sys2Proof.Proofs.BootPower
end

section
/-! What the management and security core answers (R243, R379, R385 to R387). -/
namespace Sys2Proof.Proofs.SecurityCore
open Sys2Proof Sys2Proof.Machine Sys2Proof.Safety Sys2Proof.Laws

section
variable {s : State}

/-- An answer of the core, where it answers. -/
theorem reply_answers {st : Nat} {l : List Byte} (h : answers s = true) : reply s st l = .next (emit s (.ext l st)) :=
  congrArg Host.Outcome.next (if_pos h)

section
variable (h : answers s = true)
include h

/-! ## Counters, certificates and the log (R379, R385, R386) -/

theorem readCounter_unknown {c k b : Nat} (hc : 11 ≤ c) : exec (.readCounter c k b) s = .next (emit s (.ext [] 1)) :=
  (if_pos hc).trans (reply_answers h)

theorem readCounter_noBin {c k b : Nat} (hc : c < 11) (hbin : hasBin s (c, k, b) = false) :
    exec (.readCounter c k b) s = .next (emit s (.ext [] 2)) :=
  (if_neg (Nat.not_le.2 hc)).trans ((if_pos (by simp [hbin])).trans (reply_answers h))

theorem readCounter_value {c k b : Nat} (hc : c < 11) (hbin : hasBin s (c, k, b) = true) :
    exec (.readCounter c k b) s =
      .next (emit s (.ext (toBytes (counterWidth (c, k, b)) (d64 (counterValue s (c, k, b)))) 0)) :=
  (if_neg (Nat.not_le.2 hc)).trans ((if_neg (by simp [hbin])).trans (reply_answers h))

theorem getCert_answers {c off : Nat} (hc : c < 2) :
    exec (.getCert c off) s = .next (emit s (.ext (((certOf s c).drop off).take 1024) 0)) :=
  (if_neg (Nat.not_le.2 hc)).trans (reply_answers h)

/-! ## Firmware (R383, R387) -/

theorem fwStage_unknown {k pa : Nat} (hk : isKind k = false) : exec (.fwStage k pa) s = .next (emit s (.ext [] 1)) :=
  (if_neg (by simp [h])).trans ((if_pos (by simp [hk])).trans (reply_answers h))

theorem fwStage_stages {k pa : Nat} (hk : isKind k = true) : ∃ t, exec (.fwStage k pa) s = .next t ∧
    (answers (stageImage s k pa).2 = true → t = emit (stageImage s k pa).2 (.ext [] (stageImage s k pa).1)) :=
  ⟨_, (if_neg (by simp [h])).trans (if_neg (by simp [hk])), fun ha => if_pos ha⟩

omit h in
theorem appendLog_room {r : BitVec 512} (hroom : s.msc.log.length < 1024) : appendLog s r = { s with msc := { s.msc with
    log := s.msc.log ++ [r]
    loghash := Config.sha3 (toBytes 64 s.msc.loghash ++ toBytes 64 r) } } := if_neg (Nat.not_le.2 hroom)

/-- The floor of a KIND rises to an SVN. -/
def floorRaised (s : State) (k v : Nat) : State :=
  { s with msc := { s.msc with floors := mapPut s.msc.floors k (max (mapGet 0 s.msc.floors k) v) } }

theorem fwCommit_logs {k v : Nat} (hv : mapFind s.msc.svn k = some v) : exec (.fwCommit k) s =
    reply (appendLog (floorRaised s k v)
      (ofBytes 512 (toBytes 4 (d64 k) ++ toBytes 4 (d64 (max (mapGet 0 s.msc.floors k) v))))) 0 [] := by
  refine (if_neg (by simp [h])).trans ?_
  rw [hv]
  rfl

theorem fwCommit_raises {k v : Nat} (hv : mapFind s.msc.svn k = some v) (hroom : s.msc.log.length < 1024) :
    ∃ t, exec (.fwCommit k) s = .next t ∧ mapFind t.msc.floors k = some (max (mapGet 0 s.msc.floors k) v) ∧
      t.msc.log.length = s.msc.log.length + 1 ∧ t.out = s.out ++ [.ext [] 0] := by
  have hexec := fwCommit_logs h hv
  rw [appendLog_room (s := floorRaised s k v) hroom] at hexec
  refine ⟨_, hexec.trans (reply_answers h), ?_, ?_, rfl⟩
  · exact (mapFind_put _ _ _ _).trans (if_pos rfl)
  · exact List.length_append

theorem setEndpoint_takes {i : Bool} {id : BitVec 8} : exec (.setEndpointId i id) s =
    .next { s with msc := if i then { s.msc with epI3c := id } else { s.msc with epPcie := id } } :=
  congrArg Host.Outcome.next (if_neg (by simp [h]))

theorem unknownCommand_answers {c : BitVec 8} (hc : mscCommands.contains c = false) :
    exec (.unknownCommand c) s = .next (emit s (.ext [] 1)) :=
  (if_neg (by rw [hc]; decide)).trans (reply_answers h)

/-! ## Debug accesses (R243) -/

section
variable (hready : ready s = true)
include hready

theorem debugRead_current {o : DebugObj} {g : Gen} (ho : hasObj s o = true) (hg : (debugObj s o).1 = some g) :
    exec (.debugRead o g) s = .next (emit s (.ext ((debugObj s o).2 ++ [0#8]) 0)) :=
  (if_neg (by simp [hready, ho])).trans ((if_pos hg).trans (reply_answers h))

theorem debugRead_stale {o : DebugObj} {g : Gen} (ho : hasObj s o = true) (hg : (debugObj s o).1 ≠ some g) :
    exec (.debugRead o g) s = .next (emit s (.ext ((debugObj s o).2.map (fun _ => 0#8) ++ [1#8]) 0)) :=
  (if_neg (by simp [hready, ho])).trans ((if_neg hg).trans (reply_answers h))

theorem rawRead_logs {o : DebugObj} {n : Nat} (ho : hasObj s o = true) (hn : coreSpace s (objKey o).1 = some n)
    (hconsent : (spaceReg s n).consent = true) (hpol : s.msc.policy.getLsbD 0 = true) (hroom : s.msc.log.length < 1024) :
    exec (.rawRead o) s = .next (emit (appendLog s (rawRecord s o)) (.ext ((debugObj s o).2 ++ [0#8]) 0)) := by
  have hans : answers (appendLog s (rawRecord s o)) = true := by
    rw [appendLog_room hroom]
    exact h
  refine (if_neg (by simp [h])).trans ((if_neg (by simp [hready, ho])).trans ((if_neg ?_).trans (reply_answers hans)))
  rw [hn, hpol]
  simp only [Option.map_some, Option.getD_some, hconsent, Bool.true_eq_false, false_or, Nat.not_le]
  exact hroom

omit h hready in
/-- A scalar register of the core's strand is written; x0 holds nothing. -/
theorem putObj_x {core n : Nat} {g : Gen} {cur : Bool} {l : List Byte} {st : Strand} (hst : strandAt s core = some st) :
    putObj s core g cur (.x core n) l = setStrand s core
      (if n = 0 then st else { st with r := { st.r with x := mapSet {} st.r.x n { gen := g, val := ofBytes 64 l } } }) := by
  refine (modStrand_some _ hst).trans (congrArg (setStrand s core) ?_)
  dsimp only
  split <;> rfl

/-- A debug write replaces bytes of an object of the core's strand, under the strand's generation. -/
theorem debugWrite_puts {o : DebugObj} {off : Nat} {b : List Byte} {st : Strand} (ho : hasObj s o = true)
    (hst : strandAt s (objKey o).1 = some st) : exec (.debugWrite o off b) s =
      reply (putObj s (objKey o).1 st.cgen ((debugObj s o).1 == some st.cgen) o
        (patch (debugObj s o).2 ((debugObj s o).1 == some st.cgen) off (b.take 64))) 0 [] := by
  refine (if_neg (by simp [h])).trans ?_
  rw [hst]
  exact if_neg (by simp [hready, ho])

variable {core off : Nat} {b : List Byte} {st : Strand} (hcore : core < s.caps.dies.toNat * coresPerDie)
  (hst : strandAt s core = some st)
include hcore hst

theorem debugWrite_granule {g : Nat} (hg : g < 4096) : exec (.debugWrite (.granule core g) off b) s = .next (emit { s with
    spad := mapSet {} s.spad (core * spadGrans + g) { gen := st.cgen, val := ofBytes 512 (patch (debugObj s (.granule core g)).2
      ((debugObj s (.granule core g)).1 == some st.cgen) off (b.take 64)) } } (.ext [] 0)) := by
  have ho : hasObj s (.granule core g) = true := by
    simp only [hasObj, Bool.and_eq_true, decide_eq_true_eq]
    exact ⟨hcore, hg⟩
  exact (debugWrite_puts h hready ho hst).trans (reply_answers h)

theorem debugWrite_x {n : Nat} (hn : n < 32) : exec (.debugWrite (.x core n) off b) s = .next (emit
    (setStrand s core (if n = 0 then st else { st with r := { st.r with x := mapSet {} st.r.x n { gen := st.cgen, val := (ofBytes 64
      (patch (debugObj s (.x core n)).2 ((debugObj s (.x core n)).1 == some st.cgen) off (b.take 64))) } } })) (.ext [] 0)) := by
  have ho : hasObj s (.x core n) = true := by
    simp only [hasObj, Bool.and_eq_true, decide_eq_true_eq]
    exact ⟨hcore, hn⟩
  refine (debugWrite_puts h hready ho hst).trans ?_
  rw [show (objKey (.x core n)).1 = core from rfl, putObj_x hst]
  exact reply_answers h

end

end

end

/-- Settles O48: each command's conditions pick its answer. -/
theorem securityCommands : Obligations.SecurityCommands := by
  intro s h ans
  exact ⟨fun c k b hc => readCounter_unknown h hc, fun c k b hc hbin => readCounter_noBin h hc hbin,
    fun c k b hc hbin => readCounter_value h hc hbin,
    fun off => ⟨getCert_answers h (by decide), getCert_answers h (by decide)⟩, fun nonce => reply_answers h,
    fun i n => reply_answers h, fun k hk pa => fwStage_unknown h hk, fun k pa hk => fwStage_stages h hk,
    fun k v hv hroom => fwCommit_raises h hv hroom,
    fun id => ⟨setEndpoint_takes h (i := true), setEndpoint_takes h (i := false)⟩, fun c hc => unknownCommand_answers h hc,
    fun hready o g ho => ⟨fun hg => debugRead_current h hready ho hg, fun hg => debugRead_stale h hready ho hg⟩,
    fun hready o n ho hn hconsent hpol hroom => rawRead_logs h hready ho hn hconsent hpol hroom,
    fun hready g n off b core st hg hcore hst hn =>
      ⟨debugWrite_granule h hready hcore hst hg, debugWrite_x h hready hcore hst hn⟩⟩

end Sys2Proof.Proofs.SecurityCore
end

section
/-! Where a store's bytes land (R271, R361, R363, R370). -/
namespace Sys2Proof.Proofs.BytesOfStores
open Sys2Proof Sys2Proof.Machine Sys2Proof.Safety Sys2Proof.Laws

/-! ## The bytes of a granule -/

/-- A digit of a number that is packed from its digits. -/
theorem packNat_digit (l : List Byte) (i : Nat) : packNat 8 (l.map BitVec.toNat) / 2 ^ (8 * i) % 2 ^ 8 = (l.getD i 0#8).toNat := by
  induction l generalizing i with
  | nil => simp [packNat]
  | cons d r ih =>
    have hd := d.isLt
    have hp : packNat 8 ((d :: r).map BitVec.toNat) = d.toNat + packNat 8 (r.map BitVec.toNat) * 2 ^ 8 := by
      simp [packNat, Nat.shiftLeft_eq]
    rw [hp]
    cases i with
    | zero =>
      rw [List.getD_cons_zero, Nat.mul_zero, Nat.pow_zero, Nat.div_one, Nat.add_mul_mod_self_right, Nat.mod_eq_of_lt hd]
    | succ i =>
      rw [List.getD_cons_succ, ← ih i, show 8 * (i + 1) = 8 + 8 * i by omega, Nat.pow_add, ← Nat.div_div_eq_div_mul,
        Nat.add_mul_div_right _ _ (by decide), Nat.div_eq_of_lt hd, Nat.zero_add]

/-- A byte of a granule that is packed from its bytes. -/
theorem ofBytes_byte (l : List Byte) {i : Nat} (hi : i < 64) : (ofBytes 512 l : Granule).extractLsb' (8 * i) 8 = l.getD i 0#8 := by
  apply BitVec.eq_of_toNat_eq
  have h512 : 2 ^ 512 = 2 ^ (8 * i) * 2 ^ (512 - 8 * i) := by rw [← Nat.pow_add]; congr 1; omega
  rw [BitVec.extractLsb'_toNat, Nat.shiftRight_eq_div_pow, ofBytes, packElems, BitVec.toNat_ofNat, h512, Nat.mod_mul_right_div_self,
    Nat.mod_mod_of_dvd _ (Nat.pow_dvd_pow 2 (by omega)), packNat_digit]

theorem granBytes_length (v : Granule) (off n : Nat) : (granBytes v off n).length = n := by simp [granBytes]

theorem granBytes_byte (v : Granule) {i : Nat} (hi : i < 64) : (granBytes v 0 64).getD i 0#8 = v.extractLsb' (8 * i) 8 := by
  simp [granBytes, List.getD, hi]

theorem mergeGran_byte (a b : Granule) (m : BitVec 64) {i : Nat} (hi : i < 64) : (mergeGran a b m).extractLsb' (8 * i) 8 =
    if m.getLsbD i then b.extractLsb' (8 * i) 8 else a.extractLsb' (8 * i) 8 := by
  rw [mergeGran, ofBytes_byte _ hi]
  simp [List.getD, hi]

theorem memGran_byte (m : Memory) (g : Nat) {i : Nat} (hi : i < 64) :
    (memGran m g).extractLsb' (8 * i) 8 = memByte m (64 * g + i) := by
  rw [memGran, ofBytes_byte _ hi, memBytes]
  simp only [List.getD, List.getElem?_map, List.getElem?_range hi, Option.map_some, Option.getD_some]
  unfold memByte mapGet
  rw [mapFind_filter m (fun a => decide (64 * g ≤ a) && decide (a < 64 * g + 64)), if_pos (by simp; omega)]

/-- A granule's write changes its own bytes alone. -/
theorem memByte_granule (m : Memory) (g : Nat) (v : Granule) (a : Nat) : memByte (memPut m (64 * g) (granBytes v 0 64)) a =
    if a / 64 = g then v.extractLsb' (8 * (a % 64)) 8 else memByte m a := by
  rw [memByte_memPut, granBytes_length]
  by_cases h : a / 64 = g
  · rw [if_pos (by omega), if_pos h, show a - 64 * g = a % 64 by omega, granBytes_byte _ (Nat.mod_lt _ (by decide))]
  · rw [if_neg (by omega), if_neg h]

/-! ## A controller's entry (R361, R363) -/

section
variable {s : State} {n g : Nat} {e : WqEntry}

/-- The reads that wait at a controller. -/
def waitingAt (n : Nat) (s : State) : List (Nat × BitVec 6 × Nat) := (ctlAt s n).waiting

theorem waitingAt_modCtl (c : Nat) (f : MemCtl → MemCtl) (h : ∀ x, (f x).waiting = x.waiting) :
    waitingAt n (modCtl s c f) = waitingAt n s := by
  unfold waitingAt
  rw [ctlAt_modCtl]
  split
  · rename_i hc
    rw [h, hc]
  · rfl

theorem waitingAt_dropEntry : waitingAt n (dropEntry s g e) = waitingAt n s := waitingAt_modCtl (s := { s with wq := mapErase s.wq g }) _ _ fun _ => rfl

theorem waitingAt_countUe (c k : Nat) : waitingAt n (countUe s c k) = waitingAt n s :=
  waitingAt_modCtl (s := s) c (fun x => { x with ue := satInc32 x.ue }) fun _ => rfl

theorem waitingAt_countInt (c k : Nat) : waitingAt n (countInt s c k) = waitingAt n s :=
  waitingAt_modCtl (s := s) c (fun x => { x with int := satInc32 x.int }) fun _ => rfl

theorem waitingAt_countCe (c : Nat) : waitingAt n (countCe s c) = waitingAt n s :=
  waitingAt_modCtl (s := s) c (fun x => { x with ce := satInc32 x.ce }) fun _ => rfl

theorem waitingAt_devRead (c : Nat) (d : Option (BitVec 6)) : waitingAt n (devRead s c g d).2 = waitingAt n s := by
  unfold devRead
  dsimp only
  split
  · rfl
  · split
    · exact waitingAt_countUe c g
    · split
      · exact waitingAt_countUe c g
      · split
        · dsimp only
          split
          · exact waitingAt_countCe c
          · rfl
        · exact waitingAt_countInt c g

theorem waitingAt_ackAll (l : List (Nat × Nat)) (f : Option Nat) (t : State) : waitingAt n (ackAll t l f) = waitingAt n t := by
  induction l generalizing t with
  | nil => rfl
  | cons w r ih => exact ih _

/-- Where no read waits, none is served. -/
theorem serveWaiting_mem (h : waitingAt n s = []) : (serveWaiting s n).mem = s.mem := by
  have hc : ∀ cls ok, serveClass s n cls ok = s := fun cls ok => by
    unfold serveClass
    rw [show (ctlAt s n).waiting = [] from h]
    rfl
  unfold serveWaiting
  dsimp only
  rw [hc, hc]
  rfl

/-- An entry whose mask is full is written as it is. -/
theorem drainEntry_full (he : mapFind s.wq g = some e) (hm : e.mask = BitVec.allOnes 64) :
    drainEntry s g = ackAll (devWrite (touchDev (dropEntry s g e) e.ctrl) g e.val e.dom e.p) e.writers none := by
  unfold drainEntry
  rw [he]
  exact if_pos hm

/-- An entry whose mask is partial is merged into what the device reads. -/
theorem drainEntry_partial {v : Granule} {s2 : State} (he : mapFind s.wq g = some e) (hm : e.mask ≠ BitVec.allOnes 64)
    (hv : devRead (touchDev (dropEntry s g e) e.ctrl) e.ctrl g (some e.dom) = (.ok v, s2)) :
    drainEntry s g = ackAll (devWrite s2 g (mergeGran v e.val e.mask) e.dom false) e.writers none := by
  unfold drainEntry
  rw [he]
  refine (if_neg hm).trans ?_
  rw [hv]

/-- A drained entry whose granule then holds `u`: where the reads of the controller wait for nothing, its event writes `u` and
nothing else. -/
theorem entryDrain_lands {u v : Granule} {t : State} {d : BitVec 6} {p : Bool} (hn : nextDrain (ctlAt s n) n = some g)
    (hd : drainEntry s g = ackAll (devWrite t g u d p) e.writers none) (hmem : t.mem = s.mem) (hwait : waitingAt n t = [])
    (hu : ∀ i, i < 64 → u.extractLsb' (8 * i) 8 = if e.mask.getLsbD i then e.val.extractLsb' (8 * i) 8 else v.extractLsb' (8 * i) 8) :
    ∃ r, exec (.entryDrain n) s = .next r ∧ (∀ a, a / 64 ≠ g → memByte r.mem a = memByte s.mem a) ∧
      ∀ i, i < 64 → memByte r.mem (64 * g + i) =
        if e.mask.getLsbD i then e.val.extractLsb' (8 * i) 8 else v.extractLsb' (8 * i) 8 := by
  have hr : (serveWaiting (drainEntry s g) n).mem = memPut s.mem (64 * g) (granBytes u 0 64) := by
    rw [serveWaiting_mem (by rw [hd, waitingAt_ackAll]; exact hwait), hd, ackAll_mem, ← hmem]
    rfl
  refine ⟨_, (Sys2Proof.Proofs.MemoryLinks.entryDrain_drains hn), fun a ha => ?_, fun i hi => ?_⟩
  · rw [hr, memByte_granule, if_neg ha]
  · rw [hr, memByte_granule, if_pos (by omega), show (64 * g + i) % 64 = i by omega, hu i hi]

theorem entryDrain_full {v : Granule} (hn : nextDrain (ctlAt s n) n = some g) (hwait : (ctlAt s n).waiting = [])
    (he : mapFind s.wq g = some e) (hm : e.mask = BitVec.allOnes 64) :
    ∃ r, exec (.entryDrain n) s = .next r ∧ (∀ a, a / 64 ≠ g → memByte r.mem a = memByte s.mem a) ∧
      ∀ i, i < 64 → memByte r.mem (64 * g + i) =
        if e.mask.getLsbD i then e.val.extractLsb' (8 * i) 8 else v.extractLsb' (8 * i) 8 := by
  refine entryDrain_lands hn (drainEntry_full he hm) rfl (waitingAt_dropEntry.trans hwait) fun i hi => ?_
  rw [if_pos (by rw [hm, BitVec.getLsbD_allOnes, decide_eq_true hi])]

theorem entryDrain_partial {v : Granule} {s2 : State} (hn : nextDrain (ctlAt s n) n = some g)
    (hwait : (ctlAt s n).waiting = []) (he : mapFind s.wq g = some e) (hm : e.mask ≠ BitVec.allOnes 64)
    (hv : devRead (touchDev (dropEntry s g e) e.ctrl) e.ctrl g (some e.dom) = (.ok v, s2)) :
    ∃ r, exec (.entryDrain n) s = .next r ∧ (∀ a, a / 64 ≠ g → memByte r.mem a = memByte s.mem a) ∧
      ∀ i, i < 64 → memByte r.mem (64 * g + i) =
        if e.mask.getLsbD i then e.val.extractLsb' (8 * i) 8 else v.extractLsb' (8 * i) 8 := by
  have hmem := devRead_mem (touchDev (dropEntry s g e) e.ctrl) e.ctrl g (some e.dom)
  have hw := waitingAt_devRead (n := n) (s := touchDev (dropEntry s g e) e.ctrl) (g := g) e.ctrl (some e.dom)
  rw [hv] at hmem hw
  exact entryDrain_lands hn (drainEntry_partial he hm hv) hmem (hw.trans (waitingAt_dropEntry.trans hwait)) fun i hi =>
    mergeGran_byte _ _ _ hi

/-! ## A store to POOL (R370) -/

theorem findStore_modPort {sid seq p : Nat} {f : CxlPort → CxlPort} : findStore (modPort s p f) sid seq = findStore s sid seq := rfl

/-- A store to POOL is performed as its completion comes. -/
theorem cxlCompletion_performs {sid seq x : Nat} {rest : List (Asker × Nat)} {w : StoreW}
    (hout : (portAt s n).out = (.store sid seq, x) :: rest) (hst : (portAt s n).state = 3#3)
    (hw : findStore s sid seq = some w) : exec (.cxlCompletion n 0 .ok) s =
      .next (enterStore (modPort s n fun x => { x with out := x.out.eraseIdx 0 }) w) := by
  refine (Sys2Proof.Proofs.MemoryLinks.cxlCompletion_answers (a := .store sid seq) (x := x) (by rw [hout]; rfl) (.inl hst) ?_).trans ?_
  · simp [overtakes]
  · refine congrArg Host.Outcome.next ?_
    show answerStore _ sid seq .ok = _
    unfold answerStore
    rw [if_neg (by decide), findStore_modPort, hw]

theorem enterStore_pool {w : StoreW} (htier : w.tier = 2#2) : (enterStore s w).mem =
    memPut s.mem (64 * (w.pa / 64)) (granBytes (mergeGran (memGran s.mem (w.pa / 64)) w.gran w.mask) 0 64) := by
  unfold enterStore
  dsimp only
  rw [if_pos htier, storeDone_mem, noteWrite_mem]

/-- A store to POOL changes the bytes that its mask names. -/
theorem memByte_enterStore {w : StoreW} (htier : w.tier = 2#2) (a : Nat) : memByte (enterStore s w).mem a =
    if a / 64 = w.pa / 64 ∧ w.mask.getLsbD (a % 64) = true then w.gran.extractLsb' (8 * (a % 64)) 8 else memByte s.mem a := by
  have ha : a % 64 < 64 := Nat.mod_lt _ (by decide)
  rw [enterStore_pool htier, memByte_granule]
  by_cases hg : a / 64 = w.pa / 64
  · rw [if_pos hg, mergeGran_byte _ _ _ ha, memGran_byte _ _ ha, ← hg, show 64 * (a / 64) + a % 64 = a by omega]
    simp
  · rw [if_neg hg, if_neg fun h => hg h.1]

end

/-- Settles O54: a drained entry is merged into its granule byte by byte, and so is a completed store to POOL. -/
theorem storesReachMemory : Obligations.StoresReachMemory := by
  refine ⟨fun s n g e hn hwait he => ⟨fun hm => entryDrain_full hn hwait he hm, fun v s2 hv => ?_⟩,
    fun s n sid seq x rest w hout hst hw htier => ⟨_, cxlCompletion_performs hout hst hw, fun a => memByte_enterStore htier a⟩⟩
  by_cases hm : e.mask = BitVec.allOnes 64
  · exact entryDrain_full hn hwait he hm
  · exact entryDrain_partial hn hwait he hm hv

end Sys2Proof.Proofs.BytesOfStores
end

section
/-! Memory in its canonical form (log entry 1): what an instruction's frame asks of its body, and the instructions of the
scalar stream. Memory is written only where a store, a drained entry or a reset writes it; whatever else an operation
changes leaves the form as it is. -/
namespace Sys2Proof.Proofs.ScalarMemory
open Sys2Proof Sys2Proof.Machine Sys2Proof.Safety Sys2Proof.Laws Sys2Proof.Proofs.ArrayState

/-- An outcome whose next state, where it has one, holds memory in its canonical form. -/
def OutOk : Out → Prop
  | .next t => MemOk t
  | _ => True

/-- A meaning that keeps memory in its canonical form. -/
def KeepsMem (f : State → Out) : Prop := ∀ s, MemOk s → OutOk (f s)

theorem outOk_of_next {o : Out} (h : ∀ t, o = .next t → MemOk t) : OutOk o := by
  cases o with
  | next t => exact h t rfl
  | _ => trivial

theorem memOk_of_outOk {o : Out} {t : State} (h : OutOk o) (e : o = .next t) : MemOk t := by rw [e] at h; exact h

theorem outOk_ite {c : Prop} [Decidable c] {a b : Out} (ha : OutOk a) (hb : OutOk b) : OutOk (if c then a else b) := by
  split <;> assumption

/-! ## Changes that memory is no part of -/

section
variable {s : State}

theorem modStrand_memOk {c : Nat} {f : Strand → Strand} (h : MemOk s) : MemOk (modStrand s c f) :=
  memOk_of_mem (modStrand_mem _ _ _) h

theorem modStream_memOk {c : Nat} {e : Engine} {f : Stream → Stream} (h : MemOk s) : MemOk (modStream s c e f) :=
  memOk_of_mem (modStream_mem _ _ _ _) h

theorem modCrew_memOk {k : Nat} {f : Crew → Crew} (h : MemOk s) : MemOk (modCrew s k f) := memOk_of_mem (modCrew_mem _ _ _) h

theorem modLaunch_memOk {n : Nat} {f : Launch → Launch} (h : MemOk s) : MemOk (modLaunch s n f) :=
  memOk_of_mem (modLaunch_mem _ _ _) h

theorem settle_memOk {c : Nat} (h : MemOk s) : MemOk (settle s c) := memOk_of_mem (settle_mem _ _) h

theorem takeTrap_memOk {c : Nat} {e : Engine} {r : TrapRec} (h : MemOk s) : MemOk (takeTrap s c e r) :=
  memOk_of_mem (takeTrap_mem _ _ _ _) h

theorem trapNow_memOk {c : Nat} {e : Engine} {t : Trapped} {p m : Bool} (h : MemOk s) : MemOk (trapNow s c e t p m) :=
  memOk_of_mem (trapNow_mem _ _ _ _ _ _) h

theorem closeEff_memOk {c : Nat} {e : Engine} {pat : BitVec 32} {r : Eff} (h : MemOk (effState r)) :
    MemOk (closeEff c e pat r) := memOk_of_mem (closeEff_mem _ _ _ _) h

theorem spWriteN_memOk {n c : Nat} {g : Gen} {o : Nat} {l : List Byte} (h : MemOk s) : MemOk (spWriteN n s c g o l) :=
  upheld_spWriteN upheld_memOk n c g o l h

theorem settlePhase_memOk {n copy g : Nat} (h : MemOk s) : MemOk (settlePhase s n copy g) := modLaunch_memOk h

theorem settleCrewBarrier_memOk {k : Nat} (h : MemOk s) : MemOk (settleCrewBarrier s k) := modCrew_memOk h

end

/-! ## The frame of an instruction -/

theorem issuePre_keepsMem {e : Engine} {tk : Tk} {pre : State → Nat → Strand → Option Trapped} {f : State → Nat → Strand → Eff}
    (hf : ∀ s c st, MemOk s → MemOk (effState (f s c st))) : KeepsMem (issuePre e tk pre f) :=
  fun _ h => outOk_of_next fun _ hs => issuePre_memOk hf h hs

theorem issue_keepsMem {e : Engine} {tk : Tk} {f : State → Nat → Strand → Eff}
    (hf : ∀ s c st, MemOk s → MemOk (effState (f s c st))) : KeepsMem (issue e tk f) := issuePre_keepsMem hf

/-- A body that ends in one of two ways. -/
theorem memOk_either {c : Prop} [Decidable c] {a b : Eff} (ha : MemOk (effState a)) (hb : MemOk (effState b)) :
    MemOk (effState (if c then a else b)) := by split <;> assumption

theorem memOk_choice {c : Prop} [Decidable c] {a b : State} (ha : MemOk a) (hb : MemOk b) : MemOk (if c then a else b) := by
  split <;> assumption

/-! ## Arithmetic and capabilities -/

theorem alu2_keepsMem (f : DWord → DWord → DWord) (tk xd xa xb) : KeepsMem (alu2 f tk xd xa xb) :=
  issue_keepsMem fun _ _ _ h => orTrap_memOk h fun _ _ => h

theorem aluI_keepsMem (f : DWord → DWord → DWord) (tk xd xa imm) : KeepsMem (aluI f tk xd xa imm) :=
  issue_keepsMem fun _ _ _ h => orTrap_memOk h fun _ _ => h

theorem shiftI_keepsMem (f : DWord → Nat → DWord) (tk xd xa n) : KeepsMem (shiftI f tk xd xa n) :=
  issue_keepsMem fun _ _ _ h => orTrap_memOk h fun _ _ => h

theorem execLui_keepsMem (tk xd imm) : KeepsMem (execLui tk xd imm) := issue_keepsMem fun _ _ _ h => h

theorem execSnop_keepsMem (tk) : KeepsMem (execSnop tk) := issue_keepsMem fun _ _ _ h => h

theorem cinsp_keepsMem (f : CapBits → Nat) (tk xd ca) : KeepsMem (cinsp f tk xd ca) :=
  issue_keepsMem fun _ _ _ h => orTrap_memOk h fun _ _ => h

theorem execCwin_keepsMem (tk cd ca xa xb) : KeepsMem (execCwin tk cd ca xa xb) :=
  issue_keepsMem fun _ _ _ h => orTrap_memOk h fun _ _ => h

theorem execCrt_keepsMem (tk cd ca xa) : KeepsMem (execCrt tk cd ca xa) :=
  issue_keepsMem fun _ _ _ h => orTrap_memOk h fun _ _ => h

theorem execCmov_keepsMem (tk cd ca) : KeepsMem (execCmov tk cd ca) := issue_keepsMem fun _ _ _ h => orTrap_memOk h fun _ _ => h

/-! ## Memory, scratchpad and atomics -/

theorem loadSM_keepsMem (tk xd cn xo imm size sgn) : KeepsMem (loadSM tk xd cn xo imm size sgn) :=
  issue_keepsMem fun _ _ _ h => orTrap_memOk h fun _ _ => withRead_memOk _ _ _ _ _ _ _ _ h fun _ _ ht => modStrand_memOk ht

theorem storeSM_keepsMem (tk xs cn xo imm size) : KeepsMem (storeSM tk xs cn xo imm size) :=
  issue_keepsMem fun s c st h => orTrap_memOk h fun ⟨v, p⟩ _ => by
    have hw := portWrite_memOk c .S none false (beginStore st .S).1 (capObj p.1) (capOgen p.1) p.2 (toBytes size v)
      (s := setStrand s c (beginStore st .S).2) h
    dsimp only
    split
    · exact memOk_snd hw ‹_›
    · exact h

theorem loadSP_keepsMem (tk xd xa sz sgn imm) : KeepsMem (loadSP tk xd xa sz sgn imm) :=
  issue_keepsMem fun _ _ _ h => orTrap_memOk h fun _ _ => h

theorem storeSP_keepsMem (tk xs xa sz imm) : KeepsMem (storeSP tk xs xa sz imm) :=
  issue_keepsMem fun _ _ _ h => orTrap_memOk h fun _ _ => h

theorem loadCW_keepsMem (tk xd xa sz sgn imm) : KeepsMem (loadCW tk xd xa sz sgn imm) :=
  issue_keepsMem fun _ _ _ h => orTrap_memOk h fun _ _ => orTrap_memOk (modStrand_memOk h) fun _ _ => h

theorem storeCW_keepsMem (tk xs xa sz imm) : KeepsMem (storeCW tk xs xa sz imm) :=
  issue_keepsMem fun _ _ _ h => orTrap_memOk h fun _ _ => modStrand_memOk h

theorem amoSP_keepsMem (k tk xd xa xb w cw) : KeepsMem (amoSP k tk xd xa xb w cw) :=
  issue_keepsMem fun s c _ h => orTrap_memOk h fun _ _ => by
    have h0 : MemOk (if cw then clearXsync s c else s) := memOk_choice (modStrand_memOk h) h
    refine orTrap_memOk h0 fun _ _ => modStrand_memOk ?_
    split
    · exact h0
    · exact h0

theorem amoMem_keepsMem (k tk xd cn xa xb w) : KeepsMem (amoMem k tk xd cn xa xb w) :=
  issue_keepsMem fun s c st h => orTrap_memOk h fun ⟨b, d, cap, a⟩ _ =>
    withRead_memOk _ _ _ _ _ _ _ _ h fun old t ht => by
      have htr := translate_memOk true (dieOf c) (spaceOf t st) (capObj cap) (capOgen cap) a (wSize w) ht
      dsimp only
      split
      · rename_i p _
        refine memOk_either htr ?_
        split
        · exact modStrand_memOk htr
        · have hw := fun m v => atomicWrite_memOk st.sid p m v htr
          split <;> rename_i heq
          · exact modStrand_memOk (memOk_snd (hw _ _) heq)
          · exact memOk_snd (hw _ _) heq
      · exact ht

/-! ## Transfers and tokens -/

theorem branch_keepsMem (f : DWord → DWord → Bool) (tk xa xb off) : KeepsMem (branch f tk xa xb off) :=
  issue_keepsMem fun _ _ _ h => orTrap_memOk h fun _ _ => memOk_either (orTrap_memOk h fun _ _ => h) h

theorem execJmp_keepsMem (tk off) : KeepsMem (execJmp tk off) := issue_keepsMem fun _ _ _ h => orTrap_memOk h fun _ _ => h

theorem execCall_keepsMem (tk off) : KeepsMem (execCall tk off) := issue_keepsMem fun _ _ _ h => orTrap_memOk h fun _ _ => h

theorem execJr_keepsMem (tk xa) : KeepsMem (execJr tk xa) := issue_keepsMem fun _ _ _ h => orTrap_memOk h fun _ _ => h

theorem execCallr_keepsMem (tk xa) : KeepsMem (execCallr tk xa) := issue_keepsMem fun _ _ _ h => orTrap_memOk h fun _ _ => h

theorem execTkpop_keepsMem (m) : KeepsMem (execTkpop m) := by
  intro s h
  unfold execTkpop
  split
  · trivial
  · split <;> rename_i hp
    · exact memOk_of_mem (popStep_mem.1 _ hp) h
    · exact closeEff_memOk (r := .fin _) (memOk_of_mem (popStep_mem.2 _ _ hp) h)

theorem execTkpush_keepsMem (m) : KeepsMem (execTkpush m) := by
  intro s h
  unfold execTkpush
  split
  · trivial
  · exact closeEff_memOk (r := .fin _) h

theorem execTkwait_keepsMem (q n) : KeepsMem (execTkwait q n) := by
  intro s h
  unfold execTkwait
  split
  · trivial
  · exact outOk_ite (closeEff_memOk (r := .fin _) h) h

/-! ## Synchronisation -/

theorem execSemsig_keepsMem (tk xd xa xb) : KeepsMem (execSemsig tk xd xa xb) :=
  issue_keepsMem fun _ _ _ h => orTrap_memOk h fun _ _ => memOk_either h (modStrand_memOk h)

theorem semwait_keepsMem (c tk xd xa xb) : KeepsMem (semwait c tk xd xa xb) :=
  issue_keepsMem fun _ _ _ h => orTrap_memOk h fun _ _ => memOk_either h h

theorem execSemrd_keepsMem (tk xd xa) : KeepsMem (execSemrd tk xd xa) := issue_keepsMem fun _ _ _ h => orTrap_memOk h fun _ _ => h

theorem execRbind_keepsMem (tk cn xa xb xs) : KeepsMem (execRbind tk cn xa xb xs) :=
  issue_keepsMem fun _ _ _ h => orTrap_memOk h fun _ _ => h

theorem execRunbind_keepsMem (tk cn xa xb xs) : KeepsMem (execRunbind tk cn xa xb xs) :=
  issue_keepsMem fun _ _ _ h => orTrap_memOk h fun _ _ => h

theorem execAcq_keepsMem (tk xa scope) : KeepsMem (execAcq tk xa scope) := issue_keepsMem fun _ _ _ h => orTrap_memOk h fun _ _ => h

theorem releaseTo_memOk {s : State} (c : Nat) (st : Strand) (xd scope p f) (h : MemOk s) :
    MemOk (effState (releaseTo s c st xd scope p f)) := memOk_either h h

theorem execRel_keepsMem (tk xd xa scope) : KeepsMem (execRel tk xd xa scope) :=
  issue_keepsMem fun _ _ _ h => orTrap_memOk h fun _ _ => releaseTo_memOk _ _ _ _ _ _ h

theorem execFence_keepsMem (tk xd scope) : KeepsMem (execFence tk xd scope) :=
  issue_keepsMem fun _ _ _ h => releaseTo_memOk _ _ _ _ _ _ h

theorem arrive_memOk {s : State} {c : Nat} {st : Strand} {g : Nat} (h : MemOk s) : MemOk (arrive s c st g) := by
  unfold arrive
  split
  · exact h
  · exact settlePhase_memOk (s := setStrand (modLaunch s _ _) c _) (modLaunch_memOk h)

theorem execBarrive_keepsMem (tk group) : KeepsMem (execBarrive tk group) :=
  issuePre_keepsMem fun _ _ _ h => memOk_either h (arrive_memOk h)

theorem execBwait_keepsMem (tk group) : KeepsMem (execBwait tk group) :=
  issuePre_keepsMem fun _ _ _ h => memOk_either h (memOk_either h h)

theorem execCbar_keepsMem (tk) : KeepsMem (execCbar tk) :=
  issue_keepsMem fun s c st h => by
    have hf := modStrand_memOk (c := c) (f := fun st => { follow s st 1 none with xsync := true }) h
    dsimp only
    split
    · exact modStrand_memOk h
    · refine memOk_either (modStrand_memOk h) (memOk_either (memOk_either h (modStrand_memOk h)) (memOk_either h ?_))
      have h2 := fun k f e g => settleCrewBarrier_memOk (k := k) (modStream_memOk (c := c) (e := e) (f := g)
        (modCrew_memOk (k := k) (f := f) h))
      split
      · exact memOk_either (h2 _ _ _ _) (modStrand_memOk (h2 _ _ _ _))
      · exact modStrand_memOk (h2 _ _ _ _)

/-! ## Pages -/

theorem pageLookup_memOk {s : State} (c : Nat) (st : Strand) (obj ogen off : Nat) (h : MemOk s) :
    MemOk (pageLookup s c st obj ogen off).2 := by
  have hl := lookup_memOk (dieOf c) (spaceOf s st) obj off h
  unfold pageLookup
  dsimp only
  split <;> rename_i heq <;> rw [heq] at hl
  · exact hl
  · refine memOk_ite hl (memOk_ite hl (memOk_ite hl (memOk_ite hl (memOk_ite hl ?_))))
    have hr := fun a n => physRead_memOk (dieOf c) a n hl
    split <;> rename_i heq2
    · exact (memOk_snd (hr _ _) heq2 :)
    · have h2 := memOk_snd (hr _ _) heq2
      exact memOk_ite h2 h2

theorem pageOp_keepsMem {tk cn xo rt} {k : State → Nat → Strand → CapBits → Nat → PageInfo → Eff}
    (hk : ∀ s c st b a i, MemOk s → MemOk (effState (k s c st b a i))) : KeepsMem fun s => pageOp tk cn xo rt s k :=
  issue_keepsMem fun _ c st h => orTrap_memOk h fun _ _ => by
    have hp := fun b a n => pageLookup_memOk c st b a n h
    dsimp only
    split <;> rename_i heq
    · exact memOk_snd (hp _ _ _) heq
    · exact hk _ _ _ _ _ _ (memOk_snd (hp _ _ _) heq)

theorem pageRes_memOk {s : State} {c : Nat} {xd : XReg} {v : Nat} (h : MemOk s) : MemOk (effState (pageRes s c xd v)) :=
  modStrand_memOk h

theorem execPgcommit_keepsMem (tk xd cn xo) : KeepsMem (execPgcommit tk xd cn xo) :=
  pageOp_keepsMem fun _ _ _ _ _ _ h => by
    refine memOk_either (pageRes_memOk h) (memOk_either (pageRes_memOk h) ?_)
    split
    · exact pageRes_memOk h
    · have h1 := fun d a l => physWrite_memOk d a l h
      have h2 := fun d a l d' a' l' => physWrite_memOk d' a' l' (h1 d a l)
      exact memOk_either (h1 _ _ _) (memOk_either (pageRes_memOk (h2 _ _ _ _ _ _)) (h2 _ _ _ _ _ _))

theorem execPgfree_keepsMem (tk xd cn xo) : KeepsMem (execPgfree tk xd cn xo) :=
  pageOp_keepsMem fun _ _ _ _ _ _ h =>
    have h1 := fun d a l => physWrite_memOk d a l h
    memOk_either (pageRes_memOk h) (memOk_either (pageRes_memOk h)
      (memOk_either h (memOk_either (pageRes_memOk (h1 _ _ _)) (h1 _ _ _))))

theorem execPgquery_keepsMem (tk xd cn xo) : KeepsMem (execPgquery tk xd cn xo) :=
  pageOp_keepsMem fun _ _ _ _ _ _ h => by
    dsimp only
    split
    · exact pageRes_memOk h
    · exact pageRes_memOk h
    · have hr := fun d a n => physRead_memOk d a n h
      split <;> rename_i heq
      · exact pageRes_memOk (memOk_snd (hr _ _ _) heq)
      · exact (memOk_snd (hr _ _ _) heq :)

/-! ## System registers, traps and the end -/

theorem execSrr_keepsMem (tk xd srn) : KeepsMem (execSrr tk xd srn) := issuePre_keepsMem fun _ _ _ h => h

theorem execSrw_keepsMem (tk xs srn) : KeepsMem (execSrw tk xs srn) := issuePre_keepsMem fun _ _ _ h => orTrap_memOk h fun _ _ => h

theorem execSafept_keepsMem (tk lm) : KeepsMem (execSafept tk lm) := issuePre_keepsMem fun _ _ _ h => memOk_either h h

theorem execSEnd_keepsMem (tk) : KeepsMem (execSEnd tk) := issue_keepsMem fun _ _ _ h => memOk_either h h

theorem userTrap_keepsMem (c src tk code) : KeepsMem (userTrap c src tk code) :=
  issue_keepsMem fun _ _ _ h => memOk_either h (orTrap_memOk h fun _ _ => h)

theorem execUiret_keepsMem (tk) : KeepsMem (execUiret tk) :=
  issue_keepsMem fun _ _ _ h => memOk_either h (orTrap_memOk h fun _ _ => h)

end Sys2Proof.Proofs.ScalarMemory
end

section
/-! Memory in its canonical form (log entry 1): the instructions of the vector stream. Most of them write registers alone;
stores go through the memory port, and tiles that another strand left are written out. -/
namespace Sys2Proof.Proofs.VectorMemory
open Sys2Proof Sys2Proof.Machine Sys2Proof.Safety Sys2Proof.Laws Sys2Proof.Proofs.ArrayState Sys2Proof.Proofs.ScalarMemory

/-! ## Arithmetic and logic -/

theorem vecOp_keepsMem (tk vd srcs ok op) : KeepsMem (vecOp tk vd srcs ok op) :=
  issue_keepsMem fun _ _ _ h => orTrap_memOk h fun _ _ => h

theorem vecWide_keepsMem (f tk vd va vb) : KeepsMem (vecWide f tk vd va vb) :=
  issue_keepsMem fun _ _ _ h => orTrap_memOk h fun _ _ => h

theorem vecLogic_keepsMem (f tk vd va vb bsel) : KeepsMem (vecLogic f tk vd va vb bsel) :=
  issue_keepsMem fun _ _ _ h => orTrap_memOk h fun _ _ => by dsimp only; split <;> exact h

theorem vecShift_keepsMem (f tk vd va vb) : KeepsMem (vecShift f tk vd va vb) :=
  issue_keepsMem fun _ _ _ h => orTrap_memOk h fun _ _ => h

theorem execVsel_keepsMem (tk vd va vb p) : KeepsMem (execVsel tk vd va vb p) :=
  issue_keepsMem fun _ _ _ h => orTrap_memOk h fun _ _ => h

theorem vecMove_keepsMem (f tk vd va byp) : KeepsMem (vecMove f tk vd va byp) :=
  issue_keepsMem fun _ _ _ h => orTrap_memOk h fun _ _ => by dsimp only; split <;> exact h

theorem vecCmp_keepsMem (c tk pd va vb) : KeepsMem (vecCmp c tk pd va vb) :=
  issue_keepsMem fun _ _ _ h => orTrap_memOk h fun _ _ => h

theorem pLogic_keepsMem (f tk pd pa pb) : KeepsMem (pLogic f tk pd pa pb) :=
  issue_keepsMem fun _ _ _ h => orTrap_memOk h fun _ _ => h

theorem pLogic1_keepsMem (f tk pd pa) : KeepsMem (pLogic1 f tk pd pa) := issue_keepsMem fun _ _ _ h => orTrap_memOk h fun _ _ => h

theorem execPwhile_keepsMem (tk pd xa lsz) : KeepsMem (execPwhile tk pd xa lsz) :=
  issue_keepsMem fun _ _ _ h => orTrap_memOk h fun _ _ => h

theorem execPcnt_keepsMem (tk pa xd lsz) : KeepsMem (execPcnt tk pa xd lsz) :=
  issue_keepsMem fun _ _ _ h => orTrap_memOk h fun _ _ => h

/-! ## Transfers -/

theorem vecBranch_keepsMem (c tk p off) : KeepsMem (vecBranch c tk p off) :=
  issue_keepsMem fun _ _ _ h => orTrap_memOk h fun _ _ => memOk_either (orTrap_memOk h fun _ _ => h) h

theorem execVnop_keepsMem (tk) : KeepsMem (execVnop tk) := issue_keepsMem fun _ _ _ h => h

theorem execVjmp_keepsMem (tk off) : KeepsMem (execVjmp tk off) := issue_keepsMem fun _ _ _ h => orTrap_memOk h fun _ _ => h

theorem execVloop_keepsMem (tk off) : KeepsMem (execVloop tk off) :=
  issue_keepsMem fun _ _ _ h =>
    memOk_either (orTrap_memOk h fun _ _ => h) (memOk_either (orTrap_memOk h fun _ _ => h) h)

theorem execVend_keepsMem (tk) : KeepsMem (execVend tk) := issue_keepsMem fun _ _ _ h => h

/-! ## Conversions, moves, reductions and permutes -/

theorem vecCvt_keepsMem (amax tk vd va tgt) : KeepsMem (vecCvt amax tk vd va tgt) :=
  issue_keepsMem fun _ _ _ h => orTrap_memOk h fun _ _ => h

theorem execVcast_keepsMem (tk vd va tgt) : KeepsMem (execVcast tk vd va tgt) :=
  issue_keepsMem fun _ _ _ h => orTrap_memOk h fun _ _ => h

theorem execVsplat_keepsMem (tk vd xa tag) : KeepsMem (execVsplat tk vd xa tag) :=
  issue_keepsMem fun _ _ _ h => orTrap_memOk h fun _ _ => h

theorem execVext_keepsMem (tk va xd xb) : KeepsMem (execVext tk va xd xb) :=
  issue_keepsMem fun _ _ _ h => orTrap_memOk h fun _ _ => h

theorem execVins_keepsMem (tk vd xa xb tag) : KeepsMem (execVins tk vd xa xb tag) :=
  issue_keepsMem fun _ _ _ h => orTrap_memOk h fun _ _ => memOk_either h h

theorem execViota_keepsMem (tk vd xa xb tag) : KeepsMem (execViota tk vd xa xb tag) :=
  issue_keepsMem fun _ _ _ h => orTrap_memOk h fun _ _ => h

theorem vecRed_keepsMem (k tk vd va byp) : KeepsMem (vecRed k tk vd va byp) :=
  issue_keepsMem fun _ _ _ h => orTrap_memOk h fun _ _ => by dsimp only; split <;> exact h

theorem execVscanSum_keepsMem (tk vd va byp) : KeepsMem (execVscanSum tk vd va byp) :=
  issue_keepsMem fun _ _ _ h => orTrap_memOk h fun _ _ => by dsimp only; split <;> exact h

theorem execVscanMax_keepsMem (tk vd va byp) : KeepsMem (execVscanMax tk vd va byp) :=
  issue_keepsMem fun _ _ _ h => orTrap_memOk h fun _ _ => by dsimp only; split <;> exact h

theorem execVperm_keepsMem (tk vd va vb) : KeepsMem (execVperm tk vd va vb) :=
  issue_keepsMem fun _ _ _ h => orTrap_memOk h fun _ _ => h

theorem vecPerm2_keepsMem (f tk vd va vb) : KeepsMem (vecPerm2 f tk vd va vb) :=
  issue_keepsMem fun _ _ _ h => orTrap_memOk h fun _ _ => h

/-! ## Loads, stores and chains -/

theorem withPieces_memOk {s : State} (c : Nat) (e : Engine) (st : Strand) (cap : CapBits) (l : List Piece)
    {k : List (List Byte) → State → Eff} (h : MemOk s) (hk : ∀ b t, MemOk t → MemOk (effState (k b t))) :
    MemOk (effState (withPieces s c e st cap l k)) := by
  have hr := upheld_readPieces upheld_memOk c st (readerOf st e) (capObj cap) (capOgen cap) l h
  unfold withPieces
  split <;> rename_i heq <;> rw [heq] at hr
  · exact hk _ _ hr
  · exact hr
  · exact upheld_awaitCxl upheld_memOk c e _ hr

theorem storePieces_memOk {s : State} (c : Nat) (e : Engine) (j : Bool) (st : Strand) (cap : CapBits)
    (l : List (Piece × List Byte)) (h : MemOk s) : MemOk (effState (storePieces s c e j st cap l)) := by
  have hw := fun (st' : Strand) i => upheld_writePieces upheld_memOk c e none j i (capObj cap) (capOgen cap) l
    (s := setStrand s c st') h
  unfold storePieces
  dsimp only
  split <;> rename_i heq
  · exact (memOk_snd (hw _ _) heq :)
  · exact (memOk_snd (hw _ _) heq :)

theorem vecLoad_keepsMem (tk vd cn xo esz imm tag m) : KeepsMem (vecLoad tk vd cn xo esz imm tag m) :=
  issue_keepsMem fun _ c st h => orTrap_memOk h fun ⟨cap, _, l⟩ _ =>
    withPieces_memOk c .V st cap l h fun _ _ ht => modStrand_memOk ht

theorem vecStore_keepsMem (tk vs cn xo esz imm m) : KeepsMem (vecStore tk vs cn xo esz imm m) :=
  issue_keepsMem fun _ _ _ h => orTrap_memOk h fun _ _ => storePieces_memOk _ _ _ _ _ _ h

theorem execVspld_keepsMem (tk vd xa tag imm) : KeepsMem (execVspld tk vd xa tag imm) :=
  issue_keepsMem fun _ _ _ h => orTrap_memOk h fun _ _ => h

theorem spWriteBits_memOk {s : State} {c : Nat} {g : Gen} {o : Nat} {m v : Granule} (h : MemOk s) :
    MemOk (spWriteBits s c g o m v) := memOk_of_mem rfl h

theorem execVspst_keepsMem (tk vs xa imm) : KeepsMem (execVspst tk vs xa imm) :=
  issue_keepsMem fun _ _ _ h => orTrap_memOk h fun ⟨_, _, _⟩ _ => by
    dsimp only [effState]
    refine iter_memOk 8 _ (fun _ _ ht => ?_) h
    split
    · exact ht
    · exact spWriteBits_memOk ht

theorem chainBlocks_memOk (fuel : Nat) {s : State} (d z c g n b ev) (h : MemOk s) :
    MemOk (chainBlocks fuel d z c g n b s ev).1 := by
  induction fuel generalizing s b ev with
  | zero => exact h
  | succ f ih => exact ih _ _ (spWriteN_memOk h)

theorem execVchain_keepsMem (tk xa xb) : KeepsMem (execVchain tk xa xb) :=
  issue_keepsMem fun _ _ _ h => orTrap_memOk h fun _ _ => modStrand_memOk (chainBlocks_memOk _ _ _ _ _ _ _ _ h)

/-! ## Tiles -/

theorem putTileState_memOk {s : State} {d : Nat} {o : Owner} {t : Nat} {x : SlotState} (h : MemOk s) :
    MemOk (putTileState s d o t x) := physWrite_memOk _ _ _ h

theorem writeOutTile_memOk {s : State} (c t : Nat) (h : MemOk s) : MemOk (writeOutTile s c t) := by
  unfold writeOutTile
  split
  · exact h
  · have hw := fun d a l => physWriteAll_memOk l d a (s := { s with heldTiles := mapErase s.heldTiles (tileKey c t) }) h
    refine memOk_choice h (memOk_choice ?_ ?_)
    · exact putTileState_memOk (hw _ _ _)
    · exact upheld_loseObj upheld_memOk _ _ _ (upheld_markLost upheld_memOk _ _ _ (hw _ _ _))

theorem flushTiles_memOk {s : State} {c : Nat} (h : MemOk s) : MemOk (flushTiles s c) :=
  iter_memOk 8 _ (fun _ _ ht => writeOutTile_memOk _ _ ht) h

theorem execTcfg_keepsMem (tk t rows cols tag) : KeepsMem (execTcfg tk t rows cols tag) :=
  issue_keepsMem fun _ _ _ h => by
    dsimp only [effState]
    exact modStrand_memOk (flushTiles_memOk h)

theorem execTzero_keepsMem (tk t) : KeepsMem (execTzero tk t) :=
  issue_keepsMem fun _ _ _ h => by
    dsimp only [effState]
    exact modStrand_memOk (flushTiles_memOk h)

theorem sliceIn_keepsMem (isRow tk v t idx) : KeepsMem (sliceIn isRow tk v t idx) :=
  issue_keepsMem fun _ _ _ h => orTrap_memOk h fun _ _ => memOk_either h h

theorem sliceOut_keepsMem (isRow tk v t idx) : KeepsMem (sliceOut isRow tk v t idx) :=
  issue_keepsMem fun _ _ _ h => orTrap_memOk h fun _ _ => h

theorem execTld_keepsMem (tk t cn xo xs sp imm) : KeepsMem (execTld tk t cn xo xs sp imm) :=
  issue_keepsMem fun _ c st h => orTrap_memOk h fun _ _ => memOk_either (orTrap_memOk h fun _ _ => h)
    (orTrap_memOk h fun _ _ => withPieces_memOk c .V st _ _ h fun _ _ ht => modStrand_memOk ht)

theorem execTst_keepsMem (tk t cn xo xs sp imm) : KeepsMem (execTst tk t cn xo xs sp imm) :=
  issue_keepsMem fun _ _ _ h => orTrap_memOk h fun _ _ => memOk_either
    (orTrap_memOk h fun _ _ => foldl_memOk _ (fun _ _ ht => spWriteN_memOk ht) _ h)
    (orTrap_memOk h fun _ _ => storePieces_memOk _ _ _ _ _ _ h)

end Sys2Proof.Proofs.VectorMemory
end

section
/-! Memory in its canonical form (log entry 1): the instructions of the matrix stream. A held plane or row is written out
before the array takes its place; the rest stays in the array and in scratchpad. -/
namespace Sys2Proof.Proofs.MatrixMemory
open Sys2Proof Sys2Proof.Machine Sys2Proof.Safety Sys2Proof.Laws Sys2Proof.Proofs.ArrayState Sys2Proof.Proofs.ScalarMemory
  Sys2Proof.Proofs.VectorMemory

/-! ## The frame of an instruction of M -/

section
variable {s : State}

theorem holdPlanes_memOk {c : Nat} {st : Strand} (h : MemOk s) : MemOk (holdPlanes s c st) := h

theorem holdRows_memOk {c : Nat} {st : Strand} (h : MemOk s) : MemOk (holdRows s c st) := h

theorem noteProgress_memOk {k : Nat} (h : MemOk s) : MemOk (noteProgress s k) := memOk_of_mem (noteProgress_mem _ _) h

theorem endLease_memOk {c : Nat} (h : MemOk s) : MemOk (endLease s c) := upheld_endLease upheld_memOk c h

theorem requestArray_memOk {c n : Nat} (h : MemOk s) : MemOk (requestArray s c n) := upheld_requestArray upheld_memOk c n h

theorem setLatch_memOk {c : Nat} {m : MLatch} (h : MemOk s) : MemOk (setLatch s c m) := upheld_setLatch upheld_memOk c m h

theorem expireLease_memOk {c : Nat} (h : MemOk s) : MemOk (expireLease s c) := by
  unfold expireLease
  split
  · exact memOk_choice (endLease_memOk h) h
  · exact h

theorem spendLease_memOk {c : Nat} (h : MemOk s) : MemOk (spendLease s c) := by
  unfold spendLease
  split
  · exact memOk_choice h h
  · exact h

theorem arrayGrant_memOk {q : Nat} (h : MemOk s) : MemOk (arrayGrant s q) := by
  unfold arrayGrant
  dsimp only
  split
  · exact h
  · split
    · exact h
    · exact upheld_grantTo upheld_memOk _ _ h

theorem passM_memOk {s0 : State} {c : Nat} {pat pc : BitVec 32} {k : MClass} {n : Nat} (h : MemOk s) :
    MemOk (passM s0 s c pat pc k n) := modStrand_memOk (memOk_of_mem (passMC_mem _ _ _ _) h)

theorem waitM_memOk {c : Nat} (h : MemOk s) : MemOk (waitM s c) := settle_memOk (modStream_memOk h)

/-- The end of an instruction of M that has completed. -/
theorem settleM_memOk {c : Nat} (k : MClass) (frozen : Bool) (h : MemOk s) :
    MemOk (match strandAt s c with
      | some st => settle (noteProgress (if k.onArray && frozen then holdRows (holdPlanes s c st) c st else s) st.crew) c
      | none => s) := by
  split
  · exact settle_memOk (noteProgress_memOk (memOk_choice (holdRows_memOk (holdPlanes_memOk h)) h))
  · exact h

theorem closeM_memOk {s0 : State} {c : Nat} {pat : BitVec 32} {k : MClass} {frozen : Bool} {r : Eff} (h : MemOk (effState r)) :
    MemOk (closeM s0 c pat k frozen r) := by
  have hs : ∀ t, MemOk t → MemOk (if k.onArray then spendLease t c else t) := fun t ht =>
    memOk_choice (spendLease_memOk ht) ht
  cases r with
  | fin t => exact settleM_memOk k frozen (hs _ (passM_memOk h))
  | stored t => exact settleM_memOk k frozen (hs _ (passM_memOk h))
  | jump t p => exact settleM_memOk k frozen (passM_memOk h)
  | _ => exact closeEff_memOk h

theorem runM_outOk {c : Nat} {tk : Tk} {k : MClass} {f : State → Nat → Strand → Eff} {st : Strand}
    (hf : ∀ s c st, MemOk s → MemOk (effState (f s c st))) (h : MemOk s) : OutOk (runM c tk k f s st) := by
  unfold runM
  refine outOk_ite (waitM_memOk h) ?_
  split <;> rename_i hp
  · exact memOk_of_mem (popStep_mem.1 _ hp) h
  · exact closeM_memOk (hf _ _ _ (memOk_of_mem (popStep_mem.2 _ _ hp) h))

end

section
variable {tk : Tk} {f : State → Nat → Strand → Eff} (hf : ∀ s c st, MemOk s → MemOk (effState (f s c st)))

theorem decodeM_keepsMem {pre : Strand → Option Trapped} {k : State → Nat → Strand → Out}
    (hk : ∀ s c st, MemOk s → OutOk (k s c st)) : KeepsMem (Machine.decodeM tk pre k) := by
  intro s h
  unfold Machine.decodeM
  split
  · trivial
  · split
    · exact settle_memOk (trapNow_memOk h)
    · exact outOk_ite (hk _ _ _ h) (settle_memOk (trapNow_memOk h))

include hf

theorem issueFree_keepsMem : KeepsMem (issueFree tk f) := decodeM_keepsMem fun _ _ _ h => runM_outOk hf h

theorem issueCtl_keepsMem : KeepsMem (issueCtl tk f) := decodeM_keepsMem fun _ _ _ h => runM_outOk hf h

theorem issueOn_keepsMem {k : MClass} {pre : Strand → Option Trapped} : KeepsMem (issueOn k pre tk f) :=
  decodeM_keepsMem fun s c st h => by
    have h1 : MemOk (if (streamOf st .M).popped then s else expireLease s c) := memOk_choice h (expireLease_memOk h)
    have h2 : ∀ t, MemOk t → MemOk (if holdsLease t c then t else requestArray t c st.sys.leaseRun.toNat) := fun t ht =>
      memOk_choice ht (requestArray_memOk ht)
    dsimp only
    refine outOk_ite (runM_outOk hf h) (outOk_ite ?_ (waitM_memOk (h2 _ h1)))
    split
    · exact runM_outOk hf (h2 _ h1)
    · exact h2 _ h1

theorem issueLoad_keepsMem : KeepsMem (issueLoad tk f) := issueOn_keepsMem hf

theorem issuePipePre_keepsMem {p : BitVec 2} {pre : Strand → Option Trapped} : KeepsMem (issuePipePre p pre tk f) :=
  issueOn_keepsMem hf

theorem issuePipe_keepsMem {p : BitVec 2} : KeepsMem (issuePipe p tk f) := issuePipePre_keepsMem hf

theorem issueSerial_keepsMem : KeepsMem (issueSerial tk f) := issueOn_keepsMem hf

end

/-! ## Control, leases and regions -/

theorem execMnop_keepsMem (tk) : KeepsMem (execMnop tk) := issueFree_keepsMem fun _ _ _ h => h

theorem execMloop_keepsMem (off) : KeepsMem (execMloop off) :=
  issueFree_keepsMem fun _ _ _ h => memOk_either h (orTrap_memOk h fun _ _ => modStrand_memOk h)

theorem execMlease_keepsMem (tk n) : KeepsMem (execMlease tk n) :=
  issueCtl_keepsMem fun s c st h => by
    have h1 : ∀ m run, MemOk (if (streamOf st .M).arrived then s
        else requestArray (modStream (setLatch (endLease s c) c m) c .M fun x => { x with arrived := true }) c run) :=
      fun _ _ => memOk_choice h (requestArray_memOk (modStream_memOk (setLatch_memOk (endLease_memOk h))))
    exact memOk_either (h1 _ _) (h1 _ _)

theorem execMunlease_keepsMem (tk) : KeepsMem (execMunlease tk) := issueCtl_keepsMem fun _ _ _ h => endLease_memOk h

theorem execMend_keepsMem (tk) : KeepsMem (execMend tk) := issueCtl_keepsMem fun _ _ _ h => endLease_memOk h

theorem execMregion_keepsMem (tk rg xa xb trapPol slog spill) : KeepsMem (execMregion tk rg xa xb trapPol slog spill) :=
  issueCtl_keepsMem fun _ _ _ h => orTrap_memOk h fun _ _ =>
    memOk_either (modStrand_memOk h) (modStrand_memOk (upheld_writeOutRows upheld_memOk _ _ _ h))

theorem regionCtl_keepsMem (tk rg f) : KeepsMem (regionCtl tk rg f) :=
  issueCtl_keepsMem fun _ _ _ h => orTrap_memOk h fun _ _ => modStrand_memOk h

theorem execMreleaseOne_keepsMem (tk rg xa) : KeepsMem (execMreleaseOne tk rg xa) :=
  issueCtl_keepsMem fun _ _ _ h => orTrap_memOk h fun _ _ => modStrand_memOk h

theorem execMevrd_keepsMem (tk xd rg kind entry) : KeepsMem (execMevrd tk xd rg kind entry) :=
  issueCtl_keepsMem fun _ _ _ h => orTrap_memOk h fun _ _ => h

theorem execMcntRd_keepsMem (tk xd sel) : KeepsMem (execMcntRd tk xd sel) := issueCtl_keepsMem fun _ _ _ h => h

theorem execMcntClr_keepsMem (tk sel) : KeepsMem (execMcntClr tk sel) := issueCtl_keepsMem fun _ _ _ h => h

/-! ## Planes and contexts -/

theorem writePlane_memOk {s : State} {c : Nat} {st : Strand} {pl : Bool} {f : Plane → Plane} (h : MemOk s) :
    MemOk (writePlane s c st pl f) := upheld_writePlane upheld_memOk c st pl f h

theorem execMwload_keepsMem (tk cn xa pl) : KeepsMem (execMwload tk cn xa pl) :=
  issueLoad_keepsMem fun _ _ _ h => orTrap_memOk h fun _ _ => upheld_loadRows upheld_memOk _ _ _ _ _ _ h

theorem execMwloadm_keepsMem (tk fmt xa pl) : KeepsMem (execMwloadm tk fmt xa pl) :=
  issueLoad_keepsMem fun _ c st h =>
    have hv := upheld_loadView upheld_memOk st pl h
    orTrap_memOk hv fun _ _ => by
      dsimp only [effState]
      exact writePlane_memOk (iter_memOk 128 _ (fun _ _ ht => upheld_planeRow upheld_memOk c st pl _ _ ht) hv)

theorem execMpswap_keepsMem (tk) : KeepsMem (execMpswap tk) := issuePipe_keepsMem fun _ _ _ h => by exact h

theorem execMsave_keepsMem (tk cn xa) : KeepsMem (execMsave tk cn xa) :=
  issueSerial_keepsMem fun s c st h => orTrap_memOk h fun _ _ =>
    upheld_saveUnits upheld_memOk _ _ _ _ (s := setStrand s c (beginStore st .M).2) h

theorem execMrestore_keepsMem (tk cn xa) : KeepsMem (execMrestore tk cn xa) :=
  issueSerial_keepsMem fun _ c _ h => orTrap_memOk h fun _ _ => upheld_loadTabs upheld_memOk _ c _ _ h trivial

/-! ## Streaming, distances, draining and routing -/

section
variable {s : State}

theorem putRow_memOk {c : Nat} {st : Strand} {x : RowAt} {v : VBits} (h : MemOk s) : MemOk (putRow s c st x v) :=
  upheld_putRow upheld_memOk c st x v h

theorem raiseSlot_memOk {c : Nat} {rg : Rg} {e : Nat} {ev : Events} (h : MemOk s) : MemOk (raiseSlot s c rg e ev) :=
  upheld_raiseSlot upheld_memOk c rg e ev h

theorem validEntry0_memOk {c : Nat} {rg : Rg} (h : MemOk s) : MemOk (validEntry0 s c rg) :=
  upheld_validEntry0 upheld_memOk c rg h

/-- Rows are streamed into a slot, which is allocated where it is new. -/
theorem streamRows_memOk {c : Nat} {st : Strand} {rg : Rg} {g : Region} {e label : Nat} {new : Bool}
    {f : Nat → List (List Ex)} {l : List (Nat × Nat)} (h : MemOk s) :
    MemOk (streamRows c st g rg e f l (if new then allocSlot s c st rg g e label else s)) :=
  upheld_streamRows upheld_memOk _ _ _ _ _ _ _ (memOk_choice (upheld_allocSlot upheld_memOk _ _ _ _ _ _ h) h)

end

theorem execMstream_keepsMem (tk rg xa map atag rows pl wtag) : KeepsMem (execMstream tk rg xa map atag rows pl wtag) :=
  issuePipe_keepsMem fun _ _ _ h => orTrap_memOk h fun ⟨_, _, _, x⟩ _ => by
    cases x with
    | none => exact h
    | some p => exact streamRows_memOk h

theorem execMcplx_keepsMem (tk rg xa rows pl) : KeepsMem (execMcplx tk rg xa rows pl) := fun s hs => by
  refine issuePipePre_keepsMem (fun _ _ _ h => orTrap_memOk h fun ⟨_, _, _, x⟩ _ => ?_) s hs
  cases x with
  | none => exact h
  | some p => exact streamRows_memOk h

theorem execMdist_keepsMem (tk rg xa xb pl) : KeepsMem (execMdist tk rg xa xb pl) :=
  issuePipe_keepsMem fun _ _ _ h => orTrap_memOk h fun ⟨_, _, _⟩ _ =>
    iter_memOk _ _ (fun _ _ ht => raiseSlot_memOk (putRow_memOk ht)) (validEntry0_memOk h)

theorem execMswap_keepsMem (tk rg xa) : KeepsMem (execMswap tk rg xa) :=
  issuePipe_keepsMem fun _ c st h => orTrap_memOk h fun ⟨_, _, _⟩ _ =>
    iter_memOk _ _ (fun _ _ ht => upheld_putAcc upheld_memOk c st _ _ (spWriteN_memOk ht)) (spWriteN_memOk (modStrand_memOk h))

theorem execMrank_keepsMem (tk xa xb xc tag t e k ovx) : KeepsMem (execMrank tk xa xb xc tag t e k ovx) :=
  issuePipe_keepsMem fun _ _ _ h => orTrap_memOk h fun ⟨_, _, _⟩ _ =>
    modStrand_memOk (iter_memOk _ _ (fun _ _ ht => spWriteN_memOk ht) (spWriteN_memOk (spWriteN_memOk h)))

theorem execMbind_keepsMem (tk rg xa xb) : KeepsMem (execMbind tk rg xa xb) :=
  issuePipe_keepsMem fun _ _ _ h => orTrap_memOk h fun ⟨_, _, _, _, _⟩ _ =>
    foldl_memOk _ (fun _ _ ht =>
      have hr := raiseSlot_memOk (putRow_memOk ht)
      memOk_choice (modStrand_memOk hr) hr) _ (validEntry0_memOk h)

theorem drain_keepsMem (free tk rg xa xb) : KeepsMem (drain free tk rg xa xb) :=
  issuePipe_keepsMem fun _ _ _ h => orTrap_memOk h fun ⟨_, _, _⟩ _ =>
    have h1 := spWriteN_memOk (iter_memOk _ _ (fun _ _ ht => spWriteN_memOk ht) h)
    memOk_choice (modStrand_memOk h1) h1

theorem topk_keepsMem (hi tk rg xa xb xc) : KeepsMem (topk hi tk rg xa xb xc) :=
  issuePipe_keepsMem fun _ _ _ h => orTrap_memOk h fun ⟨_, _, _, _⟩ _ =>
    iter_memOk _ _ (fun _ _ ht => spWriteN_memOk ht) h

theorem execMatrixFinish_keepsMem (c) : KeepsMem (execMatrixFinish c) := by
  intro s h
  unfold execMatrixFinish
  split
  · exact h
  · exact outOk_ite h (settle_memOk (noteProgress_memOk h))

end Sys2Proof.Proofs.MatrixMemory
end

section
/-! Memory in its canonical form (log entry 1): the instructions of the copy stream, and copies in flight. A copy reads and
writes memory through the port, unit by unit. -/
namespace Sys2Proof.Proofs.CopyMemory
open Sys2Proof Sys2Proof.Machine Sys2Proof.Safety Sys2Proof.Laws Sys2Proof.Proofs.ArrayState Sys2Proof.Proofs.ScalarMemory
  Sys2Proof.Proofs.MatrixMemory

section
variable {s : State}

/-! ## Units of a copy -/

theorem readEnd_memOk (c : Nat) (st : Strand) (x : Reader) (e : CEnd) (n : Nat) (h : MemOk s) :
    MemOk (readsState (readEnd s c st x e n)) := by
  cases e with
  | sp o => exact h
  | cw o => exact h
  | mem cap o => exact upheld_readPieces upheld_memOk _ _ _ _ _ _ h

theorem spWrite_memOk {c : Nat} {g : Gen} {o : Nat} {l : List Byte} (h : MemOk s) : MemOk (spWrite s c g o l) := h

theorem writeCrew_memOk (fuel : Nat) {k a : Nat} {l : List Byte} (h : MemOk s) : MemOk (writeCrew fuel s k a l) := by
  induction fuel generalizing s a l with
  | zero => exact h
  | succ f ih =>
    unfold writeCrew
    refine memOk_choice h (ih ?_)
    split
    · exact spWrite_memOk h
    · exact h

theorem writeEnd_memOk (c : Nat) (st : Strand) (idx : Nat) (e : CEnd) (l : List Byte) (h : MemOk s) :
    MemOk (writeEnd s c st idx e l).2 := by
  cases e with
  | sp o => exact spWriteN_memOk h
  | cw o => exact writeCrew_memOk _ h
  | mem cap o => exact upheld_writePieces upheld_memOk _ _ _ _ _ _ _ _ h

theorem unitLoad_memOk (c : Nat) (st : Strand) (r : CopyRec) (k : Nat) (h : MemOk s) :
    MemOk (readsState (unitLoad s c st r k)) := by
  unfold unitLoad
  split
  · exact h
  · exact readEnd_memOk _ _ _ _ _ h

theorem unitPut_memOk (c : Nat) (st : Strand) (idx : Nat) (op : CopyOp) (k : Nat) (b : List Byte) (h : MemOk s) :
    MemOk (unitPut s c st idx op k b).2.1 := by
  have hw := fun e l => writeEnd_memOk c st idx e l h
  cases op with
  | accWr off row n => exact upheld_putAcc upheld_memOk _ _ _ _ h
  | rcp src dst len ctr nq =>
    unfold unitPut
    dsimp only
    split
    · exact hw _ _
    · split <;> exact h
  | _ => exact hw _ _

/-! ## Copies in flight -/

theorem finishCopy_memOk {c : Nat} {r : CopyRec} (h : MemOk s) : MemOk (finishCopy s c r) := modStrand_memOk h

theorem holdCopy_memOk {c : Nat} {r : CopyRec} {t : Trapped} (h : MemOk s) : MemOk (holdCopy s c r t) := by
  unfold holdCopy
  split
  · exact h
  · exact memOk_choice h (takeTrap_memOk h)

theorem sendCxl_memOk {p : Nat} {a : Asker} (h : MemOk s) : MemOk (sendCxl s p a) := h

theorem askCopy_memOk {c : Nat} {r : CopyRec} {p : Option Nat} (h : MemOk s) : MemOk (askCopy s c r p) := by
  unfold askCopy
  split
  · exact h
  · exact memOk_choice h (sendCxl_memOk (modStrand_memOk h))

theorem moveUnits_memOk (fuel : Nat) (c idx : Nat) (h : MemOk s) : MemOk (moveUnits fuel s c idx) := by
  induction fuel generalizing s with
  | zero => exact h
  | succ f ih =>
    unfold moveUnits
    split
    · exact h
    · rename_i st _
      split
      · exact h
      · rename_i r _
        refine memOk_choice h ?_
        have hput : ∀ b t, MemOk t → MemOk (match unitPut t c st r.idx r.op r.done b with
            | (.ok _, s2, ev) =>
              moveUnits f (modStrand s2 c fun st => modCopy st idx fun c => { c with
                done := c.done + 1
                ahead := c.ahead.drop 1
                ans := none
                evs := c.evs ||| ev }) c idx
            | (.error t, s2, _) => holdCopy s2 c r t) := fun b t ht => by
          have hu := unitPut_memOk c st r.idx r.op r.done b ht
          split <;> rename_i heq <;> rw [heq] at hu
          · exact ih (modStrand_memOk hu)
          · exact holdCopy_memOk hu
        split
        · exact hput _ _ h
        · have hl := unitLoad_memOk c st r r.done h
          split <;> rename_i heq <;> rw [heq] at hl
          · exact hput _ _ hl
          · exact holdCopy_memOk (s := _) hl
          · exact askCopy_memOk (s := _) hl

theorem loadAhead_memOk (fuel : Nat) {c idx : Nat} (h : MemOk s) : MemOk (loadAhead fuel s c idx) := by
  induction fuel generalizing s with
  | zero => exact h
  | succ f ih =>
    unfold loadAhead
    split
    · exact h
    · rename_i st _
      split
      · exact h
      · rename_i r _
        refine memOk_choice h ?_
        have hl := unitLoad_memOk c st r (r.done + r.ahead.length) h
        split <;> rename_i heq <;> rw [heq] at hl
        · exact ih (modStrand_memOk (s := _) hl)
        · exact holdCopy_memOk (s := _) hl
        · exact askCopy_memOk (s := _) hl

theorem loadCopies_memOk (c : Nat) (l : List CopyRec) (h : MemOk s) : MemOk (loadCopies c l s) := by
  induction l generalizing s with
  | nil => exact h
  | cons r l ih =>
    have h1 := loadAhead_memOk (unitsOf r.op + 1) (c := c) (idx := r.idx) h
    unfold loadCopies
    dsimp only
    split
    · exact memOk_choice (ih h1) h1
    · exact h1

theorem copyStep_memOk (c idx : Nat) (h : MemOk s) : MemOk (copyStep s c idx) := by
  unfold copyStep
  split
  · exact h
  · split
    · exact h
    · rename_i r _
      refine memOk_choice h (memOk_choice (settle_memOk (loadCopies_memOk _ _ h)) ?_)
      have h1 : MemOk (if r.moved then s else moveUnits (unitsOf r.op + 1) s c idx) :=
        memOk_choice h (moveUnits_memOk _ _ _ h)
      dsimp only
      split
      · exact h1
      · split
        · exact settle_memOk (memOk_choice (finishCopy_memOk (noteProgress_memOk h1)) (noteProgress_memOk h1))
        · exact noteProgress_memOk h1

theorem execCopyComplete_keepsMem (c slot) : KeepsMem (execCopyComplete c slot) := by
  intro s h
  unfold execCopyComplete
  split
  · exact copyStep_memOk _ _ h
  · exact h

/-! ## The frame of an instruction of C -/

theorem settleC_memOk {c : Nat} (h : MemOk s) : MemOk (match strandAt s c with
    | some st => settle (noteProgress s st.crew) c
    | none => s) := by
  split
  · exact settle_memOk (noteProgress_memOk h)
  · exact h

theorem closeC_memOk {c : Nat} {pat : BitVec 32} {control : Bool} {r : Eff} (h : MemOk (effState r)) :
    MemOk (closeC c pat control r) := by
  have hp : ∀ pc t, MemOk t → MemOk (passMC t c .C pc) := fun pc t ht => memOk_of_mem (passMC_mem _ _ _ _) ht
  cases r with
  | fin t => exact settleC_memOk (memOk_choice (modStrand_memOk (hp _ _ h)) (hp _ _ h))
  | jump t p => exact settleC_memOk (memOk_choice (modStrand_memOk (hp _ _ h)) (hp _ _ h))
  | _ => exact closeEff_memOk h

theorem issueC_keepsMem {control : Bool} {gate : Strand → Bool} {tk : Tk} {f : BitVec 32 → State → Nat → Strand → Eff}
    (hf : ∀ p s c st, MemOk s → MemOk (effState (f p s c st))) : KeepsMem (issueC control gate tk f) := by
  intro s h
  unfold issueC
  split
  · trivial
  · refine outOk_ite (settle_memOk (trapNow_memOk h)) (outOk_ite (settle_memOk (modStream_memOk h)) ?_)
    split <;> rename_i hp
    · exact memOk_of_mem (popStep_mem.1 _ hp) h
    · exact closeC_memOk (hf _ _ _ _ (memOk_of_mem (popStep_mem.2 _ _ hp) h))

theorem controlC_keepsMem {tk : Tk} {f : State → Nat → Strand → Eff}
    (hf : ∀ s c st, MemOk s → MemOk (effState (f s c st))) : KeepsMem (controlC tk f) := issueC_keepsMem fun _ => hf

theorem addCopy_memOk {c : Nat} {st : Strand} {pat : BitVec 32} {ui : Bool} {op : CopyOp} (h : MemOk s) :
    MemOk (addCopy s c st pat ui op) := by
  unfold addCopy
  exact memOk_choice (finishCopy_memOk (s := setStrand s c _) h) h

/-- A copy that issues leaves memory as it is: its units move later (R248). -/
theorem issueCopy_keepsMem (tk ui check) : KeepsMem (issueCopy tk ui check) :=
  issueC_keepsMem fun _ _ _ _ h => orTrap_memOk h fun _ _ => addCopy_memOk h

/-! ## Landing zones, fences, waits and the loop -/

theorem execCarm_keepsMem (tk xa xb xc cn) : KeepsMem (execCarm tk xa xb xc cn) :=
  controlC_keepsMem fun _ _ _ h => orTrap_memOk h fun _ _ => h

theorem execCdisarm_keepsMem (tk xa) : KeepsMem (execCdisarm tk xa) :=
  controlC_keepsMem fun _ _ _ h => orTrap_memOk h fun _ _ => memOk_either h h

theorem execCfence_keepsMem (tk scope) : KeepsMem (execCfence tk scope) :=
  controlC_keepsMem fun _ _ _ h => memOk_either h h

theorem execCwaitAll_keepsMem (tk) : KeepsMem (execCwaitAll tk) := controlC_keepsMem fun _ _ _ h => memOk_either h h

theorem execCwaitLe_keepsMem (tk xa) : KeepsMem (execCwaitLe tk xa) :=
  controlC_keepsMem fun _ _ _ h => orTrap_memOk h fun _ _ => memOk_either h h

theorem execCnop_keepsMem (tk) : KeepsMem (execCnop tk) := controlC_keepsMem fun _ _ _ h => h

theorem execCloop_keepsMem (off) : KeepsMem (execCloop off) :=
  controlC_keepsMem fun _ _ _ h => memOk_either h (orTrap_memOk h fun _ _ => modStrand_memOk h)

theorem execCend_keepsMem (tk) : KeepsMem (execCend tk) := controlC_keepsMem fun _ _ _ h => h

end

end Sys2Proof.Proofs.CopyMemory
end

section
/-! Memory in its canonical form (log entry 1): the queues of a command processor and their packets. -/
namespace Sys2Proof.Proofs.QueueMemory
open Sys2Proof Sys2Proof.Machine Sys2Proof.Safety Sys2Proof.Laws Sys2Proof.Proofs.ArrayState Sys2Proof.Proofs.ScalarMemory
  Sys2Proof.Proofs.StrandsAtThePort

section
variable {s : State}

/-! ## Queues, joins and reports -/

theorem modQueue_memOk {d q : Nat} {f : Queue → Queue} (h : MemOk s) : MemOk (modQueue s d q f) := h

theorem sendMsi_memOk {v : Nat} (h : MemOk s) : MemOk (sendMsi s v) := memOk_of_mem (sendMsi_keeps s v).2 h

theorem report_memOk {die kind slot q detail obj off : Nat} (h : MemOk s) : MemOk (report s die kind slot q detail obj off) :=
  memOk_of_mem (report_keeps s die kind slot q detail obj off).2 h

theorem leaveJoin_memOk {die q : Nat} (h : MemOk s) : MemOk (leaveJoin s die q) := by
  unfold leaveJoin
  split
  · exact h
  · exact h

theorem stopQueue_memOk {die q : Nat} {c : QCause} {b : Bool} (h : MemOk s) : MemOk (stopQueue s die q c b) :=
  report_memOk (leaveJoin_memOk h)

theorem checkTail_memOk {die q : Nat} (h : MemOk s) : MemOk (checkTail s die q) := memOk_choice (stopQueue_memOk h) h

theorem askQueue_memOk {die q p : Nat} (h : MemOk s) : MemOk (askQueue s die q p) := memOk_choice h h

theorem semAdd_memOk {die sem : Nat} {x : BitVec 64} (h : MemOk s) : MemOk (semAdd s die sem x) := h

/-! ## Reads and writes of a command processor -/

theorem refuseLog_memOk {o f : Nat} (h : MemOk s) : MemOk (refuseLog s o f) := h

theorem memOk_of_ok {r : CpAcc} {l : List Byte} (h : MemOk (cpState r)) (e : r = .ok l s) : MemOk s := by
  rw [e] at h; exact h

theorem memOk_of_fail {r : CpAcc} (h : MemOk (cpState r)) (e : r = .fail s) : MemOk s := by rw [e] at h; exact h

theorem memOk_of_ask {r : CpAcc} {p : Nat} (h : MemOk (cpState r)) (e : r = .ask p s) : MemOk s := by rw [e] at h; exact h

theorem cpRead_memOk (die : Nat) (ans : Option CxlResult) (space obj gen off n : Nat) (h : MemOk s) :
    MemOk (cpState (cpRead s die ans space obj gen off n)) := by
  have ht := translate_memOk (ans == some .ok) die space obj gen off n h
  unfold cpRead
  generalize translateIn s (ans == some .ok) die space obj gen off n = r at ht ⊢
  obtain ⟨x, t⟩ := r
  cases x with
  | ok p =>
    have hr := placeRead_memOk p ht
    dsimp only
    generalize placeRead t p = q at hr ⊢
    obtain ⟨v, t1⟩ := q
    split
    · exact ht
    · split
      · exact ht
      · cases v <;> exact hr
  | _ => exact ht

theorem cpReadN_memOk (fuel : Nat) (die : Nat) (ans : Option CxlResult) (space obj gen off n : Nat) (h : MemOk s) :
    MemOk (cpState (cpReadN fuel s die ans space obj gen off n)) := by
  induction fuel generalizing s off n with
  | zero => exact h
  | succ f ih =>
    unfold cpReadN
    dsimp only
    split
    · exact h
    · have hr := cpRead_memOk die ans space obj gen off (min n (64 - off % 64)) h
      split
      · have hi := ih (off + min n (64 - off % 64)) (n - min n (64 - off % 64)) (memOk_of_ok hr ‹_›)
        split
        · exact memOk_of_ok hi ‹_›
        · exact hi
      · exact hr

theorem cpWrite_memOk (die : Nat) (ans : Option CxlResult) (space obj gen off : Nat) (l : List Byte) (h : MemOk s) :
    MemOk (cpState (cpWrite s die ans space obj gen off l)) := by
  have ht := translate_memOk (ans == some .ok) die space obj gen off l.length h
  unfold cpWrite
  generalize translateIn s (ans == some .ok) die space obj gen off l.length = r at ht ⊢
  obtain ⟨x, t⟩ := r
  cases x with
  | ok p =>
    have hw := placeWrite_memOk p (maskOf (p.pa % 64) l.length) (granPut 0#512 (p.pa % 64) l) false ht
    dsimp only
    generalize placeWrite t p (maskOf (p.pa % 64) l.length) (granPut 0#512 (p.pa % 64) l) false = q at hw ⊢
    obtain ⟨v, t1⟩ := q
    split
    · exact ht
    · split
      · exact ht
      · split <;> exact (memOk_snd hw ‹_› :)
  | _ => exact ht

theorem queueWords_memOk (n : Nat) (die : Nat) (x : Queue) (pos : Nat) (h : MemOk s) :
    MemOk (cpState (queueWords s die x pos n)) := by
  induction n generalizing s pos with
  | zero => exact h
  | succ k ih =>
    unfold queueWords
    have hw : MemOk (cpState (match x.stack with
        | [] =>
          match physRead s die (x.base + pos % 2 ^ x.size) 4 with
          | (some l, s1) => .ok l s1
          | (none, s1) => .fail s1
        | t :: _ => cpRead s die x.ans x.space t.1 t.2.1 pos 4)) := by
      split
      · have hp := physRead_memOk die (x.base + pos % 2 ^ x.size) 4 h
        split <;> rename_i heq <;> exact (memOk_snd hp heq :)
      · exact cpRead_memOk _ _ _ _ _ _ _ h
    dsimp only
    split <;> rename_i heq
    · have hi := ih (pos + 4) (memOk_of_ok hw heq)
      split <;> rename_i heq2
      · exact memOk_of_ok hi heq2
      · exact hi
    · exact hw

/-! ## The frame of a packet -/

/-- The machine that a packet's meaning leaves. -/
def packetState : PEff → State
  | .done s => s
  | .wait s => s
  | .stop s _ => s
  | .moved s => s
  | .launched s _ => s

theorem completePacket_memOk {die q words : Nat} (h : MemOk s) : MemOk (completePacket s die q words) := h

theorem closePacket_memOk {die q words : Nat} {r : PEff} (h : MemOk (packetState r)) : MemOk (closePacket die q words r) := by
  cases r with
  | stop s c => exact stopQueue_memOk (s := s) h
  | _ => exact h

theorem runPacket_keepsMem {words : Nat} {f : State → Nat → Nat → Queue → Bool → PEff}
    (hf : ∀ s die q x first, MemOk s → MemOk (packetState (f s die q x first))) : KeepsMem (runPacket words f) := by
  intro s h
  unfold runPacket
  split
  · exact closePacket_memOk (hf _ _ _ _ _ (modQueue_memOk h))
  · trivial

theorem memOk_packet {c : Prop} [Decidable c] {a b : PEff} (ha : MemOk (packetState a)) (hb : MemOk (packetState b)) :
    MemOk (packetState (if c then a else b)) := by split <;> assumption

/-! ## The packets that touch no launch -/

theorem execNop_keepsMem (len) : KeepsMem (execNop len) := runPacket_keepsMem fun _ _ _ _ _ h => h

theorem copyPre_memOk (die : Nat) (x : Queue) (src dst : CapBits) (len : Nat) (h : MemOk s) :
    MemOk (copyPre s die x src dst len).2 := by
  have ha := translate_memOk false die x.space (capObj src) (capOgen src) (capBase src) 64 h
  have hb := translate_memOk false die x.space (capObj dst) (capOgen dst) (capBase dst) 64 ha
  unfold copyPre
  refine memOk_ite h (memOk_ite h ?_)
  dsimp only
  split
  · exact ha
  · exact hb
  · exact hb

theorem execCopyP_keepsMem (src dst len) : KeepsMem (execCopyP src dst len) :=
  runPacket_keepsMem fun s die q x first h => by
    have h1 : MemOk (if first then copyPre s die x src dst len.toNat else (none, s)).2 :=
      memOk_ite (copyPre_memOk _ _ _ _ _ h) h
    dsimp only
    split <;> rename_i heq
    · exact memOk_snd h1 heq
    · have h1 := memOk_snd h1 heq
      rename_i s1
      have h2 : MemOk (cpState (match x.data with
          | some l => CpAcc.ok l s1
          | none => cpRead s1 die x.ans x.space (capObj src) (capOgen src) (capBase src + 64 * x.done) 64)) := by
        split
        · exact h1
        · exact cpRead_memOk _ _ _ _ _ _ _ h1
      split <;> rename_i heq2
      · exact askQueue_memOk (memOk_of_ask h2 heq2)
      · exact memOk_of_fail h2 heq2
      · have h3 := fun a o l => cpWrite_memOk die a x.space (capObj dst) (capOgen dst) o l (memOk_of_ok h2 heq2)
        split <;> rename_i heq3
        · exact memOk_of_fail (h3 _ _ _) heq3
        · have h4 := memOk_of_ask (h3 _ _ _) heq3
          exact askQueue_memOk (memOk_choice h4 (modQueue_memOk h4))
        · have h4 := memOk_of_ok (h3 _ _ _) heq3
          exact memOk_packet h4 h4

theorem execSemsigP_keepsMem (sem add) : KeepsMem (execSemsigP sem add) :=
  runPacket_keepsMem fun _ _ _ _ _ h => semAdd_memOk h

theorem execSemwaitP_keepsMem (cond sem value) : KeepsMem (execSemwaitP cond sem value) :=
  runPacket_keepsMem fun _ _ _ _ _ h => memOk_packet h (memOk_packet h h)

theorem putJoin_memOk {die : Nat} {id : BitVec 8} {j : Option Join} (h : MemOk s) : MemOk (putJoin s die id j) := h

theorem arriveJoin_memOk {die q : Nat} {mask : BitVec 16} {id : BitVec 8} {l : List Nat} (h : MemOk s) :
    MemOk (packetState (arriveJoin s die q mask id l)) := by
  unfold arriveJoin
  exact memOk_packet (foldl_memOk _ (fun _ _ ht => completePacket_memOk ht) _ (putJoin_memOk h)) h

theorem execQfence_keepsMem (qmask id) : KeepsMem (execQfence qmask id) :=
  runPacket_keepsMem fun _ _ _ _ _ h => memOk_packet h (memOk_packet h (by
    split
    · exact memOk_packet (arriveJoin_memOk h) h
    · exact arriveJoin_memOk h))

theorem execJumpP_keepsMem (obj gen start) : KeepsMem (execJumpP obj gen start) :=
  runPacket_keepsMem fun _ _ _ _ _ h => by
    split
    · exact h
    · exact modQueue_memOk h

theorem execCallP_keepsMem (obj gen start) : KeepsMem (execCallP obj gen start) :=
  runPacket_keepsMem fun _ _ _ _ _ h => memOk_packet h (modQueue_memOk h)

theorem execReturnP_keepsMem : KeepsMem execReturnP :=
  runPacket_keepsMem fun _ _ _ _ _ h => by
    split
    · exact h
    · exact modQueue_memOk h

theorem execIrq_keepsMem (vec cookie) : KeepsMem (execIrq vec cookie) :=
  runPacket_keepsMem fun _ _ _ _ _ h => memOk_packet h (sendMsi_memOk (modQueue_memOk h))

theorem execFrameBegin_keepsMem (t0 sse ssem) : KeepsMem (execFrameBegin t0 sse ssem) :=
  runPacket_keepsMem fun _ _ _ _ _ h => memOk_packet h (modQueue_memOk h)

theorem execFrameEnd_keepsMem : KeepsMem execFrameEnd :=
  runPacket_keepsMem fun _ _ _ _ _ h => memOk_packet h (modQueue_memOk h)

theorem execReleaseAt_keepsMem (t) : KeepsMem (execReleaseAt t) := runPacket_keepsMem fun _ _ _ _ _ h => memOk_packet h h

theorem requestStop_memOk {k plim : Nat} (h : MemOk s) : MemOk (requestStop s k plim) := modCrew_memOk h

theorem execPreempt_keepsMem (q all hold plim) : KeepsMem (execPreempt q all hold plim) :=
  runPacket_keepsMem fun s die n x first h => by
    have h0 : ∀ (l : List (Nat × Nat)) lim, MemOk (l.foldl (fun s t => requestStop s t.1 lim) s) := fun l lim =>
      foldl_memOk _ (fun _ _ ht => requestStop_memOk ht) _ h
    have h1 : ∀ (l : List (Nat × Nat)) lim (qs : List Nat), MemOk (if first then
        (if hold then qs.foldl (fun s k => modQueue s die k fun x => { x with hold := true })
          (l.foldl (fun s t => requestStop s t.1 lim) s) else l.foldl (fun s t => requestStop s t.1 lim) s) else s) :=
      fun l lim qs => memOk_choice
        (memOk_choice (foldl_memOk _ (fun _ _ ht => modQueue_memOk ht) _ (h0 _ _)) (h0 _ _)) h
    exact memOk_packet (h1 _ _ _) (modQueue_memOk (h1 _ _ _))

theorem execSetpri_keepsMem (q ceil) : KeepsMem (execSetpri q ceil) :=
  runPacket_keepsMem fun _ _ _ _ _ h => modQueue_memOk h

theorem invalidate_memOk {space obj : Nat} {all : Bool} (h : MemOk s) : MemOk (invalidate s space obj all) := by
  unfold invalidate
  exact memOk_choice h h

theorem execOtinv_keepsMem (space all obj) : KeepsMem (execOtinv space all obj) :=
  runPacket_keepsMem fun s _ _ _ first h => by
    have h1 : MemOk (if first then invalidate s space.toNat obj.toNat all else s) := memOk_choice (invalidate_memOk h) h
    exact memOk_packet h1 h1

/-! ## Launches -/

/-- The machine that the checks of a launch leave. -/
def checksState {α : Type} : LRes α → State
  | .ok _ s => s
  | .stop _ s => s
  | .ask _ s => s

theorem bind_memOk {α β : Type} {r : LRes α} {f : α → State → LRes β} (h : MemOk (checksState r))
    (hf : ∀ a t, MemOk t → MemOk (checksState (f a t))) : MemOk (checksState (r.bind f)) := by
  cases r with
  | ok a s => exact hf a s h
  | stop c s => exact h
  | ask p s => exact h

theorem readOr_memOk {c : QCause} {r : CpAcc} (h : MemOk (cpState r)) : MemOk (checksState (readOr c r)) := by
  cases r <;> exact h

theorem memOk_check {α : Type} {c : Prop} [Decidable c] {a b : LRes α} (ha : MemOk (checksState a))
    (hb : MemOk (checksState b)) : MemOk (checksState (if c then a else b)) := by split <;> assumption

theorem readKernel_memOk (die : Nat) (x : Queue) (a : LaunchArgs) (h : MemOk s) :
    MemOk (checksState (readKernel s die x a)) := by
  have hrd : ∀ (s : State) off n, MemOk s → MemOk (checksState (readOr .kernelFormat
      (cpReadN (n / 64 + 2) s die x.ans x.space a.kobj.toNat a.kgen.toNat off n))) := fun s off n hs =>
    readOr_memOk (cpReadN_memOk _ _ _ _ _ _ _ _ hs)
  have hl := lookup_memOk die x.space a.kobj.toNat 0 h
  unfold readKernel
  dsimp only
  split <;> rename_i heq <;> rw [heq] at hl
  · exact hl
  · exact memOk_check hl (bind_memOk (hrd _ _ _ hl) fun _ _ h2 => memOk_check h2
      (bind_memOk (hrd _ _ _ h2) fun _ _ h3 => bind_memOk (hrd _ _ _ h3) fun _ _ h4 => memOk_check h4 h4))

theorem readExt_memOk (die : Nat) (x : Queue) (a : LaunchArgs) (h : MemOk s) : MemOk (checksState (readExt s die x a)) := by
  have hrd : ∀ (s : State) off n, MemOk s → MemOk (checksState (readOr .access
      (cpReadN (n / 64 + 2) s die x.ans x.space a.lxobj.toNat a.lxgen.toNat off n))) := fun s off n hs =>
    readOr_memOk (cpReadN_memOk _ _ _ _ _ _ _ _ hs)
  unfold readExt
  refine memOk_check h (bind_memOk (hrd _ _ _ h) fun _ _ h1 => memOk_check ?_ h1)
  exact bind_memOk (hrd _ _ _ h1) fun _ _ h2 => h2

theorem startLaunch_memOk {die q : Nat} {x : Queue} {a : LaunchArgs} {mask : Option (BitVec 128)} {k : Kernel}
    {slots : FMap CapBits} {groups : FMap (BitVec 128)} (h : MemOk s) :
    MemOk (packetState (startLaunch s die q x a mask k slots groups)) := h

theorem checkLaunch_memOk (a : LaunchArgs) (mask : Option (BitVec 128)) (die q : Nat) (x : Queue) (h : MemOk s) :
    MemOk (packetState (checkLaunch a mask s die q x)) := by
  unfold checkLaunch
  refine memOk_packet h ?_
  have hr : MemOk (checksState ((readKernel s die x a).bind fun k s1 => (readExt s1 die x a).bind fun e s2 =>
      let slots := slotsOf a e.1
      let groups := groupsFrom e.2
      if !argsOk k slots then .stop .launchRights s2
      else if !groupsOk a mask.isSome groups then .stop .launchGroups s2
      else if (mask.map (maskAbsent s)).getD false then .stop .absent s2
      else .ok (k, slots, groups) s2)) :=
    bind_memOk (readKernel_memOk _ _ _ h) fun _ _ h1 => bind_memOk (readExt_memOk _ _ _ h1) fun _ _ h2 =>
      memOk_check h2 (memOk_check h2 (memOk_check h2 h2))
  dsimp only at hr ⊢
  split <;> rename_i heq <;> rw [heq] at hr
  · exact hr
  · exact askQueue_memOk (s := _) hr
  · exact startLaunch_memOk (s := _) hr

theorem execLaunch_keepsMem (a) : KeepsMem (execLaunch a) := runPacket_keepsMem fun _ _ _ _ _ h => checkLaunch_memOk _ _ _ _ _ h

theorem execLaunchm_keepsMem (a mask) : KeepsMem (execLaunchm a mask) :=
  runPacket_keepsMem fun _ _ _ _ _ h => checkLaunch_memOk _ _ _ _ _ h

theorem releaseLaunch_memOk {n : Nat} (h : MemOk s) : MemOk (releaseLaunch s n) := by
  unfold releaseLaunch
  split
  · exact memOk_choice (modLaunch_memOk h) h
  · exact h

theorem execFrameRelease_keepsMem (die n) : KeepsMem (execFrameRelease die n) := by
  intro s h
  unfold execFrameRelease
  split
  · exact memOk_choice (releaseLaunch_memOk h) h
  · exact h

theorem execOverrun_keepsMem (die n) : KeepsMem (execOverrun die n) := by
  intro s h
  unfold execOverrun
  split
  · exact memOk_choice (modLaunch_memOk h) h
  · exact h

theorem slipLaunch_memOk {n : Nat} {l : Launch} (h : MemOk s) : MemOk (slipLaunch s n l) :=
  memOk_choice (report_memOk (modLaunch_memOk h)) (modLaunch_memOk h)

theorem endEpisode_memOk {k : Nat} (h : MemOk s) : MemOk (endEpisode s k) := memOk_choice h h

theorem slipQueued_memOk {die q : Nat} {l : List (Queue × LaunchArgs)} (h : MemOk s) : MemOk (slipQueued s die q l) :=
  foldl_memOk _ (fun _ _ ht => memOk_choice (report_memOk (modQueue_memOk ht)) (modQueue_memOk ht)) _
    (modQueue_memOk (foldl_memOk _ (fun _ _ ht => endEpisode_memOk ht) _ h))

theorem slipQueue_memOk {old : State} {die q : Nat} (h : MemOk s) : MemOk (slipQueue old s die q) := by
  have h1 := slipQueued_memOk (die := die) (q := q) (l := lateQueued old die q) h
  unfold slipQueue
  refine memOk_choice h1 ?_
  have h2 := foldl_memOk (fun s p => slipLaunch s p.1 p.2) (fun _ _ ht => slipLaunch_memOk ht)
    (s.launches.filter fun p => p.2.die == die && p.2.q == q && overruns old p.2) h1
  dsimp only
  split
  · exact memOk_choice (semAdd_memOk (modQueue_memOk h2)) (modQueue_memOk h2)
  · exact h2

theorem passLaunches_memOk (fuel : Nat) {die q : Nat} (h : MemOk s) : MemOk (passLaunches fuel s die q) := by
  induction fuel generalizing s with
  | zero => exact h
  | succ f ih =>
    unfold passLaunches
    split
    · exact h
    · exact ih (modQueue_memOk h)
    · split
      · exact memOk_choice (ih (memOk_of_mem rfl h)) h
      · exact h

theorem completeLaunch_memOk {n : Nat} (h : MemOk s) : MemOk (completeLaunch s n) := by
  unfold completeLaunch
  split
  · exact h
  · rename_i l _
    refine memOk_choice ?_ h
    have h1 : MemOk (match firstFailed l.failed with
        | none => s
        | some f => report s l.die 6 0 l.q (min (storeCount l.failed) (2 ^ 32 - 1)) f.obj f.off) := by
      split
      · exact h
      · exact report_memOk h
    have h2 : ∀ t, MemOk t → MemOk (match l.episode with
        | some k => endEpisode t k
        | none => t) := fun t ht => by
      split
      · exact endEpisode_memOk ht
      · exact ht
    have h3 := modLaunch_memOk (n := n) (f := fun l => { l with st := .complete }) (h2 _ h1)
    exact memOk_choice (passLaunches_memOk _ h3) (memOk_of_mem rfl h3)

theorem execLaunchComplete_keepsMem (die n) : KeepsMem (execLaunchComplete die n) := by
  intro s h
  unfold execLaunchComplete
  split
  · exact memOk_choice (completeLaunch_memOk h) h
  · exact h

end

end Sys2Proof.Proofs.QueueMemory
end

section
/-! Memory in its canonical form (log entry 1): crews placed, saved, restored and reported, and what a core does of its own
accord. Save areas are written and read at physical addresses. -/
namespace Sys2Proof.Proofs.CrewMemory
open Sys2Proof Sys2Proof.Machine Sys2Proof.Safety Sys2Proof.Laws Sys2Proof.Proofs.ArrayState Sys2Proof.Proofs.ScalarMemory
  Sys2Proof.Proofs.VectorMemory Sys2Proof.Proofs.MatrixMemory Sys2Proof.Proofs.CopyMemory Sys2Proof.Proofs.QueueMemory
  Sys2Proof.Proofs.StrandsAtThePort

section
variable {s : State}

/-! ## Placement -/

theorem settleLaunch_memOk {n : Nat} (h : MemOk s) : MemOk (settleLaunch s n) := memOk_of_mem (settleLaunch_mem _ _) h

theorem leaveArray_memOk {c : Nat} (h : MemOk s) : MemOk (leaveArray s c) := memOk_of_mem (leaveArray_mem _ _) h

theorem freezeCrew_memOk {k : Nat} (h : MemOk s) : MemOk (freezeCrew s k) := memOk_of_mem (freezeCrew_mem _ _) h

theorem endCrew_memOk {k : Nat} (h : MemOk s) : MemOk (endCrew s k) := memOk_of_mem (endCrew_mem _ _) h

theorem settleSafe_memOk {c : Nat} (h : MemOk s) : MemOk (settleSafe s c) := by
  unfold settleSafe
  split
  · exact h
  · exact memOk_choice (leaveArray_memOk h) h

theorem allocate_memOk {c : Nat} (h : MemOk s) : MemOk (allocate s c).2 := h

theorem writeOutPlane_memOk {q : Nat} {b : Bool} (h : MemOk s) : MemOk (writeOutPlane s q b) :=
  upheld_writeOutPlane upheld_memOk q b h

theorem writeOutRow_memOk {q r : Nat} (h : MemOk s) : MemOk (writeOutRow s q r) := upheld_writeOutRow upheld_memOk q r h

/-- A plane, or a row, written out where a condition says so. -/
theorem planeOut_memOk {c : Prop} [Decidable c] {q : Nat} {b : Bool} (h : MemOk s) :
    MemOk (if c then writeOutPlane s q b else s) := memOk_choice (writeOutPlane_memOk h) h

theorem rowOut_memOk {c : Prop} [Decidable c] {q r : Nat} (h : MemOk s) : MemOk (if c then writeOutRow s q r else s) :=
  memOk_choice (writeOutRow_memOk h) h

theorem setCores_memOk {f : FMap CoreSt} (h : MemOk s) : MemOk { s with cores := f } := h

theorem setStrand_memOk {c : Nat} {st : Strand} (h : MemOk s) : MemOk (setStrand s c st) := h

theorem sweepHeld_memOk {c q : Nat} (h : MemOk s) : MemOk (sweepHeld s c q) := by
  unfold sweepHeld
  exact planeOut_memOk (planeOut_memOk (foldl_memOk _ (fun _ _ ht => rowOut_memOk ht) _ (iter_memOk 8 _ (fun t s ht => by
    split
    · exact memOk_choice (writeOutTile_memOk c t ht) ht
    · exact ht) h)))

theorem sweepTags_memOk {c q : Nat} (h : MemOk s) : MemOk (sweepTags s c q) := memOk_of_mem rfl h

theorem execSweepDone_keepsMem (c) : KeepsMem (execSweepDone c) := by
  intro s h
  unfold execSweepDone
  split
  · exact h
  · exact setCores_memOk (sweepTags_memOk (sweepHeld_memOk h))

theorem startRank_memOk {l : Launch} {key copy : Nat} {coord : Nat × Nat × Nat} {p : Nat × Nat} (h : MemOk s) :
    MemOk (startRank l key copy coord s p) := memOk_of_mem rfl h

theorem wantEntries_memOk {die : Nat} {l : Launch} (h : MemOk s) : MemOk (wantEntries s die l) := h

/-- A machine that may be chosen holds memory in its canonical form. -/
def SomeOk (o : Option State) : Prop := ∀ t, o = some t → MemOk t

theorem someOk_none : SomeOk none := fun _ e => nomatch e

theorem someOk_some (h : MemOk s) : SomeOk (some s) := fun _ e => by cases e; exact h

theorem placeCrew_someOk (n copy place : Nat) (cls : List Nat) (coord : Nat × Nat × Nat) (h : MemOk s) :
    SomeOk (placeCrew s n copy place cls coord) := by
  unfold placeCrew
  split
  · exact someOk_none
  · split
    · split
      · exact someOk_none
      · exact someOk_some (foldl_memOk _ (fun _ _ ht => settle_memOk ht) _
          (wantEntries_memOk (foldl_memOk _ (fun _ _ ht => startRank_memOk ht) _ (memOk_of_mem rfl h))))
    · exact someOk_none

theorem placeGang_someOk (n copy place : Nat) (cls : List Nat) (l : List (Nat × Nat × Nat)) (h : MemOk s) :
    SomeOk (placeGang s n copy place cls l) := by
  induction l generalizing s with
  | nil => exact someOk_some h
  | cons c r ih =>
    unfold placeGang
    split
    · exact ih (placeCrew_someOk n copy place cls c h _ ‹_›)
    · exact someOk_none

theorem placeNew_someOk (n copy : Nat) (h : MemOk s) : SomeOk (placeNew s n copy) := by
  unfold placeNew
  split
  · exact someOk_none
  · dsimp only
    split
    · exact someOk_none
    · exact someOk_some (settleLaunch_memOk (modLaunch_memOk (placeGang_someOk _ _ _ _ _ h _ ‹_›)))

/-! ## Saving -/

theorem holdContext_memOk {c : Nat} {st : Strand} (h : MemOk s) : MemOk (holdContext s c st) := memOk_of_mem rfl h

theorem holdTiles_memOk {c : Nat} {st : Strand} {l : List Nat} (h : MemOk s) : MemOk (holdTiles s c st l) := by
  unfold holdTiles
  exact foldl_memOk _ (fun _ _ ht => by dsimp only; split <;> exact ht) _ h

theorem physGrans_memOk (die base : Nat) (l : List (Nat × Granule)) (h : MemOk s) : MemOk (physGrans s die base l).2 := by
  induction l generalizing s with
  | nil => exact h
  | cons p r ih => exact ih (physWrite_memOk _ _ _ h)

theorem physBlocks_memOk (die : Nat) (l : List (Nat × List Byte)) (h : MemOk s) : MemOk (physBlocks s die l).2 := by
  induction l generalizing s with
  | nil => exact h
  | cons p r ih => exact ih (upheld_physBlock upheld_memOk _ _ _ h)

theorem writeSave_memOk (c : Nat) (st : Strand) (full : Bool) (h : MemOk s) : MemOk (writeSave s c st full).2 := by
  have h2 := fun l die base m => physGrans_memOk die base m (physBlocks_memOk (dieOf c) l h)
  unfold writeSave
  exact memOk_ite (physWrite_memOk _ _ _ (h2 _ _ _ _)) (h2 _ _ _ _)

theorem saveStrand_memOk (c : Nat) (full : Bool) (h : MemOk s) : MemOk (saveStrand s c full).2 := by
  have h1 := leaveArray_memOk (c := c) h
  unfold saveStrand
  dsimp only
  split
  · exact h1
  · rename_i st _
    have hw := writeSave_memOk c st full h1
    have h2 : ∀ l, MemOk (if st.retired then (writeSave (leaveArray s c) c st full).2
        else holdTiles (holdContext (writeSave (leaveArray s c) c st full).2 c st) c st l) := fun l =>
      memOk_choice hw (holdTiles_memOk (holdContext_memOk hw))
    exact memOk_of_mem (modCrew_mem _ _ _) (memOk_of_mem (leaveCore_mem _ _ _) (h2 _))

theorem saveRanks_memOk (full : Bool) (l : List (Nat × Strand)) (h : MemOk s) : MemOk (saveRanks s full l).2 := by
  induction l generalizing s with
  | nil => exact h
  | cons p r ih => exact ih (saveStrand_memOk _ _ h)

theorem saveCrew_memOk (full : Bool) (k : Nat) (h : MemOk s) : MemOk (saveCrew s full k) := by
  unfold saveCrew
  split
  · exact h
  · have hw := fun f l => saveRanks_memOk full l (modCrew_memOk (k := k) (f := f) h)
    exact settleLaunch_memOk (modCrew_memOk (memOk_choice (hw _ _) (report_memOk (hw _ _))))

theorem savePoint_memOk {k : Nat} (h : MemOk s) : MemOk (savePoint s k) :=
  memOk_choice (foldl_memOk _ (fun _ _ ht => saveCrew_memOk _ _ ht) _ h) h

theorem evictReady_memOk {k : Nat} (h : MemOk s) : MemOk (evictReady s k) :=
  memOk_choice (foldl_memOk _ (fun _ _ ht => saveCrew_memOk _ _ ht) _ h) h

theorem execSafePointSave_keepsMem (die slot) : KeepsMem (execSafePointSave die slot) := fun _ h =>
  evictReady_memOk (savePoint_memOk h)

theorem execCpEvict_keepsMem (die slot) : KeepsMem (execCpEvict die slot) := by
  intro s h
  unfold execCpEvict
  dsimp only
  split
  · exact outOk_ite (evictReady_memOk (foldl_memOk _ (fun _ _ ht => modCrew_memOk (freezeCrew_memOk ht)) _ h)) h
  · exact h

/-! ## Resumption and fault entries -/

theorem resumeStrands_memOk {k : Nat} (h : MemOk s) : MemOk (resumeStrands s k) := h

theorem thaw_memOk {k : Nat} (h : MemOk s) : MemOk (thaw s k) :=
  endCrew_memOk (foldl_memOk _ (fun s p ht => settle_memOk (s := takeRows s p.1 p.2) ht) _ (modCrew_memOk (resumeStrands_memOk h)))

theorem resumeCrew_memOk {k : Nat} (h : MemOk s) : MemOk (resumeCrew s k) :=
  memOk_choice (thaw_memOk h) (modCrew_memOk (resumeStrands_memOk h))

theorem execCpResume_keepsMem (die slot) : KeepsMem (execCpResume die slot) := by
  intro s h
  unfold execCpResume
  dsimp only
  split
  · exact h
  · exact outOk_ite (memOk_choice (modCrew_memOk h) (resumeCrew_memOk h))
      (outOk_ite (settleLaunch_memOk (modCrew_memOk h)) h)

theorem ringWrite_memOk (die base size pos : Nat) (l : List (List Byte)) (h : MemOk s) :
    MemOk (ringWrite s die base size pos l) := by
  induction l generalizing s pos with
  | nil => exact h
  | cons b r ih => exact ih _ (physWrite_memOk _ _ _ h)

theorem execFaultEntry_keepsMem (die slot) : KeepsMem (execFaultEntry die slot) := by
  intro s h
  unfold execFaultEntry
  dsimp only
  split
  · exact h
  · refine outOk_ite ?_ h
    have h1 := fun f k g b z p l => modCrew_memOk (k := k) (f := g) (s := modDie (ringWrite s die b z p l) die f)
      (ringWrite_memOk die b z p l h)
    exact memOk_choice (resumeCrew_memOk (h1 _ _ _ _ _ _ _)) (h1 _ _ _ _ _ _ _)

/-! ## Restoring -/

theorem readBlock_memOk (die a n : Nat) (h : MemOk s) : MemOk (readBlock s die a n).2 := physReadAll_memOk _ _ _ h

theorem readBlocks_memOk (die base n : Nat) (l : List Nat) (h : MemOk s) : MemOk (readBlocks s die base n l).2 := by
  induction l generalizing s with
  | nil => exact h
  | cons k r ih =>
    have hb := readBlock_memOk die (base + n * k) n h
    unfold readBlocks
    split <;> rename_i heq <;> rw [heq] at hb
    · exact ih hb
    · exact hb

theorem readPlanes_memOk (die : Nat) (o : Owner) (l : List Nat) (h : MemOk s) : MemOk (readPlanes s die o l).2 := by
  induction l generalizing s with
  | nil => exact h
  | cons k r ih =>
    have hb := upheld_readPlane upheld_memOk die o k h
    unfold readPlanes
    split <;> rename_i heq <;> rw [heq] at hb
    · exact ih hb
    · exact hb

theorem readSave_memOk (die : Nat) (o : Owner) (lost : List HeldObj) (old : Nat) (tiles rows planes : List Nat) (h : MemOk s) :
    MemOk (readSave s die o lost old tiles rows planes).2 := by
  have h1 := readBlock_memOk die (saveAddr s o) 0xB000 h
  unfold readSave
  dsimp only
  split <;> rename_i e1
  · exact memOk_snd h1 e1
  · have h2 := fun a n => readBlock_memOk die a n (memOk_snd h1 e1)
    split <;> rename_i e2
    · exact memOk_snd (h2 _ _) e2
    · have h3 := fun a n => readBlock_memOk die a n (memOk_snd (h2 _ _) e2)
      split <;> rename_i e3
      · exact memOk_snd (h3 _ _) e3
      · have hp := fun a b c d l l' l'' l''' => readPlanes_memOk die o l''' (readBlocks_memOk die a b l''
          (readBlocks_memOk die c d l' (readBlocks_memOk die (saveAddr s o + 0x10000) 64 l (memOk_snd (h3 _ _) e3))))
        split
        · exact hp _ _ _ _ _ _ _ _
        · exact hp _ _ _ _ _ _ _ _

theorem flushCovered_memOk {c : Nat} {o : Owner} {st : Strand} (h : MemOk s) : MemOk (flushCovered s c o st) :=
  foldl_memOk _ (fun _ _ ht => memOk_choice (writeOutRow_memOk ht) ht) _ h

theorem installRows_memOk {c : Nat} {o : Owner} {img : SaveImg} {g : Gen} (h : MemOk s) : MemOk (installRows s c o img g) := by
  have h0 : MemOk (((strandAt s c).map (flushCovered s c o)).getD s) := by
    cases strandAt s c with
    | none => exact h
    | some st => exact flushCovered_memOk h
  exact upheld_modQuad upheld_memOk _ _ (foldl_memOk _ (fun _ _ ht => upheld_modQuad upheld_memOk _ _ ht) _ h0)

theorem flushForeign_memOk {c : Nat} {o : Owner} (h : MemOk s) : MemOk (flushForeign s c o) :=
  iter_memOk 8 _ (fun t s ht => by
    split
    · exact memOk_choice ht (writeOutTile_memOk c t ht)
    · exact ht) h

theorem installPlanes_memOk {c : Nat} {o : Owner} {img : SaveImg} {g : Gen} (h : MemOk s) : MemOk (installPlanes s c o img g) :=
  modStrand_memOk (upheld_modQuad upheld_memOk _ _ h)

/-- A core's lines, scratchpad and held tiles are no part of memory. -/
theorem setCore_memOk {f : FMap CoreSt} {p : FMap SGran} {l : FMap HeldTile} (h : MemOk s) :
    MemOk { s with
      cores := f
      spad := p
      heldTiles := l } := h

theorem installRank_memOk {k : Nat} {lost : List HeldObj} {old c rank : Nat} {st : Strand} {img : SaveImg} (h : MemOk s) :
    MemOk (installRank s k lost old c rank st img) := by
  unfold installRank
  exact installPlanes_memOk (installRows_memOk (setCore_memOk (setStrand_memOk (allocate_memOk (flushForeign_memOk h)))))

theorem flushElsewhere_memOk {o : Owner} {c : Nat} (h : MemOk s) : MemOk (flushElsewhere s o c) := by
  unfold flushElsewhere
  refine foldl_memOk _ (fun _ p ht => memOk_choice ht ?_) _
    (foldl_memOk _ (fun _ _ ht => memOk_choice (writeOutTile_memOk _ _ ht) ht) _ h)
  exact planeOut_memOk (planeOut_memOk (foldl_memOk _ (fun _ _ hu => rowOut_memOk hu) _ ht))

theorem readRanks_memOk (k : Nat) (c : Crew) (l : List (Nat × Nat)) (h : MemOk s) : MemOk (readRanks s k c l).2 := by
  induction l generalizing s with
  | nil => exact h
  | cons p r ih =>
    obtain ⟨rank, core⟩ := p
    have hr := fun lost old t w q => readSave_memOk (dieOf core) { die := crewDie k, slot := crewSlot k, rank := rank } lost old t w q
      (flushElsewhere_memOk (o := { die := crewDie k, slot := crewSlot k, rank := rank }) (c := core) h)
    unfold readRanks
    dsimp only
    split
    · exact hr _ _ _ _ _
    · refine memOk_ite (hr _ _ _ _ _) ?_
      split <;> rename_i heq
      · exact memOk_snd (ih (hr _ _ _ _ _)) heq
      · exact ih (hr _ _ _ _ _)

theorem failRestore_memOk {k : Nat} {c : Crew} {d : Nat} (h : MemOk s) : MemOk (failRestore s k c d) :=
  settleLaunch_memOk (report_memOk (modCrew_memOk h))

/-- The machine that a restore leaves, done or failed. -/
def restoreState : Except (Nat × State) State → State
  | .ok s => s
  | .error p => p.2

theorem setNext_memOk {n : Nat} (h : MemOk s) : MemOk { s with nextStrand := n } := h

theorem restoreCrew_memOk (k : Nat) (c : Crew) (cores : List Nat) (h : MemOk s) :
    MemOk (restoreState (restoreCrew s k c cores)) := by
  have hr : ∀ l, MemOk (if c.incomplete then (RestoreRes.fail 3, s) else readRanks s k c l).2 := fun l =>
    memOk_ite h (readRanks_memOk _ _ _ h)
  unfold restoreCrew
  dsimp only
  split <;> rename_i heq
  · exact memOk_snd (hr _) heq
  · have h1 := memOk_snd (hr _) heq
    refine settleLaunch_memOk (modLaunch_memOk (memOk_choice
      (setNext_memOk (modCrew_memOk (foldl_memOk _ ?_ _ h1)))
      (endCrew_memOk (resumeStrands_memOk (setNext_memOk (modCrew_memOk (foldl_memOk _ ?_ _ h1)))))))
    all_goals
      intro t p ht
      split
      · exact installRank_memOk ht
      · exact ht

theorem restoreGang_someOk (l : List Nat) {base : Option State} (hb : SomeOk base) (h : MemOk s) :
    SomeOk (restoreGang base s l) := by
  induction l generalizing s base with
  | nil => exact someOk_some h
  | cons k r ih =>
    unfold restoreGang
    split
    · exact ih hb h
    · rename_i c _
      split
      · exact someOk_none
      · split
        · rename_i cores _
          have hr := restoreCrew_memOk k c cores h
          have hd : ∀ t, MemOk t → MemOk (base.getD t) := fun t ht => by
            cases base with
            | none => exact ht
            | some b => exact hb b rfl
          split <;> rename_i heq <;> rw [heq] at hr
          · exact ih (someOk_some (hd _ h)) hr
          · exact someOk_some (failRestore_memOk (hd _ hr))
        · exact someOk_none

/-! ## The next crew -/

theorem placePick_someOk (n : Nat) (p : Pick) (h : MemOk s) : SomeOk (placePick s n p) := by
  cases p with
  | saved k => exact restoreGang_someOk _ someOk_none h
  | fresh copy => exact placeNew_someOk _ _ h

theorem firstPick_memOk (n : Nat) (l : List Pick) (h : MemOk s) {p : Pick} {t : State} (e : firstPick s n l = some (p, t)) :
    MemOk t := by
  induction l with
  | nil => cases e
  | cons q r ih =>
    unfold firstPick at e
    split at e
    · rename_i s1 hq
      cases e
      exact placePick_someOk n _ h _ hq
    · exact ih e

theorem firstFit_memOk (l : List (Nat × Launch)) (h : MemOk s) {p : Pick} {t : State} (e : firstFit s l = some (p, t)) :
    MemOk t := by
  induction l with
  | nil => cases e
  | cons q r ih =>
    unfold firstFit at e
    split at e
    · rename_i x hq
      cases e
      exact firstPick_memOk _ _ h hq
    · exact ih e

theorem preemptFor_memOk {n : Nat} {l : Launch} (h : MemOk s) : MemOk (preemptFor s n l) := by
  unfold preemptFor
  split
  · exact h
  · exact memOk_choice (modLaunch_memOk (foldl_memOk _ (fun _ _ ht => requestStop_memOk ht) _ h)) h

theorem chooseCrew_memOk (die : Nat) (h : MemOk s) :
    MemOk (chooseCrew s die).1 ∧ ∀ p t, (chooseCrew s die).2 = some (p, t) → MemOk t := by
  unfold chooseCrew
  split
  · exact ⟨h, fun _ _ e => nomatch e⟩
  · split
    · exact ⟨h, fun _ _ e => nomatch e⟩
    · exact ⟨preemptFor_memOk h, fun _ _ e => firstFit_memOk _ (preemptFor_memOk h) e⟩

theorem execCrewDispatch_keepsMem (die) : KeepsMem (execCrewDispatch die) := by
  intro s h
  obtain ⟨h1, h2⟩ := chooseCrew_memOk die h
  unfold execCrewDispatch
  split <;> rename_i heq <;> rw [heq] at h1 h2
  · exact h2 _ _ rfl
  · exact h1

theorem execCrewRestore_keepsMem (die slot) : KeepsMem (execCrewRestore die slot) := by
  intro s h
  obtain ⟨h1, h2⟩ := chooseCrew_memOk die h
  unfold execCrewRestore
  split <;> rename_i heq <;> rw [heq] at h1 h2
  · exact memOk_choice (h2 _ _ rfl) h1
  · exact h1

/-! ## Reports -/

theorem execPreemptOverdue_keepsMem (die slot cycles) : KeepsMem (execPreemptOverdue die slot cycles) := by
  intro s h
  unfold execPreemptOverdue
  dsimp only
  split
  · exact outOk_ite (report_memOk (modCrew_memOk h)) h
  · exact h

theorem execWatchdogRun_keepsMem (die slot) : KeepsMem (execWatchdogRun die slot) := by
  intro s h
  unfold execWatchdogRun
  dsimp only
  split
  · exact outOk_ite (report_memOk (modCrew_memOk h)) h
  · exact h

theorem execWatchdogStall_keepsMem (die slot) : KeepsMem (execWatchdogStall die slot) := by
  intro s h
  unfold execWatchdogStall
  dsimp only
  split
  · exact outOk_ite (report_memOk (modCrew_memOk h)) h
  · exact h

theorem execWatchdogQueue_keepsMem (die q) : KeepsMem (execWatchdogQueue die q) := fun _ h =>
  outOk_ite (report_memOk (modQueue_memOk h)) h

theorem setCur_memOk {p : Party} (h : MemOk s) : MemOk { s with cur := p } := h

theorem execReleaseTick_keepsMem (die q) : KeepsMem (execReleaseTick die q) := by
  intro s h
  unfold execReleaseTick
  refine outOk_ite h ?_
  have hw := queueWords_memOk 3 die (queueAt s die q) (queueHead (queueAt s die q)) h
  split <;> rename_i heq
  · refine outOk_ite ?_ h
    have hr := fun t => execReleaseAt_keepsMem t _ (setCur_memOk (p := .queue die q) (memOk_of_ok hw heq))
    split <;> rename_i h2
    · exact setCur_memOk (memOk_of_outOk (hr _) h2)
    · exact hr _
  · exact h

theorem execWriteOut_keepsMem (o) : KeepsMem (execWriteOut o) := by
  intro s h
  cases o with
  | tile c t => exact writeOutTile_memOk c t h
  | plane q b => exact writeOutPlane_memOk h
  | row q r => exact writeOutRow_memOk h

/-! ## What a core does of its own accord -/

theorem wantLine_memOk {c : Nat} {e : Engine} {k : Handle} {a l : Nat} (h : MemOk s) : MemOk (wantLine s c e k a l) :=
  memOk_of_mem (modStream_mem s c e _) h

theorem execUiDelivery_keepsMem (c) : KeepsMem (execUiDelivery c) := by
  intro s h
  unfold execUiDelivery
  split
  · exact h
  · split
    · exact h
    · split
      · dsimp only
        split
        · exact takeTrap_memOk h
        · exact h
      · exact h

theorem execTokenDeadlock_keepsMem (c) : KeepsMem (execTokenDeadlock c) := by
  intro s h
  unfold execTokenDeadlock
  split
  · exact h
  · refine outOk_ite ?_ h
    split
    · exact takeTrap_memOk h
    · exact h

theorem fillRead_memOk (die : Nat) (k : Handle) (line : Nat) (ans : Option CxlResult) (h : MemOk s) :
    MemOk (fillRead s die k line ans).2 := by
  have ht := translate_memOk (ans == some .ok) die k.space k.obj k.gen (64 * line) 64 h
  unfold fillRead
  generalize translateIn s (ans == some .ok) die k.space k.obj k.gen (64 * line) 64 = r at ht ⊢
  obtain ⟨x, t⟩ := r
  cases x with
  | ok p =>
    have hr := placeRead_memOk p ht
    dsimp only
    generalize placeRead t p = q at hr ⊢
    obtain ⟨v, t1⟩ := q
    split
    · exact ht
    · exact ht
    · exact ht
    · cases v <;> exact hr
  | _ => exact ht

theorem failFetch_memOk {c : Cause} {k : Handle} {line core : Nat} {e : Engine} (h : MemOk s) :
    MemOk (failFetch c k line s core e) := by
  unfold failFetch
  split
  · exact h
  · exact memOk_choice (memOk_choice (takeTrap_memOk (modStream_memOk h)) (modStream_memOk h)) h

theorem execLineFill_keepsMem (die k line) : KeepsMem (execLineFill die k line) := by
  intro s h
  unfold execLineFill
  split
  · exact h
  · rename_i q _
    have hr := fun f => fillRead_memOk die k line q.ans (s := modDie s die f) h
    dsimp only
    split
    · exact memOk_of_mem rfl (hr _)
    · exact foldl_memOk _ (fun _ _ ht => foldl_memOk _ (fun _ _ hu => failFetch_memOk hu) _ ht) _ (hr _)
    · exact outOk_ite h h

theorem execFrameReturn_keepsMem (die) : KeepsMem (execFrameReturn die) := by
  intro s h
  unfold execFrameReturn
  dsimp only
  split
  · exact h
  · exact memOk_of_mem rfl h

theorem performStore_memOk {w : StoreW} (h : MemOk s) : MemOk (performStore s w) :=
  memOk_choice h (drainTo_memOk _ (memOk_choice (enterStore_memOk _ h) h))

theorem execAccessPerformed_keepsMem (c) : KeepsMem (execAccessPerformed c) := by
  intro s h
  unfold execAccessPerformed
  split
  · exact h
  · rename_i st _
    have hc := upheld_chooseOf upheld_memOk (mayEnter (st.stores.filter fun w => w.tier != 2#2)) h
    split <;> rename_i heq <;> rw [heq] at hc
    · exact settle_memOk (performStore_memOk hc)
    · exact settle_memOk hc

end

end Sys2Proof.Proofs.CrewMemory
end

section
/-! Memory in its canonical form (log entry 1): the moves of a context of the tier engine, and its entries. A unit of a move
reads one place and writes another. -/
namespace Sys2Proof.Proofs.MoveMemory
open Sys2Proof Sys2Proof.Machine Sys2Proof.Safety Sys2Proof.Laws Sys2Proof.Proofs.ArrayState Sys2Proof.Proofs.ScalarMemory
  Sys2Proof.Proofs.MatrixMemory Sys2Proof.Proofs.CopyMemory Sys2Proof.Proofs.QueueMemory Sys2Proof.Proofs.CrewMemory
  Sys2Proof.Proofs.StrandsAtThePort

section
variable {s : State}

/-! ## Contexts, streams and statuses -/

theorem modCtx_memOk {n : Nat} {f : TeCtx → TeCtx} (h : MemOk s) : MemOk (modCtx s n f) := h

theorem modMove_memOk {n o : Nat} {f : MoveSt → MoveSt} (h : MemOk s) : MemOk (modMove s n o f) := h

theorem dropShard_memOk {e : BitVec 32} {k : Nat} (h : MemOk s) : MemOk (dropShard s e k) := h

theorem forgetStream_memOk {e : BitVec 32} (h : MemOk s) : MemOk (forgetStream s e) := memOk_choice h h

theorem sendFlit_memOk {d : Nat} {m : OutMsg} (h : MemOk s) : MemOk (sendFlit s d m) :=
  memOk_choice h (memOk_choice h h)

theorem toGroup_memOk {g : BitVec 8} {m : OutMsg} (h : MemOk s) : MemOk (toGroup s g m) := sendFlit_memOk h

theorem toPackage_memOk {p : Nat} {m : OutMsg} (h : MemOk s) : MemOk (toPackage s p m) := sendFlit_memOk h

/-- Shards and acknowledgements are no part of memory. -/
theorem setShards_memOk {l : List Shard} (h : MemOk s) : MemOk { s with shards := l } := h

theorem setAcked_memOk {l : List (BitVec 32 × Nat × Nat)} (h : MemOk s) : MemOk { s with acked := l } := h

theorem leaveStream_memOk {n : Nat} (h : MemOk s) : MemOk (leaveStream s n) := by
  unfold leaveStream
  split
  · exact h
  · exact memOk_choice (modCtx_memOk h) (memOk_choice (toGroup_memOk (setAcked_memOk (modCtx_memOk h)))
      (forgetStream_memOk (foldl_memOk _ (fun _ _ ht => toPackage_memOk ht) _ (setShards_memOk (modCtx_memOk h)))))

theorem stopCtx_memOk {n cause : Nat} (h : MemOk s) : MemOk (stopCtx s n cause) :=
  memOk_choice h (modCtx_memOk (leaveStream_memOk h))

theorem refuseStatus_memOk {n o : Nat} (h : MemOk s) : MemOk (refuseStatus s n o) := memOk_choice (stopCtx_memOk h) h

theorem writeStatus_memOk {n idx o : Nat} {st : Status} {late : Nat} (h : MemOk s) :
    MemOk (writeStatus s n idx o st late) := by
  unfold writeStatus
  have ht := translate_memOk false (ctxAt s n).die (ctxAt s n).space (ctxAt s n).obj (ctxAt s n).gen (0x10000 + 4 * idx) 4 h
  dsimp only [translateAt]
  split
  · refine memOk_choice (sendCxl_memOk ht) ?_
    have hw := fun l => cpWrite_memOk (ctxAt s n).die none (ctxAt s n).space (ctxAt s n).obj (ctxAt s n).gen
      (0x10000 + 4 * idx) l h
    split <;> rename_i heq
    · exact memOk_of_ok (hw _) heq
    · exact refuseStatus_memOk (memOk_of_fail (hw _) heq)
    · exact memOk_of_ask (hw _) heq
  · exact refuseStatus_memOk (refuseLog_memOk ht)
  · exact refuseStatus_memOk (refuseLog_memOk ht)
  · exact refuseStatus_memOk ht

theorem answerStatus_memOk {n o : Nat} {p : Place} {w : Word} {r : CxlResult} (h : MemOk s) :
    MemOk (answerStatus s n o p w r) := memOk_choice (refuseStatus_memOk h) (placeWrite_memOk _ _ _ _ h)

theorem logEvent_memOk {c n : Nat} (h : MemOk s) : MemOk (logEvent s c n) := h

theorem mscCount_memOk {k : CounterKey} {n : Nat} (h : MemOk s) : MemOk (mscCount s k n) := h

theorem entryStatus_memOk {n idx o : Nat} {st : Status} {late : Nat} (h : MemOk s) :
    MemOk (entryStatus s n idx o st late) := by
  have h1 := writeStatus_memOk (n := n) (idx := idx) (o := o) (st := st) (late := late) h
  have h2 : MemOk (if st = .refused ∨ st = .isolated then logEvent (writeStatus s n idx o st late) 5 (64 * idx + st.code)
      else writeStatus s n idx o st late) := memOk_choice (logEvent_memOk h1) h1
  exact memOk_choice h2 (modCtx_memOk h2)

theorem settleMarks_memOk (fuel : Nat) {n : Nat} (h : MemOk s) : MemOk (settleMarks fuel s n) := by
  induction fuel generalizing s with
  | zero => exact h
  | succ f ih =>
    unfold settleMarks
    dsimp only
    split
    · exact h
    · exact memOk_choice h (ih (writeStatus_memOk (semAdd_memOk
        (memOk_choice (semAdd_memOk (modCtx_memOk h)) (modCtx_memOk h)))))

theorem dropMoves_memOk {n : Nat} (h : MemOk s) : MemOk (dropMoves s n) := h

theorem tellStream_memOk {m : MoveSt} {st : Status} (h : MemOk s) : MemOk (tellStream s m st) := by
  unfold tellStream
  split
  · exact h
  · have h1 := fun e k => forgetStream_memOk (e := e) (dropShard_memOk (e := e) (k := k) h)
    exact memOk_choice h (memOk_choice (memOk_choice (h1 _ _) (toPackage_memOk (h1 _ _))) (memOk_choice h (toGroup_memOk h)))

theorem completeMove_memOk {n o : Nat} {st : Status} (h : MemOk s) : MemOk (completeMove s n o st) := by
  unfold completeMove
  split
  · exact h
  · exact settleMarks_memOk _ (dropMoves_memOk (tellStream_memOk (modMove_memOk (entryStatus_memOk h))))

/-! ## The checks of a move -/

theorem teEntry_memOk (die space obj off : Nat) (h : MemOk s) : MemOk (teEntry s die space obj off).2 :=
  lookup_memOk _ _ _ _ h

theorem tePlace_memOk (die space obj off : Nat) (h : MemOk s) : MemOk (tePlace s die space obj off).2 := by
  have hl := lookup_memOk die space obj off h
  unfold tePlace
  split <;> rename_i e1
  · exact (memOk_snd hl e1 :)
  · have h1 := memOk_snd hl e1
    refine memOk_ite h1 ?_
    have hp := fun e pe => pageEntry_memOk die e off pe h1
    split <;> rename_i e2
    · exact (memOk_snd (hp _ _) e2 :)
    · have h2 := memOk_snd (hp _ _) e2
      refine memOk_ite h2 (memOk_ite h2 (memOk_ite h2 ?_))
      have hs := fun e => sideLine_memOk die space obj off e h2
      split <;> rename_i e3
      · exact (memOk_snd (hs _) e3 :)
      · have h3 := memOk_snd (hs _) e3
        exact memOk_ite h3 h3

theorem itinUnits_memOk (fuel : Nat) (c : TeCtx) (a : MoveArgs) (hasSrc hasDst : Bool) (so d i : Nat) (h : MemOk s) :
    MemOk (itinUnits fuel s c a hasSrc hasDst so d i).2 := by
  induction fuel generalizing s i with
  | zero => exact h
  | succ f ih =>
    have hp : ∀ (t : State) (b : Bool) o off, MemOk t → MemOk (if b then tePlace t c.die c.space o off else (none, t)).2 :=
      fun t b o off ht => memOk_ite (tePlace_memOk _ _ _ _ ht) ht
    have hq := hp _ hasDst a.dobj.toNat (d + 64 * i) (hp _ hasSrc a.sobj.toNat (so + 64 * i) h)
    unfold itinUnits
    refine memOk_ite hq ?_
    split
    · exact hq
    · split <;> exact memOk_snd (ih (i + 1) hq) ‹_›

theorem startChecks_memOk (c : TeCtx) (a : MoveArgs) (hasSrc : Bool) (h : MemOk s) :
    MemOk (startChecks s c a hasSrc).2 := by
  have he : ∀ (t : State) (b : Bool) o off, MemOk t → MemOk (if b then teEntry t c.die c.space o off else (none, t)).2 :=
    fun t b o off ht => memOk_ite (teEntry_memOk _ _ _ _ ht) ht
  unfold startChecks
  dsimp only
  have h0 := he _ hasSrc a.sobj.toNat a.soff.toNat h
  generalize (if hasSrc = true then teEntry s c.die c.space a.sobj.toNat a.soff.toNat else (none, s)) = se at h0 ⊢
  have h1 := he _ (a.dtier != 3#2) a.dobj.toNat a.doff.toNat h0
  generalize (if (a.dtier != 3#2) = true then teEntry se.2 c.die c.space a.dobj.toNat a.doff.toNat else (none, se.2)) = de
    at h1 ⊢
  refine memOk_ite h1 (memOk_ite h1 ?_)
  generalize (if hasSrc = true then effOff a.soff c.sacc else some 0) = so
  generalize (if (a.dtier != 3#2) = true then effOff a.doff c.dacc else some 0) = od
  split
  · refine memOk_ite h1 ?_
    have hu := fun so d => itinUnits_memOk a.len.toNat c a hasSrc (a.dtier != 3#2) so d 0 h1
    split <;> rename_i heq
    · exact (memOk_snd (hu _ _) heq :)
    · have h2 := memOk_snd (hu _ _) heq
      exact memOk_ite h2 (memOk_ite h2 h2)
  · exact h1

/-! ## Units of a move -/

theorem updateLate_memOk {n d : Nat} (h : MemOk s) : MemOk (updateLate s n d) :=
  memOk_choice (mscCount_memOk (modCtx_memOk h)) (modCtx_memOk h)

theorem pushToken_memOk {n : Nat} {m : MoveSt} (h : MemOk s) : MemOk (pushToken s n m) := by
  unfold pushToken
  refine memOk_choice h ?_
  split
  · exact dropMoves_memOk (modMove_memOk h)
  · exact memOk_choice (dropMoves_memOk (modMove_memOk (noteProgress_memOk (modStrand_memOk h)))) h

theorem finishLanding_memOk {n : Nat} {m : MoveSt} (h : MemOk s) : MemOk (finishLanding s n m) := by
  have h2 := fun d f => completeMove_memOk (n := n) (o := m.order) (st := .done)
    (modMove_memOk (n := n) (o := m.order) (f := f) (updateLate_memOk (n := n) (d := d) h))
  unfold finishLanding
  dsimp only
  split
  · exact pushToken_memOk (h2 _ _)
  · exact h2 _ _

theorem askMove_memOk {n : Nat} {m : MoveSt} {p : Nat} (h : MemOk s) : MemOk (askMove s n m p) :=
  memOk_choice h (sendCxl_memOk (modMove_memOk h))

theorem drawGran_memOk (h : MemOk s) : MemOk (drawGran s).2 := h

/-- The machine that the read of a unit leaves. -/
def sourceState : SrcRes → State
  | .ok _ _ s => s
  | .ask _ s => s
  | .fail _ s => s

theorem memOk_source {c : Prop} [Decidable c] {a b : SrcRes} (ha : MemOk (sourceState a)) (hb : MemOk (sourceState b)) :
    MemOk (sourceState (if c then a else b)) := by split <;> assumption

theorem teRead_memOk (p : Place) (h : MemOk s) : MemOk (sourceState (teRead s p)) := by
  have hr := placeRead_memOk p h
  unfold teRead
  generalize placeRead s p = r at hr ⊢
  obtain ⟨v, t⟩ := r
  cases v with
  | poison => exact drawGran_memOk hr
  | _ => exact hr

theorem unitRead_memOk (die : Nat) (m : MoveSt) (u : MUnit) (h : MemOk s) : MemOk (sourceState (unitRead s die m u)) := by
  unfold unitRead
  split
  · split
    · exact h
    · exact drawGran_memOk h
  · exact memOk_source h (memOk_source h (memOk_source (memOk_source h h) (memOk_source h
      (memOk_source (drawGran_memOk h) (teRead_memOk _ h)))))

theorem pageGrans_memOk (p : Place) (k : Nat) (h : MemOk s) : MemOk (pageGrans s p k).2 := by
  induction k with
  | zero => exact h
  | succ k ih =>
    have hr := teRead_memOk { p with zmask := p.zmask.map fun z => (z.1, z.2.1, 64 * k) } ih
    unfold pageGrans
    dsimp only
    split <;> rename_i heq <;> rw [heq] at hr <;> exact hr

theorem sendShard_memOk {m : MoveSt} {l : List Granule} (h : MemOk s) : MemOk (sendShard s m l) := by
  unfold sendShard
  split
  · exact memOk_choice h (toGroup_memOk h)
  · exact h

theorem nextUnit_memOk {n : Nat} {m : MoveSt} {l : List Granule} (h : MemOk s) : MemOk (nextUnit s n m l) :=
  modMove_memOk (sendShard_memOk h)

theorem lineGrans_memOk (m : MoveSt) (p : Option Place) (k : Nat) (h : MemOk s) : MemOk (lineGrans s m p k).2 := by
  unfold lineGrans
  split
  · exact pageGrans_memOk _ _ h
  · exact h

theorem unitWrite_memOk {n : Nat} {m : MoveSt} {u : MUnit} {v : Granule × Bool} (h : MemOk s) :
    MemOk (unitWrite s n m u v) := by
  unfold unitWrite
  split
  · rename_i q _
    refine memOk_choice (completeMove_memOk h) ?_
    split
    · exact memOk_choice (nextUnit_memOk (lineGrans_memOk _ _ _ (physWrite_memOk _ _ _ h)))
        (completeMove_memOk (physWrite_memOk _ _ _ h))
    · refine memOk_choice (memOk_choice (completeMove_memOk h) (askMove_memOk h)) (memOk_choice (completeMove_memOk h) ?_)
      have hw := placeWrite_memOk q (BitVec.allOnes 64) v.1 v.2 h
      split <;> rename_i heq
      · exact nextUnit_memOk (memOk_snd hw heq)
      · exact completeMove_memOk (memOk_snd hw heq)
  · refine memOk_choice (completeMove_memOk h) ?_
    split
    · exact completeMove_memOk h
    · exact nextUnit_memOk (noteProgress_memOk (spWrite_memOk h))

/-! ## Steps of a move -/

theorem memberStep_someOk (n : Nat) (m : MoveSt) (x : Stream2) (h : MemOk s) : SomeOk (memberStep s n m x) := by
  have hs : MemOk (if s.cuts.contains x.epoch then completeMove s n m.order .isolated
      else if s.ends.contains x.epoch then completeMove s n m.order .dropped else s) :=
    memOk_choice (completeMove_memOk h) (memOk_choice (completeMove_memOk h) h)
  unfold memberStep
  dsimp only
  split
  · exact someOk_some hs
  · split
    · exact someOk_some (completeMove_memOk h)
    · split
      · exact someOk_none
      · exact someOk_some hs

theorem finishMove_memOk {n : Nat} {m : MoveSt} (h : MemOk s) : MemOk (finishMove s n m) :=
  memOk_choice (finishLanding_memOk h) (completeMove_memOk h)

theorem moveStep_memOk {n : Nat} {m : MoveSt} (h : MemOk s) : MemOk (moveStep s n m) := by
  unfold moveStep
  refine memOk_choice (pushToken_memOk h) ?_
  split
  · exact finishMove_memOk h
  · rename_i u _ _
    refine memOk_choice h ?_
    have hm : SomeOk (if m.member then m.str.bind (memberStep s n m) else none) := by
      split
      · cases m.str with
        | none => exact someOk_none
        | some x => exact memberStep_someOk n m x h
      · exact someOk_none
    split <;> rename_i heq
    · exact hm _ heq
    · exact unitWrite_memOk h
    · have hr := unitRead_memOk (ctxAt s n).die m u h
      split <;> rename_i heq2 <;> rw [heq2] at hr
      · exact askMove_memOk (s := _) hr
      · exact completeMove_memOk (s := _) hr
      · exact unitWrite_memOk (modMove_memOk (s := _) hr)

theorem stepMoves_memOk {n : Nat} (h : MemOk s) : MemOk (stepMoves s n) :=
  foldl_memOk _ (fun _ _ ht => by
    split
    · exact moveStep_memOk ht
    · exact ht) _ h

/-! ## The frame of an entry -/

/-- The machine that an entry's meaning leaves. -/
def entryState : EEff → State
  | .started s => s
  | .done s _ => s
  | .hold s => s
  | .block s => s
  | .jump s _ => s
  | .finish s => s

theorem memOk_entry {c : Prop} [Decidable c] {a b : EEff} (ha : MemOk (entryState a)) (hb : MemOk (entryState b)) :
    MemOk (entryState (if c then a else b)) := by split <;> assumption

theorem fallThrough_memOk {n : Nat} (h : MemOk s) : MemOk (fallThrough s n) := memOk_choice (stopCtx_memOk h) h

theorem passEntry_memOk {n : Nat} (h : MemOk s) : MemOk (passEntry s n) := fallThrough_memOk (modCtx_memOk h)

theorem closeEntry_memOk {n : Nat} {r : EEff} (h : MemOk (entryState r)) : MemOk (closeEntry n r) := by
  cases r with
  | started t => exact passEntry_memOk (s := t) h
  | done t st =>
    have h1 := fun idx o late => entryStatus_memOk (s := t) (n := n) (idx := idx) (o := o) (st := st) (late := late) h
    exact memOk_choice (stopCtx_memOk (modCtx_memOk (h1 _ _ _))) (passEntry_memOk (h1 _ _ _))
  | hold t => exact h
  | block t =>
    have h : MemOk t := h
    refine memOk_choice (modCtx_memOk h) ?_
    split
    · exact memOk_choice h (passEntry_memOk (modCtx_memOk h))
    · exact h
  | jump t k => exact modCtx_memOk (entryStatus_memOk (s := t) h)
  | finish t => exact modCtx_memOk (entryStatus_memOk (leaveStream_memOk (s := t) h))

theorem runEntry_keepsMem {f : State → Nat → TeCtx → EEff} (hf : ∀ s n c, MemOk s → MemOk (entryState (f s n c))) :
    KeepsMem (runEntry f) := by
  intro s h
  unfold runEntry
  split
  · exact closeEntry_memOk (hf _ _ _ h)
  · trivial

/-! ## The entries -/

theorem serveQuad_memOk {n : Nat} {a : MoveArgs} (h : MemOk s) : MemOk (serveQuad s n a) := by
  unfold serveQuad
  split
  · exact modCtx_memOk h
  · exact h

theorem startMove_memOk {n : Nat} {c : TeCtx} {a : MoveArgs} (h : MemOk s) : MemOk (startMove s n c a) := by
  have hc := fun b => startChecks_memOk c a b (serveQuad_memOk (n := n) (a := a) h)
  unfold startMove
  dsimp only
  split
  · exact modCtx_memOk (hc _)
  · exact completeMove_memOk (modCtx_memOk (hc _))

theorem execMove_keepsMem (a) : KeepsMem (execMove a) :=
  runEntry_keepsMem fun _ _ _ h => memOk_entry h (memOk_entry h (startMove_memOk h))

theorem execMcast_keepsMem (pmask src grp epoch ackto) : KeepsMem (execMcast pmask src grp epoch ackto) :=
  runEntry_keepsMem fun _ _ _ h => memOk_entry h (modCtx_memOk (leaveStream_memOk h))

theorem emit_memOk {m : OutMsg} (h : MemOk s) : MemOk (emit s m) := h

theorem hintRecords_memOk (fuel : Nat) {c : TeCtx} {obj port pg off n : Nat} {w : DWord} (h : MemOk s) :
    MemOk (hintRecords fuel s c obj port pg off n w) := by
  induction fuel generalizing s off n with
  | zero => exact h
  | succ f ih =>
    have ht := tePlace_memOk c.die c.space obj off h
    unfold hintRecords
    refine memOk_choice h ?_
    split <;> rename_i heq
    · exact (memOk_snd ht heq :)
    · exact ih (emit_memOk (memOk_snd ht heq))

theorem hintPool_memOk {c : TeCtx} {obj gen len : Nat} {off : BitVec 40} {at_ : Nat} (h : MemOk s) :
    MemOk (entryState (hintPool s c obj gen len off at_)) := by
  have he := teEntry_memOk c.die c.space obj off.toNat h
  unfold hintPool
  dsimp only
  split
  · exact he
  · refine memOk_entry he (memOk_entry he ?_)
    split
    · exact he
    · exact memOk_entry he (memOk_entry he (hintRecords_memOk 16 he))

theorem execHint_keepsMem (tier obj gen len off at_) : KeepsMem (execHint tier obj gen len off at_) :=
  runEntry_keepsMem fun _ _ _ h => memOk_entry (hintPool_memOk h) h

theorem execWaitw_keepsMem (wclass n) : KeepsMem (execWaitw wclass n) := runEntry_keepsMem fun _ _ _ h => memOk_entry h h

theorem execMark_keepsMem (sem fen fsem add) : KeepsMem (execMark sem fen fsem add) := by
  unfold execMark
  refine runEntry_keepsMem fun _ _ c h => ?_
  exact settleMarks_memOk (c.marks.length + 1) (modCtx_memOk h)

theorem execRepeatE_keepsMem (target lvl sadv dadv count step stride) :
    KeepsMem (execRepeatE target lvl sadv dadv count step stride) :=
  runEntry_keepsMem fun _ _ _ h => memOk_entry h (memOk_entry (modCtx_memOk h) (modCtx_memOk h))

theorem execGust_keepsMem (n tick) : KeepsMem (execGust n tick) :=
  runEntry_keepsMem fun _ _ _ h => memOk_entry (modCtx_memOk h) h

theorem askEntry_memOk {n p : Nat} (h : MemOk s) : MemOk (askEntry s n p) := memOk_choice h (sendCxl_memOk (modCtx_memOk h))

theorem spendEntry_memOk {n : Nat} (h : MemOk s) : MemOk (spendEntry s n) := h

theorem execBatch_keepsMem (rctx rebase sem sen tref) : KeepsMem (execBatch rctx rebase sem sen tref) :=
  runEntry_keepsMem fun s n c h => by
    refine memOk_entry h (memOk_entry h (memOk_entry h (memOk_entry (modCtx_memOk h) ?_)))
    have hr : MemOk (cpState (if sen then batchSize s c (rqAt s rctx.toNat) c.bseen else .ok [] s)) := by
      split
      · exact cpRead_memOk _ _ _ _ _ _ _ h
      · exact h
    split <;> rename_i heq
    · exact askEntry_memOk (memOk_of_ask hr heq)
    · exact spendEntry_memOk (memOk_of_fail hr heq)
    · have h1 := memOk_of_ok hr heq
      exact modCtx_memOk (spendEntry_memOk (memOk_choice (semAdd_memOk h1) h1))

theorem execItinEnd_keepsMem : KeepsMem execItinEnd :=
  runEntry_keepsMem fun _ _ _ h => memOk_entry h (leaveStream_memOk h)

theorem acceptItin_memOk {n die space obj gen first : Nat} (h : MemOk s) : MemOk (acceptItin s n die space obj gen first) :=
  memOk_choice (stopCtx_memOk (modCtx_memOk h)) (modCtx_memOk h)

theorem execItin_keepsMem (ctx obj gen first) : KeepsMem (execItin ctx obj gen first) :=
  runPacket_keepsMem fun _ _ _ _ _ h => memOk_packet h (acceptItin_memOk h)

end

end Sys2Proof.Proofs.MoveMemory
end

section
/-! Memory in its canonical form (log entry 1): the gatherer, the turn of a context of the tier engine, and what other
packages send. -/
namespace Sys2Proof.Proofs.TierMemory
open Sys2Proof Sys2Proof.Machine Sys2Proof.Safety Sys2Proof.Laws Sys2Proof.Proofs.ArrayState Sys2Proof.Proofs.ScalarMemory
  Sys2Proof.Proofs.CopyMemory Sys2Proof.Proofs.QueueMemory Sys2Proof.Proofs.CrewMemory Sys2Proof.Proofs.MoveMemory
  Sys2Proof.Proofs.StrandsAtThePort

section
variable {s : State}

/-! ## The gatherer -/

theorem modRq_memOk {r : Nat} {f : RqCtx → RqCtx} (h : MemOk s) : MemOk (modRq s r f) := h

theorem askRing_memOk {r p : Nat} (h : MemOk s) : MemOk (askRing s r p) := memOk_choice h (sendCxl_memOk (modRq_memOk h))

theorem spendRing_memOk {r : Nat} (h : MemOk s) : MemOk (spendRing s r) := h

theorem stopRq_memOk {r cause : Nat} (h : MemOk s) : MemOk (stopRq s r cause) := h

theorem settleRels_memOk (fuel : Nat) {r : Nat} (h : MemOk s) : MemOk (settleRels fuel s r) := by
  induction fuel generalizing s with
  | zero => exact h
  | succ f ih =>
    unfold settleRels
    split
    · rename_i e _
      cases e
      exact memOk_choice (ih (semAdd_memOk (modRq_memOk h))) h
    · exact h

theorem finishClose_memOk {r : Nat} (h : MemOk s) : MemOk (finishClose s r) := settleRels_memOk _ (modRq_memOk h)

theorem putRing_memOk (r : Nat) (l : List (Nat × List Word)) (h : MemOk s) : MemOk (putRing s r l) := by
  induction l generalizing s with
  | nil => exact finishClose_memOk h
  | cons p l ih =>
    obtain ⟨off, ws⟩ := p
    have hw := cpWrite_memOk (rqAt s r).die (rqAt s r).ans (rqAt s r).space (rqAt s r).obj (rqAt s r).gen off
      (ws.flatMap (toBytes 4)) h
    unfold putRing
    dsimp only
    split <;> rename_i heq
    · exact ih (spendRing_memOk (memOk_of_ok hw heq))
    · exact stopRq_memOk (spendRing_memOk (memOk_of_fail hw heq))
    · exact askRing_memOk (modRq_memOk (memOk_of_ask hw heq))

theorem closeBatch_memOk {r reason : Nat} (h : MemOk s) : MemOk (closeBatch s r reason) := putRing_memOk _ _ h

theorem openBatch_memOk {r : Nat} (h : MemOk s) : MemOk (openBatch s r) := h

theorem takeRequests_memOk (fuel : Nat) {r n : Nat} (h : MemOk s) : MemOk (takeRequests fuel s r n) := by
  induction fuel generalizing s n with
  | zero => exact h
  | succ f ih =>
    unfold takeRequests
    have h1 : MemOk (if (rqAt s r).openV then s else openBatch s r) := memOk_choice h (openBatch_memOk h)
    exact memOk_choice h (ih (memOk_choice (closeBatch_memOk (modRq_memOk h1)) (modRq_memOk h1)))

theorem deadlineClose_memOk {r : Nat} (h : MemOk s) : MemOk (deadlineClose s r) := memOk_choice (closeBatch_memOk h) h

theorem readTail_memOk {r : Nat} (h : MemOk s) : MemOk (readTail s r) := by
  have hr := cpRead_memOk (rqAt s r).die (rqAt s r).ans (rqAt s r).space (rqAt s r).obj (rqAt s r).gen 0 4 h
  unfold readTail
  dsimp only
  split <;> rename_i heq
  · exact askRing_memOk (memOk_of_ask hr heq)
  · exact stopRq_memOk (spendRing_memOk (memOk_of_fail hr heq))
  · have h1 := fun f => modRq_memOk (r := r) (f := f) (spendRing_memOk (r := r) (memOk_of_ok hr heq))
    exact memOk_choice (stopRq_memOk (logEvent_memOk (h1 _))) (deadlineClose_memOk (takeRequests_memOk _ (h1 _)))

theorem rqStopping_memOk {r : Nat} (h : MemOk s) : MemOk (rqStopping s r) := by
  have h1 : MemOk (if (rqAt s r).openV then closeBatch s r 1 else s) := memOk_choice (closeBatch_memOk h) h
  exact memOk_choice (stopRq_memOk h1) h1

theorem rqFrame_memOk {r : Nat} (h : MemOk s) : MemOk (rqFrame s r) := by
  have h0 := settleRels_memOk (rqAt s r).rels.length (r := r) h
  unfold rqFrame
  dsimp only
  generalize settleRels (rqAt s r).rels.length s r = s0 at h0 ⊢
  refine memOk_choice h0 ?_
  have h1 : MemOk (if (rqAt s0 r).closing = [] then s0 else putRing s0 r (rqAt s0 r).closing) :=
    memOk_choice h0 (putRing_memOk _ _ h0)
  exact memOk_choice h1 (memOk_choice (rqStopping_memOk h1) (readTail_memOk h1))

/-- The wait for a device is no part of memory. -/
theorem setStall_memOk {b : Bool} (h : MemOk s) : MemOk { s with stall := b } := h

theorem rqTurn_memOk {r : Nat} (h : MemOk s) : MemOk (rqTurn s r) :=
  memOk_choice (settleRels_memOk _ h) (setStall_memOk (rqFrame_memOk (setStall_memOk h)))

theorem execDeadlineClose_keepsMem (r) : KeepsMem (execDeadlineClose r) := fun _ h => deadlineClose_memOk h

theorem execRqcStop_keepsMem (r) : KeepsMem (execRqcStop r) := fun _ h => modRq_memOk h

theorem ringHeader_memOk (die space obj : Nat) (l : List Byte) (h : MemOk s) : MemOk (ringHeader s die space obj l).2 := by
  have hl := lookup_memOk die space obj 0 h
  unfold ringHeader
  refine memOk_ite h ?_
  split <;> exact (memOk_snd hl ‹_› :)

theorem execGather_keepsMem (rctx obj gen batchN deadline sem) : KeepsMem (execGather rctx obj gen batchN deadline sem) :=
  runPacket_keepsMem fun s die q x _ h => by
    refine memOk_packet h (memOk_packet h (memOk_packet (memOk_packet (modRq_memOk h) h) (memOk_packet h ?_)))
    have hr := cpRead_memOk die x.ans x.space obj.toNat gen.toNat 0 64 h
    split <;> rename_i heq
    · exact askQueue_memOk (memOk_of_ask hr heq)
    · exact memOk_of_fail hr heq
    · have hh := fun l => ringHeader_memOk die x.space obj.toNat l (memOk_of_ok hr heq)
      split <;> rename_i heq2
      · exact (memOk_snd (hh _) heq2 :)
      · exact modRq_memOk (modRq_memOk (memOk_snd (hh _) heq2))

/-! ## The turn of a context -/

theorem readEntry_memOk (c : TeCtx) (idx : Nat) (h : MemOk s) : MemOk (cpState (readEntry s c idx)) :=
  cpRead_memOk _ _ _ _ _ _ _ h

theorem execEntry_keepsMem (e) : KeepsMem (execEntry e) := by
  cases e with
  | move a => exact execMove_keepsMem a
  | mcast pmask src grp epoch ackto => exact execMcast_keepsMem _ _ _ _ _
  | hint tier obj gen len off at_ => exact execHint_keepsMem _ _ _ _ _ _
  | waitw wclass n => exact execWaitw_keepsMem _ _
  | mark sem fen fsem add => exact execMark_keepsMem _ _ _ _
  | repeatE target lvl sadv dadv count step stride => exact execRepeatE_keepsMem _ _ _ _ _ _ _
  | gust n tick => exact execGust_keepsMem _ _
  | batch rctx rebase sem sen tref => exact execBatch_keepsMem _ _ _ _ _
  | itinEnd => exact execItinEnd_keepsMem

theorem closeCtx_outOk {o : Out} (h : OutOk o) : OutOk (closeCtx o) := by
  cases o with
  | next t => exact setCur_memOk (s := t) h
  | _ => trivial

theorem runWords_outOk {n idx : Nat} {ws : List Word} (h : MemOk s) : OutOk (runWords s n idx ws) := by
  unfold runWords
  dsimp only
  split
  · exact closeCtx_outOk (execEntry_keepsMem _ _ (setCur_memOk (modCtx_memOk h)))
  · exact closeCtx_outOk (o := .next _) (closeEntry_memOk (r := .done _ _) (setCur_memOk (modCtx_memOk h)))

theorem considerWords_outOk {n : Nat} {ws : List Word} (h : MemOk s) : OutOk (considerWords s n ws) :=
  outOk_ite (runWords_outOk (modCtx_memOk h)) (outOk_ite (runWords_outOk (modCtx_memOk (modCtx_memOk h))) (modCtx_memOk h))

theorem considerNext_outOk {n : Nat} (h : MemOk s) : OutOk (considerNext s n) := by
  have hr := readEntry_memOk (ctxAt s n) (ctxAt s n).idx h
  unfold considerNext
  refine outOk_ite h ?_
  split <;> rename_i heq
  · exact askEntry_memOk (memOk_of_ask hr heq)
  · exact stopCtx_memOk (spendEntry_memOk (memOk_of_fail hr heq))
  · exact considerWords_outOk (spendEntry_memOk (memOk_of_ok hr heq))

theorem considerEntry_outOk {n : Nat} (h : MemOk s) : OutOk (considerEntry s n) := by
  unfold considerEntry
  dsimp only
  split
  · exact runWords_outOk h
  · refine outOk_ite (memOk_choice (modCtx_memOk (spendEntry_memOk h)) h) ?_
    split
    · exact runWords_outOk (modCtx_memOk h)
    · exact outOk_ite (considerNext_outOk h) h

theorem ctxTurn_keepsMem (n) : KeepsMem fun s => ctxTurn s n := fun _ h =>
  have h2 := settleMarks_memOk _ (n := n) (stepMoves_memOk (n := n) h)
  outOk_ite (considerEntry_outOk h2) h2

theorem execGustRelease_keepsMem (n) : KeepsMem (execGustRelease n) := by
  intro s h
  unfold execGustRelease
  dsimp only
  split
  · exact h
  · split
    · exact closeCtx_outOk (execGust_keepsMem _ _ _ (setCur_memOk h))
    · exact h

theorem execLandingDone_keepsMem (n) : KeepsMem (execLandingDone n) := by
  intro s h
  unfold execLandingDone
  split
  · exact moveStep_memOk h
  · exact h

theorem execMoveComplete_keepsMem (n idx) : KeepsMem (execMoveComplete n idx) := by
  intro s h
  unfold execMoveComplete
  split
  · exact finishMove_memOk h
  · exact h

/-! ## What other packages send -/

theorem holdShard_memOk {k : Shard} (h : MemOk s) : MemOk (holdShard s k) := by
  unfold holdShard
  split
  · exact setShards_memOk (dropShard_memOk h)
  · exact setShards_memOk h

theorem arriveShard_memOk {k : Shard} (h : MemOk s) : MemOk (arriveShard s k) := by
  unfold arriveShard
  refine memOk_choice h (memOk_choice (holdShard_memOk h) ?_)
  split
  · exact memOk_choice h (holdShard_memOk h)
  · exact toPackage_memOk h
  · exact holdShard_memOk h

theorem settleMembers_memOk (h : MemOk s) : MemOk (settleMembers s) := by
  unfold settleMembers
  refine foldl_memOk _ (fun t n ht => foldl_memOk _ (fun u o hu => ?_) _ ht) _ h
  split
  · rename_i m _
    split
    · rename_i x _
      refine memOk_choice ?_ hu
      have hm := memberStep_someOk n m x hu
      cases hc : memberStep u n m x with
      | none => exact hu
      | some v => exact hm v hc
    · exact hu
  · exact hu

theorem execShardFlit_keepsMem (e k l) : KeepsMem (execShardFlit e k l) := fun _ h => arriveShard_memOk h

theorem execFailureFlit_keepsMem (e k st) : KeepsMem (execFailureFlit e k st) := fun _ h =>
  settleMembers_memOk (arriveShard_memOk h)

theorem dropAck_memOk {e : BitVec 32} {p : Nat} {k : Option Nat} (h : MemOk s) : MemOk (dropAck s e p k) :=
  foldl_memOk _ (fun _ _ ht => dropMoves_memOk (modCtx_memOk ht)) _ h

theorem execAckFlit_keepsMem (e k p) : KeepsMem (execAckFlit e k p) := fun _ h =>
  memOk_choice (memOk_choice h (setAcked_memOk h)) (dropAck_memOk h)

/-- What has been removed or has ended is no part of memory. -/
theorem setCuts_memOk {l : List (BitVec 32)} (h : MemOk s) : MemOk { s with cuts := l } := h

theorem setEnds_memOk {l : List (BitVec 32)} (h : MemOk s) : MemOk { s with ends := l } := h

theorem execRemovalFlit_keepsMem (e p) : KeepsMem (execRemovalFlit e p) := fun _ h =>
  outOk_ite (forgetStream_memOk (settleMembers_memOk (setCuts_memOk h))) h

theorem execEndOfStream_keepsMem (e) : KeepsMem (execEndOfStream e) := fun _ h =>
  outOk_ite h (forgetStream_memOk (settleMembers_memOk (setEnds_memOk h)))

theorem execAcktoSource_keepsMem (n k p) : KeepsMem (execAcktoSource n k p) := by
  intro s h
  unfold execAcktoSource
  split
  · exact h
  · split
    · exact h
    · exact toPackage_memOk (modCtx_memOk (dropAck_memOk (logEvent_memOk h)))

theorem execAcktoMember_keepsMem (n) : KeepsMem (execAcktoMember n) := by
  intro s h
  unfold execAcktoMember
  split
  · exact h
  · split
    · exact h
    · exact forgetStream_memOk (settleMembers_memOk (setCuts_memOk h))

theorem execTecStop_keepsMem (n) : KeepsMem (execTecStop n) := fun _ h => stopCtx_memOk h

theorem execClrLull_keepsMem (n) : KeepsMem (execClrLull n) := fun _ h => modCtx_memOk h

end

end Sys2Proof.Proofs.TierMemory
end

section
/-! Memory in its canonical form (log entry 1): what the host commands and writes to BAR 0. A reset keeps of memory what
lies in POOL, so it keeps its form. -/
namespace Sys2Proof.Proofs.HostMemory
open Sys2Proof Sys2Proof.Machine Sys2Proof.Safety Sys2Proof.Laws Sys2Proof.Proofs.ArrayState Sys2Proof.Proofs.ScalarMemory
  Sys2Proof.Proofs.VectorMemory Sys2Proof.Proofs.QueueMemory Sys2Proof.Proofs.CrewMemory Sys2Proof.Proofs.MoveMemory
  Sys2Proof.Proofs.TierMemory

section
variable {s : State}

/-! ## Commands to a queue -/

theorem writeTail_memOk {die q : Nat} {t : BitVec 32} (h : MemOk s) : MemOk (writeTail s die q t) :=
  memOk_choice h (memOk_choice (modQueue_memOk h) (memOk_choice (stopQueue_memOk h) (checkTail_memOk (modQueue_memOk h))))

/-- The state of power, and tails recorded in STANDBY, are no part of memory. -/
theorem setIdle_memOk {p : BitVec 2} {n : Nat} (h : MemOk s) : MemOk { s with
    pwrState := p
    idleSeen := n } := h

theorem setTails_memOk {l : List (Nat × Nat × BitVec 32)} (h : MemOk s) : MemOk { s with tails := l } := h

theorem ringDoorbell_memOk {die q : Nat} {t : BitVec 32} (h : MemOk s) : MemOk (ringDoorbell s die q t) :=
  memOk_choice h (memOk_choice (setTails_memOk h) (memOk_choice h (writeTail_memOk (setIdle_memOk h))))

theorem execDoorbell_keepsMem (die q t) : KeepsMem (execDoorbell die q t) := fun _ h => ringDoorbell_memOk h

theorem passSkip_memOk {die q : Nat} (h : MemOk s) : MemOk (passSkip s die q) := modQueue_memOk h

theorem skipQueue_memOk {die q : Nat} (h : MemOk s) : MemOk (skipQueue s die q) :=
  memOk_choice h (memOk_choice (checkTail_memOk (modQueue_memOk h))
    (checkTail_memOk (passSkip_memOk (modQueue_memOk (modQueue_memOk h)))))

theorem retryQueue_memOk {die q : Nat} (h : MemOk s) : MemOk (retryQueue s die q) :=
  memOk_choice h (checkTail_memOk (modQueue_memOk h))

theorem runQueue_memOk {die q : Nat} (h : MemOk s) : MemOk (runQueue s die q) := modQueue_memOk h

theorem resetQueue_memOk {die q : Nat} (h : MemOk s) : MemOk (resetQueue s die q) :=
  memOk_choice (modQueue_memOk (leaveJoin_memOk h)) h

theorem execQctlSkip_keepsMem (die q) : KeepsMem (execQctlSkip die q) := fun _ h => memOk_choice (skipQueue_memOk h) h

theorem execQctlRetry_keepsMem (die q) : KeepsMem (execQctlRetry die q) := fun _ h => memOk_choice (retryQueue_memOk h) h

theorem execQctlRun_keepsMem (die q) : KeepsMem (execQctlRun die q) := fun _ h => memOk_choice (runQueue_memOk h) h

theorem execQctlReset_keepsMem (die q) : KeepsMem (execQctlReset die q) := fun _ h => memOk_choice (resetQueue_memOk h) h

theorem modDie_memOk {die : Nat} {f : Die → Die} (h : MemOk s) : MemOk (modDie s die f) := h

theorem pushFrame_memOk {die : Nat} {v : BitVec 64} (h : MemOk s) : MemOk (pushFrame s die v) :=
  memOk_choice (logEvent_memOk h) (modDie_memOk h)

theorem execFpPush_keepsMem (die v) : KeepsMem (execFpPush die v) := fun _ h => memOk_choice (pushFrame_memOk h) h

/-- The ports are no part of memory. -/
theorem setPorts_memOk {m : FMap CxlPort} (h : MemOk s) : MemOk { s with ports := m } := h

theorem restorePort_memOk {p : Nat} (h : MemOk s) : MemOk (restorePort s p) :=
  memOk_choice (logEvent_memOk (setPorts_memOk h)) h

theorem execRestore_keepsMem (p) : KeepsMem (execRestore p) := fun _ h => memOk_choice (restorePort_memOk h) h

/-! ## Resets and power -/

theorem afterReset_memOk (h : MemOk s) : MemOk (afterReset s) := mapWf_filter _ h

theorem commitCounters_memOk (h : MemOk s) : MemOk (commitCounters s) := h

theorem setOff_memOk {b : Bool} (h : MemOk s) : MemOk { s with off := b } := h

theorem setPower_memOk {p q : BitVec 2} (h : MemOk s) : MemOk { s with
    pwrResult := p
    pwrState := q } := h

theorem setResult_memOk {p : BitVec 2} (h : MemOk s) : MemOk { s with pwrResult := p } := h

theorem setPhase_memOk {p : BitVec 4} (h : MemOk s) : MemOk { s with phase := p } := h

theorem flushHeld_memOk (h : MemOk s) : MemOk (flushHeld s) :=
  foldl_memOk _ (fun _ _ ht => writeOutPlane_memOk (writeOutPlane_memOk (foldl_memOk _ (fun _ _ hu => writeOutRow_memOk hu) _ ht)))
    _ (foldl_memOk _ (fun _ _ ht => writeOutTile_memOk _ _ ht) _ h)

theorem requestStandby_memOk (h : MemOk s) : MemOk (requestStandby s) :=
  memOk_choice h (memOk_choice (setResult_memOk h)
    (setPower_memOk (foldl_memOk _ (fun _ _ ht => drainEntry_memOk _ ht) _ (commitCounters_memOk (flushHeld_memOk h)))))

theorem execPwrReqStandby_keepsMem : KeepsMem execPwrReqStandby := fun _ h => requestStandby_memOk h

theorem requestOn_memOk (h : MemOk s) : MemOk (requestOn s) :=
  memOk_choice h (memOk_choice (memOk_choice (setPhase_memOk h) h) (memOk_choice (setResult_memOk h) h))

theorem execPwrReqOn_keepsMem : KeepsMem execPwrReqOn := fun _ h => requestOn_memOk h

theorem requestOff_memOk (h : MemOk s) : MemOk (requestOff s) :=
  memOk_choice h (memOk_choice (setOff_memOk (afterReset_memOk (commitCounters_memOk h))) h)

theorem execPwrReqOff_keepsMem : KeepsMem execPwrReqOff := fun _ h => requestOff_memOk h

theorem resetPackage_memOk (h : MemOk s) : MemOk (resetPackage s) :=
  memOk_choice h (afterReset_memOk (commitCounters_memOk h))

theorem execRstCtlReset_keepsMem : KeepsMem execRstCtlReset := fun _ h => memOk_choice (resetPackage_memOk h) h

/-! ## Registers -/

theorem writeQueueReg_memOk {die q off : Nat} {v : BitVec 64} (h : MemOk s) : MemOk (writeQueueReg s die q off v) := by
  unfold writeQueueReg
  split
  · exact modQueue_memOk h
  · exact modQueue_memOk h
  · exact ringDoorbell_memOk h
  · have h0 : MemOk (if v.getLsbD 0 then skipQueue s die q else s) := memOk_choice (skipQueue_memOk h) h
    have h1 : ∀ t, MemOk t → MemOk (if v.getLsbD 1 then retryQueue t die q else t) := fun _ ht =>
      memOk_choice (retryQueue_memOk ht) ht
    have h2 : ∀ t, MemOk t → MemOk (if v.getLsbD 2 then runQueue t die q else t) := fun _ ht =>
      memOk_choice (runQueue_memOk ht) ht
    have h3 := h2 _ (h1 _ h0)
    exact memOk_choice (resetQueue_memOk h3) h3
  · exact h

theorem writeCpReg_memOk {die off : Nat} {v : BitVec 64} (h : MemOk s) : MemOk (writeCpReg s die off v) := by
  unfold writeCpReg
  split
  · exact modDie_memOk h
  · exact memOk_choice h (modDie_memOk h)
  · exact modDie_memOk h
  · exact memOk_choice h (modDie_memOk h)
  · exact memOk_choice h (modDie_memOk h)
  · exact modDie_memOk h
  · exact h

theorem writeDieReg_memOk {die off : Nat} {v : BitVec 64} (h : MemOk s) : MemOk (writeDieReg s die off v) := by
  unfold writeDieReg
  split
  · exact memOk_choice h (modDie_memOk h)
  · exact memOk_choice h (modDie_memOk h)
  · exact modDie_memOk h
  · exact pushFrame_memOk h
  · exact h

theorem modCtl_memOk {c : Nat} {f : MemCtl → MemCtl} (h : MemOk s) : MemOk (modCtl s c f) := h

theorem writeCtlReg_memOk {c off : Nat} {v : BitVec 64} (h : MemOk s) : MemOk (writeCtlReg s c off v) := by
  unfold writeCtlReg
  split
  · exact modCtl_memOk h
  · exact memOk_choice h (modCtl_memOk h)
  · exact h

theorem writeTeReg_memOk {n off : Nat} {v : BitVec 64} (h : MemOk s) : MemOk (writeTeReg s n off v) := by
  unfold writeTeReg
  split
  · exact memOk_choice h (modCtx_memOk h)
  · exact modCtx_memOk h
  · exact modCtx_memOk h
  · exact memOk_choice (stopCtx_memOk (memOk_choice (modCtx_memOk h) h)) (memOk_choice (modCtx_memOk h) h)
  · exact h

theorem setSpaces_memOk {m : FMap Space} (h : MemOk s) : MemOk { s with spaces := m } := h

theorem writeSpace_memOk {n : Nat} {v : BitVec 64} (h : MemOk s) : MemOk (writeSpace s n v) :=
  memOk_choice h (setSpaces_memOk h)

theorem writeCxlCtl_memOk {p : Nat} {v : BitVec 64} (h : MemOk s) : MemOk (writeCxlCtl s p v) :=
  memOk_choice (restorePort_memOk (memOk_choice h (setPorts_memOk h))) (memOk_choice h (setPorts_memOk h))

theorem setIdleTicks_memOk {t : BitVec 16} (h : MemOk s) : MemOk { s with idleTicks := t } := h

theorem writePwrCtl_memOk {v : BitVec 64} (h : MemOk s) : MemOk (writePwrCtl s v) := by
  have h1 : MemOk (if fieldOf v 16 16 = 0 then s else { s with idleTicks := bits v 16 16 }) :=
    memOk_choice h (setIdleTicks_memOk h)
  unfold writePwrCtl
  dsimp only
  split
  · exact requestOn_memOk h1
  · exact requestStandby_memOk h1
  · exact requestOff_memOk h1
  · exact h1

theorem setCap_memOk {c : BitVec 16} (h : MemOk s) : MemOk { s with pwrCap := c } := h

theorem writePackageReg_memOk {off : Nat} {v : BitVec 64} (h : MemOk s) : MemOk (writePackageReg s off v) := by
  unfold writePackageReg
  split
  · exact memOk_choice (resetPackage_memOk h) h
  · exact writePwrCtl_memOk h
  · exact memOk_choice h (setCap_memOk h)
  · exact h

theorem writeDieBlock_memOk {die off : Nat} {v : BitVec 64} (h : MemOk s) : MemOk (writeDieBlock s die off v) := by
  have hc : ∀ o : Out, OutOk o → MemOk (match o with
      | .next s1 => s1
      | _ => s) := fun o ho => by
    cases o with
    | next t => exact ho
    | _ => exact h
  exact memOk_choice h (memOk_choice (hc _ (execCpEvict_keepsMem _ _ _ h)) (memOk_choice (hc _ (execCpResume_keepsMem _ _ _ h))
    (memOk_choice (writeCpReg_memOk h) (memOk_choice (writeQueueReg_memOk h) (memOk_choice (writeDieReg_memOk h)
      (memOk_choice (writeCtlReg_memOk h) h))))))

theorem writeTeBlock_memOk {off : Nat} {v : BitVec 64} (h : MemOk s) : MemOk (writeTeBlock s off v) :=
  memOk_choice (writeTeReg_memOk h) (memOk_choice (modRq_memOk h) h)

theorem setPending_memOk {k : Nat} {b : Bool} (h : MemOk s) : MemOk (setPending s k b) := h

theorem setMsix_memOk {m : FMap (BitVec 64)} (h : MemOk s) : MemOk { s with msix := m } := h

theorem writeMsix_memOk {k : Nat} {v : BitVec 64} (h : MemOk s) : MemOk (writeMsix s k v) :=
  memOk_choice (emit_memOk (setPending_memOk (setMsix_memOk h))) (setMsix_memOk h)

theorem writeBar0_memOk {off : Nat} {v : BitVec 64} (h : MemOk s) : MemOk (writeBar0 s off v) := by
  unfold writeBar0
  exact memOk_choice (writePackageReg_memOk h) (memOk_choice (writeDieBlock_memOk h) (memOk_choice (writeTeBlock_memOk h)
    (memOk_choice (writeSpace_memOk h) (memOk_choice (memOk_choice (writeCtlReg_memOk h) h)
      (memOk_choice (memOk_choice (writeCxlCtl_memOk h) h) (memOk_choice (writeMsix_memOk h) h))))))

theorem writeStandby_memOk {off : Nat} {v : BitVec 64} (h : MemOk s) : MemOk (writeStandby s off v) := by
  unfold writeStandby
  split
  · exact ringDoorbell_memOk h
  · exact memOk_choice (writePackageReg_memOk h) h

theorem execRegisterWrite_keepsMem (off v) : KeepsMem (execRegisterWrite off v) := fun _ h =>
  memOk_choice (writeBar0_memOk h) (memOk_choice (writeStandby_memOk h) h)

end

end Sys2Proof.Proofs.HostMemory
end

section
/-! Memory in its canonical form (log entry 1): controllers, the scrubber, thermal freezes, ports and links. -/
namespace Sys2Proof.Proofs.LinkMemory
open Sys2Proof Sys2Proof.Machine Sys2Proof.Safety Sys2Proof.Laws Sys2Proof.Proofs.ArrayState Sys2Proof.Proofs.ScalarMemory
  Sys2Proof.Proofs.QueueMemory Sys2Proof.Proofs.CrewMemory Sys2Proof.Proofs.MoveMemory Sys2Proof.Proofs.TierMemory
  Sys2Proof.Proofs.HostMemory

section
variable {s : State}

/-! ## Answers of a port -/

theorem modPort_memOk {p : Nat} {f : CxlPort → CxlPort} (h : MemOk s) : MemOk (modPort s p f) := h

theorem storeDone_memOk {i q : Nat} {f : Option Nat} (h : MemOk s) : MemOk (storeDone s i q f) := h

theorem answerStore_memOk {i q : Nat} {r : CxlResult} (h : MemOk s) : MemOk (answerStore s i q r) := by
  unfold answerStore
  refine memOk_choice (storeDone_memOk h) ?_
  split
  · exact enterStore_memOk _ h
  · exact h

theorem answer_memOk {a : Asker} {r : CxlResult} (h : MemOk s) : MemOk (answer s a r) := by
  cases a with
  | stream core e => exact modStream_memOk h
  | copy core slot => exact modStrand_memOk h
  | store sid seq => exact answerStore_memOk h
  | move ctx order => exact modMove_memOk h
  | queue die q => exact modQueue_memOk h
  | line die k line => exact modDie_memOk h
  | entry n => exact modCtx_memOk h
  | status n order p w => exact answerStatus_memOk h
  | ring k => exact modRq_memOk h

theorem execCxlCompletion_keepsMem (p n r) : KeepsMem (execCxlCompletion p n r) := by
  intro s h
  unfold execCxlCompletion
  dsimp only
  split
  · exact h
  · exact outOk_ite (answer_memOk (modPort_memOk h)) h

theorem failAsker_memOk {a : Asker} (h : MemOk s) : MemOk (failAsker s a) := by
  cases a with
  | store sid seq =>
    show MemOk (storeDone s sid seq (some 1))
    exact storeDone_memOk h
  | move ctx order => exact completeMove_memOk h
  | _ => exact answer_memOk h

theorem isolatePort_memOk {p : Nat} (h : MemOk s) : MemOk (isolatePort s p) :=
  foldl_memOk _ (fun _ _ ht => failAsker_memOk ht) _ (logEvent_memOk (mscCount_memOk (modPort_memOk h)))

theorem execCompletionTimeout_keepsMem (p) : KeepsMem (execCompletionTimeout p) := by
  intro s h
  unfold execCompletionTimeout
  dsimp only
  split
  · exact h
  · exact outOk_ite (isolatePort_memOk h) h

theorem execHostReadTimeout_keepsMem (die q) : KeepsMem (execHostReadTimeout die q) := fun _ h =>
  outOk_ite (stopQueue_memOk h) h

/-! ## Links -/

theorem countRetrain_memOk {l : Link} {b : Bool} (h : MemOk s) : MemOk (countRetrain s l b) :=
  memOk_choice (mscCount_memOk h) h

/-- The links and what waits for them are no part of memory. -/
theorem setOvl_memOk {m : FMap LinkSt} (h : MemOk s) : MemOk { s with ovl := m } := h

theorem setBnds_memOk {m : FMap LinkSt} (h : MemOk s) : MemOk { s with bnds := m } := h

theorem setOvlOut_memOk {m : FMap LinkSt} {l : List OutMsg} (h : MemOk s) : MemOk { s with
    ovl := m
    out := l } := h

theorem execFlitReplay_keepsMem (l) : KeepsMem (execFlitReplay l) := by
  intro s h
  cases l with
  | ovlan p => exact countRetrain_memOk (setOvl_memOk h)
  | boundary b => exact countRetrain_memOk (setBnds_memOk h)
  | cxl p => exact countRetrain_memOk (modPort_memOk h)

theorem execLinkRetrained_keepsMem (l) : KeepsMem (execLinkRetrained l) := by
  intro s h
  cases l with
  | ovlan p => exact memOk_choice (setOvlOut_memOk h) h
  | boundary b => exact memOk_choice (setBnds_memOk h) h
  | cxl p => exact countRetrain_memOk (modPort_memOk h)

theorem execOvlanLinkDown_keepsMem (p) : KeepsMem (execOvlanLinkDown p) := fun _ h =>
  outOk_ite (logEvent_memOk (setOvl_memOk h)) h

theorem cutAsker_memOk {a : Asker} (h : MemOk s) : MemOk (cutAsker s a) := by
  cases a with
  | store sid seq =>
    show MemOk (storeDone s sid seq (some 1))
    exact storeDone_memOk h
  | move ctx order => exact completeMove_memOk h
  | _ => exact answer_memOk h

theorem cutRequests_memOk {b : Nat} (h : MemOk s) : MemOk (cutRequests s b) :=
  foldl_memOk _ (fun _ _ ht => foldl_memOk _ (fun _ _ hu => cutAsker_memOk hu) _ (modPort_memOk ht)) _ h

theorem cutStores_memOk {b : Nat} (h : MemOk s) : MemOk (cutStores s b) :=
  foldl_memOk _ (fun _ _ ht => storeDone_memOk ht) _ h

theorem execBoundaryDown_keepsMem (b) : KeepsMem (execBoundaryDown b) := fun _ h =>
  outOk_ite (cutStores_memOk (cutRequests_memOk (logEvent_memOk (setBnds_memOk h)))) h

/-! ## Controllers and the scrubber -/

theorem serveClass_memOk {c k : Nat} {ok : Nat → Bool} (h : MemOk s) : MemOk (serveClass s c k ok) :=
  foldl_memOk _ (fun _ _ ht => granRead_memOk _ _ _ ht) _ h

theorem serveWaiting_memOk {c : Nat} (h : MemOk s) : MemOk (serveWaiting s c) :=
  modCtl_memOk (serveClass_memOk (serveClass_memOk h))

theorem execMcWrite_keepsMem (c) : KeepsMem (execMcWrite c) := by
  intro s h
  have hc := upheld_chooseOf upheld_memOk (storesFor s c) h
  unfold execMcWrite
  split <;> rename_i heq <;> rw [heq] at hc
  · exact memOk_choice hc (enterStore_memOk _ hc)
  · exact hc

theorem execMcRead_keepsMem (c g d) : KeepsMem (execMcRead c g d) := fun _ h =>
  outOk_ite (granRead_memOk _ _ _ h) (modCtl_memOk h)

theorem execEntryDrain_keepsMem (c) : KeepsMem (execEntryDrain c) := by
  intro s h
  refine serveWaiting_memOk ?_
  cases nextDrain (ctlAt s c) c with
  | none => exact h
  | some g => exact drainEntry_memOk g h

theorem execDrainAge_keepsMem (c) : KeepsMem (execDrainAge c) := by
  intro s h
  unfold execDrainAge
  dsimp only
  split
  · exact h
  · exact modCtl_memOk h

theorem execPromoteC2_keepsMem (c) : KeepsMem (execPromoteC2 c) := fun _ h => modCtl_memOk h

theorem execScrubRead_keepsMem (c g) : KeepsMem (execScrubRead c g) := fun _ h =>
  outOk_ite (modCtl_memOk (memOk_of_mem (devRead_mem _ _ _ _) h)) h

theorem setWq_memOk {m : FMap WqEntry} (h : MemOk s) : MemOk { s with wq := m } := h

theorem execScrubWriteback_keepsMem (c) : KeepsMem (execScrubWriteback c) := by
  intro s h
  unfold execScrubWriteback
  split
  · exact h
  · exact outOk_ite h (modCtl_memOk (setWq_memOk h))

/-! ## Heat -/

theorem heatCrew_memOk {k : Nat} (h : MemOk s) : MemOk (heatCrew s k) := by
  unfold heatCrew
  split
  · exact h
  · exact memOk_choice (modCrew_memOk (freezeCrew_memOk h)) h

theorem setThermal_memOk {l : List Nat} (h : MemOk s) : MemOk { s with thermal := l } := h

theorem heat_memOk {d : Nat} (h : MemOk s) : MemOk (heat s d) := by
  have h1 := fun (s' : State) l f => modCtl_memOk (c := d) (f := f) (setThermal_memOk (l := l)
    (foldl_memOk (fun s (p : Nat × Crew) => heatCrew s p.1) (fun _ _ ht => heatCrew_memOk ht) s'.crews h))
  exact memOk_choice (logEvent_memOk (mscCount_memOk (h1 s _ _))) (h1 s _ _)

theorem execThermalFreeze_keepsMem (d t) : KeepsMem (execThermalFreeze d t) := fun _ h =>
  outOk_ite h (memOk_choice (heat_memOk (modCtl_memOk h)) (modCtl_memOk h))

theorem coolDevice_memOk {d : Nat} (h : MemOk s) : MemOk (coolDevice s d) := h

theorem coolCrew_memOk {k : Nat} (h : MemOk s) : MemOk (coolCrew s k) := by
  unfold coolCrew
  split
  · exact h
  · exact memOk_choice (memOk_choice (modCrew_memOk h) (thaw_memOk h)) h

theorem setTemps_memOk {l : List (Nat × BitVec 8)} (h : MemOk s) : MemOk (setTemps s l) :=
  foldl_memOk _ (fun _ _ ht => modCtl_memOk ht) _ h

theorem execThermalResume_keepsMem (l) : KeepsMem (execThermalResume l) := fun s h =>
  have h1 := setTemps_memOk (l := l.filter fun t => hasDevice s t.1 && decide (t.2.toNat < (ctlAt s t.1).tcrit.toNat)) h
  outOk_ite h1 (foldl_memOk _ (fun _ _ ht => coolCrew_memOk ht) _
    (foldl_memOk _ (fun _ _ ht => coolDevice_memOk ht) _ (setThermal_memOk h1)))

/-! ## The host's window -/

theorem windowRead_memOk (fuel : Nat) (dom : BitVec 6) (pa n : Nat) (h : MemOk s) :
    MemOk (windowRead fuel s dom pa n).2.2 := by
  induction fuel generalizing s pa n with
  | zero => exact h
  | succ f ih =>
    have hg := granRead_memOk (Config.physCtrl pa) (pa / 64) dom h
    unfold windowRead
    split
    · exact h
    · dsimp only
      split
      · exact h
      · split <;> rename_i heq
        · exact ih _ _ (memOk_snd hg heq)
        · exact memOk_snd hg heq

theorem windowWrite_memOk (fuel : Nat) {dom : BitVec 6} {pa : Nat} {l : List Byte} (h : MemOk s) :
    MemOk (windowWrite fuel s dom pa l) := by
  induction fuel generalizing s pa l with
  | zero => exact h
  | succ f ih =>
    unfold windowWrite
    exact memOk_choice h (ih (memOk_choice h (memOk_of_mem (enqueueWrite_mem _ _ _ _ _ _ _ _) (makeRoom_memOk _ _ h))))

theorem execHostWindowAccess_keepsMem (wr pa dom bytes n) : KeepsMem (execHostWindowAccess wr pa dom bytes n) := by
  intro s h
  have hr := windowRead_memOk (n + 1) dom pa n h
  exact outOk_ite h (outOk_ite (windowWrite_memOk _ h) (outOk_ite (emit_memOk (logEvent_memOk h))
    (emit_memOk (memOk_choice (logEvent_memOk hr) hr))))

end

end Sys2Proof.Proofs.LinkMemory
end

section
/-! Memory in its canonical form (log entry 1): the management and security core, the boot phases, power and FRAME. -/
namespace Sys2Proof.Proofs.BootMemory
open Sys2Proof Sys2Proof.Machine Sys2Proof.Safety Sys2Proof.Laws Sys2Proof.Proofs.ArrayState Sys2Proof.Proofs.ScalarMemory
  Sys2Proof.Proofs.VectorMemory Sys2Proof.Proofs.QueueMemory Sys2Proof.Proofs.CrewMemory Sys2Proof.Proofs.MoveMemory
  Sys2Proof.Proofs.TierMemory Sys2Proof.Proofs.HostMemory Sys2Proof.Proofs.LinkMemory

section
variable {s : State}

/-! ## Commands of the security core -/

theorem setMsc_memOk {m : Msc} (h : MemOk s) : MemOk { s with msc := m } := h

theorem appendLog_memOk {r : BitVec 512} (h : MemOk s) : MemOk (appendLog s r) := memOk_choice h (setMsc_memOk h)

theorem acceptImage_memOk {k : Nat} {i : Image} (h : MemOk s) : MemOk (acceptImage s k i) := appendLog_memOk (setMsc_memOk h)

theorem reply_outOk {st : Nat} {l : List Byte} (h : MemOk s) : OutOk (reply s st l) := memOk_choice (emit_memOk h) h

theorem execReadCounter_keepsMem (c i b) : KeepsMem (execReadCounter c i b) := fun _ h =>
  outOk_ite (reply_outOk h) (outOk_ite (reply_outOk h) (reply_outOk h))

theorem execGetCert_keepsMem (c o) : KeepsMem (execGetCert c o) := fun _ h => outOk_ite (reply_outOk h) (reply_outOk h)

theorem execAttest_keepsMem (n) : KeepsMem (execAttest n) := fun _ h => reply_outOk h

theorem execGetLog_keepsMem (f n) : KeepsMem (execGetLog f n) := fun _ h => reply_outOk h

theorem execDebugRead_keepsMem (o g) : KeepsMem (execDebugRead o g) := fun _ h =>
  outOk_ite (reply_outOk h) (outOk_ite (reply_outOk h) (reply_outOk h))

theorem execRawRead_keepsMem (o) : KeepsMem (execRawRead o) := fun _ h =>
  outOk_ite h (outOk_ite (reply_outOk h) (outOk_ite (reply_outOk (logEvent_memOk h)) (reply_outOk (appendLog_memOk h))))

theorem modQuad_memOk {q : Nat} {f : Quad → Quad} (h : MemOk s) : MemOk (modQuad s q f) := h

theorem setSpad_memOk {m : FMap SGran} (h : MemOk s) : MemOk { s with spad := m } := h

theorem putObj_memOk {c : Nat} {g : Gen} {cur : Bool} {o : DebugObj} {l : List Byte} (h : MemOk s) :
    MemOk (putObj s c g cur o l) := by
  cases o with
  | granule k n => exact setSpad_memOk h
  | tile k n => exact modStrand_memOk (writeOutTile_memOk c n h)
  | row k n => exact modQuad_memOk (writeOutRow_memOk h)
  | plane k b n => exact modQuad_memOk (writeOutPlane_memOk h)
  | scales k b => exact modQuad_memOk (writeOutPlane_memOk h)
  | _ => exact modStrand_memOk h

theorem execDebugWrite_keepsMem (o off bytes) : KeepsMem (execDebugWrite o off bytes) := by
  intro s h
  unfold execDebugWrite
  refine outOk_ite h ?_
  split
  · exact reply_outOk h
  · exact outOk_ite (reply_outOk h) (reply_outOk (putObj_memOk h))

theorem readImage_memOk (pa n : Nat) (h : MemOk s) : MemOk (readImage s pa n).2 := physReadAll_memOk _ _ _ h

theorem stageImage_memOk (k pa : Nat) (h : MemOk s) : MemOk (stageImage s k pa).2 := by
  have h1 := readImage_memOk pa imageHead h
  unfold stageImage
  split <;> rename_i e1
  · exact memOk_snd h1 e1
  · have h1 := memOk_snd h1 e1
    refine memOk_ite h1 ?_
    have h2 := fun n => readImage_memOk pa n h1
    split <;> rename_i e2
    · exact memOk_snd (h2 _) e2
    · split
      · exact memOk_snd (h2 _) e2
      · exact setMsc_memOk (memOk_snd (h2 _) e2)

theorem execFwStage_keepsMem (k pa) : KeepsMem (execFwStage k pa) := fun _ h =>
  outOk_ite h (outOk_ite (reply_outOk h) (reply_outOk (stageImage_memOk _ _ h)))

theorem execFwCommit_keepsMem (k) : KeepsMem (execFwCommit k) := by
  intro s h
  unfold execFwCommit
  refine outOk_ite h ?_
  split
  · exact reply_outOk h
  · exact reply_outOk (appendLog_memOk (setMsc_memOk h))

theorem execSetEndpointId_keepsMem (b id) : KeepsMem (execSetEndpointId b id) := fun _ h => memOk_choice h (setMsc_memOk h)

theorem execUnknownCommand_keepsMem (c) : KeepsMem (execUnknownCommand c) := fun _ h => outOk_ite h (reply_outOk h)

/-! ## Boot -/

theorem execPowerOn_keepsMem : KeepsMem execPowerOn := fun _ h => memOk_choice (setOff_memOk (afterReset_memOk h)) h

theorem execPowerLoss_keepsMem : KeepsMem execPowerLoss := fun _ h => setOff_memOk (afterReset_memOk h)

theorem execPerst_keepsMem : KeepsMem execPerst := fun _ h => resetPackage_memOk h

theorem bootFail_memOk {e d : Nat} (h : MemOk s) : MemOk (bootFail s e d) := h

theorem bootNext_memOk (h : MemOk s) : MemOk (bootNext s) := h

theorem bootImage_memOk {kind : Nat} {k : Image → State → State} (h : MemOk s) (hk : ∀ i t, MemOk t → MemOk (k i t)) :
    MemOk (bootImage s kind k) := by
  unfold bootImage
  split
  · exact bootFail_memOk h
  · exact hk _ _ (acceptImage_memOk h)

theorem bootPolicy_memOk (h : MemOk s) : MemOk (bootPolicy s) :=
  bootImage_memOk h fun _ _ ht => memOk_choice (bootFail_memOk ht) (memOk_choice (bootFail_memOk ht)
    (bootNext_memOk (setMsc_memOk ht)))

theorem bootPorts_memOk {n : Nat} {c o : List Nat} {b : List (Nat × Nat)} (h : MemOk s) : MemOk (bootPorts n s c o b) := by
  have h1 := fun (f : Nat → CxlPort → CxlPort) => foldl_memOk (fun s (p : Nat) =>
    if c.contains p then logEvent (modPort s p (f p)) 17 p else modPort s p (f p))
    (fun _ _ ht => memOk_choice (logEvent_memOk (modPort_memOk ht)) (modPort_memOk ht)) (List.range n) h
  exact memOk_choice (foldl_memOk _ (fun _ _ ht => memOk_choice (logEvent_memOk (setOvl_memOk ht)) (setOvl_memOk ht)) _ (h1 _))
    (h1 _)

theorem bootBounds_memOk (h : MemOk s) : MemOk (bootBounds s) := h

theorem voidCores_memOk (h : MemOk s) : MemOk (voidCores s) := h

theorem enterReady_memOk (h : MemOk s) : MemOk (enterReady s) := h

theorem leaveStandby_memOk (h : MemOk s) : MemOk (leaveStandby s) := by
  unfold leaveStandby
  exact foldl_memOk _ (fun _ _ ht => writeTail_memOk ht) _ h

theorem bootInstall_memOk (h : MemOk s) : MemOk (bootInstall s) :=
  memOk_choice (leaveStandby_memOk (voidCores_memOk h))
    (bootImage_memOk h fun _ _ ht => bootImage_memOk ht fun _ _ hu => enterReady_memOk (voidCores_memOk hu))

theorem setBulk_memOk {n : Nat} (h : MemOk s) : MemOk { s with bulkSize := n } := h

theorem bootStep_memOk {o : BootOutcome} (h : MemOk s) : MemOk (bootStep s o) := by
  unfold bootStep
  split
  · exact bootNext_memOk h
  · exact bootImage_memOk h fun _ _ ht => bootNext_memOk ht
  · exact bootPolicy_memOk h
  · exact bootNext_memOk h
  · exact memOk_choice (bootFail_memOk h) h
  · exact bootNext_memOk (foldl_memOk _ (fun _ _ ht => logEvent_memOk ht) _ (setBulk_memOk h))
  · exact memOk_choice (bootFail_memOk h) (bootNext_memOk (bootBounds_memOk (bootPorts_memOk h)))
  · exact memOk_choice (bootFail_memOk h) h
  · exact bootInstall_memOk h
  · exact memOk_choice (bootFail_memOk h) h
  · exact h

theorem execBootPhase_keepsMem (o) : KeepsMem (execBootPhase o) := fun _ h => memOk_choice h (bootStep_memOk h)

/-! ## FRAME and power -/

theorem countTemps_memOk (h : MemOk s) : MemOk (countTemps s) :=
  foldl_memOk _ (fun t _ ht => mscCount_memOk (s := (drawFresh t).2) ht) _ (foldl_memOk _ (fun _ _ ht => mscCount_memOk ht) _ h)

theorem mscTick_memOk (h : MemOk s) : MemOk (mscTick s) := by
  have h2 := fun m => memOk_choice (c := s.thermal.isEmpty) (setMsc_memOk (m := m) h) (mscCount_memOk (k := (6, 0, 1)) (n := 1)
    (setMsc_memOk (m := m) h))
  exact memOk_choice (countTemps_memOk (h2 _)) (h2 _)

theorem slipAll_memOk {old : State} (h : MemOk s) : MemOk (slipAll old s) :=
  foldl_memOk _ (fun _ _ ht => foldl_memOk _ (fun _ _ hu => memOk_choice (slipQueue_memOk hu) hu) _ ht) _ h

theorem setFrame_memOk {f : BitVec 64} (h : MemOk s) : MemOk { s with frame := f } := h

theorem setTicks_memOk {n m : Nat} (h : MemOk s) : MemOk { s with
    winTicks := n
    idleSeen := m } := h

theorem setFrameTicks_memOk {f : BitVec 64} {n : Nat} (h : MemOk s) : MemOk { s with
    frame := f
    winTicks := n } := h

theorem tickOn_memOk (h : MemOk s) : MemOk (tickOn s) :=
  mscTick_memOk (foldl_memOk _ (fun _ _ ht => rqTurn_memOk ht) _ (setTicks_memOk (slipAll_memOk (setFrame_memOk h))))

theorem execFrameTick_keepsMem : KeepsMem execFrameTick := fun _ h =>
  memOk_choice h (memOk_choice (mscTick_memOk (setFrameTicks_memOk h)) (memOk_choice (tickOn_memOk h)
    (memOk_choice (mscTick_memOk h) h)))

theorem setWindow_memOk {n m : Nat} {p : BitVec 32} {l : BitVec 2} (h : MemOk s) : MemOk { s with
    winTicks := n
    pwrInput := p
    plvl := l
    overWins := m } := h

theorem execPowerWindow_keepsMem (w) : KeepsMem (execPowerWindow w) := fun _ h =>
  outOk_ite h (memOk_choice (logEvent_memOk (setWindow_memOk h)) (setWindow_memOk h))

theorem setState_memOk {p : BitVec 2} (h : MemOk s) : MemOk { s with pwrState := p } := h

theorem execIdleEnter_keepsMem : KeepsMem execIdleEnter := fun _ h => memOk_choice (setState_memOk h) h

theorem execCounterCommit_keepsMem : KeepsMem execCounterCommit := fun _ h =>
  memOk_choice h (commitCounters_memOk (mscCount_memOk h))

end

end Sys2Proof.Proofs.BootMemory
end

section
/-! Every step keeps memory in its canonical form (log entry 1): the instructions together, the turns of the streams and queues,
the package's own actions, and O53. -/
namespace Sys2Proof.Proofs.StepMemory
open Sys2Proof Sys2Proof.Machine Sys2Proof.Safety Sys2Proof.Laws Sys2Proof.Proofs.ArrayState Sys2Proof.Proofs.ScalarMemory
  Sys2Proof.Proofs.VectorMemory Sys2Proof.Proofs.MatrixMemory Sys2Proof.Proofs.CopyMemory Sys2Proof.Proofs.QueueMemory
  Sys2Proof.Proofs.CrewMemory Sys2Proof.Proofs.MoveMemory Sys2Proof.Proofs.TierMemory Sys2Proof.Proofs.HostMemory
  Sys2Proof.Proofs.LinkMemory Sys2Proof.Proofs.BootMemory

/-! ## The instructions that share an operation -/

theorem setPfx_memOk {s : State} {p : Prefixes} (h : MemOk s) : MemOk { s with pfx := p } := h

theorem vec2_keepsMem (f tk vd va vb bsel) : KeepsMem (vec2 f tk vd va vb bsel) := fun _ h => vecOp_keepsMem _ _ _ _ _ _ h

theorem vecSeed_keepsMem (g tk vd va byp) : KeepsMem (vecSeed g tk vd va byp) := fun _ h =>
  vecOp_keepsMem _ _ _ _ _ _ h

theorem linear_keepsMem (tk sps spd cs cd xa xb ui xc) : KeepsMem (linear tk sps spd cs cd xa xb ui xc) := fun _ h =>
  issueCopy_keepsMem _ _ _ _ h

theorem nullCopy_keepsMem (k tk xa xb xc ui) : KeepsMem (nullCopy k tk xa xb xc ui) := fun _ h =>
  issueCopy_keepsMem _ _ _ _ h

theorem execArrayGrant_keepsMem (q) : KeepsMem (execArrayGrant q) := fun _ h => arrayGrant_memOk h

/-! ## Every instruction -/

/-- Every instruction keeps memory canonical: each by the lemma of the operation it shares with others, or its own. -/
theorem exec_outOk {s : State} (i : Instr) (h : MemOk s) : OutOk (exec i s) := by
  cases i with dsimp only [exec]
  | arith | label | immx => exact setPfx_memOk h
  | snop => exact execSnop_keepsMem _ _ h
  | add | sub | andR | orR | xorR | sll | srl | sra | slt | sltu | minR | maxR | minu | maxu | mul | mulh | mulhu | mulhsu |
    div | divu | rem | remu => exact alu2_keepsMem _ _ _ _ _ _ h
  | addi | andi | ori | xori | slti | sltiu => exact aluI_keepsMem _ _ _ _ _ _ h
  | slli | srli | srai => exact shiftI_keepsMem _ _ _ _ _ _ h
  | lui => exact execLui_keepsMem _ _ _ _ h
  | cinspBase | cinspLen | cinspRights | cinspObj | cinspGen => exact cinsp_keepsMem _ _ _ _ _ h
  | pgcommit => exact execPgcommit_keepsMem _ _ _ _ _ h
  | pgfree => exact execPgfree_keepsMem _ _ _ _ _ h
  | pgquery => exact execPgquery_keepsMem _ _ _ _ _ h
  | cwin => exact execCwin_keepsMem _ _ _ _ _ _ h
  | crt => exact execCrt_keepsMem _ _ _ _ _ h
  | cmov => exact execCmov_keepsMem _ _ _ _ h
  | ldb | ldbu | ldh | ldhu | ldw | ldwu | ldd => exact loadSM_keepsMem _ _ _ _ _ _ _ _ h
  | stb | sth | stw | std => exact storeSM_keepsMem _ _ _ _ _ _ _ h
  | spld => exact loadSP_keepsMem _ _ _ _ _ _ _ h
  | spst => exact storeSP_keepsMem _ _ _ _ _ _ h
  | rspld => exact loadCW_keepsMem _ _ _ _ _ _ _ h
  | rspst => exact storeCW_keepsMem _ _ _ _ _ _ h
  | amoadd | amomin | amomax | amoand | amoor | amoxor | amoswap | amocas => exact amoMem_keepsMem _ _ _ _ _ _ _ _ h
  | spamoAdd | spamoMin | spamoMax | spamoAnd | spamoOr | spamoXor | spamoSwap |
    spamoCas => exact amoSP_keepsMem _ _ _ _ _ _ _ _ h
  | beq | bne | blt | bge | bltu | bgeu => exact branch_keepsMem _ _ _ _ _ _ h
  | jmp => exact execJmp_keepsMem _ _ _ h
  | call => exact execCall_keepsMem _ _ _ h
  | jr => exact execJr_keepsMem _ _ _ h
  | callr => exact execCallr_keepsMem _ _ _ h
  | tkpop => exact execTkpop_keepsMem _ _ h
  | tkpush => exact execTkpush_keepsMem _ _ h
  | tkwait => exact execTkwait_keepsMem _ _ _ h
  | semsig => exact execSemsig_keepsMem _ _ _ _ _ h
  | semwaitGe | semwaitEq | semwaitNe => exact semwait_keepsMem _ _ _ _ _ _ h
  | semrd => exact execSemrd_keepsMem _ _ _ _ h
  | rbind => exact execRbind_keepsMem _ _ _ _ _ _ h
  | runbind => exact execRunbind_keepsMem _ _ _ _ _ _ h
  | acq => exact execAcq_keepsMem _ _ _ _ h
  | rel => exact execRel_keepsMem _ _ _ _ _ h
  | fence => exact execFence_keepsMem _ _ _ _ h
  | barrive => exact execBarrive_keepsMem _ _ _ h
  | bwait => exact execBwait_keepsMem _ _ _ h
  | cbar => exact execCbar_keepsMem _ _ h
  | srr => exact execSrr_keepsMem _ _ _ _ h
  | srw => exact execSrw_keepsMem _ _ _ _ h
  | safept => exact execSafept_keepsMem _ _ _ h
  | sEnd => exact execSEnd_keepsMem _ _ h
  | brk | trapu => exact userTrap_keepsMem _ _ _ _ _ h
  | uiret => exact execUiret_keepsMem _ _ h
  | vnop => exact execVnop_keepsMem _ _ h
  | vadd | vsub | vmul | vmin | vmax => exact vec2_keepsMem _ _ _ _ _ _ _ h
  | vfma | vabs | vneg => exact vecOp_keepsMem _ _ _ _ _ _ h
  | vand | vor | vxor => exact vecLogic_keepsMem _ _ _ _ _ _ _ h
  | vshiftL | vshiftR | vshiftA => exact vecShift_keepsMem _ _ _ _ _ _ h
  | vsel => exact execVsel_keepsMem _ _ _ _ _ _ h
  | vwmul | vwadd => exact vecWide_keepsMem _ _ _ _ _ _ h
  | vmov | vrev => exact vecMove_keepsMem _ _ _ _ _ _ h
  | vcmpEq | vcmpLt | vcmpLe | vcmpNe => exact vecCmp_keepsMem _ _ _ _ _ _ h
  | pand | por | pxor | pandn => exact pLogic_keepsMem _ _ _ _ _ _ h
  | pnot | pmov => exact pLogic1_keepsMem _ _ _ _ _ h
  | pwhile => exact execPwhile_keepsMem _ _ _ _ _ h
  | pcnt => exact execPcnt_keepsMem _ _ _ _ _ h
  | vexp2 | vlog2 | vrecip | vrsqrt => exact vecSeed_keepsMem _ _ _ _ _ _ h
  | vcvt | vcvtAmax => exact vecCvt_keepsMem _ _ _ _ _ _ h
  | vcast => exact execVcast_keepsMem _ _ _ _ _ h
  | vsplat => exact execVsplat_keepsMem _ _ _ _ _ h
  | vext => exact execVext_keepsMem _ _ _ _ _ h
  | vins => exact execVins_keepsMem _ _ _ _ _ _ h
  | viota => exact execViota_keepsMem _ _ _ _ _ _ h
  | vredSum | vredMax | vredMin | vredAmax => exact vecRed_keepsMem _ _ _ _ _ _ h
  | vscanSum => exact execVscanSum_keepsMem _ _ _ _ _ h
  | vscanMax => exact execVscanMax_keepsMem _ _ _ _ _ h
  | vperm => exact execVperm_keepsMem _ _ _ _ _ h
  | vslideUp | vslideDn | vzip | vunzip => exact vecPerm2_keepsMem _ _ _ _ _ _ h
  | vchain => exact execVchain_keepsMem _ _ _ _ h
  | vld | vldS | vldX => exact vecLoad_keepsMem _ _ _ _ _ _ _ _ _ h
  | vst | vstS | vstX => exact vecStore_keepsMem _ _ _ _ _ _ _ _ h
  | vspld => exact execVspld_keepsMem _ _ _ _ _ _ h
  | vspst => exact execVspst_keepsMem _ _ _ _ _ h
  | tld => exact execTld_keepsMem _ _ _ _ _ _ _ _ h
  | tst => exact execTst_keepsMem _ _ _ _ _ _ _ _ h
  | tcfg => exact execTcfg_keepsMem _ _ _ _ _ _ h
  | tzero => exact execTzero_keepsMem _ _ _ h
  | trowW | tcolW => exact sliceIn_keepsMem _ _ _ _ _ _ h
  | trowR | tcolR => exact sliceOut_keepsMem _ _ _ _ _ _ h
  | vbrAny | vbrAll | vbrNone => exact vecBranch_keepsMem _ _ _ _ _ h
  | vjmp => exact execVjmp_keepsMem _ _ _ h
  | vloop => exact execVloop_keepsMem _ _ _ h
  | vend => exact execVend_keepsMem _ _ h
  | mnop => exact execMnop_keepsMem _ _ h
  | mlease => exact execMlease_keepsMem _ _ _ h
  | munlease => exact execMunlease_keepsMem _ _ h
  | mwload => exact execMwload_keepsMem _ _ _ _ _ h
  | mwloadm => exact execMwloadm_keepsMem _ _ _ _ _ h
  | mpswap => exact execMpswap_keepsMem _ _ h
  | mregion => exact execMregion_keepsMem _ _ _ _ _ _ _ _ h
  | mstream => exact execMstream_keepsMem _ _ _ _ _ _ _ _ _ h
  | mbind => exact execMbind_keepsMem _ _ _ _ _ h
  | mrelease | mevclr => exact regionCtl_keepsMem _ _ _ _ h
  | mreleaseOne => exact execMreleaseOne_keepsMem _ _ _ _ h
  | mdrain | mdrainFree => exact drain_keepsMem _ _ _ _ _ _ h
  | mswap => exact execMswap_keepsMem _ _ _ _ h
  | mevrd => exact execMevrd_keepsMem _ _ _ _ _ _ h
  | mrank => exact execMrank_keepsMem _ _ _ _ _ _ _ _ _ _ h
  | mtopkLo | mtopkHi => exact topk_keepsMem _ _ _ _ _ _ _ h
  | mdist => exact execMdist_keepsMem _ _ _ _ _ _ h
  | mcntRd => exact execMcntRd_keepsMem _ _ _ _ h
  | mcntClr => exact execMcntClr_keepsMem _ _ _ h
  | mcplx => exact execMcplx_keepsMem _ _ _ _ _ _ h
  | msave => exact execMsave_keepsMem _ _ _ _ h
  | mrestore => exact execMrestore_keepsMem _ _ _ _ h
  | mloop => exact execMloop_keepsMem _ _ h
  | mend => exact execMend_keepsMem _ _ h
  | cnop => exact execCnop_keepsMem _ _ h
  | cpy | cpyin | cpyout => exact linear_keepsMem _ _ _ _ _ _ _ _ _ _ h
  | cpy2d | cpyCvt | cpyaccRd | cpyaccWr | cfill | cfillCw | cgath | cscat | crcp => exact issueCopy_keepsMem _ _ _ _ h
  | cnullZero | cnullId | cnullConst => exact nullCopy_keepsMem _ _ _ _ _ _ _ h
  | carm => exact execCarm_keepsMem _ _ _ _ _ _ h
  | cdisarm => exact execCdisarm_keepsMem _ _ _ h
  | cfence tk scope => exact execCfence_keepsMem tk scope _ h
  | cwaitAll => exact execCwaitAll_keepsMem _ _ h
  | cwaitLe => exact execCwaitLe_keepsMem _ _ _ h
  | cloop => exact execCloop_keepsMem _ _ h
  | cend => exact execCend_keepsMem _ _ h
  | nop => exact execNop_keepsMem _ _ h
  | launch => exact execLaunch_keepsMem _ _ h
  | launchm => exact execLaunchm_keepsMem _ _ _ h
  | copyP => exact execCopyP_keepsMem _ _ _ _ h
  | semsigP => exact execSemsigP_keepsMem _ _ _ h
  | semwaitP => exact execSemwaitP_keepsMem _ _ _ _ h
  | qfence => exact execQfence_keepsMem _ _ _ h
  | jumpP => exact execJumpP_keepsMem _ _ _ _ h
  | callP => exact execCallP_keepsMem _ _ _ _ h
  | returnP => exact execReturnP_keepsMem _ h
  | irq => exact execIrq_keepsMem _ _ _ h
  | frameBegin => exact execFrameBegin_keepsMem _ _ _ _ h
  | frameEnd => exact execFrameEnd_keepsMem _ h
  | releaseAt => exact execReleaseAt_keepsMem _ _ h
  | itin => exact execItin_keepsMem _ _ _ _ _ h
  | gather => exact execGather_keepsMem _ _ _ _ _ _ _ h
  | preempt => exact execPreempt_keepsMem _ _ _ _ _ h
  | setpri => exact execSetpri_keepsMem _ _ _ h
  | otinv => exact execOtinv_keepsMem _ _ _ _ h
  | move => exact execMove_keepsMem _ _ h
  | mcast => exact execMcast_keepsMem _ _ _ _ _ _ h
  | hint => exact execHint_keepsMem _ _ _ _ _ _ _ h
  | waitw => exact execWaitw_keepsMem _ _ _ h
  | mark => exact execMark_keepsMem _ _ _ _ _ h
  | repeatE => exact execRepeatE_keepsMem _ _ _ _ _ _ _ _ h
  | gust => exact execGust_keepsMem _ _ _ h
  | batch => exact execBatch_keepsMem _ _ _ _ _ _ h
  | itinEnd => exact execItinEnd_keepsMem _ h
  | doorbell => exact execDoorbell_keepsMem _ _ _ _ h
  | qctlSkip => exact execQctlSkip_keepsMem _ _ _ h
  | qctlRetry => exact execQctlRetry_keepsMem _ _ _ h
  | qctlRun => exact execQctlRun_keepsMem _ _ _ h
  | qctlReset => exact execQctlReset_keepsMem _ _ _ h
  | cpEvict => exact execCpEvict_keepsMem _ _ _ h
  | cpResume => exact execCpResume_keepsMem _ _ _ h
  | tecStop => exact execTecStop_keepsMem _ _ h
  | clrLull => exact execClrLull_keepsMem _ _ h
  | rqcStop => exact execRqcStop_keepsMem _ _ h
  | restore => exact execRestore_keepsMem _ _ h
  | rstCtlReset => exact execRstCtlReset_keepsMem _ h
  | pwrReqOn => exact execPwrReqOn_keepsMem _ h
  | pwrReqStandby => exact execPwrReqStandby_keepsMem _ h
  | pwrReqOff => exact execPwrReqOff_keepsMem _ h
  | fpPush => exact execFpPush_keepsMem _ _ _ h
  | registerWrite => exact execRegisterWrite_keepsMem _ _ _ h
  | powerOn => exact execPowerOn_keepsMem _ h
  | perst => exact execPerst_keepsMem _ h
  | bootPhase => exact execBootPhase_keepsMem _ _ h
  | frameTick => exact execFrameTick_keepsMem _ h
  | deadlineClose => exact execDeadlineClose_keepsMem _ _ h
  | overrun => exact execOverrun_keepsMem _ _ _ h
  | frameRelease => exact execFrameRelease_keepsMem _ _ _ h
  | releaseTick => exact execReleaseTick_keepsMem _ _ _ h
  | gustRelease => exact execGustRelease_keepsMem _ _ h
  | powerWindow => exact execPowerWindow_keepsMem _ _ h
  | idleEnter => exact execIdleEnter_keepsMem _ h
  | counterCommit => exact execCounterCommit_keepsMem _ h
  | tokenDeadlock => exact execTokenDeadlock_keepsMem _ _ h
  | arrayGrant => exact execArrayGrant_keepsMem _ _ h
  | watchdogRun => exact execWatchdogRun_keepsMem _ _ _ h
  | watchdogStall => exact execWatchdogStall_keepsMem _ _ _ h
  | watchdogQueue => exact execWatchdogQueue_keepsMem _ _ _ h
  | preemptOverdue => exact execPreemptOverdue_keepsMem _ _ _ _ h
  | crewDispatch => exact execCrewDispatch_keepsMem _ _ h
  | sweepDone => exact execSweepDone_keepsMem _ _ h
  | safePointSave => exact execSafePointSave_keepsMem _ _ _ h
  | crewRestore => exact execCrewRestore_keepsMem _ _ _ h
  | writeOut => exact execWriteOut_keepsMem _ _ h
  | lineFill => exact execLineFill_keepsMem _ _ _ _ h
  | copyComplete => exact execCopyComplete_keepsMem _ _ _ h
  | landingDone => exact execLandingDone_keepsMem _ _ h
  | uiDelivery => exact execUiDelivery_keepsMem _ _ h
  | faultEntry => exact execFaultEntry_keepsMem _ _ _ h
  | frameReturn => exact execFrameReturn_keepsMem _ _ h
  | launchComplete => exact execLaunchComplete_keepsMem _ _ _ h
  | shardFlit => exact execShardFlit_keepsMem _ _ _ _ h
  | ackFlit => exact execAckFlit_keepsMem _ _ _ _ h
  | failureFlit => exact execFailureFlit_keepsMem _ _ _ _ h
  | removalFlit => exact execRemovalFlit_keepsMem _ _ _ h
  | endOfStream => exact execEndOfStream_keepsMem _ _ h
  | acktoSource => exact execAcktoSource_keepsMem _ _ _ _ h
  | acktoMember => exact execAcktoMember_keepsMem _ _ h
  | completionTimeout => exact execCompletionTimeout_keepsMem _ _ h
  | cxlCompletion => exact execCxlCompletion_keepsMem _ _ _ _ h
  | hostReadTimeout => exact execHostReadTimeout_keepsMem _ _ _ h
  | flitReplay => exact execFlitReplay_keepsMem _ _ h
  | ovlanLinkDown => exact execOvlanLinkDown_keepsMem _ _ h
  | boundaryDown => exact execBoundaryDown_keepsMem _ _ h
  | thermalFreeze => exact execThermalFreeze_keepsMem _ _ _ h
  | thermalResume => exact execThermalResume_keepsMem _ _ h
  | mcWrite => exact execMcWrite_keepsMem _ _ h
  | mcRead => exact execMcRead_keepsMem _ _ _ _ h
  | entryDrain => exact execEntryDrain_keepsMem _ _ h
  | drainAge => exact execDrainAge_keepsMem _ _ h
  | promoteC2 => exact execPromoteC2_keepsMem _ _ h
  | scrubRead => exact execScrubRead_keepsMem _ _ _ h
  | readCounter => exact execReadCounter_keepsMem _ _ _ _ h
  | getCert => exact execGetCert_keepsMem _ _ _ h
  | attest => exact execAttest_keepsMem _ _ h
  | getLog => exact execGetLog_keepsMem _ _ _ h
  | debugRead => exact execDebugRead_keepsMem _ _ _ h
  | rawRead => exact execRawRead_keepsMem _ _ h
  | debugWrite => exact execDebugWrite_keepsMem _ _ _ _ h
  | fwStage => exact execFwStage_keepsMem _ _ _ h
  | fwCommit => exact execFwCommit_keepsMem _ _ h
  | setEndpointId => exact execSetEndpointId_keepsMem _ _ _ h
  | unknownCommand => exact execUnknownCommand_keepsMem _ _ h
  | linkRetrained => exact execLinkRetrained_keepsMem _ _ h
  | powerLoss => exact execPowerLoss_keepsMem _ h
  | hostWindowAccess => exact execHostWindowAccess_keepsMem _ _ _ _ _ _ h
  | accessPerformed => exact execAccessPerformed_keepsMem _ _ h
  | matrixFinish => exact execMatrixFinish_keepsMem _ _ h
  | moveComplete => exact execMoveComplete_keepsMem _ _ _ h
  | scrubWriteback => exact execScrubWriteback_keepsMem _ _ h

/-! ## A stream's turn -/

section
variable {s : State}

theorem decodeTrap_memOk {c : Nat} {e : Engine} {g : Nat} {k : Cause} {a : Nat} {ws : List Word} (h : MemOk s) :
    MemOk (decodeTrap s c e g k a ws) := takeTrap_memOk h

theorem applyPrefix_memOk {i : Instr} (h : MemOk s) : MemOk (applyPrefix s i) := by
  unfold applyPrefix
  split
  next hs => exact memOk_of_outOk (exec_outOk i h) hs
  next => exact h

theorem setGroup_memOk {p : Party} {g : Group} {f : Prefixes} (h : MemOk s) : MemOk { s with
    cur := p
    grp := g
    pfx := f } := h

theorem prepareGroup_memOk {c : Nat} {e : Engine} {g a n : Nat} {ws : List Word} (pre : List Instr) (h : MemOk s) :
    MemOk (prepareGroup s c e g a n ws pre) :=
  foldl_memOk _ (fun _ _ ht => applyPrefix_memOk ht) _ (setGroup_memOk (modStream_memOk h))

theorem closeTurn_outOk {o : Out} (h : OutOk o) : OutOk (closeTurn o) := by
  cases o with
  | next t => exact setGroup_memOk (s := t) h
  | _ => trivial

theorem touchGroup_memOk {c : Nat} {k : Handle} {o a b : Nat} (h : MemOk s) : MemOk (touchGroup s c k o a b) := h

theorem streamTurn_outOk (c : Nat) (e : Engine) (h : MemOk s) : OutOk (streamTurn s c e) := by
  unfold streamTurn
  split
  · exact h
  · refine outOk_ite (settleSafe_memOk (settle_memOk h)) ?_
    split
    · exact h
    · dsimp only
      split
      · exact wantLine_memOk h
      · exact settle_memOk (decodeTrap_memOk h)
      · split
        · exact wantLine_memOk h
        · exact outOk_ite (settle_memOk h) (settle_memOk (decodeTrap_memOk h))
        · exact closeTurn_outOk (exec_outOk _ (prepareGroup_memOk _ (touchGroup_memOk h)))

/-! ## A queue's turn -/

theorem execPacket_keepsMem (p : Packet) : KeepsMem (execPacket p) := by
  cases p with
  | nop => exact execNop_keepsMem _
  | launch => exact execLaunch_keepsMem _
  | launchm => exact execLaunchm_keepsMem _ _
  | copyP => exact execCopyP_keepsMem _ _ _
  | semsigP => exact execSemsigP_keepsMem _ _
  | semwaitP => exact execSemwaitP_keepsMem _ _ _
  | qfence => exact execQfence_keepsMem _ _
  | jumpP => exact execJumpP_keepsMem _ _ _
  | callP => exact execCallP_keepsMem _ _ _
  | returnP => exact execReturnP_keepsMem
  | irq => exact execIrq_keepsMem _ _
  | frameBegin => exact execFrameBegin_keepsMem _ _ _
  | frameEnd => exact execFrameEnd_keepsMem
  | releaseAt => exact execReleaseAt_keepsMem _
  | itin => exact execItin_keepsMem _ _ _ _
  | gather => exact execGather_keepsMem _ _ _ _ _ _
  | preempt => exact execPreempt_keepsMem _ _ _ _
  | setpri => exact execSetpri_keepsMem _ _
  | otinv => exact execOtinv_keepsMem _ _ _

theorem runQueued_outOk (die q : Nat) (x : Queue) (ws : List Word) (h : MemOk s) : OutOk (runQueued s die q x ws) := by
  unfold runQueued
  split
  · exact stopQueue_memOk h
  · exact outOk_ite (stopQueue_memOk h) (closeCtx_outOk (execPacket_keepsMem _ _ (setCur_memOk h)))

theorem nextPacket_outOk (die q : Nat) (h : MemOk s) : OutOk (nextPacket s die q) := by
  unfold nextPacket
  refine outOk_ite h ?_
  have h1 := queueWords_memOk 1 die (queueAt s die q) (queuePos s (queueAt s die q)) h
  split
  next hr => exact stopQueue_memOk (memOk_of_fail h1 hr)
  next hr => exact askQueue_memOk (memOk_of_ask h1 hr)
  next s1 hr =>
    refine outOk_ite h ?_
    have h2 := memOk_of_ok h1 hr
    dsimp only
    split
    next hr2 => exact stopQueue_memOk (memOk_of_fail (queueWords_memOk _ _ _ _ (modQueue_memOk h2)) hr2)
    next hr2 => exact askQueue_memOk (memOk_of_ask (queueWords_memOk _ _ _ _ (modQueue_memOk h2)) hr2)
    next hr2 => exact runQueued_outOk _ _ _ _ (memOk_of_ok (queueWords_memOk _ _ _ _ (modQueue_memOk h2)) hr2)

theorem queueTurn_outOk (die q : Nat) (h : MemOk s) : OutOk (queueTurn s die q) :=
  outOk_ite h (outOk_ite (passSkip_memOk h) (outOk_ite h (nextPacket_outOk die q h)))

/-! ## The package's own actions -/

theorem andThen_outOk {o : Out} {k : State → Out} (h : OutOk o) (hk : KeepsMem k) : OutOk (andThen o k) := by
  cases o with
  | next t => exact hk t h
  | _ => trivial

theorem chooseTurn_outOk (die : Nat) (h : MemOk s) : OutOk (chooseTurn s die) := by
  obtain ⟨hs, hp⟩ := chooseCrew_memOk die h
  unfold chooseTurn
  split
  next p t hc => exact hp p t (by rw [hc])
  next t hc => rw [hc] at hs; exact hs

theorem holdHot_outOk {o : Out} (h : MemOk s) (ho : OutOk o) : OutOk (holdHot s o) := by
  cases o with
  | next t => exact outOk_ite h ho
  | _ => trivial

theorem tickTurn_outOk (h : MemOk s) : OutOk (tickTurn s) :=
  andThen_outOk (execFrameTick_keepsMem s h) fun _ ht => setStall_memOk ht

theorem launchTurn_outOk (d n : Nat) (h : MemOk s) : OutOk (runAuto s (.launch d n)) := by
  unfold runAuto
  refine andThen_outOk (execFrameRelease_keepsMem d n s h) fun t ht => ?_
  exact andThen_outOk (execOverrun_keepsMem d n t ht) (execLaunchComplete_keepsMem d n)

theorem crewTurn_outOk (d k : Nat) (h : MemOk s) : OutOk (runAuto s (.crew d k)) := by
  unfold runAuto
  refine andThen_outOk (execSafePointSave_keepsMem d k s h) fun t ht => ?_
  refine andThen_outOk (execFaultEntry_keepsMem d k t ht) fun u hu => ?_
  exact andThen_outOk (execWatchdogRun_keepsMem d k u hu) (execWatchdogStall_keepsMem d k)

theorem runAuto_outOk (a : Auto) (h : MemOk s) : OutOk (runAuto s a) := by
  cases a with
  | stream c e => exact streamTurn_outOk c e h
  | queue d q => exact queueTurn_outOk d q h
  | ctx n => exact ctxTurn_keepsMem n s h
  | copy c k => exact execCopyComplete_keepsMem c k s h
  | access c => exact execAccessPerformed_keepsMem c s h
  | matrix c => exact execMatrixFinish_keepsMem c s h
  | ui c => exact execUiDelivery_keepsMem c s h
  | deadlock c => exact execTokenDeadlock_keepsMem c s h
  | tick => exact tickTurn_outOk h
  | grant q => exact execArrayGrant_keepsMem q s h
  | sweep c => exact execSweepDone_keepsMem c s h
  | choose d => exact chooseTurn_outOk d h
  | fill d k l => exact execLineFill_keepsMem d k l s h
  | frames d => exact execFrameReturn_keepsMem d s h
  | write c => exact execMcWrite_keepsMem c s h
  | drain c => exact execEntryDrain_keepsMem c s h
  | launch d n => exact launchTurn_outOk d n h
  | crew d k => exact crewTurn_outOk d k h
  | watch d q => exact execWatchdogQueue_keepsMem d q s h
  | landing n => exact execLandingDone_keepsMem n s h
  | port p => exact execCompletionTimeout_keepsMem p s h
  | link l =>
    cases l with
    | ovlan p => exact execOvlanLinkDown_keepsMem p s h
    | boundary b => exact execBoundaryDown_keepsMem b s h
    | cxl p => exact h

theorem setClock_memOk {n : Nat} (h : MemOk s) : MemOk { s with clock := n } := h

theorem autoTurn_outOk (h : MemOk s) : OutOk (autoTurn s) :=
  outOk_ite (outOk_ite h (tickTurn_outOk h)) (holdHot_outOk (setClock_memOk h) (runAuto_outOk _ (setClock_memOk h)))

/-! ## A step -/

theorem eventTurn_outOk (i : Instr) (h : MemOk s) : OutOk (eventTurn s i) := by
  have hi : OutOk (if isTick i then tickTurn { s with cur := .none } else exec i { s with cur := .none }) :=
    outOk_ite (tickTurn_outOk (setCur_memOk h)) (exec_outOk i (setCur_memOk h))
  unfold eventTurn
  split
  next ht => exact setGroup_memOk (memOk_of_outOk hi ht)
  next => exact h

theorem runTurn_outOk (t : Turn) (h : MemOk s) : OutOk (runTurn s t) := by
  refine holdHot_outOk h ?_
  cases t with
  | stream c e => exact streamTurn_outOk c e h
  | queue d q => exact queueTurn_outOk d q h
  | ctx n => exact ctxTurn_keepsMem n s h
  | event i => exact eventTurn_outOk i h

theorem setSchedule_memOk {l : List Turn} (h : MemOk s) : MemOk { s with schedule := l } := h

end

theorem step_keepsMem : KeepsMem step := by
  intro s h
  unfold step
  split
  · exact runTurn_outOk _ (setSchedule_memOk h)
  · exact autoTurn_outOk h

/-- Settles O53: whichever party acts, its turn is made of operations that each keep memory canonical. -/
theorem memoryStaysCanonical : Obligations.MemoryStaysCanonical := by
  unfold Obligations.MemoryStaysCanonical
  intro s t h hs
  exact memOk_of_outOk (step_keepsMem s h) hs

end Sys2Proof.Proofs.StepMemory
end
